-- ==== Sys2Proof/Word.lean ====
section
/-! DEFINITION. The word types of the Tirpa D1 and their plainest names: bytes, unit numbers. -/

namespace Sys2Proof

/-- A byte. Multi-byte fields are little-endian (R5). -/
abbrev Byte := BitVec 8

/-- A function number: 0 is the physical function, 1 to 63 the virtual functions (R316). -/
abbrev FnId := Fin 64

/-- A physical forge (R10). -/
abbrev ForgeId := Fin 64

/-- A ring pair of a function (R316). -/
abbrev RingId := Fin 64

/-- A physical Grizlink port (R10). -/
abbrev PortId := Fin 8

/-- A Plinth (R10). -/
abbrev PlinthId := Fin 8

/-- A T1 stack (R10). -/
abbrev StackId := Fin 16

/-- A T1 channel of the die, 32 to a stack (R10). -/
abbrev ChanId := Fin 512

/-- A Tongs channel of a forge (R97). -/
abbrev TongsId := Fin 8

/-- A chain of a Plinth: the four near-bank units that run each instruction together (R265, Table TIME-7). -/
abbrev ChainId := Fin 12

/-- A switched power domain (Table POWR-3). -/
abbrev DomId := Fin 100

end Sys2Proof
end

