-- ==== Sys2Proof/Syntax.lean ====
section
/-! DEFINITION. The commands of the block: one constructor of `Instr` per row of spec/opcode_table.json, and the operand types. -/

namespace Sys2Proof

/-- One host command as it stands after its packet was fetched and, where SEALED, decrypted (R321, R322, R326):
the fields of Table CMND-4 and of its payload-table entry, with the two outcomes that only the outside can supply
(the tag's verification, and a failed read of the payload). -/
structure Cmd where
  fn      : FnId
  /-- the ring it was fetched from; none is the admin ring -/
  ring    : Option RingId
  flags   : BitVec 8 := 0
  queue   : BitVec 8 := 0xFF
  seq     : BitVec 32 := 0
  session : BitVec 16 := 0
  ptr     : BitVec 16 := 0xFFFF
  len     : BitVec 32 := 0
  params  : BitVec 256 := 0
  tag     : BitVec 128 := 0
  payload : List Byte := []
  inAddr  : BitVec 64 := 0
  outAddr : BitVec 64 := 0
  outCap  : BitVec 32 := 0
  entryRsvd : BitVec 96 := 0
  tagOk   : Bool := true
  payloadErr : Bool := false
  deriving DecidableEq, Repr

/-- What a read of one 4 KiB block of T2 meets in the devices: bursts that on-die ECC corrected (R255), and words of the 2,050
that come back changed (R259). -/
structure BlockRead where
  odecc : Nat := 0
  errs : List (Nat × Nat) := []
  deriving DecidableEq, Repr

/-- A block that is read, and whether its block tag of R160 verifies. The block's number counts from the start of a Range, of T2,
or of the space that the command names. -/
structure BlockErr extends BlockRead where
  block : Nat
  tagOk : Bool := true
  deriving DecidableEq, Repr

/-- What a step that reads the tiers meets in the devices: the T1 beats that come back changed, by Range address in units of
32 bytes, each with what is changed in its 40 symbols (R238); the blocks of T2, by Range address in units of 4 KiB; and whether
a line of the heat area is lost (R311). -/
structure Lines where
  beats : List (Nat × BitVec 320) := []
  blocks : List BlockErr := []
  heatArea : Bool := false
  deriving DecidableEq, Repr

/-- What a unit of T1 holds that a scrub visits (R240): a line of a function's Range, at an address; a line of a function's heat
area, or neither, at a unit's number. -/
inductive ScrubAt where
  | page (fn : FnId)
  | heat (fn : FnId)
  | other
  deriving DecidableEq, Repr

/-- What the boot's outside supplies (Table TRST-1, TRST-2): the PUF, the tests, the channels that do not train, the host link. -/
structure BootEnv where
  pufFails  : Nat := 0
  kats      : Bool := true
  certOk    : Bool := true
  /-- SEQs of Ledger records that fail their HMAC at the scan -/
  ledgerBad : List Nat := []
  deadChans : List ChanId := []
  width     : Nat := 16
  rate      : Nat := 7
  vfs       : Nat := 63
  /-- event 7 still runs when the admin ring is first served -/
  slowT1    : Bool := false
  deriving DecidableEq, Repr

/-- The outcome of bringing up one physical port (R352, R357): what the partner at the far end does. -/
inductive Partner where
  | absent
  | untrained
  /-- it fails a case of R357: the case less 1 -/
  | hostile (kase : Fin 4)
  /-- authenticated; its port number, chip identifier, key digest, then the conditions of the lanes, four bits each by Table GRIZ-4
  without the lane map, the good lanes of the other direction, the lane map, the inverted lanes -/
  | ok (port : Nat) (chip : BitVec 16) (digest : BitVec 256) (codes : BitVec 64) (far : BitVec 16) (laneMap : BitVec 64)
      (inverted : BitVec 16)
  deriving DecidableEq, Repr

/-- A Grizlink record as a port delivers it: the header of Table GRIZ-7 but for KIND, which the command names, then its LENGTH
bytes. -/
structure Msg where
  flags   : BitVec 8 := 0
  format  : BitVec 8 := 0
  sub     : BitVec 8 := 0
  src     : BitVec 16 := 0
  dst     : BitVec 16 := 0
  cohort  : BitVec 64 := 0
  digest  : BitVec 32 := 0
  step    : BitVec 32 := 0
  seq     : BitVec 32 := 0
  body    : List Byte := []
  deriving DecidableEq, Repr

/-- The smallest enclosing unit that an anneal restarts (Table TIME-7). -/
inductive AnnealUnit where
  | lane (p : PortId) (l : Fin 16)
  | port (p : PortId)
  | channel (c : ChanId)
  | plinthUnit (n : PlinthId) (c : ChainId)
  | forge (f : ForgeId)
  | tenant (fn : FnId)
  | device
  deriving DecidableEq, Repr

/-- The commands: one constructor per row of spec/opcode_table.json, in its order. -/
inductive Instr where
  -- host commands (Table CMND-8)
  | nop (k : Cmd)
  | identify (k : Cmd)
  | setFeature (k : Cmd)
  | hearthCacheSegments (k : Cmd)
  | plinthScanGroups (k : Cmd)
  | regWrite (k : Cmd)
  | getFeature (k : Cmd)
  | regRead (k : Cmd)
  | quiesceHold (k : Cmd)
  | quiesceRelease (k : Cmd)
  | enableFunction (k : Cmd)
  | heldEnableProceed (fn : FnId)
  | disableFunction (k : Cmd)
  | openSession (k : Cmd)
  | closeSession (k : Cmd)
  | setPartition (k : Cmd)
  | rangeMap (k : Cmd)
  | rangeUnmap (k : Cmd)
  | loadBillets (k : Cmd)
  | sealPages (k : Cmd)
  | readOut (k : Cmd)
  | migratePrefetch (k : Cmd)
  | park (k : Cmd)
  | promote (k : Cmd)
  | migrateCopy (k : Cmd)
  | loadMould (k : Cmd)
  | runStep (k : Cmd)
  | runSteps (k : Cmd)
  | haltRun (k : Cmd)
  | queryRun (k : Cmd)
  | heatBegin (k : Cmd)
  | heatEndCommit (k : Cmd × Lines)
  | heatEndScrap (k : Cmd)
  | kvAllocSeq (k : Cmd)
  | kvFork (k : Cmd)
  | kvFreeSeq (k : Cmd)
  | prefixLookup (k : Cmd)
  | prefixPublish (k : Cmd)
  | kvDrop (k : Cmd)
  | kvDropSetPolicy (k : Cmd)
  | retrieveIndexLoad (k : Cmd)
  | retrieveScan (k : Cmd)
  | scanStart (fn : FnId)
  | linkBringup (k : Cmd) (partners : List (PortId × Partner))
  | linkStatus (k : Cmd)
  | cohortForm (k : Cmd)
  | cohortLeave (k : Cmd)
  | windowOpen (k : Cmd)
  | windowClose (k : Cmd)
  | fwLoad (k : Cmd)
  | fwStart (k : Cmd)
  | attest (k : Cmd)
  | keyExchange (k : Cmd)
  | ledgerRead (k : Cmd)
  | rollbackAdvance (k : Cmd)
  | selftestForge (k : Cmd) (failing : BitVec 32)
  | selftestHallmark (k : Cmd) (failing : BitVec 32)
  | stackRepairQuery (k : Cmd) (first : List (Nat × Nat × Nat))
  | stackRepairApply (k : Cmd)
  | channelMapout (k : Cmd) (bad : List (FnId × BitVec 48))
  | channelMapoutAtBoot (k : Cmd)
  | laneDiag (k : Cmd) (results : List (BitVec 64))
  | powerDomainOn (k : Cmd)
  | powerDomainOff (k : Cmd)
  | setPowerCap (k : Cmd)
  | thermalStatus (k : Cmd)
  | eventRingSetup (k : Cmd)
  | eventRingTeardown (k : Cmd)
  | eventAck (k : Cmd)
  -- stream instructions: the forge and the 16-byte instruction, byte 0 in bits 7..0 (R49)
  | phase (f : ForgeId) (w : BitVec 128)
  | end_ (f : ForgeId) (w : BitVec 128)
  | call (f : ForgeId) (w : BitVec 128)
  | return_ (f : ForgeId) (w : BitVec 128)
  | loop (f : ForgeId) (w : BitVec 128)
  | plinthFence (f : ForgeId) (w : BitVec 128)
  | tongsRun (f : ForgeId) (w : BitVec 128)
  | tongsWait (f : ForgeId) (w : BitVec 128)
  | tongsStop (f : ForgeId) (w : BitVec 128)
  | copy (f : ForgeId) (c : TongsId) (env : Lines)
  | fill (f : ForgeId) (c : TongsId)
  | compare (f : ForgeId) (c : TongsId) (env : Lines)
  | flush (f : ForgeId) (c : TongsId)
  | atomic (f : ForgeId) (c : TongsId) (env : Lines)
  | tongsDescComplete (f : ForgeId) (c : TongsId)
  | anvilCfg (f : ForgeId) (w : BitVec 128)
  | anvilMm (f : ForgeId) (w : BitVec 128)
  | swageCfg (f : ForgeId) (w : BitVec 128)
  | swageTable (f : ForgeId) (w : BitVec 128)
  | chiselOp (f : ForgeId) (w : BitVec 128) (stages : List (BitVec 128))
  | chiselTreg (f : ForgeId) (w : BitVec 128)
  | chiselTable (f : ForgeId) (w : BitVec 128)
  | crucCfg (f : ForgeId) (w : BitVec 128)
  | crucAttn (f : ForgeId) (w : BitVec 128) (env : Lines)
  | crucAppend (f : ForgeId) (w : BitVec 128)
  | pressScan (f : ForgeId) (w : BitVec 128)
  | pressEncode (f : ForgeId) (w : BitVec 128)
  | pressTableOut (f : ForgeId) (w : BitVec 128)
  | plinthRun (f : ForgeId) (w : BitVec 128)
  -- Plinth
  | plinthApertureWrite (f : ForgeId) (c : TongsId)
  | dot (n : PlinthId) (c : ChainId)
  | ldr (n : PlinthId) (c : ChainId)
  | unitNop (n : PlinthId) (c : ChainId)
  | accessPhaseEnd (n : PlinthId) (c : ChainId)
  | resultRelease (n : PlinthId) (c : ChainId) (rows : List (Nat × BlockRead)) (badTags : List Nat) (results : List (Nat × BlockRead))
  | plinthRefresh (n : PlinthId) (dev : Fin 6) (bank : Fin 16)
  | plinthScrub (n : PlinthId) (frame block : Nat) (e : BlockRead)
  | plinthLinkFlit (n : PlinthId) (ok : Bool)
  -- near tier
  | nearScrub (c : ChanId) (what : ScrubAt) (place : Nat) (errs : List (Fin 8 × BitVec 320))
  | rowRefresh (c : ChanId) (bank : Nat) (row : Nat)
  | t1PhyLockLoss (c : ChanId)
  | t1CorrectionCount (c : ChanId)
  | t1RetrainComplete (c : ChanId) (ticks : BitVec 32)
  -- timeouts and timers
  | slotTimeout (f : ForgeId) (slot : BitVec 8)
  | tongsDescriptorTimeout (f : ForgeId) (c : TongsId)
  | plinthInstructionTimeout (n : PlinthId) (c : ChainId)
  | t1ChannelRetrainTimeout (c : ChanId)
  | laneRetrainTimeout (p : PortId) (l : Fin 16)
  | acknowledgementTimeout (p : PortId)
  | creditStarvationTimeout (p : PortId)
  | heatCommitPhaseTimeout (fn : FnId) (slot : Fin 32)
  | stepDeadline (fn : FnId) (mould : BitVec 64)
  | adminCommandTimeout (k : Cmd)
  | quiesceTimeout (fn : FnId)
  | smithWatchdog
  | annealBoundExpiry (u : AnnealUnit)
  | annealComplete (u : AnnealUnit)
  | stepRerun (fn : FnId) (mould : BitVec 64)
  | commandHeatLifetime (fn : FnId) (ring : RingId)
  | scanDeadline (fn : FnId) (id : Nat)
  | windowExpiry (handle : BitVec 16)
  | domainUndervoltage (d : DomId)
  | currentLimitOnset
  | inputCurrentLimit
  | stackHardLimit (st : StackId)
  | dieHardLimit (sensor : Fin 164)
  | gddr7HardLimit (n : PlinthId) (dev : Fin 6)
  | inDoubtQueryInterval (fn : FnId) (slot : Fin 32)
  | linkRekey (p : PortId)
  -- supply, reset, boot
  | refLock
  | refLost
  | powerOn
  | perstAssert
  | perstDeassert (env : BootEnv)
  | fwLoadHeldStart
  | supplyLow (mv10 : BitVec 16)
  | supplyOk (mv10 : BitVec 16)
  | shutdownThreshold
  | overvoltage
  | presentMate
  | presentBreak
  | powerSample (watts : BitVec 16)
  | dieThermalReading (temps : List (Fin 164 × BitVec 16))
  | quenchReport (st : StackId) (temp : BitVec 16)
  | gddr7TempReading (n : PlinthId) (temps : List (Fin 6 × BitVec 16))
  | errorSummary
  -- host interface
  | flr (fn : FnId)
  | flrPf
  | d3hotEntry (fn : FnId)
  | d0Return (fn : FnId)
  | hostDbSq (fn : FnId) (ring : Option RingId) (tail : BitVec 16)
  | hostDbRq (fn : FnId) (ring : Option RingId) (head : BitVec 16)
  | ringEnable (fn : FnId) (ring : Option RingId)
  | ringDisable (fn : FnId) (ring : Option RingId)
  | commandFetch (fn : FnId) (ring : Option RingId) (packet : BitVec 512) (entry : BitVec 256)
      (payload : List Byte) (fetchErr payloadErr : Bool)
  | replyWrite (fn : FnId) (ring : Option RingId) (payloadErr replyErr : Bool)
  | interruptCoalesceTimer (fn : FnId) (ring : Option RingId)
  | eventVectorTimer
  | w1cWrite (addr : BitVec 48) (value : BitVec 32)
  | rocRead (addr : BitVec 48)
  | lowWordRead (addr : BitVec 48)
  | highWordRead (addr : BitVec 48)
  | registerWrite (addr : BitVec 48) (value : BitVec 32)
  -- test access port
  | extestLoad
  | extestLeave (env : BootEnv)
  | idcode
  | samplePreload (capture : Bool) (data : BitVec 16)
  | bypass (code : BitVec 4)
  -- Grizlink
  | frame (p : PortId) (seq : BitVec 12) (ack : BitVec 12) (retry tagOk : Bool) (data : List (Fin 8 × Fin 256 × BitVec 8)) (check : List (Fin 8 × Fin 24 × BitVec 8))
  | laneRetrainTrigger (p : PortId) (l : Fin 16) (code : BitVec 4)
  | laneRetrainComplete (p : PortId) (l : Fin 16)
  | data (p : PortId) (m : Msg)
  | credit (p : PortId) (m : Msg)
  | request (p : PortId) (m : Msg)
  | release (p : PortId) (m : Msg)
  | discard (p : PortId) (m : Msg)
  | digest (p : PortId) (m : Msg)
  | windowReq (p : PortId) (m : Msg)
  | windowResp (p : PortId) (m : Msg)
  | key (p : PortId) (message : Fin 4) (body : List Byte)
  | votePrepared (p : PortId) (m : Msg)
  | voteScrap (p : PortId) (m : Msg)
  | decisionCommit (p : PortId) (m : Msg)
  | decisionScrap (p : PortId) (m : Msg)
  | ack (p : PortId) (m : Msg)
  | query (p : PortId) (m : Msg)
  -- steps and heats
  | stepGateOpen (fn : FnId) (mould : BitVec 64)
  | localCommit (fn : FnId) (slot : Fin 32) (env : Lines)
  | fold (fn : FnId) (slot : Fin 32 × Lines)
  | epochAdvance (fn : FnId)
  | dropPolicy (fn : FnId) (mould : BitVec 64)
  | billetArrival (fn : FnId) (addr : BitVec 48)
  | migrationCopyComplete (fn : FnId) (addr : BitVec 48) (tagOk : Bool)
  | scanComplete (fn : FnId) (id : Nat) (rowTagsOk : Bool)
  | plinthLinkRetrainComplete (n : PlinthId)
  | currentLimitRelease
  | undervoltageOnset (d : DomId)
  | undervoltageRecovery (d : DomId)
  | completionError (fn : FnId) (ring : Option RingId) (seq : BitVec 32) (event : Bool)
  | hotReset (env : BootEnv)
  | entropyHealthFail
  deriving DecidableEq, Repr

end Sys2Proof
end

