-- ==== Sys2Proof/Machine/Bits.lean ====
section
/-! DEFINITION. Byte-order, bit-field and counting helpers that every meaning uses. -/

namespace Sys2Proof.Machine

/-- The number a little-endian byte string spells (R5). -/
def leNat : List Byte → Nat
  | [] => 0
  | b :: bs => b.toNat + 256 * leNat bs

/-- The `n` low bytes of a number, little-endian (R5). -/
def toLe : Nat → Nat → List Byte
  | 0, _ => []
  | n + 1, v => BitVec.ofNat 8 v :: toLe n (v / 256)

/-- Exactly `n` bytes: cut or zero-filled at the end. -/
def fit (n : Nat) (l : List Byte) : List Byte :=
  l.take n ++ List.replicate (n - l.length) 0

/-- The bytes `off` to `off + n - 1` of a string, missing bytes reading as zero. -/
def slice (l : List Byte) (off n : Nat) : List Byte := fit n (l.drop off)

/-- The little-endian number of `n` bytes at `off`. -/
def u (l : List Byte) (off n : Nat) : Nat := leNat (slice l off n)

/-- The field of `w` bits at bit `lo` of a number. -/
def bits (v lo w : Nat) : Nat := (v / 2 ^ lo) % 2 ^ w

/-- One bit of a number. -/
def bit (v i : Nat) : Bool := (v / 2 ^ i) % 2 == 1

/-- 1 for true, 0 for false. -/
def b2n (b : Bool) : Nat := if b then 1 else 0

/-- The signed reading of the `w` low bits of a number. -/
def sext (w v : Nat) : Int :=
  let x := v % 2 ^ w
  if x < 2 ^ (w - 1) then (x : Int) else (x : Int) - (2 ^ w : Nat)

/-- The `w` low bits of an integer in two's complement. -/
def wrapInt (w : Nat) (x : Int) : Nat := (x % ((2 ^ w : Nat) : Int)).toNat

/-- A counter of `w` bits that saturates at all ones. -/
def satAdd (w c d : Nat) : Nat := min (c + d) (2 ^ w - 1)

/-- A 32-bit saturating increment, the commonest counter of the register maps. -/
def inc32 (c : Nat) : Nat := satAdd 32 c 1

/-- All bytes of a range zero. -/
def zeroAt (l : List Byte) (off n : Nat) : Bool := (slice l off n).all (· == 0)

/-- Every byte outside the listed (offset, length) fields, below `len`, is zero (R7). -/
def zeroOutside (l : List Byte) (len : Nat) (fields : List (Nat × Nat)) : Bool :=
  (List.range len).all fun i =>
    fields.any (fun p => p.1 ≤ i && i < p.1 + p.2) || (l.getD i 0) == 0

/-- Number of one bits among the low `w` bits. -/
def popcount : Nat → Nat → Nat
  | 0, _ => 0
  | w + 1, v => v % 2 + popcount w (v / 2)

/-- The numbers below `w` whose bit is set, ascending. -/
def bitsSet (w v : Nat) : List Nat := (List.range w).filter (bit v)

/-- The bytes of a bit vector of `n` bytes, little-endian. -/
def bvBytes (n : Nat) {w : Nat} (v : BitVec w) : List Byte := toLe n v.toNat

/-- The ASCII bytes of a string. -/
def ascii (s : String) : List Byte := s.toList.map fun c => BitVec.ofNat 8 c.toNat

/-- Digests are held as their byte string read big-endian; this gives the 32 bytes in order. -/
def digestBytes (d : BitVec 256) : List Byte := (toLe 32 d.toNat).reverse

/-- The digest or key that 32 bytes spell. -/
def toDigest (l : List Byte) : BitVec 256 := BitVec.ofNat 256 (leNat (fit 32 l).reverse)

/-- Round a quotient up. -/
def ceilDiv (a b : Nat) : Nat := (a + b - 1) / b

/-- Replace the element at an index of a list. -/
def listSet {α : Type} (l : List α) (i : Nat) (x : α) : List α := l.set i x

/-- Update the first element that meets a test. -/
def updateFirst {α : Type} (p : α → Bool) (g : α → α) : List α → List α
  | [] => []
  | x :: xs => if p x then g x :: xs else x :: updateFirst p g xs

/-- Update every element that meets a test. -/
def updateWhere {α : Type} (p : α → Bool) (g : α → α) (l : List α) : List α :=
  l.map fun x => if p x then g x else x

/-- Update one element of a vector. -/
def vmod {α : Type} {n : Nat} (v : Vector α n) (i : Fin n) (g : α → α) : Vector α n := v.set i (g v[i])

/-- Insert by a key in ascending order. -/
def insertAsc {α : Type} (key : α → Nat) (x : α) : List α → List α
  | [] => [x]
  | y :: ys => if key x ≤ key y then x :: y :: ys else y :: insertAsc key x ys

/-- A stable sort by a key, ascending (by insertion, so that it is structural). -/
def sortAsc {α : Type} (key : α → Nat) (l : List α) : List α := l.foldr (insertAsc key) []

/-- Fold with a step that may fail; the first failure ends it. -/
def foldE {α σ ε : Type} (g : σ → α → Except ε σ) : List α → σ → Except ε σ
  | [], s => .ok s
  | x :: xs, s => match g s x with
    | .ok s => foldE g xs s
    | .error e => .error e

/-- Apply a function `n` times. -/
def iter {σ : Type} (g : σ → σ) : Nat → σ → σ
  | 0, s => s
  | n + 1, s => iter g n (g s)

/-- CRC-32C of a byte string (R103). -/
def crc32c (bs : List Byte) : Nat :=
  let step := fun (c : BitVec 32) => if c.getLsbD 0 then (c >>> 1) ^^^ 0x82F63B78#32 else c >>> 1
  (~~~(bs.foldl (fun (c : BitVec 32) b => iter step 8 (c ^^^ (b.zeroExtend 32))) 0xFFFFFFFF#32)).toNat

end Sys2Proof.Machine
end

