-- ==== Sys2Proof/Machine/Hash.lean ====
section
/-! DEFINITION. The hashes that the spec names: SHA-256 and HMAC-SHA-256 (R212, R378), the key derivation over the latter (R355,
R393), SipHash-2-4 (R235). -/

namespace Sys2Proof.Machine

/-! ### SHA-256 (FIPS 180-4) -/

abbrev W32 := BitVec 32

/-- The round constants. -/
def shaK : List W32 :=
  [0x428a2f98, 0x71374491, 0xb5c0fbcf, 0xe9b5dba5, 0x3956c25b, 0x59f111f1, 0x923f82a4, 0xab1c5ed5,
   0xd807aa98, 0x12835b01, 0x243185be, 0x550c7dc3, 0x72be5d74, 0x80deb1fe, 0x9bdc06a7, 0xc19bf174,
   0xe49b69c1, 0xefbe4786, 0x0fc19dc6, 0x240ca1cc, 0x2de92c6f, 0x4a7484aa, 0x5cb0a9dc, 0x76f988da,
   0x983e5152, 0xa831c66d, 0xb00327c8, 0xbf597fc7, 0xc6e00bf3, 0xd5a79147, 0x06ca6351, 0x14292967] ++
  [0x27b70a85, 0x2e1b2138, 0x4d2c6dfc, 0x53380d13, 0x650a7354, 0x766a0abb, 0x81c2c92e, 0x92722c85,
   0xa2bfe8a1, 0xa81a664b, 0xc24b8b70, 0xc76c51a3, 0xd192e819, 0xd6990624, 0xf40e3585, 0x106aa070,
   0x19a4c116, 0x1e376c08, 0x2748774c, 0x34b0bcb5, 0x391c0cb3, 0x4ed8aa4a, 0x5b9cca4f, 0x682e6ff3,
   0x748f82ee, 0x78a5636f, 0x84c87814, 0x8cc70208, 0x90befffa, 0xa4506ceb, 0xbef9a3f7, 0xc67178f2]

/-- The eight working words. -/
structure Sha where
  a : W32
  b : W32
  c : W32
  d : W32
  e : W32
  f : W32
  g : W32
  h : W32
  deriving DecidableEq, Repr

def shaInit : Sha :=
  ⟨0x6a09e667, 0xbb67ae85, 0x3c6ef372, 0xa54ff53a, 0x510e527f, 0x9b05688c, 0x1f83d9ab, 0x5be0cd19⟩

/-- One round with a schedule word and its constant. -/
def Sha.round (x : Sha) (w k : W32) : Sha :=
  let s1 := x.e.rotateRight 6 ^^^ x.e.rotateRight 11 ^^^ x.e.rotateRight 25
  let t1 := x.h + s1 + ((x.e &&& x.f) ^^^ (~~~x.e &&& x.g)) + k + w
  let s0 := x.a.rotateRight 2 ^^^ x.a.rotateRight 13 ^^^ x.a.rotateRight 22
  let t2 := s0 + ((x.a &&& x.b) ^^^ (x.a &&& x.c) ^^^ (x.b &&& x.c))
  ⟨t1 + t2, x.a, x.b, x.c, x.d + t1, x.e, x.f, x.g⟩

def Sha.add (x y : Sha) : Sha :=
  ⟨x.a + y.a, x.b + y.b, x.c + y.c, x.d + y.d, x.e + y.e, x.f + y.f, x.g + y.g, x.h + y.h⟩

/-- The word that follows the last sixteen of the schedule. -/
def shaNext (w : List W32) : W32 :=
  let x := w.getD 1 0
  let y := w.getD 14 0
  (y.rotateRight 17 ^^^ y.rotateRight 19 ^^^ y >>> 10) + w.getD 9 0
    + (x.rotateRight 7 ^^^ x.rotateRight 18 ^^^ x >>> 3) + w.getD 0 0

/-- The rounds of one block over its sixteen words; the window of the schedule moves on with each round. -/
def shaRounds : List W32 → List W32 → Sha → Sha
  | [], _, x => x
  | k :: ks, w, x => shaRounds ks (w.drop 1 ++ [shaNext w]) (x.round (w.getD 0 0) k)

/-- The big-endian 32-bit words of a byte string. -/
def beWords : Nat → List Byte → List W32
  | 0, _ => []
  | n + 1, b => BitVec.ofNat 32 (leNat (b.take 4).reverse) :: beWords n (b.drop 4)

/-- The blocks of a padded message. -/
def shaBlocks : Nat → List Byte → Sha → Sha
  | 0, _, x => x
  | n + 1, b, x => shaBlocks n (b.drop 64) (x.add (shaRounds shaK (beWords 16 (b.take 64)) x))

/-- The message with its padding and its length in bits. -/
def shaPad (b : List Byte) : List Byte :=
  b ++ [0x80] ++ List.replicate ((119 - b.length % 64) % 64) 0 ++ (toLe 8 (8 * b.length)).reverse

/-- SHA-256 of a byte string, its 32 bytes read big-endian. -/
def sha256 (b : List Byte) : BitVec 256 :=
  let x := shaBlocks ((shaPad b).length / 64) (shaPad b) shaInit
  x.a ++ x.b ++ x.c ++ x.d ++ x.e ++ x.f ++ x.g ++ x.h

/-- HMAC-SHA-256 of a byte string under a key. -/
def hmac (key b : List Byte) : BitVec 256 :=
  let k := fit 64 (if 64 < key.length then digestBytes (sha256 key) else key)
  let pad := fun (c : Byte) => k.map (· ^^^ c)
  sha256 (pad 0x5C ++ digestBytes (sha256 (pad 0x36 ++ b)))

/-- The SP 800-108 counter-mode KDF with HMAC-SHA-256: key, label, context, bytes wanted (R355). The counter stands first, in four
bytes, a zero byte parts label and context, and the length in bits ends the input (DESIGN CHOICE, log 3). -/
def kdf (key label context : List Byte) (n : Nat) : List Byte :=
  let block := fun (i : Nat) => digestBytes (hmac key ((toLe 4 i).reverse ++ label ++ [0] ++ context ++ (toLe 4 (8 * n)).reverse))
  (((List.range (ceilDiv n 32)).map fun i => block (i + 1)).flatten).take n

/-! ### SipHash-2-4 -/

/-- The four words of its state. -/
structure Sip where
  v0 : BitVec 64
  v1 : BitVec 64
  v2 : BitVec 64
  v3 : BitVec 64
  deriving DecidableEq, Repr

def Sip.round (x : Sip) : Sip :=
  let a := x.v0 + x.v1
  let b := x.v1.rotateLeft 13 ^^^ a
  let a := a.rotateLeft 32
  let c := x.v2 + x.v3
  let d := x.v3.rotateLeft 16 ^^^ c
  let a := a + d
  let d := d.rotateLeft 21 ^^^ a
  let c := c + b
  let b := b.rotateLeft 17 ^^^ c
  ⟨a, b, c.rotateLeft 32, d⟩

/-- Two rounds over a message word. -/
def Sip.absorb (x : Sip) (m : BitVec 64) : Sip :=
  let y := iter Sip.round 2 { x with v3 := x.v3 ^^^ m }
  { y with v0 := y.v0 ^^^ m }

/-- SipHash-2-4 under a 128-bit key of the 8 little-endian bytes of a number. -/
def sipHash (key : BitVec 128) (n : Nat) : BitVec 64 :=
  let k0 : BitVec 64 := key.setWidth 64
  let k1 : BitVec 64 := (key >>> 64).setWidth 64
  let x : Sip := ⟨k0 ^^^ 0x736f6d6570736575, k1 ^^^ 0x646f72616e646f6d, k0 ^^^ 0x6c7967656e657261, k1 ^^^ 0x7465646279746573⟩
  let y := (x.absorb (BitVec.ofNat 64 n)).absorb (0x0800000000000000#64)
  let z := iter Sip.round 4 { y with v2 := y.v2 ^^^ 0xFF }
  z.v0 ^^^ z.v1 ^^^ z.v2 ^^^ z.v3

end Sys2Proof.Machine
end

