-- ==== Sys2Proof/Machine/Mem.lean ====
section
/-! DEFINITION. Byte memories as sorted lists of address and byte: reads, writes and the canonical form. -/

namespace Sys2Proof.Machine

/-- A sparse byte memory. -/
abbrev Memory := List Host.Cell

/-- The canonical form of the Range memory: addresses strictly rising, no byte equal to the zero that an unlisted
address reads as. -/
def Memory.wf : Memory → Bool
  | [] => true
  | [c] => c.2 != 0
  | c :: d :: m => c.2 != 0 && c.1 < d.1 && Memory.wf (d :: m)

/-- The byte listed at an address. -/
def Memory.find (m : Memory) (a : Nat) : Option Byte :=
  match m with
  | [] => none
  | c :: m => if c.1 = a then some c.2 else Memory.find m a

/-- The byte at an address, unlisted bytes reading as zero (R221). -/
def Memory.get (m : Memory) (a : Nat) : Byte := (m.find a).getD 0

/-- `n` bytes from an address. -/
def Memory.read (m : Memory) (a n : Nat) : List Byte := (List.range n).map fun i => m.get (a + i)

/-- Write one byte; writing zero removes the entry, so that equal memories are equal lists. -/
def Memory.put : Memory → Nat → Byte → Memory
  | [], a, b => if b = 0 then [] else [(a, b)]
  | c :: m, a, b =>
    if a < c.1 then (if b = 0 then c :: m else (a, b) :: c :: m)
    else if a = c.1 then (if b = 0 then m else (a, b) :: m)
    else c :: Memory.put m a b

/-- Write bytes at consecutive addresses. -/
def Memory.write (m : Memory) (a : Nat) : List Byte → Memory
  | [] => m
  | b :: bs => Memory.write (m.put a b) (a + 1) bs

/-- Zero every byte of `[a, a + n)`. -/
def Memory.clear (m : Memory) (a n : Nat) : Memory := m.filter fun c => c.1 < a || a + n ≤ c.1

/-- Write one byte of a memory whose unlisted bytes are not zero (a Hearth, a shadow): every written byte is listed. -/
def Memory.putAll : Memory → Nat → Byte → Memory
  | [], a, b => [(a, b)]
  | c :: m, a, b =>
    if a < c.1 then (a, b) :: c :: m
    else if a = c.1 then (a, b) :: m
    else c :: Memory.putAll m a b

/-- Write bytes at consecutive addresses of such a memory. -/
def Memory.writeAll (m : Memory) (a : Nat) : List Byte → Memory
  | [] => m
  | b :: bs => Memory.writeAll (m.putAll a b) (a + 1) bs

/-- The canonical form of such a memory: addresses strictly rising. -/
def Memory.sorted : Memory → Bool
  | [] => true
  | [_] => true
  | c :: d :: m => c.1 < d.1 && Memory.sorted (d :: m)

end Sys2Proof.Machine
end

