-- ==== Sys2Proof/Config.lean ====
section
/-! DEFINITION. What the part fixes and the spec leaves open: free values, device constants and the cryptographic
functions. Every one is an opaque constant: nothing can be proved of its value. -/

namespace Sys2Proof.Config

/-! ### Free values (assumption log 1) -/

/-- A byte the spec calls undefined: of a Hearth row nothing has written in this step (R56), by draw number. -/
opaque freeByte : Nat → Byte

/-- A free number, by draw number: a time, a count or a choice the spec leaves open (R36, R210). -/
opaque freeNat : Nat → Nat

/-! ### Constants of one part (assumption log 2) -/

/-- HOST_ID_STEPPING (R316): the silicon stepping. -/
opaque stepping : BitVec 16

/-- The four root key hashes of the ROM mask (R385). -/
opaque rootKeyHash : Fin 4 → BitVec 256

/-- The key that Hallmark reconstructs from the PUF of the die (R377). -/
opaque kPuf : BitVec 256

/-- The device certificate and the manufacturing CA certificate held in Ledger's manufacturing area (R380, R381). -/
opaque certificate : Fin 2 → List Byte

/-! ### Cryptography (assumption log 3) -/

/-- SLH-DSA-SHA2-128s verification: public key, message, signature. -/
opaque slhVerify : BitVec 256 → List Byte → List Byte → Bool

/-- PK.root of the SLH-DSA-SHA2-128s key pair that 48 seed bytes give (R378). -/
opaque slhRoot : List Byte → List Byte

/-- A hedged SLH-DSA-SHA2-128s signature of the identity key (R379), by draw number. -/
opaque slhSign : Nat → List Byte → List Byte

/-- An ML-KEM-768 key pair, by draw number: encapsulation key, decapsulation key. -/
opaque kemKeyGen : Nat → List Byte × List Byte

/-- ML-KEM-768 encapsulation, by draw number: ciphertext, shared secret. -/
opaque kemEncap : Nat → List Byte → List Byte × List Byte

/-- The shared secret and the messages of an exchange with a Grizlink partner at bring-up or in a port anneal (R355, R356), by draw
number. -/
opaque linkExchange : Nat → List Byte × List Byte

/-- ML-KEM-768 decapsulation: it never fails outright (R393). -/
opaque kemDecap : List Byte → List Byte → List Byte

/-- A 256-bit output of the DRBG of R388, by draw number. -/
opaque drbg : Nat → BitVec 256

/-- Bank, row and column group of a byte of a T1 channel (R252): the spec does not say how local bytes lie in them. -/
opaque dramPlace : Nat → Nat × Nat × Nat

/-- PREFIX_NODES of a prefix region of so many bytes (R201): the size of a node is not stated. -/
opaque prefixNodes : Nat → Nat

/-- The keyed hash that chooses the home of a shared-cache line (R88): a number taken modulo the homes. -/
opaque homeHash : Nat → Nat

/-- The set, of the 128 of its segment, that holds a shared-cache line (R88): a number taken modulo 128. -/
opaque cacheSet : Nat → Nat

end Sys2Proof.Config
end

