-- ==== Sys2Proof/Machine/Aes.lean ====
section
/-! DEFINITION. The cipher that the spec names, AES-256, with its modes: GCM for sessions and links (R326, R349), XTS and CMAC
for what Plinths store (R160, R282), and the keys that a die and its DRBG give. -/

namespace Sys2Proof.Machine

/-! ### AES-256 (FIPS 197) -/

/-- The S-box, 32 bytes to a word, byte 0 lowest. -/
def sboxRows : List Nat :=
  [0xc072a49cafa2d4adf04759fa7dc982ca76abd7fe2b670130c56f6bf27b777c63,
   0x75b227ebe28012079a059618c323c7041531d871f1e5a534ccf73f362693fdb7,
   0xcf584c4a39becb6a5bb1fc20ed00d153842fe329b3d63b52a05a6e1b1a2c8309,
   0xd2f3ff1021dab6bcf5389d928f40a351a89f3c507f02f94585334d43fbaaefd0] ++
  [0xdb0b5ede14b8ee4688902a22dc4f816073195d643d7ea7c41744975fec130ccd,
   0x08ae7a65eaf4566ca94ed58d6d37c8e779e4959162acd3c25c2406490a3a32e0,
   0x9e1dc186b95735610ef6034866b53e708a8bbd4b1f74dde8c6b4a61c2e2578ba,
   0x16bb54b00f2d99416842e6bf0d89a18cdf2855cee9871e9b948ed9691198f8e1]

def sbox (b : Byte) : Byte := BitVec.ofNat 8 (bits (sboxRows.getD (b.toNat / 32) 0) (8 * (b.toNat % 32)) 8)

/-- Multiply by x in the field of AES. -/
def xtime (b : Byte) : Byte := (b <<< 1) ^^^ (if b.msb then 0x1B else 0)

def xorBytes (a b : List Byte) : List Byte := List.zipWith (· ^^^ ·) a b

/-- The key words of four bytes each after those that stand, `n` more; `w` holds the last eight, `i` counts them. -/
def keyWords : Nat → Nat → Byte → List (List Byte) → List (List Byte)
  | 0, _, _, _ => []
  | n + 1, i, rc, w =>
    let last := w.getD 7 []
    let t := if i % 8 = 0 then xorBytes ((last.drop 1 ++ last.take 1).map sbox) [rc, 0, 0, 0]
      else if i % 8 = 4 then last.map sbox else last
    let next := xorBytes (w.headD []) t
    next :: keyWords n (i + 1) (if i % 8 = 0 then xtime rc else rc) (w.drop 1 ++ [next])

/-- Cut into pieces of `n` bytes, `m` of them. -/
def pieces (n : Nat) : Nat → List Byte → List (List Byte)
  | 0, _ => []
  | m + 1, l => l.take n :: pieces n m (l.drop n)

/-- The fifteen round keys of a key of 32 bytes. -/
def roundKeys (key : List Byte) : List (List Byte) :=
  let w := pieces 4 8 (fit 32 key)
  pieces 16 15 (w ++ keyWords 52 8 1 w).flatten

/-- Rows shift: byte r of column c comes from column c + r. -/
def shiftRows (s : List Byte) : List Byte := (List.range 16).map fun i => s.getD (i % 4 + 4 * ((i / 4 + i % 4) % 4)) 0

def mixColumn (c : List Byte) : List Byte :=
  (List.range 4).map fun i =>
    let a := c.getD i 0
    let b := c.getD ((i + 1) % 4) 0
    xtime a ^^^ xtime b ^^^ b ^^^ c.getD ((i + 2) % 4) 0 ^^^ c.getD ((i + 3) % 4) 0

/-- The rounds over the round keys that are left; the last one mixes no columns. -/
def aesRounds : List (List Byte) → List Byte → List Byte
  | [], s => s
  | [k], s => xorBytes (shiftRows (s.map sbox)) k
  | k :: ks, s => aesRounds ks (xorBytes (((pieces 4 4 (shiftRows (s.map sbox))).map mixColumn).flatten) k)

/-- One block under the round keys. -/
def aesBlock (ks : List (List Byte)) (b : List Byte) : List Byte := aesRounds (ks.drop 1) (xorBytes (fit 16 b) (ks.headD []))

/-! ### GCM (SP 800-38D) -/

/-- The number that 16 bytes spell, the first byte highest. -/
def beNum (b : List Byte) : Nat := leNat (fit 16 b).reverse

/-- Multiply in the field of GHASH, whose bit 0 is the highest of a number. -/
def ghashMul (x y : Nat) : Nat :=
  ((List.range 128).foldl (fun (p : Nat × Nat) i =>
    (if bit x (127 - i) then p.1 ^^^ p.2 else p.1, if bit p.2 0 then p.2 / 2 ^^^ 0xE1 * 2 ^ 120 else p.2 / 2)) (0, y)).1

/-- GHASH over bytes that are filled out to whole blocks. -/
def ghash (h : Nat) (l : List Byte) (y : Nat) : Nat :=
  (pieces 16 (ceilDiv l.length 16) l).foldl (fun y b => ghashMul (y ^^^ beNum b) h) y

/-- Counter block `i` of an IV of 12 bytes. -/
def counterBlock (iv : List Byte) (i : Nat) : List Byte := fit 12 iv ++ (toLe 4 i).reverse

/-- Encrypt or decrypt from counter 2 on. -/
def gcmStream (ks : List (List Byte)) (iv l : List Byte) : List Byte :=
  ((pieces 16 (ceilDiv l.length 16) l).zipIdx.map fun x => xorBytes x.1 (aesBlock ks (counterBlock iv (x.2 + 2)))).flatten

/-- The tag of a ciphertext and its additional data, its 16 bytes in order from the lowest. -/
def gcmTag (ks : List (List Byte)) (iv aad ct : List Byte) : BitVec 128 :=
  let h := beNum (aesBlock ks [])
  let y := ghash h ct (ghash h aad 0)
  let y := ghashMul (y ^^^ (8 * aad.length * 2 ^ 64 + 8 * ct.length)) h
  BitVec.ofNat 128 (leNat (xorBytes (toLe 16 y).reverse (aesBlock ks (counterBlock iv 1))))

/-- Seal: key, IV, additional data, plaintext; ciphertext and tag. -/
def gcmSeal (key : BitVec 256) (iv aad pt : List Byte) : List Byte × BitVec 128 :=
  let ks := roundKeys (digestBytes key)
  let ct := gcmStream ks iv pt
  (ct, gcmTag ks iv aad ct)

/-- Open: the plaintext where the tag verifies. -/
def gcmOpen (key : BitVec 256) (iv aad ct : List Byte) (tag : BitVec 128) : Option (List Byte) :=
  let ks := roundKeys (digestBytes key)
  if gcmTag ks iv aad ct = tag then some (gcmStream ks iv ct) else none

/-! ### XTS (IEEE 1619) and CMAC (SP 800-38B) -/

/-- Double a number of 128 bits in the field of both modes. -/
def double128 (x : Nat) : Nat := if 2 ^ 127 ≤ x then (2 * x - 2 ^ 128) ^^^ 0x87 else 2 * x

/-- Encrypt whole blocks of one data unit from its block `first` on, the sequence number as a little-endian tweak. -/
def xtsEncrypt (data tweak : BitVec 256) (seq first : Nat) (l : List Byte) : List Byte :=
  let ks := roundKeys (digestBytes data)
  let t := iter double128 first (leNat (aesBlock (roundKeys (digestBytes tweak)) (toLe 16 seq)))
  ((pieces 16 (l.length / 16) l).foldl (fun (p : List (List Byte) × Nat) b =>
    (xorBytes (aesBlock ks (xorBytes b (toLe 16 p.2))) (toLe 16 p.2) :: p.1, double128 p.2)) ([], t)).1.reverse.flatten

/-- CMAC of a byte string. -/
def cmac (key : BitVec 256) (l : List Byte) : List Byte :=
  let ks := roundKeys (digestBytes key)
  let k1 := double128 (beNum (aesBlock ks []))
  let n := max 1 (ceilDiv l.length 16)
  let last := l.drop (16 * (n - 1))
  let last := if last.length = 16 then beNum last ^^^ k1 else beNum (last ++ [0x80]) ^^^ double128 k1
  let y := (pieces 16 (n - 1) l).foldl (fun y b => beNum (aesBlock ks (toLe 16 (y ^^^ beNum b)).reverse)) 0
  aesBlock ks (toLe 16 (y ^^^ last)).reverse

/-! ### The keys of the die (R378) -/

/-- The Ledger key. -/
def ledgerKey : BitVec 256 := toDigest (kdf (digestBytes Config.kPuf) (ascii "LEDG") [] 32)

/-- SK.seed, SK.prf and PK.seed of the identity key. -/
def identitySeeds : List Byte := kdf (digestBytes Config.kPuf) (ascii "IDNT") [] 48

/-- The identity public key: PK.seed, then PK.root. -/
def identityKey : BitVec 256 := toDigest (slice identitySeeds 32 16 ++ fit 16 (Config.slhRoot identitySeeds))

/-! ### Blocks of T2 (R160, R282) -/

/-- What one KEY_ID stands for: the AES-256-XTS key pair and the tag key (Table TRST-9). -/
structure StoreKey where
  data : BitVec 256 := 0
  tweak : BitVec 256 := 0
  tag : BitVec 256 := 0
  deriving DecidableEq, Repr

/-- The keys that the DRBG gives in three outputs from draw `n` on. -/
def StoreKey.drawn (n : Nat) : StoreKey := ⟨Config.drbg n, Config.drbg (n + 1), Config.drbg (n + 2)⟩

/-- The stored form of 16-byte pieces of a block: the tweak follows from the address of its first byte (R160, R265). -/
def StoreKey.encrypt (k : StoreKey) (addr : Nat) (l : List Byte) : List Byte :=
  xtsEncrypt k.data k.tweak (addr / 4096) (addr % 4096 / 16) l

/-- The first 8 bytes of the CMAC over an address and the ciphertext that follows it: the tag of a stored block (R160), the MAC of
a 256-byte unit (R282). -/
def StoreKey.mac (k : StoreKey) (addr : Nat) (l : List Byte) : List Byte := (cmac k.tag (toLe 8 addr ++ k.encrypt addr l)).take 8

/-- The exclusive-or of the MACs of the 256-byte units of a row (R282, R285). -/
def StoreKey.rowTag (k : StoreKey) (addr : Nat) (row : List Byte) : BitVec 64 :=
  (List.range (row.length / 256)).foldl (fun m i => m ^^^ BitVec.ofNat 64 (leNat (k.mac (addr + 256 * i) (slice row (256 * i) 256)))) 0

end Sys2Proof.Machine
end

