-- ==== Sys2Proof/Machine/Status.lean ====
section
/-! DEFINITION. The status codes of Table CMND-14 and the event codes of Table POWR-5. -/

namespace Sys2Proof.Machine

/-- The statuses of Table CMND-14 (R345). -/
inductive Status where
  | ok | pending | badOpcode | badParam | badTag | notPermitted | busy | quiescing | timeout | annealed
  | noSpace | dropped | linkDown | partnerFault | integrity | swageLength | dmaAlign | bankConflict
  | slotTimeout | supplyLow | thermal | absent | rollback | notReady | hostFault | sequence | halted
  deriving DecidableEq, Repr

/-- The code of a status (Table CMND-14). -/
def Status.code : Status → Nat
  | .ok => 0x0000 | .pending => 0x0001 | .badOpcode => 0x0010 | .badParam => 0x0011 | .badTag => 0x0012
  | .notPermitted => 0x0013 | .busy => 0x0020 | .quiescing => 0x0021 | .timeout => 0x0030 | .annealed => 0x0031
  | .noSpace => 0x0040 | .dropped => 0x0041 | .linkDown => 0x0050 | .partnerFault => 0x0051
  | .integrity => 0x0060 | .swageLength => 0x0061 | .dmaAlign => 0x0062 | .bankConflict => 0x0063
  | .slotTimeout => 0x0064 | .supplyLow => 0x0070 | .thermal => 0x0071 | .absent => 0x0080
  | .rollback => 0x0081 | .notReady => 0x0082 | .hostFault => 0x0083 | .sequence => 0x0084 | .halted => 0x0085

/-- The opcodes of Table CMND-8, by the name of its row. -/
inductive Op where
  | nop | identify | setFeature | getFeature | quiesce | enableFunction | disableFunction | openSession
  | closeSession | setPartition | rangeMap | rangeUnmap | loadBillets | sealPages | migrateHint | readOut
  | loadMould | runStep | runSteps | haltRun | queryRun | heatBegin | heatEnd | kvAllocSeq | kvFork | kvFreeSeq
  | prefixLookup | prefixPublish | kvDrop | retrieveIndexLoad | retrieveScan | linkBringup | linkStatus
  | cohortForm | cohortLeave | windowOpen | windowClose | fwLoad | fwStart | attest | keyExchange | ledgerRead
  | rollbackAdvance | selftest | stackRepairQuery | stackRepairApply | channelMapout | laneDiag
  | powerDomainSet | setPowerCap | thermalStatus | eventRingSetup | eventAck
  deriving DecidableEq, Repr

/-- The opcode of a packet, where Table CMND-8 lists it. -/
def Op.ofCode : Nat → Option Op
  | 0x0001 => some .nop | 0x0002 => some .identify | 0x0004 => some .setFeature | 0x0005 => some .getFeature
  | 0x0006 => some .quiesce | 0x0007 => some .enableFunction | 0x0008 => some .disableFunction
  | 0x0101 => some .openSession | 0x0102 => some .closeSession | 0x0103 => some .setPartition
  | 0x0201 => some .rangeMap | 0x0202 => some .rangeUnmap | 0x0203 => some .loadBillets
  | 0x0204 => some .sealPages | 0x0205 => some .migrateHint | 0x0206 => some .readOut
  | 0x0301 => some .loadMould | 0x0302 => some .runStep | 0x0303 => some .runSteps | 0x0304 => some .haltRun
  | 0x0305 => some .queryRun | 0x0307 => some .heatBegin | 0x0308 => some .heatEnd
  | 0x0401 => some .kvAllocSeq | 0x0402 => some .kvFork | 0x0403 => some .kvFreeSeq
  | 0x0404 => some .prefixLookup | 0x0405 => some .prefixPublish | 0x0406 => some .kvDrop
  | 0x0501 => some .retrieveIndexLoad | 0x0502 => some .retrieveScan
  | 0x0601 => some .linkBringup | 0x0602 => some .linkStatus | 0x0603 => some .cohortForm
  | 0x0604 => some .cohortLeave | 0x0605 => some .windowOpen | 0x0606 => some .windowClose
  | 0x0701 => some .fwLoad | 0x0702 => some .fwStart | 0x0703 => some .attest | 0x0704 => some .keyExchange
  | 0x0705 => some .ledgerRead | 0x0706 => some .rollbackAdvance
  | 0x0801 => some .selftest | 0x0802 => some .stackRepairQuery | 0x0803 => some .stackRepairApply
  | 0x0804 => some .channelMapout | 0x0805 => some .laneDiag
  | 0x0901 => some .powerDomainSet | 0x0902 => some .thermalStatus | 0x0903 => some .setPowerCap
  | 0x0A01 => some .eventRingSetup | 0x0A02 => some .eventAck
  | _ => none

/-- The opcode number (Table CMND-8), as SMITH_ADMIN.OPCODE shows it. -/
def Op.code : Op → Nat
  | .nop => 0x0001 | .identify => 0x0002 | .setFeature => 0x0004 | .getFeature => 0x0005
  | .quiesce => 0x0006 | .enableFunction => 0x0007 | .disableFunction => 0x0008
  | .openSession => 0x0101 | .closeSession => 0x0102 | .setPartition => 0x0103
  | .rangeMap => 0x0201 | .rangeUnmap => 0x0202 | .loadBillets => 0x0203 | .sealPages => 0x0204
  | .migrateHint => 0x0205 | .readOut => 0x0206 | .loadMould => 0x0301 | .runStep => 0x0302
  | .runSteps => 0x0303 | .haltRun => 0x0304 | .queryRun => 0x0305 | .heatBegin => 0x0307 | .heatEnd => 0x0308
  | .kvAllocSeq => 0x0401 | .kvFork => 0x0402 | .kvFreeSeq => 0x0403 | .prefixLookup => 0x0404
  | .prefixPublish => 0x0405 | .kvDrop => 0x0406 | .retrieveIndexLoad => 0x0501 | .retrieveScan => 0x0502
  | .linkBringup => 0x0601 | .linkStatus => 0x0602 | .cohortForm => 0x0603 | .cohortLeave => 0x0604
  | .windowOpen => 0x0605 | .windowClose => 0x0606 | .fwLoad => 0x0701 | .fwStart => 0x0702 | .attest => 0x0703
  | .keyExchange => 0x0704 | .ledgerRead => 0x0705 | .rollbackAdvance => 0x0706 | .selftest => 0x0801
  | .stackRepairQuery => 0x0802 | .stackRepairApply => 0x0803 | .channelMapout => 0x0804 | .laneDiag => 0x0805
  | .powerDomainSet => 0x0901 | .thermalStatus => 0x0902 | .setPowerCap => 0x0903
  | .eventRingSetup => 0x0A01 | .eventAck => 0x0A02

/-- Who may issue an opcode (R330, Table CMND-8). -/
inductive Caller where
  | host | tenant | any | anyOrTenant | tenantOrHost | anyOwnRing
  deriving DecidableEq, Repr

/-- The caller column of Table CMND-8. GET_FEATURE's REG_READ, which is H only, is judged by its meaning. -/
def Op.caller : Op → Caller
  | .nop => .anyOrTenant
  | .identify | .getFeature | .linkStatus | .thermalStatus => .any
  | .attest | .keyExchange => .anyOwnRing
  | .haltRun | .cohortLeave => .tenantOrHost
  | .setFeature | .quiesce | .enableFunction | .disableFunction | .setPartition | .linkBringup | .fwLoad
  | .fwStart | .ledgerRead | .rollbackAdvance | .selftest | .stackRepairQuery | .stackRepairApply
  | .channelMapout | .laneDiag | .powerDomainSet | .setPowerCap | .eventRingSetup | .eventAck => .host
  | .openSession | .closeSession | .rangeMap | .rangeUnmap | .loadBillets | .sealPages | .migrateHint | .readOut
  | .loadMould | .runStep | .runSteps | .queryRun | .heatBegin | .heatEnd | .kvAllocSeq | .kvFork | .kvFreeSeq
  | .prefixLookup | .prefixPublish | .kvDrop | .retrieveIndexLoad | .retrieveScan | .cohortForm | .windowOpen
  | .windowClose => .tenant

/-- Severity of an event code (Table POWR-5). -/
def eventSeverity : Nat → Nat
  | 0x0001 | 0x0101 | 0x0102 | 0x0902 => 0
  | 0x0003 | 0x0305 => 3
  | 0x0004 | 0x0201 | 0x0204 | 0x0301 | 0x0401 | 0x0402 | 0x0601 | 0x0603 | 0x0605 | 0x0606 | 0x0607
  | 0x0804 | 0x0901 | 0x0904 => 1
  | _ => 2

end Sys2Proof.Machine
end

