-- ==== Sys2Proof/Machine/StateCtl.lean ====
section
/-! DEFINITION. State of the control path: rings and replies, sessions, event log, power, boot, Ledger, test access port. -/

namespace Sys2Proof.Machine

/-- A reply that waits to be written (Table CMND-6); sealed ones carry the session whose key seals them (R328). -/
structure Reply where
  op       : Op
  seq      : BitVec 32
  status   : Status
  interim  : Bool := false
  sealed_  : Bool := false
  detail   : Nat := 0
  queue    : BitVec 8 := 0
  session  : BitVec 16 := 0
  payload  : List Byte := []
  outAddr  : BitVec 64 := 0
  /-- the final reply of a command that passed to the background (R340) -/
  background : Bool := false
  deriving DecidableEq, Repr

/-- One ring pair's registers and service state (Table CMND-3, R318 to R325). -/
structure Ring where
  sq : BitVec 64 := 0
  rq : BitVec 64 := 0
  pt : BitVec 64 := 0
  size : BitVec 32 := 0
  coal : BitVec 32 := 0
  enable : Bool := false
  active : Bool := false
  error : Bool := false
  sqHead : Nat := 0
  sqTail : Nat := 0
  rqTail : Nat := 0
  /-- reply entries written and not freed by HOST_DB_RQ -/
  rqHeld : Nat := 0
  rqHead : Nat := 0
  phase : Bool := true
  errValid : Bool := false
  errStatus : BitVec 16 := 0
  /-- stopped on an error until ENABLE is cleared and set again (R319) -/
  stopped : Bool := false
  unsignalled : Nat := 0
  /-- completed commands' replies, oldest first, that wait for room (R324) -/
  done : List Reply := []
  deriving DecidableEq, Repr

/-- The host-interface side of one function (R316, R317). -/
structure FnHost where
  enabled   : Bool := false
  quiescing : Bool := false
  d3hot     : Bool := false
  rings     : Vector Ring 64 := Vector.replicate 64 {}
  /-- MSI-X table entries of 16 bytes; the mask bit of vector control is bit 96 -/
  msix      : Vector (BitVec 128) 66 := Vector.replicate 66 (1#128 <<< 96)
  msixPend  : BitVec 66 := 0
  deriving DecidableEq, Repr

/-- An accepted command that has not yet given its final reply (R320, R329). -/
structure Flight where
  op  : Op
  cmd : Cmd
  /-- passed to the background under R340 -/
  background : Bool := false
  deriving DecidableEq, Repr

/-- What the device sends to the outside, oldest first: host-memory writes, MSI-X messages. -/
inductive HostEvent where
  | write (addr : Nat) (bytes : List Byte)
  | msix (fn : FnId) (vector : Nat)
  /-- the value that a read of a register returns -/
  | read (addr : Nat) (value : Nat)
  deriving DecidableEq, Repr

/-- A tenant session (R327, R389 Table TRST-9). -/
structure Session where
  id   : BitVec 16
  key  : BitVec 256
  isOpen : Bool := false
  ring : Option RingId := none
  lastSeq : Nat := 0
  /-- the values of `lastSeq` before, newest first: those of commands in flight may still be refused by check 10 (R329) -/
  before : List Nat := []
  mouldKey : BitVec 256 := 0
  deriving DecidableEq, Repr

/-- A pending ML-KEM decapsulation key with the digest of its report (Table TRST-9). -/
structure PendingKem where
  dk : List Byte
  report : List Byte
  digest : BitVec 256
  deriving DecidableEq, Repr

/-- One event record before it is laid out (Table POWR-4). -/
structure EventRec where
  ticks : Nat
  code : Nat
  first : Bool := false
  last : Bool := false
  fn : Nat := 0xFF
  source : Nat := 0
  count : Nat := 1
  data : List Byte := []
  /-- taken from the reserved area of R423 -/
  reserved : Bool := false
  deriving DecidableEq, Repr

/-- A coalescing counter (R423). -/
structure EventCounter where
  code : Nat
  source : Nat
  fn : Nat
  count : Nat := 0
  ticks : Nat := 0
  data : List Byte := []
  deriving DecidableEq, Repr

/-- The on-die event buffer and the event ring (R421 to R424). -/
structure EventLog where
  /-- records held, oldest first; the first `written` of them are in the ring -/
  held : List EventRec := []
  written : Nat := 0
  counters : List EventCounter := []
  coalescing : Bool := false
  lost : Nat := 0
  firstLostTicks : Nat := 0
  firstLostCode : Nat := 0
  ringAddr : BitVec 64 := 0
  ringLog2 : Nat := 0
  enabled : Bool := false
  /-- next entry of the ring to write, and the phase of this pass -/
  tail : Nat := 0
  phase : Bool := true
  /-- vector 1 has been raised and 10 µs have not yet passed (R422) -/
  recent : Bool := false
  /-- records written since vector 1 was last raised -/
  unsignalled : Bool := false
  lostCount : Nat := 0
  coalescedCount : Nat := 0
  deriving DecidableEq, Repr

/-- Time base (R32, R33, Table TIME-4). -/
structure TimeBase where
  ticks : Nat := 0
  src : BitVec 2 := 0
  refLost : Bool := false
  losses : Nat := 0
  deriving DecidableEq, Repr

/-- Bellows: supply, cap, domains, temperatures (Table POWR-8). -/
structure Bellows where
  present : Bool := false
  /-- the input stage has connected the module: the spine is up -/
  spine : Bool := false
  currentMa10 : BitVec 16 := 0
  voltageMv10 : BitVec 16 := 0
  low : Bool := false
  lowSeen : Bool := false
  limitSeen : Bool := false
  /-- the current limit acts now (R403) -/
  limiting : Bool := false
  sample : Nat := 0
  average : Nat := 0
  /-- samples of the averaging window, newest first -/
  samples : List Nat := []
  /-- samples in a row with every group at its floor and the average above CAP (R412) -/
  overFloor : Nat := 0
  unreachable : Bool := false
  cap : Nat := 1650
  capWindow : Nat := 1000000
  capTicks : Nat := 0
  domOn : BitVec 100 := 0
  domSel : BitVec 7 := 0
  /-- the cap's demands on its three groups, in mV (R411, R413) -/
  capForge : Nat := 750
  capMigr : Nat := 750
  capCtl : Nat := 750
  /-- the thermal controllers' demands on the forge voltage (R413, R415) -/
  dieDemand : Nat := 750
  stackDemand : Nat := 750
  /-- a domain whose monitor reads below 0.55 V (R25) -/
  under : BitVec 100 := 0
  undervolts : Nat := 0
  /-- sensors in sixteenths of a degree (R418) -/
  temps : Vector (BitVec 16) 164 := Vector.replicate 164 0
  dieThrottle : Bool := false
  stackThrottle : Bool := false
  hotSeen : Bool := false
  throttleTicks : Nat := 0
  faultCause : BitVec 4 := 0
  /-- fault states entered since power-on, for ERROR_SUMMARY (Table TRST-6) -/
  faults : Nat := 0
  /-- GDDR7 devices at half rate (R416), bit 6n + d -/
  halfRate : BitVec 48 := 0
  deriving DecidableEq, Repr

/-- An authenticated Ledger record (Table TRST-5). -/
structure LedgerRec where
  type : Nat
  seq : Nat
  key : Nat
  payload : List Byte
  deriving DecidableEq, Repr

/-- Ledger (R381 to R383, Table TRST-17): the records of the active half, oldest first. -/
structure Ledger where
  log : List LedgerRec := []
  half : Bool := false
  generation : Nat := 1
  /-- both certificate records have authenticated in this power cycle -/
  mfgLocked : Bool := false
  compacting : Bool := false
  writes : Nat := 0
  authFails : Nat := 0
  refused : Nat := 0
  deriving DecidableEq, Repr

/-- A verified firmware image (R385). -/
structure Firmware where
  manifest : List Byte
  image : List Byte
  deriving DecidableEq, Repr

/-- Hallmark and the boot (Table TRST-16, Table TRST-9). -/
structure Hallmark where
  stage : Nat := 0
  t1Degraded : Bool := false
  fwRunning : Bool := false
  identityOk : Bool := false
  identityFault : Bool := false
  image : Option Firmware := none
  errValid : Bool := false
  errStatus : BitVec 16 := 0
  errKind : BitVec 4 := 0
  errCheck : BitVec 8 := 0
  tagFails : Nat := 0
  kexRefused : Nat := 0
  attests : Nat := 0
  reseeds : Nat := 0
  requests : Nat := 0
  /-- key slots that hold a key now -/
  identitySlot : Bool := false
  ledgerSlot : Bool := false
  kHash : Option (BitVec 128) := none
  kWrap : Option (BitVec 256) := none
  pending : Vector (Option PendingKem) 64 := Vector.replicate 64 none
  sessions : Vector (List Session) 64 := Vector.replicate 64 []
  owner : Vector (Option (BitVec 256)) 64 := Vector.replicate 64 none
  storage : Vector (Option StoreKey) 64 := Vector.replicate 64 none
  /-- shared-model keys, KEY_ID 0x8000 + index -/
  modelKeys : Vector (Option StoreKey) 16 := Vector.replicate 16 none
  plinthKeys : BitVec 8 := 0
  /-- the IV counter of the wrapped copies: one for each change of a slot, and one before the reset of a device anneal (R390) -/
  wraps : Nat := 0
  /-- a line of T1 that holds a wrapped copy has been lost while the device anneals (R390) -/
  copyLost : Bool := false
  deriving DecidableEq, Repr

/-- Smith (Table CONN-12, R334 latch of R9, R390). -/
structure Smith where
  coreUp : BitVec 4 := 1
  faultService : Bool := false
  firmware : Bool := false
  watchdog : Nat := 0
  /-- latched high words, by the address of their low words (R9) -/
  latches : List (Nat × Nat) := []
  /-- a FW_LOAD held before boot event 7 ends (R374) -/
  heldFwLoad : Option Cmd := none
  /-- boot event 7 has ended -/
  event7 : Bool := false
  deriving DecidableEq, Repr

/-- The PCI Express link as the host trained it (R335). -/
structure Pcie where
  up : Bool := false
  width : Nat := 0
  rate : Nat := 0
  vfs : Nat := 0
  /-- HOST_ID_READY (R316) -/
  ready : BitVec 2 := 0
  perst : Bool := true
  deriving DecidableEq, Repr

/-- The test access port (R433, R434). -/
structure Tap where
  ir : BitVec 4 := 1
  extest : Bool := false
  boundary : BitVec 16 := 0
  /-- the data register the instruction selects, as it shifts out -/
  dr : BitVec 32 := 0
  deriving DecidableEq, Repr

/-- An anneal that has begun and not yet ended (R45). -/
structure AnnealRun where
  unit : AnnealUnit
  cause : Nat
  deriving DecidableEq, Repr

/-- A command that waits for something else to end (R332, R312, R313, R337, R333). -/
inductive Deferred where
  | quiesce (k : Cmd) (fns : List FnId) (annealed : Bool)
  | disable (k : Cmd) (fn : FnId) (annealed : Bool) (flr : Bool)
  /-- `ready` once the disable has completed, `annealed` when its quiesce expired -/
  | heldEnable (k : Cmd) (fn : FnId) (ready annealed : Bool)
  | halt (k : Cmd) (fn : FnId) (mould : BitVec 64)
  | closeSession (k : Cmd)
  | closeWindow (k : Cmd) (f : ForgeId) (handle : Nat)
  deriving DecidableEq, Repr

end Sys2Proof.Machine
end

