-- ==== Sys2Proof/Machine/StateFn.lean ====
section
/-! DEFINITION. State of one function: its Range, its KV pool, its moulds and runs, its heats, its scans. -/

namespace Sys2Proof.Machine

/-! ### The Range (R221 to R229) -/

/-- The roles of a span (Table TIER-2). `index` is the device's own billet-index span (R225). -/
inductive Role where
  | data | billets | kvPages | kvHeaders | kvLists | kvPrefix | retrieval | index
  deriving DecidableEq, Repr

/-- A mapped span of 2 MiB (R221); `model` is the device's shared-model index where the span maps one (R396). -/
structure Span where
  num  : Nat
  role : Role
  model : Option (Fin 16) := none
  deriving DecidableEq, Repr

/-- A Range page of 64 KiB (R222, R228). -/
structure Page where
  num : Nat
  sealed_ : Bool := false
  /-- home T2 (R221) -/
  homeT2 : Bool := false
  /-- a complete T2 copy exists; a page with home T2 and no T1 copy is held in T2 only (R228) -/
  t2 : Bool := false
  /-- a T1 copy or the T1 home holds the bytes -/
  t1 : Bool := true
  /-- the T1 copy lies in a staging frame and may be evicted (R229) -/
  staged : Bool := false
  /-- the staged copy may be released once its NEED_PHASE has ended (Table MOLD-8) -/
  releaseAfter : Bool := false
  pins : Nat := 0
  /-- background work towards this page: a migration copy up or down, or the release of its T1 frame (R232) -/
  up : Bool := false
  down : Bool := false
  dropT1 : Bool := false
  /-- poisoned 256-byte lines within the page (R241); 256 stands for its billet header's line -/
  bad : List Nat := []
  /-- Swage has failed on it once, and it has been fetched again since (R168) -/
  swageFail : Bool := false
  /-- place of a staged copy: its die address in T1 divided by 65,536 (R226, R229) -/
  place : Nat := 0
  /-- when its T1 copy was last read, and when it last arrived, on the migration engine's clock (R229, R234) -/
  lastRead : Nat := 0
  arrived : Nat := 0
  /-- its turn among the transfers of its Plinth link: those of prefetch entries first, each by its ticket (R231) -/
  urgent : Bool := false
  ticket : Nat := 0
  /-- the function whose entry or hint moves it (R251) -/
  mover : Option FnId := none
  /-- its copy was lost and is being fetched again -/
  refetch : Bool := false
  /-- ticks that its present fetch has waited under each cause of Table TIER-4 -/
  waits : List (Nat × Nat) := []
  deriving DecidableEq, Repr

/-- The use of a 2 MiB frame (R226). -/
inductive FrameUse where
  | span (fn : FnId) (num : Nat)
  | model (m : Fin 16) (num : Nat)
  | heatArea (fn : FnId)
  | shadow (fn : FnId) (slot : Nat)
  | mouldCopy (fn : FnId) (mould : BitVec 64)
  | persist (fn : FnId) (mould : BitVec 64)
  | staging (fn : FnId)
  | payload (fn : FnId)
  | compute (fn : FnId)
  | policy (fn : FnId)
  | firmware
  deriving DecidableEq, Repr

/-- One allocated frame. -/
structure Frame where
  num : Nat
  use : FrameUse
  deriving DecidableEq, Repr

/-- A shared model (R396 to R399). -/
structure Model where
  id : BitVec 64
  publisher : FnId
  base : Nat
  spans : Nat
  ready : Bool := false
  deriving DecidableEq, Repr

/-! ### The KV store (R201 to R217) -/

/-- Page states of Table KVST-1. -/
inductive KvState where
  | free | open_ | sealed_ | dropped | poisoned | limbo
  deriving DecidableEq, Repr

/-- A KV page header (Table KVST-1); a page with no header listed is FREE. -/
structure KvHdr where
  num : Nat
  state : KvState
  inPrefix : Bool := false
  filled : Nat := 0
  group : Nat := 0
  layer : Nat := 0
  ref : Int := 0
  pin : Nat := 0
  seq : Nat := 0
  lpage : Nat := 0
  epoch : Nat := 0
  hash : Nat := 0
  /-- the header line is lost (Table TIER-5) -/
  lost : Bool := false
  deriving DecidableEq, Repr

/-- One page-list entry that is not NONE (R203, R204). -/
structure ListEntry where
  layer : Nat
  group : Nat
  lpage : Nat
  page : Nat
  /-- the logical page has been dropped, and stays so (R217) -/
  dropped : Bool := false
  deriving DecidableEq, Repr

/-- A sequence (R203, Table KVST-2). -/
structure Seq where
  handle : Nat
  namespace_ : Nat
  tokenBase : Nat
  maxPages : Nat
  layerFirst : Nat
  layers : Nat
  groups : Nat
  priority : Nat
  order : Nat
  length : Nat := 0
  listBase : Nat := 0
  entries : List ListEntry := []
  lastStep : Nat := 0
  /-- addresses of its lost list units (Table TIER-5) -/
  lost : List Nat := []
  deriving DecidableEq, Repr

/-- A prefix node (R213). -/
structure Node where
  hash : Nat
  parent : Option Nat
  id : Nat
  tokens : List Nat
  pages : List ListEntry
  /-- number of the function's heat in which it was last hit -/
  lastHit : Nat := 0
  deriving DecidableEq, Repr

/-- A registration in an epoch (R209). -/
structure EpochReg where
  epoch : Nat
  step : Option (BitVec 64) := none
  deriving DecidableEq, Repr

/-- A READ_OUT in progress: the epoch it registered in, and the KV pages it pins (R207, R209). -/
structure Reader where
  cmd : Cmd
  epoch : Nat
  pages : List Nat
  deriving DecidableEq, Repr

/-! ### Heats (R286 to R299) -/

inductive HeatState where
  | open_ | prepared | committed
  deriving DecidableEq, Repr

/-- Where a heat came from (Table HEAT-4 OPEN record). -/
inductive Origin where
  | step (mould : BitVec 64) (bound : Nat)
  | ring (r : RingId)
  | single
  deriving DecidableEq, Repr

/-- A change that a heat's commit makes besides its shadows (Table HEAT-1). -/
inductive Edit where
  | seal_ (page : Nat)
  | fresh (page : Nat) (layer group lpage seq : Nat)
  | delta (page : Nat) (d : Int)
  | entry (seq layer group lpage : Nat) (page : Option Nat)
  | filled (page : Nat) (n : Nat)
  | length (seq : Nat) (n : Nat)
  | kvState (page : Nat) (st : KvState)
  | publish (page : Nat) (hash : Nat)
  /-- drop logical page `j` of a sequence, where it is a candidate at the commit (R215) -/
  | drop (seq j : Nat)
  | policy (seq priority order : Nat)
  | newSeq (s : Seq)
  | freeSeq (handle : Nat)
  | newNode (n : Node)
  | dropNode (id : Nat)
  /-- poisoned lines that whole-line writes to `[addr, addr + n)` cover are clear -/
  | rewrite (addr n : Nat)
  deriving DecidableEq, Repr

/-- A record of the heat journal before it is laid out (Tables HEAT-3, HEAT-4). -/
structure JRec where
  kind : Nat
  slot : Fin 32
  index : Nat
  heat : Nat
  payload : List Byte := []
  deriving DecidableEq, Repr

/-- One heat in its slot (R288, R294). -/
structure Heat where
  number : Nat
  origin : Origin
  state : HeatState := .open_
  maxActions : Nat
  actions : Nat := 0
  /-- claimed 4 KiB granules, by Range address divided by 4096 (R291) -/
  granules : List Nat := []
  /-- the shadows' bytes, by Range address; an unlisted byte of a claimed granule is its home's -/
  shadow : List Host.Cell := []
  edits : List Edit := []
  /-- appends completed: sequence, layer, group (R192) -/
  appended : List (Nat × Nat × Nat) := []
  /-- SEND_LIST entries sent and held for the commit (R69) -/
  sends : List Nat := []
  /-- lines of the shared cache that it has dirtied and counted (R91) -/
  lines : List Nat := []
  /-- commands that read KV and joined it: the epoch of each, and the prefix nodes that it pins (R209, R211) -/
  lookups : List (Nat × List Nat) := []
  /-- once committed: REF deltas that the fold brings to the page headers (R295) -/
  deltas : List (Nat × Int) := []
  /-- once its step has stopped while it is in doubt: the step's pins, of KV headers and of Range pages (R302) -/
  pins : List Nat := []
  pinned : List (FnId × Nat) := []
  stepIndex : Nat := 0
  commitSeq : Nat := 0
  distributed : Bool := false
  coordinator : Bool := false
  participants : List Nat := []
  /-- the heat is in its commit phase (R298, R300) -/
  committing : Bool := false
  /-- a command's heat in its commit phase: the reply that its commit point gives the command (R290, R341) -/
  reply : Option (Op × Cmd × Nat × List Byte) := none
  deriving DecidableEq, Repr

/-- A command heat on a ring (R289, R290): its slot, or the status that scrapped it. -/
structure CmdHeat where
  ring : RingId
  slot : Option (Fin 32)
  scrapped : Option Status := none
  deriving DecidableEq, Repr

/-! ### Moulds and runs (R46 to R75) -/

structure SlotDecl where
  slot : Nat
  bankFirst : Nat
  bankCount : Nat
  persist : Bool
  initialFull : Bool
  rowFirst : Nat
  rowCount : Nat
  deriving DecidableEq, Repr

/-- What a mould installs on one logical forge (Table MOLD-4). -/
structure MForge where
  phys : ForgeId
  stream : List (BitVec 128)
  subs : List Nat := []
  tongs : List (BitVec 512) := []
  slots : List SlotDecl := []
  /-- OWNERS of each phase, byte b for bank b -/
  owners : List (BitVec 256) := []
  /-- slots whose tag is FULL (R79) -/
  full : List Nat := []
  /-- slots on which a producer asserts HOLD (R42), and on which an access is blocked -/
  hold : List Nat := []
  wait : List Nat := []
  deriving DecidableEq, Repr

structure Prefetch where
  kind : Nat
  divert : Bool
  prevStep : Bool
  releaseAfter : Bool
  group : Nat
  issuePhase : Nat
  needPhase : Nat
  alt : Nat
  count : Nat
  source : Nat
  groupMask : Nat
  deriving DecidableEq, Repr

structure Alternate where
  kind : Nat
  peer : Nat
  recv : Nat
  sub : Nat
  source : Nat
  billets : Nat
  deriving DecidableEq, Repr

structure HeatBound where
  openPhase : Nat
  commitPhase : Nat
  maxActions : Nat
  distributed : Bool
  sendsInHeat : Bool
  participants : List Nat := []
  deriving DecidableEq, Repr

structure XferEntry where
  phase : Nat
  peer : Nat
  forge : Nat
  slot : Nat
  format : Nat
  onRequest : Bool
  length : Nat
  sequence : Nat
  collective : Nat
  deriving DecidableEq, Repr

structure CohortPos where
  chip : Nat
  self : Bool
  port : Nat
  deriving DecidableEq, Repr

/-- A program for the near-bank units of one Plinth (R264, R266). -/
structure PlinthProg where
  plinth : PlinthId
  /-- the section's bytes as installed -/
  bytes : List Byte
  deriving DecidableEq, Repr

/-- One RUN_STEP or RUN_STEPS that waits or runs (R338). -/
structure RunCmd where
  cmd : Cmd
  op : Op
  next : Nat
  left : Nat
  done : Nat := 0
  output : List Byte := []
  halted : Bool := false
  deriving DecidableEq, Repr

/-- An open instance of a prefetch entry (R59 to R62). -/
structure Fetch where
  entry : Nat
  step : Nat
  pages : List Nat
  /-- pages it pins: the function that holds each, and its number -/
  pinned : List (FnId × Nat) := []
  /-- its registration (R209) -/
  epoch : Nat := 0
  judged : Option Bool := none
  /-- ticks at which a STALL wait began -/
  waitFrom : Option Nat := none
  deriving DecidableEq, Repr

/-- A step of a mould from its gate to its end (R50, R51). -/
structure Running where
  index : Nat
  params : List Byte
  bindings : List Nat
  /-- phase each logical forge is in, none before PHASE 0 -/
  phases : List (Option Nat)
  ended : List Bool
  /-- HEAT_BOUNDS entries opened so far -/
  opened : Nat := 0
  attempts : Nat := 0
  /-- the status with which the step ends once its active descriptors have completed (R102), and whether it then leaves no
  effect -/
  status : Option (Status × Bool) := none
  /-- when its gate opened, on the migration engine's clock, which orders steps for R216 -/
  began : Nat := 0
  /-- the last phase that each logical forge has completed (R67) -/
  completed : List (Option Nat) := []
  /-- ended by an anneal: a re-run is due (R308) -/
  rerun : Bool := false
  /-- ended for an empty KV pool: the drop policy is due, with the pages wanted (R216) -/
  dropWanted : Option Nat := none
  /-- the drop policy has run for the step, and the FREE pages that its re-run waits for -/
  dropped : Bool := false
  dropGoal : Nat := 0
  fetches : List Fetch := []
  /-- receives accepted, by RECV_LIST index -/
  received : List Nat := []
  /-- sends sent, by SEND_LIST index -/
  sent : List Nat := []
  /-- receives that a diverted read of this attempt has requested (R366) -/
  requested : List Nat := []
  /-- REF of every KV page at the step gate (R208) -/
  gateRefs : List (Nat × Int) := []
  /-- pages pinned by the step (R207) -/
  pins : List Nat := []
  /-- PERSIST rows saved before their first write (R306) -/
  saved : List Host.Cell := []
  savedRows : List (Nat × Nat) := []
  deriving DecidableEq, Repr

/-- An installed mould (R74, R75). -/
structure Mould where
  id : BitVec 64
  digest : BitVec 256
  flags : BitVec 16
  plinthMask : BitVec 8 := 0
  phaseCount : Nat
  deadline : Nat
  paramBytes : Nat
  sessionSlots : Nat
  cohortDigest : BitVec 256 := 0
  forges : List MForge
  prefetch : List Prefetch := []
  alternates : List Alternate := []
  heats : List HeatBound
  sends : List XferEntry := []
  recvs : List XferEntry := []
  progs : List PlinthProg := []
  cohort : List CohortPos := []
  /-- installation order on the device -/
  order : Nat := 0
  nextStep : Nat := 0
  lastStatus : Nat := 0
  attempts : Nat := 0
  /-- heats of the step at nextStep that have committed, which a re-run opens no more (R308, R309) -/
  committed : Nat := 0
  queue : List RunCmd := []
  run : Option Running := none
  /-- prefetch entries with PREV_STEP that the last step issued for the next one (R59) -/
  carried : List Fetch := []
  /-- peers whose digest has been checked since installation (R72) -/
  checkedPeers : List Nat := []
  /-- mould digests that the peers' DIGEST records carry, by position (R72) -/
  peerDigests : List (Nat × BitVec 256) := []
  digestsSent : Bool := false
  /-- receives of the next step that have been credited (R364) -/
  credited : List Nat := []
  /-- sends that an earlier attempt of the step has sent (R307) -/
  sentOnce : List Nat := []
  /-- counters since installation (Table MOLD, Table CMND-13) -/
  stallMisses : Vector Nat 16 := Vector.replicate 16 0
  stallTicks : Vector Nat 16 := Vector.replicate 16 0
  diverts : Vector Nat 16 := Vector.replicate 16 0
  causes : Vector Nat 8 := Vector.replicate 8 0
  deriving DecidableEq, Repr

/-! ### Scans (R281 to R285) -/

structure Scan where
  id : Nat
  cmd : Cmd
  started : Bool := false
  queries : Nat
  k : Nat
  deriving DecidableEq, Repr

/-- A cohort policy (R360). -/
structure CohortPolicy where
  id : BitVec 64
  /-- chip identifier and key digest of each entry -/
  entries : List (Nat × BitVec 256)
  deriving DecidableEq, Repr

/-- A message kept in the receive log (R307). -/
structure LogMsg where
  mould : BitVec 64
  recv : Nat
  step : Nat
  seq : Nat
  bytes : List Byte
  /-- the HEAT_BOUNDS index of the sender's heat while its RELEASE is awaited (R365) -/
  held : Option Nat := none
  deriving DecidableEq, Repr

/-- A PREPARED vote that the coordinator holds (R300). -/
structure Vote where
  mould : BitVec 64
  bound : Nat
  step : Nat
  pos : Nat
  /-- a VOTE SCRAP, or a mismatched vote, which counts as one (R301) -/
  scrap : Bool := false
  deriving DecidableEq, Repr

/-- A coordinator's decision that some participant has not yet acknowledged (R300, R303). -/
structure Decision where
  mould : BitVec 64
  bound : Nat
  step : Nat
  commit : Bool
  waiting : List Nat
  /-- the heat decided, for its ACKED records -/
  slot : Fin 32 := 0
  heat : Nat := 0
  deriving DecidableEq, Repr

/-- All state of one function apart from its host interface and its keys. -/
structure Fn where
  spans : List Span := []
  pages : List Page := []
  partition : Fin 64 := 0
  hdrs : List KvHdr := []
  seqs : List Seq := []
  nextHandle : Nat := 1
  nodes : List Node := []
  nextNode : Nat := 1
  epoch : Nat := 0
  regs : List EpochReg := []
  readers : List Reader := []
  moulds : List Mould := []
  slots : Vector (Option Heat) 32 := Vector.replicate 32 none
  /-- journal records not reclaimed, with the FOLDED or SCRAP record that reclaimed a slot's others (R296) -/
  journal : List JRec := []
  nextHeat : Nat := 1
  commitSeq : Nat := 0
  commits : Nat := 0
  scraps : Nat := 0
  replays : Nat := 0
  fault : Bool := false
  cmdHeats : List CmdHeat := []
  decisions : List Decision := []
  /-- QUIESCE HOLD holds the gates (R332) -/
  held : Bool := false
  scans : List Scan := []
  nextScan : Nat := 1
  cohort : Option CohortPolicy := none
  /-- SERIAL of the last policy formed (R360) -/
  serial : Nat := 0
  /-- credits received: DIGEST, step, position and SEQUENCE (R364) -/
  creditsIn : List (BitVec 32 × Nat × Nat × Nat) := []
  /-- votes counted towards heats not yet decided (R300) -/
  votes : List Vote := []
  /-- DIGEST records of moulds not yet installed here: chip identifier of the sender and its 64 bytes (R72) -/
  earlyDigests : List (Nat × List Byte) := []
  recvLog : List LogMsg := []
  /-- MIGR_ counters per group and per cause (Table TIER-12) -/
  stallMisses : Vector Nat 16 := Vector.replicate 16 0
  stallTicks : Vector Nat 16 := Vector.replicate 16 0
  diverts : Vector Nat 16 := Vector.replicate 16 0
  causes : Vector Nat 16 := Vector.replicate 16 0
  deriving DecidableEq, Repr

end Sys2Proof.Machine
end

