-- ==== Sys2Proof/Machine/StateForge.lean ====
section
/-! DEFINITION. State of one forge: stream position, Tongs, Anvil, Swage, Press, Chisel, Crucible and their registers. -/

namespace Sys2Proof.Machine

/-- One level of the stream's nesting (R49); `alt` is the call of an alternate by an engine (R62, R193). -/
inductive Nest where
  | call (ret : Nat) (alt : Bool := false)
  | loop (first last left : Nat)
  deriving DecidableEq, Repr

/-- The step that runs on a forge. -/
structure Job where
  fn : FnId
  mould : BitVec 64
  logical : Nat
  deriving DecidableEq, Repr

/-- A queued TONGS_RUN (R97). -/
structure TRun where
  first : Nat
  count : Nat
  deriving DecidableEq, Repr

/-- A descriptor that has entered the shadow set, with the status of its check (R100). -/
structure TDesc where
  index : Nat
  status : Option Status := none
  deriving DecidableEq, Repr

/-- An active descriptor whose bytes have moved; it completes with its write responses (R101). -/
structure TActive where
  index : Nat
  /-- its bytes have moved; else a tag, a page or a channel still blocks it -/
  moved : Bool := false
  /-- aperture writes that wait for their acceptance (R271), and the status of a refused one -/
  aperture : List (PlinthId × BitVec 2048) := []
  /-- instructions of the first of them that are accepted or refused already -/
  apDone : Nat := 0
  failed : Option Status := none
  /-- its reads took an alternate, which fills the destination (R62, R64) -/
  diverted : Bool := false
  crc : Nat := 0
  hasCrc : Bool := false
  mismatch : Option Nat := none
  deriving DecidableEq, Repr

/-- One Tongs channel (R97 to R105, Table HRTH-12). -/
structure TChan where
  /-- a TONGS_RUN has come in this step (R105) -/
  started : Bool := false
  /-- the run in progress, and the runs queued behind it -/
  cur : Option TRun := none
  queue : List TRun := []
  shadow : Option TDesc := none
  active : Option TActive := none
  paused : Bool := false
  tagWait : Bool := false
  hold : Bool := false
  stopping : Bool := false
  desc : Nat := 0
  done : Nat := 0
  errValid : Bool := false
  errStatus : Nat := 0
  errDesc : Nat := 0
  crc : Nat := 0
  /-- the physical forge and the slot whose tag blocks the channel -/
  waitOn : Option (ForgeId × Nat) := none
  deriving DecidableEq, Repr

/-- An open Hearth window (R94 to R96). -/
structure Window where
  index : Fin 16
  fn : FnId
  mould : BitVec 64
  logical : Nat
  slot : Nat
  rights : Nat
  peer : Nat
  rowFirst : Nat
  rowCount : Nat
  digest : BitVec 64
  /-- lifetime in ticks from the reply -/
  expiry : Nat
  deriving DecidableEq, Repr

/-- A remote window request that a tag blocks: the port it came through, the window as admitted, the request (R95). -/
structure WinPend where
  port : PortId
  win : Window
  msg : Msg
  deriving DecidableEq, Repr

/-- The configuration an ANVIL_MM runs with (R122). -/
structure AnvilCfg where
  aSide : BitVec 8 := 0
  bSide : BitVec 8 := 0
  out : BitVec 8 := 0
  mt : BitVec 8 := 0
  shift : BitVec 8 := 0
  sRow : Nat := 0
  pRow : Nat := 0
  deriving DecidableEq, Repr

/-- The Swage configuration (R161). -/
structure SwageCfg where
  coded : Bool := false
  hSlot : Nat := 0
  hRow : Nat := 0
  deriving DecidableEq, Repr

/-- An issued ANVIL_MM with the configuration latched at its issue (R122, R124). -/
structure AnvilJob where
  word : BitVec 128
  cfg : AnvilCfg
  swage : SwageCfg
  pc : Nat
  /-- tiles delivered so far -/
  tile : Nat := 0
  deriving DecidableEq, Repr

/-- A finished tile in the queue to the Chisel (R124): its status word and its elements. -/
structure Tile where
  tile : Nat
  tokenFirst : Nat
  saturated : Bool
  special : Bool
  format : Nat
  tokens : Nat
  features : Nat
  /-- elements by token then feature, as bit patterns of the output format -/
  data : List Nat
  deriving DecidableEq, Repr

/-- The Anvil (Table ANVL-13). -/
structure Anvil where
  cfg : AnvilCfg := {}
  issued : List AnvilJob := []
  queue : List Tile := []
  waitOpnd : Bool := false
  errValid : Bool := false
  errStatus : Nat := 0
  errKind : Nat := 0
  errPc : Nat := 0
  specials : Nat := 0
  saturated : Nat := 0
  beats : Nat := 0
  tiles : Nat := 0
  deriving DecidableEq, Repr

/-- A code table in a Swage register (R163). -/
structure CodeTable where
  id : Nat
  digest : Nat
  lengths : List Nat
  deriving DecidableEq, Repr

/-- The Swage (Table SWAG-8). -/
structure Swage where
  cfg : SwageCfg := {}
  tables : Vector (Option CodeTable) 4 := Vector.replicate 4 none
  errValid : Bool := false
  errStatus : Nat := 0
  errCheck : Nat := 0
  errBillet : Nat := 0
  errPc : Nat := 0
  inBytes : Nat := 0
  outBytes : Nat := 0
  rawBlocks : Nat := 0
  deriving DecidableEq, Repr

/-- A Press table register: counts and, once built, the code (R154). -/
structure PressTable where
  counts : List Nat := []
  built : Bool := false
  id : Nat := 0
  lengths : List Nat := []
  deriving DecidableEq, Repr

/-- An issued Press instruction (R153). -/
structure PressJob where
  word : BitVec 128
  pc : Nat
  deriving DecidableEq, Repr

/-- The Press (Table SWAG-9). -/
structure Press where
  issued : List PressJob := []
  waitCh : Bool := false
  tables : Vector PressTable 2 := Vector.replicate 2 {}
  errValid : Bool := false
  errStatus : Nat := 0
  errCheck : Nat := 0
  errPc : Nat := 0
  raw : Nat := 0
  stored : Nat := 0
  rawBlocks : Nat := 0
  deriving DecidableEq, Repr

/-- An issued Chisel instruction with the tensor registers latched at its issue (R130, R134), and the queue entries it
has taken so far. -/
structure ChiselJob where
  word : BitVec 128
  stages : List (BitVec 128) := []
  tregs : List (Option (BitVec 128)) := []
  pc : Nat
  taken : List Tile := []
  deriving DecidableEq, Repr

/-- The Chisel (Table CHSL-11). Tensor registers hold their instruction word (R130). -/
structure Chisel where
  tregs : Vector (Option (BitVec 128)) 16 := Vector.replicate 16 none
  tables : Vector (Option (List (BitVec 32 × BitVec 32))) 2 := Vector.replicate 2 none
  issued : List ChiselJob := []
  waitOpnd : Bool := false
  errValid : Bool := false
  errStatus : Nat := 0
  errCheck : Nat := 0
  errPc : Nat := 0
  saturated : Nat := 0
  specials : Nat := 0
  vectors : Nat := 0
  deriving DecidableEq, Repr

/-- A look-aside entry of the Armature (R191). -/
structure Lab where
  fn : FnId
  seq : Nat
  layer : Nat
  group : Nat
  lpage : Nat
  page : Nat
  state : Nat
  /-- the page is a shadow of the step's heat (R190) -/
  shadow : Bool := false
  deriving DecidableEq, Repr

/-- The running state of one query row (Table CRUC-7): running maximum, INF mode, status bits, denominator and
accumulators. -/
structure CRow where
  m : Option Int := none
  inf : Bool := false
  status : Nat := 0
  pages : Nat := 0
  l : Int := 0
  o : List Int := []
  deriving DecidableEq, Repr

/-- An issued Crucible instruction with the configuration latched at its issue (R173, R175). -/
structure CrucJob where
  word : BitVec 128
  cfg : BitVec 128
  pc : Nat
  env : Lines := {}
  /-- once it runs: the query block and the mask as read, the pages it takes, those merged so far, and its rows -/
  started : Bool := false
  query : List Byte := []
  mask : List Byte := []
  total : Nat := 0
  page : Nat := 0
  rows : List CRow := []
  /-- the alternate of the page has been called, from within so many other alternates -/
  asked : Option Nat := none
  deriving DecidableEq, Repr

/-- The Crucible and its Armature (Table CRUC-12). -/
structure Crucible where
  cfg : BitVec 128 := 0
  issued : List CrucJob := []
  lab : List Lab := []
  waitOpnd : Bool := false
  waitT1 : Bool := false
  waitPending : Bool := false
  waitDivert : Bool := false
  errValid : Bool := false
  errStatus : Nat := 0
  errCheck : Nat := 0
  errPc : Nat := 0
  labHits : Nat := 0
  labMisses : Nat := 0
  rowsEmpty : Nat := 0
  rowsInf : Nat := 0
  rowsNan : Nat := 0
  scoreSat : Nat := 0
  specials : Nat := 0
  diverts : Nat := 0
  records : Nat := 0
  appends : Nat := 0
  deriving DecidableEq, Repr

/-- A line of the shared cache (R88), by function and line number; dirty lines carry their heat. -/
structure CacheLine where
  fn : FnId
  plinth : Option PlinthId := none
  line : Nat
  dirty : Bool := false
  /-- heat slot that dirtied the line (R91) -/
  heat : Option (Fin 32) := none
  bytes : List Byte
  home : ForgeId
  /-- segment × 128 + set: the sixteen ways it may lie in (R88) -/
  set : Nat := 0
  deriving DecidableEq, Repr

/-- A PLINTH_RUN whose instructions are not all accepted yet (R274). -/
structure PRun where
  plinth : PlinthId
  instrs : List (BitVec 256)
  deriving DecidableEq, Repr

/-- One physical forge. -/
structure Forge where
  failed : Bool := false
  job : Option Job := none
  pc : Nat := 0
  phase : Nat := 0
  /-- PHASE 0 has been entered -/
  inPhase : Bool := false
  nest : List Nest := []
  ended : Bool := false
  tchans : Vector TChan 8 := Vector.replicate 8 {}
  tBytes : Nat := 0
  windows : List Window := []
  winWait : List WinPend := []
  anvil : Anvil := {}
  swage : Swage := {}
  press : Press := {}
  chisel : Chisel := {}
  cruc : Crucible := {}
  prun : Option PRun := none
  conflictValid : Bool := false
  conflict : BitVec 31 := 0
  conflictWrite : Bool := false
  conflictUntagged : Bool := false
  conflictCount : Nat := 0
  slotTimeouts : Nat := 0
  tagSel : Nat := 0
  cacheHits : Nat := 0
  cacheMisses : Nat := 0
  anneals : Nat := 0
  /-- draw number of the undefined content of non-persistent rows (R56) -/
  gen : Nat := 0
  /-- segments zeroed by a change of cache mode and not written since (R89) -/
  zeroSeg : BitVec 12 := 0
  deriving DecidableEq, Repr

end Sys2Proof.Machine
end

