-- ==== Sys2Proof/Machine/StatePeriph.lean ====
section
/-! DEFINITION. State of the near tier, the migration engine, the Plinths and the Grizlink fabric. -/

namespace Sys2Proof.Machine

/-! ### Near tier (Tables TIER-9, TIER-11, TIER-12) -/

inductive ChanState where
  | active | retraining | mappedOut | repair
  deriving DecidableEq, Repr

structure Chan where
  state : ChanState := .active
  /-- the channel completes training (Table TIER-8, Table TRST-2) -/
  trains : Bool := true
  ce1 : Nat := 0
  ce2 : Nat := 0
  ueAddress : Nat := 0
  ueOther : Nat := 0
  retrains : Nat := 0
  retrainTicks : Nat := 0
  /-- spare rows left of each bank, spare column groups left (R252) -/
  spareRows : Vector Nat 16 := Vector.replicate 16 4
  spareCols : Nat := 8
  /-- corrected beats by location: bank, KIND of Table TIER-8's repairs (1 row, 2 column group), index, count (R252) -/
  located : List (Nat × Nat × Nat × Nat) := []
  /-- units whose requests wait in its reorder queue while it serves none (R236, R243) -/
  queue : List Nat := []
  /-- a trigger that came while the channel retrains (R242) -/
  again : Bool := false
  /-- the repair for which the channel is held (R252) -/
  holder : Option Cmd := none
  /-- a repair has ended: the first access retrains the channel (Table TIER-6) -/
  repaired : Bool := false
  /-- stack temperature at its last training, once one has been reported (Table TIER-6) -/
  trainTemp : Option (BitVec 16) := none
  deriving DecidableEq, Repr

structure Stack where
  temp : BitVec 16 := 0
  hard : Bool := false
  level : Nat := 0
  quenchTicks : Nat := 0
  /-- channels whose retrain waits for another of the stack (R242) -/
  waiting : List ChanId := []
  deriving DecidableEq, Repr

structure Partition where
  /-- STALL_GRANT (R63, R250) -/
  stall : Bool := false
  unlimited : Bool := true
  rate : Nat := 1
  burst : Nat := 64
  t1Limit : Nat := 0
  t2Limit : Nat := 0
  /-- the token bucket of each stack, in sixteenths of a token (R249); below zero where requests wait -/
  tokens : Vector Int 16 := Vector.replicate 16 65536
  waitTicks : Nat := 0
  deriving DecidableEq, Repr

structure Near where
  chans : Vector Chan 512 := Vector.replicate 512 {}
  stks : Vector Stack 16 := Vector.replicate 16 {}
  parts : Vector Partition 64 := Vector.replicate 64 {}
  partSel : BitVec 6 := 0
  /-- map-outs in map-out order, each with its PENDING bit (R244, R245) -/
  mapouts : List (ChanId × Bool) := []
  deriving DecidableEq, Repr

structure Migr where
  /-- orders transfers and reads: the model's own clock of the migration engine -/
  clock : Nat := 0
  sel : BitVec 14 := 0
  up : Nat := 0
  down : Nat := 0
  poisoned : Nat := 0
  deriving DecidableEq, Repr

/-! ### Plinths (R254 to R285, Table PLIN-10) -/

/-- A unit instruction accepted into a chain queue (R271). -/
structure UInstr where
  word : BitVec 256
  fn : FnId
  forge : Option ForgeId := none
  /-- the mould and the step that issued it (R280) -/
  step : Option (BitVec 64 × Nat) := none
  scan : Option Nat := none
  deriving DecidableEq, Repr

/-- An instruction whose access phase has begun: the results it writes by entry, or the pairs it gives to the reduction
unit by query, score and row, with the rows and the unit MACs of a scan (R267, R269, R285). -/
structure UWork where
  instr : UInstr
  values : List (Nat × Int) := []
  pairs : List (Nat × Int × Nat) := []
  rows : Nat := 0
  mac : BitVec 64 := 0
  /-- a row lay in a page without a good copy when the access phase began (R261, R279) -/
  lost : Bool := false
  deriving DecidableEq, Repr

/-- An ordinary request that waits in a bank queue while an access phase lasts (R275): a scrub with what it meets, or a read
of a page of T2, by its die address divided by 65,536. -/
inductive OrdReq where
  | scrub (frame : Nat) (e : BlockErr)
  | read (page : Nat)
  deriving DecidableEq, Repr

structure Chain where
  queue : List UInstr := []
  /-- the instruction in its access phase, and the one that computes from the other row buffer (R267) -/
  access : Option UWork := none
  compute : Option UWork := none
  /-- the register files: 1 KiB of each of the four units, none written reading as zero (R270) -/
  regs : List Byte := []
  /-- failed lines of the result area: function and 256-byte line (R279, R280) -/
  failed : List (FnId × Nat) := []
  /-- ordinary requests that wait for the end of the access phase, and the reads served between the last access phase and the
  present one, by die address divided by 65,536 (R275) -/
  ordQ : List OrdReq := []
  due : List Nat := []
  deriving DecidableEq, Repr

/-- An installed unit program (R273). -/
structure UProg where
  fn : FnId
  mould : BitVec 64
  program : Nat
  instrs : List (BitVec 256)
  deriving DecidableEq, Repr

structure Plinth where
  compute : BitVec 6 := 0
  linkUp : Bool := false
  linkFails : Nat := 0
  selfRefresh : BitVec 6 := 0
  chains : Vector Chain 12 := Vector.replicate 12 {}
  progs : List UProg := []
  /-- operand slices, keyed function × 65536 + offset -/
  operands : List Host.Cell := []
  /-- result areas, keyed (function × 12 + chain) × 262144 + offset -/
  results : List Host.Cell := []
  /-- the running scan: function and scan number -/
  scan : Option (FnId × Nat) := none
  /-- top-k lists of the running scan: query, score, row, in order -/
  topk : List (Nat × Int × Nat) := []
  rowsScored : Nat := 0
  /-- instructions of the running scan: all of them, and those that Smith has still to issue -/
  scanAll : List (ChainId × UInstr) := []
  scanTodo : List (ChainId × UInstr) := []
  /-- operand slices of the running scan: how many it holds, its queries, its bitmap (R283) -/
  scanSlices : Nat := 0
  scanQ : List Byte := []
  scanBits : List Byte := []
  /-- 4 KiB blocks of result areas whose VALID bit is set: (function × 12 + chain) × 64 + block (R259, R266) -/
  valid : List Nat := []
  errValid : Bool := false
  errStatus : Nat := 0
  errKind : Nat := 0
  errChain : Nat := 0
  ceOdecc : Nat := 0
  ceCheck : Nat := 0
  ue : Nat := 0
  tagFail : Nat := 0
  ordWait : Nat := 0
  suspends : Nat := 0
  instrs : Nat := 0
  unitAnneals : Nat := 0
  devSel : BitVec 3 := 0
  agg : BitVec 64 := 0
  deriving DecidableEq, Repr

/-! ### Grizlink (Tables GRIZ-7, GRIZ-12, GRIZ-13) -/

inductive PortState where
  | down | training | auth | up | fenced | absent | annealing
  deriving DecidableEq, Repr

def PortState.code : PortState → Nat
  | .down => 0 | .training => 1 | .auth => 2 | .up => 3 | .fenced => 4 | .absent => 5 | .annealing => 6

/-- A record that a port sends (Table GRIZ-7). -/
structure Record where
  kind : Nat
  flags : Nat := 0
  format : Nat := 0
  sub : Nat := 0
  src : Nat := 0
  dst : Nat := 0
  cohort : BitVec 64 := 0
  digest : BitVec 32 := 0
  step : Nat := 0
  seq : Nat := 0
  body : List Byte := []
  deriving DecidableEq, Repr

/-- A frame given to a link (R349): SEQ of its first flit, ACK and RETRY of its headers, frame counter, key and salt of the sending
direction, and its 2,000 bytes of records. -/
structure LinkFrame where
  seq : Nat
  ack : Nat
  retry : Bool
  counter : Nat
  key : BitVec 256
  salt : BitVec 32
  records : List Byte
  deriving DecidableEq, Repr

structure Port where
  state : PortState := .down
  width : Nat := 0
  mapped : Bool := false
  inverted : Bool := false
  logical : Fin 8
  lanes : BitVec 16 := 0
  partnerPort : Nat := 0
  partnerChip : BitVec 16 := 0xFFFF
  partnerKey : BitVec 256 := 0
  codes : Vector (BitVec 4) 16 := Vector.replicate 16 0
  /-- how many lanes of the other direction are good (R353) -/
  far : Nat := 16
  /-- lanes that retrain or anneal now (R354) -/
  retraining : BitVec 16 := 0
  evFenced : Bool := false
  evDegraded : Bool := false
  evSwapped : Bool := false
  evAnnealed : Bool := false
  fecCorr : Nat := 0
  fecUncorr : Nat := 0
  retries : Nat := 0
  tagFails : Nat := 0
  creditWait : Nat := 0
  /-- window requests refused through the port: the count of R95, which no register shows -/
  refusals : Nat := 0
  discards : Nat := 0
  tx : Nat := 0
  /-- SEQ of the next flit to send and of the last flit accepted in order (R350) -/
  txSeq : Nat := 0
  rxSeq : Nat := 4095
  /-- flits sent and not acknowledged, and flits that wait for room in the retry buffer -/
  unacked : Nat := 0
  backlog : Nat := 0
  /-- acknowledgement expiries in succession for the oldest flit -/
  expiries : Nat := 0
  /-- frame counters of the two directions under the present keys (R349) -/
  frameTx : Nat := 0
  frameRx : Nat := 0
  /-- frame counter of a frame whose tag failed, and the times of the last failures (R357) -/
  failedFrame : Option Nat := none
  /-- a frame was beyond correction or its tag failed, and the port waits for it again: link-level retry (R42, R350) -/
  again : Bool := false
  failTimes : List Nat := []
  /-- messages of the in-traffic key exchange done so far (R356) -/
  rekey : Nat := 0
  /-- of that exchange: the decapsulation key, the shared secret, the messages so far -/
  kexDk : List Byte := []
  kexSecret : List Byte := []
  kexLog : List Byte := []
  keyed : Bool := false
  /-- keys and salts of the two directions, and the resumption secret (R355) -/
  keyTx : BitVec 256 := 0
  keyRx : BitVec 256 := 0
  saltTx : BitVec 32 := 0
  saltRx : BitVec 32 := 0
  resume : Option (BitVec 256) := none
  /-- frames that are not acknowledged whole, oldest first: the retry buffer and what waits for room in it (R350) -/
  buffer : List LinkFrame := []
  /-- records given to the link, oldest first -/
  outbox : List Record := []
  deriving DecidableEq, Repr

structure Coll where
  saturated : Nat := 0
  specials : Nat := 0
  combines : Nat := 0
  deriving DecidableEq, Repr

end Sys2Proof.Machine
end

