-- ==== Sys2Proof/Machine/State.lean ====
section
/-! DEFINITION. The whole state of the module, the queue of waiting commands, the reset state, and the reasons to stop. -/

namespace Sys2Proof.Machine

/-- Reasons to stop with a fault. The module has none: every command that the spec gives ends in a next state, so the
type has no constructor. -/
inductive Fault where
  deriving DecidableEq, Repr

/-- Reasons to have no meaning. -/
inductive Refusal where
  /-- Raised by a dispatch arm whose command has no meaning yet: the model stops, which is safe. -/
  | notModelled (mnemonic : String)
  deriving DecidableEq, Repr

/-- Features that SET_FEATURE sets (Table CMND-10, Table TIME-6, R87, R257). -/
structure Features where
  /-- 0x0101 to 0x010B, in ticks -/
  timeouts : Vector Nat 11 :=
    #v[200000, 1000000, 100000, 200000, 10000, 5000, 100000, 500000, 10000000, 2000000, 1000000]
  cacheMask : BitVec 12 := 0x800
  scanGroups : BitVec 48 := 0
  deriving DecidableEq, Repr

/-- HEAT_ registers that are not per function (Table HEAT-12). -/
structure HeatRegs where
  sel : BitVec 6 := 0
  annealSel : BitVec 3 := 1
  /-- anneals and failed anneals by rank of Table TIME-7, rank 1 first -/
  anneals : Vector Nat 7 := Vector.replicate 7 0
  fails : Vector Nat 7 := Vector.replicate 7 0
  deriving DecidableEq, Repr

/-- The module. -/
structure State where
  /-- commands that wait, first in, first out: the block's own queue of inputs -/
  pending : List Instr := []
  time : TimeBase := {}
  feat : Features := {}
  smith : Smith := {}
  hall : Hallmark := {}
  ledger : Ledger := {}
  bell : Bellows := {}
  pcie : Pcie := {}
  tap : Tap := {}
  events : EventLog := {}
  host : Vector FnHost 64 := Vector.replicate 64 {}
  admin : Ring := {}
  flights : List Flight := []
  out : List HostEvent := []
  deferred : List Deferred := []
  anneals : List AnnealRun := []
  heatRegs : HeatRegs := {}
  fns : Vector Fn 64 := Vector.ofFn fun n => { partition := n }
  forges : Vector Forge 64 := Vector.replicate 64 {}
  /-- Hearth bytes that are not undefined, keyed forge × 2^24 + offset (R76, R77) -/
  hearth : List Host.Cell := []
  /-- T1 and T2 content by Range, keyed function × 2^48 + address; a shared model lies in its publisher's Range;
  unlisted bytes are zero (R221) -/
  ram : List Host.Cell := []
  t1 : List Frame := []
  t2 : List Frame := []
  /-- T2 frames retired for the rest of the power cycle (R279) -/
  retired : List Nat := []
  models : Vector (Option Model) 16 := Vector.replicate 16 none
  cache : List CacheLine := []
  near : Near := {}
  migr : Migr := {}
  plinths : Vector Plinth 8 := Vector.replicate 8 {}
  ports : Vector Port 8 := Vector.ofFn fun p => { logical := p }
  coll : Coll := {}
  /-- draws made from the free values of Config so far: the model's own counter, not the module's -/
  draws : Nat := 0
  /-- installations made so far: orders moulds by their installation (Table HRTH-11) -/
  installs : Nat := 0
  deriving DecidableEq, Repr

/-- The module before power: nothing supplied, PERST# held by its pull-down (R429), every register at its table's reset. -/
def State.reset : State := {}

end Sys2Proof.Machine
end

