-- ==== Sys2Proof/Machine/Symbol.lean ====
section
/-! DEFINITION. The symbol codes of the two tiers: Reed–Solomon over GF(256) on a T1 beat (R238, R239) and over GF(2^16) on a
4 KiB block of T2 (R259). -/

namespace Sys2Proof.Machine

/-- A field of `2 ^ w` elements, by its polynomial without the leading term. -/
structure Field where
  w : Nat
  poly : Nat
  deriving DecidableEq, Repr

/-- x⁸ + x⁴ + x³ + x² + 1 (R238) and x¹⁶ + x¹² + x³ + x + 1 (R259). -/
def gf8 : Field := ⟨8, 0x1D⟩
def gf16 : Field := ⟨16, 0x100B⟩

/-- Multiply by x. -/
def Field.twice (k : Field) (a : Nat) : Nat := if 2 ^ k.w ≤ 2 * a then (2 * a - 2 ^ k.w) ^^^ k.poly else 2 * a

def Field.mul (k : Field) (a b : Nat) : Nat :=
  (List.range k.w).foldr (fun i acc => k.twice acc ^^^ (if bit b i then a else 0)) 0

/-- A power of the primitive element x. -/
def Field.exp (k : Field) (n : Nat) : Nat := iter k.twice n 1

/-- The inverse: a ^ (2 ^ w - 2), the product of the squares a², a⁴, … -/
def Field.inv (k : Field) (a : Nat) : Nat :=
  (iter (fun (p : Nat × Nat) => let q := k.mul p.1 p.1; (q, k.mul p.2 q)) (k.w - 1) (a, 1)).2

/-- The value at `x` of a polynomial whose coefficients stand from the highest power down. -/
def Field.eval (k : Field) (l : List Nat) (x : Nat) : Nat := l.foldl (fun acc c => k.mul acc x ^^^ c) 0

/-- Add a multiple of one coefficient list to another from their heads on. -/
def Field.addMul (k : Field) (f : Nat) : List Nat → List Nat → List Nat
  | a :: as, b :: bs => (a ^^^ k.mul f b) :: k.addMul f as bs
  | as, _ => as

/-- (x - α⁰) … (x - αⁿ⁻¹), from the highest power down, its leading 1 left out. -/
def Field.gen (k : Field) : Nat → List Nat
  | 0 => []
  | n + 1 => let g := 1 :: k.gen n; (k.addMul (k.exp n) (g ++ [0]) (0 :: g)).drop 1

/-- The `n` check symbols of the systematic codeword of a message. -/
def Field.checks (k : Field) (n : Nat) (msg : List Nat) : List Nat :=
  msg.foldl (fun r m => k.addMul (r.headD 0 ^^^ m) (r.drop 1 ++ [0]) (k.gen n)) (List.replicate n 0)

/-- The syndromes of a word. -/
def Field.syndromes (k : Field) (n : Nat) (l : List Nat) : List Nat := (List.range n).map fun i => k.eval l (k.exp i)

/-! ### The beats of T1 (R238, R239) -/

/-- The virtual symbols of a beat: channel and beat address, most significant byte first. -/
def virtualSymbols (c stripe beat : Nat) : List Nat :=
  let v := (c % 256) * 2 ^ 24 + stripe * 8 + beat
  [v / 2 ^ 24 % 256, v / 2 ^ 16 % 256, v / 2 ^ 8 % 256, v % 256]

/-- The 40 symbols of a beat's codeword: the virtual symbols, the 32 data symbols, the four check symbols. -/
def beatWord (c stripe beat : Nat) (data : List Byte) : List Nat :=
  let msg := virtualSymbols c stripe beat ++ (fit 32 data).map (·.toNat)
  msg ++ gf8.checks 4 msg

/-- The 288 bits that are stored: d₀ to d₃₁, then p₀ to p₃. -/
def storedBeat (c stripe beat : Nat) (data : List Byte) : List Byte :=
  ((beatWord c stripe beat data).drop 4).map (BitVec.ofNat 8)

/-- What the decoder makes of a beat: nothing wrong, symbols corrected at their positions of the 40, an error that its
correction would place in a virtual symbol, or any other uncorrectable one. -/
inductive BeatClass where
  | clean
  | fixed (l : List (Nat × Nat))
  | address
  | other
  deriving DecidableEq, Repr

/-- Positions whose correction touches a virtual symbol. -/
def classify (l : List (Nat × Nat)) : BeatClass := if l.any (·.1 < 4) then .address else .fixed l

/-- The locator of position `i`: the coefficient of x^(39 - i). -/
def locator (i : Nat) : Nat := gf8.exp (39 - i)

/-- The decoder on the 40 symbols as read, the virtual ones as the controller expects them. -/
def decodeBeat (word : List Nat) : BeatClass :=
  match gf8.syndromes 4 word with
  | [s0, s1, s2, s3] =>
    if s0 = 0 && s1 = 0 && s2 = 0 && s3 = 0 then .clean
    else
      let one := (List.range 40).find? fun i => let x := locator i
        s0 != 0 && gf8.mul x s0 == s1 && gf8.mul x s1 == s2 && gf8.mul x s2 == s3
      match one with
      | some i => classify [(i, s0)]
      | none =>
        let two := (List.range 40).findSome? fun i =>
          let x := locator i
          let a0 := s1 ^^^ gf8.mul x s0
          let a1 := s2 ^^^ gf8.mul x s1
          let a2 := s3 ^^^ gf8.mul x s2
          ((List.range i).find? fun j => let y := locator j
            a0 != 0 && (s1 ^^^ gf8.mul y s0) != 0 && gf8.mul y a0 == a1 && gf8.mul y a1 == a2).map fun j =>
            let ej := gf8.mul a0 (gf8.inv (x ^^^ locator j))
            [(j, ej), (i, s0 ^^^ ej)]
        match two with
        | some l => classify l
        | none => .other
  | _ => .other

/-- The 40 symbols of a disturbance: its bits 8k + 7 to 8k are those of symbol k. -/
def symbolsOf (e : BitVec 320) : List Nat := (List.range 40).map fun i => bits e.toNat (8 * i) 8

/-- The class of a beat that a disturbance changes: the code is linear, so the disturbance alone decides. -/
def beatClass (e : BitVec 320) : BeatClass := decodeBeat (symbolsOf e)

/-- Bits of data byte `k` that a disturbed beat delivers changed: none where the decoder corrects rightly, some where three or more
symbols are miscorrected (R239). -/
def beatFlip (e : BitVec 320) (k : Nat) : Byte :=
  match beatClass e with
  | .fixed l => BitVec.ofNat 8 (bits e.toNat (8 * (k + 4)) 8 ^^^ ((l.find? (·.1 == k + 4)).map (·.2)).getD 0)
  | _ => 0

/-- What the decoder delivers of a disturbed beat's 32 data bytes. -/
def beatData (data : List Byte) (e : BitVec 320) : List Byte := (fit 32 data).mapIdx fun k b => b ^^^ beatFlip e k

/-! ### The blocks of T2 (R259, R260) -/

/-- The 2,048 little-endian words of a block, word 0 first. -/
def blockWords (b : List Byte) : List Nat := (List.range 2048).map fun i => u b (2 * i) 2

/-- The two check symbols of a block. -/
def blockChecks (b : List Byte) : List Nat := gf16.checks 2 (blockWords b)

/-- What a Plinth makes of a block: nothing wrong, one 16-bit word corrected, or uncorrectable. -/
inductive BlockClass where
  | clean
  | fixed (pos err : Nat)
  | bad
  deriving DecidableEq, Repr

/-- The exponent of an element: the first of the `n` powers from `p` = x^`i` on that is it. -/
def Field.logFrom (k : Field) (x p i : Nat) : Nat → Option Nat
  | 0 => none
  | n + 1 => if p = x then some i else k.logFrom x (k.twice p) (i + 1) n

/-- The exponent of an element, among the first `n`. -/
def Field.log (k : Field) (x n : Nat) : Option Nat := k.logFrom x 1 0 n

/-- The value at x of a disturbance given by positions and errors among the 2,050. -/
def blockSyndrome (errs : List (Nat × Nat)) (i : Nat) : Nat :=
  errs.foldl (fun acc p => if p.1 < 2050 then acc ^^^ gf16.mul (p.2 % 65536) (gf16.exp (i * (2049 - p.1))) else acc) 0

/-- The class of a block whose words a disturbance changes: its positions of the 2,050 with the bits it flips. -/
def blockClass (errs : List (Nat × Nat)) : BlockClass :=
  let s0 := blockSyndrome errs 0
  let s1 := blockSyndrome errs 1
  if s0 = 0 && s1 = 0 then .clean
  else if s0 = 0 then .bad
  else match gf16.log (gf16.mul s1 (gf16.inv s0)) 2050 with
    | some e => .fixed (2049 - e) s0
    | none => .bad

/-- Bits of byte `k` that a disturbed block delivers changed. -/
def blockFlip (errs : List (Nat × Nat)) (k : Nat) : Byte :=
  match blockClass errs with
  | .fixed pos err => BitVec.ofNat 8 ((errs ++ [(pos, err)]).foldl (fun acc p => if p.1 = k / 2 then acc ^^^ (p.2 / 256 ^ (k % 2)) else acc) 0)
  | _ => 0

/-- What the code delivers of a disturbed block. -/
def blockData (b : List Byte) (errs : List (Nat × Nat)) : List Byte := (fit 4096 b).mapIdx fun k x => x ^^^ blockFlip errs k

end Sys2Proof.Machine
end

