-- ==== Sys2Proof/Machine/Wire.lean ====
section
/-! DEFINITION. Grizlink on the wire: records, frames, flits, their check bytes and the decoder, and the keys of a port (R348, R349,
R355, R363). -/

namespace Sys2Proof.Machine

/-! ### Records (R363) -/

/-- The bytes of a record: the header of Table GRIZ-7, then its LENGTH bytes. -/
def Record.bytes (r : Record) : List Byte :=
  toLe 1 r.kind ++ toLe 1 r.flags ++ toLe 1 r.format ++ toLe 1 r.sub ++ toLe 2 r.src ++ toLe 2 r.dst ++ bvBytes 8 r.cohort ++
    bvBytes 4 r.digest ++ toLe 4 r.step ++ toLe 4 r.seq ++ toLe 4 r.body.length ++ r.body

/-- Frames that so many bytes of records take with the PAD record that fills them out: its header needs 32 bytes. -/
def frameCount (n : Nat) : Nat := if n % 2000 = 0 then n / 2000 else ceilDiv (n + 32) 2000

/-- A record filled out with PAD to whole frames. -/
def Record.framed (r : Record) : List Byte :=
  let b := r.bytes
  let left := 2000 * frameCount b.length - b.length
  b ++ if left = 0 then [] else ({ kind := 0, body := List.replicate (left - 32) 0 } : Record).bytes

/-! ### Frames and flits (R348, R349) -/

/-- The four header bytes of flit `i` of a frame (Table GRIZ-2). -/
def LinkFrame.header (x : LinkFrame) (i : Nat) : List Byte :=
  toLe 4 (2 * 2 ^ 28 + x.ack % 4096 * 2 ^ 16 + b2n x.retry * 2 ^ 15 + i * 2 ^ 12 + (x.seq + i) % 4096)

/-- The eight flits of a frame, 256 bytes each: the headers are the additional authenticated data of the records. -/
def LinkFrame.flits (x : LinkFrame) : List (List Byte) :=
  let heads := (List.range 8).map x.header
  let (ct, tag) := gcmSeal x.key (bvBytes 4 x.salt ++ toLe 8 x.counter) heads.flatten (fit 2000 x.records)
  List.zipWith (· ++ ·) heads (pieces 252 8 (ct ++ bvBytes 16 tag))

/-- The bytes of codeword `j` of a flit or of its wire form: every fourth. -/
def interleave (j : Nat) (l : List Byte) : List Nat := (List.range (l.length / 4)).map fun k => (l.getD (4 * k + j) 0).toNat

/-- The 280 bytes of a flit on the wire: check byte m of codeword j stands at 256 + 4 m + j. -/
def wireFlit (flit : List Byte) : List Byte :=
  let checks := (List.range 4).map fun j => gf8.checks 6 (interleave j flit)
  flit ++ (List.range 24).map fun i => BitVec.ofNat 8 ((checks.getD (i % 4) []).getD (i / 4) 0)

/-- The logical lane that carries a wire byte. -/
def wireLane (width b : Nat) : Nat := b % width

/-- The flits on the wire that a port has sent and resends until they are acknowledged, oldest first (R350). -/
def Port.wire (q : Port) : List (List Byte) :=
  let all := (q.buffer.map LinkFrame.flits).flatten
  ((all.drop (all.length - q.unacked - q.backlog)).take q.unacked).map wireFlit

/-! ### The decoder of a codeword (R348) -/

/-- Strike the error at a position out of a list of syndromes, which grows one shorter. -/
def Field.strike (k : Field) (x : Nat) : List Nat → List Nat
  | a :: b :: l => (b ^^^ k.mul x a) :: k.strike x (b :: l)
  | _ => []

/-- Errors at no more than `t` of the first `n` positions of a word of `len` symbols explain the syndromes. -/
def Field.explains (k : Field) (len : Nat) : Nat → Nat → List Nat → Bool
  | 0, _, syn => syn.all (· == 0)
  | t + 1, n, syn => syn.all (· == 0) || (List.range n).any fun i => k.explains len t i (k.strike (k.exp (len - 1 - i)) syn)

/-- What becomes of a codeword or of a flit: clean, corrected, corrected to something else than was sent, uncorrectable. -/
inductive FecClass where
  | clean
  | fixed
  | wrong
  | bad
  deriving DecidableEq, Repr

/-- A codeword of RS(70,64) whose symbols a disturbance changes: the code is linear and corrects up to three. -/
def codewordClass (e : List Nat) : FecClass :=
  let w := (e.filter (· != 0)).length
  if w = 0 then .clean else if w ≤ 3 then .fixed
  else
    let syn := gf8.syndromes 6 e
    if syn.all (· == 0) then .wrong else if gf8.explains 70 3 70 syn then .wrong else .bad

/-- Disturbed bytes of a frame's flits, of their 256 data bytes and of the 24 check bytes that follow them (R348). -/
def wireErrs (data : List (Fin 8 × Fin 256 × BitVec 8)) (check : List (Fin 8 × Fin 24 × BitVec 8)) : List (Fin 8 × Fin 280 × BitVec 8) :=
  (data.map fun x => (x.1, x.2.1.castLE (by omega), x.2.2)) ++ check.map fun x => (x.1, x.2.1.natAdd 256, x.2.2)

/-- The bits that a frame's disturbances flip in wire byte `b` of flit `i`. -/
def flipAt (errs : List (Fin 8 × Fin 280 × BitVec 8)) (i b : Nat) : Nat :=
  errs.foldl (fun acc x => if x.1.val = i && x.2.1.val = b then acc ^^^ x.2.2.toNat else acc) 0

/-- The four codewords of flit `i`. -/
def flitCodes (errs : List (Fin 8 × Fin 280 × BitVec 8)) (i : Nat) : List FecClass :=
  (List.range 4).map fun j => codewordClass ((List.range 70).map fun k => flipAt errs i (4 * k + j))

/-- Codewords that the decoder corrects in a frame. -/
def fecCorrected (errs : List (Fin 8 × Fin 280 × BitVec 8)) : Nat :=
  (((List.range 8).map (flitCodes errs)).flatten.filter fun c => c == .fixed || c == .wrong).length

/-- The flits of a frame that are discarded. -/
def fecDiscards (errs : List (Fin 8 × Fin 280 × BitVec 8)) : List Nat :=
  (List.range 8).filter fun i => (flitCodes errs i).contains .bad

/-- A flit from position `first` of the frame on is delivered other than it was sent. -/
def fecWrong (errs : List (Fin 8 × Fin 280 × BitVec 8)) (first : Nat) : Bool :=
  (List.range 8).any fun i => first ≤ i && (flitCodes errs i).contains .wrong

/-! ### The keys of a port (R355, R356) -/

/-- Keys from a shared secret and the messages of its exchange. After the first exchange the resumption secret keys the derivation,
over the shared secret and the transcript hash (DESIGN CHOICE, log 175). The frame counters restart at 0. -/
def Port.rekeyed (q : Port) (sideA : Bool) (secret messages : List Byte) : Port :=
  let t := digestBytes (sha256 messages)
  let k := match q.resume with
    | none => kdf secret (ascii "GRIZ") t 104
    | some r => kdf (digestBytes r) (ascii "GRIZ") (secret ++ t) 104
  let ab := (toDigest (slice k 0 32), BitVec.ofNat 32 (u k 64 4))
  let ba := (toDigest (slice k 32 32), BitVec.ofNat 32 (u k 68 4))
  let (tx, rx) := if sideA then (ab, ba) else (ba, ab)
  { q with keyed := true, rekey := 0, frameTx := 0, frameRx := 0, failedFrame := none, failTimes := []
           keyTx := tx.1, saltTx := tx.2, keyRx := rx.1, saltRx := rx.2, resume := some (toDigest (slice k 72 32))
           kexDk := [], kexSecret := [], kexLog := [] }

end Sys2Proof.Machine
end

