-- ==== Sys2Proof/Machine/Ops.lean ====
section
/-! DEFINITION. The operations every meaning shares: parts of the state, frames, event records, replies, sessions. -/

namespace Sys2Proof

/-- FLAGS.SEALED (Table CMND-4). -/
def Cmd.isSealed (k : Cmd) : Bool := k.flags.getLsbD 0

/-- The parameter block as 32 bytes, in offset order. -/
def Cmd.p (k : Cmd) : List Byte := Machine.bvBytes 32 k.params

end Sys2Proof

namespace Sys2Proof.Machine

/-- A beat that the decoder classes as uncorrectable (R239). -/
def beatLost (e : BitVec 320) : Bool := match beatClass e with
  | .address | .other => true
  | _ => false

end Sys2Proof.Machine

namespace Sys2Proof

/-- A block that the check symbols cannot correct, and one that is lost to a reader: its tag may fail too (R259, R261). -/
def BlockErr.ue (e : BlockErr) : Bool := Machine.blockClass e.errs == .bad
def BlockErr.lost (e : BlockErr) : Bool := e.ue || !e.tagOk

/-- Some line that a step meets is lost. -/
def Lines.fails (e : Lines) : Bool := (e.beats.any fun b => Machine.beatLost b.2) || e.blocks.any (·.lost)

end Sys2Proof

namespace Sys2Proof.Machine

/-! ### Parts of the state -/

def State.modFn (s : State) (f : FnId) (g : Fn → Fn) : State := { s with fns := vmod s.fns f g }
def State.modForge (s : State) (f : ForgeId) (g : Forge → Forge) : State := { s with forges := vmod s.forges f g }
def State.modHost (s : State) (f : FnId) (g : FnHost → FnHost) : State := { s with host := vmod s.host f g }
def State.modPlinth (s : State) (n : PlinthId) (g : Plinth → Plinth) : State := { s with plinths := vmod s.plinths n g }
def State.modPort (s : State) (p : PortId) (g : Port → Port) : State := { s with ports := vmod s.ports p g }
def State.modBell (s : State) (g : Bellows → Bellows) : State := { s with bell := g s.bell }
def State.modHall (s : State) (g : Hallmark → Hallmark) : State := { s with hall := g s.hall }
def State.modNear (s : State) (g : Near → Near) : State := { s with near := g s.near }
def State.modChan (s : State) (c : ChanId) (g : Chan → Chan) : State :=
  s.modNear fun n => { n with chans := vmod n.chans c g }
def State.modStack (s : State) (c : StackId) (g : Stack → Stack) : State :=
  s.modNear fun n => { n with stks := vmod n.stks c g }

/-- A ring's registers: the admin ring of the physical function, or a ring of a function (R316). -/
def State.ring (s : State) (fn : FnId) : Option RingId → Ring
  | none => s.admin
  | some r => s.host[fn].rings[r]

def State.modRing (s : State) (fn : FnId) (r : Option RingId) (g : Ring → Ring) : State :=
  match r with
  | none => { s with admin := g s.admin }
  | some r => s.modHost fn fun h => { h with rings := vmod h.rings r g }

/-- A power domain is on (Table POWR-3). -/
def State.domOn (s : State) (d : Nat) : Bool := s.bell.domOn.getLsbD d

/-- A forge's domain is on. -/
def State.forgeOn (s : State) (f : ForgeId) : Bool := s.domOn f.val

def State.plinthOn (s : State) (n : PlinthId) : Bool := s.domOn (80 + n.val)
def State.portOn (s : State) (p : PortId) : Bool := s.domOn (88 + p.val)

/-- Powered forges, ascending. -/
def State.poweredForges (s : State) : List ForgeId := (List.finRange 64).filter fun f => s.forgeOn f

/-- The value of a timeout feature in ticks, by its index in Table TIME-6 order (R40, R41). -/
def State.timeout (s : State) (i : Fin 11) : Nat := s.feat.timeouts[i]

/-- The device is in the fault state of R417. -/
def State.faulted (s : State) : Bool := s.bell.faultCause != 0

/-- Take the next draw number of the free values. -/
def State.draw (s : State) : Nat × State := (s.draws, { s with draws := s.draws + 1 })

/-- A channel that serves no access now: it retrains, or is held for repair (R243, R252). -/
def ChanState.busy : ChanState → Bool
  | .retraining | .repair => true
  | _ => false

/-- Read the migration engine's clock, which moves on. -/
def State.stamp (s : State) : Nat × State := (s.migr.clock + 1, { s with migr := { s.migr with clock := s.migr.clock + 1 } })

/-! ### Frames (R226, R244, R257) -/

/-- T1 frames that exist: 256 fewer for each map-out in effect (R244). -/
def State.t1Frames (s : State) : Nat := 131072 - 256 * (s.near.mapouts.filter (!·.2)).length

/-- The lowest number not in an ascending list, from `n` on. -/
def lowestFree : List Nat → Nat → Nat
  | [], n => n
  | x :: xs, n => if x < n then lowestFree xs n else if x = n then lowestFree xs (n + 1) else n

/-- The owner a frame is charged to (R226). -/
def FrameUse.fn? : FrameUse → Option FnId
  | .span f _ | .heatArea f | .shadow f _ | .mouldCopy f _ | .persist f _ | .staging f | .payload f | .compute f | .policy f => some f
  | .model _ _ | .firmware => none

/-- Functions of the same partition as `fn` (R250). -/
def State.samePartition (s : State) (fn g : FnId) : Bool := s.fns[fn].partition == s.fns[g].partition

/-- The function that a model's frames are charged to: its publisher (R397). -/
def State.frameFn (s : State) (u : FrameUse) : Option FnId :=
  match u with
  | .model m _ => (s.models[m]).map (·.publisher)
  | u => u.fn?

def State.charged (s : State) (l : List Frame) (fn : FnId) : Nat :=
  (l.filter fun x => match s.frameFn x.use with
    | some g => s.samePartition fn g
    | none => false).length

/-- Whether the partition limit of `fn` admits `n` more T1 frames (R224, R226). -/
def State.t1LimitOk (s : State) (fn : FnId) (n : Nat) : Bool :=
  let lim := s.near.parts[s.fns[fn].partition].t1Limit
  n = 0 || lim = 0 || s.charged s.t1 fn + n ≤ lim

def State.t2LimitOk (s : State) (fn : FnId) (n : Nat) : Bool :=
  let lim := s.near.parts[s.fns[fn].partition].t2Limit
  lim = 0 || s.charged s.t2 fn + n ≤ lim

def insertFrame (x : Frame) : List Frame → List Frame
  | [] => [x]
  | y :: ys => if x.num < y.num then x :: y :: ys else y :: insertFrame x ys

/-- Take the lowest free T1 frame (R226): the new state, or none without a free frame. -/
def State.allocT1One (s : State) (use : FrameUse) : Option State :=
  let n := lowestFree (s.t1.map (·.num)) 0
  if n < s.t1Frames then some { s with t1 := insertFrame ⟨n, use⟩ s.t1 } else none

/-- Take `n` T1 frames for a function, all or none (R224). -/
def State.allocT1Many (s : State) (use : FrameUse) : Nat → Option State
  | 0 => some s
  | n + 1 => (s.allocT1One use).bind fun s => s.allocT1Many use n

/-- As `allocT1Many`, judged against the function's partition limit too. -/
def State.allocT1 (s : State) (fn : FnId) (use : FrameUse) (n : Nat) : Option State :=
  if s.t1LimitOk fn n then s.allocT1Many use n else none

/-- Device of a T2 frame as a bit of the PLINTH_SCAN_GROUPS mask: 6n + d (R256, R257). -/
def t2Group (f : Nat) : Nat := 6 * (f % 8) + (f / 8) % 6

/-- A T2 frame that may be allocated for a role: its Plinth is on, it is not retired, its group admits the role (R257, R409). -/
def State.t2Ok (s : State) (retrieval : Bool) (f : Nat) : Bool :=
  s.domOn (80 + f % 8) && !s.retired.contains f &&
    (s.feat.scanGroups == 0 || s.feat.scanGroups.getLsbD (t2Group f) == retrieval)

/-- The lowest admissible free T2 frame from `n` on. -/
def State.findT2 (s : State) (retrieval : Bool) (used : List Nat) : Nat → Nat → Option Nat
  | 0, _ => none
  | fuel + 1, n => if s.t2Ok retrieval n && !used.contains n then some n else s.findT2 retrieval used fuel (n + 1)

def State.allocT2One (s : State) (use : FrameUse) (retrieval : Bool) : Option State :=
  (s.findT2 retrieval (s.t2.map (·.num)) 98304 0).map fun n => { s with t2 := insertFrame ⟨n, use⟩ s.t2 }

def State.allocT2 (s : State) (fn : FnId) (use : FrameUse) (retrieval : Bool) : Option State :=
  if s.t2LimitOk fn 1 then s.allocT2One use retrieval else none

/-- Release every frame of a use. -/
def State.freeT1 (s : State) (use : FrameUse) : State := { s with t1 := s.t1.filter (·.use != use) }
def State.freeT2 (s : State) (use : FrameUse) : State :=
  { s with t2 := s.t2.filter (·.use != use) }
/-- Release one frame of a use: the highest. -/
def State.freeT1One (s : State) (use : FrameUse) : State :=
  match (s.t1.filter (·.use == use)).getLast? with
  | some x => { s with t1 := s.t1.filter (· != x) }
  | none => s

def State.freeT1Count (s : State) : Nat := s.t1Frames - s.t1.length
def State.freeT2Count (s : State) : Nat :=
  ((List.range 98304).filter fun f => s.domOn (80 + f % 8) && !s.retired.contains f).length - s.t2.length

/-! ### What the device sends -/

def State.send (s : State) (e : HostEvent) : State := { s with out := s.out ++ [e] }

/-- Raise an MSI-X vector of a function: a masked vector sets its pending bit (R325); none is raised in D3hot (R344). -/
def State.raise (s : State) (fn : FnId) (v : Nat) : State :=
  if h : v < 66 then
    if s.host[fn].d3hot then s
    else if (s.host[fn].msix[v]).getLsbD 96 then
      s.modHost fn fun x => { x with msixPend := x.msixPend ||| (1#66 <<< v) }
    else s.send (.msix fn v)
  else s

/-! ### The event log (R419 to R424) -/

/-- The 32 bytes of a record (Table POWR-4). -/
def EventRec.bytes (e : EventRec) (phase : Bool) : List Byte :=
  toLe 8 e.ticks ++ toLe 2 e.code ++ toLe 1 (b2n phase + 2 * b2n e.first + 4 * b2n e.last)
    ++ toLe 1 (eventSeverity e.code) ++ toLe 1 e.fn ++ [0] ++ toLe 2 e.source ++ toLe 4 e.count ++ fit 12 e.data

/-- General records held (R423). -/
def EventLog.general (l : EventLog) : Nat := (l.held.filter (!·.reserved)).length
def EventLog.reserved (l : EventLog) : Nat := (l.held.filter (·.reserved)).length

/-- Take one event into the buffer (R423, R424). -/
def EventLog.add (l : EventLog) (e : EventRec) : EventLog :=
  if !l.coalescing then
    let held := l.held ++ [e]
    { l with held, coalescing := 512 ≤ held.length }
  else
    let same := fun c : EventCounter => c.code == e.code && c.source == e.source && c.fn == e.fn
    if l.counters.any same then
      { l with counters := updateFirst same (fun c => { c with count := c.count + 1, ticks := e.ticks, data := e.data }) l.counters
               coalescedCount := inc32 l.coalescedCount }
    else if l.general < 768 && l.counters.length + l.reserved < 255 then
      { l with held := l.held ++ [{ e with first := true }]
               counters := l.counters ++ [{ code := e.code, source := e.source, fn := e.fn }] }
    else
      { l with lost := l.lost + 1, lostCount := inc32 l.lostCount
               firstLostTicks := if l.lost = 0 then e.ticks else l.firstLostTicks
               firstLostCode := if l.lost = 0 then e.code else l.firstLostCode }

/-- Coalescing ends once fewer than 256 records are held: the LAST records, then the OVERFLOW record (R423, R424). -/
def EventLog.endCoalescing (l : EventLog) (now : Nat) : EventLog :=
  if l.coalescing && l.held.length < 256 then
    let lasts := (l.counters.filter (0 < ·.count)).map fun c =>
      ({ ticks := c.ticks, code := c.code, last := true, fn := c.fn, source := c.source, count := c.count,
         data := c.data, reserved := true } : EventRec)
    let ovf : List EventRec := if l.lost = 0 then [] else
      [{ ticks := now, code := 0x0A01, count := l.lost, reserved := true,
         data := toLe 8 l.firstLostTicks ++ toLe 2 l.firstLostCode }]
    { l with held := l.held ++ lasts ++ ovf, counters := [], lost := 0, coalescing := false }
  else l

/-- Write held records into the ring while it has room (R421, R422). -/
def State.flushEvents (s : State) : Nat → State
  | 0 => s
  | fuel + 1 =>
    let l := s.events
    if l.enabled && l.written < l.held.length && l.written < 2 ^ l.ringLog2 then
      match l.held[l.written]? with
      | none => s
      | some e =>
        let s := s.send (.write (l.ringAddr.toNat + 32 * l.tail) (e.bytes l.phase))
        let wrap := l.tail + 1 == 2 ^ l.ringLog2
        let first := l.written == 0
        let s := { s with events := { l with
          written := l.written + 1, tail := if wrap then 0 else l.tail + 1, phase := l.phase != wrap
          recent := true, unsignalled := !(first || !l.recent) } }
        let s := if first || !l.recent then s.raise 0 1 else s
        s.flushEvents fuel
    else s

/-- Log an event of Table POWR-5 (R420). -/
def State.log (s : State) (code : Nat) (fn : Option FnId := none) (source : Nat := 0) (data : List Byte := []) : State :=
  let e : EventRec :=
    { ticks := s.time.ticks, code, fn := match fn with | some f => f.val | none => 0xFF, source, data }
  ({ s with events := s.events.add e }).flushEvents 1025

/-! ### Replies (R323, R324, R343) -/

/-- QUEUE of a command's ring. -/
def queueOf : Option RingId → BitVec 8
  | none => 0xFF
  | some r => BitVec.ofNat 8 r.val

/-- Queue a reply on the command's ring. -/
def State.pushReply (s : State) (k : Cmd) (r : Reply) : State :=
  s.modRing k.fn k.ring fun q => { q with done := q.done ++ [r] }

/-- Whether a flight is this command's. -/
def Flight.isOf (op : Op) (k : Cmd) (f : Flight) : Bool := f.op == op && f.cmd == k

/-- A READ_OUT ends: its pins and its registration go (R207, R209). -/
def Fn.unread (k : Cmd) (f : Fn) : Fn :=
  match f.readers.find? (·.cmd == k) with
  | none => f
  | some r => { f with readers := f.readers.filter (·.cmd != k)
                       pages := updateWhere (fun (p : Page) => r.pages.contains p.num) (fun p => { p with pins := p.pins - 1 }) f.pages }
def State.unread (s : State) (op : Op) (k : Cmd) : State := if op = .readOut then s.modFn k.fn (Fn.unread k) else s

/-- A command leaves the commands in flight and its reply waits to be written. The reply of a command that passed its
tag is sealed (R328); a payload goes only with OK or PENDING, or from a run command (R343). -/
def State.answer (s : State) (op : Op) (k : Cmd) (st : Status) (detail : Nat) (payload : List Byte) : State :=
  let pl := if st == .ok || st == .pending || op == .runSteps || op == .runStep then payload else []
  (({ s with flights := s.flights.filter (!·.isOf op k) } : State).unread op k).pushReply k
    { op, seq := k.seq, status := st, sealed_ := k.isSealed, detail, queue := k.queue, session := k.session,
      payload := pl, outAddr := k.outAddr, background := s.flights.any fun f => f.isOf op k && f.background }

/-- The final reply of a command that was fetched: its staging frames are released with it (R326). -/
def State.finish (s : State) (op : Op) (k : Cmd) (st : Status) (detail : Nat := 0) (payload : List Byte := []) : State :=
  let n := if k.isSealed then min 1 k.payload.length * ceilDiv k.payload.length 2097152 else 0
  (iter (fun s : State => s.freeT1One (.payload k.fn)) n s).answer op k st detail payload

/-- A refusal by the checks before the tag, or under R327: the reply is unsealed (R328). -/
def State.refuse (s : State) (op : Op) (k : Cmd) (st : Status) (detail : Nat := 0) : State :=
  s.pushReply k { op, seq := k.seq, status := st, detail, queue := queueOf k.ring, outAddr := k.outAddr }

/-! ### Sessions (R327, R389) -/

def State.session? (s : State) (fn : FnId) (id : BitVec 16) : Option Session :=
  (s.hall.sessions[fn]).find? (·.id == id)

/-- A slot has changed: its copy in the firmware reserve is wrapped anew (R390). -/
def Hallmark.keep (h : Hallmark) : Hallmark := { h with wraps := h.wraps + 1 }

def State.modSession (s : State) (fn : FnId) (id : BitVec 16) (g : Session → Session) : State :=
  s.modHall fun h => { h.keep with sessions := vmod h.sessions fn (updateFirst (·.id == id) g) }

def State.eraseSession (s : State) (fn : FnId) (id : BitVec 16) : State :=
  s.modHall fun h => { h.keep with sessions := vmod h.sessions fn (List.filter (·.id != id)) }

/-- Record the first failure in HALL_ERR (Table TRST-16). -/
def State.hallErr (s : State) (st : Status) (kind check : Nat) : State :=
  if s.hall.errValid then s
  else s.modHall fun h => { h with errValid := true, errStatus := BitVec.ofNat 16 st.code
                                   errKind := BitVec.ofNat 4 kind, errCheck := BitVec.ofNat 8 check }

/-- The certificate records of the manufacturing area; their SEQ is not stated (DESIGN CHOICE, log 2). -/
def Ledger.mfg : List LedgerRec :=
  [{ type := 2, seq := 1, key := 0, payload := Config.certificate 0 },
   { type := 2, seq := 2, key := 1, payload := Config.certificate 1 }]

/-- The live Ledger record of a type and key: the one with the highest SEQ, for rollback the highest VALUE (R382). -/
def Ledger.live (l : Ledger) (type key : Nat) : Option LedgerRec :=
  let c := l.log.filter fun r => r.type == type && r.key == key
  c.foldl (fun b r => match b with
    | none => some r
    | some x => if type = 0x0010 then (if u x.payload 0 4 ≤ u r.payload 0 4 then some r else b)
                else if x.seq ≤ r.seq then some r else b) none

def Ledger.rollback (l : Ledger) (key : Nat) : Nat :=
  match l.live 0x0010 key with
  | some r => u r.payload 0 4
  | none => 0

/-- The module's chip identifier (R359): 0xFFFF without a record. -/
def State.chipId (s : State) : Nat :=
  match s.ledger.live 0x0020 0 with
  | some r => u r.payload 0 2
  | none => 0xFFFF

/-- Highest SEQ in Ledger. -/
def Ledger.topSeq (l : Ledger) : Nat := l.log.foldl (fun m r => max m r.seq) 2

/-- Bytes a record takes (Table TRST-5). -/
def LedgerRec.size (r : LedgerRec) : Nat := 48 + 16 * ceilDiv r.payload.length 16

def Ledger.used (l : Ledger) : Nat := l.log.foldl (fun m r => m + r.size) 0

/-- Whether a record is live. -/
def Ledger.isLive (l : Ledger) (r : LedgerRec) : Bool := l.live r.type r.key == some r

/-- Append a record; a full half is compacted into the other first (R381). -/
def Ledger.write (l : Ledger) (type key : Nat) (payload : List Byte) : Ledger :=
  let r : LedgerRec := { type, key, payload, seq := l.topSeq + 1 }
  let l := if 0x7F8000 < l.used + r.size then
      { l with log := l.log.filter l.isLive, half := !l.half, generation := l.generation + 1 } else l
  { l with log := l.log ++ [r], writes := inc32 l.writes }

/-- A Ledger write that R383 admits unless the supply is low: none when refused. -/
def State.ledgerWrite (s : State) (type key : Nat) (payload : List Byte) : Option State :=
  if s.bell.low then none else some { s with ledger := s.ledger.write type key payload }

def State.ledgerRefused (s : State) : State :=
  { s with ledger := { s.ledger with refused := inc32 s.ledger.refused } }

end Sys2Proof.Machine
end

