-- ==== Sys2Proof/Machine/Channel.lean ====
section
/-! DEFINITION. The channels of T1: the address hash and the map-outs, retrains, and the bandwidth regulators that every
request passes (R235, R242, R244, R249, R251). -/

namespace Sys2Proof.Machine

/-! ### The address hash (R235, R244) -/

def chanStack (c : ChanId) : StackId := Fin.ofNat 16 (c.val / 32)

/-- Channel of unit `i` of a stripe with no channel mapped out (R235). -/
def State.perm (s : State) (stripe i : Nat) : ChanId :=
  let h := (sipHash (s.hall.kHash.getD 0) stripe).toNat
  Fin.ofNat 512 ((bits h 1 8 * 2 + 1) * i + bits h 9 9)

/-- Follow a chain of withdrawn slots off a mapped-out channel: where it ends, and the steps it took (R244). -/
def chase (loc : Nat → ChanId × Nat) (c : ChanId) (base : Nat) : Nat → ChanId × Nat → (ChanId × Nat) × Nat
  | 0, p => (p, 0)
  | fuel + 1, p => if p.1 == c then ((chase loc c base fuel (loc (base + p.2))).1, (chase loc c base fuel (loc (base + p.2))).2 + 1) else (p, 0)

/-- Slot of a unit after the map-outs of a list, the latest first (R244). -/
def State.loc (s : State) : List ChanId → Nat → ChanId × Nat
  | [], x => (s.perm (x / 512) (x % 512), x / 512)
  | c :: rest, x => (chase (s.loc rest) c (2 ^ 30 - (rest.length + 1) * 2 ^ 21) 9 (s.loc rest x)).1

/-- Map-outs in effect, the latest first. -/
def State.mapped (s : State) : List ChanId := ((s.near.mapouts.filter (!·.2)).map (·.1)).reverse

/-- Channel of a 256-byte unit of T1, and the stripe in which it lies there (R235, R244). -/
def State.unitChan (s : State) (unit : Nat) : ChanId := (s.loc s.mapped unit).1
def State.unitStripe (s : State) (unit : Nat) : Nat := (s.loc s.mapped unit).2

/-- Some chain of a map-out that follows the listed ones takes more than 8 steps (R245). -/
def State.longChain (s : State) (maps : List ChanId) (c : ChanId) : Bool :=
  let base := 2 ^ 30 - (maps.length + 1) * 2 ^ 21
  (List.range base).any fun x => 8 < (chase (s.loc maps) c base 9 (s.loc maps x)).2

/-- Some chain of some level of the map-outs takes more than 8 steps. -/
def State.longChains (s : State) : List ChanId → Bool
  | [] => false
  | c :: rest => s.longChain rest c || s.longChains rest

/-- A T1 channel retrains or is held for repair. -/
def State.anyChanBusy (s : State) : Bool := s.near.chans.toList.any (·.state.busy)

/-! ### Retrains (R242) -/

/-- Another channel of the stack retrains or is held for repair. -/
def State.stackBusy (s : State) (k : StackId) : Bool :=
  (List.finRange 512).any fun d => chanStack d == k && (s.near.chans[d]).state.busy

/-- A trigger of Table TIER-6: the channel retrains; while another of its stack does, it waits for that one, and while it does
so itself it retrains once more afterwards. -/
def State.retrain (s : State) (c : ChanId) : State :=
  let k := chanStack c
  if (s.near.chans[c]).state.busy then s.modChan c fun x => { x with again := true }
  else if (s.near.chans[c]).state != .active || (s.near.stks[k]).waiting.contains c then s
  else if s.stackBusy k then s.modStack k fun x => { x with waiting := x.waiting ++ [c] }
  else s.modChan c fun x => { x with state := .retraining, repaired := false }

/-- The next trigger that waits on a stack. -/
def State.nextRetrain (s : State) (k : StackId) : State :=
  match (s.near.stks[k]).waiting with
  | [] => s
  | d :: rest => (s.modStack k fun x => { x with waiting := rest }).retrain d

/-- Requests to units of channels that serve none wait in their reorder queues, 32 in each; the fabric holds those beyond
(R236; DESIGN CHOICE, log 27: several requests to a unit take one place). -/
def State.enqueue (s : State) (units : List Nat) : State :=
  if !s.anyChanBusy then s
  else units.foldl (fun s u => s.modChan (s.unitChan u) fun x =>
    if !x.state.busy || 32 ≤ x.queue.length || x.queue.contains u then x else { x with queue := x.queue ++ [u] }) s

/-- A channel is held no more, and its queue goes on: a trigger that came meanwhile waits for its turn on the stack. -/
def State.channelFree (s : State) (c : ChanId) (g : Chan → Chan) : State :=
  let k := chanStack c
  let s := if (s.near.chans[c]).again then s.modStack k fun x => { x with waiting := x.waiting ++ [c] } else s
  (s.modChan c fun x => g { x with state := .active, again := false, holder := none, queue := [] }).nextRetrain k

/-- A retrain has ended: the channel is trained at its stack's temperature, and the next trigger of the stack has its turn. -/
def State.trained (s : State) (c : ChanId) : State :=
  s.channelFree c fun x => { x with trainTemp := some (s.near.stks[chanStack c]).temp }

/-! ### The regulators (R249, R251) -/

/-- The function's partition is regulated. -/
def State.regulated (s : State) (fn : FnId) : Bool := !(s.near.parts[s.fns[fn].partition]).unlimited

/-- A bucket of the function's partition holds fewer than 256 tokens in a stack that serves one of the units. -/
def State.regWaits (s : State) (fn : FnId) (units : List Nat) : Bool :=
  s.regulated fn && units.any fun u => (s.near.parts[s.fns[fn].partition]).tokens[chanStack (s.unitChan u)] < 4096

/-- Requests to units take 256 tokens each from the function's partition; those beyond what a bucket holds are owed, and later
requests wait for them (DESIGN CHOICE, log 142). -/
def State.charge (s : State) (fn : FnId) (units : List Nat) : State :=
  if !s.regulated fn then s
  else units.foldl (fun s u =>
    let k := chanStack (s.unitChan u)
    s.modNear fun n => { n with parts := vmod n.parts s.fns[fn].partition fun p => { p with tokens := vmod p.tokens k (· - 4096) } }) s

/-- The first access to a channel after its repair retrains it (Table TIER-6). -/
def State.firstAccess (s : State) (units : List Nat) : State :=
  if s.near.chans.toList.any (·.repaired) then
    units.foldl (fun s u => if (s.near.chans[s.unitChan u]).repaired then s.retrain (s.unitChan u) else s) s
  else s

/-- Requests of a function to units of T1. -/
def State.access (s : State) (fn : FnId) (units : List Nat) : State := (s.charge fn units).firstAccess units

/-- Requests that a bucket's debt keeps waiting. -/
def owed (t : Int) : Nat := ((4095 - t) / 4096).toNat

/-- One tick of the regulators: requests that wait are counted, and every bucket fills at RATE / 16 up to BURST / 16. A
gigabyte a second is 10 bytes a tick, so RATE is 5 sixteenths of a token for a stack. -/
def Partition.tick (p : Partition) : Partition :=
  if p.unlimited then p
  else { p with
    waitTicks := (p.waitTicks + (p.tokens.toList.map fun t => if t < 0 then owed t else 0).foldl (· + ·) 0) % 2 ^ 64
    tokens := p.tokens.map fun t => min (t + 5 * p.rate) (1024 * p.burst) }

end Sys2Proof.Machine
end

