-- ==== Sys2Proof/Machine/Range.lean ====
section
/-! DEFINITION. The Range: spans, pages, address resolution, committed and heat reads, claimed writes; the heats'
opening, scrapping, commit and fold (R221 to R229, R286 to R299). -/

namespace Sys2Proof.Machine

/-- Start of every function's billet index (R225). -/
def indexBase : Nat := 0xFF0000000000

def Fn.span? (f : Fn) (addr : Nat) : Option Span := f.spans.find? (·.num == addr / 2097152)

def Fn.page? (f : Fn) (num : Nat) : Option Page := f.pages.find? (·.num == num)

/-- First span of the function that maps a shared model: the ADDRESS of the mapping (R396). -/
def Fn.modelBase (f : Fn) (m : Fin 16) : Nat :=
  2097152 * ((f.spans.filter (·.model == some m)).foldl (fun b x => min b x.num) (2 ^ 27))

/-- Where a byte of a function's Range is held: a shared model's bytes are its publisher's (R396, R397), and so is the
index entry of a shared billet. -/
def State.resolvePlain (s : State) (fn : FnId) (addr : Nat) : FnId × Nat :=
  match (s.fns[fn].span? addr).bind (·.model) with
  | some m =>
    match s.models[m] with
    | some x => (x.publisher, x.base + (addr - s.fns[fn].modelBase m))
    | none => (fn, addr)
  | none => (fn, addr)

def State.resolve (s : State) (fn : FnId) (addr : Nat) : FnId × Nat :=
  if addr < indexBase then s.resolvePlain fn addr
  else
    let a := (addr - indexBase) / 256 * 65536
    let (g, a') := s.resolvePlain fn a
    (g, indexBase + a' / 65536 * 256 + (addr - indexBase) % 256)

/-- Whether an address is mapped (R221). -/
def Fn.mapped (f : Fn) (addr : Nat) : Bool := (f.span? addr).isSome

/-- Whether every address of `[addr, addr + n)` is mapped. -/
def Fn.mappedRange (f : Fn) (addr n : Nat) : Bool :=
  n = 0 || (List.range ((addr + n - 1) / 2097152 - addr / 2097152 + 1)).all fun i =>
    f.mapped ((addr / 2097152 + i) * 2097152)

def Fn.roleOf (f : Fn) (addr : Nat) : Option Role := (f.span? addr).map (·.role)

/-- The page record of an address, with the function that holds it. -/
def State.pageAt (s : State) (fn : FnId) (addr : Nat) : Option (FnId × Page) :=
  let (g, a) := s.resolve fn addr
  ((s.fns[g]).page? (a / 65536)).map fun p => (g, p)

def State.modPage (s : State) (fn : FnId) (num : Nat) (g : Page → Page) : State :=
  s.modFn fn fun f => { f with pages := updateFirst (·.num == num) g f.pages }

/-- Key of a byte in `ram`. -/
def ramKey (fn : FnId) (addr : Nat) : Nat := fn.val * 2 ^ 48 + addr

/-! ### Places in T1 (R226, R229, R233) -/

/-- Die address in T1 of the bytes at a Range address: a staged copy's, or its span's frame's; none where T1 holds no copy. -/
def State.t1Addr (s : State) (fn : FnId) (addr : Nat) : Option Nat :=
  let (g, a) := s.resolve fn addr
  let own := (s.t1.find? fun x => match x.use with
    | .span h n => h == g && n == a / 2097152
    | .model m n => n == a / 2097152 && (match s.models[m] with
        | some x => x.publisher == g
        | none => false)
    | _ => false).map fun x => x.num * 2097152 + a % 2097152
  match (s.fns[g]).page? (a / 65536) with
  | some p => if !p.t1 then none else if p.staged then some (p.place * 65536 + a % 65536) else own
  | none => own

/-- Units of T1 that hold the bytes of `[addr, addr + n)`. -/
def State.t1Units (s : State) (fn : FnId) (addr n : Nat) : List Nat :=
  ((List.range ((addr + n + 255) / 256 - addr / 256)).filterMap fun i => (s.t1Addr fn ((addr / 256 + i) * 256)).map (· / 256))

/-- A unit of the T1 bytes at a Range address lies on a channel that retrains or is held for repair. -/
def State.chanBlocks (s : State) (fn : FnId) (addr n : Nat) : Bool :=
  s.anyChanBusy && (s.t1Units fn addr n).any fun u => (s.near.chans[s.unitChan u]).state.busy

/-- Requests of a function to the T1 bytes at its Range addresses: a bucket keeps them waiting, or they are charged. -/
def State.t1Waits (s : State) (fn : FnId) (addr n : Nat) : Bool := s.regulated fn && s.regWaits fn (s.t1Units fn addr n)
def State.t1Access (s : State) (fn : FnId) (addr n : Nat) : State :=
  if s.regulated fn || s.near.chans.toList.any (·.repaired) then s.access fn (s.t1Units fn addr n) else s

/-- A read of staged copies: the migration engine notes when they were last read (R229). -/
def State.noteRead (s : State) (fn : FnId) (addr n : Nat) : State :=
  (List.range ((addr + n + 65535) / 65536 - addr / 65536)).foldl (fun s i => match s.pageAt fn ((addr / 65536 + i) * 65536) with
    | some (g, p) => if p.staged && p.t1 then (s.stamp.2.modPage g p.num fun q => { q with lastRead := s.stamp.1 }) else s
    | none => s) s

/-- A read of the T1 bytes at a Range address is served. -/
def State.t1Read (s : State) (fn : FnId) (addr n : Nat) : State := (s.t1Access fn addr n).noteRead fn addr n

/-- The unit of T1 that holds the `i`-th record of a function's journal. -/
def State.journalUnits (s : State) (fn : FnId) (i : Nat) : List Nat :=
  (((s.t1.filter (·.use == FrameUse.heatArea fn))[i / 65536]?).map fun x => [x.num * 8192 + i % 65536 / 8]).getD []

/-! ### Structured roles as bytes (Tables KVST-1, KVST-2) -/

def Fn.roleBase (f : Fn) (r : Role) : Option Nat :=
  let l := (f.spans.filter (·.role == r)).map (·.num)
  match l with
  | [] => none
  | x :: xs => some (2097152 * xs.foldl min x)

def Fn.roleBytes (f : Fn) (r : Role) : Nat := 2097152 * (f.spans.filter (·.role == r)).length

/-- KV_PAGES: pages of the pool (R225). -/
def Fn.kvPages (f : Fn) : Nat := f.roleBytes .kvPages / 65536

/-- FREE pages of the pool: those without a header listed. -/
def Fn.freeKv (f : Fn) : Nat := f.kvPages - f.hdrs.length

def KvState.code : KvState → Nat
  | .free => 0 | .open_ => 1 | .sealed_ => 2 | .dropped => 3 | .poisoned => 4 | .limbo => 5

/-- PIN of a KV page (R207): the pins of Armatures, of prefetch entries, and of a migration copy. -/
def Fn.pinOf (f : Fn) (h : KvHdr) : Nat :=
  h.pin + match f.page? ((f.roleBase .kvPages).getD 0 / 65536 + h.num) with
    | some p => p.pins + b2n (p.up || p.down)
    | none => 0

/-- The 64 bytes of a page header (Table KVST-1). -/
def KvHdr.bytes (h : KvHdr) (pin : Nat) : List Byte :=
  toLe 2 (h.state.code + 8 * b2n h.inPrefix) ++ toLe 1 h.filled ++ toLe 1 h.group ++ toLe 2 h.layer ++ toLe 2 0
    ++ toLe 4 (wrapInt 32 h.ref) ++ toLe 4 pin ++ toLe 4 h.seq ++ toLe 4 h.lpage ++ toLe 8 h.epoch ++ toLe 8 h.hash
    ++ List.replicate 24 0

def Fn.hdr? (f : Fn) (n : Nat) : Option KvHdr := f.hdrs.find? (·.num == n)

/-- One byte of the KV_HEADERS run, by offset. -/
def Fn.hdrByte (f : Fn) (off : Nat) : Byte :=
  match f.hdr? (off / 64) with
  | some h => (h.bytes (f.pinOf h)).getD (off % 64) 0
  | none => 0

/-- Bytes of a sequence's page list (R203). -/
def Seq.listBytes (q : Seq) : Nat := q.layers * q.groups * q.maxPages * 4

/-- One byte of the KV_LISTS run, by Range address: entries beyond a sequence's length hold NONE (R203). -/
def Fn.listByte (f : Fn) (addr : Nat) : Byte :=
  match f.seqs.find? fun q => q.listBase ≤ addr && addr < q.listBase + q.listBytes with
  | none => 0
  | some q =>
    let e := (addr - q.listBase) / 4
    let j := e % q.maxPages
    let g := e / q.maxPages % q.groups
    let l := q.layerFirst + e / q.maxPages / q.groups
    let v := match q.entries.find? fun x => x.layer == l && x.group == g && x.lpage == j with
      | some x => x.page
      | none => 0xFFFFFFFF
    BitVec.ofNat 8 (v / 256 ^ ((addr - q.listBase) % 4))

/-- The home content of one byte of a function's Range. The stored layout of prefix nodes is left open; the region reads zero
until a node is stored in it (R221; log 57). -/
def State.homeByte (s : State) (fn : FnId) (addr : Nat) : Byte :=
  let (g, a) := s.resolve fn addr
  let f := s.fns[g]
  match f.roleOf a with
  | some .kvHeaders => f.hdrByte (a - (f.roleBase .kvHeaders).getD 0)
  | some .kvLists => f.listByte a
  | some .kvPrefix => if f.nextNode = 1 then 0 else Config.freeByte (ramKey g a)
  | _ => Memory.get s.ram (ramKey g a)

/-! ### Heats (R286 to R299) -/

def Fn.heat (f : Fn) (slot : Fin 32) : Option Heat := f.slots[slot]

def State.modHeat (s : State) (fn : FnId) (slot : Fin 32) (g : Heat → Heat) : State :=
  s.modFn fn fun f => { f with slots := vmod f.slots slot (Option.map g) }

/-- The heat that claims a granule, with its slot. -/
def Fn.claimer (f : Fn) (granule : Nat) : Option (Fin 32 × Heat) :=
  ((List.finRange 32).filterMap fun i => (f.slots[i]).map fun h => (i, h)).find? fun p => p.2.granules.contains granule

/-- The byte that a reader sees: its own heat's shadow, a committed heat's shadow that is not yet folded, or the home
(R293, R294). Reads of sealed pages never meet a shadow, since a sealed page is never claimed. -/
def State.readByte (s : State) (fn : FnId) (slot : Option (Fin 32)) (addr : Nat) : Byte :=
  match (s.fns[fn]).claimer (addr / 4096) with
  | some (i, h) =>
    if h.state == .committed || some i == slot then
      match Memory.find h.shadow addr with
      | some b => b
      | none => s.homeByte fn addr
    else s.homeByte fn addr
  | none => s.homeByte fn addr

def State.readRange (s : State) (fn : FnId) (slot : Option (Fin 32)) (addr n : Nat) : List Byte :=
  (List.range n).map fun i => s.readByte fn slot (addr + i)

/-- Heats that a function counts (R287): those in slots, and the step heats that have not opened. -/
def Fn.counted (f : Fn) : Nat :=
  ((List.finRange 32).filter fun i => (f.slots[i]).isSome).length
    + (f.moulds.map fun m => match m.run with
        | some r => if r.status.isNone then m.heats.length - r.opened else 0
        | none => 0).foldl (· + ·) 0

def Fn.inDoubt (f : Fn) : Nat :=
  ((List.finRange 32).filter fun i => match f.slots[i] with
    | some h => h.state == .prepared
    | none => false).length

def Fn.freeSlot (f : Fn) : Option (Fin 32) := (List.finRange 32).find? fun i => (f.slots[i]).isNone

/-! ### The journal (R296) -/

/-- The 32 bytes of a journal record (Table HEAT-3). -/
def JRec.bytes (j : JRec) : List Byte :=
  let b := toLe 1 j.kind ++ toLe 1 j.slot.val ++ [0, 0] ++ toLe 4 j.index ++ toLe 8 j.heat ++ fit 12 j.payload
  b ++ toLe 4 (crc32c b)

/-- A record as it is read back: one whose CRC fails to check was never written. -/
def JRec.read (b : List Byte) : Option JRec :=
  if b.length = 32 && u b 28 4 == crc32c (b.take 28) then
    some { kind := u b 0 1, slot := Fin.ofNat 32 (u b 1 1), index := u b 4 4, heat := u b 8 8, payload := slice b 0x10 12 }
  else none

/-- Records of a slot's heat, in order of INDEX. -/
def Fn.records (f : Fn) (slot : Fin 32) (heat : Nat) : List JRec := f.journal.filter fun j => j.slot == slot && j.heat == heat

/-- Write a record of the heat in a slot. -/
def State.record (s : State) (fn : FnId) (slot : Fin 32) (kind : Nat) (payload : List Byte) : State :=
  (s.access fn (s.journalUnits fn (s.fns[fn]).journal.length)).modFn fn fun f => match f.heat slot with
    | none => f
    | some h => { f with journal := f.journal ++
        [{ kind, slot, index := (f.records slot h.number).length, heat := h.number, payload := fit 12 payload }] }

/-- Write the FOLDED or SCRAP record of the heat in a slot: the slot's other records are reclaimed. -/
def State.lastRecord (s : State) (fn : FnId) (slot : Fin 32) (kind : Nat) (payload : List Byte) : State :=
  (s.access fn (s.journalUnits fn (s.fns[fn]).journal.length)).modFn fn fun f => match f.heat slot with
    | none => f
    | some h => { f with journal := f.journal.filter (·.slot != slot) ++
        [{ kind, slot, index := (f.records slot h.number).length, heat := h.number, payload := fit 12 payload }] }

/-- The state of a slot's heat as its journal tells it (R302, R305): none where the heat was open, scrapped or folded. -/
def journalState (l : List (List Byte)) : Option HeatState :=
  let kinds := (l.filterMap JRec.read).map (·.kind)
  if kinds.contains 0x0D || kinds.contains 0x0B then none
  else if kinds.contains 0x0A then some .committed
  else if kinds.contains 0x09 then some .prepared
  else none

/-- ORIGIN, HEAT_BOUNDS index and mould digest of the OPEN record (Table HEAT-4). -/
def Origin.open_ (o : Origin) (f : Fn) (maxActions stepIndex : Nat) : List Byte :=
  match o with
  | .step id b => [1] ++ toLe 1 b ++ toLe 2 maxActions ++ toLe 4 stepIndex
      ++ (digestBytes (((f.moulds.find? (·.id == id)).map (·.digest)).getD 0)).take 4
  | .ring _ => [2, 0] ++ toLe 2 maxActions
  | .single => [3, 0] ++ toLe 2 maxActions

/-- Open a heat in the lowest free slot (R286). -/
def State.openHeat (s : State) (fn : FnId) (origin : Origin) (maxActions : Nat) (stepIndex : Nat := 0) :
    Option (Fin 32 × State) :=
  match (s.fns[fn]).freeSlot with
  | none => none
  | some i => some (i, (s.modFn fn fun f =>
      { f with nextHeat := f.nextHeat + 1
               journal := f.journal.filter (·.slot != i)
               slots := f.slots.set i (some { number := f.nextHeat, origin, maxActions, stepIndex }) }).record fn i 1
      (origin.open_ (s.fns[fn]) maxActions stepIndex))

/-- Count actions of a heat (Table HEAT-1): NO_SPACE beyond its MAX_ACTIONS (R68, R290). -/
def State.act (s : State) (fn : FnId) (slot : Fin 32) (n : Nat) : Except Status State :=
  match (s.fns[fn]).heat slot with
  | none => .error .noSpace
  | some h =>
    if h.maxActions < h.actions + n then .error .noSpace
    else .ok (s.modHeat fn slot fun h => { h with actions := h.actions + n })

/-- REF deltas of a page that committed heats have not yet folded, and its REF as the heat unit judges it (R295). -/
def Fn.unfolded (f : Fn) (n : Nat) : Int :=
  ((List.finRange 32).map fun i => match f.slots[i] with
    | some h => (h.deltas.filter (·.1 == n)).foldl (fun d x => d + x.2) 0
    | none => 0).foldl (· + ·) 0
def Fn.refOf (f : Fn) (h : KvHdr) : Int := h.ref + f.unfolded h.num

/-- REF deltas reach the page headers. -/
def Fn.addRefs (f : Fn) (ds : List (Nat × Int)) : Fn :=
  if ds.isEmpty then f
  else { f with hdrs := f.hdrs.map fun (h : KvHdr) => { h with ref := (ds.filter (·.1 == h.num)).foldl (fun d x => d + x.2) h.ref } }

/-- Die address of the `k`-th shadow granule of a heat, divided by 4,096, where a frame holds it. -/
def State.shadowAt (s : State) (fn : FnId) (slot : Fin 32) (k : Nat) : Option Nat :=
  ((s.t1.filter (·.use == FrameUse.shadow fn slot.val))[k / 512]?).map fun x => x.num * 512 + k % 512

/-- Units of a heat's shadow that hold `n` bytes of a claimed granule. -/
def State.shadowUnits (s : State) (fn : FnId) (slot : Fin 32) (h : Heat) (addr n : Nat) : List Nat :=
  match (h.granules.findIdx? (· == addr / 4096)).bind (s.shadowAt fn slot) with
  | some d => (List.range ((addr % 4096 + n + 255) / 256 - addr % 4096 / 256)).map (16 * d + addr % 4096 / 256 + ·)
  | none => []

/-- The requests of a fold: every written unit of the shadows is read and written home (R251). -/
def State.foldUnits (s : State) (fn : FnId) (slot : Fin 32) (h : Heat) : List Nat :=
  (((h.shadow.map (·.1 / 256)).eraseDups).map fun u => s.shadowUnits fn slot h (256 * u) 256 ++ s.t1Units fn (256 * u) 256).flatten

/-- Fold a committed heat: shadows go home, REF deltas reach the headers, the FOLDED record is written, the slot is free
(R295). -/
def State.foldHeat (s : State) (fn : FnId) (slot : Fin 32) : State :=
  match (s.fns[fn]).heat slot with
  | some h =>
    if h.state == .committed then
      let s := if s.regulated fn then s.access fn (s.foldUnits fn slot h) else s
      let s := { s with ram := h.shadow.foldl (fun (m : Memory) (c : Host.Cell) => Memory.put m (ramKey fn c.1) c.2) s.ram }
      ((s.lastRecord fn slot 0x0D []).modFn fn fun f =>
        ({ f with slots := f.slots.set slot none } : Fn).addRefs h.deltas).freeT1 (.shadow fn slot.val)
    else s
  | none => s

/-- A committed heat that still holds a granule is folded first, which is the wait of R292. -/
def State.foldClaimer (s : State) (fn : FnId) (slot : Fin 32) (g : Nat) : State :=
  match (s.fns[fn]).claimer g with
  | some ((i, h) : Fin 32 × Heat) => if h.state == HeatState.committed && i != slot then s.foldHeat fn i else s
  | none => s

/-- Claim a granule for a heat (R291, R292): its place in a shadow frame and its SHADOW record. A command that commits as a
heat of its own has reserved no frame, and takes one here. A granule of another heat in progress gives BUSY. -/
def State.claim (s : State) (fn : FnId) (slot : Fin 32) (g : Nat) : Except Status State :=
  match (s.fns[fn]).claimer g, (s.fns[fn]).heat slot with
  | some (i, _), _ => if i == slot then .ok s else .error .busy
  | none, none => .error .noSpace
  | none, some h =>
    let k := h.granules.length
    match (if h.origin != .single || (s.shadowAt fn slot k).isSome then some s else s.allocT1 fn (.shadow fn slot.val) 1) with
    | none => .error .noSpace
    | some s => .ok ((s.modHeat fn slot fun h => { h with granules := h.granules ++ [g] }).record fn slot 2
        (toLe 5 g ++ [0, 0, 0] ++ toLe 4 ((s.shadowAt fn slot k).getD 0)))

/-- Claim one granule for a heat, which counts one action, and write bytes that lie within it (R291, R292). -/
def State.claimGranule (s : State) (fn : FnId) (slot : Fin 32) (addr : Nat) (bs : List Byte) : Except Status State :=
  let g := addr / 4096
  let s := s.foldClaimer fn slot g
  match (if ((s.fns[fn]).claimer g).isNone then s.act fn slot 1 else .ok s) with
  | .error e => .error e
  | .ok s => match s.claim fn slot g with
    | .error e => .error e
    | .ok s => .ok ((s.access fn (match (s.fns[fn]).heat slot with
        | some h => s.shadowUnits fn slot h addr bs.length
        | none => [])).modHeat fn slot fun h => { h with shadow := Memory.writeAll h.shadow addr bs })

/-- The pieces of a byte string by granule. -/
def granulePieces (addr : Nat) (bs : List Byte) : Nat → List (Nat × List Byte)
  | 0 => []
  | fuel + 1 =>
    if bs.isEmpty then []
    else
      let n := 4096 - addr % 4096
      (addr, bs.take n) :: granulePieces (addr + n) (bs.drop n) fuel

/-- Whether the heat itself has sealed the page (R293), and whether it allocated it (R291). -/
def Heat.seals (h : Heat) (page : Nat) : Bool := h.edits.any fun e => match e with
  | .seal_ p => p == page
  | _ => false
def Heat.freshPage (h : Heat) (page : Nat) : Bool := h.edits.any fun e => match e with
  | .fresh p _ _ _ _ => p == page
  | _ => false

/-- Number of the KV page at an address of the KV_PAGES run. -/
def Fn.kvPageOf (f : Fn) (addr : Nat) : Option Nat :=
  if f.roleOf addr == some .kvPages then (f.roleBase .kvPages).map fun b => (addr - b) / 65536 else none

/-- Whether the heat in a slot allocated the KV page at an address (R291). -/
def Fn.freshAt (f : Fn) (slot : Fin 32) (addr : Nat) : Bool :=
  match f.kvPageOf addr, f.heat slot with
  | some n, some h => h.freshPage n
  | _, _ => false

/-- Address of a poisoned line of a page: 256 stands for the line of its billet's header. -/
def Page.lineAddr (p : Page) (l : Nat) : Nat :=
  if l = 256 then indexBase + p.num * 256 else p.num * 65536 + 256 * l

/-- Clear poisoned lines of a page that whole-line writes cover; a page whose last poisoned line is cleared so is left
OPEN (Table TIER-1). -/
def clearBad (addr n : Nat) (p : Page) : Page :=
  if p.bad.isEmpty then p
  else
    let bad := p.bad.filter fun l => !(addr ≤ p.lineAddr l && p.lineAddr l + 256 ≤ addr + n)
    if bad.length = p.bad.length then p
    else if bad.isEmpty then { p with bad, sealed_ := false, t1 := true, t2 := false, up := false, down := false, staged := false, dropT1 := false }
    else { p with bad }

/-- A write of a heat to `[addr, addr + n)` clears a poisoned line once the heat commits. -/
def Fn.meetsBad (f : Fn) (addr n : Nat) : Bool := f.pages.any fun p => (clearBad addr n p) != p

/-! ### Shared models and the frames of spans (R226, R229, R397) -/

/-- The shared model that an address of a function's Range belongs to, with the offset in it. -/
def State.modelOf (s : State) (g : FnId) (a : Nat) : Option (Fin 16 × Nat) :=
  (List.finRange 16).findSome? fun m => match s.models[m] with
    | some x => if x.publisher == g && x.base ≤ a && a < x.base + x.spans * 2097152 then some (m, a - x.base) else none
    | none => none

/-- The use under which a span holds its frames. -/
def State.spanUse (s : State) (g : FnId) (num : Nat) : FrameUse :=
  match s.modelOf g (num * 2097152) with
  | some (m, _) => .model m num
  | none => .span g num

/-- Places of staging frames that a copy of the function occupies. -/
def State.stagedPlaces (s : State) (g : FnId) : List Nat := ((s.fns[g]).pages.filter fun p => p.staged && p.t1).map (·.place)

/-- Staging frames that hold no copy are released (R229; DESIGN CHOICE, log 50). -/
def State.fixStaging (s : State) (g : FnId) : State :=
  let held := (s.stagedPlaces g).map (· / 32)
  { s with t1 := s.t1.filter fun (x : Frame) => x.use != .staging g || held.contains x.num }

/-- Release the frames that the pages of a span no longer need: a T1 frame whose pages all have home T2 and are sealed
becomes a staging frame of the copies it holds, and a T2 frame without homes and copies goes (R226, R228, R232). -/
def State.fixFrames (s : State) (g : FnId) (num : Nat) : State :=
  let mine := fun (p : Page) => p.num / 32 == num
  let ps := (s.fns[g]).pages.filter mine
  let use := s.spanUse g num
  let s := if ps.all fun p => !p.homeT2 && !p.t2 then s.freeT2 use else s
  match s.t1.find? (·.use == use) with
  | none => s
  | some fr =>
    if ps.all fun p => p.homeT2 && p.sealed_ && p.t2 && p.bad.isEmpty && !p.down && (!p.dropT1 || p.pins == 0) then
      let move := fun (p : Page) => ({ p with t1 := p.t1 && !p.dropT1, staged := p.t1 && !p.dropT1, dropT1 := false
                                              place := fr.num * 32 + p.num % 32 } : Page)
      let restage := fun (x : Frame) => if x.use == use then ({ x with use := .staging g } : Frame) else x
      (({ s with t1 := s.t1.map restage } : State).modFn g fun f => { f with pages := updateWhere mine move f.pages }).fixStaging g
    else s

/-- A span takes a T1 frame where it holds none; the staged copies of its pages then lie in it (R226). -/
def State.takeT1 (s : State) (g : FnId) (num : Nat) : Option State :=
  let use := s.spanUse g num
  if s.t1.any (·.use == use) then some s
  else (s.allocT1 g use 1).map fun s => (s.modFn g fun f =>
    { f with pages := updateWhere (fun (p : Page) => p.num / 32 == num) (fun p => { p with staged := false }) f.pages }).fixStaging g

/-- Spans with a page of which a write to `[addr, addr + n)` clears a poisoned line. -/
def Fn.badSpans (f : Fn) (addr n : Nat) : List Nat :=
  ((f.pages.filter fun p => (clearBad addr n p) != p).map (·.num / 32)).eraseDups

/-- A write of a heat that covers poisoned lines whole: they are clear once the heat commits. Its pages may be OPEN then, and
their spans hold T1 frames from now on (R223, R226). -/
def State.rewrites (s : State) (fn : FnId) (slot : Fin 32) (addr n : Nat) : Except Status State :=
  if !(s.fns[fn]).meetsBad addr n then .ok s
  else match ((s.fns[fn]).badSpans addr n).foldl (fun (o : Option State) k => o.bind fun s => s.takeT1 fn k) (some s) with
    | none => .error .noSpace
    | some s => .ok (s.modHeat fn slot fun h => { h with edits := h.edits ++ [.rewrite addr n] })

/-- A heat's write to the Range (R223, R291 to R293): only to mapped OPEN pages, in place to pages it allocated. -/
def State.heatWrite (s : State) (fn : FnId) (slot : Fin 32) (addr : Nat) (bs : List Byte) : Except Status State :=
  if bs.isEmpty then .ok s
  else if !(s.fns[fn]).mappedRange addr bs.length then .error .badParam
  else
    let pages := (List.range ((addr + bs.length - 1) / 65536 - addr / 65536 + 1)).map (addr / 65536 + ·)
    let h? := (s.fns[fn]).heat slot
    match h? with
    | none => .error .notPermitted
    | some h =>
      let header := indexBase ≤ addr && (List.range ((addr + bs.length - 1) / 256 - addr / 256 + 1)).any fun i =>
        match s.pageAt fn ((addr - indexBase) / 256 * 65536 + 65536 * i) with
        | some (_, x) => h.seals x.num || (x.sealed_ && x.bad.isEmpty)
        | none => false
      let bad := header || pages.any fun p =>
        h.seals p || (match s.pageAt fn (p * 65536) with
          | some (g, x) => (x.sealed_ && x.bad.isEmpty) || g != fn
          | none => true)
      if bad then .error .notPermitted
      else
        match foldE (fun (s : State) (p : Nat × List Byte) =>
            if (s.fns[fn]).freshAt slot p.1 then
              let s := s.t1Access fn p.1 p.2.length
              .ok { s with ram := Memory.write s.ram (ramKey fn p.1) p.2 }
            else s.claimGranule fn slot p.1 p.2) (granulePieces addr bs (bs.length / 4096 + 2)) s with
        | .error e => .error e
        | .ok s => s.rewrites fn slot addr bs.length

/-- The function as a heat sees it: the heat's own edits applied (R289). -/
def Fn.view (f : Fn) (slot : Fin 32) (apply : Fn → Edit → Fn) : Fn :=
  match f.heat slot with
  | some h => h.edits.foldl apply f
  | none => f

/-- The entries of a logical page of a sequence. -/
def Seq.block (q : Seq) (j : Nat) : List ListEntry := q.entries.filter (·.lpage == j)

/-- A drop candidate (R215). -/
def Fn.candidate (f : Fn) (q : Seq) (j : Nat) : Bool :=
  let b := q.block j
  1 ≤ q.priority && b.length == q.layers * q.groups && b.all fun e => !e.dropped && match f.hdr? e.page with
    | some h => h.filled == 64 && (h.state == KvState.open_ || h.state == KvState.sealed_) && f.refOf h == 1 && f.pinOf h == 0 && !h.lost
    | none => false

/-- Drop a logical page (R215, R217): its pages are marked, its entries stay marked. -/
def Fn.dropBlock (f : Fn) (seq j : Nat) : Fn :=
  match f.seqs.find? (·.handle == seq) with
  | none => f
  | some q =>
    if !f.candidate q j then f
    else
      let pages := (q.block j).map (·.page)
      let mark := fun (x : Seq) => ({ x with entries := updateWhere (fun (e : ListEntry) => e.lpage == j) (fun e => { e with dropped := true }) x.entries } : Seq)
      { f with
        hdrs := updateWhere (fun (h : KvHdr) => pages.contains h.num) (fun h => { h with state := .dropped }) f.hdrs
        seqs := updateFirst (fun (x : Seq) => x.handle == seq) mark f.seqs }

/-- The changes of REF that an edit of a committing heat brings (R206). -/
def Fn.refDeltas (f : Fn) : Edit → List (Nat × Int)
  | .fresh p _ _ _ _ => [(p, 1)]
  | .delta p d => [(p, d)]
  | .drop q j => match f.seqs.find? (·.handle == q) with
    | some x => if f.candidate x j then (x.block j).map fun e => (e.page, -1) else []
    | none => []
  | _ => []

/-- What one edit of a committing heat changes besides REF. -/
def Fn.applyShape (f : Fn) (e : Edit) : Fn :=
  let modHdr := fun n g => { f with hdrs := updateFirst (fun h : KvHdr => h.num == n) g f.hdrs }
  let modSeq := fun n g => { f with seqs := updateFirst (fun q : Seq => q.handle == n) g f.seqs }
  match e with
  | .seal_ p => { f with pages := updateFirst (·.num == p) (fun x => { x with sealed_ := true, down := x.homeT2 && !x.t2 }) f.pages }
  | .fresh _ _ _ _ _ | .delta _ _ => f
  | .entry q l g j pg => modSeq q fun x =>
      let rest := x.entries.filter fun y => !(y.layer == l && y.group == g && y.lpage == j)
      { x with entries := match pg with
          | some p => rest ++ [{ layer := l, group := g, lpage := j, page := p }]
          | none => rest }
  | .filled p n => modHdr p fun h => { h with filled := n }
  | .length q n => modSeq q fun x => { x with length := n }
  | .kvState p st => modHdr p fun h => { h with state := st }
  | .publish p hash => modHdr p fun h => { h with inPrefix := true, hash := hash }
  | .drop q j => f.dropBlock q j
  | .policy q p o => modSeq q fun x => { x with priority := p, order := o }
  | .newSeq q => { f with seqs := f.seqs ++ [q] }
  | .freeSeq q => { f with seqs := f.seqs.filter (·.handle != q) }
  | .newNode n => { f with nodes := f.nodes ++ [n] }
  | .dropNode id =>
    let nodes := f.nodes.filter (·.id != id)
    let held := fun (h : KvHdr) => nodes.any fun n => n.pages.any (·.page == h.num)
    { f with nodes, hdrs := updateWhere (fun (h : KvHdr) => h.inPrefix && !held h) (fun h => { h with inPrefix := false, hash := 0 }) f.hdrs }
  | .rewrite a n => { f with pages := f.pages.map (clearBad a n) }

/-- Page references moved by a heat's edits: the gate's REF follows the step's own (R208). -/
def moveRefs (l : List (Nat × Int)) (edits : List Edit) : List (Nat × Int) :=
  edits.foldl (fun l e =>
    let add := fun (p : Nat) (d : Int) => if l.any (·.1 == p) then updateFirst (fun x : Nat × Int => x.1 == p) (fun x => (x.1, x.2 + d)) l else l ++ [(p, d)]
    match e with
    | .delta p d => add p d
    | .fresh p _ _ _ _ => add p 1
    | _ => l) l

/-- One edit with its changes of REF, as the heat's own agents see it (R289). -/
def Fn.applyEdit (f : Fn) (e : Edit) : Fn := (f.applyShape e).addRefs (f.refDeltas e)

/-- One edit at the commit of the heat in a slot: its changes of REF wait for the fold (R295). -/
def Fn.commitEdit (slot : Fin 32) (f : Fn) (e : Edit) : Fn :=
  let ds := f.refDeltas e
  let f := f.applyShape e
  { f with slots := vmod f.slots slot (Option.map fun h => { h with deltas := h.deltas ++ ds }) }

/-- Pages whose REF and PIN are both zero enter LIMBO, stamped with the epoch (R209). -/
def Fn.limbo (f : Fn) : Fn :=
  { f with hdrs := f.hdrs.map fun (h : KvHdr) =>
      if f.refOf h == 0 && f.pinOf h == 0 && (h.state == .open_ || h.state == .sealed_ || h.state == .dropped || h.state == .poisoned)
          && !h.lost && !((List.finRange 32).any fun i => match f.slots[i] with
            | some x => x.state != .committed && x.freshPage h.num
            | none => false)
      then { h with state := .limbo, epoch := f.epoch, inPrefix := false } else h }

/-! ### Pins, manifests, commits (R207, R294, R397) -/

/-- Release one pin of each listed page. -/
def State.unpin (s : State) (l : List (FnId × Nat)) : State :=
  l.foldl (fun s x => ((s.modPage x.1 x.2 fun p => { p with pins := p.pins - 1 }).fixFrames x.1 (x.2 / 32)).modFn x.1 Fn.limbo) s

/-- The head of a ready model's manifest, at its model offset 0 (R397, R398). -/
def State.manifest (s : State) (x : Model) (n : Nat) : List Byte := Memory.read s.ram (ramKey x.publisher x.base) n

/-- A model whose last page has been sealed is ready (R397). -/
def State.readyModels (s : State) (fn : FnId) : State :=
  let full := fun (x : Model) => x.publisher == fn && !x.ready &&
    ((s.fns[fn]).pages.filter fun p => p.sealed_ && x.base / 65536 ≤ p.num && p.num < x.base / 65536 + 32 * x.spans).length == 32 * x.spans
  { s with models := s.models.map fun (o : Option Model) => o.map fun x => if full x then { x with ready := true } else x }

/-- A dirty line is written into its heat's shadow (R91). -/
def State.spill (s : State) (fn : FnId) (slot : Fin 32) (l : CacheLine) : State :=
  (s.access fn (match (s.fns[fn]).heat slot with
    | some h => s.shadowUnits fn slot h (l.line * 512) 512
    | none => [])).modHeat fn slot fun h => { h with shadow := Memory.writeAll h.shadow (l.line * 512) l.bytes }

/-- Write back one line into its heat's shadow and let it go (R91, R103). -/
def State.flushLine (s : State) (l : CacheLine) : State :=
  let s := match l.heat, l.dirty with
    | some slot, true => s.spill l.fn slot l
    | _, _ => s
  { s with cache := s.cache.filter fun x => !(x.fn == l.fn && x.plinth == l.plinth && x.line == l.line) }

/-- Every dirty line is written back, and the whole cache is invalidated (R89). -/
def State.dropCache (s : State) : State := { s.cache.foldl State.flushLine s with cache := [] }

/-- Cached lines that a heat dirtied go to its shadow at the commit (R91). -/
def State.spillLines (s : State) (fn : FnId) (slot : Fin 32) : State :=
  let mine := s.cache.filter fun l => l.fn == fn && l.heat == some slot && l.dirty && l.plinth.isNone
  let s := mine.foldl (fun s l => s.spill fn slot l) s
  { s with cache := updateWhere (fun l => l.fn == fn && l.heat == some slot) (fun l => { l with dirty := false, heat := none }) s.cache }

/-- Transfers of a function's pages that have no turn yet get one, in page order (R231); `mover` is the function charged for
them, where it is another's (R251). -/
def State.queueMoves (s : State) (g : FnId) (mover : Option FnId) : State :=
  ((s.fns[g]).pages.filter fun p => (p.up || p.down) && p.ticket = 0).foldl (fun s p =>
    s.stamp.2.modPage g p.num fun q => { q with ticket := s.stamp.1, mover := q.mover.orElse fun _ => mover }) s

/-- The COMMIT record, the commit point of a heat and what it makes current (R294, R298 events 2 to 5). -/
def State.commitHeat (s : State) (fn : FnId) (slot : Fin 32) : State :=
  match (s.fns[fn]).heat slot with
  | none => s
  | some h =>
    let s := s.spillLines fn slot
    let spans := ((h.edits.map fun e => match e with
      | .rewrite a n => (s.fns[fn]).badSpans a n
      | _ => []).flatten).eraseDups
    let s := (s.record fn slot 0x0A (toLe 8 ((s.fns[fn]).commitSeq + 1) ++ toLe 4 h.actions)).modFn fn fun f =>
      let f := { f with commitSeq := f.commitSeq + 1, commits := (f.commits + 1) % 2 ^ 64
                        slots := vmod f.slots slot (Option.map fun h =>
                          { h with state := .committed, commitSeq := f.commitSeq + 1, reply := none }) }
      (h.edits.foldl (Fn.commitEdit slot) f).limbo
    ((spans.foldl (fun s k => s.fixFrames fn k) s).readyModels fn).queueMoves fn none

/-- Scrapping a heat with the status that ended it (R299): the SCRAP record is written, shadows and lines are dropped, fresh
pages return to FREE, held sends are discarded by the caller, the slot is free. -/
def State.scrapHeat (s : State) (fn : FnId) (slot : Fin 32) (st : Status) : State :=
  match (s.fns[fn]).heat slot with
  | none => s
  | some h =>
    let s := { s with cache := s.cache.filter fun l => !(l.fn == fn && l.heat == some slot) }
    ((s.lastRecord fn slot 0x0B (toLe 2 st.code)).modFn fn fun f =>
      { f with slots := f.slots.set slot none, scraps := inc32 f.scraps
               hdrs := f.hdrs.filter fun x => !(h.freshPage x.num) }).freeT1 (.shadow fn slot.val)

/-- The journal record of an edit, where its kind has one (Table HEAT-4). -/
def Edit.record : Edit → Option (Nat × List Byte)
  | .fresh p _ _ _ _ => some (3, toLe 4 p)
  | .delta p d => some (4, toLe 4 p ++ toLe 4 (wrapInt 32 d))
  | .seal_ p => some (5, toLe 4 p ++ toLe 4 1)
  | .length q n => some (6, toLe 4 q ++ toLe 4 n)
  | _ => none

/-- Add an edit to a heat. -/
def State.edit (s : State) (fn : FnId) (slot : Fin 32) (e : Edit) : State :=
  let s := s.modHeat fn slot fun h => { h with edits := h.edits ++ [e] }
  match e.record with
  | some r => s.record fn slot r.1 r.2
  | none => s

/-! ### Index spans (R225) -/

/-- Roles whose sealed pages may have a T2 copy (R223). -/
def Role.far (r : Role) : Bool := r == .billets || r == .kvPages || r == .retrieval

def Role.isKv (r : Role) : Bool := r == .kvPages || r == .kvHeaders || r == .kvLists || r == .kvPrefix

def blankPages (num : Nat) (homeT2 : Bool) : List Page :=
  (List.range 32).map fun i => { num := 32 * num + i, homeT2 }

/-- Map or unmap index span `k` of a function as the spans it serves need it. Only spans whose pages are the function's own
take a frame; none where the frame fails (R225, R226, R397). -/
def State.fixIndex (s : State) (fn : FnId) (k : Nat) : Option State :=
  let f := s.fns[fn]
  let num := indexBase / 2097152 + k
  let serves := fun (x : Span) => x.role.far && x.num / 256 == k
  let own := f.spans.any fun x => serves x && (match x.model with
    | some m => match s.models[m] with
      | some y => y.publisher == fn
      | none => false
    | none => true)
  let framed := s.t1.any (·.use == FrameUse.span fn num)
  let s := if f.spans.any serves then
      (if f.spans.any (·.num == num) then s
       else s.modFn fn fun f => { f with spans := f.spans ++ [{ num, role := .index }] })
    else s.modFn fn fun f => { f with spans := f.spans.filter (·.num != num) }
  if own && !framed then
    (s.allocT1 fn (.span fn num) 1).map fun s => s.modFn fn fun f => { f with pages := f.pages ++ blankPages num false }
  else if !own && framed then
    some ((({ s with ram := Memory.clear s.ram (ramKey fn (num * 2097152)) 2097152 } : State).freeT1 (.span fn num)).modFn fn fun f =>
      { f with pages := f.pages.filter fun p => p.num / 32 != num })
  else some s

/-- The index spans that a run of spans concerns. -/
def State.fixIndexes (s : State) (fn : FnId) (first n : Nat) : Option State :=
  (List.range ((first + n - 1) / 256 - first / 256 + 1)).foldl (fun (o : Option State) i => o.bind fun s => s.fixIndex fn (first / 256 + i)) (some s)

/-! ### Commands that commit as one heat (R224, R289) -/

/-- Kinds that may join a command heat (Table HEAT-2). -/
def joinsHeat : Op → Bool
  | .loadBillets | .sealPages | .readOut | .kvAllocSeq | .kvFork | .kvFreeSeq | .prefixLookup | .prefixPublish | .kvDrop => true
  | _ => false

/-- The open command heat of the ring, where the command joins it (R289). -/
def joinedHeat (op : Op) (k : Cmd) (s : State) : Option (Fin 32) :=
  if joinsHeat op then
    match k.ring with
    | some r => ((s.fns[k.fn].cmdHeats).find? (·.ring == r)).bind (·.slot)
    | none => none
  else none

/-- The commit phase of a command's heat begins (R298 event 1). With every T1 channel at work its writes are answered at
once, and the heat commits and the command replies. While some channel retrains their responses may be outstanding: the heat
stays in its commit phase until LOCAL_COMMIT or its timeout (DESIGN CHOICE, log 161). -/
def State.commitCmd (s : State) (op : Op) (k : Cmd) (slot : Fin 32) (d : Nat) (pl : List Byte) : State :=
  if s.anyChanBusy then s.modHeat k.fn slot fun h => { h with committing := true, reply := some (op, k, d, pl) }
  else (s.commitHeat k.fn slot).finish op k .ok d pl

/-- A command's heat is in its commit phase. -/
def Fn.commits? (f : Fn) (op : Op) (k : Cmd) : Bool := (List.finRange 32).any fun i => match f.slots[i] with
  | some h => match h.reply with
    | some r => r.1 == op && r.2.1 == k
    | none => false
  | none => false

/-- Run a command's effect inside the ring's open command heat, where it replies PENDING, or inside a heat of its own
that commits with it (R286, R289, R341). A failure leaves nothing behind; it says whether it met a granule that another heat claims,
which scraps the command heat (R292). -/
def inHeat (op : Op) (k : Cmd) (s : State)
    (body : Fin 32 → State → Except (Status × Bool) (State × Nat × List Byte)) : State :=
  match joinedHeat op k s with
  | some slot =>
    match body slot s with
    | .ok (s', d, pl) => s'.finish op k .pending d pl
    | .error (st, claimed) =>
      let s := if claimed then (s.scrapHeat k.fn slot .busy).modFn k.fn fun f =>
          { f with cmdHeats := updateFirst (fun c : CmdHeat => c.slot == some slot)
                     (fun c => { c with slot := none, scrapped := some .busy }) f.cmdHeats } else s
      s.finish op k st
  | none =>
    if 32 ≤ (s.fns[k.fn]).counted || (s.fns[k.fn]).commits? op k then s
    else match s.openHeat k.fn .single 4096 with
      | none => s
      | some (slot, s1) =>
        match body slot s1 with
        | .ok (s', d, pl) => s'.commitCmd op k slot d pl
        | .error (st, _) => (s1.scrapHeat k.fn slot st).finish op k st

end Sys2Proof.Machine
end

