-- ==== Sys2Proof/Machine/Hearth.lean ====
section
/-! DEFINITION. The Hearth: slots, rows, tags, bank ownership, and what the end of a Tongs descriptor does (R76 to R86,
R101, R104). -/

namespace Sys2Proof.Machine

/-! ### Slots and rows (R76, R77, Table MOLD-5) -/

/-- Rows of a slot. -/
def SlotDecl.rows (d : SlotDecl) : Nat := d.bankCount * d.rowCount

/-- Bank and row of row index `i` of a slot. -/
def SlotDecl.place (d : SlotDecl) (i : Nat) : Nat × Nat := (d.bankFirst + i % d.bankCount, d.rowFirst + i / d.bankCount)

def MForge.slot? (mf : MForge) (n : Nat) : Option SlotDecl := mf.slots.find? (·.slot == n)

/-- Bank and row of row `i` of a slot, or of untagged row `i` with slot 0xFF (Table CHSL-1). -/
def MForge.place (mf : MForge) (slot i : Nat) : Nat × Nat :=
  if slot = 0xFF then (i % 32, i / 32)
  else match mf.slot? slot with
    | some d => d.place i
    | none => (0, 0)

/-- Rows that a slot number offers. -/
def MForge.room (mf : MForge) (slot : Nat) : Nat :=
  if slot = 0xFF then 24576 else match mf.slot? slot with
    | some d => d.rows
    | none => 0

/-- Rows `[first, first + n)` lie in the slot. -/
def MForge.fits (mf : MForge) (slot first n : Nat) : Bool := first + n ≤ mf.room slot

/-- Rows of the PERSIST slots of every mould on a forge, as Hearth row numbers (row × 32 + bank). -/
def State.persistRows (s : State) (f : ForgeId) : List Nat :=
  (s.fns.toList.map fun x => (x.moulds.map fun m => ((m.forges.filter (·.phys == f)).map fun mf =>
    ((mf.slots.filter (·.persist)).map fun d =>
      (List.range d.rows).map fun i => 32 * (d.place i).2 + (d.place i).1).flatten).flatten).flatten).flatten

/-- Installation number of the mould to which a row of a forge belongs as PERSIST row. -/
def State.persistOrder (s : State) (f : ForgeId) (bank row : Nat) : Option Nat :=
  let has := fun (d : SlotDecl) => d.persist && d.bankFirst ≤ bank && bank < d.bankFirst + d.bankCount &&
    d.rowFirst ≤ row && row < d.rowFirst + d.rowCount
  s.fns.toList.findSome? fun x => (x.moulds.find? fun m => m.forges.any fun mf => mf.phys == f && mf.slots.any has).map (·.order)

/-- Key of a Hearth byte in `hearth` (Table HRTH-1). -/
def hearthKey (f : ForgeId) (bank row b : Nat) : Nat := f.val * 2 ^ 24 + row * 16384 + bank * 512 + b

/-- The 512 bytes of a row. A byte that nothing has written is undefined (R56): a free value, drawn anew at each step gate,
in PERSIST rows at each installation; the rows of a segment that changed its mode read zero (R89). -/
def State.rowBytes (s : State) (f : ForgeId) (bank row : Nat) : List Byte :=
  let x := s.forges[f]
  let gen := match s.persistOrder f bank row with
    | some o => 2 * o + 1
    | none => 2 * x.gen
  (List.range 512).map fun b =>
    match Memory.find s.hearth (hearthKey f bank row b) with
    | some v => v
    | none => if x.zeroSeg.getLsbD (row / 64) then 0 else Config.freeByte (gen * 2 ^ 30 + hearthKey f bank row b)

/-- Rows `[first, first + n)` of a slot, one after another. -/
def State.readRows (s : State) (f : ForgeId) (mf : MForge) (slot first n : Nat) : List Byte :=
  ((List.range n).map fun i => s.rowBytes f (mf.place slot (first + i)).1 (mf.place slot (first + i)).2).flatten

/-- Write one row; the first write of a step to a PERSIST row saves it beforehand (R306). -/
def State.writeRow (s : State) (f : ForgeId) (fn : FnId) (id : BitVec 64) (mf : MForge) (slot i : Nat) (bs : List Byte) :
    State :=
  let p := mf.place slot i
  let persist := match mf.slot? slot with
    | some d => d.persist
    | none => false
  let s := if persist then
      let old := s.rowBytes f p.1 p.2
      s.modFn fn fun x => { x with moulds := updateFirst (fun (m : Mould) => m.id == id) (fun (m : Mould) =>
        { m with run := m.run.map fun (r : Running) =>
            if r.savedRows.contains (f.val, 32 * p.2 + p.1) then r
            else { r with savedRows := r.savedRows ++ [(f.val, 32 * p.2 + p.1)]
                          saved := r.saved ++ old.zipIdx.map fun (c : Byte × Nat) => (hearthKey f p.1 p.2 c.2, c.1) } }) x.moulds }
    else s
  { s with hearth := Memory.writeAll s.hearth (hearthKey f p.1 p.2 0) (fit 512 bs) }

/-- Write bytes over consecutive rows; the last row is filled out with zeros. -/
def State.writeRows (s : State) (f : ForgeId) (fn : FnId) (id : BitVec 64) (mf : MForge) (slot first : Nat) (bs : List Byte) :
    State :=
  (List.range (ceilDiv bs.length 512)).foldl (fun s i => s.writeRow f fn id mf slot (first + i) (slice bs (512 * i) 512)) s

/-! ### Bank ownership (R57, R83, R84) -/

/-- The owner byte of a bank in a phase: writer and reader (Table MOLD-6). -/
def MForge.owner (mf : MForge) (phase bank : Nat) : Nat × Nat :=
  let b := bits ((mf.owners.getD phase 0).toNat) (8 * bank) 8
  (b / 16, b % 16)

/-- Whether an access breaks R83 (true) or R84 alone (false); none where it is permitted. -/
def MForge.breaks (mf : MForge) (phase agent : Nat) (write slotted : Bool) (bank : Nat) : Option Bool :=
  if 5 ≤ agent && agent ≤ 7 then
    let named := (List.range mf.owners.length).any fun p =>
      (if write then (mf.owner p bank).1 else (mf.owner p bank).2) == agent
    if slotted && named then none else some true
  else
    let (w, r) := mf.owner phase bank
    let ok := if write then w == agent else r == agent || r == 9
    if !ok then some true
    else if w != 0 && r != w && !slotted then some false
    else none

/-- One run of rows that an instruction reads or writes. -/
structure Acc where
  write : Bool := false
  slot : Nat
  first : Nat
  n : Nat
  deriving DecidableEq, Repr

/-- A refused access: its bank and row, its kind, and whether R84 alone refused it. -/
structure Clash where
  bank : Nat
  row : Nat
  write : Bool
  untagged : Bool
  deriving DecidableEq, Repr

/-- The first access of a run that bank ownership refuses. Rows of segments in cache mode are outside the table: no declared
slot holds any, untagged runs may (R57, R87). Rows follow one another through the banks, so the first 32 of a slot show every
bank. -/
def MForge.clash (mf : MForge) (cache : BitVec 12) (phase agent : Nat) (a : Acc) : Option Clash :=
  (List.range (if a.slot = 0xFF then a.n else min a.n 32)).findSome? fun i =>
    let p := mf.place a.slot (a.first + i)
    if a.slot = 0xFF && cache.getLsbD (p.2 / 64) then none
    else (mf.breaks phase agent a.write (a.slot != 0xFF) p.1).map fun hard =>
      { bank := p.1, row := p.2, write := a.write, untagged := !hard }

def MForge.clashes (mf : MForge) (cache : BitVec 12) (phase agent : Nat) (l : List Acc) : Option Clash :=
  l.findSome? (mf.clash cache phase agent)

/-- The first slot whose tag blocks an access: a read needs FULL, a write EMPTY (R79). -/
def MForge.blocked (mf : MForge) (l : List Acc) : Option Nat :=
  (l.find? fun a => a.slot != 0xFF && a.n != 0 && (mf.full.contains a.slot == a.write)).map (·.slot)

/-! ### Tags (R79) -/

/-- Change what a mould installs on the logical forge that runs on a physical forge. -/
def State.modMForge (s : State) (fn : FnId) (id : BitVec 64) (logical : Nat) (g : MForge → MForge) : State :=
  let upd := fun (m : Mould) => match m.forges[logical]? with
    | some mf => { m with forges := m.forges.set logical (g mf) }
    | none => m
  s.modFn fn fun x => { x with moulds := updateFirst (fun (m : Mould) => m.id == id) upd x.moulds }

def MForge.setFull (mf : MForge) (slot : Nat) : MForge :=
  if slot = 0xFF || mf.full.contains slot then mf else { mf with full := mf.full ++ [slot] }
def MForge.setEmpty (mf : MForge) (slot : Nat) : MForge := { mf with full := mf.full.filter (· != slot) }

def MForge.setHold (mf : MForge) (slot : Nat) (on : Bool) : MForge :=
  if on then (if mf.hold.contains slot then mf else { mf with hold := mf.hold ++ [slot] })
  else { mf with hold := mf.hold.filter (· != slot) }

/-! ### Descriptors (Tables HRTH-7, HRTH-8) -/

/-- A side block. -/
structure Side where
  addr : Nat
  lineBytes : Nat
  stride : Nat
  lines : Nat
  space : Nat
  param : Nat
  deriving DecidableEq, Repr

def Side.of (d : BitVec 512) (off : Nat) : Side :=
  let f := fun o w => bits d.toNat (8 * (off + o)) (8 * w)
  { addr := f 0 8, lineBytes := f 8 4, stride := f 12 4, lines := f 16 4, space := f 20 1, param := f 22 2 }

def Side.slot (d : Side) : Nat := bits d.addr 0 8
def Side.row (d : Side) : Nat := bits d.addr 8 16
def Side.logical (d : Side) : Nat := bits d.addr 24 6
def Side.total (d : Side) : Nat := d.lineBytes * d.lines
def Side.isHearth (d : Side) : Bool := d.space == 1 || d.space == 2

/-- Fields of a descriptor. -/
def dOp (d : BitVec 512) : Nat := bits d.toNat 0 8
def dFlag (d : BitVec 512) (i : Nat) : Bool := bit d.toNat (8 + i)
def dConst (d : BitVec 512) : Nat := bits d.toNat 32 32
def dSrc (d : BitVec 512) : Side := Side.of d 0x08
def dDst (d : BitVec 512) : Side := Side.of d 0x20
def dPaceFirst (d : BitVec 512) : Nat := bits d.toNat 0x1C0 8
def dPaceSlots (d : BitVec 512) : Nat := bits d.toNat 0x1C8 7
def dPaceMode (d : BitVec 512) : Bool := bit d.toNat 0x1CF
def dPaceHigh (d : BitVec 512) : Nat := bits d.toNat 0x1D0 8
def dPaceLow (d : BitVec 512) : Nat := bits d.toNat 0x1D8 8
def dResult (d : BitVec 512) : Nat := bits d.toNat 0x1E0 32

/-- The logical forge whose Hearth a side names. -/
def Side.forge (d : Side) (own : Nat) : Nat := if d.space = 2 then d.logical else own

/-- The result row (Table HRTH-9). -/
def TActive.row (a : TActive) : List Byte :=
  toLe 4 (if a.hasCrc then a.crc else 0) ++ toLe 4 (b2n a.mismatch.isSome) ++ toLe 8 (a.mismatch.getD 0)

/-- The end of an active descriptor: the result row, DRAIN_SRC, FILL_DST, the counts (R101, R104). -/
def State.finishDesc (s : State) (f : ForgeId) (j : Job) (mf : MForge) (c : TongsId) (a : TActive) : State :=
  let d := mf.tongs.getD a.index 0
  let s := if dResult d = 0xFFFFFFFF then s
    else s.writeRow f j.fn j.mould mf (bits (dResult d) 0 8) (bits (dResult d) 8 16) a.row
  let src := dSrc d
  let dst := dDst d
  let s := if dFlag d 2 && src.isHearth then
      s.modMForge j.fn j.mould (src.forge j.logical) fun x => x.setEmpty src.slot else s
  let s := if dFlag d 1 && dst.isHearth && !a.diverted then
      s.modMForge j.fn j.mould (dst.forge j.logical) fun x => (x.setFull dst.slot).setHold dst.slot false else s
  s.modForge f fun x => { x with tchans := vmod x.tchans c fun t =>
    { t with active := none, done := (t.done + 1) % 2 ^ 32, hold := false
             crc := if dFlag d 0 then a.crc else t.crc
             tagWait := false, waitOn := none } }

/-- The access that writes a descriptor's result row (R104). -/
def resultAcc (d : BitVec 512) : List Acc :=
  if dResult d = 0xFFFFFFFF then [] else [{ write := true, slot := bits (dResult d) 0 8, first := bits (dResult d) 8 16, n := 1 }]

/-- Active descriptors that wait only for their write responses complete when a step ends with a status (R102). A result row
that bank ownership refuses is not written (R85). -/
def State.finishActives (s : State) (fn : FnId) (id : BitVec 64) : State :=
  (List.finRange 64).foldl (fun s f =>
    match (s.forges[f]).job with
    | some j =>
      if j.fn == fn && j.mould == id then
        match ((s.fns[fn]).moulds.find? (·.id == id)).bind fun m => m.forges[j.logical]? with
        | some mf => (List.finRange 8).foldl (fun s c => match (s.forges[f]).tchans[c].active with
            | some a =>
              if !a.moved || !a.aperture.isEmpty then s
              else if a.failed.isSome || (mf.clashes s.feat.cacheMask (s.forges[f]).phase 4 (resultAcc (mf.tongs.getD a.index 0))).isSome then
                s.modForge f fun x => { x with tchans := vmod x.tchans c fun t => { t with active := none } }
              else s.finishDesc f j mf c a
            | none => s) s
        | none => s
      else s
    | none => s) s

end Sys2Proof.Machine
end

