-- ==== Sys2Proof/Machine/HostIf.lean ====
section
/-! DEFINITION. The host interface: acceptance of commands, rings, doorbells, fetches, replies and interrupts (R314 to R344). -/

namespace Sys2Proof.Machine

abbrev Res := Host.Outcome State Fault Refusal

/-! ### Acceptance (R329, Table CMND-7) -/

/-- Opcodes that the mask ROM serves (check 1). -/
def Op.rom : Op → Bool
  | .nop | .identify | .fwLoad | .fwStart | .ledgerRead => true
  | _ => false

/-- Opcodes that the fault service answers (R417). -/
def Op.faultService : Op → Bool
  | .nop | .identify | .thermalStatus | .ledgerRead | .eventRingSetup | .eventAck => true
  | _ => false

/-- Check 3: QUEUE, reserved FLAGS, the payload pointer and length, the table entry (Tables CMND-4, CMND-5). -/
def packetOk (s : State) (k : Cmd) : Bool :=
  let q := s.ring k.fn k.ring
  k.queue == queueOf k.ring && k.flags.toNat < 2 && k.len.toNat ≤ 0x10000000 &&
  (if k.ptr == 0xFFFF then k.len == 0
   else q.pt != 0 && k.ptr.toNat < 2 ^ bits q.size.toNat 9 5 &&
     k.inAddr.toNat % 16 = 0 && k.outAddr.toNat % 16 = 0 && k.entryRsvd == 0 && (k.len != 0 || k.inAddr == 0))

/-- Whether the command is issued as the tenant's: an opcode of class T, or a class that admits both on a function ring. -/
def asTenant (op : Op) (k : Cmd) : Bool :=
  match op.caller with
  | .tenant => true
  | .tenantOrHost => k.ring.isSome
  | .anyOrTenant => k.isSealed
  | _ => false

/-- Check 4: the caller of Table CMND-8 and the enabled function. The admin ring belongs to the physical function and
is served whether or not function 0 is enabled (DEDUCED, log 6). -/
def callerOk (s : State) (op : Op) (k : Cmd) : Bool :=
  (match op.caller with
    | .host => k.ring.isNone && k.fn == 0
    | .tenant => k.ring.isSome
    | _ => k.ring.isSome || k.fn == 0) &&
  (k.ring.isNone || s.host[k.fn].enabled || op == .nop || op == .identify || op == .getFeature) &&
  -- the host alone reads registers through GET_FEATURE
  (k.ring.isNone || op != .getFeature || u k.p 0 2 != 0xF000)

/-- Check 6: SEALED, and a session that is known, bound to this ring, and open. -/
def sessionOk (s : State) (op : Op) (k : Cmd) : Bool :=
  k.isSealed && match s.session? k.fn k.session with
    | none => false
    | some x => if x.isOpen then x.ring == k.ring else op == .openSession || op == .closeSession

/-- Checks 1 to 9 of Table CMND-7: the status of the first that fails. In the fault state the fault service takes the place of
check 1 (R417). -/
def acceptStatus (s : State) (op : Op) (k : Cmd) : Option Status :=
  if s.faulted && !(k.ring.isNone && op.faultService) then some .notPermitted
  else if !s.faulted && !s.hall.fwRunning && !(k.ring.isNone && op.rom) then some .notReady
  else if !packetOk s k then some .badParam
  else if !callerOk s op k then some .notPermitted
  else if k.ring.isSome && s.host[k.fn].quiescing then some .quiescing
  else if asTenant op k then
    if !sessionOk s op k then some .notPermitted
    else if !k.tagOk then some .badTag
    else match s.session? k.fn k.session with
      | none => some .notPermitted
      | some x =>
        if k.seq.toNat ≤ x.lastSeq || (k.seq == 0xFFFFFFFF && op != .closeSession) then some .sequence else none
  else if k.isSealed || k.session != 0 || k.tag != 0 then some .badParam
  else none

/-- What checks 1 to 9 leave: the command is in flight, and a sealed one is the session's last accepted (R327). A ring has at
most 32 commands in flight (R320), so as many earlier values are kept. -/
def State.takeIn (s : State) (op : Op) (k : Cmd) : State :=
  let s := { s with flights := s.flights ++ [{ op, cmd := k }] }
  if k.isSealed then s.modSession k.fn k.session fun x =>
    { x with lastSeq := k.seq.toNat, before := (x.lastSeq :: x.before).take 33 } else s

/-- A sealed command that check 10 or 11 refuses was not accepted: its SEQUENCE is not the session's last (R327, R329). -/
def State.unspend (s : State) (k : Cmd) : State :=
  if !k.isSealed then s
  else s.modSession k.fn k.session fun x =>
    if x.lastSeq = k.seq.toNat then { x with lastSeq := x.before.headD 0, before := x.before.drop 1 }
    else { x with before := x.before.filter (· != k.seq.toNat) }

/-- A refusal by acceptance: its reply, and the count of failed tags (Table TRST-16). The failed tag of a LOAD_MOULD is check
0x0001 of Table MOLD-13, which its detail names (R74). -/
def State.refuseAccept (s : State) (op : Op) (k : Cmd) (st : Status) : State :=
  let s := if st == .badTag then s.modHall fun h => { h with tagFails := inc32 h.tagFails } else s
  s.refuse op k st (if st == .badTag && op == .loadMould then 0xFFFF0001 else 0)

/-- Command kinds that join a command heat (Table HEAT-2). -/
def joins (op : Op) (k : Cmd) : Bool :=
  match op with
  | .loadBillets | .sealPages | .readOut | .kvAllocSeq | .kvFork | .kvFreeSeq | .prefixLookup | .prefixPublish => true
  | .kvDrop => u k.p 4 1 = 0
  | _ => false

/-- Whether a command commits a heat of its own when no command heat is open, or opens or ends a command heat: such
commands of one ring take effect in ring order (R341). -/
def ownHeat (op : Op) (k : Cmd) : Bool :=
  joins op k || op == .heatBegin || op == .heatEnd || op == .rangeMap || op == .rangeUnmap || op == .retrieveIndexLoad || op == .migrateHint || op == .kvDrop

/-- R340, R341: an admin command waits for the admin command before it; a command that commits a heat waits for the
earlier such commands of its ring. -/
def State.turn (s : State) (op : Op) (k : Cmd) : Bool :=
  let before := (s.flights.takeWhile (!·.isOf op k)).filter fun f => f.cmd.fn == k.fn && f.cmd.ring == k.ring
  match k.ring with
  | none => before.all (·.background)
  | some _ => !ownHeat op k || before.all fun f => !ownHeat f.op f.cmd

/-- The rule of an open or scrapped command heat of the ring (R289, R290): the status that refuses the command. -/
def heatGate (s : State) (op : Op) (k : Cmd) : Option Status :=
  match k.ring with
  | none => none
  | some r =>
    match (s.fns[k.fn].cmdHeats).find? (·.ring == r) with
    | none => none
    | some h =>
      if op == .heatEnd then none
      else if joins op k then h.scrapped
      else some .busy

/-! ### Rings (R318 to R320) -/

/-- A ring's addresses and sizes are valid: sizes within Table CMND-3, a ring address for both rings, and a payload
table exactly where PT_LOG2 says (DEDUCED, log 7). -/
def Ring.valid (q : Ring) : Bool :=
  let sz := q.size.toNat
  4 ≤ bits sz 0 4 && bits sz 0 4 ≤ 15 && 5 ≤ bits sz 4 5 && bits sz 4 5 ≤ 16 && bits sz 9 5 ≤ 16 &&
    q.sq != 0 && q.rq != 0 && (q.pt != 0 || bits sz 9 5 = 0)

def Ring.sqSize (q : Ring) : Nat := 2 ^ bits q.size.toNat 0 4
def Ring.rqSize (q : Ring) : Nat := 2 ^ bits q.size.toNat 4 5

/-- The ring stops on an error (R319). -/
def Ring.stop (q : Ring) (st : Status) : Ring :=
  { q with error := true, stopped := true, errValid := true,
           errStatus := if q.errValid then q.errStatus else BitVec.ofNat 16 st.code }

/-- Commands of a ring in flight. -/
def State.flightsOf (s : State) (fn : FnId) (r : Option RingId) : Nat :=
  (s.flights.filter fun f => f.cmd.fn == fn && f.cmd.ring == r).length

/-- Commands of the device that have not written their final reply (R320). -/
def State.unreplied (s : State) : Nat :=
  let held := fun (q : Ring) => (q.done.filter (!·.interim)).length
  s.flights.length + held s.admin + ((s.host.toList.map fun h => (h.rings.toList.map held).foldl (· + ·) 0).foldl (· + ·) 0)

/-- The admin ring runs one command at a time: the one before has written its replies or passed to the background (R340).
The model fetches and judges the next command no earlier (DESIGN CHOICE, log 5). -/
def State.adminFree (s : State) : Bool :=
  (s.flights.all fun f => f.cmd.ring.isSome || f.background) && s.admin.done.all (·.background)

/-- A ring, and the device, have room for one more fetched command (R320), and its turn to be fetched has come (R340). -/
def State.fetchRoom (s : State) (fn : FnId) (r : Option RingId) : Bool :=
  s.flightsOf fn r + ((s.ring fn r).done.filter (!·.interim)).length < 32 && s.unreplied < 1024 && (r.isSome || s.adminFree)

/-- The device fetches from a ring: its host interface is on, the link is up, the function is in D0, and the ring is not
stopped, by an error or by ENABLE (R318, R319, R344). -/
def State.fetches (s : State) (fn : FnId) (r : Option RingId) : Bool :=
  s.domOn 96 && s.pcie.up && !s.host[fn].d3hot && !(s.ring fn r).stopped && ((s.ring fn r).enable || !(s.ring fn r).active) &&
    s.fetchRoom fn r

/-- The entry at SQ_HEAD has been fetched, where a doorbell has announced one. -/
def Ring.passEntry (q : Ring) : Ring := if q.sqHead = q.sqTail then q else { q with sqHead := (q.sqHead + 1) % q.sqSize }

/-- A command that COMMAND_FETCH has not taken in is fetched and passes checks 1 to 9 (R320, R329; log 5). -/
def State.takeNow (s : State) (op : Op) (k : Cmd) : State := (s.modRing k.fn k.ring Ring.passEntry).takeIn op k

/-- ACTIVE falls once ENABLE is clear and the last reply has been written (R318). -/
def State.ringIdle (s : State) (fn : FnId) (r : Option RingId) : State :=
  let q := s.ring fn r
  if !q.enable && q.active && s.flightsOf fn r = 0 && q.done.isEmpty then
    s.modRing fn r fun q => { q with active := false, unsignalled := 0 }
  else s

def ringEnable (fn : FnId) (r : Option RingId) (s : State) : State :=
  let q := s.ring fn r
  if !s.domOn 96 || q.enable || (r.isNone && fn != 0) then s
  else if q.valid && (r.isNone || s.host[fn].enabled) then
    -- the replies of commands fetched before are still written, now from the first entry on
    s.modRing fn r fun q => { q with enable := true, active := true, stopped := false, sqHead := 0, sqTail := 0,
                                     rqTail := 0, rqHeld := 0, rqHead := 0, phase := true, unsignalled := 0 }
  else s.modRing fn r fun q => { (q.stop .badParam) with enable := true }

def ringDisable (fn : FnId) (r : Option RingId) (s : State) : State :=
  if !s.domOn 96 || (r.isNone && fn != 0) then s
  else (s.modRing fn r fun q => { q with enable := false }).ringIdle fn r

def execRingEnable (fn : FnId) (r : Option RingId) (s : State) : Res := .next (ringEnable fn r s)
def execRingDisable (fn : FnId) (r : Option RingId) (s : State) : Res := .next (ringDisable fn r s)

/-- A submission doorbell (R319). A TAIL outside the ring, or one that moves back past entries not yet fetched, stops it. -/
def hostDbSq (fn : FnId) (r : Option RingId) (tail : Nat) (s : State) : State :=
  let q := s.ring fn r
  if !q.active || tail = q.sqTail then s
  else
    let n := q.sqSize
    let ahead := fun x => (x + n - q.sqHead) % n
    if n ≤ tail || ahead tail < ahead q.sqTail then s.modRing fn r fun q => q.stop .badParam
    else s.modRing fn r fun q => { q with sqTail := tail }

def execHostDbSq (fn : FnId) (r : Option RingId) (tail : BitVec 16) (s : State) : Res :=
  .next (if s.domOn 96 then hostDbSq fn r tail.toNat s else s)

/-- A reply doorbell frees the entries before HEAD (R319, R324). A HEAD that would free entries not written is ignored
(DESIGN CHOICE, log 8). -/
def hostDbRq (fn : FnId) (r : Option RingId) (head : Nat) (s : State) : State :=
  let q := s.ring fn r
  let n := q.rqSize
  let freed := (head + n - q.rqHead) % n
  if !q.active || n ≤ head || q.rqHeld < freed then s
  else s.modRing fn r fun q => { q with rqHead := head, rqHeld := q.rqHeld - freed }

def execHostDbRq (fn : FnId) (r : Option RingId) (head : BitVec 16) (s : State) : Res :=
  .next (if s.domOn 96 then hostDbRq fn r head.toNat s else s)

/-! ### Fetch (R320 to R322, R326) -/

/-- The fields of a packet and its table entry (Tables CMND-4, CMND-5); a PAYLOAD_PTR of 0xFFFF names no entry. -/
def parseCmd (fn : FnId) (r : Option RingId) (packet : BitVec 512) (entry : BitVec 256) (payload : List Byte) : Cmd :=
  let entry := if packet.extractLsb' 80 16 = 0xFFFF then 0 else entry
  { fn, ring := r
    flags := packet.extractLsb' 16 8, queue := packet.extractLsb' 24 8, seq := packet.extractLsb' 32 32
    session := packet.extractLsb' 64 16, ptr := packet.extractLsb' 80 16, len := packet.extractLsb' 96 32
    params := packet.extractLsb' 128 256, tag := packet.extractLsb' 384 128
    payload := fit (packet.extractLsb' 96 32).toNat payload
    inAddr := entry.extractLsb' 0 64, outAddr := entry.extractLsb' 64 64, outCap := entry.extractLsb' 128 32
    entryRsvd := entry.extractLsb' 160 96 }

/-- The 12-byte IV of a sealed command or reply (R326, R328). -/
def sealIv (kind : Nat) (fn : FnId) (session : BitVec 16) (seq : BitVec 32) : List Byte :=
  toLe 1 kind ++ toLe 1 fn.val ++ toLe 2 session.toNat ++ toLe 4 seq.toNat ++ toLe 4 0

/-- Open a sealed command: plaintext parameters and payload, or a failed tag (R326). -/
def openSealed (s : State) (packet : BitVec 512) (k : Cmd) : Cmd :=
  match s.session? k.fn k.session with
  | none => { k with tagOk := false }
  | some x =>
    match gcmOpen x.key (sealIv 1 k.fn k.session k.seq) (bvBytes 16 (packet.extractLsb' 0 128))
        (bvBytes 32 k.params ++ k.payload) k.tag with
    | none => { k with tagOk := false }
    | some pt => { k with params := BitVec.ofNat 256 (leNat (fit 32 pt)), payload := fit k.len.toNat (pt.drop 32) }

/-- Frames of T1 staging that a sealed payload takes (R326). -/
def stagingFrames (k : Cmd) : Nat := if k.isSealed then min 1 k.payload.length * ceilDiv k.payload.length 2097152 else 0

def commandFetch (fn : FnId) (r : Option RingId) (packet : BitVec 512) (entry : BitVec 256) (payload : List Byte)
    (fetchErr payloadErr : Bool) (s : State) : State :=
  let q := s.ring fn r
  if !q.active || q.sqHead = q.sqTail || !s.fetches fn r then s
  else if fetchErr then s.modRing fn r fun q => q.stop .hostFault
  else
    let s := s.modRing fn r Ring.passEntry
    let k := { parseCmd fn r packet entry payload with payloadErr := payloadErr }
    match Op.ofCode (packet.extractLsb' 0 16).toNat with
    | none =>
      s.refuse .nop k (if s.faulted then .notPermitted else if s.hall.fwRunning then .badOpcode else .notReady)
    | some op =>
      let k := if k.isSealed && !payloadErr then openSealed s packet k else k
      match acceptStatus s op k with
      | some st => s.refuseAccept op k st
      | none =>
        if k.isSealed && payloadErr then s.refuse op k .hostFault
        else
          let s := s.takeIn op k
          match s.allocT1 fn (.payload fn) (stagingFrames k) with
          | none => s.answer op k .noSpace 0 []
          | some s => s

def execCommandFetch (fn : FnId) (r : Option RingId) (packet : BitVec 512) (entry : BitVec 256) (payload : List Byte)
    (fetchErr payloadErr : Bool) (s : State) : Res :=
  .next (commandFetch fn r packet entry payload fetchErr payloadErr s)

/-! ### Replies (R323 to R325, R328, R343) -/

/-- INFO of a reply (Table CMND-6). -/
def Reply.info (x : Reply) (phase : Bool) : Nat := b2n phase + 2 * b2n x.interim + 4 * b2n x.sealed_

/-- The 32 bytes of a reply entry and the payload as written. A sealed reply's detail and payload are ciphertext (R328). -/
def replyBytes (s : State) (fn : FnId) (x : Reply) (phase : Bool) (sqHead : Nat) : List Byte × List Byte :=
  -- the key of a session erased meanwhile seals nothing any more: the reply makes no statement (R328)
  let x := if x.sealed_ && (s.session? fn x.session).isNone then { x with sealed_ := false, detail := 0, payload := [] } else x
  let head := toLe 4 x.seq.toNat ++ toLe 2 x.status.code ++ toLe 2 (x.info phase)
  let mid := toLe 2 sqHead ++ toLe 1 x.queue.toNat ++ [0]
  let key := if x.sealed_ then (s.session? fn x.session).map (·.key) else none
  match key with
  | some key =>
    let (ct, tag) := gcmSeal key (sealIv (if x.interim then 2 else 3) fn x.session x.seq) (head ++ mid)
      (toLe 4 x.detail ++ x.payload)
    (head ++ fit 4 ct ++ mid ++ bvBytes 16 tag, fit x.payload.length (ct.drop 4))
  | none => (head ++ toLe 4 x.detail ++ mid ++ List.replicate 16 0, x.payload)

/-- Count a reply towards its vector and raise it when COUNT is reached or TIME is 0 (R325). -/
def State.signal (s : State) (fn : FnId) (r : Option RingId) : State :=
  let q := s.ring fn r
  let n := q.unsignalled + 1
  let count := max 1 (bits q.coal.toNat 0 8)
  let v := match r with
    | none => 0
    | some r => if fn == 0 then 2 + r.val else r.val
  if count ≤ n || bits q.coal.toNat 16 16 = 0 then
    (s.modRing fn r fun q => { q with unsignalled := 0 }).raise fn v
  else s.modRing fn r fun q => { q with unsignalled := n }

/-- Write the oldest waiting reply of a ring: payload first, then the entry, then the vector (R343). -/
def replyWrite (fn : FnId) (r : Option RingId) (payloadErr replyErr : Bool) (s : State) : State :=
  let q := s.ring fn r
  match q.done with
  | [] => s
  | x :: rest =>
    if !s.domOn 96 || !s.pcie.up || !q.active || q.rqSize ≤ q.rqHeld then s
    else if replyErr then s.modRing fn r fun q => (q.stop .hostFault)
    else
      let x := if payloadErr && !x.payload.isEmpty then { x with status := .hostFault, payload := [], detail := 0 } else x
      let (entry, pl) := replyBytes s fn x q.phase q.sqHead
      let s := if pl.isEmpty then s else s.send (.write x.outAddr.toNat pl)
      let s := s.send (.write (q.rq.toNat + 32 * q.rqTail) entry)
      let wrap := q.rqTail + 1 == q.rqSize
      let s := s.modRing fn r fun q =>
        { q with done := rest, rqTail := if wrap then 0 else q.rqTail + 1, phase := q.phase != wrap, rqHeld := q.rqHeld + 1 }
      let s := if x.op == .closeSession && x.status == .ok then s.eraseSession fn x.session else s
      (s.signal fn r).ringIdle fn r

/-- TIME µs after the first unsignalled reply the vector is raised (R325). -/
def execInterruptCoalesceTimer (fn : FnId) (r : Option RingId) (s : State) : Res :=
  let q := s.ring fn r
  if q.unsignalled = 0 then .next s
  else
    let v := match r with
      | none => 0
      | some r => if fn == 0 then 2 + r.val else r.val
    .next ((s.modRing fn r fun q => { q with unsignalled := 0 }).raise fn v)

/-- 10 µs after it was last raised, vector 1 may be raised again for the records written since (R422). -/
def execEventVectorTimer (s : State) : Res :=
  let l := s.events
  if !l.recent then .next s
  else if l.unsignalled then
    .next (({ s with events := { l with unsignalled := false } } : State).raise 0 1)
  else .next { s with events := { l with recent := false } }

/-! ### Function power states (R344) -/

def execD3hotEntry (fn : FnId) (s : State) : Res := .next (s.modHost fn fun h => { h with d3hot := true })
def execD0Return (fn : FnId) (s : State) : Res := .next (s.modHost fn fun h => { h with d3hot := false })

end Sys2Proof.Machine
end

