-- ==== Sys2Proof/Machine/Unit.lean ====
section
/-! DEFINITION. Unit instructions of the Plinths and the places of T2 (Table PLIN-4, R256). -/

namespace Sys2Proof.Machine

/-! ### Unit instructions (Table PLIN-4) -/

/-- Byte fields of a unit instruction. -/
def uF (w : BitVec 256) (off n : Nat) : Nat := bits w.toNat (8 * off) (8 * n)

def uOp (w : BitVec 256) : Nat := uF w 0 1
def uAcc (w : BitVec 256) : Bool := bit (uF w 1 1) 0
def uTopk (w : BitVec 256) : Bool := bit (uF w 1 1) 1
def uBitmap (w : BitVec 256) : Bool := bit (uF w 1 1) 2
def uReg (w : BitVec 256) : Bool := bit (uF w 1 1) 3
def uInt4 (w : BitVec 256) : Bool := bits (uF w 2 1) 0 2 == 1
def uB16 (w : BitVec 256) : Bool := bits (uF w 2 1) 2 2 == 1
def uQ (w : BitVec 256) : Nat := bits (uF w 3 1) 0 6 + 1
/-- Die address of the first row. -/
def uAddr (w : BitVec 256) : Nat := uF w 4 4 * 1024
def uRows (w : BitVec 256) : Nat := uF w 8 2
def uKib (w : BitVec 256) : Nat := uF w 10 1
/-- Elements of a row or a vector (R269); an LDR pairs with INT8 rows (DESIGN CHOICE, log 42). -/
def uElems (w : BitVec 256) : Nat :=
  if uOp w = 2 then uF w 8 2 * 1024 else uKib w * 1024 * (if uInt4 w then 2 else 1)
def uBsize (w : BitVec 256) : Nat := if uB16 w then 2 else 1

/-- Reserved fields and codes of an issued instruction (first row of Table PLIN-5). -/
def uReservedOk (w : BitVec 256) : Bool :=
  match uOp w with
  | 0 => w == 0
  | 1 => uF w 1 1 < 16 && uF w 2 1 < 16 && bits (uF w 2 1) 0 2 < 2 && bits (uF w 2 1) 2 2 < 2 && uF w 3 1 < 64 && uF w 11 1 == 0 &&
      uF w 14 2 == 0 && uF w 24 8 == 0 && (!uReg w || uF w 12 2 == 0) && (uBitmap w || uF w 20 4 == 0) && 1 ≤ uRows w &&
      (uKib w == 1 || uKib w == 2 || uKib w == 4)
  | 2 => uF w 1 1 < 16 && uF w 2 1 % 4 == 0 && uF w 2 1 < 8 && uF w 3 1 < 64 && uF w 4 4 < 12 &&
      (uF w 8 2 == 1 || uF w 8 2 == 2 || uF w 8 2 == 4) && uF w 10 2 == 0 && uF w 14 2 == 0 && uF w 16 8 == 0 && uF w 24 8 == 0
  | _ => false

def t2Base : Nat := 0x4000000000

/-- Where a T2 die address lies (R256). -/
structure T2Place where
  plinth : Nat
  device : Nat
  /-- frame slot in the device -/
  slot : Nat
  channel : Nat
  /-- half of the frame, which selects the unit of the channel -/
  half : Nat
  bank : Nat
  row : Nat
  column : Nat
  deriving DecidableEq, Repr

def t2Place (a : Nat) : T2Place :=
  let f := (a - t2Base) / 2097152
  let w := (a - t2Base) % 2097152
  let slice := w % 1048576 / 1024 * 256 + w % 256
  { plinth := f % 8, device := f / 8 % 6, slot := f / 48, channel := w / 256 % 4, half := w / 1048576
    bank := w / 1048576 * 8 + slice / 2048 % 8, row := f / 48 * 16 + slice / 16384, column := slice % 2048 }

/-- Banks that `n` bytes from a die address lie in, each of the four channels of the device taking its part. -/
def t2Banks (a n : Nat) : List Nat := ((List.range (ceilDiv (a % 1024 + n) 1024)).map fun i => (t2Place (a + 1024 * i)).bank).eraseDups

/-- Frame and byte in it of a T2 die address (R256). -/
def t2At (a : Nat) : Nat × Nat := ((a - t2Base) / 2097152, (a - t2Base) % 2097152)

/-- Plinth that holds a die address. -/
def onPlinth (n : PlinthId) (a : Nat) : Bool := t2Base ≤ a && a - t2Base < 98304 * 2097152 && (t2At a).1 % 8 == n.val

/-- The chain that an instruction is dispatched to: the one that holds A_ADDR, the one an LDR names; a NOP goes to chain
0 (DESIGN CHOICE, log 43). -/
def unitChain (w : BitVec 256) : ChainId :=
  match uOp w with
  | 2 => Fin.ofNat 12 (uF w 4 4)
  | 1 => Fin.ofNat 12 (2 * (t2Place (uAddr w)).device + (t2Place (uAddr w)).half)
  | _ => 0

/-- Banks of a unit that the rows of a DOT lie in (R256). -/
def dotBanks (w : BitVec 256) : List Nat := t2Banks (uAddr w) (uRows w * uKib w * 1024)

/-- Device of the group that a resolved unit instruction works in. -/
def unitDevice (w : BitVec 256) : Nat := (unitChain w).val / 2

/-- Banks that a chain reads in its access phase. -/
def Chain.accessBanks (c : Chain) : List Nat := match c.access with
  | some w => dotBanks w.instr.word
  | none => []

/-- Chain of the units that serve a die address. -/
def t2Chain (a : Nat) : ChainId := Fin.ofNat 12 (2 * (t2Place a).device + (t2Place a).half)

end Sys2Proof.Machine
end

