-- ==== Sys2Proof/Machine/Stop.lean ====
section
/-! DEFINITION. How steps, heats and functions end: stopping a step, ending it with a status, anneals at every level of
Table TIME-7, the fault state, the loss of a function, and the commands that wait for such an end. -/

namespace Sys2Proof

/-- Rank of a unit, from 0 (Table TIME-7). -/
def AnnealUnit.rank : AnnealUnit → Fin 7
  | .lane _ _ => 0 | .port _ => 1 | .channel _ => 2 | .plinthUnit _ _ => 3 | .forge _ => 4 | .tenant _ => 5 | .device => 6

end Sys2Proof

namespace Sys2Proof.Machine

/-! ### Moulds and their running steps -/

def Fn.mould? (f : Fn) (id : BitVec 64) : Option Mould := f.moulds.find? (·.id == id)

def State.modMould (s : State) (fn : FnId) (id : BitVec 64) (g : Mould → Mould) : State :=
  s.modFn fn fun f => { f with moulds := updateFirst (·.id == id) g f.moulds }

def State.modRun (s : State) (fn : FnId) (id : BitVec 64) (g : Running → Running) : State :=
  s.modMould fn id fun m => { m with run := m.run.map g }

/-- A step of the function runs, or waits to run again after an anneal. -/
def Fn.running (f : Fn) : Bool := f.moulds.any (·.run.isSome)

/-- A step of the function runs now. -/
def Fn.active (f : Fn) : Bool := f.moulds.any fun m => match m.run with
  | some r => !r.rerun
  | none => false

/-- Some step runs on the device. -/
def State.anyRunning (s : State) : Bool := (List.finRange 64).any fun n => (s.fns[n]).active

/-- The heats of a mould's step that have not committed, with their slots. -/
def Fn.stepHeats (f : Fn) (id : BitVec 64) : List (Fin 32 × Heat) :=
  ((List.finRange 32).filterMap fun i => (f.slots[i]).map fun h => (i, h)).filter fun p =>
    match p.2.origin with
    | .step m _ => m == id && p.2.state != HeatState.committed
    | _ => false

/-- Whether the entry is the last heat of the mould's step (R67). -/
def Mould.lastBound (m : Mould) (b : Nat) : Bool := b + 1 == m.heats.length

/-- A forge leaves its step: the stream, the channels' sets, the issued work and the registers that a gate clears go;
error registers, counters and windows stay (R102, R126, R146, R199). -/
def Forge.idle (f : Forge) : Forge :=
  { f with
    job := none, pc := 0, phase := 0, inPhase := false, nest := [], ended := false
    tchans := f.tchans.map fun c =>
      { c with started := false, cur := none, queue := [], shadow := none, active := none, paused := false, tagWait := false, hold := false,
               stopping := false, waitOn := none }
    anvil := { f.anvil with cfg := {}, issued := [], queue := [], waitOpnd := false }
    swage := { f.swage with cfg := {}, tables := Vector.replicate 4 none }
    press := { f.press with tables := Vector.replicate 2 {}, issued := [], waitCh := false }
    chisel := { f.chisel with tregs := Vector.replicate 16 none, tables := Vector.replicate 2 none
                              issued := [], waitOpnd := false }
    cruc := { f.cruc with cfg := 0, issued := [], waitOpnd := false, waitT1 := false, waitPending := false, waitDivert := false }
    prun := none }

/-- A forge anneal: as leaving the step, and the look-aside buffer goes too (R305). -/
def Forge.annealed (f : Forge) : Forge :=
  { f.idle with cruc := { f.idle.cruc with lab := [] }, anneals := inc32 f.anneals }

/-- Tags at installation (R56). -/
def MForge.initial (m : MForge) : MForge :=
  { m with full := (m.slots.filter (·.initialFull)).map (·.slot), hold := [], wait := [] }

/-- PERSIST rows saved before their first write of the step come back (R306). -/
def State.restorePersist (s : State) (cells : List Host.Cell) : State :=
  { s with hearth := cells.foldl (fun (m : Memory) (c : Host.Cell) => Memory.putAll m c.1 c.2) s.hearth }

/-- Waiting flits are sent while the retry buffer of 4,095 flits has room (R350). -/
def Port.launch (q : Port) : Port :=
  let n := min q.backlog (4095 - q.unacked)
  { q with backlog := q.backlog - n, unacked := q.unacked + n, txSeq := (q.txSeq + n) % 4096 }

/-- The frames of a record, formed when it is given to the link (DESIGN CHOICE, log 176). -/
def Port.frames (q : Port) (r : Record) : List LinkFrame :=
  (pieces 2000 (frameCount (32 + r.body.length)) r.framed).zipIdx.map fun x =>
    { seq := (q.txSeq + q.backlog + 8 * x.2) % 4096, ack := q.rxSeq, retry := q.again, counter := q.frameTx + x.2
      key := q.keyTx, salt := q.saltTx, records := x.1 }

/-- A record given to a link: it takes frames of its own, filled out with PAD (R349, R363), and its header and bytes
count as payload (Table GRIZ-12). Frames of PAD alone are left out. -/
def Port.queueRecord (q : Port) (r : Record) : Port :=
  let n := frameCount (32 + r.body.length)
  ({ q with outbox := q.outbox ++ [r], frameTx := q.frameTx + n, backlog := q.backlog + 8 * n, buffer := q.buffer ++ q.frames r
            tx := (q.tx + 32 + r.body.length) % 2 ^ 64 } : Port).launch

/-- A record that a port sends. -/
def State.sendRecord (s : State) (p : PortId) (r : Record) : State := s.modPort p fun q => q.queueRecord r

/-- The physical port with a logical number (R358). -/
def State.physPort (s : State) (logical : Nat) : Option PortId :=
  (List.finRange 8).find? fun p => (s.ports[p]).logical.val == logical

/-- The position of this module in a mould's cohort, and the logical port that reaches another position (R71). -/
def Mould.selfPos (m : Mould) : Nat := (m.cohort.findIdx? (·.self)).getD 0
def Mould.portTo (m : Mould) (pos : Nat) : Option Nat :=
  match m.cohort[pos]? with
  | some c => if c.port < 8 then some c.port else none
  | none => none

/-- Send a record of a mould's step to a cohort position (Table GRIZ-7); a position without a port sends nothing. -/
def State.sendTo (s : State) (fn : FnId) (m : Mould) (pos kind sub step seq : Nat) (flags : Nat := 0) (format : Nat := 0)
    (body : List Byte := []) : State :=
  match (m.portTo pos).bind s.physPort with
  | none => s
  | some p => s.sendRecord p
      { kind, flags, format, sub, src := m.selfPos, dst := pos
        cohort := ((s.fns[fn]).cohort.map (·.id)).getD 0
        digest := BitVec.ofNat 32 (leNat ((digestBytes m.cohortDigest).take 4)), step, seq, body }

/-! ### Distributed heats: positions and messages (R69, R300, R301) -/

/-- The coordinator: the position with the lowest chip identifier of the cohort (R69). -/
def Mould.coordinator (m : Mould) : Nat :=
  (m.cohort.zipIdx.foldl (fun (b : Nat × Nat) (x : CohortPos × Nat) => if x.1.chip < b.1 then (x.1.chip, x.2) else b) (0x10000, 0)).2

/-- The 16 bytes of a HEAT record. -/
def heatBody (m : Mould) (b : Nat) : List Byte := (digestBytes m.cohortDigest).take 8 ++ toLe 2 b ++ List.replicate 6 0

/-- HEAT subcodes of Table GRIZ-7: VOTE PREPARED 1, VOTE SCRAP 2, COMMIT 3, SCRAP 4, ACK 5, QUERY 6. -/
def State.sendHeat (s : State) (fn : FnId) (m : Mould) (pos sub b step : Nat) : State :=
  s.sendTo fn m pos 0x06 sub step 0 0 0 (heatBody m b)

/-- After a device anneal the coordinator sends again each commit that some participant has not acknowledged (Table HEAT-7). -/
def State.resendDecisions (s : State) : State :=
  (List.finRange 64).foldl (fun s fn => ((s.fns[fn]).decisions).foldl (fun s (d : Decision) =>
    match (s.fns[fn]).mould? d.mould with
    | some m => if d.commit then d.waiting.foldl (fun s pos => s.sendHeat fn m pos 3 d.bound d.step) s else s
    | none => s) s) s

/-- DIGEST of a mould's records (Table GRIZ-7). -/
def Mould.shortDigest (m : Mould) : BitVec 32 := BitVec.ofNat 32 (leNat ((digestBytes m.cohortDigest).take 4))

/-- The positions that a heat's held sends went to. -/
def Heat.peers (h : Heat) (m : Mould) : List Nat :=
  ((h.sends.filterMap fun i => m.sends[i]?).map (·.peer)).eraseDups

/-- Pins and the epoch registration that a step holds are released (R207, R209). -/
def State.unpinStep (s : State) (fn : FnId) (id : BitVec 64) (pins : List Nat) (pinned : List (FnId × Nat)) : State :=
  (s.unpin pinned).modFn fn fun f =>
    let hdrs := pins.foldl (fun hs n => updateFirst (fun h : KvHdr => h.num == n) (fun h => { h with pin := h.pin - 1 }) hs) f.hdrs
    ({ f with hdrs, regs := f.regs.filter (·.step != some id) } : Fn).limbo
def State.releasePins (s : State) (fn : FnId) (id : BitVec 64) (r : Running) : State :=
  s.unpinStep fn id r.pins ((r.fetches.map (·.pinned)).flatten)

/-- The pins that a heat in doubt kept when its step stopped are released once it is decided (R302). -/
def State.releaseHeld (s : State) (fn : FnId) (h : Heat) : State :=
  match h.origin with
  | .step id _ => if h.pins.isEmpty && h.pinned.isEmpty then s else s.unpinStep fn id h.pins h.pinned
  | _ => s

/-- Scrap a heat of a step: held sends are discarded on both sides (R299, R365). -/
def State.scrapStepHeat (s : State) (fn : FnId) (slot : Fin 32) (st : Status) : State :=
  match (s.fns[fn]).heat slot with
  | none => s
  | some h =>
    let s := (s.scrapHeat fn slot st).releaseHeld fn h
    match h.origin with
    | .step id b =>
      let s := s.modFn fn fun f => { f with votes := f.votes.filter fun v => !(v.mould == id && v.bound == b) }
      match (s.fns[fn]).mould? id with
      | some m => (h.peers m).foldl (fun s pos => s.sendTo fn m pos 0x05 b h.stepIndex 0) s
      | none => s
    | _ => s

/-- Every forge that runs the step leaves it. -/
def State.idleForges (s : State) (fn : FnId) (id : BitVec 64) : State :=
  { s with forges := s.forges.map fun f =>
      match f.job with
      | some j => if j.fn == fn && j.mould == id then f.idle else f
      | none => f }

/-- The use under which a step's heat reserves its shadow frames before it opens (R297). -/
def Mould.resKey (m : Mould) (b : Nat) : Nat := 32 + 8 * m.order + b

/-- Reservations of a mould's heats that have not opened are released (R297). -/
def State.freeReserved (s : State) (fn : FnId) (m : Mould) : State :=
  { s with t1 := s.t1.filter fun (x : Frame) => match x.use with
      | .shadow f k => !(f == fn && 32 ≤ k && (k - 32) / 8 == m.order)
      | _ => true }

/-- A step's heat that is in doubt, with its slot (R302). -/
def Fn.doubtful (f : Fn) (id : BitVec 64) : Option (Fin 32 × Heat) := (f.stepHeats id).find? fun p => p.2.state == HeatState.prepared

/-- Stop a running step: its OPEN heat is scrapped with a status, its forges are released. A PREPARED heat stays and keeps the
step's pins (R302), which are released otherwise. Where the step leaves no effect (R13, R306) the tags return to installation
and saved PERSIST rows come back. -/
def State.stopStep (s : State) (fn : FnId) (id : BitVec 64) (restore : Bool) (st : Status := .annealed) : State :=
  match ((s.fns[fn]).mould? id).bind (·.run) with
  | none => s
  | some r =>
    let s := ((s.fns[fn]).stepHeats id).foldl (fun (s : State) (p : Fin 32 × Heat) =>
      if p.2.state == HeatState.open_ then s.scrapStepHeat fn p.1 st else s) s
    let s := s.idleForges fn id
    let s := match (s.fns[fn]).doubtful id with
      | some p => s.modHeat fn p.1 fun h => { h with pins := h.pins ++ r.pins, pinned := h.pinned ++ (r.fetches.map Fetch.pinned).flatten }
      | none => s.releasePins fn id r
    let s := match (s.fns[fn]).mould? id with
      | some m => s.freeReserved fn m
      | none => s
    let s := s.modRun fn id fun r => { r with pins := [], fetches := [] }
    if restore then
      (s.restorePersist r.saved).modMould fn id fun m =>
        { m with forges := m.forges.map MForge.initial, run := m.run.map fun r => { r with saved := [], savedRows := [] } }
    else s.modMould fn id fun m => { m with forges := m.forges.map fun mf => { mf with hold := [], wait := [] } }

/-- The run command at the head of a mould's queue ends. -/
def State.endRunCmd (s : State) (fn : FnId) (id : BitVec 64) (st : Status) : State :=
  match ((s.fns[fn]).mould? id).bind (·.queue.head?) with
  | none => s
  | some c => (s.modMould fn id fun m => { m with queue := m.queue.drop 1 }).finish c.op c.cmd st c.done c.output

/-- End a step with a status now: RUN_STEPS stops at it, and its reply carries the status (R338). The heats of the step that
have committed stay; the host's next run of the step is a run of its own. -/
def State.closeStep (s : State) (fn : FnId) (id : BitVec 64) (st : Status) (restore : Bool := false) : State :=
  match ((s.fns[fn]).mould? id).bind (·.run) with
  | none => s
  | some _ =>
    let s := s.stopStep fn id restore st
    (s.modMould fn id fun m => { m with run := none, lastStatus := st.code, committed := 0 }).endRunCmd fn id st

/-- A forge whose step ends: the stream and every engine stop, and only the active descriptors stay (R102). -/
def Forge.ending (f : Forge) : Forge :=
  { f.idle with
    job := f.job, pc := f.pc, phase := f.phase, inPhase := f.inPhase, ended := true
    tchans := f.tchans.map fun t => { t with started := false, cur := none, queue := [], shadow := none, paused := false, stopping := t.active.isSome } }

/-- A descriptor of the step is active on one of its forges. -/
def State.descActive (s : State) (fn : FnId) (id : BitVec 64) : Bool :=
  s.forges.toList.any fun f => match f.job with
    | some j => j.fn == fn && j.mould == id && f.tchans.toList.any (·.active.isSome)
    | none => false

/-- A step ends with a status. It takes effect on a Tongs channel at a descriptor boundary (R102): active descriptors complete
first, and one whose bytes still have to move holds the end of the step. -/
def State.endStep (s : State) (fn : FnId) (id : BitVec 64) (st : Status) (restore : Bool := false) : State :=
  match ((s.fns[fn]).mould? id).bind (·.run) with
  | none => s
  | some r =>
    if r.status.isSome then s
    else
      let s := s.finishActives fn id
      if s.descActive fn id then
        { s with forges := s.forges.map fun (f : Forge) => match f.job with
            | some j => if j.fn == fn && j.mould == id then f.ending else f
            | none => f }.modRun fn id fun r => { r with status := some (st, restore) }
      else s.closeStep fn id st restore

/-- The end of a step is due once its last active descriptor has completed. -/
def State.endDue (s : State) (fn : FnId) (id : BitVec 64) : State :=
  match (((s.fns[fn]).mould? id).bind (·.run)).bind (·.status) with
  | some x => if s.descActive fn id then s else s.closeStep fn id x.1 x.2
  | none => s

/-! ### Anneals (R45, R305, R308) -/

/-- A step whose work is done and whose last heat is in doubt has nothing to run again (R302). -/
def Fn.workDone (f : Fn) (m : Mould) : Bool := (f.stepHeats m.id).any fun (p : Fin 32 × Heat) => match p.2.origin with
  | .step _ b => p.2.state == HeatState.prepared && m.lastBound b
  | _ => false

/-- A step is stopped and runs again from its last committed boundary, with no anneal (Table PLIN-8). -/
def State.replay (s : State) (fn : FnId) (id : BitVec 64) : State :=
  match (s.fns[fn]).mould? id with
  | none => s
  | some m => match m.run with
    | none => s
    | some r =>
      if r.rerun || r.status.isSome || (s.fns[fn]).workDone m then s
      else ((s.stopStep fn id true).modRun fn id fun r => { r with rerun := true }).modFn fn fun f => { f with replays := inc32 f.replays }

/-- An attempt of a step that an anneal ends: it is run again at most 3 times (R308). -/
def State.annealStep (s : State) (fn : FnId) (id : BitVec 64) (rank : Nat) : State :=
  match (s.fns[fn]).mould? id with
  | none => s
  | some m =>
    match m.run with
    | none => s
    | some r =>
      if r.rerun || (s.fns[fn]).workDone m then s
      else if let some x := r.status then s.closeStep fn id x.1 x.2
      else
        let s := s.stopStep fn id true
        let s := s.modMould fn id fun m => { m with attempts := m.attempts + 1, lastStatus := Status.annealed.code }
        let s := s.log 0x0301 (some fn) rank (toLe 8 id.toNat ++ toLe 4 r.index)
        if 3 ≤ r.attempts then s.closeStep fn id .annealed
        else (s.modRun fn id fun r => { r with rerun := true, attempts := r.attempts + 1 }).modFn fn fun f =>
          { f with replays := inc32 f.replays }

/-- The open windows of a function close (R96). -/
def State.closeWindows (s : State) (fn : FnId) : State :=
  { s with forges := s.forges.map fun f => { f with windows := f.windows.filter (·.fn != fn) } }

/-- Command heats of a function are scrapped with a status that their HEAT_END gives (R290). -/
def State.scrapCmdHeats (s : State) (fn : FnId) (st : Status) : State :=
  ((s.fns[fn]).cmdHeats).foldl (fun s (c : CmdHeat) =>
    match c.slot with
    | some i => (s.scrapHeat fn i st).modFn fn fun f =>
        { f with cmdHeats := updateFirst (fun x : CmdHeat => x.ring == c.ring) (fun x => { x with slot := none, scrapped := some st }) f.cmdHeats }
    | none => s) s

/-- Heats that are still open are scrapped; a command whose heat was in its commit phase replies ANNEALED (R290, R305). -/
def State.scrapOpen (s : State) (fn : FnId) : State :=
  (List.finRange 32).foldl (fun s i =>
    match (s.fns[fn]).heat i with
    | some h => if h.state == HeatState.open_ then
        match h.reply with
        | some x => (s.scrapStepHeat fn i .annealed).finish x.1 x.2.1 .annealed
        | none => s.scrapStepHeat fn i .annealed
      else s
    | none => s) s

/-- Commands that an anneal of the function ends (R305): not the runs, whose steps run again, nor the commands that wait
for an end or answer for a heat themselves. -/
def Op.annealEnds : Op → Bool
  | .runStep | .runSteps | .haltRun | .closeSession | .heatEnd | .quiesce | .disableFunction | .enableFunction => false
  | _ => true

def State.endFlights (s : State) (p : Flight → Bool) (st : Status) : State :=
  (s.flights.filter p).foldl (fun s f => s.finish f.op f.cmd st) s

/-- Result entries that a unit instruction writes: the first and the number (Table PLIN-4). -/
def UInstr.entries (i : UInstr) : Nat × Nat :=
  let f := fun o n => bits i.word.toNat (8 * o) (8 * n)
  if f 0 1 = 1 && !bit (f 1 1) 1 then (f 16 4, f 8 2 * (bits (f 3 1) 0 6 + 1)) else (0, 0)

/-- The lines of a result area that hold those entries. -/
def UInstr.lines (i : UInstr) : List (FnId × Nat) :=
  if i.entries.2 = 0 then []
  else (List.range ((i.entries.1 + i.entries.2 + 31) / 32 - i.entries.1 / 32)).map fun k => (i.fn, i.entries.1 / 32 + k)

/-- Instructions of a chain that have been accepted and have not released their results. -/
def Chain.instrs (c : Chain) : List UInstr := (c.compute.toList ++ c.access.toList).map (·.instr) ++ c.queue

/-- The instructions of the running scan leave a chain. -/
def Chain.dropScan (c : Chain) : Chain :=
  { c with queue := c.queue.filter (·.scan.isNone), access := c.access.filter (·.instr.scan.isNone)
           compute := c.compute.filter (·.instr.scan.isNone) }

/-- A scan whose instruction was discarded starts again on the Plinth from its first row (R280). -/
def Plinth.restartScan (p : Plinth) : Plinth :=
  { p with chains := p.chains.map Chain.dropScan, scanTodo := p.scanAll, topk := [], rowsScored := 0, agg := 0 }

/-- PLINTH_MODE as R264 sets it: a group that an installed program or the running scan names, or one still set whose
chains are not empty. On each change every register file is zero (R270), and the operand slices of functions that no installed
program serves are cleared. -/
def Plinth.fixCompute (p : Plinth) : Plinth :=
  let named := ((p.progs.map fun g => (g.instrs.filter fun w => bits w.toNat 0 8 != 0).map unitDevice).flatten) ++ p.scanAll.map fun x => unitDevice x.2.word
  let want := (List.range 6).foldl (fun (m : BitVec 6) (d : Nat) =>
    let busy := p.compute.getLsbD d && (List.range 2).any fun h => match p.chains[2 * d + h]? with
      | some c => !c.instrs.isEmpty
      | none => false
    if named.contains d || busy then m ||| (1#6 <<< d) else m) 0
  if want = p.compute then p
  else { p with compute := want, chains := p.chains.map fun (c : Chain) => { c with regs := [] }
                operands := p.operands.filter fun x => p.progs.any fun g => g.fn.val == x.1 / 65536 }

/-- What a Plinth holds of a function goes: its programs, accepted instructions, operand slice, results. -/
def Plinth.dropFn (p : Plinth) (fn : FnId) : Plinth :=
  ({ p with
    progs := p.progs.filter (·.fn != fn)
    chains := p.chains.map fun (c : Chain) => { c with
      queue := c.queue.filter (·.fn != fn), access := c.access.filter (·.instr.fn != fn)
      compute := c.compute.filter (·.instr.fn != fn), failed := c.failed.filter (·.1 != fn) }
    operands := p.operands.filter fun c => c.1 / 65536 != fn.val
    results := p.results.filter fun c => c.1 / 262144 / 12 != fn.val
    valid := p.valid.filter fun v => v / 64 / 12 != fn.val } : Plinth).fixCompute

/-- Scans of a function stop without a list. -/
def State.dropScans (s : State) (fn : FnId) : State :=
  let s := s.modFn fn fun f => { f with scans := [] }
  { s with plinths := s.plinths.map fun (p : Plinth) =>
      match p.scan with
      | some x =>
        if x.1 == fn then
          ({ p with scan := none, topk := [], rowsScored := 0, agg := 0, scanTodo := [], scanAll := [], scanSlices := 0, scanQ := [], scanBits := []
                    chains := p.chains.map Chain.dropScan } : Plinth).fixCompute
        else p
      | none => p }

/-- What a tenant anneal scraps and resets (R305): every OPEN heat, the runs, the windows, the tags of every mould. -/
def State.tenantReset (s : State) (fn : FnId) (rank : Nat) : State :=
  let s := ((s.fns[fn]).moulds).foldl (fun s (m : Mould) => s.annealStep fn m.id rank) s
  let s := (s.scrapCmdHeats fn .annealed).scrapOpen fn
  let s := (s.closeWindows fn).modFn fn fun f =>
    { f with moulds := f.moulds.map fun m => { m with forges := m.forges.map MForge.initial } }
  (s.endFlights (fun f => f.cmd.fn == fn && f.cmd.ring.isSome && f.op.annealEnds) .annealed).dropScans fn

/-- A function that a tenant's frames or moulds make a user of something. -/
def State.fnsWith (s : State) (p : Fn → Bool) : List FnId := (List.finRange 64).filter fun n => p s.fns[n]

/-- Tenants with an installed mould that uses a port (R45): its lists name a peer that the port reaches. -/
def State.portUsers (s : State) (p : PortId) : List FnId :=
  s.fnsWith fun f => f.moulds.any fun m =>
    (m.sends ++ m.recvs).any fun e => (m.portTo e.peer).bind s.physPort == some p

def State.forgeUsers (s : State) (f : ForgeId) : List FnId :=
  s.fnsWith fun x => x.moulds.any fun m => m.forges.any (·.phys == f)

/-- Functions that hold T2 frames on a device of a Plinth. -/
def State.groupUsers (s : State) (n : PlinthId) (dev : Nat) : List FnId :=
  (List.finRange 64).filter fun fn => s.t2.any fun x =>
    x.num % 8 == n.val && (x.num / 8) % 6 == dev && s.frameFn x.use == some fn

/-- The ERROR_SUMMARY record (Table TRST-6); a write that falls due while the supply is low is skipped (R404). -/
def State.errorSummary (s : State) : State :=
  let t1 := (s.near.chans.toList.map fun c => c.ueAddress + c.ueOther).foldl (· + ·) 0
  let t2 := (s.plinths.toList.map (·.ue)).foldl (· + ·) 0
  let hot := s.bell.temps.toList.foldl (fun (m : Int) t => max m t.toInt) (-32768)
  let pl := toLe 8 t1 ++ toLe 8 t2 ++ toLe 8 (s.heatRegs.anneals[6]) ++ toLe 8 s.bell.faults
    ++ toLe 2 (wrapInt 16 hot) ++ List.replicate 30 0
  (s.ledgerWrite 0x0040 0 pl).getD s

/-! ### Units that lose their power (R407, R440) -/

/-- What a forge keeps when its domain is off: its counts, and whether a self-test failed it. -/
def Forge.off (f : Forge) : Forge :=
  { failed := f.failed, anneals := f.anneals, conflictCount := f.conflictCount, slotTimeouts := f.slotTimeouts
    cacheHits := f.cacheHits, cacheMisses := f.cacheMisses, tBytes := f.tBytes, gen := f.gen
    anvil := { specials := f.anvil.specials, saturated := f.anvil.saturated, beats := f.anvil.beats }
    swage := { inBytes := f.swage.inBytes, outBytes := f.swage.outBytes, rawBlocks := f.swage.rawBlocks }
    press := { raw := f.press.raw, stored := f.press.stored, rawBlocks := f.press.rawBlocks }
    chisel := { saturated := f.chisel.saturated, specials := f.chisel.specials, vectors := f.chisel.vectors }
    cruc := { labHits := f.cruc.labHits, labMisses := f.cruc.labMisses, rowsEmpty := f.cruc.rowsEmpty
              rowsInf := f.cruc.rowsInf, rowsNan := f.cruc.rowsNan, scoreSat := f.cruc.scoreSat
              specials := f.cruc.specials, diverts := f.cruc.diverts, records := f.cruc.records
              appends := f.cruc.appends } }

def Plinth.off (p : Plinth) : Plinth :=
  { ceOdecc := p.ceOdecc, ceCheck := p.ceCheck, ue := p.ue, tagFail := p.tagFail, ordWait := p.ordWait
    suspends := p.suspends, instrs := p.instrs, unitAnneals := p.unitAnneals }

def Port.off (p : Port) : Port :=
  { logical := p.logical, fecCorr := p.fecCorr, fecUncorr := p.fecUncorr, retries := p.retries, tagFails := p.tagFails
    creditWait := p.creditWait, discards := p.discards, tx := p.tx }

def Chan.off (c : Chan) : Chan :=
  { trains := c.trains, ce1 := c.ce1, ce2 := c.ce2, ueAddress := c.ueAddress, ueOther := c.ueOther
    retrains := c.retrains, retrainTicks := c.retrainTicks, located := c.located
    state := if c.state == .mappedOut then .mappedOut else .active
    spareRows := c.spareRows, spareCols := c.spareCols }

/-- Everything that the switched domains other than PCIe and Smith hold is lost: T1, T2, Hearth, every function, every
key outside the spine. -/
def State.dark (s : State) : State :=
  { s with
    fns := Vector.ofFn fun n => { partition := n }
    forges := s.forges.map Forge.off
    plinths := s.plinths.map Plinth.off
    ports := Vector.ofFn fun p : Fin 8 => { (s.ports[p]).off with logical := p }
    near := { s.near with chans := s.near.chans.map Chan.off, parts := Vector.replicate 64 {}
                          stks := s.near.stks.map fun k => { k with level := 0, waiting := [] } }
    migr := { s.migr with sel := 0 }
    hearth := [], ram := [], t1 := [], t2 := [], retired := [], models := Vector.replicate 16 none, cache := []
    deferred := [], anneals := [], flights := []
    hall := { s.hall with
      fwRunning := false, identitySlot := false, ledgerSlot := false, pending := Vector.replicate 64 none
      sessions := Vector.replicate 64 [], owner := Vector.replicate 64 none, storage := Vector.replicate 64 none
      modelKeys := Vector.replicate 16 none, plinthKeys := 0, image := none, copyLost := false }
    smith := { s.smith with firmware := false, coreUp := 1, heldFwLoad := none, event7 := false } }

/-- The fault state (R417): PCIe and Smith stay on, the mask ROM serves the admin ring, and the loss is logged. -/
def State.enterFault (s : State) (cause : Nat) : State :=
  if s.faulted || !s.bell.spine then s
  else
    let s := s.endFlights (fun _ => true) .annealed
    let s := { s.dark with
      bell := { s.bell with faultCause := BitVec.ofNat 4 cause, faults := s.bell.faults + 1, domOn := (1#100 <<< 96) ||| (1#100 <<< 97) } }
    let s := { s with smith := { s.smith with faultService := true } }
    (s.errorSummary).log 0x0003 none 0 [BitVec.ofNat 8 cause]

/-- Count an anneal of a rank (Table HEAT-12). -/
def State.countAnneal (s : State) (rank : Fin 7) : State :=
  { s with heatRegs := { s.heatRegs with anneals := vmod s.heatRegs.anneals rank inc32 } }
def State.countFail (s : State) (rank : Fin 7) : State :=
  { s with heatRegs := { s.heatRegs with fails := vmod s.heatRegs.fails rank inc32 } }

def State.annealing (s : State) (u : AnnealUnit) : Bool := s.anneals.any (·.unit == u)

def State.addAnneal (s : State) (u : AnnealUnit) (cause : Nat) : State :=
  { s with anneals := s.anneals ++ [{ unit := u, cause }] }

/-- Heat state is rebuilt from the journals (R302, R305): a heat whose records hold COMMIT is folded, one PREPARED stays in
doubt, and no other is left. -/
def State.rebuildHeats (s : State) : State :=
  (List.finRange 64).foldl (fun s fn => (List.finRange 32).foldl (fun s i => match (s.fns[fn]).heat i with
    | none => s
    | some h => match journalState (((s.fns[fn]).records i h.number).map JRec.bytes) with
      | some .committed => s.foldHeat fn i
      | some _ => s
      | none => s.scrapStepHeat fn i .annealed) s) s

/-- The step that a mould runs now is the one named (R280). -/
def State.atStep (s : State) (fn : FnId) (x : BitVec 64 × Nat) : Bool :=
  match ((s.fns[fn]).mould? x.1).bind (·.run) with
  | some r => r.index == x.2
  | none => false

/-- In a device anneal the ports that are up anneal too, repairs and retrains that wait are given up, and Smith's latches are empty. -/
def State.stopLinks (s : State) : State :=
  { s with ports := s.ports.map fun (q : Port) => if q.state == PortState.up then ({ q with state := .annealing } : Port) else q
           near := { s.near with
             stks := s.near.stks.map fun (k : Stack) => { k with waiting := [] }
             chans := s.near.chans.map fun (c : Chan) => if c.holder.isSome then ({ c with state := .active, holder := none } : Chan) else c }
           smith := { s.smith with latches := [] } }

/-- Forges and Plinth units are reset. -/
def State.stopEngines (s : State) : State :=
  { s with forges := s.forges.map Forge.annealed
           plinths := s.plinths.map fun (p : Plinth) => ({ p with chains := p.chains.map fun (c : Chain) => { failed := c.failed } } : Plinth).fixCompute }

/-- The Hallmark domain is reset: the slots are wrapped before it, and the DRBG is seeded again (R388, R390). -/
def State.restartHall (s : State) : State :=
  s.modHall fun h => { h.keep with copyLost := false, reseeds := inc32 h.reseeds, requests := 0 }

/-- What the anneal of a unit scraps and resets (Table HEAT-9). -/
def State.annealScrap (s : State) (u : AnnealUnit) : State :=
  match u with
  | .lane p l => s.modPort p fun q => { q with retraining := q.retraining ||| (1#16 <<< l.val), evAnnealed := true }
  | .port p => s.modPort p fun q => { q with state := .annealing, evAnnealed := true }
  | .channel c => s.modChan c fun x => { x with state := .retraining }
  | .plinthUnit n c =>
    let ch := (s.plinths[n]).chains[c]
    let steps := (ch.instrs.filterMap fun i => i.step.map fun x => (i.fn, x)).eraseDups
    let s := steps.foldl (fun s x => if s.atStep x.1 x.2 then s.annealStep x.1 x.2.1 4 else s) s
    (s.modPlinth n fun p =>
      let p := if ch.instrs.any (·.scan.isSome) then p.restartScan else p
      ({ p with chains := p.chains.set c { failed := (ch.failed ++ (ch.instrs.map (·.lines)).flatten).eraseDups, ordQ := ch.ordQ, due := ch.due }
                unitAnneals := satAdd 16 p.unitAnneals 1 } : Plinth).fixCompute).log 0x0804 none n.val [BitVec.ofNat 8 c.val]
  | .forge f =>
    let s := match (s.forges[f]).job with
      | some j => s.annealStep j.fn j.mould 5
      | none => s
    let s := s.modForge f Forge.annealed
    { s with fns := s.fns.map fun (x : Fn) => { x with moulds := x.moulds.map fun (m : Mould) =>
        { m with forges := m.forges.map fun (mf : MForge) => if mf.phys == f then mf.initial else mf } } }
  | .tenant fn => s.tenantReset fn 6
  | .device =>
    let s := ((List.finRange 64).foldl (fun s n => s.tenantReset n 7) s).rebuildHeats
    (s.dropCache.stopLinks.endFlights (fun f => f.op.annealEnds) .annealed).stopEngines.restartHall.errorSummary

/-- Begin the anneal of a unit (R45); the cause is the feature code of the timeout that began it, else 0. A device that
booted degraded goes straight to the fault state (Table TRST-2). -/
def State.anneal (s : State) (u : AnnealUnit) (cause : Nat := 0) : State :=
  if s.faulted || !s.bell.spine || s.annealing u then s
  else if u == .device && s.hall.t1Degraded then (s.countAnneal 6).enterFault 1
  else ((s.countAnneal u.rank).annealScrap u).addAnneal u cause

/-- The tenants of an anneal that follows a failed one. With no tenant the device is annealed: Table TIME-7 says so of a port and
of a Plinth unit, and says nothing of a forge that no mould uses (DESIGN CHOICE, log 163). -/
def State.annealAll (s : State) (us : List FnId) (cause : Nat) : State :=
  if us.isEmpty then s.anneal .device cause else us.foldl (fun s fn => s.anneal (.tenant fn) cause) s

/-! ### Lanes of a port (R353) -/

/-- Lanes that show none of codes 0x1, 0x2, 0x3 and 0x6 of Table GRIZ-4, ascending. -/
def Port.goodLanes (q : Port) : List (Fin 16) := (List.finRange 16).filter fun l => !([1, 2, 3, 6].contains (q.codes[l]).toNat)

/-- The width for so many good lanes. -/
def portWidth (n : Nat) : Nat := if 16 ≤ n then 16 else if 8 ≤ n then 8 else if 4 ≤ n then 4 else 0

/-- The width that the good lanes of both directions allow. -/
def Port.bestWidth (q : Port) : Nat := portWidth (min q.goodLanes.length q.far)

/-- The lowest-numbered good lanes carry the logical lanes; the other good lanes stay idle. -/
def Port.useLanes (q : Port) : Port :=
  let w := q.bestWidth
  let idle := q.goodLanes.drop w
  { q with width := w
           lanes := (q.goodLanes.take w).foldl (fun (b : BitVec 16) l => b ||| (1#16 <<< l.val)) 0
           codes := Vector.ofFn fun l => if idle.contains l then 7 else if q.codes[l] == 7 then 0 else q.codes[l] }

/-- Side A of R355: the identity key digest of this module is the lower. -/
def State.sideA (s : State) (p : PortId) : Bool :=
  (sha256 (digestBytes identityKey)).toNat < (s.ports[p]).partnerKey.toNat

/-- The exchange of bring-up or of a port anneal gives a port new keys (R355, R356). -/
def State.rekeyPort (s : State) (p : PortId) : State :=
  let (n, s) := s.draw
  s.modPort p fun q => q.rekeyed (s.sideA p) (Config.linkExchange n).1 (Config.linkExchange n).2

/-- A window through which a partner is reached. -/
def Window.reaches (w : Window) (q : Port) : Bool :=
  w.peer == q.partnerChip.toNat && w.digest == BitVec.ofNat 64 (leNat ((digestBytes q.partnerKey).take 8))

/-- A port is fenced under a case of R357: its windows close, and the fault is logged for the device and for each
function whose moulds use the port. -/
def State.fence (s : State) (p : PortId) (kase : Nat) : State :=
  let q := s.ports[p]
  let users := s.portUsers p
  let data := toLe 2 q.partnerChip.toNat ++ [BitVec.ofNat 8 kase]
  let s := { s with
    anneals := s.anneals.filter fun (a : AnnealRun) => match a.unit with
      | .lane p' _ => p' != p
      | .port p' => p' != p
      | _ => true
    forges := s.forges.map fun (f : Forge) => { f with windows := f.windows.filter fun w => !w.reaches q } }
  let s := s.modPort p fun q => { q with state := .fenced, evFenced := true, width := 0, lanes := 0, retraining := 0
                                         again := false, keyed := false, rekey := 0, resume := none, buffer := [], unacked := 0, backlog := 0 }
  users.foldl (fun s fn => s.log 0x0604 (some fn) p.val data) (s.log 0x0604 none p.val data)

/-- The anneal that follows one that failed (Table TIME-7). -/
def State.escalate (s : State) (r : AnnealRun) : State :=
  let s := { s with anneals := s.anneals.filter (·.unit != r.unit) }
  let s := s.countFail r.unit.rank
  match r.unit with
  | .lane p l =>
    let s := (s.modPort p fun q => { q with
      lanes := q.lanes &&& ~~~(1#16 <<< l.val), codes := q.codes.set l 6 }).log 0x0602 none p.val [BitVec.ofNat 8 l.val]
    s.anneal (.port p) r.cause
  | .port p => (s.modPort p fun q => { q with
      state := .down, lanes := 0, width := 0, keyed := false, retraining := 0, again := false }).annealAll (s.portUsers p) r.cause
  | .channel _ => s.anneal .device r.cause
  | .plinthUnit n c => s.annealAll (s.groupUsers n (c.val / 2)) r.cause
  | .forge f => s.annealAll (s.forgeUsers f) r.cause
  | .tenant _ => s.anneal .device r.cause
  | .device => (s.log 0x0002 none 0 (toLe 2 r.cause ++ [1])).enterFault 1

/-! ### Anneals that end (R305) -/

/-- After a device anneal the ports are authenticated and keyed again, unless an anneal of their own still runs. -/
def State.reopenPorts (s : State) : State :=
  (List.finRange 8).foldl (fun s p =>
    if (s.ports[p]).state == .annealing && !s.annealing (.port p) then (s.modPort p fun q => { q with state := .up, resume := none }).rekeyPort p
    else s) s

/-- An anneal has completed within its bound and the unit resumes (R305). -/
def State.annealDone (s : State) (r : AnnealRun) : State :=
  let s := { s with anneals := s.anneals.filter (·.unit != r.unit) }
  match r.unit with
  | .lane p l => s.modPort p fun q => { q with retraining := q.retraining &&& ~~~(1#16 <<< l.val) }
  | .port p =>
    let q := s.ports[p]
    let w := q.bestWidth
    if w = 0 then s.escalate r
    else
      let s := (s.modPort p fun q => ({ q with state := .up, retraining := 0, expiries := 0, again := false } : Port).useLanes).rekeyPort p
      if w < q.width then
        (s.modPort p fun q => { q with evDegraded := true }).log 0x0603 none p.val [BitVec.ofNat 8 w]
      else s
  | .channel c => s.trained c
  | .device =>
    if s.hall.copyLost then (s.hallErr .integrity 6 0).enterFault 3
    else s.reopenPorts.resendDecisions.log 0x0002 none 0 (toLe 2 r.cause ++ [0])
  | _ => s

/-! ### The end of a function (R312, R227) -/

/-- Models of which a function is the publisher. -/
def State.modelsOf (s : State) (fn : FnId) : List (Fin 16) :=
  (List.finRange 16).filter fun m => match s.models[m] with
    | some x => x.publisher == fn
    | none => false

/-- A shared model goes: its mappings with the index spans that served nothing else, its frames and its key (R225, R397,
Table TRST-9). -/
def State.dropModel (s : State) (m : Fin 16) : State :=
  let gone := fun (f : Fn) => ({ f with spans := f.spans.filter (·.model != some m) } : Fn)
  let served := (List.finRange 64).map fun fn => (fn, (((s.fns[fn]).spans.filter (·.model == some m)).map (·.num / 256)).eraseDups)
  let s := { s with
    fns := s.fns.map gone
    t1 := s.t1.filter fun (x : Frame) => match x.use with | .model m' _ => m' != m | _ => true
    t2 := s.t2.filter fun (x : Frame) => match x.use with | .model m' _ => m' != m | _ => true
    models := s.models.set m none
    hall := { s.hall.keep with modelKeys := s.hall.modelKeys.set m none } }
  served.foldl (fun (s : State) x => x.2.foldl (fun (s : State) k => (s.fixIndex x.1 k).getD s) s) s

/-- Events 5 and 6 of R312: windows, moulds, sessions, keys and frames of the function go. -/
def State.endFunction (s : State) (fn : FnId) (st : Status) : State :=
  let s := (s.modelsOf fn).foldl State.dropModel s
  let s := (s.closeWindows fn).dropScans fn
  let old := s.fns[fn]
  let s := { s with
    forges := s.forges.map fun (f : Forge) =>
      let f := { f with winWait := f.winWait.filter (·.win.fn != fn) }
      match f.job with
      | some j => if j.fn == fn then f.idle else f
      | none => f
    fns := s.fns.set fn { partition := old.partition, commits := old.commits
                          scraps := old.scraps, replays := old.replays, stallMisses := old.stallMisses
                          stallTicks := old.stallTicks, diverts := old.diverts, causes := old.causes }
    ram := s.ram.filter fun c => c.1 / 2 ^ 48 != fn.val
    t1 := s.t1.filter fun x => x.use.fn? != some fn
    t2 := s.t2.filter fun x => x.use.fn? != some fn
    cache := s.cache.filter (·.fn != fn)
    plinths := s.plinths.map fun (p : Plinth) => p.dropFn fn
    hall := { s.hall.keep with pending := s.hall.pending.set fn none, sessions := s.hall.sessions.set fn []
                               owner := s.hall.owner.set fn none, storage := s.hall.storage.set fn none } }
  let s := s.modHost fn fun h => { h with
    enabled := false, quiescing := false
    rings := h.rings.map fun (q : Ring) => { q with enable := false, active := false, unsignalled := 0, done := [] } }
  s.log 0x0102 (some fn) 0 (toLe 2 st.code)

/-- Scrap the PREPARED heats of a function, logging each (R312, R361). A step that waited for one ends with it. -/
def State.scrapPrepared (s : State) (fn : FnId) : State :=
  (List.finRange 32).foldl (fun s i =>
    match (s.fns[fn]).heat i with
    | some h => if h.state == HeatState.prepared then
        (s.scrapStepHeat fn i .annealed).log 0x0304 (some fn) i.val (toLe 8 h.number) else s
    | none => s) s

/-! ### Commands that wait for an end -/

/-- Whether earlier commands of the session have not yet written their final replies (R333). -/
def State.sessionBusy (s : State) (k : Cmd) : Bool :=
  (s.flights.any fun f => f.cmd.fn == k.fn && f.cmd.isSealed && f.cmd.session == k.session && f.cmd != k) ||
    ((List.finRange 64).any fun r => ((s.host[k.fn]).rings[r]).done.any fun x => x.sealed_ && x.session == k.session)

/-- A mould has nothing queued or running, and no heat in doubt of a halted step (R337). -/
def Fn.mouldIdle (f : Fn) (id : BitVec 64) : Bool :=
  match f.mould? id with
  | some m => m.queue.isEmpty && m.run.isNone
  | none => true

/-- The function has no command, no reply, no window request and no PREPARED heat left (R96): events 3 and 4 of R312 are over. An FLR waits for
no reply, since it writes none; a ring that an FLR has reset writes none either. -/
def State.quiet (s : State) (fn : FnId) (flr : Bool) : Bool :=
  !(s.flights.any fun f => f.cmd.fn == fn && f.cmd.ring.isSome) && !(s.fns[fn]).running && (s.fns[fn]).inDoubt == 0 &&
    !(s.forges.toList.any fun f => f.winWait.any (·.win.fn == fn)) && (s.fns[fn]).scans.isEmpty && (flr || (List.finRange 64).all fun r => !((s.host[fn]).rings[r]).active || ((s.host[fn]).rings[r]).done.isEmpty)

/-- The disable of a function completes (R312, R313). -/
def State.completeDisable (s : State) (k : Cmd) (fn : FnId) (annealed flr : Bool) : State :=
  let st := if annealed then Status.annealed else Status.ok
  let s := s.endFunction fn st
  let s := { s with deferred := s.deferred.map fun (d : Deferred) => match d with
    | .heldEnable k' fn' r a => if fn' == fn then .heldEnable k' fn' true annealed else .heldEnable k' fn' r a
    | d => d }
  if flr then s else s.finish .disableFunction k st

/-- One waiting command: complete it when what it waits for has ended; one that has replied otherwise waits no more. -/
def State.settleOne (s : State) (d : Deferred) : State :=
  let gone := { s with deferred := s.deferred.filter (· != d) }
  match d with
  | .quiesce k fns a =>
    if fns.all fun fn => !(s.fns[fn]).active && !((s.fns[fn]).scans.any (·.started)) then
      gone.finish .quiesce k (if a then .annealed else .ok)
    else s
  | .disable k fn a flr => if s.quiet fn flr then gone.completeDisable k fn a flr else s
  | .heldEnable _ _ _ _ => s
  | .halt k fn id =>
    if !s.flights.any (·.isOf .haltRun k) then gone
    else if (s.fns[fn]).mouldIdle id then gone.finish .haltRun k .ok else s
  | .closeSession k =>
    if !s.flights.any (·.isOf .closeSession k) then gone
    else if s.sessionBusy k then s else gone.finish .closeSession k .ok
  | .closeWindow k f handle =>
    if !s.flights.any (·.isOf .windowClose k) then gone
    else if (s.forges[f]).winWait.any fun w => 16 * f.val + w.win.index.val == handle then s else gone.finish .windowClose k .ok

/-- Complete every waiting command whose wait is over, in order of arrival. -/
def State.settle (s : State) : State := s.deferred.foldl State.settleOne s

end Sys2Proof.Machine
end

