-- ==== Sys2Proof/Machine/Command.lean ====
section
/-! DEFINITION. How the body of a host command runs: its turn, its acceptance, the gates a command heat closes, and the
checks of its parameters. -/

namespace Sys2Proof.Machine

/-- Run the body of a host command. One in flight runs when its turn has come; one that was not fetched before is
accepted by this very step, where the device fetches from its ring (log 5). A body that must wait leaves the command in
flight, and the command given again goes on (log 5). -/
def hostCmd (op : Op) (k : Cmd) (body : State → State) (s : State) : Res :=
  let run := fun s : State =>
    if s.turn op k then body s else s
  if s.flights.any (·.isOf op k) then .next (run s).settle
  else if !s.fetches k.fn k.ring then .next s
  else match acceptStatus s op k with
    | some st => .next ((s.modRing k.fn k.ring Ring.passEntry).refuseAccept op k st)
    | none => .next (run (s.takeNow op k)).settle

/-- An accepted command of a function in the function fault, or on a ring with a command heat (R289, R290, R311). -/
def gated (op : Op) (k : Cmd) (body : State → State) (s : State) : State :=
  if k.ring.isSome && s.fns[k.fn].fault then s.finish op k .integrity
  else match heatGate s op k with
    | some st => s.finish op k st
    | none => body s

/-- Checks 10 and 11: parameters, lengths and OUT_CAP, then the payload's read (R329, R442); then what a command that passed
them meets. -/
def checked (op : Op) (k : Cmd) (ok : Bool) (outLen : Nat) (body : State → State) (s : State) : State :=
  if !(ok && outLen ≤ k.outCap.toNat) then (s.unspend k).finish op k .badParam
  else if k.payloadErr then (s.unspend k).finish op k .hostFault
  else gated op k body s

/-- A command with no payload, whose parameter block holds nothing outside the listed (offset, length) fields. -/
def plain (k : Cmd) (fields : List (Nat × Nat)) : Bool := zeroOutside k.p 32 fields && k.len == 0

/-- One random value is drawn: its draw number, with the reseed after 2^20 requests (R388). -/
def State.drbg (s : State) : Nat × State :=
  let (n, s) := s.draw
  (n, s.modHall fun h =>
    if h.requests + 1 < 2 ^ 20 then { h with requests := h.requests + 1 }
    else { h with requests := 0, reseeds := inc32 h.reseeds })

def execReplyWrite (fn : FnId) (ring : Option RingId) (payloadErr replyErr : Bool) (s : State) : Res :=
  .next (replyWrite fn ring payloadErr replyErr s).settle

end Sys2Proof.Machine
end

