-- ==== Sys2Proof/Machine/Admin.lean ====
section
/-! DEFINITION. Commands of the operator and of the control path: NOP, IDENTIFY, QUIESCE, enabling and disabling,
sessions, partitions, self-tests, power domains, the cap, temperatures and the event ring (R331 to R344, R404 to R424). -/

namespace Sys2Proof.Machine

/-! ### NOP, IDENTIFY -/

def nop (k : Cmd) (s : State) : State :=
  checked .nop k (plain k []) 0 (fun s => s.finish .nop k .ok) s

def execNop (k : Cmd) (s : State) : Res := hostCmd .nop k (nop k) s

/-- Usable T1 in units of 0.5 GiB (R244). -/
def State.t1Usable (s : State) : Nat := 512 - (s.near.mapouts.filter (!·.2)).length

/-- Usable T2 frames: those of powered Plinths, less the retired ones (R279, R409). -/
def State.t2Usable (s : State) : Nat :=
  12288 * ((List.range 8).filter fun n => s.domOn (80 + n)).length
    - (s.retired.filter fun f => s.domOn (80 + f % 8)).length

/-- FW_VERSION, SVN and KEY_INDEX of the loaded image (Table TRST-7). -/
def Hallmark.fwVersion (h : Hallmark) : Nat := (h.image.map fun x => u x.manifest 0x10 4).getD 0
def Hallmark.svn (h : Hallmark) : Nat := (h.image.map fun x => u x.manifest 0x0C 4).getD 0
def Hallmark.keyIndex (h : Hallmark) : Nat := (h.image.map fun x => u x.manifest 6 1).getD 0

/-- FW_DIGEST of the running firmware (R335, R385). -/
def State.fwDigest (s : State) : List Byte :=
  match s.hall.image with
  | some x => if s.hall.fwRunning then digestBytes (sha256 x.manifest) else List.replicate 32 0
  | none => List.replicate 32 0

/-- The IDENTIFY structure (Table CMND-11). -/
def identifyBytes (s : State) (fn : FnId) : List Byte :=
  fit 4096 (fit 16 (ascii "TPD1-M448") ++ bvBytes 2 Config.stepping ++ toLe 2 s.chipId
    ++ toLe 4 (if s.hall.fwRunning then s.hall.fwVersion else 0)
    ++ toLe 1 s.poweredForges.length ++ toLe 1 fn.val ++ toLe 2 s.t1Usable ++ toLe 4 s.t2Usable
    ++ toLe 1 s.pcie.width ++ toLe 1 s.pcie.rate ++ toLe 2 s.pcie.vfs ++ List.replicate 4 0 ++ s.fwDigest)

def identify (k : Cmd) (s : State) : State :=
  checked .identify k (plain k []) 4096 (fun s => s.finish .identify k .ok 0 (identifyBytes s k.fn)) s

def execIdentify (k : Cmd) (s : State) : Res := hostCmd .identify k (identify k) s

/-! ### QUIESCE (R332) -/

/-- Functions that QUIESCE names. -/
def namedFns (n : Nat) : List FnId :=
  if n = 0xFF then List.finRange 64 else (List.finRange 64).filter (·.val == n)

def State.holdGates (s : State) (fns : List FnId) (held : Bool) : State :=
  fns.foldl (fun s fn => s.modFn fn fun f => { f with held }) s

def quiesceHold (k : Cmd) (s : State) : State :=
  let s := s.holdGates (namedFns (u k.p 0 1)) true
  if s.deferred.any fun d => match d with | .quiesce k' _ _ => k' == k | _ => false then s
  else { s with deferred := s.deferred ++ [.quiesce k (namedFns (u k.p 0 1)) false] }

def quiesceRelease (k : Cmd) (s : State) : State :=
  (s.holdGates (namedFns (u k.p 0 1)) false).finish .quiesce k .ok

def quiesce (k : Cmd) (s : State) : State :=
  let f := u k.p 0 1
  checked .quiesce k (plain k [(0, 2)] && (f < 64 || f = 0xFF) && u k.p 1 1 < 2) 0
    (fun s => if u k.p 1 1 = 0 then quiesceHold k s else quiesceRelease k s) s

def execQuiesceHold (k : Cmd) (s : State) : Res := hostCmd .quiesce k (quiesce k) s
def execQuiesceRelease (k : Cmd) (s : State) : Res := hostCmd .quiesce k (fun s => quiesce k s) s

/-! ### Enabling and disabling (R312, R313) -/

def fnOf (n : Nat) : Option FnId := if h : n < 64 then some ⟨n, h⟩ else none

def State.heldFor (s : State) (fn : FnId) : Bool :=
  s.deferred.any fun d => match d with | .heldEnable _ f _ _ => f == fn | _ => false

/-- The function becomes enabled: its heat area and its storage key (R296, Table TRST-9). -/
def State.enable (s : State) (fn : FnId) : Option State :=
  (s.allocT1 fn (.heatArea fn) 8).map fun s =>
    let (n, s) := s.drbg
    let s := s.drbg.2.drbg.2.modHall fun h => { h.keep with storage := h.storage.set fn (some (StoreKey.drawn n)) }
    (s.modHost fn fun h => { h with enabled := true }).log 0x0101 (some fn)

def enableNow (k : Cmd) (fn : FnId) (final : Status) (s : State) : State :=
  match s.enable fn with
  | none => s.finish .enableFunction k .noSpace
  | some s => s.finish .enableFunction k final

/-- The interim reply of a held enable: QUIESCING, unsealed, with no payload (R313, R324). -/
def State.interim (s : State) (k : Cmd) : State :=
  s.pushReply k { op := .enableFunction, seq := k.seq, status := .quiescing, interim := true, queue := k.queue, outAddr := k.outAddr }

/-- A flight passes to the background (R340). -/
def State.toBackground (s : State) (op : Op) (k : Cmd) : State :=
  { s with flights := updateFirst (·.isOf op k) (fun f => { f with background := true }) s.flights }

def enableFunction (k : Cmd) (s : State) : State :=
  checked .enableFunction k (plain k [(0, 1)] && u k.p 0 1 < 64 && u k.p 0 1 ≤ s.pcie.vfs) 0
    (fun s => match fnOf (u k.p 0 1) with
      | none => s.finish .enableFunction k .badParam
      | some fn =>
        if s.hall.t1Degraded then s.finish .enableFunction k .notPermitted
        else if s.host[fn].quiescing then
          if s.heldFor fn then s.finish .enableFunction k .busy
          else (({ s with deferred := s.deferred ++ [Deferred.heldEnable k fn false false] } : State).interim k).toBackground .enableFunction k
        else if s.host[fn].enabled || s.heldFor fn then s.finish .enableFunction k .busy
        else enableNow k fn .ok s) s

def execEnableFunction (k : Cmd) (s : State) : Res := hostCmd .enableFunction k (enableFunction k) s

/-- A held enable of the function whose disable has completed. -/
def Deferred.readyFor (fn : FnId) : Deferred → Bool
  | .heldEnable _ f r _ => f == fn && r
  | _ => false

/-- A held enable proceeds once the disable it waited for has completed (R313). -/
def heldEnableProceed (fn : FnId) (s : State) : State :=
  match s.deferred.find? (·.readyFor fn) with
  | some (.heldEnable k g r a) =>
    enableNow k fn (if a then .annealed else .ok) { s with deferred := s.deferred.filter (· != .heldEnable k g r a) }
  | _ => s

def execHeldEnableProceed (fn : FnId) (s : State) : Res := .next (heldEnableProceed fn s).settle

/-- Events 1 to 3 of R312: new commands give QUIESCING, the gates are held, command heats are scrapped. -/
def State.beginDisable (s : State) (fn : FnId) : State :=
  let s := (s.modHost fn fun h => { h with quiescing := true }).holdGates [fn] true
  s.scrapCmdHeats fn .annealed

def disableFunction (k : Cmd) (s : State) : State :=
  checked .disableFunction k (plain k [(0, 1)] && u k.p 0 1 < 64) 0
    (fun s => match fnOf (u k.p 0 1) with
      | none => s.finish .disableFunction k .badParam
      | some fn =>
        if s.host[fn].quiescing || s.heldFor fn then
          -- a disable given again while it runs goes on waiting
          if s.deferred.any fun d => match d with | .disable k' _ _ _ => k' == k | _ => false then s
          else s.finish .disableFunction k .busy
        else if !s.host[fn].enabled then s.finish .disableFunction k .badParam
        else
          let s := (s.beginDisable fn).toBackground .disableFunction k
          { s with deferred := s.deferred ++ [.disable k fn false false] }) s

def execDisableFunction (k : Cmd) (s : State) : Res := hostCmd .disableFunction k (disableFunction k) s

/-! ### Sessions (R333, R394) -/

def openSession (k : Cmd) (s : State) : State :=
  checked .openSession k (k.len == 0) 0
    (fun s => match s.session? k.fn k.session with
      | none => s.finish .openSession k .notPermitted
      | some x =>
        if x.isOpen then s.finish .openSession k .notPermitted
        else (s.modSession k.fn k.session fun x =>
          { x with isOpen := true, ring := k.ring, mouldKey := toDigest k.p }).finish .openSession k .ok) s

def execOpenSession (k : Cmd) (s : State) : Res := hostCmd .openSession k (openSession k) s

def closeSession (k : Cmd) (s : State) : State :=
  checked .closeSession k (plain k []) 0
    (fun s => if s.deferred.contains (.closeSession k) then s
      else { s with deferred := s.deferred ++ [.closeSession k] }) s

def execCloseSession (k : Cmd) (s : State) : Res := hostCmd .closeSession k (closeSession k) s

/-! ### SET_PARTITION (R250) -/

/-- A mould that uses STALL (R63). -/
def Mould.usesStall (m : Mould) : Bool := m.flags.getLsbD 0 || m.prefetch.any (!·.divert)

/-- A function loses a STALL grant that an installed mould of its uses: the function placed, or another of the partition
(R250; DESIGN CHOICE, log 69). -/
def State.losesGrant (s : State) (part : Fin 64) (fn : FnId) : Bool :=
  (List.finRange 64).any fun g => (g == fn || (s.fns[g]).partition == part) && (s.near.parts[(s.fns[g]).partition]).stall &&
    (s.fns[g]).moulds.any (·.usesStall)

def setPartition (k : Cmd) (s : State) : State :=
  let p := k.p
  checked .setPartition k (plain k [(0, 3), (4, 16)] && u p 0 1 < 64 && u p 1 1 < 64 && u p 2 1 < 4 &&
      1 ≤ u p 4 4 && u p 4 4 ≤ 131072 && 64 ≤ u p 8 4 && u p 8 4 ≤ 65536) 0
    (fun s => match fnOf (u p 0 1), fnOf (u p 1 1) with
      | some part, some fn =>
        let grant := bit (u p 2 1) 0
        if !grant && s.losesGrant part fn then
          s.finish .setPartition k .busy
        else
          let s' := s.modFn fn fun f => { f with partition := part }
          if (u p 12 4 ≠ 0 ∧ u p 12 4 < s'.charged s'.t1 fn) ∨ (u p 16 4 ≠ 0 ∧ u p 16 4 < s'.charged s'.t2 fn) then
            s.finish .setPartition k .noSpace
          else
            (s'.modNear fun n => { n with parts := vmod n.parts part fun x =>
              { x with stall := grant, unlimited := bit (u p 2 1) 1, rate := u p 4 4, burst := u p 8 4
                       t1Limit := u p 12 4, t2Limit := u p 16 4 } }).finish .setPartition k .ok
      | _, _ => s.finish .setPartition k .badParam) s

def execSetPartition (k : Cmd) (s : State) : Res := hostCmd .setPartition k (setPartition k) s

/-! ### Forge domains and the shared cache (R89) -/

/-- Cells of a forge's Hearth go: its rows hold nothing defined any more. -/
def State.dropHearth (s : State) (f : ForgeId) : State :=
  { s with hearth := s.hearth.filter fun c => c.1 / 2 ^ 24 != f.val }

/-- A forge domain goes off. -/
def State.forgeOff (s : State) (f : ForgeId) : State :=
  ((s.modForge f Forge.off).dropHearth f).modBell fun b => { b with domOn := b.domOn &&& ~~~(1#100 <<< f.val) }

/-- A forge domain comes on: its segments in cache mode hold zeros (R89 event 5), its other rows nothing defined. -/
def State.forgeUp (s : State) (f : ForgeId) : State :=
  (s.modForge f fun x => { x.off with gen := x.gen + 1, zeroSeg := s.feat.cacheMask }).modBell fun b =>
    { b with domOn := b.domOn ||| (1#100 <<< f.val) }

/-! ### SELFTEST (R339) -/

/-- An installed mould is assigned to the forge (R47). -/
def State.forgeAssigned (s : State) (f : ForgeId) : Bool := !(s.forgeUsers f).isEmpty

def forgeOf (n : Nat) : Option ForgeId := if h : n < 64 then some ⟨n, h⟩ else none

def selftestForge (k : Cmd) (failing : BitVec 32) (s : State) : State :=
  match forgeOf (u k.p 2 2) with
  | none => s.finish .selftest k .badParam
  | some f =>
    if s.forgeAssigned f then s.finish .selftest k .busy
    else if s.anyRunning then s
    else
      let s := s.dropCache.forgeOff f
      if failing = 0 then ((s.forgeUp f).modForge f fun x => { x with failed := false }).finish .selftest k .ok
      else ((s.modForge f fun x => { x with failed := true }).log 0x0801 none f.val (bvBytes 4 failing)).finish .selftest k .ok
        failing.toNat

def selftestHallmark (k : Cmd) (failing : BitVec 32) (s : State) : State :=
  if failing = 0 then s.finish .selftest k .ok
  else ((s.hallErr .integrity 4 0).log 0x0801 none 0xFFFF (bvBytes 4 failing)).finish .selftest k .ok failing.toNat

def selftest (k : Cmd) (failing : BitVec 32) (s : State) : State :=
  let kind := u k.p 0 1
  checked .selftest k (plain k [(0, 1), (2, 2)] && ((kind = 1 && u k.p 2 2 < 64) || (kind = 2 && u k.p 2 2 = 0))) 0
    (fun s => if kind = 1 then selftestForge k failing s else selftestHallmark k failing s) s

def execSelftestForge (k : Cmd) (failing : BitVec 32) (s : State) : Res := hostCmd .selftest k (selftest k failing) s
def execSelftestHallmark (k : Cmd) (failing : BitVec 32) (s : State) : Res :=
  hostCmd .selftest k (fun s => selftest k failing s) s

/-! ### POWER_DOMAIN_SET (R408, R409) -/

/-- Domains that POWER_DOMAIN_SET names. -/
def domMask (k : Cmd) : BitVec 100 := BitVec.ofNat 100 (u k.p 8 8 + 2 ^ 64 * u k.p 16 8)

/-- Domains that Table POWR-3 switches by command. -/
def commandDoms : BitVec 100 := BitVec.ofNat 100 (2 ^ 96 - 1 - (2 ^ 80 - 2 ^ 64))

def State.plinthBusy (s : State) (n : Nat) : Bool :=
  s.t2.any (·.num % 8 == n) || (List.finRange 64).any fun fn => (s.fns[fn]).moulds.any fun m => m.plinthMask.getLsbD n

def State.portBusy (s : State) (p : PortId) : Bool :=
  (s.ports[p]).state == .up &&
    (!(s.portUsers p).isEmpty ||
     (s.forges.toList.any fun f => f.windows.any fun w => w.reaches s.ports[p]) ||
     (p.val = 0 && (List.finRange 64).any fun fn => (s.fns[fn]).moulds.any fun m => m.flags.getLsbD 1))

def State.plinthUp (s : State) (n : PlinthId) : State :=
  let s := s.modPlinth n fun p => { p.off with linkUp := true, valid := [] }
  let (_, s) := s.drbg
  (s.modHall fun h => { h.keep with plinthKeys := h.plinthKeys ||| (1#8 <<< n.val) }).modBell fun b =>
    { b with domOn := b.domOn ||| (1#100 <<< (80 + n.val)) }

def State.plinthDown (s : State) (n : PlinthId) : State :=
  ((s.modPlinth n Plinth.off).modHall fun h => { h.keep with plinthKeys := h.plinthKeys &&& ~~~(1#8 <<< n.val) }).modBell fun b =>
    { b with domOn := b.domOn &&& ~~~(1#100 <<< (80 + n.val)), halfRate := b.halfRate &&& ~~~(0x3F#48 <<< (6 * n.val)) }

def State.switchDom (s : State) (on : Bool) (d : Nat) : State :=
  if h : d < 64 then (if on then s.forgeUp ⟨d, h⟩ else s.forgeOff ⟨d, h⟩)
  else if h : 80 ≤ d ∧ d < 88 then
    (if on then s.plinthUp ⟨d - 80, by omega⟩ else s.plinthDown ⟨d - 80, by omega⟩)
  else if h : 88 ≤ d ∧ d < 96 then
    let s := s.modBell fun b => { b with domOn := if on then b.domOn ||| (1#100 <<< d) else b.domOn &&& ~~~(1#100 <<< d) }
    if on then s else s.modPort ⟨d - 88, by omega⟩ Port.off
  else s

/-- Refusals of R408 for the domains that would change, in the rule's order. -/
def State.powerRefusal (s : State) (on : Bool) (m : BitVec 100) : Option Status :=
  let forges := bitsSet 64 m.toNat
  let change := (m &&& (if on then ~~~s.bell.domOn else s.bell.domOn)).toNat
  if m &&& ~~~commandDoms != 0 then some .notPermitted
  else if !on && (forges.any fun d => match forgeOf d with | some f => s.forgeAssigned f | none => false) then some .busy
  else if !on && ((List.range 8).any fun n => bit change (80 + n) && s.plinthBusy n) then some .busy
  else if !on && ((List.finRange 8).any fun p : PortId => bit change (88 + p.val) && s.portBusy p) then some .busy
  else if !on && (s.bell.domOn &&& ~~~m).toNat % 2 ^ 64 = 0 then some .badParam
  else none

def powerDomainSet (k : Cmd) (s : State) : State :=
  let on := u k.p 0 1 = 1
  checked .powerDomainSet k (plain k [(0, 1), (8, 16)] && u k.p 0 1 < 2 && u k.p 16 8 < 2 ^ 36) 0
    (fun s =>
      let m := domMask k
      match s.powerRefusal on m with
      | some st => s.finish .powerDomainSet k st
      | none =>
        let change := bitsSet 100 (m &&& (if on then ~~~s.bell.domOn else s.bell.domOn)).toNat
        if (change.any (· < 64)) && s.anyRunning then s
        else
          let s := if change.any (· < 64) then s.dropCache else s
          (change.foldl (fun s d => s.switchDom on d) s).finish .powerDomainSet k .ok change.length) s

def execPowerDomainOn (k : Cmd) (s : State) : Res := hostCmd .powerDomainSet k (powerDomainSet k) s
def execPowerDomainOff (k : Cmd) (s : State) : Res := hostCmd .powerDomainSet k (fun s => powerDomainSet k s) s

/-! ### SET_POWER_CAP, THERMAL_STATUS (R410, R418) -/

def setPowerCap (k : Cmd) (s : State) : State :=
  let cap := u k.p 0 2
  let win := u k.p 4 4
  checked .setPowerCap k (plain k [(0, 2), (4, 4)] && 800 ≤ cap && cap ≤ 1800 && 100000 ≤ win && win ≤ 100000000) 0
    (fun s => (s.modBell fun b => { b with cap, capWindow := win }).finish .setPowerCap k .ok) s

def execSetPowerCap (k : Cmd) (s : State) : Res := hostCmd .setPowerCap k (setPowerCap k) s

/-- The hottest of a list of sensors, the lowest number first among equals (DESIGN CHOICE, log 11). -/
def hottest (temps : List (BitVec 16)) : Nat × BitVec 16 :=
  match temps with
  | [] => (0, 0)
  | t :: ts => (ts.zipIdx 1).foldl (fun (b : Nat × BitVec 16) (x : BitVec 16 × Nat) =>
      if b.2.toInt < x.1.toInt then (x.2, x.1) else b) (0, t)

/-- DETAIL of THERMAL_STATUS (R418). -/
def thermalDetail (s : State) : Nat :=
  let h := hottest s.bell.temps.toList
  65536 * h.2.toNat + 256 * h.1 + b2n s.bell.dieThrottle + 2 * b2n (s.near.stks.toList.any (4 ≤ ·.level))
    + 4 * b2n (s.bell.halfRate != 0)

def thermalStatus (k : Cmd) (s : State) : State :=
  checked .thermalStatus k (plain k []) 512
    (fun s => s.finish .thermalStatus k .ok (thermalDetail s)
      (fit 512 (s.bell.temps.toList.map fun t => bvBytes 2 t).flatten)) s

def execThermalStatus (k : Cmd) (s : State) : Res := hostCmd .thermalStatus k (thermalStatus k) s

/-! ### The event ring (R421 to R424) -/

/-- The ring is torn down; records stay in the buffer. -/
def EventLog.tearDown (l : EventLog) : EventLog :=
  { l with enabled := false, ringAddr := 0, ringLog2 := 0, written := 0, tail := 0, phase := true, unsignalled := false }

def State.evSetup (s : State) (addr log2 : Nat) : State :=
  ({ s with events := { s.events.tearDown with enabled := true, ringAddr := BitVec.ofNat 64 addr, ringLog2 := log2 } }).flushEvents 1025

def State.evTearDown (s : State) : State := { s with events := s.events.tearDown }

def eventRingSetup (k : Cmd) (s : State) : State :=
  let addr := u k.p 0 8
  let lg := u k.p 8 1
  checked .eventRingSetup k
    (plain k [(0, 9)] && addr % 4096 = 0 && (if addr = 0 then lg = 0 else 6 ≤ lg && lg ≤ 10)) 0
    (fun s => (if addr = 0 then s.evTearDown else s.evSetup addr lg).finish .eventRingSetup k .ok) s

def execEventRingSetup (k : Cmd) (s : State) : Res := hostCmd .eventRingSetup k (eventRingSetup k) s
def execEventRingTeardown (k : Cmd) (s : State) : Res := hostCmd .eventRingSetup k (fun s => eventRingSetup k s) s

def State.ackEvents (s : State) (n : Nat) : State :=
  let l := { s.events with held := s.events.held.drop n, written := s.events.written - n }
  ({ s with events := l.endCoalescing s.time.ticks }).flushEvents 1025

def eventAck (k : Cmd) (s : State) : State :=
  checked .eventAck k (plain k [(0, 4)] && u k.p 0 4 ≤ s.events.written) 0
    (fun s => let s := s.ackEvents (u k.p 0 4)
              s.finish .eventAck k .ok s.events.held.length) s

def execEventAck (k : Cmd) (s : State) : Res := hostCmd .eventAck k (eventAck k) s

end Sys2Proof.Machine
end

