-- ==== Sys2Proof/Machine/Codec.lean ====
section
/-! DEFINITION. Stored billets: headers, code tables, the canonical prefix code, its construction and its decoding
(R147 to R155, R167). -/

namespace Sys2Proof.Machine

/-! ### Billet headers (Table SWAG-1) -/

/-- One block entry: OFFSET16, LEN16, RAW. -/
structure BlockEntry where
  off : Nat
  len : Nat
  raw : Bool
  deriving DecidableEq, Repr

def headerBlocks (h : List Byte) : List BlockEntry :=
  (List.range 16).map fun i =>
    let v := u h (0x10 + 4 * i) 4
    { off := bits v 0 12, len := bits v 12 9, raw := bit v 21 }

def headerTable (h : List Byte) : Nat := u h 4 2
def headerBillet (h : List Byte) : Nat := u h 0x54 4
def headerStored (h : List Byte) : Nat := u h 0x50 4

/-- Offsets are contiguous from `off` on. -/
def contiguous : Nat → List BlockEntry → Bool
  | _, [] => true
  | off, b :: bs => b.off == off && contiguous (off + b.len) bs

/-- The header keeps R149. -/
def headerOk (h : List Byte) : Bool :=
  let bs := headerBlocks h
  u h 0 2 == 0x4842 && u h 2 1 == 1 && u h 3 1 < 2 && zeroAt h 0x58 8 && zeroAt h 0xE0 32 &&
    ((List.range 16).all fun i => bits (u h (0x10 + 4 * i) 4) 22 10 == 0) &&
    contiguous 0 bs && (bs.all fun b => if b.raw then b.len == 256 else 1 ≤ b.len && b.len ≤ 240) &&
    headerStored h == 16 * (bs.map (·.len)).foldl (· + ·) 0

/-- Bytes of a header; TAGS, KEY_ID and FLAGS zero (R155). -/
def headerBytes (table : Nat) (digest : Nat) (bs : List BlockEntry) (billet : Nat) : List Byte :=
  fit 256 (toLe 2 0x4842 ++ [1, 0] ++ toLe 2 table ++ toLe 2 0 ++ toLe 8 digest
    ++ (bs.map fun b => toLe 4 (b.off + b.len * 4096 + b2n b.raw * 2 ^ 21)).flatten
    ++ toLe 4 (16 * (bs.map (·.len)).foldl (· + ·) 0) ++ toLe 4 billet)

/-! ### Code tables (Table SWAG-2, R151, R152) -/

/-- First 8 bytes of the SHA-256 of a record, as the number that a header holds. -/
def recordDigest (r : List Byte) : Nat := leNat ((toLe 32 (sha256 r).toNat).reverse.take 8)

def recordLengths (r : List Byte) : List Nat := (List.range 256).map fun s => bits (u r (0x10 + s / 2) 1) (4 * (s % 2)) 4

/-- Twice-fifteen-bit Kraft sum, at most 2^15. -/
def kraft (l : List Nat) : Nat := (l.map fun n => if n = 0 then 0 else 2 ^ (15 - n)).foldl (· + ·) 0

/-- A record is valid (R151). -/
def recordOk (r : List Byte) : Bool :=
  let l := recordLengths r
  u r 0 2 == 0x5443 && u r 2 1 == 1 && u r 3 1 == 0 && zeroAt r 8 8 && zeroAt r 0x90 368 && u r 4 2 != 0xFFFF &&
    u r 6 2 == (l.filter (· != 0)).length && 1 ≤ u r 6 2 && kraft l ≤ 2 ^ 15

def recordBytes (id : Nat) (lengths : List Nat) : List Byte :=
  fit 512 (toLe 2 0x5443 ++ [1, 0] ++ toLe 2 id ++ toLe 2 (lengths.filter (· != 0)).length ++ List.replicate 8 0
    ++ (List.range 128).map fun i => BitVec.ofNat 8 (lengths.getD (2 * i) 0 + 16 * lengths.getD (2 * i + 1) 0))

/-- Canonical codes of RFC 1951: length, code and symbol, shorter codes first, then by symbol. -/
def canonical (lengths : List Nat) : List (Nat × Nat × Nat) :=
  ((List.range 15).foldl (fun (acc : Nat × List (Nat × Nat × Nat)) i =>
    let n := i + 1
    let syms := (lengths.zipIdx.filter (·.1 == n)).map (·.2)
    let first := 2 * acc.1
    (first + syms.length, acc.2 ++ syms.zipIdx.map fun x => (n, first + x.2, x.1))) (0, [])).2

/-! ### Decoding (R167) -/

/-- Bits of a byte string, most significant first. -/
def msbBits (bs : List Byte) : List Bool := (bs.map fun b => (List.range 8).map fun i => bit b.toNat (7 - i)).flatten

/-- Read one code: the symbol and the rest, or the failure kind of Table SWAG-6. -/
def readCode (codes : List (Nat × Nat × Nat)) : Nat → Nat → Nat → List Bool → Except Nat (Nat × List Bool)
  | 0, _, _, _ => .error 2
  | _ + 1, _, _, [] => .error 3
  | fuel + 1, n, acc, b :: bs =>
    let acc := 2 * acc + b2n b
    match codes.find? fun c => c.1 == n + 1 && c.2.1 == acc with
    | some c => .ok (c.2.2, bs)
    | none => readCode codes fuel (n + 1) acc bs

/-- Read `k` symbols. -/
def readCodes (codes : List (Nat × Nat × Nat)) (maxLen : Nat) : Nat → List Bool → Except Nat (List Byte × List Bool)
  | 0, bs => .ok ([], bs)
  | k + 1, bs =>
    match readCode codes maxLen 0 0 bs with
    | .error e => .error e
    | .ok (s, bs) => match readCodes codes maxLen k bs with
      | .error e => .error e
      | .ok (l, bs) => .ok (BitVec.ofNat 8 s :: l, bs)

/-- Expand one coded block. -/
def expandBlock (lengths : List Nat) (bs : List Byte) : Except Nat (List Byte) :=
  let codes := canonical lengths
  match readCodes codes (lengths.foldl max 0) 4096 (msbBits bs) with
  | .error e => .error e
  | .ok (l, rest) => if 128 ≤ rest.length then .error 4 else if rest.any id then .error 5 else .ok l

/-- Expand a stored panel under a checked header; the failing block and its kind. -/
def expandPanel (table : Option (List Nat)) (stored : List Byte) :
    List BlockEntry → Nat → Except (Nat × Nat) (List Byte)
  | [], _ => .ok []
  | b :: bs, i =>
    let raw := slice stored (16 * b.off) (16 * b.len)
    match (if b.raw then .ok raw else expandBlock (table.getD []) raw) with
    | .error k => .error (k, i)
    | .ok l => match expandPanel table stored bs (i + 1) with
      | .error e => .error e
      | .ok r => .ok (l ++ r)

/-! ### Encoding (R154, R155) -/

/-- A node of the Huffman construction: weight, key, and the symbols below it with their depths. -/
structure HNode where
  weight : Nat
  key : Nat
  leaves : List (Nat × Nat)
  deriving DecidableEq, Repr

def HNode.le (a b : HNode) : Bool := a.weight < b.weight || (a.weight == b.weight && a.key ≤ b.key)

def insertNode (x : HNode) : List HNode → List HNode
  | [] => [x]
  | y :: ys => if x.le y then x :: y :: ys else y :: insertNode x ys

/-- Merge the two least nodes until one is left. -/
def mergeNodes : Nat → Nat → List HNode → List HNode
  | 0, _, l => l
  | fuel + 1, n, a :: b :: rest =>
    mergeNodes fuel (n + 1) (insertNode
      { weight := a.weight + b.weight, key := 256 + n
        leaves := (a.leaves ++ b.leaves).map fun x => (x.1, x.2 + 1) } rest)
  | _, _, l => l

/-- Code depths of the symbols with a weight above zero. -/
def huffmanDepths (w : List Nat) : List Nat :=
  let leaves := ((w.zipIdx.filter (0 < ·.1)).map fun x => ({ weight := x.1, key := x.2, leaves := [(x.2, 0)] } : HNode))
  let root := mergeNodes 256 0 (leaves.foldr insertNode [])
  (List.range 256).map fun s => match root.head? with
    | some n => ((n.leaves.find? (·.1 == s)).map (·.2)).getD 0
    | none => 0

/-- The lengths of R154: weights are halved until no depth exceeds 15. -/
def buildLengths : Nat → List Nat → List Nat
  | 0, w => huffmanDepths w
  | fuel + 1, w =>
    if (w.filter (0 < ·)).length = 1 then w.map fun x => if 0 < x then 1 else 0
    else
      let d := huffmanDepths w
      if d.foldl max 0 ≤ 15 then d else buildLengths fuel (w.map fun x => if 0 < x then max 1 (x / 2) else 0)

/-- Bits of a code, most significant first. -/
def codeBits (n c : Nat) : List Bool := (List.range n).map fun i => bit c (n - 1 - i)

/-- Pack bits into bytes, most significant first, the rest of the last byte zero. -/
def packMsb (l : List Bool) : List Byte :=
  (List.range (ceilDiv l.length 8)).map fun i =>
    BitVec.ofNat 8 (((List.range 8).map fun j => b2n (l.getD (8 * i + j) false) * 2 ^ (7 - j)).foldl (· + ·) 0)

/-- One block as stored: its bytes, and whether RAW (R155). A byte value that the table lacks forces RAW (DEDUCED, log 31). -/
def encodeBlock (lengths : List Nat) (raw : List Byte) : List Byte × Bool :=
  let codes := canonical lengths
  let cs := raw.map fun b => codes.find? (·.2.2 == b.toNat)
  if cs.any (·.isNone) then (raw, true)
  else
    let n := (cs.map fun c => (c.map (·.1)).getD 0).foldl (· + ·) 0
    let l := ceilDiv n 128 * 16
    if l ≤ 3840 then (fit l (packMsb ((cs.map fun c => match c with
      | some c => codeBits c.1 c.2.1
      | none => []).flatten)), false)
    else (raw, true)

/-- A billet as stored: its bytes without padding, and its block entries. -/
def encodeBillet (lengths : List Nat) (raw : List Byte) : List Byte × List BlockEntry :=
  (List.range 16).foldl (fun (acc : List Byte × List BlockEntry) i =>
    let (bs, isRaw) := encodeBlock lengths (slice raw (4096 * i) 4096)
    (acc.1 ++ bs, acc.2 ++ [{ off := acc.1.length / 16, len := bs.length / 16, raw := isRaw }])) ([], [])

end Sys2Proof.Machine
end

