-- ==== Sys2Proof/Machine/Num.lean ====
section
/-! DEFINITION. Exact numbers of the engines: rounding to nearest even, the float formats of Tables ANVL-1, ANVL-3,
ANVL-6 and CHSL-2 (R108, R111, R119, R131). -/

namespace Sys2Proof.Machine

/-- `a / b` rounded to the nearest integer, ties to even. -/
def rneDiv (a : Int) (b : Nat) : Int :=
  let q := a / (b : Int)
  let r := a - q * (b : Int)
  if 2 * r < b then q else if (b : Int) < 2 * r then q + 1 else if q % 2 = 0 then q else q + 1

/-- `m × 2^k` rounded to the nearest integer, ties to even. -/
def rneShift (m : Int) (k : Int) : Int :=
  if 0 ≤ k then m * (2 ^ k.toNat : Nat) else rneDiv m (2 ^ (-k).toNat)

/-- `m × 2^k` rounded toward minus infinity. -/
def floorShift (m : Int) (k : Int) : Int :=
  if 0 ≤ k then m * (2 ^ k.toNat : Nat) else m / ((2 ^ (-k).toNat : Nat) : Int)

/-- `m × 2^k` truncated toward zero. -/
def truncShift (m : Int) (k : Int) : Int :=
  if 0 ≤ k then m * (2 ^ k.toNat : Nat) else Int.tdiv m ((2 ^ (-k).toNat : Nat) : Int)

/-- Clamp to an interval. -/
def clampInt (lo hi x : Int) : Int := max lo (min hi x)

/-- Clamp to `w` bits of two's complement. -/
def satInt (w : Nat) (x : Int) : Int := clampInt (-(2 ^ (w - 1) : Nat)) ((2 ^ (w - 1) : Nat) - 1) x

/-- A float format: mantissa bits, exponent of the smallest step, largest finite pattern, width, whether signed. -/
structure FFmt where
  mbits : Nat
  emin : Int
  maxPat : Nat
  width : Nat
  signed : Bool := true
  deriving DecidableEq, Repr

def fmtE4M3 : FFmt := { mbits := 3, emin := -9, maxPat := 0x7E, width := 8 }
def fmtE5M2 : FFmt := { mbits := 2, emin := -16, maxPat := 0x7B, width := 8 }
def fmtBF16 : FFmt := { mbits := 7, emin := -133, maxPat := 0x7F7F, width := 16 }
def fmtFP32 : FFmt := { mbits := 23, emin := -149, maxPat := 0x7F7FFFFF, width := 32 }
def fmtUE5M3 : FFmt := { mbits := 3, emin := -21, maxPat := 0xFF, width := 8, signed := false }

/-- What a pattern stands for: a number `m × 2^e`, an infinity, or no number. -/
inductive FVal where
  | fin (m : Int) (e : Int)
  | inf (neg : Bool)
  | nan
  deriving DecidableEq, Repr

/-- The magnitude of a finite pattern without its sign: integer and exponent. -/
def FFmt.mag (f : FFmt) (p : Nat) : Nat × Int :=
  let E := p / 2 ^ f.mbits
  if E = 0 then (p, f.emin) else (p % 2 ^ f.mbits + 2 ^ f.mbits, f.emin + (E : Int) - 1)

/-- Read a pattern. Above the largest finite pattern lie the infinity, where the format has one, and the NaNs. -/
def FFmt.read (f : FFmt) (p : Nat) : FVal :=
  let mag := if f.signed then p % 2 ^ (f.width - 1) else p % 2 ^ f.width
  let neg := f.signed && bit p (f.width - 1)
  if mag ≤ f.maxPat then
    let (m, e) := f.mag mag
    .fin (if neg then -(m : Int) else m) e
  else if f.mbits != 3 && mag = f.maxPat + 1 then .inf neg
  else .nan

/-- The largest finite value of a format. -/
def FFmt.top (f : FFmt) : Nat × Int := f.mag f.maxPat

/-- Floor of the base-2 logarithm of `a / b`, for positive `a` and `b`. -/
def log2Frac (a b : Nat) : Int :=
  let l : Int := (Nat.log2 a : Int) - (Nat.log2 b : Int)
  let ge := if 0 ≤ l then b * 2 ^ l.toNat ≤ a else b ≤ a * 2 ^ (-l).toNat
  if ge then l else l - 1

/-- Round `a / b × 2^e` (positive) onto the grid of a format with unbounded exponent: the pattern without sign, which may
exceed the largest finite one. -/
def FFmt.roundMag (f : FFmt) (a b : Nat) (e : Int) : Nat :=
  if a = 0 then 0
  else
    let k := max f.emin (log2Frac a b + e - f.mbits)
    let d := e - k
    let q : Nat := (if 0 ≤ d then rneDiv ((a * 2 ^ d.toNat : Nat) : Int) b else rneDiv (a : Int) (b * 2 ^ (-d).toNat)).toNat
    ((k - f.emin).toNat) * 2 ^ f.mbits + q

/-- Write `num / den × 2^e`: the pattern, and whether it was replaced by an end of the range (R131). Zero is +0. -/
def FFmt.write (f : FFmt) (num : Int) (den : Nat) (e : Int) : Nat × Bool :=
  let p := f.roundMag num.natAbs den e
  if p = 0 then (0, false)
  else if num < 0 && !f.signed then (0, true)
  else
    let sat := f.maxPat < p
    let p := if sat then f.maxPat else p
    (if num < 0 then p + 2 ^ (f.width - 1) else p, sat)

/-- UE5M3 scale byte as `m × 2^e` (R111). -/
def scaleOf (b : Byte) : Nat × Int := fmtUE5M3.mag b.toNat

/-- Write an integer format: `num / den × 2^e` rounded once, then saturated to `[lo, hi]` (R119, R131). -/
def writeInt (lo hi : Int) (num : Int) (den : Nat) (e : Int) : Int × Bool :=
  let v := if 0 ≤ e then rneDiv (num * (2 ^ e.toNat : Nat)) den else rneDiv num (den * 2 ^ (-e).toNat)
  if v < lo then (lo, true) else if hi < v then (hi, true) else (v, false)

/-- Round `m × 2^e` to a significand of `w` bits, ties to even (R117, R178). -/
def roundSig (w : Nat) (m : Int) (e : Int) : Int × Int :=
  let l := Nat.log2 m.natAbs + 1
  if l ≤ w then (m, e) else (rneShift m (-((l - w : Nat) : Int)), e + ((l - w : Nat) : Int))

/-- Add two dyadic numbers exactly. -/
def dyAdd (a b : Int × Int) : Int × Int :=
  if a.1 = 0 then b else if b.1 = 0 then a
  else
    let e := min a.2 b.2
    (a.1 * (2 ^ (a.2 - e).toNat : Nat) + b.1 * (2 ^ (b.2 - e).toNat : Nat), e)

/-- Elements of `w` bits packed in bytes, low bits first: element `i` of a byte string. -/
def elemAt (w : Nat) (bs : List Byte) (i : Nat) : Nat :=
  if w = 4 then bits ((bs.getD (i / 2) 0).toNat) (4 * (i % 2)) 4
  else if w = 1 then bits ((bs.getD (i / 8) 0).toNat) (i % 8) 1
  else u bs (i * (w / 8)) (w / 8)

/-- Pack patterns of `w` bits into bytes, low bits first, the last byte filled with zero bits. -/
def packElems (w : Nat) (l : List Nat) : List Byte :=
  if w = 4 then (List.range (ceilDiv l.length 2)).map fun i => BitVec.ofNat 8 (l.getD (2 * i) 0 % 16 + 16 * (l.getD (2 * i + 1) 0 % 16))
  else if w = 1 then (List.range (ceilDiv l.length 8)).map fun i =>
    BitVec.ofNat 8 (((List.range 8).map fun j => l.getD (8 * i + j) 0 % 2 * 2 ^ j).foldl (· + ·) 0)
  else (l.map (toLe (w / 8))).flatten

end Sys2Proof.Machine
end

