-- ==== Sys2Proof/Machine/Trust.lean ====
section
/-! DEFINITION. Firmware, Ledger, attestation and key exchange (R381 to R399). -/

namespace Sys2Proof.Machine

/-! ### FW_LOAD (R385) -/

/-- The first check of Table TRST-8 that fails, with its number. -/
def fwCheck (s : State) (pl : List Byte) : Option (Nat × Status) :=
  let m := pl.take 8192
  let img := pl.drop 8192
  let n := u m 8 4
  let ki := u m 6 1
  let root := slice m 0x40 32
  if pl.length < 8192 || pl.length ≠ 8192 + n || u m 0 4 ≠ 0x4D574655 || u m 4 2 ≠ 1 || u m 7 1 ≠ 0 ||
      n % 4096 ≠ 0 || n < 4096 || 15 * 1048576 < n || 3 < ki || n ≤ u m 0x14 4 || !zeroAt m 0x18 8 ||
      !zeroAt m 0x60 160 || !zeroAt m 0x1FB0 80 then some (1, .badParam)
  else if ki < s.ledger.rollback 1 then some (2, .rollback)
  else if (match forgeOf ki with
      | some i => if h : i.val < 4 then sha256 root != Config.rootKeyHash ⟨i.val, h⟩ else true
      | none => true) then some (3, .integrity)
  else if !Config.slhVerify (toDigest root) (slice m 0 0x100) (slice m 0x100 7856) then some (4, .integrity)
  else if digestBytes (sha256 img) != slice m 0x20 32 then some (5, .integrity)
  else if u m 0x0C 4 < s.ledger.rollback 0 then some (6, .rollback)
  else none

/-- A load that passes is boot event 10; a degraded boot keeps showing 0xE (Table TRST-16). -/
def State.loadFw (s : State) (k : Cmd) : State :=
  if s.hall.identityFault then (s.hallErr .integrity 1 0).finish .fwLoad k .integrity
  else match fwCheck s k.payload with
    | some (n, st) => (s.hallErr st 1 n).finish .fwLoad k st
    | none => (s.modHall fun h =>
        { h with image := some { manifest := k.payload.take 8192, image := k.payload.drop 8192 }
                 stage := if h.t1Degraded then h.stage else 10 }).finish .fwLoad k .ok

def fwLoad (k : Cmd) (s : State) : State :=
  checked .fwLoad k (zeroOutside k.p 32 []) 0
    (fun s =>
      if s.hall.fwRunning then s.finish .fwLoad k .notPermitted
      else if !s.smith.event7 && !s.hall.identityFault then { s with smith := { s.smith with heldFwLoad := some k } }
      else s.loadFw k) s

def execFwLoad (k : Cmd) (s : State) : Res := hostCmd .fwLoad k (fwLoad k) s

/-! ### The boot (R374, R376) -/

/-- Event 7 ends: the stacks are up, and a channel that did not train makes the boot degraded. -/
def State.endEvent7 (s : State) : State :=
  let bad := s.near.chans.toList.any fun c => !c.trains && c.state != .mappedOut
  let s := s.modHall fun h => { h with t1Degraded := bad, stage := if bad then 0xE else 8 }
  let s := { s with smith := { s.smith with event7 := true } }
  if bad then s
  else { s with t1 := (List.range 8).map (fun n => ⟨n, .firmware⟩) ++ s.t1.filter (8 ≤ ·.num) }

/-- A held FW_LOAD starts once boot event 7 has ended (R374). -/
def fwLoadHeldStart (s : State) : State :=
  if s.smith.event7 || s.hall.identityFault || !s.domOn 97 || s.faulted then s
  else
    let s := s.endEvent7
    match s.smith.heldFwLoad with
    | some k => ({ s with smith := { s.smith with heldFwLoad := none } }).loadFw k
    | none => s

def execFwLoadHeldStart (s : State) : Res := .next (fwLoadHeldStart s)

/-- Map-outs and repairs that Ledger records take effect (R244, R253). -/
def State.applyLedger (s : State) : State :=
  let live := s.ledger.log.filter s.ledger.isLive
  let maps := sortAsc (·.key) (live.filter (·.type == 0x0030))
  let s := maps.foldl (fun s r =>
    let c := u r.payload 0 2
    if h : c < 512 then
      (s.modChan ⟨c, h⟩ fun x => { x with state := .mappedOut }).modNear fun n =>
        { n with mapouts := n.mapouts ++ [(⟨c, h⟩, false)] }
    else s) (s.modNear fun n => { n with mapouts := [], chans := n.chans.map fun c =>
      { c with state := .active, again := false, repaired := false, spareRows := Vector.replicate 16 4, spareCols := 8 } })
  let reps := sortAsc (·.key) (live.filter (·.type == 0x0031))
  reps.foldl (fun s r =>
    let c := u r.payload 0 2
    if h : c < 512 then s.modChan ⟨c, h⟩ fun x =>
      if u r.payload 2 1 = 1 then
        (if hb : u r.payload 3 1 < 16 then { x with spareRows := vmod x.spareRows ⟨u r.payload 3 1, hb⟩ (· - 1) } else x)
      else { x with spareCols := x.spareCols - 1 }
    else s) s

/-- Smith draws a new K_HASH until no chain of any level takes more than 8 steps (R245); the model bounds the draws by a number
that no run comes near (DESIGN CHOICE, log 116). -/
def State.redrawHash (s : State) : Nat → State
  | 0 => s
  | fuel + 1 =>
    if s.longChains s.mapped then
      (s.drbg.2.modHall fun h => { h with kHash := some ((Config.drbg s.drbg.1).setWidth 128) }).redrawHash fuel
    else s

/-- Events 2 to 8 of Table TRST-1, from a module whose spine is up. -/
def State.boot (s : State) (e : BootEnv) : State :=
  let s := s.modBell fun b => { b with domOn := (1#100 <<< 96) ||| (1#100 <<< 97) ||| (1#100 <<< 98), faultCause := 0 }
  let s := { s with
    smith := { s.smith with coreUp := 1, firmware := false, faultService := false, heldFwLoad := none, event7 := false }
    pcie := { up := true, width := e.width, rate := e.rate, vfs := e.vfs, ready := 1, perst := false } }
  -- event 5: records that fail their HMAC are ignored and counted (Table TRST-2)
  let bad := s.ledger.log.filter fun r => e.ledgerBad.contains r.seq
  let fault : Bool := 3 ≤ e.pufFails || !e.certOk || !e.kats
  if 3 ≤ e.pufFails then
    (s.hallErr .integrity 2 0).modHall fun h => { h with stage := 0xF, identityFault := true, identityOk := false }
  else
    let s := { s with ledger := { s.ledger with log := s.ledger.log.filter fun r => !(e.ledgerBad.contains r.seq)
                                                authFails := satAdd 32 s.ledger.authFails bad.length, mfgLocked := e.certOk } }
    let s := bad.foldl (fun s r => s.log 0x0701 none 0 (toLe 2 r.type ++ [0, 0] ++ toLe 4 r.seq)) s
    let s := s.modHall fun h => { h with identityFault := fault, identityOk := e.certOk, identitySlot := true, ledgerSlot := true }
    if !e.certOk then (s.hallErr .integrity 3 0).modHall fun h => { h with stage := 0xF }
    else if !e.kats then (s.hallErr .integrity 4 0).modHall fun h => { h with stage := 0xF }
    else
      let (n1, s) := s.drbg
      let (n2, s) := s.drbg
      let s := s.modHall fun h =>
        { h with stage := 6, kHash := some ((Config.drbg n1).setWidth 128), kWrap := some (Config.drbg n2), identityFault := false }
      let s := s.modBell fun b => { b with domOn := b.domOn ||| (0xFFFF#100 <<< 64) }
      let s := s.applyLedger.redrawHash 4096
      let s := { s with near := { s.near with chans := Vector.ofFn fun c : Fin 512 =>
        { (s.near.chans[c]) with trains := !(e.deadChans.contains c) } } }
      if e.slowT1 then s else s.endEvent7

/-! ### FW_START (R386) -/

/-- Event 12: every other domain is powered, the far tier trains, the links are keyed. -/
def State.startFw (s : State) : State :=
  let s := (List.finRange 64).foldl (fun s f => s.forgeUp f) s
  let s := (List.finRange 8).foldl (fun s n => s.plinthUp n) s
  let s := s.modBell fun b => { b with domOn := BitVec.allOnes 100 }
  let s := { s with smith := { s.smith with firmware := true, coreUp := 0xF }, pcie := { s.pcie with ready := 3 } }
  let s := s.modHall fun h => { h with fwRunning := true, stage := if h.t1Degraded then 0xE else 12 }
  s.log 0x0001 none 0 (toLe 4 s.hall.fwVersion ++ toLe 4 s.hall.svn)

def fwStart (k : Cmd) (s : State) : State :=
  checked .fwStart k (plain k []) 0
    (fun s => if s.hall.fwRunning || s.hall.image.isNone then s.finish .fwStart k .notPermitted
      else s.startFw.finish .fwStart k .ok) s

def execFwStart (k : Cmd) (s : State) : Res := hostCmd .fwStart k (fwStart k) s

/-! ### ATTEST (R391) -/

/-- Manifest fields of a shared model, as the report shows them (Table TRST-10). -/
def State.modelEntry (s : State) (m : Model) : List Byte :=
  let h := s.manifest m 256
  bvBytes 8 m.id ++
    (if !m.ready then List.replicate 72 0
     else digestBytes (sha256 (slice h 0x20 32)) ++ slice h 0x40 32 ++ slice h 0x14 4 ++ List.replicate 4 0)

/-- Shared models that a function maps. -/
def State.mappedModels (s : State) (fn : FnId) : List Model :=
  (List.finRange 16).filterMap fun m =>
    if (s.fns[fn]).spans.any (·.model == some m) then s.models[m] else none

/-- CONFIG_DIGEST: over the payloads of the live CHIP_ID, MAPOUT and REPAIR records in TYPE, KEY order. -/
def State.configDigest (s : State) : List Byte :=
  let live := s.ledger.log.filter s.ledger.isLive
  let sel := fun t => sortAsc (·.key) (live.filter (·.type == t))
  digestBytes (sha256 (((sel 0x20 ++ sel 0x30 ++ sel 0x31).map (·.payload)).flatten))

/-- The signed part of the report (Table TRST-10). -/
def reportBody (s : State) (fn : FnId) (nonce kemKey : List Byte) : List Byte :=
  let f := s.fns[fn]
  let models := s.mappedModels fn
  toLe 4 0x52544155 ++ toLe 2 1 ++ toLe 1 fn.val ++ toLe 1 (s.ledger.rollback 1) ++ toLe 2 s.chipId
    ++ List.replicate 6 0 ++ fit 24 nonce ++ toLe 8 s.time.ticks
    ++ digestBytes (sha256 (digestBytes identityKey)) ++ s.fwDigest
    ++ toLe 4 s.hall.svn ++ toLe 4 (if s.hall.fwRunning then s.hall.fwVersion else 0) ++ toLe 4 (s.ledger.rollback 0)
    ++ toLe 4 (b2n s.hall.t1Degraded + 2 * b2n (s.host[fn].enabled) + 4 * b2n f.fault)
    ++ s.configDigest ++ (match s.hall.owner[fn] with | some d => digestBytes d | none => List.replicate 32 0)
    ++ fit 1184 kemKey ++ toLe 1 f.moulds.length ++ toLe 1 models.length ++ List.replicate 30 0
    ++ fit 256 ((sortAsc (·.order) f.moulds).map fun m => digestBytes m.digest).flatten
    ++ fit 320 (models.map s.modelEntry).flatten ++ List.replicate 64 0

def attest (k : Cmd) (s : State) : State :=
  checked .attest k (plain k [(8, 24)]) 26128
    (fun s =>
      let (n, s) := s.drbg
      let (ek, dk) := Config.kemKeyGen n
      let body := reportBody s k.fn (slice k.p 8 24) ek
      let (m, s) := s.drbg
      let report := body ++ fit 7856 (Config.slhSign m body)
      let s := s.modHall fun h =>
        { h.keep with pending := h.pending.set k.fn (some { dk, report, digest := sha256 report })
                      attests := inc32 h.attests }
      s.finish .attest k .ok 0 (report ++ fit 8112 (Config.certificate 0) ++ fit 8112 (Config.certificate 1))) s

def execAttest (k : Cmd) (s : State) : Res := hostCmd .attest k (attest k) s

/-! ### KEY_EXCHANGE (R392, R393) -/

/-- The lowest free SESSION of a function. -/
def State.freeSession (s : State) (fn : FnId) : Nat :=
  lowestFree (sortAsc id ((s.hall.sessions[fn]).map (·.id.toNat))) 1

def State.kexRefuse (s : State) (k : Cmd) (st : Status) (check : Nat) : State :=
  ((s.hallErr st 5 check).modHall fun h => { h with kexRefused := inc32 h.kexRefused }).finish .keyExchange k st

def keyExchange (k : Cmd) (s : State) : State :=
  checked .keyExchange k (zeroOutside k.p 32 [] && k.len == 9008) 32
    (fun s =>
      let pl := k.payload
      let ownerDigest := sha256 (slice pl 0x460 32)
      match s.hall.pending[k.fn] with
      | none => s.kexRefuse k .notPermitted 1
      | some p =>
        if digestBytes p.digest != slice pl 0 32 then s.kexRefuse k .notPermitted 1
        else
          let s := s.modHall fun h => { h.keep with pending := h.pending.set k.fn none }
          if (match s.hall.owner[k.fn] with | some d => d != ownerDigest | none => false) then s.kexRefuse k .notPermitted 2
          else if !Config.slhVerify (toDigest (slice pl 0x460 32))
              (digestBytes (sha256 (slice pl 0 0x480 ++ toLe 1 k.fn.val))) (slice pl 0x480 7856) then
            s.kexRefuse k .integrity 3
          else if 64 ≤ (s.hall.sessions[k.fn]).length then s.kexRefuse k .noSpace 4
          else
            let secret := Config.kemDecap p.dk (slice pl 0x20 1088)
            let t := digestBytes (sha256 (p.report ++ slice pl 0 0x480))
            let keys := fit 64 (kdf secret (ascii "SESS") t 64)
            let id := s.freeSession k.fn
            let s := s.modHall fun h =>
              { h.keep with owner := h.owner.set k.fn (some (h.owner[k.fn].getD ownerDigest))
                            sessions := vmod h.sessions k.fn fun l =>
                         l ++ [{ id := BitVec.ofNat 16 id, key := toDigest (keys.take 32) }] }
            s.finish .keyExchange k .ok id
              (digestBytes (hmac (keys.drop 32) (ascii "TPD1 CONFIRM" ++ t)))) s

def execKeyExchange (k : Cmd) (s : State) : Res := hostCmd .keyExchange k (keyExchange k) s

/-! ### Ledger commands (R384, R387) -/

/-- A record as it is stored (Table TRST-5). -/
def LedgerRec.stored (r : LedgerRec) : List Byte :=
  let b := toLe 2 r.type ++ toLe 2 r.payload.length ++ toLe 4 r.seq ++ toLe 4 r.key ++ toLe 4 0
    ++ fit (16 * ceilDiv r.payload.length 16) r.payload
  b ++ digestBytes (hmac (digestBytes ledgerKey) b)

/-- Whole records that fit a capacity, in order. -/
def takeFit : Nat → List (List Byte) → List (List Byte)
  | _, [] => []
  | cap, r :: rs => if r.length ≤ cap then r :: takeFit (cap - r.length) rs else []

def ledgerRead (k : Cmd) (s : State) : State :=
  checked .ledgerRead k (plain k [(0, 2), (4, 4)]) 0
    (fun s =>
      let type := u k.p 0 2
      let live := Ledger.mfg ++ s.ledger.log.filter s.ledger.isLive
      let sel := sortAsc (·.seq) (live.filter fun r => (type = 0 || r.type == type) && u k.p 4 4 ≤ r.seq)
      let out := takeFit k.outCap.toNat (sel.map LedgerRec.stored)
      s.finish .ledgerRead k .ok out.length out.flatten) s

def execLedgerRead (k : Cmd) (s : State) : Res := hostCmd .ledgerRead k (ledgerRead k) s

def rollbackAdvance (k : Cmd) (s : State) : State :=
  let c := u k.p 0 1
  let v := u k.p 4 4
  checked .rollbackAdvance k (plain k [(0, 1), (4, 4)] && c < 2 &&
      v ≤ (if c = 0 then s.hall.svn else s.hall.keyIndex)) 0
    (fun s =>
      if v ≤ s.ledger.rollback c then s.finish .rollbackAdvance k .ok (s.ledger.rollback c)
      else match s.ledgerWrite 0x0010 c (toLe 4 v) with
        | none => s.ledgerRefused.finish .rollbackAdvance k .supplyLow
        | some s => s.finish .rollbackAdvance k .ok (s.ledger.rollback c)) s

def execRollbackAdvance (k : Cmd) (s : State) : Res := hostCmd .rollbackAdvance k (rollbackAdvance k) s

end Sys2Proof.Machine
end

