-- ==== Sys2Proof/Machine/Power.lean ====
section
/-! DEFINITION. Supply, reset and boot, the time base, the power cap, temperatures, undervoltage, function level resets
and the test access port (R24 to R33, R344, R374, R401 to R418, R427 to R435). -/

namespace Sys2Proof.Machine

/-! ### Loss of power, PERST# (R374, R405, R427, R429) -/

/-- Everything but Ledger is lost with the supply (R310, R406); what the module has sent stays sent. -/
def State.powerLoss (s : State) : State :=
  { ({} : State) with
    pending := s.pending, out := s.out, draws := s.draws, installs := s.installs
    ledger := { s.ledger with writes := 0, authFails := 0, refused := 0, compacting := false, mfgLocked := false }
    bell := { present := s.bell.present }, pcie := { perst := s.pcie.perst } }

/-- What PERST# asserted ends (R374): every switched domain is off, every key erased, the event buffer empty; the spine,
the time base and Ledger stay. -/
def State.perstReset (s : State) : State :=
  let d := s.dark
  { d with
    feat := {}, host := Vector.replicate 64 {}, admin := {}
    smith := { watchdog := s.smith.watchdog }, pcie := { perst := s.pcie.perst }
    events := { lostCount := s.events.lostCount, coalescedCount := s.events.coalescedCount }
    heatRegs := { anneals := s.heatRegs.anneals, fails := s.heatRegs.fails }
    hall := { tagFails := s.hall.tagFails, kexRefused := s.hall.kexRefused, attests := s.hall.attests, reseeds := s.hall.reseeds }
    near := { d.near with mapouts := [], partSel := 0 }
    bell := { s.bell with domOn := 0, faultCause := 0, domSel := 0, halfRate := 0, under := 0 } }

/-- The module runs from its spine: powered, and neither PERST# nor EXTEST holds it. -/
def State.held (s : State) : Bool := s.pcie.perst || s.tap.extest

def execPowerOn (s : State) : Res :=
  .next (if s.bell.spine || !s.bell.present then s
    else let s := s.powerLoss
         { s with bell := { s.bell with spine := true }, pcie := { s.pcie with perst := true } })

def execPerstAssert (s : State) : Res :=
  let s := { s with pcie := { s.pcie with perst := true } }
  .next (if s.bell.spine then s.perstReset else s)

def execPerstDeassert (env : BootEnv) (s : State) : Res :=
  let was := s.pcie.perst
  let s := { s with pcie := { s.pcie with perst := false } }
  .next (if s.bell.spine && was && !s.tap.extest then s.boot env else s)

def execShutdownThreshold (s : State) : Res := .next (if s.bell.spine then s.powerLoss else s)
def execOvervoltage (s : State) : Res := .next (if s.bell.spine then State.powerLoss s else s)

def execPresentMate (s : State) : Res := .next (s.modBell fun b => { b with present := true })

def execPresentBreak (s : State) : Res :=
  let s := s.modBell fun b => { b with present := false }
  .next (if s.bell.spine then s.powerLoss else s)

/-! ### Supply sag (R404) -/

def execSupplyLow (mv10 : BitVec 16) (s : State) : Res :=
  .next (if !s.bell.spine || s.bell.low then s
    else (s.modBell fun b => { b with low := true, lowSeen := true, voltageMv10 := mv10 }).log 0x0901 none 0 (bvBytes 2 mv10))

def execSupplyOk (mv10 : BitVec 16) (s : State) : Res :=
  .next (if !s.bell.spine || !s.bell.low then s
    else (s.modBell fun b => { b with low := false, voltageMv10 := mv10 }).log 0x0902 none 0 (bvBytes 2 mv10))

/-! ### Input current limit (R403) -/

def execCurrentLimitOnset (s : State) : Res :=
  .next (if s.bell.spine then s.modBell fun b => { b with limiting := true, limitSeen := true, currentMa10 := 4800 } else s)

def execCurrentLimitRelease (s : State) : Res := .next (s.modBell fun b => { b with limiting := false })

def execInputCurrentLimit (s : State) : Res :=
  .next (if !s.bell.spine || !s.bell.limiting then s
    else
      let s := if s.events.enabled then s.log 0x0903 none 0 (bvBytes 2 s.bell.currentMa10) else s
      s.powerLoss)

/-! ### The time base (R32, R33) -/

/-- One tick: the counter, and the counters of ticks that a lasting condition drives (Tables POWR-8, TIER-11). -/
def State.tick (s : State) : State :=
  if !s.bell.spine then s
  else
    let b := s.bell
    let capActive := b.capForge < 750 || b.capMigr < 750 || b.capCtl < 750
    { s with
      time := { s.time with ticks := (s.time.ticks + 1) % 2 ^ 64 }
      bell := { b with capTicks := if capActive then inc32 b.capTicks else b.capTicks
                       throttleTicks := if b.dieThrottle || b.stackThrottle then inc32 b.throttleTicks else b.throttleTicks }
      near := { s.near with stks := s.near.stks.map fun (k : Stack) =>
        if 0 < k.level then { k with quenchTicks := inc32 k.quenchTicks } else k } }

/-- 4,096 good reference cycles: the time base runs on the reference, and a link that its loss had dropped comes back. -/
def execRefLock (s : State) : Res :=
  .next (if !s.bell.spine || s.time.src == 1 then s
    else { s with time := { s.time with src := 1 }, pcie := { s.pcie with up := s.domOn 96 && !s.held } })

def execRefLost (s : State) : Res :=
  .next (if !s.bell.spine || s.time.src != 1 then s
    else ({ s with time := { s.time with src := 2, refLost := true, losses := satAdd 16 s.time.losses 1 }
                   pcie := { s.pcie with up := false } }).log 0x0004)

/-! ### Undervoltage (R25) -/

def execUndervoltageOnset (d : DomId) (s : State) : Res :=
  .next (if s.domOn d.val then s.modBell fun b => { b with under := b.under ||| (1#100 <<< d.val) } else s)

def execUndervoltageRecovery (d : DomId) (s : State) : Res :=
  .next (s.modBell fun b => { b with under := b.under &&& ~~~(1#100 <<< d.val) })

/-- The unit that a domain holds: a forge at forge level, a port at port level, every other one at device level (R25). -/
def domUnit (d : DomId) : AnnealUnit :=
  if h : d.val < 64 then .forge ⟨d.val, h⟩
  else if h : 88 ≤ d.val ∧ d.val < 96 then .port ⟨d.val - 88, by omega⟩
  else .device

def execDomainUndervoltage (d : DomId) (s : State) : Res :=
  .next (if !s.bell.under.getLsbD d.val then s
    else
      let (n, s) := s.draw
      let s := s.modBell fun b => { b with under := b.under &&& ~~~(1#100 <<< d.val), undervolts := inc32 b.undervolts }
      -- the measured voltage is below 550 mV; which value it is, the rule leaves open (log 1)
      let s := s.log 0x0005 none d.val (toLe 2 (Config.freeNat n % 550))
      (s.anneal (domUnit d)).settle)

/-! ### The power cap (R410 to R413) -/

/-- The voltage that the forges run at: the lowest of the three demands (R413), in mV. -/
def Bellows.forgeMv (b : Bellows) : Nat := min b.capForge (min b.dieDemand b.stackDemand)

/-- The voltage that a domain is set to, in mV (Table POWR-3). -/
def Bellows.setMv (b : Bellows) (d : Nat) : Nat :=
  if !b.domOn.getLsbD d then 0
  else if d < 64 then b.forgeMv
  else if d = 97 || d = 98 then b.capCtl
  else if d = 99 then b.capMigr
  else 750

def Bellows.atFloor (b : Bellows) : Bool := b.capForge ≤ 550 && b.capMigr ≤ 550 && b.capCtl ≤ 600

/-- Lower one group by 10 mV: the forges, then migration, then Smith and Hallmark (R411). -/
def Bellows.lower (b : Bellows) : Bellows :=
  if 550 < b.capForge then { b with capForge := b.capForge - 10 }
  else if 550 < b.capMigr then { b with capMigr := b.capMigr - 10 }
  else if 600 < b.capCtl then { b with capCtl := b.capCtl - 10 }
  else b

/-- Raise one group by 10 mV, in the reverse order (R411). -/
def Bellows.raise (b : Bellows) : Bellows :=
  if b.capCtl < 750 then { b with capCtl := b.capCtl + 10 }
  else if b.capMigr < 750 then { b with capMigr := b.capMigr + 10 }
  else if b.capForge < 750 then { b with capForge := b.capForge + 10 }
  else b

/-- A sample over 1,800 W lowers the forges by 50 mV at once (R412). -/
def Bellows.surge (b : Bellows) (w : Nat) : Bellows :=
  if 1800 < w then { b with capForge := max 550 (b.capForge - 50) } else b

/-- The average of the samples of one WINDOW, rounded down. -/
def avgOf (l : List Nat) : Nat := l.foldl (· + ·) 0 / max 1 l.length

def Bellows.sampled (b : Bellows) (w : Nat) : Bellows :=
  let samples := (w :: b.samples).take (b.capWindow / 1000)
  let b := { b with sample := w, samples, average := avgOf samples }.surge w
  if b.cap < b.average then
    if b.atFloor then
      let n := b.overFloor + 1
      { b with overFloor := n, unreachable := b.unreachable || b.capWindow ≤ 1000 * n }
    else { b.lower with overFloor := 0 }
  else
    let b := { b with overFloor := 0, unreachable := false }
    if b.average + 25 < b.cap then b.raise else b

def execPowerSample (watts : BitVec 16) (s : State) : Res :=
  .next (if !s.bell.spine then s
    else
      let b := s.bell.sampled watts.toNat
      let s' := { s with bell := b }
      if b.unreachable && !s.bell.unreachable then s'.log 0x0904 none 0 (toLe 2 b.average ++ toLe 2 b.cap) else s')

/-! ### Temperatures (R414 to R418) -/

/-- A sensor of the die: a forge, or another domain of the die (R418). -/
def dieSensor (n : Nat) : Bool := n < 64 || 128 ≤ n

/-- Degrees in sixteenths. -/
def deg (c : Int) : Int := 16 * c

/-- Set a demand for one reading: lower while hot, hold while not yet cool, rise by 10 mV once permitted (R413, R415). -/
def thermalDemand (lowering holding : Bool) (mv : Nat) : Nat :=
  if lowering then max 550 (mv - 10) else if holding then mv else min 750 (mv + 10)

def dieReading (temps : List (Fin 164 × BitVec 16)) (s : State) : State :=
  let set := fun (v : Vector (BitVec 16) 164) (t : Fin 164 × BitVec 16) => if dieSensor t.1.val then v.set t.1 t.2 else v
  let s := s.modBell fun b => { b with temps := temps.foldl set b.temps }
  let die := ((s.bell.temps.toList.zipIdx).filter fun x => dieSensor x.2).map fun x => (x.2, x.1)
  let hot := die.any fun x => deg 95 ≤ x.2.toInt
  let cool := die.all fun x => x.2.toInt < deg 93
  let first := die.find? fun x => deg 95 ≤ x.2.toInt
  let throttle := hot || (s.bell.dieThrottle && !cool)
  let stackHot := s.near.stks.toList.any (4 ≤ ·.level)
  let s' := s.modBell fun b => { b with
    dieDemand := thermalDemand hot throttle b.dieDemand, dieThrottle := throttle, hotSeen := b.hotSeen || hot
    stackDemand := if s.near.stks.toList.any (·.level == 6) then 550 else thermalDemand stackHot stackHot b.stackDemand
    stackThrottle := stackHot }
  let s' := match first with
    | some x => if throttle && !s.bell.dieThrottle then s'.log 0x0905 none x.1 (bvBytes 2 x.2 ++ [1]) else s'
    | none => s'
  match die.find? fun x => deg 115 ≤ x.2.toInt with
  | some x => (s'.log 0x0905 none x.1 (bvBytes 2 x.2 ++ [3])).enterFault 2
  | none => s'

def execDieThermalReading (temps : List (Fin 164 × BitVec 16)) (s : State) : Res :=
  .next (if s.bell.spine then dieReading temps s else s)

def State.hardLimit (s : State) (sensor : Fin 164) : State :=
  if s.bell.spine && !s.faulted && deg 105 ≤ (s.bell.temps[sensor]).toInt then
    (s.log 0x0905 none sensor.val (bvBytes 2 s.bell.temps[sensor] ++ [3])).enterFault 2
  else s

def execDieHardLimit (sensor : Fin 164) (s : State) : Res :=
  .next (if dieSensor sensor.val then s.hardLimit sensor else s)
def execStackHardLimit (st : StackId) (s : State) : Res := .next (s.hardLimit ⟨64 + st.val, by omega⟩)
def execGddr7HardLimit (n : PlinthId) (dev : Fin 6) (s : State) : Res :=
  .next (s.hardLimit ⟨80 + 6 * n.val + dev.val, by omega⟩)

/-- A Plinth reads its devices: half rate from 100 °C, restored below 98 °C (R416). -/
def gddr7Reading (n : PlinthId) (temps : List (Fin 6 × BitVec 16)) (s : State) : State :=
  temps.foldl (fun (s : State) (t : Fin 6 × BitVec 16) =>
    let i := 6 * n.val + t.1.val
    let half := s.bell.halfRate.getLsbD i
    let on := deg 100 ≤ t.2.toInt || (half && deg 98 ≤ t.2.toInt)
    let s := s.modBell fun b => { b with
      temps := b.temps.set (80 + i) t.2 (by omega)
      halfRate := if on then b.halfRate ||| (1#48 <<< i) else b.halfRate &&& ~~~(1#48 <<< i) }
    if on && !half then s.log 0x0905 none (80 + i) (bvBytes 2 t.2 ++ [1]) else s) s

def execGddr7TempReading (n : PlinthId) (temps : List (Fin 6 × BitVec 16)) (s : State) : Res :=
  .next (if s.plinthOn n then gddr7Reading n temps s else s)

def execErrorSummary (s : State) : Res := .next (if s.hall.fwRunning then s.errorSummary else s)

/-! ### Function level resets (R344, Table CMND-15) -/

/-- An FLR of a function: its rings are gone at once, and an enabled function is disabled without replies. -/
def State.flr (s : State) (fn : FnId) : State :=
  let s := s.modHost fn fun h => { h with rings := Vector.replicate 64 {}, d3hot := false }
  if s.host[fn].quiescing then s
  else if !s.host[fn].enabled then { s with flights := s.flights.filter fun f => !(f.cmd.fn == fn && f.cmd.ring.isSome) }
  else
    let s := s.beginDisable fn
    { s with deferred := s.deferred ++ [.disable { fn, ring := none } fn false true] }

def execFlr (fn : FnId) (s : State) : Res := .next (if s.domOn 96 then (s.flr fn).settle else s)

/-- An FLR of every function; the admin ring and the event ring go too, and a disable that runs writes no reply. -/
def State.flrAll (s : State) : State :=
  let s := (List.finRange 64).foldl State.flr s
  { s with admin := {}
           flights := s.flights.filter (·.cmd.ring.isSome)
           deferred := s.deferred.filterMap fun (d : Deferred) => match d with
             | .disable k fn a _ => some (.disable k fn a true)
             | .quiesce _ _ _ => none
             | .heldEnable _ _ _ _ => none
             | .halt k fn id => if k.ring.isNone then none else some (.halt k fn id)
             | .closeSession k => some (.closeSession k)
             | .closeWindow k f w => some (.closeWindow k f w)
           events := s.events.tearDown }

def execFlrPf (s : State) : Res := .next (if s.domOn 96 then s.flrAll.settle else s)

/-- A hot reset: as an FLR of the PF, and the link comes up again as trained (PRESUMED, log 12). -/
def execHotReset (env : BootEnv) (s : State) : Res :=
  .next (if s.domOn 96 then
    ({ s.flrAll with pcie := { s.pcie with up := true, width := env.width, rate := env.rate, vfs := env.vfs } } : State).settle
  else s)

/-! ### Entropy (R388) -/

def execEntropyHealthFail (s : State) : Res :=
  .next (if !s.domOn 98 then s
    else
      let s := s.hallErr .integrity 4 0
      if s.hall.fwRunning then (s.anneal .device).settle
      else s.modHall fun h => { h with identityFault := true, stage := 0xF })

/-! ### Test access port (R433, R434) -/

def execExtestLoad (s : State) : Res :=
  .next (if s.bell.spine then
    ({ s with tap := { s.tap with ir := 0, extest := true, dr := s.tap.boundary.zeroExtend 32 } } : State).perstReset else s)

def execExtestLeave (env : BootEnv) (s : State) : Res :=
  .next (if !s.tap.extest then s
    else
      let s := { s with tap := { s.tap with ir := 1, extest := false, dr := 0x1D44154B } }
      if s.bell.spine && !s.pcie.perst then s.boot env else s)

/-- IDCODE, SAMPLE/PRELOAD and BYPASS are loaded once EXTEST has been left. -/
def execIdcode (s : State) : Res :=
  .next (if s.bell.spine && !s.tap.extest then { s with tap := { s.tap with ir := 1, dr := 0x1D44154B } } else s)

def execSamplePreload (capture : Bool) (data : BitVec 16) (s : State) : Res :=
  .next (if s.bell.spine && !s.tap.extest then
    { s with tap := { s.tap with ir := 2, boundary := data, dr := (if capture then data else s.tap.boundary).zeroExtend 32 } } else s)

/-- BYPASS, and every code that names no other instruction. -/
def execBypass (code : BitVec 4) (s : State) : Res :=
  .next (if s.bell.spine && !s.tap.extest && code.toNat > 2 then { s with tap := { s.tap with ir := code, dr := 0 } } else s)

/-! ### Sideband pins (Table CONN-5) -/

def State.pwrgd (s : State) : Bool := s.bell.spine
/-- AOC_3V3 of a port, true when on: with the port's domain, whatever cable is fitted (R431). -/
def State.aocSupply (s : State) (p : PortId) : Bool := s.portOn p
/-- VREF_1V8: a reference while the spine is up. -/
def State.vref (s : State) : Bool := s.bell.spine
/-- FAULT#, true when driven low. -/
def State.faultPin (s : State) : Bool := s.bell.spine && (s.faulted || s.hall.identityFault)
/-- THERM#, true when driven low. -/
def State.thermPin (s : State) : Bool := s.bell.spine && (s.bell.dieThrottle || s.bell.stackThrottle)

end Sys2Proof.Machine
end

