-- ==== Sys2Proof/Machine/Run.lean ====
section
/-! DEFINITION. Runs: RUN_STEP, RUN_STEPS, HALT_RUN, QUERY_RUN, the step gate, commits, folds, command heats, and what
the timeouts of Tables TIME-6 and TIME-9 do to them (R50, R51, R286 to R308, R336 to R338). -/

namespace Sys2Proof.Machine

/-! ### Run commands (R338) -/

/-- Parameters of RUN_STEP and RUN_STEPS (Table CMND-12). -/
def runMould (k : Cmd) : BitVec 64 := BitVec.ofNat 64 (u k.p 0 8)
def runSteps (op : Op) (k : Cmd) : Nat := if op == .runStep then 1 else u k.p 12 4

/-- The fields that stand alone: check 10. -/
def runParamsOk (op : Op) (k : Cmd) : Bool :=
  let len := u k.p 0x18 4
  let out := u k.p 0x10 8
  (if op == .runStep then u k.p 12 4 = 0 else 1 ≤ u k.p 12 4 && u k.p 12 4 ≤ 65536) && zeroAt k.p 0x1D 3 &&
    len % 256 = 0 && len ≤ 1048576 && out % 256 = 0 && out < 2 ^ 48 && (len ≠ 0 || out = 0)

/-- Bytes that the bindings take in the payload. -/
def bindBytes (n : Nat) : Nat := 16 * ceilDiv (4 * n) 16

/-- BINDINGS, the exact PAYLOAD_LEN, the padding, and the output region in the function's Range. -/
def runFits (s : State) (op : Op) (k : Cmd) (m : Mould) : Bool :=
  let b := u k.p 0x1C 1
  b = m.sessionSlots && k.len.toNat = bindBytes b + m.paramBytes * runSteps op k &&
    zeroAt k.payload (4 * b) (bindBytes b - 4 * b) && (s.fns[k.fn]).mappedRange (u k.p 0x10 8) (u k.p 0x18 4)

/-- A LOAD_MOULD of the MOULD_ID that the command names was accepted before it and is still being checked or installed (R75). -/
def State.loading (s : State) (op : Op) (k : Cmd) : Bool :=
  (s.flights.takeWhile fun f => !f.isOf op k).any fun f =>
    f.op == .loadMould && f.cmd.fn == k.fn && u f.cmd.payload 0x10 8 == (runMould k).toNat

/-- A run command joins the queue of its mould (R14, R338). -/
def runCommand (op : Op) (k : Cmd) (s : State) : State :=
  -- a run command given again while it waits in its queue goes on waiting
  if (s.fns[k.fn]).moulds.any fun m => m.queue.any fun c => c.cmd == k then s
  else checked op k (runParamsOk op k) (runSteps op k * u k.p 0x18 4)
    (fun s =>
      let id := runMould k
      match (s.fns[k.fn]).mould? id with
      | none => s.finish op k .notPermitted
      | some m =>
        if s.loading op k then s.finish op k .notPermitted
        else if !runFits s op k m then s.finish op k .badParam
        else if 16 ≤ m.queue.length then s.finish op k .busy
        else s.modMould k.fn id fun m =>
          { m with queue := m.queue ++ [{ cmd := k, op, next := u k.p 8 4, left := runSteps op k }] }) s

def execRunStep (k : Cmd) (s : State) : Res := hostCmd .runStep k (runCommand .runStep k) s
def execRunSteps (k : Cmd) (s : State) : Res := hostCmd .runSteps k (runCommand .runSteps k) s

/-! ### HALT_RUN, QUERY_RUN (R336, R337) -/

/-- End every queued run command of a mould that does not run. -/
def State.haltQueue (s : State) (fn : FnId) (id : BitVec 64) (running : Bool) : State :=
  match (s.fns[fn]).mould? id with
  | none => s
  | some m =>
    let keep := if running then m.queue.take 1 else []
    let gone := if running then m.queue.drop 1 else m.queue
    gone.foldl (fun s (c : RunCmd) => s.finish c.op c.cmd .halted c.done c.output)
      (s.modMould fn id fun m => { m with queue := keep })

/-- The step's heat is in doubt (R302). -/
def Fn.inDoubtStep (f : Fn) (id : BitVec 64) : Bool :=
  (f.stepHeats id).any fun p => p.2.state == HeatState.prepared

def State.halt (s : State) (fn : FnId) (id : BitVec 64) : State :=
  match (s.fns[fn]).mould? id with
  | none => s
  | some m =>
    let s := s.haltQueue fn id m.run.isSome
    if m.run.isNone then s
    else if (s.fns[fn]).inDoubtStep id then
      s.modMould fn id fun m => { m with queue := m.queue.map fun c => { c with halted := true } }
    else s.endStep fn id .halted true

def haltRun (k : Cmd) (s : State) : State :=
  let byHost := k.ring.isNone
  checked .haltRun k (plain k [(0, if byHost then 9 else 8)] && u k.p 8 1 < 64) 0
    (fun s =>
      let fn : FnId := if byHost then (fnOf (u k.p 8 1)).getD k.fn else k.fn
      let id := BitVec.ofNat 64 (u k.p 0 8)
      if ((s.fns[fn]).mould? id).isNone then s.finish .haltRun k .badParam
      else if s.deferred.contains (.halt k fn id) then s
      else { s.halt fn id with deferred := (s.halt fn id).deferred ++ [.halt k fn id] }) s

def execHaltRun (k : Cmd) (s : State) : Res := hostCmd .haltRun k (haltRun k) s

/-- The QUERY_RUN record (Table CMND-13). -/
def queryBytes (m : Mould) : List Byte :=
  fit 512 (digestBytes m.digest ++ toLe 4 m.nextStep ++ toLe 2 m.queue.length ++ toLe 2 m.lastStatus
    ++ toLe 4 m.attempts ++ toLe 4 0
    ++ fit 64 ((m.forges.map fun f => BitVec.ofNat 8 f.phys.val) ++ List.replicate 64 0xFF)
    ++ (m.stallMisses.toList.map (toLe 4)).flatten ++ (m.stallTicks.toList.map (toLe 8)).flatten
    ++ (m.diverts.toList.map (toLe 4)).flatten ++ (m.causes.toList.map (toLe 4)).flatten)

def queryRun (k : Cmd) (s : State) : State :=
  checked .queryRun k (plain k [(0, 8)]) 512
    (fun s =>
      let id := runMould k
      match (s.fns[k.fn]).mould? id with
      | none => s.finish .queryRun k .badParam
      | some m => if s.loading .queryRun k then s.finish .queryRun k .badParam
                  else s.finish .queryRun k .ok 0 (queryBytes m)) s

def execQueryRun (k : Cmd) (s : State) : Res := hostCmd .queryRun k (queryRun k) s

/-! ### The end of a step -/

/-- The committed bytes at OUT_RANGE (R338). -/
def State.stepOutput (s : State) (fn : FnId) (c : RunCmd) : List Byte :=
  s.readRange fn none (u c.cmd.p 0x10 8) (u c.cmd.p 0x18 4)

/-- A heat has written a whole line anew. -/
def Fn.rewrote (f : Fn) (slot : Option (Fin 32)) (line : Nat) : Bool :=
  match slot.bind f.heat with
  | some h => h.edits.any fun e => match e with
    | .rewrite a n => a ≤ line && line + 256 ≤ a + n
    | _ => false
  | none => false

/-- A poisoned line lies in a region of the Range, as a heat's agents, or agents outside every heat, see it. -/
def State.poisonedIn (s : State) (fn : FnId) (addr n : Nat) (slot : Option (Fin 32) := none) : Bool :=
  (List.range ((addr + n + 255) / 256 - addr / 256)).any fun i =>
    let a := (addr / 256 + i) * 256
    let at_ := if indexBase ≤ a then (a - indexBase) / 256 * 65536 else a
    match s.pageAt fn at_ with
    | some (_, p) => p.bad.contains (if indexBase ≤ a then 256 else a / 256 % 256) && !(s.fns[fn]).rewrote slot a
    | none => false

/-- The last heat of a step has committed: the step index advances, the output is read, and the run command goes on to
its next step or replies (R50, R338). -/
def State.stepDone (s : State) (fn : FnId) (id : BitVec 64) (index : Nat) : State :=
  let s := match ((s.fns[fn]).mould? id).bind (·.run) with
    | some r => ((s.idleForges fn id).releasePins fn id { r with fetches := r.fetches.filter (·.step == r.index) }).modMould fn id
        fun m => { m with carried := r.fetches.filter (·.step != r.index) }
    | none => s
  let s := s.modMould fn id fun m =>
    { m with nextStep := index + 1, lastStatus := Status.ok.code, credited := [], sentOnce := [], committed := 0 }
  let s := s.modFn fn fun f => { f with
    recvLog := f.recvLog.filter fun x => !(x.mould == id && x.step ≤ index)
    creditsIn := f.creditsIn.filter fun c => !(some c.1 == (f.mould? id).map Mould.shortDigest && c.2.1 ≤ index)
    votes := f.votes.filter fun v => !(v.mould == id && v.step ≤ index) }
  match (s.fns[fn]).mould? id with
  | none => s
  | some m =>
    if m.run.isNone then s
    else
      let s := s.modMould fn id fun m => { m with run := none }
      match m.queue with
      | [] => s
      | c :: _ =>
        let bad := s.poisonedIn fn (u c.cmd.p 0x10 8) (u c.cmd.p 0x18 4)
        let c' := { c with next := index + 1, left := c.left - 1, done := c.done + 1
                           output := if bad then c.output else c.output ++ s.stepOutput fn c }
        let s := s.modMould fn id fun m => { m with queue := c' :: m.queue.drop 1 }
        if bad then s.endRunCmd fn id .integrity
        else if c'.left = 0 || c.halted then s.endRunCmd fn id .ok
        else s

/-- A heat of a step other than its last has committed: the Armatures' pins go, the step registers anew for its next heat, and
a re-run opens this heat no more (R298 event 6, R308, R309). -/
def State.heatGone (s : State) (fn : FnId) (id : BitVec 64) (b : Nat) : State :=
  let s := s.modMould fn id fun m => { m with committed := b + 1 }
  match ((s.fns[fn]).mould? id).bind (·.run) with
  | none => s
  | some r => ((s.unpinStep fn id r.pins []).modRun fn id fun r => { r with pins := [] }).modFn fn fun f =>
      { f with regs := f.regs ++ [{ epoch := f.epoch, step := some id }] }

/-- The commit point of a step's heat and what follows it: held sends are released, and the last heat ends the step
(R298 events 4 to 7). -/
def State.commitStepHeat (s : State) (fn : FnId) (slot : Fin 32) : State :=
  match (s.fns[fn]).heat slot with
  | none => s
  | some h =>
    match h.origin with
    | .step id b =>
      match (s.fns[fn]).mould? id with
      | none => (s.commitHeat fn slot).releaseHeld fn h
      | some m =>
        -- the STEP record of the last heat is written with it
        let s := if m.lastBound b then s.record fn slot 0x07 (toLe 8 id.toNat ++ toLe 4 (h.stepIndex + 1)) else s
        let s := (s.commitHeat fn slot).releaseHeld fn h
        let s := (h.peers m).foldl (fun s pos => s.sendTo fn m pos 0x04 b h.stepIndex 0) s
        if m.lastBound b then s.stepDone fn id h.stepIndex
        else (s.modRun fn id fun r => { r with gateRefs := moveRefs r.gateRefs h.edits }).heatGone fn id b
    | _ => s.commitHeat fn slot

/-! ### The step gate (R50, R51, R68, R297, R304, R362) -/

/-- Commands that hold every step gate while they wait for running steps (R89, R245, R339). -/
def holdsGates (f : Flight) : Bool :=
  !f.background && match f.op with
    | .setFeature => u f.cmd.p 0 2 == 0x0201
    | .powerDomainSet => u f.cmd.p 8 8 != 0
    | .channelMapout => u f.cmd.p 2 1 == 0
    | .selftest => u f.cmd.p 0 1 == 1
    | _ => false

/-- COHORT_LEAVE holds the gates of its function (R361). -/
def holdsFn (fn : FnId) (f : Flight) : Bool :=
  f.op == .cohortLeave && (if f.cmd.ring.isNone then u f.cmd.p 0 1 == fn.val else f.cmd.fn == fn)

def State.gateHeld (s : State) (fn : FnId) : Bool :=
  (s.fns[fn]).held || s.flights.any fun f => holdsGates f || holdsFn fn f

/-- An anneal that concerns the function or a forge of the mould is in progress. -/
def State.annealHolds (s : State) (fn : FnId) (m : Mould) : Bool :=
  s.anneals.any fun a => match a.unit with
    | .device => true
    | .tenant f => f == fn
    | .forge f => m.forges.any (·.phys == f)
    | _ => false

/-- Positions that the lists of a mould name. -/
def Mould.listPeers (m : Mould) : List Nat := ((m.sends ++ m.recvs).map (·.peer)).eraseDups

/-- A port that the lists use is not UP (R304). -/
def State.portsDown (s : State) (m : Mould) : Bool :=
  m.listPeers.any fun pos => match (m.portTo pos).bind s.physPort with
    | some p => (s.ports[p]).state != .up && (s.ports[p]).state != .annealing
    | none => true

/-- A position's chip identifier is admitted by the policy on the port that reaches it, under the partner's
authenticated identity (R362). -/
def State.admitted (s : State) (fn : FnId) (m : Mould) (pos : Nat) : Bool :=
  match (s.fns[fn]).cohort, m.cohort[pos]?, (m.portTo pos).bind s.physPort with
  | some c, some x, some p =>
    let q := s.ports[p]
    q.partnerChip.toNat == x.chip && c.entries.any fun e => e == (x.chip, q.partnerKey)
  | _, _, _ => false

/-- Journal records not reserved (R296, R297). -/
def Fn.journalFree (f : Fn) : Nat :=
  let inSlots := ((List.finRange 32).map fun i => match f.slots[i] with
    | some h => h.maxActions + 16
    | none => 0).foldl (· + ·) 0
  let reserved := (f.moulds.map fun m => match m.run with
    | some r => if r.rerun then 0 else ((m.heats.drop r.opened).map (·.maxActions + 16)).foldl (· + ·) 0
    | none => 0).foldl (· + ·) 0
  262144 - (inSlots + reserved)

/-- Reserve the shadow frames of every heat of the step that has not committed (R297). -/
def State.reserveHeats (s : State) (fn : FnId) (m : Mould) : Option State :=
  let heats := m.heats.zipIdx.drop m.committed
  let want := (heats.map fun h => ceilDiv h.1.maxActions 512).foldl (· + ·) 0
  if s.t1LimitOk fn want && (heats.map (·.1.maxActions + 16)).foldl (· + ·) 0 ≤ (s.fns[fn]).journalFree then
    heats.foldl (fun (o : Option State) (x : HeatBound × Nat) =>
      o.bind fun s => s.allocT1Many (.shadow fn (m.resKey x.2)) (ceilDiv x.1.maxActions 512)) (some s)
  else none

/-- A forge takes a step: its engines start from nothing, and rows outside PERSIST slots hold undefined data (R56). -/
def State.takeForge (s : State) (fn : FnId) (id : BitVec 64) (logical : Nat) (f : ForgeId) : State :=
  let keep := s.persistRows f
  let s := { s with hearth := s.hearth.filter fun c => c.1 / 2 ^ 24 != f.val || keep.contains (c.1 % 2 ^ 24 / 512) }
  s.modForge f fun x => { x.idle with
    job := some { fn, mould := id, logical }, gen := x.gen + 1, zeroSeg := 0, cruc := { x.idle.cruc with lab := [] } }

/-- Session bindings of a run command (Table CMND-12). -/
def RunCmd.bindings (c : RunCmd) : List Nat := (List.range (u c.cmd.p 0x1C 1)).map fun i => u c.cmd.payload (4 * i) 4

/-- The parameter block of the next step of a run command. -/
def RunCmd.params (c : RunCmd) (bytes : Nat) : List Byte :=
  slice c.cmd.payload (bindBytes (u c.cmd.p 0x1C 1) + bytes * c.done) bytes

/-- REF of every KV page as the heat unit judges it, with the deltas of open heats left out (R208, R295). -/
def Fn.refs (f : Fn) : List (Nat × Int) := f.hdrs.map fun h => (h.num, f.refOf h)

/-- Pages of a prefetch entry, as Range page numbers (Table MOLD-8). -/
def Fn.fetchPages (f : Fn) (bindings : List Nat) (e : Prefetch) : List Nat :=
  if e.kind = 1 then (List.range e.count).map (e.source % 2 ^ 48 / 65536 + ·)
  else
    match f.seqs.find? (·.handle == bindings.getD (e.source % 65536) 0xFFFFFFFF), f.roleBase .kvPages with
    | some q, some base => (sortAsc (fun (x : ListEntry) => x.group * 2 ^ 32 + x.lpage) (q.entries.filter fun x =>
        x.layer == bits e.source 16 16 && bit e.groupMask x.group && bits e.source 32 32 ≤ x.lpage &&
          x.lpage < bits e.source 32 32 + e.count && !x.dropped)).map fun x => base / 65536 + x.page
    | _, _ => []

/-- Issue a prefetch entry for a step: its pages are pinned, and those held in T2 only start towards T1 (R59, R228). -/
def State.issueFetch (s : State) (fn : FnId) (id : BitVec 64) (entry step : Nat) (e : Prefetch) (bindings : List Nat) : State :=
  let pages := (s.fns[fn]).fetchPages bindings e
  let held := pages.map fun n => ((s.resolve fn (n * 65536)).1, (s.resolve fn (n * 65536)).2 / 65536)
  let s := held.foldl (fun s x => s.stamp.2.modPage x.1 x.2 fun p =>
    let new := !p.t1 && !p.urgent
    { p with pins := p.pins + 1, up := p.up || !p.t1, releaseAfter := p.releaseAfter || e.releaseAfter
             urgent := p.urgent || !p.t1, ticket := if new then s.stamp.1 else p.ticket
             mover := if new then some fn else p.mover, waits := if p.up then p.waits else [] }) s
  s.modRun fn id fun r => { r with fetches := r.fetches ++ [{ entry, step, pages, pinned := held, epoch := (s.fns[fn]).epoch }] }

/-- Prefetch entries with PREV_STEP that the step before has not issued: those of step 0, and those of a step that runs again
or whose predecessor ended with a status (R59, R60; DEDUCED, log 20). -/
def Mould.dueFetches (m : Mould) (step : Nat) : List (Prefetch × Nat) :=
  m.prefetch.zipIdx.filter fun x => x.1.prevStep && !m.carried.any fun y => y.entry == x.2 && y.step == step

/-- Open the gate for the step at the head of a mould's queue (R51): NO_SPACE without the reservation of its heats. -/
def State.openGate (s : State) (fn : FnId) (m : Mould) (c : RunCmd) (attempts : Nat) (dropped : Bool := false) : State :=
  match s.reserveHeats fn m with
  | none => (s.modMould fn m.id fun m => { m with run := none, lastStatus := Status.noSpace.code }).endRunCmd fn m.id .noSpace
  | some s =>
    let (now, s) := s.stamp
    let f := s.fns[fn]
    let r : Running :=
      { index := c.next, params := c.params m.paramBytes, bindings := c.bindings
        phases := m.forges.map fun _ => none, ended := m.forges.map fun _ => false
        completed := m.forges.map fun _ => none, opened := m.committed
        attempts, gateRefs := f.refs, fetches := m.carried, dropped, began := now }
    let s := s.modMould fn m.id fun m => { m with run := some r, carried := [] }
    let s := m.forges.zipIdx.foldl (fun s (x : MForge × Nat) => s.takeForge fn m.id x.2 x.1.phys) s
    let s := s.modFn fn fun f => { f with regs := f.regs ++ [{ epoch := f.epoch, step := some m.id }] }
    let s := (m.dueFetches c.next).foldl (fun s (x : Prefetch × Nat) => s.issueFetch fn m.id x.2 c.next x.1 c.bindings) s
    if m.flags.getLsbD 2 && !m.digestsSent then
      let s := m.listPeers.foldl (fun s pos => s.sendTo fn m pos 0x07 0 c.next 0 0 0
        (digestBytes m.digest ++ digestBytes m.cohortDigest)) s
      s.modMould fn m.id fun m => { m with digestsSent := true }
    else s

/-- Range address in its owner's Range of a T2 die address that a frame of a span or model holds. -/
def State.t2Range (s : State) (a : Nat) : Option (FnId × Nat) :=
  match s.t2.find? (·.num == (t2At a).1) with
  | none => none
  | some x => match x.use with
    | .span g num => some (g, num * 2097152 + (t2At a).2)
    | .model m num => (s.models[m]).map fun x => (x.publisher, num * 2097152 + (t2At a).2)
    | _ => none

/-- Range addresses of the 64 KiB pages that the rows of a unit instruction lie in. -/
def State.rowPagesOf (s : State) (w : BitVec 256) : List (FnId × Nat) :=
  if uOp w != 1 then []
  else (List.range ((uAddr w % 65536 + uRows w * uKib w * 1024 + 65535) / 65536)).filterMap fun i => s.t2Range (uAddr w / 65536 * 65536 + 65536 * i)

/-- A page with home T2 whose T2 copy is lost. -/
def State.lostHome (s : State) (x : FnId × Nat) : Bool := match (s.fns[x.1]).page? (x.2 / 65536) with
  | some p => p.homeT2 && !p.t2
  | none => false

/-- A unit program of the mould names a billet of a shared model whose copy is lost: its gate waits for the billet
(Table PLIN-8). -/
def State.progLost (s : State) (fn : FnId) (m : Mould) : Bool :=
  s.plinths.toList.any fun (p : Plinth) => p.progs.any fun g => g.fn == fn && g.mould == m.id && g.instrs.any fun w =>
    (s.rowPagesOf w).any fun x => s.lostHome x && (s.modelOf x.1 x.2).isSome

/-- What a gate waits for: lost billets of unit programs, held gates, anneals, an in-doubt heat, busy forges, heats counted, ports (R51, R279, R302, R304). -/
def State.gateWaits (s : State) (fn : FnId) (m : Mould) : Bool :=
  s.gateHeld fn || s.annealHolds fn m || s.progLost fn m || (s.fns[fn]).inDoubtStep m.id || (s.fns[fn]).fault ||
    (m.forges.any fun mf => (s.forges[mf.phys]).job.isSome || !s.forgeOn mf.phys) ||
    32 < (s.fns[fn]).counted + (m.heats.length - m.committed)

/-- The mould digests of every position are known, and COHORT_DIGEST is not their SHA-256 in position order (R72; DEDUCED,
log 170: a peer whose list the module does not read sends none, and then nothing is checked). -/
def Mould.wrongSet (m : Mould) : Bool :=
  let known := m.cohort.zipIdx.map fun x => if x.1.self then some m.digest else (m.peerDigests.find? (·.1 == x.2)).map (·.2)
  known.all Option.isSome && !known.isEmpty && sha256 ((known.map fun d => digestBytes (d.getD 0)).flatten) != m.cohortDigest

/-- A DIGEST record that came before, from a listed peer not yet checked, names another cohort (R72). -/
def State.digestClash (s : State) (fn : FnId) (m : Mould) : Bool :=
  m.listPeers.any fun pos => !m.checkedPeers.contains pos && match m.cohort[pos]? with
    | some x => (s.fns[fn]).earlyDigests.any fun d => d.1 == x.chip && d.2.drop 32 != digestBytes m.cohortDigest
    | none => false

/-- The checks of a cohort mould at its gate (R362): a status ends the step. -/
def State.cohortCheck (s : State) (fn : FnId) (m : Mould) : Option Status :=
  if !m.flags.getLsbD 2 then none
  else if (s.fns[fn]).cohort.isNone then some .notPermitted
  else if !s.portsDown m && m.listPeers.any (fun pos => !s.admitted fn m pos) then some .partnerFault
  else if s.digestClash fn m || m.wrongSet then some .integrity
  else none

def stepGateOpen (fn : FnId) (id : BitVec 64) (s : State) : State :=
  match (s.fns[fn]).mould? id with
  | none => s
  | some m =>
    match m.queue with
    | [] => s
    | c :: _ =>
      if m.run.isSome || !s.hall.fwRunning then s
      else if c.next != m.nextStep then s.endRunCmd fn id .badParam
      else if s.gateWaits fn m then s
      else match s.cohortCheck fn m with
        | some st => (s.modMould fn id fun m => { m with lastStatus := st.code }).endRunCmd fn id st
        | none => if s.portsDown m then s else s.openGate fn m c 0

def execStepGateOpen (fn : FnId) (mould : BitVec 64) (s : State) : Res := .next (stepGateOpen fn mould s).settle

/-- After an anneal, or after the drop policy once the pages it freed are reclaimed (R216), the step runs again from its
gate (R308). Heats of it that committed stay committed and are not opened again (R309; DEDUCED, log 20). -/
def stepRerun (fn : FnId) (id : BitVec 64) (s : State) : State :=
  match (s.fns[fn]).mould? id with
  | none => s
  | some m =>
    match m.run, m.queue with
    | some r, c :: _ =>
      if !r.rerun || !s.hall.fwRunning then s
      else
        let s0 := s.modMould fn id fun m => { m with run := none }
        if s0.gateWaits fn m || s.portsDown m || r.dropWanted.isSome || (s.fns[fn]).freeKv < r.dropGoal then s
        else s0.openGate fn m c r.attempts r.dropped
    | _, _ => s

def execStepRerun (fn : FnId) (mould : BitVec 64) (s : State) : Res := .next (stepRerun fn mould s).settle

/-! ### Commit and fold (R295, R298, R300) -/

/-- Every forge has completed the commit phase of a heat (R67). -/
def Running.committed (r : Running) (commit : Nat) : Bool :=
  (r.completed.zip r.ended).all fun x => x.2 || (match x.1 with
    | some p => commit ≤ p
    | none => false)

/-- A lost line of the heat area: the function fault (R311). -/
def State.functionFault (s : State) (fn : FnId) : State :=
  let s := ((s.fns[fn]).moulds).foldl (fun s (m : Mould) => s.closeStep fn m.id .integrity) s
  let s := (List.finRange 32).foldl (fun s i => match (s.fns[fn]).heat i with
    | some h => if h.state == HeatState.committed then s else match h.reply with
      | some x => (s.scrapStepHeat fn i .integrity).finish x.1 x.2.1 .integrity
      | none => s.scrapStepHeat fn i .integrity
    | none => s) (s.scrapCmdHeats fn .integrity)
  (s.modFn fn fun f => { f with fault := true }).log 0x0305 (some fn)

/-- The coordinator sends its decision on a heat and keeps it until every participant has acknowledged it (R300 event 5). -/
def State.announce (s : State) (fn : FnId) (slot : Fin 32) (m : Mould) (b step : Nat) (commit : Bool) : State :=
  let others := ((m.heats[b]?.map (·.participants)).getD []).filter (· != m.selfPos)
  (others.foldl (fun s pos => s.sendHeat fn m pos (if commit then 3 else 4) b step) s).modFn fn fun f =>
    { f with decisions := f.decisions ++ [{ mould := m.id, bound := b, step, commit, waiting := others, slot
                                            heat := ((f.heat slot).map (·.number)).getD 0 }] }

/-- The coordinator's decision on a distributed heat (R300 events 4 and 5). -/
def State.decide (s : State) (fn : FnId) (slot : Fin 32) (m : Mould) (b step : Nat) (commit : Bool) : State :=
  let s := s.announce fn slot m b step commit
  if commit then s.commitStepHeat fn slot else (s.scrapStepHeat fn slot .annealed).annealStep fn m.id 6

/-- The coordinator commits once its own shadows are complete and it holds every vote; a vote to scrap decides at once, also
one that came before the heat opened (R300, R301). -/
def State.tryDecide (s : State) (fn : FnId) (slot : Fin 32) : State :=
  match (s.fns[fn]).heat slot with
  | none => s
  | some h =>
    match h.origin with
    | .step id b =>
      match (s.fns[fn]).mould? id with
      | none => s
      | some m =>
        let others := ((m.heats[b]?.map (·.participants)).getD []).filter (· != m.selfPos)
        let voted := fun (scrap : Bool) (pos : Nat) => (s.fns[fn]).votes.contains { mould := id, bound := b, step := h.stepIndex, pos, scrap }
        if h.state != HeatState.open_ then s
        else if others.any (voted true) then s.decide fn slot m b h.stepIndex false
        else if h.committing && h.coordinator && others.all (voted false) then s.decide fn slot m b h.stepIndex true else s
    | _ => s

/-- A write of a command heat's commit phase fails, or the phase expires: the heat is scrapped, its command replies ANNEALED
(R290; DEDUCED, log 161), and the tenant is annealed (R298). -/
def State.failCommit (s : State) (fn : FnId) (slot : Fin 32) (x : Op × Cmd × Nat × List Byte) (cause : Nat) : State :=
  ((s.scrapHeat fn slot .annealed).finish x.1 x.2.1 .annealed).anneal (.tenant fn) cause

/-- The payload of a PREPARED record (Table HEAT-4). -/
def preparedRecord (m : Mould) (hb : HeatBound) (step : Nat) : List Byte :=
  toLe 2 (((m.cohort[m.coordinator]?).map (·.chip)).getD 0) ++ toLe 2 hb.participants.length ++ toLe 4 step ++ (digestBytes m.cohortDigest).take 4

/-- An entry of SEND_LIST that no REQUEST waits for is not sent yet (R70). -/
def Mould.unsent (m : Mould) (r : Running) : Bool :=
  m.sends.zipIdx.any fun x => !x.1.onRequest && !r.sent.contains x.2

/-- Once every forge has completed COMMIT_PHASE, and before the last heat every send of the step has gone, also one that waited
for its credit (R70; DEDUCED, log 170): a local heat commits; a participant writes PREPARED and votes; the
coordinator's own shadows are complete (Tables HEAT-5, HEAT-6). A command's heat whose writes were outstanding commits, and its
command replies. A line of the heat area that is lost gives the function fault, and a write that fails scraps the heat and
anneals the tenant. -/
def localCommit (fn : FnId) (slot : Fin 32) (env : Lines) (s : State) : State :=
  match (s.fns[fn]).heat slot with
  | none => s
  | some h =>
    match h.origin with
    | .step id b =>
      match (s.fns[fn]).mould? id with
      | none => s
      | some m =>
        match m.run, m.heats[b]? with
        | some r, some hb =>
          if h.state != HeatState.open_ || r.rerun || r.status.isSome || !r.committed hb.commitPhase || (m.lastBound b && m.unsent r) then s
          else if env.heatArea then s.functionFault fn
          else if env.fails then s.anneal (.tenant fn)
          else if !hb.distributed then s.commitStepHeat fn slot
          else if m.coordinator == m.selfPos then
            ((s.spillLines fn slot).modHeat fn slot fun h => { h with committing := true, coordinator := true, distributed := true }).tryDecide fn slot
          else if h.committing then s
          else
            (((s.spillLines fn slot).record fn slot 0x09 (preparedRecord m hb h.stepIndex)).modHeat fn slot fun h =>
              { h with state := .prepared, committing := true, distributed := true
                       participants := hb.participants }).sendHeat fn m m.coordinator 1 b h.stepIndex
        | _, _ => s
    | _ => match h.reply with
      | none => s
      | some x =>
        if h.state != HeatState.open_ then s
        else if env.heatArea then s.functionFault fn
        else if env.fails then s.failCommit fn slot x 0
        else (s.commitHeat fn slot).finish x.1 x.2.1 .ok x.2.2.1 x.2.2.2

def execLocalCommit (fn : FnId) (slot : Fin 32) (env : Lines) (s : State) : Res := .next (localCommit fn slot env s).settle

/-- A fold ends; a line of the heat area that it finds lost gives the function fault (R295, R311). -/
def execFold (fn : FnId) (slot : Fin 32 × Lines) (s : State) : Res :=
  .next (if slot.2.heatArea then
      match (s.fns[fn]).heat slot.1 with
      | some h => if h.state == HeatState.committed then (s.functionFault fn).settle else s
      | none => s
    else s.foldHeat fn slot.1)

/-! ### Command heats (R289, R290) -/

def heatBegin (k : Cmd) (s : State) : State :=
  let maxA := u k.p 4 2
  checked .heatBegin k (plain k [(0, 6)] && 1 ≤ u k.p 0 4 && 1 ≤ maxA && maxA ≤ 4096) 0
    (fun s => match k.ring with
      | none => s.finish .heatBegin k .notPermitted
      | some r =>
        if 32 ≤ (s.fns[k.fn]).counted then s.finish .heatBegin k .busy
        else match s.openHeat k.fn (.ring r) maxA with
          | none => s.finish .heatBegin k .busy
          | some (slot, s') =>
            match s'.allocT1 k.fn (.shadow k.fn slot.val) (ceilDiv maxA 512) with
            | none => s.finish .heatBegin k .noSpace
            | some s' =>
              (s'.modFn k.fn fun f => { f with cmdHeats := f.cmdHeats ++ [{ ring := r, slot := some slot }] }).finish .heatBegin k
                .ok ((((s'.fns[k.fn]).heat slot).map (·.number)).getD 0 % 2 ^ 32)) s

def execHeatBegin (k : Cmd) (s : State) : Res := hostCmd .heatBegin k (heatBegin k) s

/-- The command heat of a ring leaves it. -/
def State.dropCmdHeat (s : State) (fn : FnId) (r : Option RingId) : State :=
  s.modFn fn fun f => { f with cmdHeats := f.cmdHeats.filter fun c => some c.ring != r }

/-- A commit that meets a lost line of the heat area gives the function fault; the command replies INTEGRITY (R290, R311). -/
def heatEnd (k : Cmd) (env : Lines) (s : State) : State :=
  checked .heatEnd k (plain k [(0, 1)] && u k.p 0 1 < 2) 0
    (fun s =>
      if (s.fns[k.fn]).commits? .heatEnd k then s
      else match (s.fns[k.fn]).cmdHeats.find? fun c => some c.ring == k.ring with
      | none => s.finish .heatEnd k .notPermitted
      | some c =>
        let s' := s.dropCmdHeat k.fn k.ring
        match c.slot with
        | some slot =>
          if u k.p 0 1 = 0 then
            if env.heatArea then ((s'.scrapHeat k.fn slot .integrity).functionFault k.fn).finish .heatEnd k .integrity
            else s'.commitCmd .heatEnd k slot 0 []
          else (s'.scrapHeat k.fn slot .ok).finish .heatEnd k .ok
        | none => s'.finish .heatEnd k (c.scrapped.getD .annealed)) s

def execHeatEndCommit (k : Cmd × Lines) (s : State) : Res := hostCmd .heatEnd k.1 (heatEnd k.1 k.2) s
def execHeatEndScrap (k : Cmd) (s : State) : Res := hostCmd .heatEnd k (fun s => heatEnd k {} s) s

def execCommandHeatLifetime (fn : FnId) (ring : RingId) (s : State) : Res :=
  .next (match (s.fns[fn]).cmdHeats.find? (·.ring == ring) with
    | some c => match c.slot with
      | some slot => (s.scrapHeat fn slot .timeout).modFn fn fun f =>
          { f with cmdHeats := updateFirst (fun x : CmdHeat => x.ring == ring)
                     (fun x => { x with slot := none, scrapped := some .timeout }) f.cmdHeats }
      | none => s
    | none => s)

/-! ### Timeouts (Table TIME-6) -/

/-- The installed part of a mould that a forge's step uses. -/
def State.jobForge (s : State) (f : ForgeId) : Option (Job × Mould × MForge) :=
  match (s.forges[f]).job with
  | none => none
  | some j =>
    match (s.fns[j.fn]).mould? j.mould with
    | none => none
    | some m => (m.forges[j.logical]?).map fun mf => (j, m, mf)

/-- The receive path of a slot is in link-level retry, lane retrain or port anneal: it asserts HOLD on the slot (R42, R354). -/
def State.portHolds (s : State) (m : Mould) (logical slot : Nat) : Bool :=
  m.recvs.any fun e => e.forge == logical && e.slot == slot && match (m.portTo e.peer).bind s.physPort with
    | some p => (s.ports[p]).state == .annealing || (s.ports[p]).retraining != 0 || (s.ports[p]).again
    | none => false

/-- A producer holds HOLD on a slot of a mould (R82). -/
def State.slotHeld (s : State) (m : Mould) (logical slot : Nat) : Bool :=
  (m.forges[logical]?).any (·.hold.contains slot) || s.portHolds m logical slot

/-- The function whose policy admits a record's sender by its identity on the port (R362). -/
def State.msgFn (s : State) (p : PortId) (m : Msg) : Option FnId :=
  let q := s.ports[p]
  (List.finRange 64).find? fun fn => match (s.fns[fn]).cohort with
    | some c => c.id == m.cohort && c.entries.contains (q.partnerChip.toNat, q.partnerKey)
    | none => false

/-- The installed cohort mould that a record's DIGEST names. -/
def Fn.msgMould (f : Fn) (m : Msg) : Option Mould := f.moulds.find? fun x => x.flags.getLsbD 2 && x.shortDigest == m.digest

/-- The answer to a window request (Table GRIZ-7). -/
def State.answerWindow (s : State) (p : PortId) (m : Msg) (sub : Nat) (body : List Byte) : State :=
  let src := (((s.msgFn p m).bind fun fn => (s.fns[fn]).msgMould m).map (·.selfPos)).getD 0
  s.sendRecord p { kind := 9, sub, src, dst := m.src.toNat, cohort := m.cohort, digest := m.digest, step := m.step.toNat,
                   seq := m.seq.toNat, body }

/-- A window request is refused to its peer, logged and counted (R95): SUB 1 where its window does not admit it, SUB 2 after a
wait for a tag. -/
def State.refuseRequest (s : State) (p : PortId) (m : Msg) (sub : Nat := 1) : State :=
  let handle := u m.body 8 2
  ((s.modPort p fun q => { q with refusals := q.refusals + 1 }).log 0x0607 none (handle / 16)
    (toLe 2 handle ++ toLe 2 (s.ports[p]).partnerChip.toNat)).answerWindow p m sub []

/-- A window request waits on the slot, and no producer of its mould holds HOLD there. -/
def State.windowLate (s : State) (slot : Nat) (w : WinPend) : Bool :=
  w.win.slot == slot && match (s.fns[w.win.fn]).mould? w.win.mould with
    | some m => !s.slotHeld m w.win.logical slot
    | none => true

/-- Window requests that a slot's tag has blocked for longer than the slot wait are refused; no forge is annealed for them
(R95). -/
def State.refuseWindow (s : State) (f : ForgeId) (slot : Nat) : State :=
  ((s.forges[f]).winWait.filter (s.windowLate slot)).foldl (fun s x => s.refuseRequest x.port x.msg 2)
    (s.modForge f fun x => { x with winWait := x.winWait.filter fun y => !s.windowLate slot y })

/-- A slot wait of a forge agent that no producer holds expires (R79, R42): the forge of the blocked agent is annealed, which is
another forge when only a channel of that forge is blocked on the slot. -/
def State.slotAnneal (s : State) (f : ForgeId) (slot : BitVec 8) : State :=
  match s.jobForge f with
  | none => s
  | some (j, m, mf) =>
    let far := (List.finRange 64).find? fun g => ((s.forges[g]).tchans.toList.any fun c => c.waitOn == some (f, slot.toNat))
    if (!mf.wait.contains slot.toNat && far.isNone) || s.slotHeld m j.logical slot.toNat then s
    else
      let idx := (m.run.map (·.index)).getD 0
      let s := s.modForge f fun x => { x with slotTimeouts := satAdd 16 x.slotTimeouts 1 }
      let s := s.log 0x0303 (some j.fn) f.val (bvBytes 1 slot ++ [0, 0, 0] ++ toLe 4 idx)
      s.anneal (.forge (if mf.wait.contains slot.toNat then f else far.getD f)) 0x0101

/-- The slot wait expires. While a T1 channel retrains or is held for repair, no slot timer counts (R243). -/
def execSlotTimeout (f : ForgeId) (slot : BitVec 8) (s : State) : Res :=
  .next (if s.anyChanBusy then s else ((s.refuseWindow f slot.toNat).slotAnneal f slot).settle)

def execTongsDescriptorTimeout (f : ForgeId) (c : TongsId) (s : State) : Res :=
  let ch := (s.forges[f]).tchans[c]
  .next (match ch.active with
    | none => s
    | some a =>
      let s := s.modForge f fun x => { x with tchans := vmod x.tchans c fun t =>
        if t.errValid then t else { t with errValid := true, errStatus := Status.timeout.code, errDesc := a.index } }
      (s.anneal (.forge f) 0x0102).settle)

/-- A commit phase expires before the heat's own vote or decision: the heat is scrapped, the step replies TIMEOUT, the
tenant is annealed (R298, R300, R308). -/
def heatCommitPhaseTimeout (fn : FnId) (slot : Fin 32) (s : State) : State :=
  match (s.fns[fn]).heat slot with
  | none => s
  | some h =>
    match h.origin with
    | .step id b =>
      match (s.fns[fn]).mould? id with
      | none => s
      | some m =>
        match m.run, m.heats[b]? with
        | some r, some hb =>
          if h.state != HeatState.open_ || r.rerun || r.status.isSome || !r.committed hb.commitPhase then s
          else
            let s := if !hb.distributed then s
              else if m.coordinator == m.selfPos then s.announce fn slot m b h.stepIndex false
              else s.sendHeat fn m m.coordinator 2 b h.stepIndex
            (s.closeStep fn id .timeout true).anneal (.tenant fn) 0x0108
        | _, _ => s
    | _ => match h.reply with
      | some x => if h.state == HeatState.open_ then s.failCommit fn slot x 0x0108 else s
      | none => s

def execHeatCommitPhaseTimeout (fn : FnId) (slot : Fin 32) (s : State) : Res :=
  .next (heatCommitPhaseTimeout fn slot s).settle

/-- A step that runs, or waits at its gate, meets its deadline (R40, R51). -/
def stepDeadline (fn : FnId) (id : BitVec 64) (s : State) : State :=
  match (s.fns[fn]).mould? id with
  | none => s
  | some m =>
    if m.queue.isEmpty then s
    else
      let s := if m.run.isSome then s.closeStep fn id .timeout true
        else (s.modMould fn id fun m => { m with lastStatus := Status.timeout.code }).endRunCmd fn id .timeout
      s.anneal (.tenant fn)

def execStepDeadline (fn : FnId) (mould : BitVec 64) (s : State) : Res := .next (stepDeadline fn mould s).settle

/-- Commands that the admin-command timeout bounds: not the runs, scans and quiesces, which have bounds of their own, nor
LINK_BRINGUP (R331, R372). -/
def Op.adminBound : Op → Bool
  | .runStep | .runSteps | .retrieveScan | .quiesce | .disableFunction | .enableFunction | .linkBringup => false
  | _ => true

/-- The timeout of a command that has not completed: TIMEOUT, and no effect; a halt stays in force (R337). -/
def execAdminCommandTimeout (k : Cmd) (s : State) : Res :=
  .next (match s.flights.find? fun f => f.cmd == k && f.op.adminBound with
    | none => s
    | some f =>
      let s := { s with deferred := s.deferred.filter fun (d : Deferred) => match d with
        | .halt k' _ _ => k' != k
        | .closeSession k' => k' != k
        | .closeWindow k' _ _ => k' != k
        | _ => true }
      let s := if s.smith.heldFwLoad == some k then { s with smith := { s.smith with heldFwLoad := none } } else s
      (s.finish f.op k .timeout).settle)

/-- Every run command of a mould ends with a status. -/
def State.endQueue (s : State) (fn : FnId) (id : BitVec 64) (st : Status) : State :=
  match (s.fns[fn]).mould? id with
  | none => s
  | some m => m.queue.foldl (fun s (c : RunCmd) => s.finish c.op c.cmd st c.done c.output)
      (s.modMould fn id fun m => { m with queue := [] })

/-- The quiesce of a function expires: it is annealed at tenant level; a disable goes on at event 5 (R312, R332). -/
def quiesceExpiry (fn : FnId) (s : State) : State :=
  s.deferred.foldl (fun s d => match d with
    | .disable k f a flr =>
      if f == fn then
        let s := s.anneal (.tenant fn) 0x010A
        let s := ((s.fns[fn]).moulds).foldl (fun s (m : Mould) =>
          (s.endStep fn m.id .annealed true).endQueue fn m.id .annealed) s
        let s := (s.scrapPrepared fn).endFlights (fun x => x.cmd.fn == fn && x.cmd.ring.isSome) .annealed
        -- the disable completes, with ANNEALED, once the replies of the commands that this ended are written
        { s with deferred := s.deferred.map fun (x : Deferred) => if x == Deferred.disable k f a flr then Deferred.disable k f true flr else x }
      else s
    | .quiesce k fns _ =>
      if fns.contains fn && ((s.fns[fn]).active || (s.fns[fn]).scans.any (·.started)) then
        let s := { s with deferred := s.deferred.map fun (x : Deferred) => match x with
          | .quiesce k' l a => if k' == k then .quiesce k' l true else .quiesce k' l a
          | x => x }
        s.anneal (.tenant fn) 0x010A
      else s
    | _ => s) s
def execQuiesceTimeout (fn : FnId) (s : State) : Res := .next (quiesceExpiry fn s).settle

def execSmithWatchdog (s : State) : Res :=
  .next (if !s.hall.fwRunning || s.faulted then s
    else (({ s with smith := { s.smith with watchdog := inc32 s.smith.watchdog } } : State).anneal .device 0x010B).settle)

def execAnnealBoundExpiry (unit : AnnealUnit) (s : State) : Res :=
  .next (match s.anneals.find? (·.unit == unit) with
    | some r => (s.escalate r).settle
    | none => s)

/-- A transfer to or from host memory ends in error: the command concerned ends with HOST_FAULT, or the event ring is
torn down (Table CMND-1, R421). A run that already waits in its queue has read its payload. -/
def execCompletionError (fn : FnId) (ring : Option RingId) (seq : BitVec 32) (event : Bool) (s : State) : Res :=
  .next (if event then s.evTearDown
    else match s.flights.find? fun f => f.cmd.fn == fn && f.cmd.ring == ring && f.cmd.seq == seq && !f.background with
      | some f =>
        if (s.fns[fn]).moulds.any fun m => m.queue.any (·.cmd == f.cmd) then s
        else (({ s with deferred := s.deferred.filter fun (d : Deferred) => match d with
            | .halt k _ _ => k != f.cmd
            | .closeSession k => k != f.cmd
            | .closeWindow k _ _ => k != f.cmd
            | .quiesce k _ _ => k != f.cmd
            | _ => true } : State).finish f.op f.cmd .hostFault).settle
      | none => s.modRing fn ring fun q => { q with
          done := updateFirst (fun x : Reply => x.seq == seq) (fun x => { x with status := .hostFault, payload := [], detail := 0 }) q.done })

end Sys2Proof.Machine
end

