-- ==== Sys2Proof/Machine/Engine.lean ====
section
/-! DEFINITION. What the engines of a forge share: the instruction stream, refused Hearth accesses, the heat an action
belongs to, the prefetch judgement, and uncorrectable lines met by a read (R46 to R49, R60 to R62, R85, R241, R279). -/

namespace Sys2Proof.Machine

/-! ### The stream (R46, R49) -/

/-- The loops that end before `pc` start over or are left, innermost first. -/
def closeLoops : Nat → Nat → List Nest → Nat × List Nest
  | 0, pc, n => (pc, n)
  | fuel + 1, pc, n =>
    match n with
    | .loop first last left :: rest =>
      if pc = last + 1 then
        if 1 < left then (first, .loop first last (left - 1) :: rest) else closeLoops fuel pc rest
      else (pc, n)
    | n => (pc, n)

/-- Go on after `n` instructions. -/
def Forge.advance (x : Forge) (n : Nat := 1) : Forge :=
  let r := closeLoops 5 (x.pc + n) x.nest
  { x with pc := r.1, nest := r.2 }

def State.advance (s : State) (f : ForgeId) (n : Nat := 1) : State := s.modForge f (·.advance n)

/-- Byte fields of a stream instruction. -/
def wB (w : BitVec 128) (off n : Nat) : Nat := bits w.toNat (8 * off) (8 * n)

/-- Run the instruction at the head of a forge's stream: it is the stream's word, of the given engine code, on a forge
whose step runs. -/
def State.onStream (s : State) (f : ForgeId) (w : BitVec 128) (code : Nat)
    (body : Job → Mould → MForge → Running → State → State) : State :=
  match s.jobForge f with
  | none => s
  | some (j, m, mf) =>
    match m.run with
    | none => s
    | some r =>
      let x := s.forges[f]
      if r.rerun || r.status.isSome || x.ended || mf.stream[x.pc]? != some w || wB w 0 1 != code then s else body j m mf r s

/-- Step parameter word `i` (R48). -/
def Running.word (r : Running) (i : Nat) : Nat := u r.params (4 * i) 4

/-! ### Refused accesses (R85) -/

/-- A refused access ends the step with BANK_CONFLICT, with no anneal; `f` is the forge of the bank. -/
def State.conflict (s : State) (f : ForgeId) (j : Job) (agent : Nat) (c : Clash) : State :=
  let x := s.forges[f]
  let img := agent * 2 ^ 27 + c.bank * 2 ^ 22 + c.row * 2 ^ 12 + x.phase % 4096
  let idx := ((((s.fns[j.fn]).mould? j.mould).bind (·.run)).map (·.index)).getD 0
  let s := s.modForge f fun x =>
    let x := { x with conflictCount := satAdd 16 x.conflictCount 1 }
    if x.conflictValid then x
    else { x with conflictValid := true, conflict := BitVec.ofNat 31 img, conflictWrite := c.write
                  conflictUntagged := c.untagged }
  (s.log 0x0302 (some j.fn) f.val (toLe 4 (2 ^ 31 + img) ++ toLe 4 idx)).endStep j.fn j.mould .bankConflict

/-! ### The heat of an action (R67, R91) -/

/-- The heat to which the actions of a forge in a phase belong, once it is open. -/
def State.heatAt (s : State) (fn : FnId) (m : Mould) (phase : Nat) : Option (Fin 32) :=
  match m.heats.findIdx? (fun h => h.openPhase ≤ phase && phase ≤ h.commitPhase) with
  | none => none
  | some b => (List.finRange 32).find? fun i => match (s.fns[fn]).heat i with
    | some h => h.origin == .step m.id b && h.state == HeatState.open_
    | none => false

/-- A phase of a heat that an attempt of the step before has committed: a re-run repeats its work, whose actions are
committed already and are dropped (R309; DEDUCED, log 20). -/
def Mould.doneAt (m : Mould) (phase : Nat) : Bool :=
  (m.heats.take m.committed).any fun h => h.openPhase ≤ phase && phase ≤ h.commitPhase

/-- The heat of a forge's phase, whatever its state: its agents read its shadows (R293). -/
def State.heatOfForge (s : State) (f : ForgeId) : Option (Fin 32) :=
  match s.jobForge f with
  | some (j, m, _) => s.heatAt j.fn m (s.forges[f]).phase
  | none => none

/-! ### T1 places and channels (R233, R242) -/

/-- A copy of the page was lost and has not been fetched again yet (Table TIER-5). -/
def State.refetched (s : State) (fn : FnId) (num : Nat) : Bool :=
  match s.pageAt fn (num * 65536) with
  | some (_, p) => p.refetch && !p.t1
  | none => false

/-- A page is resident in T1 (R233). -/
def State.resident (s : State) (fn : FnId) (num : Nat) : Bool :=
  match s.pageAt fn (num * 65536) with
  | some (_, p) => p.t1 && !s.chanBlocks fn (num * 65536) 65536
  | none => true

/-! ### The prefetch judgement (R60 to R62, R234) -/

inductive Fetched where
  | ready
  | stall
  | divert (alt : Nat)
  deriving DecidableEq, Repr

/-- Add one to a counter of a list of sixteen. -/
def bump16 (v : Vector Nat 16) (i d : Nat) : Vector Nat 16 :=
  if h : i < 16 then v.set i (v[i] + d) else v

/-- Count a miss, for the function and for the mould (R61, R62, R234). -/
def State.countMiss (s : State) (fn : FnId) (id : BitVec 64) (e : Prefetch) : State :=
  let s := s.modFn fn fun x => if e.divert then { x with diverts := bump16 x.diverts e.group 1 }
    else { x with stallMisses := bump16 x.stallMisses e.group 1 }
  s.modMould fn id fun m => if e.divert then { m with diverts := bump16 m.diverts e.group 1 }
    else { m with stallMisses := bump16 m.stallMisses e.group 1 }

/-- Judge the entries that a read in NEED_PHASE meets, and say how the read goes. -/
def State.judge (s : State) (fn : FnId) (id : BitVec 64) (phase : Nat) (pages : List Nat) : State × Fetched :=
  match (s.fns[fn]).mould? id with
  | none => (s, .ready)
  | some m =>
    match m.run with
    | none => (s, .ready)
    | some r =>
      r.fetches.zipIdx.foldl (fun (acc : State × Fetched) (x : Fetch × Nat) =>
        let (s, out) := acc
        match m.prefetch[x.1.entry]? with
        | none => acc
        | some e =>
          if x.1.step != r.index || e.needPhase != phase || !(pages.any x.1.pages.contains) then acc
          else
            let here := x.1.pages.all (s.resident fn)
            let again := pages.any fun p => x.1.pages.contains p && s.refetched fn p
            let note := fun (s : State) (judged : Bool) => s.modRun fn id fun r => { r with fetches := match r.fetches[x.2]? with
              | some f => r.fetches.set x.2 { f with judged := some judged
                                                     waitFrom := if here then none else f.waitFrom.orElse fun _ => some s.time.ticks }
              | none => r.fetches }
            let s := if x.1.judged.isNone then (if here then note s here else (note s here).countMiss fn id e)
              else if again && !e.divert then note s (x.1.judged.getD here) else s
            if x.1.judged.getD here && !again then (s, out)
            else if e.divert then (s, .divert e.alt)
            else if here then (s, out) else (s, if out == .ready then .stall else out)) (s, .ready)

/-! ### Waits for a missed entry (R61, R234) -/

/-- The cause under which a page waited longest; equal waits count under the lowest code, and no wait at all as SHORT_LEAD
(DESIGN CHOICE, log 54). -/
def Page.cause (p : Page) : Nat :=
  (p.waits.foldl (fun (b : Nat × Nat) w => if b.2 < w.2 || (b.2 == w.2 && w.1 < b.1) then w else b) (8, 0)).1

/-- The last page of a list to arrive. -/
def State.lastArrival (s : State) (fn : FnId) (pages : List Nat) : Option Page :=
  (pages.filterMap fun n => (s.pageAt fn (n * 65536)).map (·.2)).foldl (fun b p => match b with
    | some q => if q.arrived ≤ p.arrived then some p else b
    | none => some p) none

/-- Misses whose last page is resident now: the wait of a STALL entry and the cause are counted (R61, R234). -/
def State.countArrivals (s : State) (fn : FnId) : State :=
  ((s.fns[fn]).moulds).foldl (fun s (m : Mould) => match m.run with
    | none => s
    | some r => r.fetches.zipIdx.foldl (fun s (x : Fetch × Nat) => match x.1.waitFrom, m.prefetch[x.1.entry]? with
      | some t, some e =>
        if x.1.pages.all (s.resident fn) then
          let c := ((s.lastArrival fn x.1.pages).map Page.cause).getD 8
          let wait := if e.divert then 0 else s.time.ticks - t
          let s := s.modFn fn fun f => { f with stallTicks := bump16 f.stallTicks e.group wait, causes := bump16 f.causes c 1 }
          let mark := fun (y : Running) => ({ y with fetches := match y.fetches[x.2]? with
            | some f => y.fetches.set x.2 { f with waitFrom := none }
            | none => y.fetches } : Running)
          let upd := fun (m : Mould) => ({ m with
            stallTicks := bump16 m.stallTicks e.group wait
            causes := if h : c - 1 < 8 then m.causes.set (c - 1) (m.causes[c - 1] + 1) else m.causes
            run := m.run.map mark } : Mould)
          s.modMould fn m.id upd
        else s
      | _, _ => s) s) s

/-- Alternates that the stream is inside of. -/
def Forge.altDepth (x : Forge) : Nat := (x.nest.filter fun n => match n with
  | .call _ alt => alt
  | _ => false).length

/-- Call an alternate source on a forge (R62, R65, R193): a subroutine of its stream, or a request to the peer that holds
the replica (R366). A subroutine runs from the stream's present position, anew for each descriptor or page that diverts: the
spec says neither where nor how often it runs when several reads of one missed entry divert (DESIGN CHOICE, log 164). -/
def State.callAlternate (s : State) (f : ForgeId) (j : Job) (m : Mould) (mf : MForge) (r : Running) (alt : Nat) : State :=
  match m.alternates[alt]? with
  | none => s
  | some a =>
    if a.kind = 1 then match m.recvs[a.recv]? with
      | some e =>
        let s := s.modRun j.fn j.mould fun r => { r with requested := if r.requested.contains a.recv then r.requested else r.requested ++ [a.recv] }
        if r.requested.contains a.recv || (s.fns[j.fn]).recvLog.any (fun x => x.mould == m.id && x.recv == a.recv && x.step == r.index) then s
        else (s.modMould j.fn j.mould fun m => { m with credited := m.credited ++ [a.recv] }).sendTo j.fn m e.peer 0x03 0 r.index e.sequence
      | none => s
    else s.modForge f fun x => { x with nest := .call x.pc true :: x.nest, pc := (mf.subs[a.sub]?).getD x.pc }

/-! ### Uncorrectable lines (R241, R279, Table TIER-5, Table PLIN-8) -/

/-- What a read that meets an uncorrectable line does. -/
inductive Ue where
  | wait
  | kv
  | fatal
  deriving DecidableEq, Repr

/-- Functions that map a shared model (R396). -/
def State.modelUsers (s : State) (m : Fin 16) : List FnId :=
  s.fnsWith fun f => f.spans.any (·.model == some m)

/-- WEIGHT_REFETCH to every tenant that uses a model. -/
def State.weightRefetch (s : State) (m : Fin 16) (off : Nat) : State :=
  let id := ((s.models[m]).map (·.id)).getD 0
  (s.modelUsers m).foldl (fun s fn => s.log 0x0204 (some fn) 0 (toLe 8 id.toNat ++ toLe 4 (off / 65536))) s

def addBad (line : Nat) (p : Page) : Page := { p with bad := if p.bad.contains line then p.bad else p.bad ++ [line] }

/-- A page that is not restored is POISONED; a billet is reported (Table POWR-5). -/
def State.poisonPage (s : State) (g : FnId) (a line : Nat) : State :=
  let s := s.modPage g (a / 65536) (addBad line)
  if (s.fns[g]).roleOf a == some .billets then
    ({ s with migr := { s.migr with poisoned := inc32 s.migr.poisoned } } : State).log 0x0203 (some g) 0 (toLe 8 (a / 65536 * 65536)) else s

/-- The header of an uncorrectable KV page, in whatever state the page is (R202). -/
def poisonHdr (n : Nat) (f : Fn) : Fn :=
  let hit := fun (h : KvHdr) => h.num == n && h.state != KvState.free
  { f with hdrs := updateWhere hit (fun h => { h with state := .poisoned }) f.hdrs }

/-- A lost line of the header table: its four headers; a page that was FREE leaves the pool with it. -/
def loseHdrs (n : Nat) (f : Fn) : Fn :=
  let missing := ((List.range 4).map (n + ·)).filter fun k => (f.hdr? k).isNone
  { f with hdrs := updateWhere (fun (h : KvHdr) => n ≤ h.num && h.num < n + 4) (fun h => { h with lost := true }) f.hdrs
      ++ missing.map fun k => { num := k, state := .free, lost := true } }

/-- No byte of a page can be read (R168). -/
def State.poisonWhole (s : State) (g : FnId) (a : Nat) : State :=
  (s.poisonPage g a 0).modPage g (a / 65536) fun p => { p with bad := List.range 256 }

/-- A page whose copy is lost is fetched again, from T2 or through the host (Table TIER-5, Table PLIN-8). -/
def State.fetchAgain (s : State) (g : FnId) (num : Nat) (upd : Page → Page) : State :=
  s.stamp.2.modPage g num fun p => { upd p with up := true, refetch := true, ticket := if p.up then p.ticket else s.stamp.1
                                                waits := if p.up then p.waits else [] }

/-- The count and the event of an uncorrectable beat in a unit of a T1 channel (R241). -/
def State.countUe (s : State) (g : Option FnId) (c : ChanId) (unit : Nat) (address : Bool) : State :=
  (s.modChan c fun x => if address then { x with ueAddress := satAdd 16 x.ueAddress 1 } else { x with ueOther := satAdd 16 x.ueOther 1 }).log
    0x0202 g c.val (toLe 4 unit ++ toLe 1 (b2n address))

/-- What becomes of a page of which T1 has lost a line (Table TIER-5). -/
def State.loseT1 (s : State) (g : FnId) (a : Nat) : State × Ue :=
  let line := a % 65536 / 256
  if indexBase ≤ a then
    let b := (a - indexBase) / 256 * 65536
    (s.poisonPage g b 256, .fatal)
  else
    match (s.fns[g]).roleOf a with
    | some .kvHeaders =>
      let n := (a - ((s.fns[g]).roleBase .kvHeaders).getD 0) / 256 * 4
      (s.modFn g (loseHdrs n), .fatal)
    | some .kvLists =>
      let lo := a / 256 * 256
      (s.modFn g fun f => { f with seqs := updateWhere (fun (q : Seq) => q.listBase < lo + 256 && lo < q.listBase + q.listBytes) (fun q => { q with lost := q.lost ++ [lo] }) f.seqs }, .fatal)
    | some .kvPages =>
      let n := ((s.fns[g]).kvPageOf a).getD 0
      ((s.modPage g (a / 65536) (addBad line)).modFn g (poisonHdr n), .kv)
    | _ =>
      match (s.fns[g]).page? (a / 65536) with
      | none => (s, .fatal)
      | some p =>
        if p.sealed_ && p.t2 then (s.fetchAgain g (a / 65536) fun p => { p with t1 := false, staged := false }, .wait)
        else match s.modelOf g a with
          | some (m, off) =>
            if p.sealed_ then ((s.fetchAgain g (a / 65536) fun p => { p with t1 := false, staged := false }).weightRefetch m off, .wait)
            else (s.poisonPage g a line, .fatal)
          | none => (s.poisonPage g a line, .fatal)

/-- Frame of a Range page in T2. -/
def State.t2Frame (s : State) (g : FnId) (a : Nat) : Option Nat :=
  (s.t2.find? fun x => match x.use with
    | .span h n => h == g && n == a / 2097152
    | .model m n => n == a / 2097152 && (match s.models[m] with
        | some x => x.publisher == g
        | none => false)
    | _ => false).map (·.num)

/-- Die address of a byte of a T2 frame (R256). -/
def t2Die (frame off : Nat) : Nat := 0x4000000000 + frame * 2097152 + off

/-- Die address in T2 of the byte at an address of the Range that holds it. -/
def State.t2Addr (s : State) (g : FnId) (a : Nat) : Option Nat := (s.t2Frame g a).map fun fr => t2Die fr (a % 2097152)

/-- Plinth of a T2 die address. -/
def t2Plinth (d : Nat) : PlinthId := Fin.ofNat 8 (t2Place d).plinth

/-- The T2 copy of a page of a shared model, or of a private one, is lost: what Table PLIN-8 does for its reader. -/
def State.lostT2 (s : State) (g : FnId) (a : Nat) (p : Page) : State × Ue :=
  if !p.homeT2 then ((s.modPage g (a / 65536) fun p => { p with t2 := false, down := true }).queueMoves g none, .wait)
  else match s.modelOf g a with
    | some (m, off) =>
      let s := { s.fetchAgain g (a / 65536) fun p => { p with t2 := false } with migr := { s.migr with clock := s.migr.clock + 1, poisoned := inc32 s.migr.poisoned } }
      ((s.log 0x0203 (some g) 0 (toLe 8 (a / 65536 * 65536))).weightRefetch m off, .wait)
    | none =>
      let s := s.modPage g (a / 65536) fun p => { p with t2 := false, up := false }
      if (s.fns[g]).roleOf a == some .kvPages then
        let k := ((s.fns[g]).kvPageOf a).getD 0
        ((s.modPage g (a / 65536) (addBad (a % 65536 / 256))).modFn g (poisonHdr k), .kv)
      else (s.poisonPage g a (a % 65536 / 256), .fatal)

/-- The count, the record and the event of an uncorrectable block of T2, or of a failed tag (R279). -/
def State.countT2 (s : State) (g : Option FnId) (die : Nat) (tag : Bool) : State :=
  let n := t2Plinth die
  (s.modPlinth n fun p =>
    let p := if tag then { p with tagFail := inc32 p.tagFail } else { p with ue := inc32 p.ue }
    if p.errValid then p
    else { p with errValid := true, errStatus := Status.integrity.code, errKind := if tag then 3 else 2
                  errChain := (t2Chain die).val }).log (if tag then 0x0803 else 0x0802) g n.val (toLe 4 (die / 4096))

/-- An uncorrectable block (or, with `tag`, a failed block tag) of a page's T2 copy: the copy is released and its frame retired
(Table PLIN-8). -/
def State.ueT2 (s : State) (g : FnId) (a : Nat) (tag : Bool) : State × Ue :=
  let fr := (s.t2Frame g a).getD 0
  let s := s.countT2 (some g) (t2Die fr (a % 2097152)) tag
  let s := { s with retired := if s.retired.contains fr then s.retired else s.retired ++ [fr] }
  match (s.fns[g]).page? (a / 65536) with
  | none => (s, .fatal)
  | some p => s.lostT2 g a p

/-! ### Reads of the tiers (R230, R239, R241, R261) -/

/-- What a read finds lost: a line of T1; a block of T2, with its tag or without. -/
inductive LineErr where
  | t1
  | t2 (tag : Bool)
  deriving DecidableEq, Repr

/-- A byte of a function's Range is read from T1. -/
def State.inT1 (s : State) (fn : FnId) (a : Nat) : Bool := match s.pageAt fn a with
  | some (_, p) => p.t1
  | none => true

/-- The beats of T1 units, and the blocks of T2, that a read of `[addr, addr + n)` takes in. -/
def State.beatsOf (s : State) (fn : FnId) (addr n : Nat) (env : Lines) : List (Nat × BitVec 320) :=
  env.beats.filter fun b => addr / 256 ≤ b.1 / 8 && b.1 / 8 < (addr + n + 255) / 256 && s.inT1 fn (32 * b.1)
def State.blocksOf (s : State) (fn : FnId) (addr n : Nat) (env : Lines) : List BlockErr :=
  env.blocks.filter fun b => addr / 4096 ≤ b.block && b.block < (addr + n + 4095) / 4096 && !s.inT1 fn (4096 * b.block)

/-- What a read finds lost, by Range address. -/
def State.lineErrs (s : State) (fn : FnId) (addr n : Nat) (env : Lines) : List (Nat × LineErr) :=
  ((((s.beatsOf fn addr n env).filter fun b => beatLost b.2).map fun b => b.1 / 8 * 256).eraseDups.map fun a => (a, .t1)) ++
  ((s.blocksOf fn addr n env).filter (·.lost)).map fun b => (4096 * b.block, .t2 !b.ue)

/-- One more corrected beat at a location. -/
def bumpAt (k : Nat × Nat × Nat) (l : List (Nat × Nat × Nat × Nat)) : List (Nat × Nat × Nat × Nat) :=
  let hit := fun (x : Nat × Nat × Nat × Nat) => x.1 == k.1 && x.2.1 == k.2.1 && x.2.2.1 == k.2.2
  if l.any hit then updateFirst hit (fun x => (x.1, x.2.1, x.2.2.1, x.2.2.2 + 1)) l else l ++ [(k.1, k.2.1, k.2.2, 1)]

/-- A corrected beat of a unit, by the number of its symbols: the channel's count, and those of its row and its column group
(R239, R252). -/
def State.countFixed (s : State) (c : ChanId) (unit beat symbols : Nat) : State :=
  let at_ := Config.dramPlace (256 * s.unitStripe unit + 32 * beat)
  s.modChan c fun x => { x with
    ce1 := if symbols = 1 then inc32 x.ce1 else x.ce1, ce2 := if symbols = 2 then inc32 x.ce2 else x.ce2
    located := bumpAt (at_.1 % 16, 2, at_.2.2) (bumpAt (at_.1 % 16, 1, at_.2.1) x.located) }

/-- What the decoder makes of one beat of a unit is counted (R239). -/
def State.countBeat (s : State) (g : Option FnId) (c : ChanId) (unit beat : Nat) (e : BitVec 320) : State :=
  match beatClass e with
  | .clean => s
  | .fixed l => s.countFixed c unit beat l.length
  | .address => s.countUe g c unit true
  | .other => s.countUe g c unit false

/-- What a read meets on its way is counted: beats of T1 (R239), bursts and blocks that T2 corrects (R255, R259). -/
def State.countReads (s : State) (fn : FnId) (addr n : Nat) (env : Lines) : State :=
  let s := (s.beatsOf fn addr n env).foldl (fun (s : State) b => match s.t1Addr fn (32 * b.1) with
    | some d => s.countBeat (some (s.resolve fn (32 * b.1)).1) (s.unitChan (d / 256)) (d / 256) (b.1 % 8) b.2
    | none => s) s
  (s.blocksOf fn addr n env).foldl (fun (s : State) b =>
    let (g, a) := s.resolve fn (4096 * b.block)
    match s.t2Addr g a with
    | some d => s.modPlinth (t2Plinth d) fun p => { p with
        ceOdecc := satAdd 32 p.ceOdecc b.odecc
        ceCheck := match blockClass b.errs with
          | .fixed _ _ => inc32 p.ceCheck
          | _ => p.ceCheck }
    | none => s) s

/-- The bytes of `[addr, …)` as a read delivers them, once what it met has been corrected: miscorrected ones among them (R239). -/
def State.asRead (s : State) (fn : FnId) (addr : Nat) (env : Lines) (bs : List Byte) : List Byte :=
  if env.beats.isEmpty && env.blocks.isEmpty then bs
  else bs.mapIdx fun i b =>
    if s.inT1 fn (addr + i) then match env.beats.find? (·.1 == (addr + i) / 32) with
      | some x => b ^^^ beatFlip x.2 ((addr + i) % 32)
      | none => b
    else match env.blocks.find? (·.block == (addr + i) / 4096) with
      | some x => b ^^^ blockFlip x.errs ((addr + i) % 4096)
      | none => b

/-- One lost line or block that a read of a function finds. -/
def State.ueAt (s : State) (fn : FnId) (x : Nat × LineErr) : State × Ue :=
  let (g, a) := s.resolve fn x.1
  match x.2 with
  | .t1 => s.loseT1 g a
  | .t2 tag => s.ueT2 g a tag

/-- A read of `[addr, addr + n)` of a function's Range: whether it delivers, waits, or ends its step with a status. -/
inductive Meets where
  | fine
  | wait
  | ends (st : Status)
  deriving DecidableEq, Repr

def Ue.toMeets : Ue → Meets
  | .wait => .wait
  | .kv | .fatal => .ends .integrity

/-- Blocks of T2 that a read of `[addr, addr + n)` takes from pages held in T2 only, as die addresses (R230). -/
def State.t2Reads (s : State) (fn : FnId) (addr n : Nat) : List Nat :=
  (List.range ((addr + n + 4095) / 4096 - addr / 4096)).filterMap fun i =>
    let a := (addr / 4096 + i) * 4096
    if s.inT1 fn a then none else s.t2Addr (s.resolve fn a).1 (s.resolve fn a).2

/-- A bank of a T2 die address is in an access phase (R275). -/
def State.accessHits (s : State) (d n : Nat) : Bool :=
  let banks := ((s.plinths[t2Plinth d]).chains[t2Chain d]).accessBanks
  !banks.isEmpty && (t2Banks d n).any banks.contains

/-- An ordinary request for `n` bytes waits: a bank there is in an access phase, and the request has not had its turn between
two access phases (R275). -/
def State.bankBusy (s : State) (d n : Nat) : Bool :=
  s.accessHits d n && !((s.plinths[t2Plinth d]).chains[t2Chain d]).due.contains (d / 65536)

/-- A request waits in the bank queue of its chain. -/
def State.queueOrd (s : State) (n : PlinthId) (c : ChainId) (q : OrdReq) : State :=
  s.modPlinth n fun p => { p with chains := vmod p.chains c fun x => { x with ordQ := if x.ordQ.contains q then x.ordQ else x.ordQ ++ [q] } }

/-- What the read meets: pages whose only copy is being fetched again or lies behind a link that is down, busy channels and
banks, lines poisoned before, a lost line of the heat area where a shadow serves it (R311), and lines lost now. What it
corrects is counted. -/
def State.meet (s : State) (fn : FnId) (addr n : Nat) (env : Lines) (slot : Option (Fin 32) := none) : State × Meets :=
  let pages := (List.range ((addr + n + 65535) / 65536 - addr / 65536)).map (addr / 65536 + ·)
  let gone := pages.any fun p => match s.pageAt fn (p * 65536) with
    | some (g, x) => !x.t1 && (!x.t2 || match s.t2Frame g (x.num * 65536) with
        | some fr => !(s.plinths[(Fin.ofNat 8 fr : Fin 8)]).linkUp
        | none => false)
    | none => false
  let held := (s.t2Reads fn addr n).filter fun d => s.bankBusy d 4096
  if s.poisonedIn fn addr n slot then (s, .ends .integrity)
  else if gone || s.chanBlocks fn addr n then (s.enqueue (s.t1Units fn addr n), .wait)
  else if !held.isEmpty then (held.foldl (fun s d => s.queueOrd (t2Plinth d) (t2Chain d) (.read (d / 65536))) s, .wait)
  else if env.heatArea && (List.range ((addr + n + 4095) / 4096 - addr / 4096)).any fun i => ((s.fns[fn]).claimer (addr / 4096 + i)).isSome then
    (s.functionFault fn, .ends .integrity)
  else
    let errs := s.lineErrs fn addr n env
    if errs.isEmpty then (s.countReads fn addr n env, .fine)
    else errs.foldl (fun (acc : State × Meets) x =>
      let (s, e) := acc.1.ueAt fn x
      (s, match acc.2 with
        | .ends st => .ends st
        | _ => e.toMeets)) (s.countReads fn addr n env, .wait)

end Sys2Proof.Machine
end

