-- ==== Sys2Proof/Machine/Anvil.lean ====
section
/-! DEFINITION. The Anvil and Swage: configurations, issue checks, exact products, rounding, the finished-tile queue,
expansion of stored panels (R106 to R127, R161 to R168). -/

namespace Sys2Proof.Machine

/-! ### Operand formats (Table ANVL-1, R108 to R111) -/

/-- Bits of an element of a format code. -/
def fmtBits (c : Nat) : Nat := if c = 4 ∨ c = 5 then 4 else if c = 6 then 16 else 8

def fmtFloat (c : Nat) : Bool := c == 0 || c == 1 || c == 6

/-- An operand element as `m × 2^e`, with the mark that it was replaced (Table ANVL-2); `z` is the zero-point byte. -/
def operand (c p z : Nat) : Int × Int × Bool :=
  let float := fun (f : FFmt) => match f.read p with
    | .fin m e => (m, e, false)
    | .nan => (0, 0, true)
    | .inf neg => (if neg then -(f.top.1 : Int) else f.top.1, f.top.2, true)
  match c with
  | 0 => float fmtE4M3
  | 1 => float fmtE5M2
  | 2 => (sext 8 p - sext 8 z, 0, false)
  | 3 => ((p : Int) - z, 0, false)
  | 4 => (sext 4 p - sext 4 z, 0, false)
  | 5 => ((p : Int) - (z % 16 : Nat), 0, false)
  | _ => float fmtBF16

/-! ### Instruction fields (Tables ANVL-7, ANVL-8) -/

namespace AnvilJob

def aFmt (a : AnvilJob) : Nat := bits a.cfg.aSide.toNat 0 4
def bFmt (a : AnvilJob) : Nat := bits a.cfg.bSide.toNat 0 4
def aGroup (a : AnvilJob) : Nat := 32 * 2 ^ bits a.cfg.aSide.toNat 6 2
def bGroup (a : AnvilJob) : Nat := 32 * 2 ^ bits a.cfg.bSide.toNat 6 2
def aScaled (a : AnvilJob) : Bool := bit a.cfg.aSide.toNat 5
def bScaled (a : AnvilJob) : Bool := bit a.cfg.bSide.toNat 5
def aZero (a : AnvilJob) : Bool := bit a.cfg.aSide.toNat 4
def bZero (a : AnvilJob) : Bool := bit a.cfg.bSide.toNat 4
def out (a : AnvilJob) : Nat := bits a.cfg.out.toNat 0 4
def mt (a : AnvilJob) : Nat := 2 ^ bits a.cfg.mt.toNat 0 3
def shift (a : AnvilJob) : Int := a.cfg.shift.toInt
def preload (a : AnvilJob) : Bool := bit (wB a.word 1 1) 0
def oscale (a : AnvilJob) : Bool := bit (wB a.word 1 1) 1
def drain (a : AnvilJob) (i : Nat) : Bool := bit (wB a.word 1 1) (2 + i)
def aSlot (a : AnvilJob) : Nat := wB a.word 2 1
def bSlot (a : AnvilJob) : Nat := wB a.word 3 1
def sSlot (a : AnvilJob) : Nat := wB a.word 4 1
def pSlot (a : AnvilJob) : Nat := wB a.word 5 1
def aRow (a : AnvilJob) : Nat := wB a.word 6 2
def bRow (a : AnvilJob) : Nat := wB a.word 8 2
def k (a : AnvilJob) : Nat := 256 * wB a.word 10 2
def nTiles (a : AnvilJob) : Nat := wB a.word 12 1
/-- Depth of an A panel (R113). -/
def depth (a : AnvilJob) : Nat := 65536 * 8 / fmtBits a.aFmt / 128
def panels (a : AnvilJob) : Nat := a.k / a.depth
/-- Rows of one B token. -/
def bRows (a : AnvilJob) : Nat := ceilDiv (a.k * fmtBits a.bFmt) 4096
def bf16 (a : AnvilJob) : Bool := a.aFmt == 6

/-- Rows of the five side parts, in slot order (Table ANVL-4). -/
def sideRows (a : AnvilJob) : List Nat :=
  let rows := fun (use : Bool) n => if use then ceilDiv n 512 else 0
  [rows a.aScaled (a.nTiles * (a.k / a.aGroup) * 128), rows a.aZero (a.nTiles * (a.k / a.aGroup) * 128),
   rows a.bScaled (a.mt * (a.k / a.bGroup)), rows a.bZero (a.mt * (a.k / a.bGroup)), rows a.oscale a.mt]

def sideTotal (a : AnvilJob) : Nat := a.sideRows.foldl (· + ·) 0
/-- First row of side part `i`, counted from 0. -/
def sideAt (a : AnvilJob) (i : Nat) : Nat := a.cfg.sRow + (a.sideRows.take i).foldl (· + ·) 0
def usesSide (a : AnvilJob) : Bool := a.sideTotal != 0

/-- Check 1 to 5 of R123, and R162. A SHIFT outside -64 to 63 has a range in Table ANVL-7 and no case in R123: case 1 refuses it
(DESIGN CHOICE, log 168). -/
def ok (a : AnvilJob) (mf : MForge) : Bool :=
  let fa := a.aFmt
  let fb := a.bFmt
  let intOut := 2 ≤ a.out && a.out ≤ 4
  -- 1
  fa ≤ 6 && fb ≤ 6 && bits a.cfg.aSide.toNat 6 2 != 3 && bits a.cfg.bSide.toNat 6 2 != 3 && a.cfg.out.toNat ≤ 5 &&
    a.cfg.mt.toNat ≤ 6 && -64 ≤ a.shift && a.shift ≤ 63 && wB a.word 1 1 < 64 && wB a.word 13 3 == 0 &&
  -- 2
  ((fa == 6) == (fb == 6)) &&
    !(fa == 6 && (a.aScaled || a.aZero || a.bScaled || a.bZero || bits a.cfg.bSide.toNat 6 2 != 0)) &&
    !(fa == 1 && a.aScaled) && !(fb == 1 && a.bScaled) && !(fmtFloat fa && a.aZero) && !(fmtFloat fb && a.bZero) &&
  -- 3
  !(a.out == 5 && (a.bf16 || a.oscale)) && (a.shift == 0 || intOut) &&
    !(a.preload && (a.bf16 || a.pSlot == 0xFF)) && !(a.usesSide && a.sSlot == 0xFF) &&
    !(a.drain 2 && a.sSlot == 0xFF) && !(a.drain 3 && a.pSlot == 0xFF) &&
  -- 4
  1 ≤ a.k && a.k ≤ 65536 && 1 ≤ a.nTiles && a.k % a.depth == 0 &&
  -- 5
  a.aSlot != 0xFF && mf.fits a.aSlot a.aRow (a.nTiles * a.panels * 128) &&
    a.bSlot != 0xFF && mf.fits a.bSlot a.bRow (a.mt * a.bRows) &&
    (!a.usesSide || mf.fits a.sSlot a.cfg.sRow a.sideTotal) &&
    (!a.preload || mf.fits a.pSlot a.cfg.pRow (4 * a.nTiles * a.mt)) &&
  -- R162
  (!a.swage.coded || (a.swage.hSlot != 0xFF && mf.fits a.swage.hSlot a.swage.hRow (ceilDiv (a.nTiles * a.panels) 2)))

/-- The rows that the instruction reads, as agent 0x1. -/
def accs (a : AnvilJob) : List Acc :=
  [{ slot := a.aSlot, first := a.aRow, n := a.nTiles * a.panels * 128 },
   { slot := a.bSlot, first := a.bRow, n := a.mt * a.bRows }]
  ++ (if a.sSlot != 0xFF && (a.usesSide || a.drain 2) then [{ slot := a.sSlot, first := a.cfg.sRow, n := max 1 a.sideTotal }] else [])
  ++ (if a.pSlot != 0xFF && (a.preload || a.drain 3) then [{ slot := a.pSlot, first := a.cfg.pRow, n := max 1 (4 * a.nTiles * a.mt) }] else [])
  ++ (if a.swage.coded then [{ slot := a.swage.hSlot, first := a.swage.hRow, n := ceilDiv (a.nTiles * a.panels) 2 }] else [])

/-- Beats of one tile (R127). -/
def beats (a : AnvilJob) : Nat :=
  let l := 64 / a.mt
  let base := if a.bf16 then 4 * a.k / l else if fmtBits a.aFmt = 4 && fmtBits a.bFmt = 4 then ceilDiv a.k (2 * l) else ceilDiv a.k l
  max base (ceilDiv (a.k * 16 * fmtBits a.aFmt) 2048)

end AnvilJob

/-! ### The product (R112, R114, R117) -/

/-- Operand bytes of one tile: expanded A panels, B tokens, side parts, preload rows. -/
structure TileIn where
  a : List (List Byte)
  b : List (List Byte)
  side : List (List Byte)
  pre : List Byte

/-- Element `k` of feature `c`: A, with its zero point and its scale. Of INT4 weights, Table ANVL-1 puts the even K index in the
low nibble, and Table ANVL-4 stores each K index of A as 64 bytes in feature order; the nibbles of A go by the feature, the even
one low (DESIGN CHOICE, log 168). -/
def TileIn.aElem (t : TileIn) (j : AnvilJob) (tile c k : Nat) : Int × Int × Bool :=
  let i := (tile * (j.k / j.aGroup) + k / j.aGroup) * 128 + c
  operand j.aFmt (elemAt (fmtBits j.aFmt) (t.a.getD (k / j.depth) []) (k % j.depth * 128 + c))
    (if j.aZero then u (t.side.getD 1 []) i 1 else 0)

def TileIn.bElem (t : TileIn) (j : AnvilJob) (tok k : Nat) : Int × Int × Bool :=
  operand j.bFmt (elemAt (fmtBits j.bFmt) (t.b.getD tok []) k)
    (if j.bZero then u (t.side.getD 3 []) (tok * (j.k / j.bGroup) + k / j.bGroup) 1 else 0)

/-- The scale of a side's group, one where the side is not SCALED. -/
def TileIn.aScale (t : TileIn) (j : AnvilJob) (tile c k : Nat) : Nat × Int :=
  if j.aScaled then scaleOf ((t.side.getD 0 []).getD ((tile * (j.k / j.aGroup) + k / j.aGroup) * 128 + c) 0) else (1, 0)
def TileIn.bScale (t : TileIn) (j : AnvilJob) (tok k : Nat) : Nat × Int :=
  if j.bScaled then scaleOf ((t.side.getD 2 []).getD (tok * (j.k / j.bGroup) + k / j.bGroup) 0) else (1, 0)

/-- One term in units of 2^-64, exact under Table ANVL-5. -/
def TileIn.term (t : TileIn) (j : AnvilJob) (tile c tok k : Nat) : Int :=
  let a := t.aElem j tile c k
  let b := t.bElem j tok k
  let sa := t.aScale j tile c k
  let sb := t.bScale j tok k
  floorShift (a.1 * b.1 * sa.1 * sb.1) (a.2.1 + b.2.1 + sa.2 + sb.2 + 64)

/-- The accumulator after the instruction, a 128-bit two's-complement number (R114 to R116). -/
def TileIn.acc (t : TileIn) (j : AnvilJob) (tile c tok : Nat) : Int :=
  let p := if j.preload then sext 128 (u t.pre (((tok * 4) * 512) + 16 * c) 16) else 0
  sext 128 (wrapInt 128 ((List.range j.k).foldl (fun s k => s + t.term j tile c tok k) p))

/-- One group of BF16 mode: its value, and the group's largest exponent (R117). -/
def bf16Group (l : List (Int × Int)) : Option (Int × Int) :=
  match (l.filter (·.1 != 0)).map (·.2) with
  | [] => none
  | e :: es =>
    let emax := es.foldl max e
    some (l.foldl (fun s x =>
      let d := emax - x.2
      if x.1 = 0 || 40 < d then s
      else s + (if x.1 < 0 then -1 else 1) * ((x.1.natAbs * 2 ^ 24 / 2 ^ d.toNat : Nat) : Int)) 0, emax - 24)

/-- The running sum of BF16 mode. -/
def TileIn.run (t : TileIn) (j : AnvilJob) (tile c tok : Nat) : Int × Int :=
  (List.range (j.k / j.aGroup)).foldl (fun run g =>
    match bf16Group ((List.range j.aGroup).map fun i =>
        let a := t.aElem j tile c (g * j.aGroup + i)
        let b := t.bElem j tok (g * j.aGroup + i)
        (a.1 * b.1, a.2.1 + b.2.1)) with
    | none => run
    | some v =>
      let x := dyAdd run v
      roundSig 64 x.1 x.2) (0, 0)

/-- One output element and whether it saturated (R118, R119). -/
def TileIn.output (t : TileIn) (j : AnvilJob) (tile c tok : Nat) : Nat × Bool :=
  if j.out = 5 then (wrapInt 128 (t.acc j tile c tok), false)
  else
    let v : Int × Int := if j.bf16 then t.run j tile c tok else (t.acc j tile c tok, -64)
    let so : Nat × Int := if j.oscale then scaleOf ((t.side.getD 4 []).getD tok 0) else (1, 0)
    let m := v.1 * so.1
    let e := v.2 + so.2
    let int := fun (w : Nat) =>
      let r := writeInt (-(2 ^ (w - 1) : Nat)) ((2 ^ (w - 1) : Nat) - 1) m 1 (e - j.shift)
      (wrapInt w r.1, r.2)
    match j.out with
    | 0 => ((fmtFP32.write m 1 e).1, false)
    | 1 => ((fmtBF16.write m 1 e).1, false)
    | 2 => int 32
    | 3 => int 16
    | _ => int 8

/-- Replaced operand elements that one tile takes (R109). -/
def TileIn.specials (t : TileIn) (j : AnvilJob) (tile : Nat) : Nat :=
  let a := ((List.range 128).map fun c => ((List.range j.k).filter fun k => (t.aElem j tile c k).2.2).length).foldl (· + ·) 0
  let b := ((List.range j.mt).map fun tok => ((List.range j.k).filter fun k => (t.bElem j tok k).2.2).length).foldl (· + ·) 0
  a + b

/-- The queue entries of a tile: an ACC128 tile of more than 16 tokens takes several (R124). -/
def TileIn.entries (t : TileIn) (j : AnvilJob) (tile : Nat) : List Tile :=
  let step := if j.out = 5 then min 16 j.mt else j.mt
  let special := t.specials j tile != 0
  (List.range (j.mt / step)).map fun i =>
    let l := ((List.range step).map fun tok => (List.range 128).map fun c => t.output j tile c (i * step + tok)).flatten
    { tile, tokenFirst := i * step, saturated := l.any (·.2), special, format := j.out, tokens := step, features := 128
      data := l.map (·.1) }

/-! ### Running (R122 to R126, R162 to R168) -/

/-- Record the first failure in ANVIL_ERR. -/
def Anvil.fail (a : Anvil) (st : Status) (kind pc : Nat) : Anvil :=
  if a.errValid then a else { a with errValid := true, errStatus := st.code, errKind := kind, errPc := pc }

def Swage.fail (a : Swage) (st : Status) (kind block billet pc : Nat) : Swage :=
  if a.errValid then a
  else { a with errValid := true, errStatus := st.code, errCheck := kind * 16 + block, errBillet := billet, errPc := pc }

/-- A Swage length failure (R168): the forge is annealed and the billet is poisoned before the replay. Its T1 copy goes, and it
is fetched again where a copy exists; a copy that fails once more stays poisoned. -/
def State.swageLength (s : State) (f : ForgeId) (j : Job) (billet : Nat) : State :=
  let a := billet * 65536
  let (g, b) := s.resolve j.fn a
  match (s.fns[g]).page? (b / 65536) with
  | none => (s.anneal (.forge f)).endStep j.fn j.mould .integrity
  | some p =>
    if p.swageFail then (s.poisonWhole g b).endStep j.fn j.mould .swageLength
    else
      let s := s.anneal (.forge f)
      if (s.fns[g]).roleOf b != some .billets then s.endStep j.fn j.mould .integrity
      else
        let again := fun (p : Page) => { p with t1 := false, staged := false, swageFail := true }
        if p.t2 then s.fetchAgain g (b / 65536) again
        else match s.modelOf g b with
          | some (m, off) => (s.fetchAgain g (b / 65536) again).weightRefetch m off
          | none => (s.poisonWhole g b).endStep j.fn j.mould .integrity

/-- Swage has expanded the billet: a later failure is a first one again. -/
def State.swageDone (s : State) (fn : FnId) (billet : Nat) : State :=
  match s.pageAt fn (65536 * billet) with
  | some (g, p) => if p.swageFail then s.modPage g p.num fun p => { p with swageFail := false } else s
  | none => s

/-- One A panel as the A port takes it: `.error` ends the step, with the state that records it (R162, R163, R167). -/
def State.panel (s : State) (f : ForgeId) (j : Job) (mf : MForge) (a : AnvilJob) (n : Nat) : Except State (List Byte × State) :=
  let stored := s.readRows f mf a.aSlot (a.aRow + n * 128) 128
  if !a.swage.coded then .ok (stored, s)
  else
    let h := slice (s.readRows f mf a.swage.hSlot (a.swage.hRow + n / 2) 1) (256 * (n % 2)) 256
    let bad := fun (st : Status) kind block => s.modForge f fun x =>
      { x with swage := x.swage.fail st kind block (headerBillet h) a.pc }
    if !headerOk h then .error ((bad .swageLength 1 0).swageLength f j (headerBillet h))
    else
      let bs := headerBlocks h
      let table := (((s.forges[f]).swage.tables.toList.filterMap id).find? fun t =>
        t.id == headerTable h && t.digest == u h 8 8).map (·.lengths)
      if (bs.any (!·.raw)) && table.isNone then .error ((bad .badParam 6 0).endStep j.fn j.mould .badParam)
      else match expandPanel table stored bs 0 with
        | .error (kind, block) => .error ((bad .swageLength kind block).swageLength f j (headerBillet h))
        | .ok bytes =>
          .ok (bytes, (s.swageDone j.fn (headerBillet h)).modForge f fun x => { x with swage := { x.swage with
            inBytes := satAdd 64 x.swage.inBytes (headerStored h), outBytes := satAdd 64 x.swage.outBytes 65536
            rawBlocks := satAdd 32 x.swage.rawBlocks (bs.filter (·.raw)).length } })

/-- Operands of tile `n`. -/
def State.tileIn (s : State) (f : ForgeId) (j : Job) (mf : MForge) (a : AnvilJob) (n : Nat) : Except State (TileIn × State) :=
  match foldE (fun (acc : List (List Byte) × State) p => match acc.2.panel f j mf a (n * a.panels + p) with
      | .ok (b, s) => .ok (acc.1 ++ [b], s)
      | .error s => .error s) (List.range a.panels) ([], s) with
  | .error s => .error s
  | .ok (ps, s) =>
    .ok ({ a := ps
           b := (List.range a.mt).map fun t => s.readRows f mf a.bSlot (a.bRow + t * a.bRows) a.bRows
           side := a.sideRows.zipIdx.map fun x => if x.1 = 0 then [] else s.readRows f mf a.sSlot (a.sideAt x.2) x.1
           pre := if a.preload then s.readRows f mf a.pSlot (a.cfg.pRow + n * a.mt * 4) (4 * a.mt) else [] }, s)

/-- An access of an engine waits on a slot. -/
def State.waitOn (s : State) (j : Job) (slot : Nat) : State :=
  s.modMForge j.fn j.mould j.logical fun mf => { mf with wait := if mf.wait.contains slot then mf.wait else mf.wait ++ [slot] }

/-- Deliver one tile of the running ANVIL_MM, where its operands and the queue allow; none where nothing moves. The entries of
an ACC128 tile enter together, once the queue has room for all of them (DESIGN CHOICE, log 168). -/
def State.anvilStep (s : State) (f : ForgeId) : Option State :=
  match s.jobForge f with
  | none => none
  | some (j, _, mf) =>
    let x := s.forges[f]
    match x.anvil.issued with
    | [] => none
    | a :: rest =>
      let room := if a.out = 5 then ceilDiv a.mt 16 else 1
      if 8 < x.anvil.queue.length + room then none
      else match mf.clashes s.feat.cacheMask x.phase 1 a.accs with
        | some c => some (s.conflict f j 1 c)
        | none =>
          match mf.blocked a.accs with
          | some slot =>
            if x.anvil.waitOpnd && mf.wait.contains slot then none
            else some ((s.modForge f fun x => { x with anvil := { x.anvil with waitOpnd := true } }).waitOn j slot)
          | none =>
            match s.tileIn f j mf a a.tile with
            | .error s => some s
            | .ok (t, s) =>
              let es := t.entries a a.tile
              let last := a.tile + 1 == a.nTiles
              let sats := (List.range a.mt).foldl (fun n tok => n + ((List.range 128).filter fun c => (t.output a a.tile c tok).2).length) 0
              let s := s.modForge f fun x => { x with anvil := { x.anvil with
                waitOpnd := false
                queue := x.anvil.queue ++ es
                issued := if last then rest else { a with tile := a.tile + 1 } :: rest
                specials := satAdd 32 x.anvil.specials (t.specials a a.tile)
                saturated := satAdd 32 x.anvil.saturated sats
                beats := satAdd 64 x.anvil.beats a.beats
                tiles := (x.anvil.tiles + 1) % 2 ^ 32 } }
              let drop := fun (i slot : Nat) (s : State) => if last && a.drain i then
                  s.modMForge j.fn j.mould j.logical (·.setEmpty slot) else s
              some (drop 3 a.pSlot (drop 2 a.sSlot (drop 1 a.bSlot (drop 0 a.aSlot s))))

/-! ### The rows -/

/-- ANVIL_CFG sets the configuration of later products (R122). -/
def anvilCfg (f : ForgeId) (w : BitVec 128) (s : State) : State :=
  s.onStream f w 0x11 fun _ _ _ _ s => (s.modForge f fun x => { x with anvil := { x.anvil with
    cfg := { aSide := BitVec.ofNat 8 (wB w 1 1), bSide := BitVec.ofNat 8 (wB w 2 1), out := BitVec.ofNat 8 (wB w 3 1)
             mt := BitVec.ofNat 8 (wB w 4 1), shift := BitVec.ofNat 8 (wB w 5 1), sRow := wB w 6 2, pRow := wB w 8 2 } } }).advance f

/-- ANVIL_MM issues: it is refused under R123 and R162, or takes its place behind the products already issued. A sixth
holds the stream (R121). -/
def anvilMm (f : ForgeId) (w : BitVec 128) (s : State) : State :=
  s.onStream f w 0x10 fun j _ mf _ s =>
    let x := s.forges[f]
    if 5 ≤ x.anvil.issued.length then s
    else
      let a : AnvilJob := { word := w, cfg := x.anvil.cfg, swage := x.swage.cfg, pc := x.pc }
      if !a.ok mf then
        (s.modForge f fun x => { x with anvil := x.anvil.fail .badParam 1 x.pc }).endStep j.fn j.mould .badParam
      else (s.modForge f fun x => { x with anvil := { x.anvil with issued := x.anvil.issued ++ [a] } }).advance f

/-- SWAGE_CFG sets the mode of the A operand (R161). -/
def swageCfg (f : ForgeId) (w : BitVec 128) (s : State) : State :=
  s.onStream f w 0x18 fun _ _ _ _ s => (s.modForge f fun x => { x with swage := { x.swage with
    cfg := { coded := bit (wB w 1 1) 0, hSlot := wB w 2 1, hRow := wB w 4 2 } } }).advance f

/-- SWAGE_TABLE loads a code-table record once every earlier product has completed (R163). -/
def swageTable (f : ForgeId) (w : BitVec 128) (s : State) : State :=
  s.onStream f w 0x19 fun j _ mf _ s =>
    let x := s.forges[f]
    let slot := wB w 2 1
    let row := wB w 4 2
    let acc : Acc := { slot, first := row, n := 1 }
    if !x.anvil.issued.isEmpty then s
    else if !mf.fits slot row 1 then
      (s.modForge f fun x => { x with swage := x.swage.fail .badParam 0 0 0 x.pc }).endStep j.fn j.mould .badParam
    else match mf.clash s.feat.cacheMask x.phase 1 acc with
      | some c => s.conflict f j 1 c
      | none => match mf.blocked [acc] with
        | some slot => s.waitOn j slot
        | none =>
          let r := s.readRows f mf slot row 1
          if !recordOk r then
            (s.modForge f fun x => { x with swage := x.swage.fail .integrity 7 0 0 x.pc }).endStep j.fn j.mould .integrity
          else
            let i : Fin 4 := Fin.ofNat 4 (bits (wB w 1 1) 0 2)
            let ct : CodeTable := { id := u r 4 2, digest := recordDigest r, lengths := recordLengths r }
            let s := s.modForge f fun x => { x with swage := { x.swage with tables := x.swage.tables.set i (some ct) } }
            let s := if bit (wB w 1 1) 2 then s.modMForge j.fn j.mould j.logical (·.setEmpty slot) else s
            s.advance f

end Sys2Proof.Machine
end

