-- ==== Sys2Proof/Machine/Press.lean ====
section
/-! DEFINITION. The Press: counting scans, table building, encoding, table records (R153 to R158). -/

namespace Sys2Proof.Machine

/-! ### Writes that count once (Table HEAT-1, R157) -/

/-- Run writes of a heat that together count `n` actions, however many granules they claim. -/
def State.countsAs (s : State) (fn : FnId) (slot : Fin 32) (n : Nat) (body : State → Except Status State) :
    Except Status State :=
  match (s.fns[fn]).heat slot with
  | none => .error .notPermitted
  | some h =>
    if h.maxActions < h.actions + n then .error .noSpace
    else match body (s.modHeat fn slot fun x => { x with maxActions := h.actions + 1048576 }) with
      | .error e => .error e
      | .ok s => .ok (s.modHeat fn slot fun x =>
          { x with maxActions := h.maxActions, actions := h.actions + n })

/-- Index address of the header of a billet (R147, R225). -/
def headerAddr (a : Nat) : Nat := indexBase + a / 65536 * 256

/-- A billet with its header: one action. The stored bytes are padded to a multiple of 512 (R147). -/
def State.writeBillet (s : State) (fn : FnId) (slot : Fin 32) (a : Nat) (stored header : List Byte) : Except Status State :=
  s.countsAs fn slot 1 fun s => match s.heatWrite fn slot a (fit (512 * ceilDiv stored.length 512) stored) with
    | .error e => .error e
    | .ok s => s.heatWrite fn slot (headerAddr a) header

/-! ### Fields (Table SWAG-3) -/

namespace PressJob

def code (p : PressJob) : Nat := wB p.word 0 1
def treg (p : PressJob) : Fin 2 := Fin.ofNat 2 (wB p.word 1 1)
def accumulate (p : PressJob) : Bool := bit (wB p.word 1 1) 1
def build (p : PressJob) : Bool := bit (wB p.word 1 1) 2
def drain (p : PressJob) : Bool := bit (wB p.word 1 1) 3
def slot (p : PressJob) : Nat := wB p.word 2 1
def chan (p : PressJob) : TongsId := Fin.ofNat 8 (wB p.word 3 1)
def row (p : PressJob) : Nat := wB p.word 4 2
def billets (p : PressJob) : Nat := wB p.word 6 2
def tableId (p : PressJob) : Nat := wB p.word 8 2
def paramWord (p : PressJob) : Nat := if p.code = 0x61 then wB p.word 12 2 else wB p.word 14 2
def acc (p : PressJob) : Acc := { slot := p.slot, first := p.row, n := 128 * p.billets }

/-- The destination: the named address with the parameter word's value times 256 added. -/
def dest (p : PressJob) (r : Running) : Nat :=
  (if p.code = 0x61 then 65536 * wB p.word 8 4 else wB p.word 8 6)
    + (if p.paramWord = 0xFFFF then 0 else 256 * r.word p.paramWord)

/-- Reserved fields of Table SWAG-3. -/
def reservedOk (p : PressJob) : Bool :=
  match p.code with
  | 0x60 => bits (wB p.word 1 1) 4 4 == 0 && wB p.word 3 1 == 0 && wB p.word 10 6 == 0 && (p.build || p.tableId == 0)
  | 0x61 => bits (wB p.word 1 1) 1 2 == 0 && bits (wB p.word 1 1) 4 4 == 0 && bits (wB p.word 3 1) 3 5 == 0 && wB p.word 14 2 == 0
  | _ => bits (wB p.word 1 1) 1 7 == 0 && wB p.word 2 1 == 0 && bits (wB p.word 3 1) 3 5 == 0 && wB p.word 4 4 == 0

end PressJob

/-- Table register `i` will be built once the instructions issued before have run (R153, R158). -/
def Press.builtAfter (p : Press) (i : Fin 2) : Bool :=
  p.tables[i].built || p.issued.any fun q => q.code == 0x60 && q.build && q.treg == i

/-- R158 but for its mapping case. -/
def PressJob.ok (p : PressJob) (x : Press) (mf : MForge) : Bool :=
  p.reservedOk && (p.code == 0x62 || (1 ≤ p.billets && p.billets ≤ 192 && mf.fits p.slot p.row (128 * p.billets))) &&
    (p.code != 0x60 || !p.build || p.tableId != 0xFFFF) && (p.code == 0x60 || x.builtAfter p.treg)

/-- The destination is aligned and mapped, its headers' places among it. -/
def PressJob.placed (p : PressJob) (m : Mould) (r : Running) (f : Fn) : Bool :=
  let a := p.dest r
  p.code == 0x60 ||
    ((p.paramWord == 0xFFFF || 4 * p.paramWord + 4 ≤ m.paramBytes) && a < 2 ^ 48 &&
      (if p.code = 0x61 then a % 65536 == 0 && f.mappedRange a (65536 * p.billets) && f.mappedRange (headerAddr a) (256 * p.billets)
       else a % 512 == 0 && f.mappedRange a 512))

/-! ### Running -/

/-- Counts of the byte values. -/
def countBytes (c : List Nat) (bs : List Byte) : List Nat :=
  (List.range 256).map fun v => (c.getD v 0 + (bs.filter fun b => b.toNat == v).length) % 2 ^ 64

/-- A channel that holds no descriptor, queued, shadow or active (R157). -/
def TChan.empty (t : TChan) : Bool := t.cur.isNone && t.queue.isEmpty && t.shadow.isNone && t.active.isNone

/-- What PRESS_ENCODE leaves: the writes of its billets, with the totals of raw, stored bytes and RAW blocks. -/
def State.pressBillets (s : State) (f : ForgeId) (j : Job) (mf : MForge) (p : PressJob) (slot : Fin 32) (a : Nat)
    (t : PressTable) : Except Status State :=
  foldE (fun (s : State) i =>
    let raw := s.readRows f mf p.slot (p.row + 128 * i) 128
    let (stored, blocks) := encodeBillet t.lengths raw
    let allRaw := blocks.all (·.raw)
    let hdr := headerBytes (if allRaw then 0xFFFF else t.id) (if allRaw then 0 else recordDigest (recordBytes t.id t.lengths))
      blocks ((a + 65536 * i) / 65536)
    match s.writeBillet j.fn slot (a + 65536 * i) stored hdr with
    | .error e => .error e
    | .ok s => .ok (s.modForge f fun x => { x with press := { x.press with
        raw := satAdd 64 x.press.raw 65536, stored := satAdd 64 x.press.stored stored.length
        rawBlocks := satAdd 32 x.press.rawBlocks (blocks.filter (·.raw)).length } })) (List.range p.billets) s

/-- Let the Press run its instruction, where its rows and its channel allow; none where nothing moves. -/
def State.pressStep (s : State) (f : ForgeId) : Option State :=
  match s.jobForge f with
  | none => none
  | some (j, m, mf) =>
    let x := s.forges[f]
    match x.press.issued with
    | [] => none
    | p :: rest =>
      let accs := if p.code = 0x62 then [] else [p.acc]
      let t := x.press.tables[p.treg]
      let done := fun (s : State) =>
        let s := s.modForge f fun x => { x with press := { x.press with issued := rest, waitCh := false } }
        if p.code != 0x62 && p.drain && p.slot != 0xFF then s.modMForge j.fn j.mould j.logical (·.setEmpty p.slot) else s
      match mf.clashes s.feat.cacheMask x.phase 8 accs with
      | some c => some (s.conflict f j 8 c)
      | none => match mf.blocked accs with
        | some slot => if mf.wait.contains slot then none else some (s.waitOn j slot)
        | none =>
          if p.code = 0x60 then
            let c := countBytes (if p.accumulate then t.counts else []) (s.readRows f mf p.slot p.row (128 * p.billets))
            let t := if p.build then ({ counts := c, built := true, id := p.tableId, lengths := buildLengths 64 c } : PressTable)
              else { t with counts := c }
            some (done (s.modForge f fun x => { x with press := { x.press with tables := x.press.tables.set p.treg t } }))
          else if !x.tchans[p.chan].empty then
            if x.press.waitCh then none
            else some (s.modForge f fun x => { x with press := { x.press with waitCh := true } })
          else match m.run with
            | none => none
            | some r =>
              let a := p.dest r
              match s.heatAt j.fn m x.phase with
              | none => some (if m.doneAt x.phase then done s else s.endStep j.fn j.mould .notPermitted)
              | some slot =>
                if s.chanBlocks j.fn a (if p.code = 0x61 then 65536 * p.billets else 512) then none
                else
                  let out := if p.code = 0x61 then s.pressBillets f j mf p slot a t
                    else s.countsAs j.fn slot 1 fun s => s.heatWrite j.fn slot a (recordBytes t.id t.lengths)
                  match out with
                  | .error st => some (s.endStep j.fn j.mould st)
                  | .ok s => some (done s)

/-! ### The rows -/

/-- An instruction issues (R153, R158): it is refused, or takes its place behind those already issued. A fourth holds the
stream. -/
def pressIssue (code : Nat) (f : ForgeId) (w : BitVec 128) (s : State) : State :=
  s.onStream f w code fun j m mf r s =>
    let x := s.forges[f]
    let p : PressJob := { word := w, pc := x.pc }
    if 3 ≤ x.press.issued.length then s
    else if !(p.ok x.press mf && p.placed m r s.fns[j.fn]) then
      (s.modForge f fun x => { x with press :=
        if x.press.errValid then x.press
        else { x.press with errValid := true, errStatus := Status.badParam.code, errPc := x.pc } }).endStep j.fn j.mould .badParam
    else (s.modForge f fun x => { x with press := { x.press with issued := x.press.issued ++ [p] } }).advance f

def pressScan (f : ForgeId) (w : BitVec 128) (s : State) : State := pressIssue 0x60 f w s
def pressEncode (f : ForgeId) (w : BitVec 128) (s : State) : State := pressIssue 0x61 f w s
def pressTableOut (f : ForgeId) (w : BitVec 128) (s : State) : State := pressIssue 0x62 f w s

end Sys2Proof.Machine
end

