-- ==== Sys2Proof/Machine/KvPool.lean ====
section
/-! DEFINITION. The KV pool as its users share it: sequences as a heat sees them, allocation, copy on write, the look-aside
buffers, and the end of a step for an empty pool (R189 to R195, R201 to R209, R216). -/

namespace Sys2Proof.Machine

/-- The function as a heat's agents see it: committed content with the heat's own edits (R18, R192). -/
def State.fnView (s : State) (fn : FnId) (slot : Option (Fin 32)) : Fn :=
  match slot with
  | some i => (s.fns[fn]).view i Fn.applyEdit
  | none => s.fns[fn]

def Fn.seq? (f : Fn) (handle : Nat) : Option Seq := f.seqs.find? (·.handle == handle)

/-- A lost line of the pool concerns the sequence (Table TIER-5). -/
def Fn.seqLost (f : Fn) (q : Seq) : Bool :=
  !q.lost.isEmpty || q.entries.any fun e => !e.dropped && match f.hdr? e.page with
    | some h => h.lost
    | none => false

/-- The entry of a logical page. -/
def Seq.entry? (q : Seq) (layer group lpage : Nat) : Option ListEntry :=
  q.entries.find? fun e => e.layer == layer && e.group == group && e.lpage == lpage

/-- A layer and group of the sequence's page list. -/
def Seq.holds (q : Seq) (layer group : Nat) : Bool :=
  q.layerFirst ≤ layer && layer < q.layerFirst + q.layers && group < q.groups

/-- Range address of a KV page (R201). -/
def Fn.kvAddr (f : Fn) (n : Nat) : Nat := (f.roleBase .kvPages).getD 0 + 65536 * n

/-- The lowest FREE page: the order of the free list is open (R210; DESIGN CHOICE, log 32). -/
def Fn.freeKvPage (f : Fn) : Option Nat :=
  let n := lowestFree (sortAsc id (f.hdrs.map (·.num))) 0
  if n < f.kvPages then some n else none

/-- Why an allocation fails: the pool is empty, or the heat has no action left. -/
inductive NoPage where
  | pool
  | status (st : Status)
  deriving DecidableEq, Repr

/-- Take a FREE page in a heat for a logical page: one action; its entry and its reference come with the commit (R195).
It holds zeros (DESIGN CHOICE, log 33). -/
def State.allocKv (s : State) (fn : FnId) (slot : Fin 32) (q : Seq) (layer group lpage : Nat) : Except NoPage (Nat × State) :=
  match (s.fns[fn]).freeKvPage with
  | none => .error .pool
  | some n =>
    match s.act fn slot 1 with
    | .error st => .error (.status st)
    | .ok s =>
      let a := (s.fns[fn]).kvAddr n
      let s := ({ s with ram := Memory.clear s.ram (ramKey fn a) 65536 } : State).modPage fn (a / 65536) fun p =>
        { p with bad := [], sealed_ := false }
      let s := s.modFn fn fun f => { f with hdrs := f.hdrs ++ [{ num := n, state := .open_, group, layer, seq := q.handle, lpage }] }
      .ok (n, (s.edit fn slot (.fresh n layer group lpage q.handle)).edit fn slot (.entry q.handle layer group lpage (some n)))

/-- Invalidate the look-aside entries of a logical page on every forge of the function (R192). -/
def State.dropLab (s : State) (fn : FnId) (p : Lab → Bool) : State :=
  { s with forges := s.forges.map fun (f : Forge) =>
      { f with cruc := { f.cruc with lab := f.cruc.lab.filter fun l => !(l.fn == fn && p l) } } }

/-- REF of a page as of the step gate, moved by the step's own edits: those of its heats that have committed, which
`gateRefs` holds already, and those of its present heat (R208). -/
def Running.gateRef (r : Running) (h : Option Heat) (n : Nat) : Int :=
  let moved := match h with
    | some h => moveRefs r.gateRefs h.edits
    | none => r.gateRefs
  ((moved.find? (·.1 == n)).map (·.2)).getD 0

/-- An append or copy on write finds the pool empty: the step ends without effect, and the drop policy is due, once
(R216). -/
def State.poolEmpty (s : State) (fn : FnId) (id : BitVec 64) : State :=
  match ((s.fns[fn]).mould? id).bind (·.run) with
  | none => s
  | some r =>
    if r.dropped then s.endStep fn id .noSpace
    else
      let got := (((s.fns[fn]).stepHeats id).map fun (p : Fin 32 × Heat) =>
        if p.2.state == HeatState.open_ then (p.2.edits.filter fun e => match e with
          | .fresh _ _ _ _ _ => true
          | _ => false).length else 0).foldl (· + ·) 0
      (s.stopStep fn id true .noSpace).modRun fn id fun r => { r with rerun := true, dropWanted := some got }

/-- Add an entry to the look-aside buffer, the least recently used going first (R190). -/
def labAdd (l : List Lab) (e : Lab) : List Lab :=
  let l := l.filter (fun x => !(x.fn == e.fn && x.seq == e.seq && x.layer == e.layer && x.group == e.group && x.lpage == e.lpage)) ++ [e]
  l.drop (l.length - 64)

/-- The look-aside entry of a logical page. -/
def Crucible.lab? (x : Crucible) (fn : FnId) (q : Seq) (layer group lpage : Nat) : Option Lab :=
  x.lab.find? fun l => l.fn == fn && l.seq == q.handle && l.layer == layer && l.group == group && l.lpage == lpage

/-- The list entries that a walk installs: the missed page and up to 7 following pages of its list unit (R189). -/
def Seq.walked (q : Seq) (layer group lpage : Nat) : List ListEntry :=
  let top := min (min (lpage + 8) ((lpage / 64 + 1) * 64)) (max (lpage + 1) (ceilDiv q.length 64))
  ((List.range (top - lpage)).map (lpage + ·)).filterMap fun j => q.entry? layer group j

/-- The two reads of a walk: the 256-byte list unit of the page, and the header units of the pages installed (R189). -/
def Fn.walkReads (f : Fn) (q : Seq) (layer group lpage : Nat) : List Nat :=
  let entry := q.listBase + (((layer - q.layerFirst) * q.groups + group) * q.maxPages + lpage) * 4
  let hdrs := ((q.walked layer group lpage).filter (·.page < 0xFFFFFFFE)).map fun e => ((f.roleBase .kvHeaders).getD 0 + 64 * e.page) / 256 * 256
  entry / 256 * 256 :: hdrs.eraseDups

/-- The Armature installs what a walk has read, and pins each page that it installs (R189 to R191, R207). -/
def State.installWalk (s : State) (f : ForgeId) (fn : FnId) (id : BitVec 64) (slot : Option (Fin 32)) (q : Seq)
    (layer group lpage : Nat) : State :=
  let v := s.fnView fn slot
  let es := q.walked layer group lpage
  let code := fun (e : ListEntry) => if e.dropped then 3 else match v.hdr? e.page with
    | some h => h.state.code
    | none => 0
  let shadow := fun (e : ListEntry) => (slot.bind (s.fns[fn]).heat).any (·.freshPage e.page)
  let s := s.modForge f fun y => { y with cruc := { y.cruc with
    labMisses := inc32 y.cruc.labMisses
    lab := es.foldl (fun l e => labAdd l
      { fn, seq := q.handle, layer, group, lpage := e.lpage, page := e.page, state := code e, shadow := shadow e }) y.cruc.lab } }
  let pins := (es.filter fun e => !e.dropped).map (·.page)
  let s := s.modFn fn fun g => { g with hdrs := g.hdrs.map fun h => { h with pin := h.pin + (pins.filter (· == h.num)).length } }
  s.modRun fn id fun r => { r with pins := r.pins ++ pins }

/-- A look-aside hit. -/
def State.labHit (s : State) (f : ForgeId) (l : Lab) : State :=
  s.modForge f fun y => { y with cruc := { y.cruc with lab := labAdd y.cruc.lab l, labHits := inc32 y.cruc.labHits } }

/-- Records of a page that a copy on write keeps: those below the sequence's length, the rest zero (R208). -/
def State.copyPage (s : State) (fn : FnId) (slot : Fin 32) (old new keep : Nat) : State :=
  let f := s.fns[fn]
  let bs := s.readRange fn (some slot) (f.kvAddr old) (1024 * keep)
  { s with ram := Memory.write s.ram (ramKey fn (f.kvAddr new)) bs }

end Sys2Proof.Machine
end

