-- ==== Sys2Proof/Machine/Crucible.lean ====
section
/-! DEFINITION. The Crucible: configuration, issue checks, scores, the soft maximum, exact accumulators, state records, and
appends (R169 to R200). -/

namespace Sys2Proof.Machine

/-! ### Fields (Tables CRUC-3, CRUC-4, CRUC-9) -/

namespace CrucJob

def latFmt (c : CrucJob) : Nat := bits (wB c.cfg 1 1) 0 4
def scaled (c : CrucJob) : Bool := bit (wB c.cfg 1 1) 4
def pkFmt (c : CrucJob) : Nat := bits (wB c.cfg 2 1) 0 4
def latSegs (c : CrucJob) : Nat := bits (wB c.cfg 3 1) 0 3
def pkSegs (c : CrucJob) : Nat := bits (wB c.cfg 3 1) 4 2
def qFmt (c : CrucJob) : Nat := bits (wB c.cfg 4 1) 0 4
def maskSlot (c : CrucJob) : Nat := wB c.cfg 5 1
def alt (c : CrucJob) : Nat := wB c.cfg 6 2
def window (c : CrucJob) : Nat := wB c.cfg 8 4
def divertSlot (c : CrucJob) : Nat := wB c.cfg 12 1
def lat (c : CrucJob) : Nat := 128 * c.latSegs
def pk (c : CrucJob) : Nat := 128 * c.pkSegs
def pkSize (c : CrucJob) : Nat := if c.pkFmt = 6 then 2 else 1
/-- Offset of LSCALE in a record, and the bytes of its fields (Table CRUC-1). -/
def scaleAt (c : CrucJob) : Nat := c.lat + c.pk * c.pkSize
def recordLen (c : CrucJob) : Nat := c.scaleAt + (if c.scaled then c.latSegs else 0)
def qSize (c : CrucJob) : Nat := if c.qFmt = 0 then 4 else 2
def qRowLen (c : CrucJob) : Nat := ceilDiv ((c.lat + c.pk) * c.qSize) 512
def stateLen (c : CrucJob) : Nat := ceilDiv (48 + 20 * c.lat) 512

def code (c : CrucJob) : Nat := wB c.word 0 1
def flag (c : CrucJob) (i : Nat) : Bool := bit (wB c.word 1 1) i
def qSlot (c : CrucJob) : Nat := wB c.word 2 1
def oSlot (c : CrucJob) : Nat := wB c.word 3 1
def sSlot (c : CrucJob) : Nat := wB c.word 4 1
def qRows (c : CrucJob) : Nat := bits (wB c.word 5 1) 0 4 + 1
def outFmt (c : CrucJob) : Nat := bits (wB c.word 5 1) 4 4
def session (c : CrucJob) : Nat := wB c.word 6 1
def group (c : CrucJob) : Nat := bits (wB c.word 7 1) 0 4
def layer (c : CrucJob) : Nat := wB c.word 8 2
def pageFirst (c : CrucJob) : Nat := wB c.word 10 3
def pageCount (c : CrucJob) : Nat := wB c.word 13 3
def stateIn (c : CrucJob) : Bool := c.flag 0
def stateOut (c : CrucJob) : Bool := c.flag 1
def fromSlot (c : CrucJob) : Bool := c.flag 6
def masked (c : CrucJob) : Bool := c.maskSlot != 0xFF
def outLen (c : CrucJob) : Nat :=
  if c.stateOut then c.stateLen else ceilDiv (c.lat * (if c.outFmt = 0 then 4 else 2)) 512
/-- Hearth rows of one query row's mask (R180). -/
def maskLen (c : CrucJob) : Nat := ceilDiv (64 * c.pageCount) 4096
/-- CRUC_APPEND. -/
def count (c : CrucJob) : Nat := wB c.word 3 1
def srcRow (c : CrucJob) : Nat := wB c.word 4 2

/-- Reserved bits of CRUC_CFG (Table CRUC-3). -/
def cfgReserved (w : BitVec 128) : Bool :=
  bits (wB w 1 1) 5 3 != 0 || bits (wB w 2 1) 4 4 != 0 || bit (wB w 3 1) 3 || bits (wB w 3 1) 6 2 != 0 ||
    bits (wB w 4 1) 4 4 != 0 || wB w 13 3 != 0

/-- Rows of a slot, no slot offering none. -/
def inSlot (mf : MForge) (slot first n : Nat) : Bool := slot != 0xFF && mf.fits slot first n

/-- The first failing check of Table CRUC-10. The QPOS half of 0x3 is judged when row 0 has been read. -/
def check (c : CrucJob) (m : Mould) (mf : MForge) : Option Nat :=
  let attn := c.code == 0x31
  let c1 := if attn then bits (wB c.word 7 1) 4 4 == 0
    else bits (wB c.word 1 1) 1 7 == 0 && bits (wB c.word 7 1) 4 4 == 0 && wB c.word 10 6 == 0
  let c2 := 1 ≤ c.latSegs && c.latSegs ≤ 6 && c.pkSegs ≤ 2 && c.latFmt ≤ 2 &&
    (c.pkFmt == 0 || c.pkFmt == 1 || c.pkFmt == 6) && c.qFmt ≤ 1 && !(c.scaled && c.latFmt == 1) && c.recordLen ≤ 1024
  let all := c.pageCount == 0xFFFFFF
  let c4 := inSlot mf c.qSlot 0 (1 + c.qRows * c.qRowLen) && inSlot mf c.oSlot 0 (1 + c.qRows * c.outLen) &&
    (!(c.stateIn && c.sSlot != 0xFF) || inSlot mf c.sSlot 0 (1 + c.qRows * c.stateLen)) &&
    (!(c.masked && !all) || inSlot mf c.maskSlot 0 (c.qRows * c.maskLen)) &&
    (!(c.fromSlot && !all) || inSlot mf c.session 0 (128 * c.pageCount)) &&
    (c.divertSlot == 0xFF || inSlot mf c.divertSlot 0 128)
  let c5 := c.pageCount != 0 && !(all && (c.masked || c.fromSlot)) && !(c.fromSlot && c.layer != 0)
  let c6 := !(c.stateIn && c.sSlot == 0xFF) && !(c.flag 4 && !c.stateIn) && !(c.flag 5 && !c.masked) && !(c.flag 7 && !c.fromSlot)
  let c7 := !([c.qSlot, c.sSlot, c.maskSlot, c.divertSlot] ++ (if c.fromSlot then [c.session] else [])).contains c.oSlot
  let c8 := (attn && c.fromSlot) || c.session < m.sessionSlots
  let c9 := c.alt == 0xFFFF || (c.alt < m.alternates.length && c.divertSlot != 0xFF)
  let cA := 1 ≤ c.count && c.count ≤ 64 && inSlot mf c.qSlot c.srcRow (2 * c.count)
  if !c1 then some 1 else if !c2 then some 2
  else if attn then
    if 1 < c.outFmt then some 3 else if !c4 then some 4 else if !c5 then some 5 else if !c6 then some 6 else if !c7 then some 7
    else if !c8 then some 8 else if !c9 then some 9 else none
  else if !c8 then some 8 else if !cA then some 10 else none

end CrucJob

/-! ### Elements and scores (R177 to R179) -/

def latElem (fmt p : Nat) : FVal :=
  match fmt with
  | 0 => fmtE4M3.read p
  | 1 => fmtE5M2.read p
  | _ => .fin (sext 8 p) 0

def pkElem (fmt p : Nat) : FVal :=
  match fmt with
  | 0 => fmtE4M3.read p
  | 1 => fmtE5M2.read p
  | _ => fmtBF16.read p

/-- Key vector of a record; an infinite latent element stays infinite whatever its scale. -/
def CrucJob.key (c : CrucJob) (rec : List Byte) : List FVal :=
  ((List.range c.lat).map fun i =>
    match latElem c.latFmt (u rec i 1) with
    | .fin m e =>
      if c.scaled then
        let s := scaleOf (rec.getD (c.scaleAt + i / 128) 0)
        .fin (m * s.1) (e + s.2)
      else .fin m e
    | v => v)
  ++ (List.range c.pk).map fun i => pkElem c.pkFmt (u rec (c.lat + i * c.pkSize) c.pkSize)

/-- Query vector `r` of the query block (Table CRUC-2). -/
def CrucJob.queryRow (c : CrucJob) (r : Nat) : List FVal :=
  (List.range (c.lat + c.pk)).map fun i =>
    (if c.qFmt = 0 then fmtFP32 else fmtBF16).read (u c.query (512 * (1 + r * c.qRowLen) + i * c.qSize) c.qSize)

inductive Score where
  | nan
  | inf (neg : Bool)
  | fin (t : Int) (clamped : Bool)
  deriving DecidableEq, Repr

/-- What one product does to the class of a score: NaN, an infinity of a sign, or nothing (R179). -/
def productClass (a b : FVal) : Option (Option Bool) :=
  match a, b with
  | .nan, _ | _, .nan => some none
  | .inf n, .fin m _ | .fin m _, .inf n => if m = 0 then some none else some (some (n != (m < 0 : Bool)))
  | .inf n, .inf k => some (some (n != k))
  | .fin _ _, .fin _ _ => none

/-- The sum of one segment (R178): none where every product is zero. -/
def segmentSum (l : List (Int × Int)) : Option (Int × Int) :=
  match (l.filter (·.1 != 0)).map (·.2) with
  | [] => none
  | e :: es =>
    let emax := es.foldl max e
    some (l.foldl (fun s x =>
      let d := emax - x.2
      if x.1 = 0 || 63 < d then s
      else s + (if x.1 < 0 then -1 else 1) * ((x.1.natAbs * 2 ^ 48 / 2 ^ d.toNat : Nat) : Int)) 0, emax - 48)

/-- The score of a query and a key (R178, R179). -/
def score (q k : List FVal) : Score :=
  let ps := q.zip k
  let cls := ps.filterMap fun x => productClass x.1 x.2
  if cls.contains none || (cls.contains (some true) && cls.contains (some false)) then .nan
  else if cls.contains (some true) then .inf true
  else if cls.contains (some false) then .inf false
  else
    let prods := ps.map fun x => match x.1, x.2 with
      | .fin a e, .fin b g => (a * b, e + g)
      | _, _ => ((0 : Int), (0 : Int))
    let run := (chunks 128 (prods.length + 1) prods).foldl (fun (run : Int × Int) seg =>
      match segmentSum seg with
      | none => run
      | some v =>
        let x := dyAdd run v
        roundSig 64 x.1 x.2) (0, 0)
    let t := rneShift run.1 (run.2 + 24)
    let lim : Int := (2 ^ 47 - 1 : Nat)
    let c := clampInt (-lim) lim t
    .fin c (c != t)
where
  chunks (n : Nat) : Nat → List (Int × Int) → List (List (Int × Int))
    | 0, _ => []
    | fuel + 1, l => if l.isEmpty then [] else l.take n :: chunks n fuel (l.drop n)

/-! ### Weights (R182) -/

/-- The integer nearest to 2^(30 + i/256): the largest n with (2n - 1)^256 at most 2^(7936 + i). -/
def expTable (i : Nat) : Nat :=
  (List.range 32).foldl (fun n b =>
    let t := n + 2 ^ (31 - b)
    if (2 * t - 1) ^ 256 ≤ 2 ^ (7936 + i) then t else n) 0

/-- The weight of a score against the running maximum, in units of 2^-104. -/
def weight (t mm : Int) : Int :=
  let x := t - mm * 16777216
  let n := x / 16777216
  let fr := (x - n * 16777216).toNat
  if n < -64 then 0
  else
    let i := fr / 65536
    let y : Int := (expTable i : Int) + rneDiv (((expTable (i + 1) - expTable i) * (fr % 65536) : Nat) : Int) 65536
    let w := roundSig 8 y 0
    w.1 * (2 ^ (w.2 + n + 74).toNat : Nat)

/-- A value element as `m × 2^e`, with the mark that it was replaced (R183). -/
def CrucJob.value (c : CrucJob) (rec : List Byte) (i : Nat) : Int × Int × Bool :=
  let base : Int × Int × Bool := match latElem c.latFmt (u rec i 1) with
    | .fin m e => (m, e, false)
    | .nan => (0, 0, true)
    | .inf neg => (if neg then -57344 else 57344, 0, true)
  if c.scaled then
    let s := scaleOf (rec.getD (c.scaleAt + i / 128) 0)
    (base.1 * s.1, base.2.1 + s.2, base.2.2)
  else base

/-! ### One page (R180, R181, R183, R184) -/

/-- Shift right truncating toward zero. -/
def truncRight (x : Int) (d : Nat) : Int := if 160 ≤ d then 0 else Int.tdiv x ((2 ^ d : Nat) : Int)

/-- Position `p` is masked for query row `r`; `len` is the sequence's length where it counts. -/
def CrucJob.isMasked (c : CrucJob) (len : Option Nat) (r p : Nat) : Bool :=
  let qpos := u c.query (8 * r) 4
  qpos < p || (c.window != 0 && p + c.window ≤ qpos) || (match len with
    | some n => n ≤ p
    | none => false) ||
    (c.masked && !bit (u c.mask (512 * (r * c.maskLen) + (p - 64 * c.pageFirst) / 8) 1) ((p - 64 * c.pageFirst) % 8))

def wrap160 (x : Int) : Int := sext 160 (wrapInt 160 x)

/-- What one page gives one query row: the new row, its clamped scores and the records whose values it took. -/
def CrucJob.mergeRow (c : CrucJob) (len : Option Nat) (data : List Byte) (lp : Nat) (diverted : Bool) (r : Nat) (x : CRow) :
    CRow × Nat × List Nat :=
  let rec_ := fun i => slice data (1024 * i) 1024
  let q := c.queryRow r
  let live := (List.range 64).filter fun i => !c.isMasked len r (64 * lp + i)
  let ss := live.map fun i => (i, score q (c.key (rec_ i)))
  let clamps := (ss.filter fun y => match y.2 with
    | .fin _ b => b
    | _ => false).length
  let status := x.status ||| (if diverted then 0x40 else 0) ||| (if clamps != 0 then 0x10 else 0)
    ||| (if ss.any (·.2 == Score.nan) then 4 else 0) ||| (if ss.any (·.2 == Score.inf true) then 8 else 0)
  let infs := (ss.filter (·.2 == Score.inf false)).map (·.1)
  let x : CRow := if !x.inf && !infs.isEmpty then { x with inf := true, l := 0, o := List.replicate c.lat 0 } else x
  let fins := ss.filterMap fun y => match y.2 with
    | .fin t _ => some (y.1, t)
    | _ => none
  let x : CRow := if x.inf then x else match fins with
    | [] => x
    | f :: fs =>
      let top := (fs.map (·.2)).foldl max f.2
      let up := -((-top) / 16777216)
      match x.m with
      | none => { x with m := some up }
      | some m =>
        let d := (max m up - m).toNat
        { x with m := some (max m up), l := truncRight x.l d, o := x.o.map fun v => truncRight v d }
  let used : List (Nat × Int) := if x.inf then infs.map fun i => (i, (2 ^ 104 : Nat))
    else (fins.map fun f => (f.1, weight f.2 (x.m.getD 0))).filter (·.2 != 0)
  let special := used.any fun y => (List.range c.lat).any fun e => (c.value (rec_ y.1) e).2.2
  let l := used.foldl (fun l y => l + if x.inf then 1 else y.2) x.l
  let o := x.o.zipIdx.map fun v => wrap160 (used.foldl (fun s y =>
    let e := c.value (rec_ y.1) v.2
    s + floorShift (y.2 * e.1) e.2.1) v.1)
  ({ x with status := if special then status ||| 0x20 else status, pages := (x.pages + 1) % 2 ^ 32, l := wrap160 l, o },
   clamps, used.map (·.1))

/-- Merge a page into every row, and count what Table CRUC-12 counts. -/
def State.mergePage (s : State) (f : ForgeId) (c : CrucJob) (len : Option Nat) (data : List Byte) (lp : Nat) (diverted : Bool) :
    State × List CRow :=
  let out := c.rows.zipIdx.map fun x => c.mergeRow len data lp diverted x.2 x.1
  let scored := ((List.range 64).filter fun i => (List.range c.qRows).any fun r => !c.isMasked len r (64 * lp + i)).length
  let valued := (List.range 64).filter fun i => out.any fun x => x.2.2.contains i
  let specials := (valued.map fun i => ((List.range c.lat).filter fun e => (c.value (slice data (1024 * i) 1024) e).2.2).length).foldl (· + ·) 0
  (s.modForge f fun x => { x with cruc := { x.cruc with
    scoreSat := satAdd 32 x.cruc.scoreSat ((out.map (·.2.1)).foldl (· + ·) 0)
    specials := satAdd 32 x.cruc.specials specials
    records := satAdd 64 x.cruc.records scored
    diverts := satAdd 32 x.cruc.diverts (b2n diverted) } }, out.map (·.1))

/-! ### The end of an instruction (R185, R186, R200) -/

/-- The row status word (Table CRUC-11). -/
def CRow.word (x : CRow) : Nat :=
  x.status + (if x.inf then 2 + 65536 * (min x.l.toNat 0xFFFF) else 0) + b2n (!x.inf && x.m.isNone)

def CRow.record (x : CRow) : List Byte :=
  toLe 4 (match x.m with
    | some m => wrapInt 32 m
    | none => 0x80000000) ++ toLe 4 (b2n x.inf) ++ toLe 4 x.word ++ toLe 4 x.pages ++ toLe 20 (wrapInt 160 x.l)
    ++ List.replicate 12 0 ++ (x.o.map fun v => toLe 20 (wrapInt 160 v)).flatten

/-- A row as its state record gives it. -/
def CRow.ofRecord (lat : Nat) (b : List Byte) : CRow :=
  { m := if u b 0 4 = 0x80000000 then none else some (sext 32 (u b 0 4))
    inf := bit (u b 4 4) 0, status := u b 8 4 % 256 / 4 * 4, pages := u b 12 4, l := sext 160 (u b 16 20)
    o := (List.range lat).map fun e => sext 160 (u b (48 + 20 * e) 20) }

/-- Output elements of a row, each quotient rounded once. -/
def CRow.outputs (fmt : Nat) (x : CRow) : List Nat :=
  let ff := if fmt = 0 then fmtFP32 else fmtBF16
  x.o.map fun v =>
    if x.l = 0 then 0
    else (ff.write (if x.l < 0 then -v else v) x.l.natAbs (if x.inf then -104 else 0)).1

/-- The bytes that the instruction writes to its output slot, from row 0. -/
def CrucJob.output (c : CrucJob) : List Byte :=
  fit 512 (c.rows.map fun x => toLe 4 x.word).flatten
    ++ (c.rows.map fun x => fit (512 * c.outLen)
      (if c.stateOut then x.record else packElems (if c.outFmt = 0 then 32 else 16) (x.outputs c.outFmt))).flatten

/-! ### Running -/

def Crucible.fail (c : Crucible) (st : Status) (kind check pc : Nat) : Crucible :=
  if c.errValid then c else { c with errValid := true, errStatus := st.code, errCheck := kind * 256 + check, errPc := pc }

/-- A failure while running (R198): CRUC_ERR kind 2, the step ends. -/
def State.crucEnds (s : State) (f : ForgeId) (j : Job) (c : CrucJob) (st : Status) : State :=
  (s.modForge f fun x => { x with cruc := x.cruc.fail st 2 0 c.pc }).endStep j.fn j.mould st

/-- Change the running instruction, with the waits cleared. -/
def State.crucGo (s : State) (f : ForgeId) (c : CrucJob) : State :=
  s.modForge f fun x => { x with cruc := { x.cruc with
    issued := c :: x.cruc.issued.drop 1, waitOpnd := false, waitT1 := false, waitPending := false, waitDivert := false } }

/-- Wait for a slot, where the wait is not already recorded. -/
def State.crucWaitSlot (s : State) (f : ForgeId) (j : Job) (mf : MForge) (slot : Nat) : Option State :=
  if (s.forges[f]).cruc.waitOpnd && mf.wait.contains slot then none
  else some ((s.modForge f fun x => { x with cruc := { x.cruc with waitOpnd := true } }).waitOn j slot)

/-- Release a slot to EMPTY where a flag says so. -/
def State.drainIf (s : State) (j : Job) (on : Bool) (slot : Nat) : State :=
  if on && slot != 0xFF then s.modMForge j.fn j.mould j.logical (·.setEmpty slot) else s

/-- The sequence bound to a session slot. -/
def boundSeq (v : Fn) (r : Running) (session : Nat) : Option Seq :=
  (r.bindings[session]?).bind v.seq?

/-- Start: read the query block, state records and mask. -/
def State.attnStart (s : State) (f : ForgeId) (j : Job) (m : Mould) (mf : MForge) (r : Running) (c : CrucJob) : Option State :=
  let phase := (s.forges[f]).phase
  let reads : List Acc := [{ slot := c.qSlot, first := 0, n := 1 + c.qRows * c.qRowLen }]
    ++ (if c.stateIn then [{ slot := c.sSlot, first := 0, n := 1 + c.qRows * c.stateLen }] else [])
    ++ (if c.masked then [{ slot := c.maskSlot, first := 0, n := c.qRows * c.maskLen }] else [])
  let later : List Acc := (if c.fromSlot then [{ slot := c.session, first := 0, n := 128 * c.pageCount }] else [])
    ++ [{ write := true, slot := c.oSlot, first := 0, n := 1 + c.qRows * c.outLen }]
  match mf.clashes s.feat.cacheMask phase 3 (reads ++ later) with
  | some cl => some (s.conflict f j 3 cl)
  | none => match mf.blocked reads with
    | some slot => s.crucWaitSlot f j mf slot
    | none =>
      let q := s.readRows f mf c.qSlot 0 (1 + c.qRows * c.qRowLen)
      let v := s.fnView j.fn (s.heatAt j.fn m phase)
      if (List.range 16).any fun i => c.qRows ≤ i && u q (8 * i) 4 != 0 then
        some ((s.modForge f fun x => { x with cruc := x.cruc.fail .badParam 1 3 c.pc }).endStep j.fn j.mould .badParam)
      else
        let seq := boundSeq v r c.session
        let bad : Option Status := if c.fromSlot then none else match seq with
          | none => some .notPermitted
          | some q => if !q.holds c.layer c.group then some .badParam else if v.seqLost q then some .integrity else none
        match bad with
        | some st => some (s.crucEnds f j c st)
        | none =>
          let sb := if c.stateIn then s.readRows f mf c.sSlot 1 (c.qRows * c.stateLen) else []
          let total := if c.pageCount = 0xFFFFFF then ceilDiv ((seq.map (·.length)).getD 0) 64 - c.pageFirst else c.pageCount
          let c := { c with
            started := true, query := q, total
            mask := if c.masked then s.readRows f mf c.maskSlot 0 (c.qRows * c.maskLen) else []
            rows := (List.range c.qRows).map fun i =>
              if c.stateIn then CRow.ofRecord c.lat (sb.drop (512 * c.stateLen * i))
              else ({ o := List.replicate c.lat 0 } : CRow) }
          let now := r.began
          let s := match seq with
            | some q => if c.fromSlot then s else s.modFn j.fn fun g =>
                { g with seqs := updateFirst (fun (x : Seq) => x.handle == q.handle) (fun x => { x with lastStep := now }) g.seqs }
            | none => s
          let s := s.crucGo f c
          some (((s.drainIf j (c.flag 2) c.qSlot).drainIf j (c.flag 4) c.sSlot).drainIf j (c.flag 5) c.maskSlot)

/-- Go on to the next page with the rows as merged. -/
def State.crucNext (s : State) (f : ForgeId) (c : CrucJob) (rows : List CRow) : State :=
  s.crucGo f { c with page := c.page + 1, rows, asked := none }

/-- A page served by an alternate (R193): it is called once, and its delivery is taken from the divert slot. -/
def State.attnDivert (s : State) (f : ForgeId) (j : Job) (m : Mould) (mf : MForge) (r : Running) (c : CrucJob) (alt : Nat)
    (len : Option Nat) : Option State :=
  let acc : Acc := { slot := c.divertSlot, first := 0, n := 128 }
  match mf.clash s.feat.cacheMask (s.forges[f]).phase 3 acc with
  | some cl => some (s.conflict f j 3 cl)
  | none =>
    if c.asked.isNone then
      let s := (s.callAlternate f j m mf r alt).crucGo f { c with asked := some (s.forges[f]).altDepth }
      some (s.modForge f fun x => { x with cruc := { x.cruc with waitDivert := true } })
    else if !mf.full.contains c.divertSlot then
      if mf.wait.contains c.divertSlot then none else some (s.waitOn j c.divertSlot)
    else
      let data := s.readRows f mf c.divertSlot 0 128
      let (s, rows) := s.mergePage f c len data (c.pageFirst + c.page) true
      some ((s.crucNext f c rows).drainIf j true c.divertSlot)

/-- What a fetch of the Crucible meets: nothing, a wait, or lost lines, which are reported once and then looked at anew. -/
inductive CFetch where
  | fine
  | wait
  | lost
  deriving DecidableEq, Repr

/-- Lines that a fetch has reported are taken off what the instruction meets. -/
def dropLines (env : Lines) (addr n : Nat) : Lines :=
  { env with beats := env.beats.filter fun b => !(addr / 256 ≤ b.1 / 8 && b.1 / 8 < (addr + n + 255) / 256)
             blocks := env.blocks.filter fun b => !(addr / 4096 ≤ b.block && b.block < (addr + n + 4095) / 4096) }

/-- A fetch of `[addr, addr + n)` of the Range for the running instruction (R169, R230, R233, R241, R251): channels, banks, links
and regulators may keep it waiting; a line or block found lost is dealt with as its table says. -/
def State.crucFetch (s : State) (f : ForgeId) (fn : FnId) (c : CrucJob) (slot : Option (Fin 32)) (addr n : Nat) : State × CFetch :=
  let errs := s.lineErrs fn addr n c.env
  if s.t1Waits fn addr n then (s, .wait)
  else if !errs.isEmpty then
    let s := errs.foldl (fun (s : State) x => (s.ueAt fn x).1) (s.countReads fn addr n c.env)
    (s.modForge f fun y => { y with cruc := { y.cruc with
      waitT1 := true, issued := { c with env := dropLines c.env addr n } :: y.cruc.issued.drop 1 } }, .lost)
  else
    let (s, out) := s.meet fn addr n c.env slot
    match out with
    | .fine => (s.t1Read fn addr n, .fine)
    | _ => (s, .wait)

/-- The reads of a walk, one after the other. -/
def State.walkFetch (s : State) (f : ForgeId) (fn : FnId) (c : CrucJob) (slot : Option (Fin 32)) (l : List Nat) : State × CFetch :=
  l.foldl (fun (acc : State × CFetch) a => if acc.2 == .fine then acc.1.crucFetch f fn c slot a 256 else acc) (s, .fine)

/-- The Armature walks ahead of the page that the Crucible fetches: the page 8 further on, where the buffer lacks it and
nothing keeps the walk waiting (R189; DESIGN CHOICE, log 166). -/
def State.walkAhead (s : State) (f : ForgeId) (fn : FnId) (id : BitVec 64) (slot : Option (Fin 32)) (c : CrucJob) (q : Seq) (lp : Nat) : State :=
  let v := s.fnView fn slot
  let reads := v.walkReads q c.layer c.group lp
  if c.pageFirst + c.total ≤ lp || q.length ≤ 64 * lp || ((s.forges[f]).cruc.lab? fn q c.layer c.group lp).isSome ||
      (q.entry? c.layer c.group lp).isNone || reads.any (fun a => s.t1Waits fn a 256 || s.chanBlocks fn a 256 ||
        s.poisonedIn fn a 256 slot || !(s.lineErrs fn a 256 c.env).isEmpty) then s
  else (reads.foldl (fun (s : State) a => (s.countReads fn a 256 c.env).t1Read fn a 256) s).installWalk f fn id slot q c.layer c.group lp

/-- One page of a sequence, resolved by the Armature (R189 to R193, R198, R204). A page that this heat's appends have claimed and
not yet written waits for them first (R192). -/
def State.attnPage (s : State) (f : ForgeId) (j : Job) (m : Mould) (mf : MForge) (r : Running) (c : CrucJob) : Option State :=
  let x := s.forges[f]
  let slot := s.heatAt j.fn m x.phase
  let v := s.fnView j.fn slot
  let lp := c.pageFirst + c.page
  match boundSeq v r c.session with
  | none => some (s.crucEnds f j c .notPermitted)
  | some q =>
    let seen := x.cruc.waitT1 || x.cruc.waitPending || x.cruc.waitDivert || c.asked.isSome
    let committed := (((s.fns[j.fn]).seq? q.handle).map (·.length)).getD 0
    let claimed := committed < q.length && committed < 64 * lp + 64
    let done := match slot.bind (s.fns[j.fn]).heat with
      | some h => h.appended.contains (q.handle, c.layer, c.group)
      | none => true
    if q.length ≤ 64 * lp then
      some (s.crucNext f c (c.rows.map fun y => { y with pages := (y.pages + 1) % 2 ^ 32 }))
    else if claimed && !done then
      (if seen then none else some (s.modForge f fun y => { y with cruc := { y.cruc with waitPending := true } }))
    else match q.entry? c.layer c.group lp with
      | none => some (s.crucEnds f j c .integrity)
      | some e =>
        if e.page = 0xFFFFFFFE then some (s.crucEnds f j c .badParam)
        else if v.seqLost q then some (s.crucEnds f j c .integrity)
        else
          let lab := x.cruc.lab? j.fn q c.layer c.group lp
          let (s0, walk) := match lab with
            | some l => (if seen then s else s.labHit f l, CFetch.fine)
            | none => match s.walkFetch f j.fn c slot (v.walkReads q c.layer c.group lp) with
              | (s, .fine) => (s.installWalk f j.fn m.id slot q c.layer c.group lp, .fine)
              | y => y
          let hold := fun (s : State) (g : Crucible → Crucible) => if seen && (lab.isSome || walk == .wait) then none
            else some (s.modForge f fun y => { y with cruc := g y.cruc })
          match walk with
          | .wait => hold s0 fun y => { y with waitT1 := true }
          | .lost => some s0
          | .fine =>
            let addr := v.kvAddr e.page
            let (s1, fetched) := s0.judge j.fn m.id x.phase [addr / 65536]
            let lost := (v.hdr? e.page).any (·.state == KvState.poisoned) || s.poisonedIn j.fn addr 65536 slot
            let diverts : Option Nat := match fetched with
              | .divert a => some a
              | _ => if e.dropped || lost then some c.alt else none
            match diverts with
            | some a =>
              if a = 0xFFFF then some (s1.crucEnds f j c (if e.dropped then .dropped else .integrity))
              else s1.attnDivert f j m mf r c a (some q.length)
            | none =>
              if fetched == .stall then hold s1 fun y => { y with waitT1 := true }
              else match s1.crucFetch f j.fn c slot addr 65536 with
                | (s, .wait) => hold s fun y => { y with waitT1 := true }
                | (s, .lost) => some s
                | (s, .fine) =>
                  let (s, rows) := s.mergePage f c (some q.length) (s.asRead j.fn addr c.env (s.readRange j.fn slot addr 65536)) lp false
                  some ((s.walkAhead f j.fn m.id slot c q (lp + 8)).crucNext f c rows)

/-- The end of CRUC_ATTN. -/
def State.attnFinish (s : State) (f : ForgeId) (j : Job) (mf : MForge) (c : CrucJob) : Option State :=
  match mf.blocked [{ write := true, slot := c.oSlot, first := 0, n := 1 }] with
  | some slot => s.crucWaitSlot f j mf slot
  | none =>
    let s := s.writeRows f j.fn j.mould mf c.oSlot 0 c.output
    let n := fun (p : CRow → Bool) => (c.rows.filter p).length
    let s := s.modForge f fun x => { x with cruc := { x.cruc with
      issued := x.cruc.issued.drop 1, waitOpnd := false
      rowsEmpty := satAdd 32 x.cruc.rowsEmpty (n fun y => bit y.word 0)
      rowsInf := satAdd 32 x.cruc.rowsInf (n fun y => bit y.word 1)
      rowsNan := satAdd 32 x.cruc.rowsNan (n fun y => bit y.word 2) } }
    some (if c.flag 3 then s.modMForge j.fn j.mould j.logical (·.setFull c.oSlot) else s)

/-- One record of an append: the page it goes to, allocated or copied where the rules ask for it (R195, R208). -/
def State.appendOne (s : State) (fn : FnId) (slot : Fin 32) (r : Running) (handle layer group p : Nat) (rec : List Byte) :
    Except NoPage State :=
  let v := s.fnView fn (some slot)
  match v.seq? handle with
  | none => .error (.status .notPermitted)
  | some q =>
    let put := fun (s : State) (n : Nat) =>
      match s.countsAs fn slot 1 fun s => s.heatWrite fn slot (v.kvAddr n + p % 64 * 1024) rec with
      | .error st => .error (NoPage.status st)
      | .ok s => .ok (s.edit fn slot (.filled n (p % 64 + 1)))
    match q.entry? layer group (p / 64) with
    | none => if p % 64 ≠ 0 then .error (.status .integrity) else match s.allocKv fn slot q layer group (p / 64) with
      | .error e => .error e
      | .ok (n, s) => put s n
    | some e =>
      if p % 64 = 0 && !(((s.fns[fn]).heat slot).any (·.freshPage e.page)) then
        match s.allocKv fn slot q layer group (p / 64) with
        | .error e => .error e
        | .ok (n, s) => put s n
      else
        let sealed_ := (v.hdr? e.page).any (·.state == KvState.sealed_)
        -- only a fork with a LENGTH inside a full page reaches a dropped page here (R217; DESIGN CHOICE, log 165)
        if e.dropped then .error (.status .dropped)
        else if 1 < r.gateRef ((s.fns[fn]).heat slot) e.page || sealed_ then
          if s.poisonedIn fn (v.kvAddr e.page) (p % 64 * 1024) (some slot) then .error (.status .integrity)
          else match s.allocKv fn slot q layer group (p / 64) with
            | .error e => .error e
            | .ok (n, s) => put ((s.copyPage fn slot e.page n (p % 64)).edit fn slot (.delta e.page (-1))) n
        else put s e.page

/-- CRUC_APPEND runs (R194, R195, R198). -/
def State.appendStep (s : State) (f : ForgeId) (j : Job) (m : Mould) (mf : MForge) (r : Running) (c : CrucJob) : Option State :=
  let phase := (s.forges[f]).phase
  let acc : Acc := { slot := c.qSlot, first := c.srcRow, n := 2 * c.count }
  match mf.clash s.feat.cacheMask phase 3 acc with
  | some cl => some (s.conflict f j 3 cl)
  | none => match mf.blocked [acc] with
    | some slot => s.crucWaitSlot f j mf slot
    | none => match s.heatAt j.fn m phase with
      | none =>
        if m.doneAt phase then
          some ((s.modForge f fun x => { x with cruc := { x.cruc with
            issued := x.cruc.issued.drop 1, waitOpnd := false, appends := satAdd 32 x.cruc.appends c.count } }).drainIf j (c.flag 0) c.qSlot)
        else some (s.crucEnds f j c .notPermitted)
      | some slot =>
        let v := s.fnView j.fn (some slot)
        match boundSeq v r c.session with
        | none => some (s.crucEnds f j c .notPermitted)
        | some q =>
          let lc := (((s.fns[j.fn]).seq? q.handle).map (·.length)).getD q.length
          if !q.holds c.layer c.group then some (s.crucEnds f j c .badParam)
          else if v.seqLost q then some (s.crucEnds f j c .integrity)
          else if q.length != lc && q.length != lc + c.count then some (s.crucEnds f j c .badParam)
          else if 64 * q.maxPages < lc + c.count then some (s.crucEnds f j c .noSpace)
          else
            let src := s.readRows f mf c.qSlot c.srcRow (2 * c.count)
            let recs := (List.range c.count).map fun i => fit 1024 (slice src (1024 * i) c.recordLen)
            match foldE (fun (s : State) (x : List Byte × Nat) =>
                s.appendOne j.fn slot r q.handle c.layer c.group (lc + x.2) x.1) recs.zipIdx s with
            | .error .pool => some (s.poolEmpty j.fn m.id)
            | .error (.status st) => some (s.crucEnds f j c st)
            | .ok s =>
              let s := if q.length = lc then s.edit j.fn slot (.length q.handle (lc + c.count)) else s
              let now := r.began
              let s := s.modHeat j.fn slot fun h => { h with appended := h.appended ++ [(q.handle, c.layer, c.group)] }
              let s := s.modFn j.fn fun g => { g with seqs := updateFirst (fun (x : Seq) => x.handle == q.handle) (fun x => { x with lastStep := now }) g.seqs }
              let s := s.dropLab j.fn fun l => l.seq == q.handle && l.layer == c.layer && l.group == c.group &&
                lc / 64 ≤ l.lpage && l.lpage ≤ (lc + c.count - 1) / 64
              let s := s.modForge f fun x => { x with cruc := { x.cruc with
                issued := x.cruc.issued.drop 1, waitOpnd := false, appends := satAdd 32 x.cruc.appends c.count } }
              some (s.drainIf j (c.flag 0) c.qSlot)

/-- Let the Crucible go on by one page or one instruction; none where nothing moves. -/
def State.crucStep (s : State) (f : ForgeId) : Option State :=
  match s.jobForge f with
  | none => none
  | some (j, m, mf) =>
    match (s.forges[f]).cruc.issued, m.run with
    | c :: _, some r =>
      if c.code = 0x32 then s.appendStep f j m mf r c
      else if !c.started then s.attnStart f j m mf r c
      else if c.page < c.total then
        if c.fromSlot then
          match mf.blocked [{ slot := c.session, first := 0, n := 1 }] with
          | some slot => s.crucWaitSlot f j mf slot
          | none =>
            let (s, rows) := s.mergePage f c none (s.readRows f mf c.session (128 * c.page) 128) (c.pageFirst + c.page) false
            some ((s.crucNext f c rows).drainIf j (c.flag 7 && c.page + 1 == c.total) c.session)
        else s.attnPage f j m mf r c
      else s.attnFinish f j mf c
    | _, _ => none

/-! ### The rows -/

/-- CRUC_CFG sets the configuration of later instructions (R173). -/
def crucCfg (f : ForgeId) (w : BitVec 128) (s : State) : State :=
  s.onStream f w 0x30 fun j _ _ _ s =>
    if CrucJob.cfgReserved w then
      (s.modForge f fun x => { x with cruc := x.cruc.fail .badParam 1 1 x.pc }).endStep j.fn j.mould .badParam
    else (s.modForge f fun x => { x with cruc := { x.cruc with cfg := w } }).advance f

/-- The instructions behind which one issues: all of them, or, inside the subroutine of an alternate, those that the subroutine
has issued already. The instruction that waits for the alternate's delivery runs after them (R193, R218; DEDUCED, log 164). -/
def Forge.crucAhead (x : Forge) : List CrucJob × List CrucJob :=
  x.cruc.issued.span fun c => match c.asked with
    | some n => x.altDepth ≤ n
    | none => true

/-- CRUC_ATTN and CRUC_APPEND issue (R175, R197). A fourth instruction holds the stream. -/
def crucIssue (code : Nat) (f : ForgeId) (w : BitVec 128) (env : Lines) (s : State) : State :=
  s.onStream f w code fun j m mf _ s =>
    let x := s.forges[f]
    let c : CrucJob := { word := w, cfg := x.cruc.cfg, pc := x.pc, env }
    if 3 ≤ x.crucAhead.1.length then s
    else match c.check m mf with
      | some k => (s.modForge f fun x => { x with cruc := x.cruc.fail .badParam 1 k x.pc }).endStep j.fn j.mould .badParam
      | none => (s.modForge f fun x => { x with cruc := { x.cruc with issued := x.crucAhead.1 ++ c :: x.crucAhead.2 } }).advance f

def crucAttn (f : ForgeId) (w : BitVec 128) (env : Lines) (s : State) : State := crucIssue 0x31 f w env s
def crucAppend (f : ForgeId) (w : BitVec 128) (s : State) : State := crucIssue 0x32 f w {} s

end Sys2Proof.Machine
end

