-- ==== Sys2Proof/Machine/Chisel.lean ====
section
/-! DEFINITION. The Chisel: tensor registers, issue checks, stages, reductions, the reduction unit, tensor writes
(R128 to R146). -/

namespace Sys2Proof.Machine

/-! ### Tensor registers (Table CHSL-1, Table CHSL-2) -/

/-- The fields of a tensor register. -/
structure Treg where
  queue : Bool
  slot : Nat
  format : Nat
  first : Nat
  frac : Int
  scaleReg : Nat
  scaled : Bool
  sgroup : Nat
  rows : Nat
  cols : Nat
  stride : Nat
  deriving DecidableEq, Repr

/-- Elements per scale or reduction group; 0 stands for the whole row. -/
def groupOf (c : Nat) : Nat := if c = 0 then 0 else 16 * 2 ^ c

def Treg.of (w : BitVec 128) : Treg :=
  { queue := bit (wB w 1 1) 4, slot := wB w 2 1, format := bits (wB w 3 1) 0 4, first := wB w 4 2
    frac := sext 8 (wB w 6 1), scaleReg := bits (wB w 7 1) 0 4, scaled := bit (wB w 7 1) 4
    sgroup := groupOf (bits (wB w 7 1) 5 2), rows := wB w 8 2, cols := wB w 10 2, stride := wB w 12 2 }

/-- Bits of an element. -/
def Treg.size (t : Treg) : Nat :=
  match t.format with
  | 2 | 7 => 16
  | 3 | 8 => 32
  | 4 => 64
  | 10 => 4
  | 11 => 1
  | 12 => 128
  | _ => 8

/-- Hearth rows of one tensor row, and of the whole region. -/
def Treg.rowLen (t : Treg) : Nat := ceilDiv (t.cols * t.size) 4096
def Treg.extent (t : Treg) : Nat := (t.rows - 1) * t.stride + t.rowLen
def Treg.accs (t : Treg) (write : Bool) : List Acc :=
  (List.range t.rows).map fun r => { write, slot := t.slot, first := t.first + r * t.stride, n := t.rowLen }

/-- Row indices that the region touches. -/
def Treg.indices (t : Treg) : List Nat :=
  ((List.range t.rows).map fun r => (List.range t.rowLen).map fun i => t.first + r * t.stride + i).flatten

/-- Region of a tensor register on a Hearth with the given cache mask (check 0x8). -/
def Treg.inPlace (t : Treg) (mf : MForge) (mask : BitVec 12) : Bool :=
  t.queue || (mf.fits t.slot t.first t.extent &&
    (t.slot != 0xFF || t.indices.all fun i =>
      !mask.getLsbD (i / 32 / 64) && !(mf.slots.any fun d =>
        d.bankFirst ≤ i % 32 && i % 32 < d.bankFirst + d.bankCount && d.rowFirst ≤ i / 32 && i / 32 < d.rowFirst + d.rowCount)))

/-- Two regions share a row. -/
def Treg.meets (a b : Treg) : Bool :=
  !a.queue && !b.queue && a.slot == b.slot && a.indices.any b.indices.contains

/-- Fixed-point value with the marks that it was replaced, and that it saturated (R131). -/
structure LaneIn where
  v : Int
  special : Bool := false
  sat : Bool := false

/-- A read of an element pattern (Table CHSL-2). -/
def Treg.lane (t : Treg) (p : Nat) : LaneIn :=
  let conv := fun (m e : Int) (special : Bool) =>
    let x := rneShift m (e + t.frac)
    ({ v := satInt 32 x, special, sat := satInt 32 x != x } : LaneIn)
  let float := fun (f : FFmt) => match f.read p with
    | .fin m e => conv m e false
    | .nan => conv 0 0 true
    | .inf neg => conv (if neg then -(f.top.1 : Int) else f.top.1) f.top.2 true
  match t.format with
  | 0 => conv (sext 8 p) 0 false
  | 1 => conv p 0 false
  | 2 => conv (sext 16 p) 0 false
  | 3 => conv (sext 32 p) 0 false
  | 4 => conv (sext 64 p) 0 false
  | 5 => float fmtE4M3
  | 6 => float fmtE5M2
  | 7 => float fmtBF16
  | 8 => float fmtFP32
  | 9 => float fmtUE5M3
  | 10 => conv (sext 4 p) 0 false
  | 11 => conv p 0 false
  | _ => conv (sext 128 p) 0 false

/-- A write of a lane or of a 64-bit statistic, divided by the scale: pattern, replaced by +0 for a zero scale, saturated (R131). -/
def Treg.pattern (t : Treg) (x : Int) (scale : Nat × Int) : Nat × Bool × Bool :=
  if scale.1 = 0 then (0, true, false)
  else
    let e := -t.frac - scale.2
    let int := fun (w : Nat) (lo hi : Int) =>
      let r := writeInt lo hi x scale.1 e
      (wrapInt w r.1, false, r.2)
    let float := fun (f : FFmt) =>
      let r := f.write x scale.1 e
      (r.1, false, r.2)
    match t.format with
    | 0 => int 8 (-128) 127
    | 1 => int 8 0 255
    | 2 => int 16 (-32768) 32767
    | 3 => int 32 (-(2 ^ 31 : Nat)) ((2 ^ 31 : Nat) - 1)
    | 4 => (wrapInt 64 (if 0 ≤ e then rneDiv (x * (2 ^ e.toNat : Nat)) scale.1 else rneDiv x (scale.1 * 2 ^ (-e).toNat)), false, false)
    | 5 => float fmtE4M3
    | 6 => float fmtE5M2
    | 7 => float fmtBF16
    | 8 => float fmtFP32
    | 9 => float fmtUE5M3
    | 10 => int 4 (-8) 7
    | _ => (if x = 0 then 0 else 1, false, false)

/-! ### Instruction fields (Tables CHSL-4, CHSL-5) -/

namespace ChiselJob

def stagesN (c : ChiselJob) : Nat := bits (wB c.word 1 1) 0 4
def use (c : ChiselJob) (i : Nat) : Bool := bit (wB c.word 5 1) i
def release (c : ChiselJob) (i : Nat) : Bool := bit (wB c.word 6 1) i
def stat (c : ChiselJob) : Nat := bits (wB c.word 7 1) 0 4
def tap (c : ChiselJob) : Nat := bits (wB c.word 7 1) 4 4
def ruGroup (c : ChiselJob) : Nat := groupOf (bits (wB c.word 8 1) 0 2)
def reg? (c : ChiselJob) (n : Nat) : Option Treg := ((c.tregs.getD n none)).map Treg.of
/-- Registers named: A, B, M, D, R, RU. -/
def num (c : ChiselJob) (i : Nat) : Nat := bits (wB c.word (2 + i / 2) 1) (4 * (i % 2)) 4
def reg (c : ChiselJob) (i : Nat) : Option Treg := c.reg? (c.num i)
def used (c : ChiselJob) (i : Nat) : Bool := i == 0 || c.use (i - 1)
/-- A register in use. -/
def live (c : ChiselJob) (i : Nat) : Option Treg := if c.used i then c.reg i else none
/-- The scale register of D. -/
def scale (c : ChiselJob) : Option Treg :=
  match c.live 3 with
  | some d => if d.scaled then c.reg? d.scaleReg else none
  | none => none
def all (c : ChiselJob) : List Treg := ((List.range 6).filterMap c.live) ++ c.scale.toList
def sources (c : ChiselJob) : List Treg := ((List.range 3).filterMap c.live) ++ c.scale.toList
def sinks (c : ChiselJob) : List Treg := [3, 4, 5].filterMap c.live

end ChiselJob

def stKind (w : BitVec 128) : Nat := bits (wB w 1 1) 0 4
def stOp (w : BitVec 128) : Nat := wB w 2 1
def stSrcB (w : BitVec 128) : Bool := bit (wB w 3 1) 0
def stMasked (w : BitVec 128) : Bool := bit (wB w 3 1) 1
def imm0 (w : BitVec 128) : Int := sext 32 (wB w 4 4)
def imm1 (w : BitVec 128) : Int := sext 32 (wB w 8 4)

/-- Check 0x6 of a stage. -/
def stageImmOk (w : BitVec 128) : Bool :=
  let op := stOp w
  let plain := !stSrcB w && imm0 w == 0
  match stKind w with
  | 0 => op ≤ 3 && (stSrcB w || (0 ≤ imm0 w && imm0 w ≤ 31))
  | 1 => op ≤ 4 && (op != 4 || plain)
  | 2 => op ≤ 3 && (op != 3 || plain)
  | 3 => op == 0 && (stSrcB w || (-32768 ≤ imm0 w && imm0 w ≤ 32767)) && 0 ≤ imm1 w && imm1 w ≤ 47
  | 4 => op ≤ 9 && (op != 0 || (!stSrcB w && imm0 w ≤ imm1 w))
  | 5 => op ≤ 1 && 0 ≤ imm1 w && imm1 w ≤ 23
  | 6 => 1 ≤ op && op ≤ 8 && 0 ≤ imm0 w && imm0 w ≤ 8
  | _ => op ≤ 2

/-- A stage reads B: a kind that has an operand b, with SRC [0]. -/
def stageUsesB (w : BitVec 128) : Bool := stSrcB w && stKind w ≤ 4

/-- The first failing check of Table CHSL-8, but for 0xB. `follow` tells whether the group is whole and closed. A FRAC outside
-64 to 63 is refused by check 0x1, ROWS or COLS of 0 and a ROW_STRIDE below a row's length by check 0x4, and D or R in MASK1 by
check 0x5, as that check reads, although Table CHSL-2 gives MASK1 a written form (DESIGN CHOICE, log 169). -/
def ChiselJob.check (c : ChiselJob) (mf : MForge) (mask : BitVec 12) (loaded : Nat → Bool) (follow : Bool) : Option Nat :=
  let regs := c.all
  let a := (c.reg 0).getD (Treg.of 0)
  let shape := fun (i : Nat) (p : Treg → Bool) => match c.live i with
    | some t => p t
    | none => true
  let oneOr := fun (t : Treg) => (t.rows == a.rows || t.rows == 1) && (t.cols == a.cols || t.cols == 1)
  let c1 := bits (wB c.word 1 1) 4 4 == 0 && bits (wB c.word 5 1) 5 3 == 0 && bits (wB c.word 6 1) 6 2 == 0 &&
    bits (wB c.word 8 1) 2 6 == 0 && wB c.word 9 7 == 0 && c.stat ≤ 8 &&
    (c.stages.all fun w => stKind w ≤ 7 && bits (wB w 1 1) 4 4 == 0 && bits (wB w 3 1) 2 6 == 0 && wB w 12 4 == 0) &&
    (regs.all fun t => t.format ≤ 12 && -64 ≤ t.frac && t.frac ≤ 63)
  let c2 := follow && c.stagesN ≤ 8
  let c3 := ((List.range 6).all fun i => !c.used i || (c.reg i).isSome) &&
    (match c.live 3 with
      | some d => !d.scaled || c.scale.isSome
      | none => true)
  let c4 := (regs.all fun t => 1 ≤ t.rows && 1 ≤ t.cols && (t.queue || t.rows == 1 || t.rowLen ≤ t.stride)) &&
    (!a.queue || a.cols % 128 == 0) && shape 1 oneOr && shape 2 oneOr &&
    shape 3 (fun t => t.rows == a.rows && t.cols == a.cols) && shape 4 (fun t => t.rows == a.rows && t.cols == 1) &&
    shape 5 (fun t => t.rows == a.rows && (if c.ruGroup = 0 then t.cols == 1 else t.cols * c.ruGroup == a.cols)) &&
    (match c.live 3, c.scale with
      | some d, some x => x.rows == d.rows && (if d.sgroup = 0 then x.cols == 1 else x.cols * d.sgroup == d.cols)
      | _, _ => true)
  let acc := regs.any (·.format == 12)
  let c5 := ((List.range 6).all fun i => shape i fun t => (t.format == 11) == (i == 2)) &&
    (!acc || (a.queue && a.format == 12 && c.stagesN == 0 && wB c.word 5 1 == 4 && shape 3 (fun t => t.format == 12 && !t.scaled))) &&
    ((List.range 6).all fun i => i == 0 || shape i (!·.queue)) && ((List.range 6).all fun i => i == 3 || shape i (!·.scaled)) &&
    (match c.scale with
      | some x => x.format == 9 && !x.queue && !x.scaled
      | none => true) && shape 5 (fun t => c.stat < 6 || t.format == 9)
  let c6 := c.stages.all stageImmOk
  let isReduce := fun w => stKind w == 7
  let tables := c.stages.filter fun w => stKind w == 5 && !loaded (stOp w)
  let c7 := !((c.stages.dropLast).any isReduce) && (!c.use 3 || c.stages.any isReduce) &&
    (c.stages.all fun w => (!(stMasked w || (stKind w == 4 && stOp w == 3)) || c.use 1) &&
      !(stMasked w && (stKind w == 6 || stKind w == 7)) && (!stageUsesB w || c.use 0) &&
      (stKind w != 6 || (a.cols % 2 ^ stOp w == 0 && !(stOp w == 8 && a.queue)))) &&
    c.tap ≤ c.stagesN && (!c.use 4 || c.stat != 0) && (!c.use 4 || c.ruGroup = 0 || a.cols % c.ruGroup == 0) &&
    tables.length ≤ 1
  let c8 := regs.all fun t => t.inPlace mf mask
  let persist := fun (t : Treg) => match mf.slot? t.slot with
    | some d => d.persist
    | none => false
  let inPlaceD := fun (d : Treg) => d.slot == 0xFF && a.slot == 0xFF && d.first == a.first && d.stride == a.stride && d.size ≤ a.size
  let clashD := match c.live 3 with
    | some d => (d.meets a && !inPlaceD d) || ((c.sources.drop 1).any d.meets) || ([4, 5].filterMap c.live).any d.meets
    | none => false
  let clashR := ([4, 5].filterMap c.live).any fun t => c.sources.any t.meets
  let clashRR := match c.live 4, c.live 5 with
    | some x, some y => x.meets y
    | _, _ => false
  let c9 := !clashD && !clashR && !clashRR && !(c.sinks.any persist)
  let cA := (List.range 6).all fun i => !(c.release i) || shape i fun t => !t.queue && t.slot != 0xFF
  if !c1 then some 1 else if !c2 then some 2 else if !c3 then some 3 else if !c4 then some 4 else if !c5 then some 5
  else if !c6 then some 6 else if !c7 then some 7 else if !c8 then some 8 else if !c9 then some 9 else if !cA then some 10
  else none

/-! ### Stages (Table CHSL-6, R136 to R140) -/

/-- A value with the number of saturations that it took. -/
abbrev Sat := Int × Nat

def sat32 (x : Int) : Sat := (satInt 32 x, if satInt 32 x = x then 0 else 1)

def bv32 (x : Int) : BitVec 32 := BitVec.ofInt 32 x

/-- The table function of R138. -/
def tableStage (tab : List (BitVec 32 × BitVec 32)) (x xmin : Int) (sh : Nat) : Sat :=
  let v := fun i => ((tab.getD i (0, 0)).1).toInt
  let d := fun i => ((tab.getD i (0, 0)).2).toInt
  let t := x - xmin
  if t < 0 then (v 0, 0)
  else
    let i := floorShift t (-(sh : Int))
    if 256 ≤ i then sat32 (v 255 + d 255)
    else sat32 (v i.toNat + rneDiv (d i.toNat * (t - i * (2 ^ sh : Nat))) (2 ^ sh))

/-- One element-wise stage: lane `x`, operand lane `b`, mask bit. -/
def laneStage (tab : Nat → List (BitVec 32 × BitVec 32)) (w : BitVec 128) (x bl : Int) (mbit : Bool) : Sat :=
  let b := if stSrcB w then bl else imm0 w
  let n : Nat := if stSrcB w then (wrapInt 32 bl) % 32 else (imm0 w).toNat
  let op := stOp w
  match stKind w with
  | 0 =>
    match op with
    | 0 => sat32 (x * (2 ^ n : Nat))
    | 1 => (rneShift x (-(n : Int)), 0)
    | 2 => (floorShift x (-(n : Int)), 0)
    | _ => (((bv32 x) >>> n).toInt, 0)
  | 1 =>
    match op with
    | 0 => ((bv32 x &&& bv32 b).toInt, 0)
    | 1 => ((bv32 x ||| bv32 b).toInt, 0)
    | 2 => ((bv32 x ^^^ bv32 b).toInt, 0)
    | 3 => ((bv32 x &&& ~~~(bv32 b)).toInt, 0)
    | _ => ((~~~(bv32 x)).toInt, 0)
  | 2 =>
    match op with
    | 0 => sat32 (x + b)
    | 1 => sat32 (x - b)
    | 2 => sat32 (b - x)
    | _ => sat32 (x.natAbs : Int)
  | 3 =>
    let m := if stSrcB w then satInt 16 bl else imm0 w
    let r := sat32 (rneDiv (x * m) (2 ^ (imm1 w).toNat))
    (r.1, r.2 + b2n (stSrcB w && m != bl))
  | 4 =>
    match op with
    | 0 => (min (max x (imm0 w)) (imm1 w), 0)
    | 1 => (max x b, 0)
    | 2 => (min x b, 0)
    | 3 => (if mbit then x else b, 0)
    | 4 => (if x = b then x else imm1 w, 0)
    | 5 => (if x ≠ b then x else imm1 w, 0)
    | 6 => (if x < b then x else imm1 w, 0)
    | 7 => (if x ≤ b then x else imm1 w, 0)
    | 8 => (if b < x then x else imm1 w, 0)
    | _ => (if b ≤ x then x else imm1 w, 0)
  | 5 => tableStage (tab op) x (imm0 w) (imm1 w).toNat
  | _ => (x, 0)

/-- The Walsh–Hadamard transform of a block, with its shift (R139). -/
def rotateBlock (l : List Int) (r : Nat) : List Sat :=
  (List.range l.length).map fun j =>
    let z := l.zipIdx.foldl (fun s x => s + (if popcount 16 (j &&& x.2) % 2 = 0 then x.1 else -x.1)) (0 : Int)
    sat32 (rneDiv z (2 ^ r))

/-- Cut a list into pieces of `n`. -/
def chunks {α : Type} (n : Nat) : Nat → List α → List (List α)
  | 0, _ => []
  | fuel + 1, l => if l.isEmpty then [] else l.take n :: chunks n fuel (l.drop n)

/-- One level of the lane tree: neighbours are joined in lane order. -/
def joinPairs (op : Int → Int → Sat) : List Int → List Int × Nat
  | x :: y :: rest =>
    let r := op x y
    let q := joinPairs op rest
    (r.1 :: q.1, r.2 + q.2)
  | l => (l, 0)

/-- The tree of seven levels over one vector (R140). -/
def laneTree (op : Int → Int → Sat) (id : Int) (l : List Int) : Int × Nat :=
  let r := (List.range 7).foldl (fun (acc : List Int × Nat) _ =>
    let q := joinPairs op acc.1
    (q.1, acc.2 + q.2)) (l ++ List.replicate (128 - l.length) id, 0)
  (r.1.headD id, r.2)

/-- Vectors combined in ascending column order. -/
def rowReduce (op : Int → Int → Sat) (id : Int) (l : List Int) : Int × Nat :=
  match (chunks 128 (l.length + 1) l).map (laneTree op id) with
  | [] => (id, 0)
  | v :: vs => vs.foldl (fun acc x =>
      let r := op acc.1 x.1
      (r.1, acc.2 + x.2 + r.2)) v

/-- A stage over a whole tensor row. -/
def rowStage (tab : Nat → List (BitVec 32 × BitVec 32)) (w : BitVec 128) (xs bs : List Int) (ms : List Bool) : List Int × Nat :=
  if stKind w = 6 then
    let l := ((chunks (2 ^ stOp w) (xs.length + 1) xs).map fun b => rotateBlock b (imm0 w).toNat).flatten
    (l.map (·.1), (l.map (·.2)).foldl (· + ·) 0)
  else
    let l := xs.zipIdx.map fun x =>
      let m := ms.getD x.2 true
      if stMasked w && !m then (x.1, 0) else laneStage tab w x.1 (bs.getD x.2 0) m
    (l.map (·.1), (l.map (·.2)).foldl (· + ·) 0)

/-- Identity and operation of the REDUCE of a row. -/
def reduceOp (op : Nat) : Int × (Int → Int → Sat) :=
  match op with
  | 0 => (0, fun a b => sat32 (a + b))
  | 1 => ((2 ^ 31 : Nat) - 1, fun a b => (min a b, 0))
  | _ => (-(2 ^ 31 : Nat), fun a b => (max a b, 0))

/-- A statistic of the reduction unit: what a lane gives, identity and operation (Table CHSL-7). -/
def statOp (st : Nat) : (Int → Int) × Int × (Int → Int → Sat) :=
  match st with
  | 1 => (id, 0, fun a b => (satInt 64 (a + b), 0))
  | 2 => (fun x => x * x, 0, fun a b => (satInt 64 (a + b), 0))
  | 3 => (id, (2 ^ 63 : Nat) - 1, fun a b => (min a b, 0))
  | 4 => (id, -(2 ^ 63 : Nat), fun a b => (max a b, 0))
  | _ => (fun x => x.natAbs, 0, fun a b => (max a b, 0))

/-- The scale of R142: the byte, and whether the largest scale was too small. -/
def scaleByte (q : Nat) (frac : Int) (a : Int) : Nat × Bool :=
  if a = 0 then (0x98, false)
  else
    let ge := fun (p : Nat) =>
      let s := fmtUE5M3.mag p
      let d := s.2 + frac
      if 0 ≤ d then a ≤ (s.1 * q * 2 ^ d.toNat : Nat) else a * (2 ^ (-d).toNat : Nat) ≤ (s.1 * q : Nat)
    match (List.range 256).find? fun p => ge p with
    | some p => (p, false)
    | none => (0xFF, true)

/-! ### Running -/

/-- What one row of an instruction gives. -/
structure RowOut where
  d : List Nat := []
  r : List Nat := []
  ru : List Nat := []
  sats : Nat := 0
  specials : Nat := 0

/-- Repeat a row operand over the columns. -/
def spread {α : Type} (cols : Nat) (l : List α) (dflt : α) : List α :=
  if l.length = 1 then List.replicate cols (l.headD dflt) else l

/-- The patterns of a tensor row in the Hearth. -/
def State.patterns (s : State) (f : ForgeId) (mf : MForge) (t : Treg) (r : Nat) : List Nat :=
  let r := if t.rows = 1 then 0 else r
  let bs := s.readRows f mf t.slot (t.first + r * t.stride) t.rowLen
  (List.range t.cols).map (elemAt t.size bs)

/-- One row of an instruction. A B element repeated over columns or rows is loaded anew for each lane, and counts in SPECIALS and
SATURATED for each (DESIGN CHOICE, log 169). -/
def ChiselJob.mapRow (c : ChiselJob) (tab : Nat → List (BitVec 32 × BitVec 32)) (a : Treg) (ap bp : List Nat) (ms : List Bool)
    (scales : List Nat) : RowOut :=
  let cols := a.cols
  let lanes := ap.map a.lane
  let bl := match c.live 1 with
    | some b => spread cols (bp.map b.lane) { v := 0 }
    | none => []
  let xs := lanes.map (·.v)
  let bs := bl.map (·.v)
  let go := c.stages.foldl (fun (acc : List (List Int) × Nat) w =>
    let r := rowStage tab w (acc.1.headD []) bs ms
    (r.1 :: acc.1, acc.2 + r.2)) ([xs], 0)
  let outs := go.1.reverse
  let ys := go.1.headD []
  let on := fun (i : Nat) => ms.getD i true
  -- REDUCE
  let red : Option (Int × Nat) := match c.stages.getLast? with
    | some w => if stKind w = 7 then
        let o := reduceOp (stOp w)
        some (rowReduce o.2 o.1 (ys.zipIdx.map fun x => if on x.2 then x.1 else o.1))
      else none
    | none => none
  let w := fun (t : Treg) (x : Int) (sc : Nat × Int) => t.pattern x sc
  let rOut := match c.live 4, red with
    | some t, some v => [w t v.1 (1, 0)]
    | _, _ => []
  -- the reduction unit
  let tapped := outs.getD c.tap []
  let o := statOp c.stat
  let vals := tapped.zipIdx.map fun x => if on x.2 then o.1 x.1 else o.2.1
  let groups := if c.ruGroup = 0 then [vals] else chunks c.ruGroup (cols + 1) vals
  let ruOut := match c.live 5 with
    | none => []
    | some t => groups.map fun g =>
        let v := (rowReduce o.2.2 o.2.1 g).1
        if c.stat < 6 then t.pattern v (1, 0)
        else
          let q := if c.stat = 6 then 448 else if c.stat = 7 then 127 else 7
          let r := scaleByte q t.frac v
          (r.1, false, r.2)
  -- D
  let dOut := match c.live 3 with
    | none => []
    | some t => ys.zipIdx.map fun x =>
        let sc := if t.scaled then
            scaleOf (BitVec.ofNat 8 (scales.getD (if t.sgroup = 0 then 0 else x.2 / t.sgroup) 0)) else (1, 0)
        t.pattern x.1 sc
  let all := dOut ++ rOut ++ ruOut
  { d := dOut.map (·.1), r := rOut.map (·.1), ru := ruOut.map (·.1)
    sats := go.2 + ((lanes ++ bl).filter (·.sat)).length + (red.map (·.2)).getD 0 + (all.filter (·.2.2)).length
    specials := ((lanes ++ bl).filter (·.special)).length + (all.filter (·.2.1)).length }

def Chisel.fail (c : Chisel) (check pc : Nat) : Chisel :=
  if c.errValid then c else { c with errValid := true, errStatus := Status.badParam.code, errCheck := check, errPc := pc }

/-- The Anvil output format that a tensor format takes from the queue (Tables ANVL-6, CHSL-2). -/
def queueFormat (out : Nat) : Nat :=
  match out with
  | 0 => 8 | 1 => 7 | 2 => 3 | 3 => 2 | 4 => 0 | _ => 12

/-- The patterns of row `r` of the tiles taken. -/
def ChiselJob.queueRow (c : ChiselJob) (r : Nat) : List Nat :=
  (c.taken.map fun t => (t.data.drop (r * t.features)).take t.features).flatten

/-- Write a row of patterns to a tensor register: whole Hearth rows, the rest zero (R132). -/
def State.writeTensorRow (s : State) (f : ForgeId) (j : Job) (mf : MForge) (t : Treg) (r : Nat) (ps : List Nat) : State :=
  s.writeRows f j.fn j.mould mf t.slot (t.first + r * t.stride) (fit (512 * t.rowLen) (packElems t.size ps))

/-- Row `r` of an instruction over the columns of A. -/
def State.chiselRow (s : State) (f : ForgeId) (mf : MForge) (c : ChiselJob) (a : Treg) (r : Nat) : RowOut :=
  let tab := fun i => (((s.forges[f]).chisel.tables.toList.getD i none)).getD []
  let ap := if a.queue then c.queueRow r else s.patterns f mf a r
  let bp := match c.live 1 with
    | some b => s.patterns f mf b r
    | none => []
  let ms := match c.live 2 with
    | some m => spread a.cols ((s.patterns f mf m r).map (· != 0)) true
    | none => []
  let sc := match c.scale with
    | some x => s.patterns f mf x r
    | none => []
  if a.format = 12 then { d := ap } else c.mapRow tab a ap bp ms sc

/-- An instruction as far as the queue entries taken go: what joins the columns of a row is left out (R140, R146). -/
def ChiselJob.part (c : ChiselJob) : ChiselJob :=
  { c with word := c.word &&& ~~~(0x18#128 <<< 40), stages := c.stages.filter fun w => stKind w != 7 }

/-- Vectors, saturations and specials of the queue entries that an instruction has taken (R146). -/
def State.partCounts (s : State) (f : ForgeId) (mf : MForge) (c : ChiselJob) (a : Treg) : Nat × Nat × Nat :=
  if !a.queue || c.taken.isEmpty then (0, 0, 0)
  else
    let outs := (List.range a.rows).map (s.chiselRow f mf c.part { a with cols := 128 * c.taken.length })
    (a.rows * c.taken.length, (outs.map (·.sats)).foldl (· + ·) 0, (outs.map (·.specials)).foldl (· + ·) 0)

/-- Count vectors, saturations and specials. -/
def Chisel.count (c : Chisel) (n : Nat × Nat × Nat) : Chisel :=
  { c with vectors := satAdd 64 c.vectors n.1, saturated := satAdd 32 c.saturated n.2.1, specials := satAdd 32 c.specials n.2.2 }

/-- Carry out an instruction whose operands are all there. The vectors of its queue entries have been counted. -/
def State.chiselRun (s : State) (f : ForgeId) (j : Job) (mf : MForge) (c : ChiselJob) : State :=
  match c.reg 0 with
  | none => s
  | some a =>
    let outs := (List.range a.rows).map (s.chiselRow f mf c a)
    let had := s.partCounts f mf c a
    let s := outs.zipIdx.foldl (fun s x =>
      let put := fun (i : Nat) (l : List Nat) (s : State) => match c.live i with
        | some t => s.writeTensorRow f j mf t x.2 l
        | none => s
      put 5 x.1.ru (put 4 x.1.r (put 3 x.1.d s))) s
    let rel := fun (i : Nat) (s : State) => match c.live i with
      | some t => if c.release i && t.slot != 0xFF && !t.queue then
          s.modMForge j.fn j.mould j.logical fun m => if i < 3 then m.setEmpty t.slot else m.setFull t.slot else s
      | none => s
    let s := (List.range 6).foldl (fun s i => rel i s) s
    let all := (a.rows * ceilDiv a.cols 128, (outs.map (·.sats)).foldl (· + ·) 0, (outs.map (·.specials)).foldl (· + ·) 0)
    s.modForge f fun x => { x with chisel :=
      ({ x.chisel with waitOpnd := false, issued := x.chisel.issued.drop 1 } : Chisel).count (all.1 - had.1, all.2.1 - had.2.1, all.2.2 - had.2.2) }

/-- Let the Chisel go on: take a queue entry, or run an instruction whose operands are there; none where nothing moves. -/
def State.chiselStep (s : State) (f : ForgeId) : Option State :=
  match s.jobForge f with
  | none => none
  | some (j, _, mf) =>
    let x := s.forges[f]
    match x.chisel.issued with
    | [] => none
    | c :: rest =>
      match c.reg 0 with
      | none => none
      | some a =>
        let hold := fun (s : State) => if x.chisel.waitOpnd then none else some (s.modForge f fun x =>
          { x with chisel := { x.chisel with waitOpnd := true } })
        let accs := (c.sources.map fun t => if t.queue then [] else t.accs false).flatten ++ (c.sinks.map (·.accs true)).flatten
        match mf.clashes s.feat.cacheMask x.phase 2 accs with
        | some cl => some (s.conflict f j 2 cl)
        | none =>
          match mf.blocked accs with
          | some slot => if mf.wait.contains slot then hold s else some ((hold s).getD s |>.waitOn j slot)
          | none =>
            if a.queue && c.taken.length < a.cols / 128 then
              match x.anvil.queue with
              | [] => hold s
              | t :: ts =>
                if queueFormat t.format != a.format || t.tokens != a.rows then
                  some ((s.modForge f fun x => { x with chisel := x.chisel.fail 11 c.pc }).endStep j.fn j.mould .badParam)
                else
                  -- its vectors pass the chain: an end of the step takes effect after them (R146)
                  let c' := { c with taken := c.taken ++ [t] }
                  let had := s.partCounts f mf c a
                  let now := s.partCounts f mf c' a
                  some (s.modForge f fun x => { x with
                    anvil := { x.anvil with queue := ts }
                    chisel := ({ x.chisel with issued := c' :: rest, waitOpnd := false } : Chisel).count
                      (now.1 - had.1, now.2.1 - had.2.1, now.2.2 - had.2.2) })
            else some (s.chiselRun f j mf c)

/-! ### The rows -/

/-- CHISEL_OP issues with the stage records that follow it (R134); a sixth holds the stream. A word of code 0x21 at the
head of the stream is a stage outside an instruction (check 0x2). -/
def chiselOp (f : ForgeId) (w : BitVec 128) (stages : List (BitVec 128)) (s : State) : State :=
  if wB w 0 1 = 0x21 then
    s.onStream f w 0x21 fun j _ _ _ s =>
      (s.modForge f fun x => { x with chisel := x.chisel.fail 2 x.pc }).endStep j.fn j.mould .badParam
  else s.onStream f w 0x20 fun j _ mf _ s =>
    let x := s.forges[f]
    let n := bits (wB w 1 1) 0 4
    let recs := ((mf.stream.drop (x.pc + 1)).take n).takeWhile fun w => wB w 0 1 == 0x21
    if 5 ≤ x.chisel.issued.length || recs != stages then s
    else
      let inLoop := x.nest.all fun l => match l with
        | .loop _ last _ => x.pc + n ≤ last || last < x.pc
        | .call _ _ => true
      let c : ChiselJob := { word := w, stages, tregs := x.chisel.tregs.toList, pc := x.pc }
      match c.check mf s.feat.cacheMask (fun i => (x.chisel.tables.toList.getD i none).isSome) (recs.length == n && inLoop) with
      | some k => (s.modForge f fun x => { x with chisel := x.chisel.fail k x.pc }).endStep j.fn j.mould .badParam
      | none => (s.modForge f fun x => { x with chisel := { x.chisel with issued := x.chisel.issued ++ [c] } }).advance f (1 + n)

/-- CHISEL_TREG sets a tensor register (R130). -/
def chiselTreg (f : ForgeId) (w : BitVec 128) (s : State) : State :=
  s.onStream f w 0x22 fun _ _ _ _ s =>
    let i : Fin 16 := Fin.ofNat 16 (wB w 1 1)
    (s.modForge f fun x => { x with chisel := { x.chisel with tregs := x.chisel.tregs.set i (some w) } }).advance f

/-- CHISEL_TABLE loads a table RAM once every earlier Chisel instruction has completed (R138); it holds the stream meanwhile.
Checks 0x8 and 0xA name CHISEL_OP's registers: untagged rows of CHISEL_TABLE are read wherever they lie, and DRAIN with slot 0xFF
has nothing to release (DESIGN CHOICE, log 169). -/
def chiselTable (f : ForgeId) (w : BitVec 128) (s : State) : State :=
  s.onStream f w 0x23 fun j _ mf _ s =>
    let x := s.forges[f]
    let slot := wB w 2 1
    let acc : Acc := { slot, first := wB w 4 2, n := 4 }
    if !x.chisel.issued.isEmpty then s
    else if !mf.fits slot acc.first 4 then
      (s.modForge f fun x => { x with chisel := x.chisel.fail 8 x.pc }).endStep j.fn j.mould .badParam
    else match mf.clash s.feat.cacheMask x.phase 2 acc with
      | some c => s.conflict f j 2 c
      | none => match mf.blocked [acc] with
        | some slot => s.waitOn j slot
        | none =>
          let bs := s.readRows f mf slot acc.first 4
          let tab := (List.range 256).map fun i => (BitVec.ofNat 32 (u bs (8 * i) 4), BitVec.ofNat 32 (u bs (8 * i + 4) 4))
          let i : Fin 2 := Fin.ofNat 2 (wB w 1 1)
          let s := s.modForge f fun x => { x with chisel := { x.chisel with tables := x.chisel.tables.set i (some tab) } }
          let s := if bit (wB w 1 1) 1 && slot != 0xFF then s.modMForge j.fn j.mould j.logical (·.setEmpty slot) else s
          s.advance f

end Sys2Proof.Machine
end

