-- ==== Sys2Proof/Machine/Tongs.lean ====
section
/-! DEFINITION. Tongs: runs, descriptor checks, pacing, the five operations, the shared cache, the Plinth windows
(R76 to R105, R230, R263, R277). -/

namespace Sys2Proof.Machine

/-! ### Descriptor checks (R99, R100, Table HRTH-13) -/

/-- Range address of a side with its parameter word added. -/
def Side.at (d : Side) (r : Running) : Nat :=
  if d.space = 3 then d.addr + (if d.param = 0xFFFF then 0 else 256 * r.word d.param)
  else if d.space = 4 then bits d.addr 0 28 else d.addr
def Side.plinth (d : Side) : PlinthId := Fin.ofNat 8 (bits d.addr 28 3)
/-- Bytes from the first line's start to the last line's end. -/
def Side.extent (d : Side) : Nat := (d.lines - 1) * d.stride + d.lineBytes
def Side.starts (d : Side) (base : Nat) : List Nat := (List.range d.lines).map fun i => base + i * d.stride

/-- Result areas, and what Tongs may write (Table PLIN-3). -/
def inResults (a n : Nat) : Bool := 0x8000000 ≤ a && a + n ≤ 0x8000000 + 12 * 0x40000
def inAperture (a n : Nat) : Bool := 0x100000 ≤ a && a + n ≤ 0x200000
def inOperands (a n : Nat) : Bool := 0x1100000 ≤ a && a + n ≤ 0x1110000
def inDoorbell (a n : Nat) : Bool := 0x2100000 ≤ a && a + n ≤ 0x2100100

/-- Spaces and cache flags that Table HRTH-13 allows. -/
def spacesOk (d : BitVec 512) : Bool :=
  let s := (dSrc d).space
  let t := (dDst d).space
  let hearth := fun n => n == 1 || n == 2
  let any := fun n => 1 ≤ n && n ≤ 4
  let sc := !dFlag d 3 || s == 3 || s == 4
  match dOp d with
  | 1 => any s && any t && (hearth s || hearth t || (s == 3 && t == 4)) && sc && (!dFlag d 4 || t == 3)
  | 2 => s == 0 && (hearth t || t == 3) && !dFlag d 3 && (!dFlag d 4 || t == 3)
  | 3 => any s && any t && (hearth s || hearth t) && sc && (!dFlag d 4 || t == 3 || t == 4)
  | 4 => s == 0 && (t == 3 || t == 4) && !dFlag d 3 && !dFlag d 4
  | _ => s == 1 && t == 1 && !dFlag d 3 && !dFlag d 4

/-- PARAM_WORD, PEER_HEARTH and mapping of a side. -/
def Side.placed (d : Side) (m : Mould) (r : Running) (f : Fn) : Bool :=
  match d.space with
  | 0 => d.param == 0
  | 1 => d.param == 0xFFFF
  | 2 => d.param == 0xFFFF && d.logical < m.forges.length
  | 3 => (d.param == 0xFFFF || 4 * d.param + 4 ≤ m.paramBytes) && (d.starts (d.at r)).all fun a => a + d.lineBytes ≤ 2 ^ 48 && f.mappedRange a d.lineBytes
  | _ => d.param == 0xFFFF

/-- A PLINTH side lies in a region open to Tongs for its direction. -/
def Side.opened (d : Side) (m : Mould) (r : Running) (write : Bool) : Bool :=
  d.space != 4 || (m.plinthMask.getLsbD d.plinth.val &&
    (if write then inAperture (d.at r) d.extent || inOperands (d.at r) d.extent || inDoorbell (d.at r) d.extent
     else inResults (d.at r) d.extent))

def Side.aligned (d : Side) (r : Running) : Bool :=
  match d.space with
  | 0 => true
  | 1 | 2 => d.lineBytes % 512 == 0 && d.stride % 512 == 0
  | _ => d.at r % 256 == 0 && d.lineBytes % 256 == 0 && d.stride % 256 == 0

/-- The part of the mould on the forge whose Hearth a side names. -/
def Side.mforge (d : Side) (m : Mould) (own : Nat) : Option MForge := m.forges[d.forge own]?

def Side.inSlot (d : Side) (m : Mould) (own : Nat) : Bool :=
  !d.isHearth || match d.mforge m own with
    | some mf => match mf.slot? d.slot with
      | some s => 512 * d.row + d.extent ≤ 512 * s.rows
      | none => false
    | none => false

def paceOk (d : BitVec 512) : Bool :=
  let n := dPaceSlots d
  if n = 0 then dPaceFirst d == 0 && dPaceHigh d == 0 && dPaceLow d == 0 && !dPaceMode d
  else n ≤ 64 && 1 ≤ dPaceHigh d && dPaceHigh d ≤ n && dPaceLow d < dPaceHigh d

def resultOk (d : BitVec 512) (mf : MForge) : Bool :=
  dResult d = 0xFFFFFFFF || (bits (dResult d) 24 8 == 0 && match mf.slot? (bits (dResult d) 0 8) with
    | some s => bits (dResult d) 8 16 < s.rows
    | none => false)

/-- The check of a descriptor that enters the shadow set (R100): the status of its first failure. -/
def checkDesc (d : BitVec 512) (m : Mould) (mf : MForge) (own : Nat) (r : Running) (f : Fn) : Option Status :=
  let s := dSrc d
  let t := dDst d
  let op := dOp d
  let reads := op == 3 || op == 4
  if !(1 ≤ op && op ≤ 5 && s.space ≤ 4 && t.space ≤ 4) then some .badParam
  else if !(spacesOk d && (!dFlag d 0 || op == 1 || op == 3) && (!dFlag d 1 || t.isHearth) && (!dFlag d 2 || s.isHearth) &&
      s.placed m r f && t.placed m r f) then some .badParam
  else if !(s.opened m r false && t.opened m r (!reads)) then some .notPermitted
  else if !(s.aligned r && t.aligned r) then some .dmaAlign
  else if !((s.space = 0 || (s.total == t.total && s.total != 0)) && t.total != 0 && s.inSlot m own && t.inSlot m own &&
      (t.lines == 1 || t.lineBytes ≤ t.stride) && paceOk d && resultOk d mf) then some .badParam
  else none

/-! ### Runs, shadow and active sets (R97, R100 to R102) -/

/-- Load the shadow set: the next descriptor of the run in progress, or of the oldest queued run. -/
def TChan.load (t : TChan) (check : Nat → Option Status) : TChan :=
  if t.shadow.isSome then t
  else match t.cur, t.queue with
    | some c, _ => { t with shadow := some { index := c.first, status := check c.first }
                            cur := if c.count ≤ 1 then none else some { first := c.first + 1, count := c.count - 1 } }
    | none, c :: rest => { t with queue := rest, shadow := some { index := c.first, status := check c.first }
                                  cur := if c.count ≤ 1 then none else some { first := c.first + 1, count := c.count - 1 } }
    | none, [] => t

/-- Record a channel's first failure. -/
def State.chanErr (s : State) (f : ForgeId) (c : TongsId) (st : Status) (index : Nat) : State :=
  let upd := fun (t : TChan) =>
    if t.errValid then t else { t with errValid := true, errStatus := st.code, errDesc := index }
  s.modForge f fun x => { x with tchans := vmod x.tchans c upd }

/-- A descriptor fails: the step ends with its status (R100, R263). -/
def State.descFails (s : State) (f : ForgeId) (j : Job) (c : TongsId) (st : Status) (index : Nat) : State :=
  let s := (s.chanErr f c st index).modForge f fun x => { x with tchans := vmod x.tchans c fun t => { t with active := none } }
  s.endStep j.fn j.mould st

/-- Load the shadow set of a channel; a failing descriptor takes effect once nothing is active. -/
def State.loadChan (s : State) (f : ForgeId) (c : TongsId) : State :=
  match s.jobForge f with
  | none => s
  | some (j, m, mf) => match m.run with
    | none => s
    | some r =>
      let fn := s.fns[j.fn]
      let check := fun i => checkDesc (mf.tongs.getD i 0) m mf j.logical r fn
      let s := s.modForge f fun x => { x with tchans := vmod x.tchans c fun t => t.load check }
      let t := (s.forges[f]).tchans[c]
      match t.active, t.shadow with
      | none, some d => match d.status with
        | some st => s.descFails f j c st d.index
        | none => s
      | _, _ => s

def tongsRun (f : ForgeId) (w : BitVec 128) (s : State) : State :=
  s.onStream f w 0x40 fun j _ mf _ s =>
    let c : TongsId := Fin.ofNat 8 (wB w 1 1)
    let run : TRun := { first := wB w 2 2, count := wB w 4 2 }
    let t := (s.forges[f]).tchans[c]
    if run.count = 0 || 4096 < run.count || mf.tongs.length < run.first + run.count then s.endStep j.fn j.mould .badParam
    else if 4 ≤ t.queue.length then s
    else
      let s := s.modForge f fun x => { x with tchans := vmod x.tchans c fun t =>
        { t with queue := t.queue ++ [run], started := true, paused := t.paused || !t.started } }
      (s.advance f).loadChan f c

/-- The channels of a mask. -/
def chansOf (w : BitVec 128) : List TongsId := (List.finRange 8).filter fun c => bit (wB w 1 1) c.val

def tongsWait (f : ForgeId) (w : BitVec 128) (s : State) : State :=
  s.onStream f w 0x41 fun _ _ _ _ s =>
    if (chansOf w).all fun c => ((s.forges[f]).tchans[c]).empty then s.advance f else s

def tongsStop (f : ForgeId) (w : BitVec 128) (s : State) : State :=
  s.onStream f w 0x42 fun _ _ _ _ s =>
    let s := (chansOf w).foldl (fun s c => s.modForge f fun x => { x with tchans := vmod x.tchans c fun t =>
      { t with queue := [], cur := none, shadow := none, stopping := t.active.isSome } }) s
    if (chansOf w).all fun c => ((s.forges[f]).tchans[c]).active.isNone then s.advance f else s

/-- The level of a paced descriptor's queue (R105). -/
def paceLevel (d : BitVec 512) (mf : MForge) : Nat :=
  ((List.range (dPaceSlots d)).filter fun i => mf.full.contains (dPaceFirst d + i) == dPaceMode d).length

/-- Let the shadow descriptor become active where pacing permits; a channel at or below PACE_LOW pauses. A descriptor without
pacing starts at once and leaves its channel running: R105 does not say how paced and unpaced descriptors mix (DESIGN CHOICE,
log 167). -/
def State.activate (s : State) (f : ForgeId) (c : TongsId) (op : Nat) (mf : MForge) : State :=
  let t := (s.forges[f]).tchans[c]
  match t.active, t.shadow with
  | none, some d =>
    let b := mf.tongs.getD d.index 0
    if dOp b != op || d.status.isSome then s
    else
      let set := fun (g : TChan → TChan) => s.modForge f fun x => { x with tchans := vmod x.tchans c g }
      let start := (set fun t => { t with shadow := none, active := some { index := d.index }, desc := d.index, paused := false }).loadChan f c
      if dPaceSlots b = 0 then start
      else if t.paused then (if dPaceHigh b ≤ paceLevel b mf then start else s)
      else if paceLevel b mf ≤ dPaceLow b then set fun t => { t with paused := true }
      else start
  | _, _ => s

/-! ### The shared cache (R88 to R93) -/

/-- The tag of a line as the home hash takes it. -/
def lineTag (fn : FnId) (plinth : Option PlinthId) (line : Nat) : Nat :=
  (fn.val * 16 + (match plinth with
    | some n => n.val + 1
    | none => 0)) * 2 ^ 48 + line

/-- Home of a line: a cache-mode segment of a powered forge, and one of its 128 sets (R88). -/
def State.homeOf (s : State) (tag : Nat) : ForgeId × Nat :=
  let on := s.poweredForges
  let segs := (List.range 12).filter s.feat.cacheMask.getLsbD
  let i := Config.homeHash tag % (on.length * segs.length)
  (on.getD (i / segs.length) 0, 128 * segs.getD (i % segs.length) 0 + Config.cacheSet tag % 128)

/-- A set whose sixteen ways are taken lets a line go, a dirty one to its heat's shadow; R88 does not say which (log 127). -/
def State.makeRoom (s : State) (home : ForgeId) (set : Nat) : State :=
  let ways := s.cache.filter fun l => l.home == home && l.set == set
  if ways.length < 16 then s
  else match ways[Config.freeNat s.draws % ways.length]? with
    | some l => s.draw.2.flushLine l
    | none => s

def CacheLine.is (l : CacheLine) (fn : FnId) (plinth : Option PlinthId) (line : Nat) : Bool :=
  l.fn == fn && l.plinth == plinth && l.line == line

/-- Look up a line: a hit counts at its home; a miss fills it from `fill`, which is read from T1 for a line of the Range. A line that another heat has dirtied serves
only that heat: a reader outside it takes `fill` and installs nothing. -/
def State.cacheLine (s : State) (fn : FnId) (plinth : Option PlinthId) (line : Nat) (slot : Option (Fin 32))
    (own : Bool) (fill : List Byte) : State × List Byte :=
  let home := s.homeOf (lineTag fn plinth line)
  match s.cache.find? fun l => l.is fn plinth line with
  | some l =>
    if l.heat.isSome && l.heat != slot then (s, fill)
    else (s.modForge l.home fun x => { x with cacheHits := satAdd 64 x.cacheHits 1 }, l.bytes)
  | none =>
    let s := (s.modForge home.1 fun x => { x with cacheMisses := satAdd 64 x.cacheMisses 1 }).makeRoom home.1 home.2
    let s := if plinth.isNone then s.t1Read fn (line * 512) 512 else s
    ({ s with cache := s.cache ++ [{ fn, plinth, line, heat := if own then slot else none, bytes := fill, home := home.1, set := home.2 }] }, fill)

/-- A bucket keeps a cached read waiting: some line that it misses (R249, R251). -/
def State.cacheWaits (s : State) (fn : FnId) (addr n : Nat) : Bool :=
  (List.range ((addr + n + 511) / 512 - addr / 512)).any fun i =>
    !(s.cache.any fun l => l.is fn none (addr / 512 + i)) && s.t1Waits fn ((addr / 512 + i) * 512) 512

/-- A granule is claimed by the heat of the slot. -/
def State.ownGranule (s : State) (fn : FnId) (slot : Option (Fin 32)) (addr : Nat) : Bool :=
  match slot.bind (s.fns[fn]).heat with
  | some h => h.granules.contains (addr / 4096)
  | none => false

/-- Read `n` bytes of the Range through the shared cache. -/
def State.cachedRead (s : State) (fn : FnId) (slot : Option (Fin 32)) (addr n : Nat) : State × List Byte :=
  let first := addr / 512
  let r := (List.range ((addr + n + 511) / 512 - first)).foldl (fun (acc : State × List Byte) i =>
    let a := (first + i) * 512
    let x := acc.1.cacheLine fn none (first + i) slot (acc.1.ownGranule fn slot a) (acc.1.readRange fn slot a 512)
    (x.1, acc.2 ++ x.2)) (s, [])
  (r.1, slice r.2 (addr % 512) n)

/-- A heat may dirty a line where its page is OPEN and the function's own. -/
def State.mayDirty (s : State) (fn : FnId) (slot : Fin 32) (a : Nat) : Bool :=
  match s.pageAt fn a, (s.fns[fn]).heat slot with
  | some (g, p), some h => !((p.sealed_ && p.bad.isEmpty) || g != fn || h.seals (a / 65536))
  | _, _ => false

/-- The first dirtying of a line by a heat is one action (R91). -/
def State.actLine (s : State) (fn : FnId) (slot : Fin 32) (line : Nat) : Except Status State :=
  if ((s.fns[fn]).heat slot).any (·.lines.contains line) then .ok s
  else (s.act fn slot 1).map fun s => s.modHeat fn slot fun h => { h with lines := h.lines ++ [line] }

/-- Put bytes into one line, which becomes dirty and marked with the heat. The heat claims the line's granule, as by any other
write (R291, R292). -/
def State.dirtyLine (s : State) (fn : FnId) (slot : Fin 32) (a : Nat) (bs : List Byte) : Except Status State :=
  let s := s.foldClaimer fn slot (a / 4096)
  if !s.mayDirty fn slot a then .error .notPermitted
  else match s.claim fn slot (a / 4096) with
    | .error st => .error st
    | .ok s =>
      let line := a / 512
      let (s, old) := s.cacheLine fn none line (some slot) true (s.readRange fn (some slot) (line * 512) 512)
      match s.actLine fn slot line with
      | .error st => .error st
      | .ok s =>
        let new := old.take (a % 512) ++ bs ++ old.drop (a % 512 + bs.length)
        .ok { s with cache := updateFirst (fun (l : CacheLine) => l.is fn none line)
                       (fun l => { l with dirty := true, heat := some slot, bytes := new }) s.cache }

/-- Pieces of a byte string by line. -/
def linePieces (addr : Nat) (bs : List Byte) : Nat → List (Nat × List Byte)
  | 0 => []
  | fuel + 1 => if bs.isEmpty then [] else
      let n := 512 - addr % 512
      (addr, bs.take n) :: linePieces (addr + n) (bs.drop n) fuel

/-- A cached write; the poisoned lines that it covers whole are clear once the heat commits (Table TIER-1). -/
def State.cachedWrite (s : State) (fn : FnId) (slot : Fin 32) (addr : Nat) (bs : List Byte) : Except Status State :=
  (foldE (fun s p => s.dirtyLine fn slot p.1 p.2) (linePieces addr bs (bs.length / 512 + 2)) s).bind fun s => s.rewrites fn slot addr bs.length

/-- Every held line of a range goes, a dirty one to its heat's shadow (R103). -/
def State.flushLines (s : State) (fn : FnId) (plinth : Option PlinthId) (addr n : Nat) : State :=
  (s.cache.filter fun l => l.fn == fn && l.plinth == plinth && l.line * 512 < addr + n && addr < l.line * 512 + 512).foldl State.flushLine s

/-! ### Plinth windows (R263, R277, Table PLIN-3) -/

/-- A function's compute frame in a channel group. -/
def State.computeFrame (s : State) (fn : FnId) (n : PlinthId) (dev : Nat) : Option Nat :=
  (s.t2.find? fun x => x.use == .compute fn && x.num % 8 == n.val && (x.num / 8) % 6 == dev).map (·.num)

def State.hasCompute (s : State) (fn : FnId) (n : PlinthId) : Bool :=
  (List.range 6).any fun d => (s.computeFrame fn n d).isSome && (s.plinths[n]).compute.getLsbD d

/-- A result-window read of `[off, off + n)` of the result areas. -/
inductive WinRead where
  | data (bs : List Byte)
  | held
  | fails (st : Status)

/-- A read of the result areas by a function: held while an accepted instruction has yet to release a line of it. -/
def State.resultRead (s : State) (fn : FnId) (n : PlinthId) (off len : Nat) : WinRead :=
  let p := s.plinths[n]
  let parts := (List.finRange 12).filterMap fun k : Fin 12 =>
    let lo := max off (k.val * 262144)
    let hi := min (off + len) ((k.val + 1) * 262144)
    if lo < hi then some (k, lo - k.val * 262144, hi - lo) else none
  let allowed := parts.all fun x => (s.computeFrame fn n (x.1.val / 2)).isSome && p.compute.getLsbD (x.1.val / 2)
  let meets := fun (lo m a b : Nat) => a < lo + m && lo < b
  let heldBy := parts.any fun x => (p.chains[x.1].instrs).any fun i =>
    i.fn == fn && i.entries.2 != 0 && meets x.2.1 x.2.2 (8 * i.entries.1 / 256 * 256) (8 * (i.entries.1 + i.entries.2))
  let failed := parts.any fun x => p.chains[x.1].failed.any fun e => e.1 == fn && meets x.2.1 x.2.2 (256 * e.2) (256 * e.2 + 256)
  if !allowed then .fails .notPermitted
  else if heldBy || !p.linkUp then .held
  else if failed then .fails .integrity
  else .data ((parts.map fun x => Memory.read p.results ((fn.val * 12 + x.1.val) * 262144 + x.2.1) x.2.2).flatten)

/-! ### Moving bytes -/

/-- What stands in the way of a descriptor's accesses. -/
inductive Block where
  | clash (f : ForgeId) (agent : Nat) (c : Clash)
  | tag (f : ForgeId) (slot : Nat)
  /-- a Plinth instruction or a retraining channel: the channel asserts HOLD (R42) -/
  | near
  | wait
  | fails (st : Status)
  | divert (alt : Nat)
  /-- a result block is beyond correction: the step replays (Table PLIN-8) -/
  | replay

/-- The accesses of a Hearth side: the forge they reach, the agent, its part of the mould, the runs of rows. -/
def Side.accs (d : Side) (m : Mould) (own : Nat) (write : Bool) : Option (MForge × Nat × List Acc) :=
  (d.mforge m own).map fun mf => (mf, if d.forge own = own then 4 else 5,
    (d.starts (512 * d.row)).map fun b => { write, slot := d.slot, first := b / 512, n := d.lineBytes / 512 })

/-- Bank ownership and tags of a Hearth side. -/
def Side.hearthBlock (d : Side) (cache : BitVec 12) (m : Mould) (own : Nat) (write : Bool) (phase : Nat) : Option Block :=
  if !d.isHearth then none
  else match d.accs m own write with
    | none => some (.fails .badParam)
    | some (mf, agent, l) => match mf.clashes cache phase agent l with
      | some c => some (.clash mf.phys agent c)
      | none => (mf.blocked l).map fun slot => .tag mf.phys slot

/-- A cached read of a result window at window address `a`: every 512-byte line that it touches. A line that is missed is
filled with what the result area holds. -/
def State.cachedResult (s : State) (fn : FnId) (n : PlinthId) (a len : Nat) : State × List Byte :=
  let die := a + n.val * 0x10000000
  let x := (List.range ((die + len + 511) / 512 - die / 512)).foldl (fun (y : State × List Byte) i =>
    let line := die / 512 + i
    let fill := Memory.read (s.plinths[n]).results (fn.val * 12 * 262144 + (line * 512 - n.val * 0x10000000 - 0x8000000)) 512
    let z := y.1.cacheLine fn (some n) line none false fill
    (z.1, y.2 ++ z.2)) (s, [])
  (x.1, slice x.2 (die % 512) len)

/-- What a read of the result areas gives its descriptor. -/
def WinRead.toExcept : WinRead → Except Block (List Byte)
  | .fails st => .error (.fails st)
  | .held => .error .near
  | .data v => .ok v

/-- Valid blocks of a function's result areas on a Plinth that a read of `len` bytes at window address `a` checks, with what it
meets there. A read's blocks of Plinth `n` count from 2^36 + 65,536 n. A cached read of lines all held reads no device. -/
def State.resultBlocks (s : State) (fn : FnId) (n : PlinthId) (cached : Bool) (len a : Nat) (env : Lines) : List BlockErr :=
  let die := a + n.val * 0x10000000
  if cached && (List.range ((die + len + 511) / 512 - die / 512)).all fun i => s.cache.any fun l => l.is fn (some n) (die / 512 + i) then []
  else
    let off := a - 0x8000000
    ((env.blocks.filter fun b => 2 ^ 36 + n.val * 65536 ≤ b.block && b.block < 2 ^ 36 + n.val * 65536 + 768).map fun b =>
      { b with block := b.block - 2 ^ 36 - n.val * 65536 }).filter fun b =>
        off / 4096 ≤ b.block && b.block < (off + len + 4095) / 4096 && (s.plinths[n]).valid.contains (fn.val * 768 + b.block)

/-- Die address of a block of a function's result areas: 4 KiB of the linear view are 16 units of channel 3 (R266). -/
def State.resultDie (s : State) (fn : FnId) (n : PlinthId) (block : Nat) : Nat :=
  t2Die ((s.computeFrame fn n (block / 128)).getD 0) (block / 64 % 2 * 1048576 + block % 64 * 16384)

/-- What a read of blocks corrects (R255, R259). -/
def Plinth.countFixed (p : Plinth) (bs : List BlockErr) : Plinth :=
  bs.foldl (fun (p : Plinth) (b : BlockErr) => { p with
    ceOdecc := satAdd 32 p.ceOdecc b.odecc
    ceCheck := match blockClass b.errs with
      | .fixed _ _ => inc32 p.ceCheck
      | _ => p.ceCheck }) p

/-- One read of a Plinth's result window. -/
def State.readResult (s : State) (fn : FnId) (n : PlinthId) (cached : Bool) (len a : Nat) (env : Lines) : State × Except Block (List Byte) :=
  let w := (s.resultRead fn n (a - 0x8000000) len).toExcept
  if !w.isOk then (s, w)
  else
    let bs := s.resultBlocks fn n cached len a env
    let s := s.modPlinth n fun p => p.countFixed bs
    if bs.any BlockErr.ue then
      ((bs.filter BlockErr.ue).foldl (fun s b => s.countT2 (some fn) (s.resultDie fn n b.block) false) s, .error .replay)
    else if cached then ((s.cachedResult fn n a len).1, .ok (s.cachedResult fn n a len).2) else (s, w)

/-- The reads of one side: the bytes in transfer order, or what stands in their way. -/
def State.readSide (s : State) (j : Job) (m : Mould) (r : Running) (phase : Nat) (d : Side) (cached : Bool)
    (slot : Option (Fin 32)) (env : Lines) : State × Except Block (List Byte) :=
  if d.isHearth then
    match d.hearthBlock s.feat.cacheMask m j.logical false phase, d.mforge m j.logical with
    | some b, _ => (s, .error b)
    | none, some mf => (s, .ok ((d.starts (512 * d.row)).map fun b => s.readRows mf.phys mf d.slot (b / 512) (d.lineBytes / 512)).flatten)
    | none, none => (s, .error (.fails .badParam))
  else if d.space = 3 then
    let base := d.at r
    let pages := ((d.starts base).map fun a => (List.range ((a + d.lineBytes + 65535) / 65536 - a / 65536)).map (a / 65536 + ·)).flatten.eraseDups
    let (s, g) := s.judge j.fn m.id phase pages
    match g with
    | .stall => (s, .error .wait)
    | .divert alt => (s, .error (.divert alt))
    | .ready =>
      match (d.starts base).foldl (fun (acc : State × Meets) a =>
          let x := acc.1.meet j.fn a d.lineBytes env slot
          (x.1, match acc.2, x.2 with
            | .ends st, _ => .ends st
            | _, .ends st => .ends st
            | .wait, _ => .wait
            | .fine, y => y)) (s, .fine) with
      | (s, .ends st) => (s, .error (.fails st))
      | (s, .wait) => (s, .error (if (d.starts base).any fun a => s.chanBlocks j.fn a d.lineBytes then .near else .wait))
      | (s, .fine) =>
        if (d.starts base).any fun a => if cached then s.cacheWaits j.fn a d.lineBytes else s.t1Waits j.fn a d.lineBytes then (s, .error .wait)
        else if cached then
          let x := (d.starts base).foldl (fun (acc : State × List Byte) a =>
            let y := acc.1.cachedRead j.fn slot a d.lineBytes
            (y.1, acc.2 ++ y.2)) (s, [])
          (x.1, .ok x.2)
        else ((d.starts base).foldl (fun s a => s.t1Read j.fn a d.lineBytes) s, .ok ((d.starts base).map fun a => s.asRead j.fn a env (s.readRange j.fn slot a d.lineBytes)).flatten)
  else (d.starts (d.at r)).foldl (fun (acc : State × Except Block (List Byte)) a => match acc.2 with
    | .error _ => acc
    | .ok bs =>
      let x := acc.1.readResult j.fn d.plinth cached d.lineBytes a env
      (x.1, x.2.map (bs ++ ·))) (s, .ok [])

/-- The writes of the destination side. A COPY to the run doorbell is accepted and starts nothing: the spec gives the run record
that PLINTH_RUN writes there no layout (DESIGN CHOICE, log 167). -/
def State.writeSide (s : State) (j : Job) (m : Mould) (r : Running) (phase : Nat) (d : Side) (cached : Bool) (slot : Option (Fin 32))
    (bs : List Byte) : Except Status State :=
  if d.isHearth then
    match d.mforge m j.logical with
    | none => .error .badParam
    | some mf => .ok ((d.starts (512 * d.row)).zipIdx.foldl (fun s x =>
        s.writeRows mf.phys j.fn m.id mf d.slot (x.1 / 512) (slice bs (x.2 * d.lineBytes) d.lineBytes)) s)
  else if d.space = 3 then
    match slot with
    | none => if m.doneAt phase then .ok s else .error .notPermitted
    | some i => foldE (fun (s : State) (x : Nat × Nat) =>
        let l := slice bs (x.2 * d.lineBytes) d.lineBytes
        if cached then s.cachedWrite j.fn i x.1 l else s.heatWrite j.fn i x.1 l) (d.starts (d.at r)).zipIdx s
  else
    let n := d.plinth
    if !s.hasCompute j.fn n then .error .notPermitted
    else if inOperands (d.at r) d.extent then
      .ok ((d.starts (d.at r)).zipIdx.foldl (fun s x => s.modPlinth n fun p =>
        { p with operands := Memory.write p.operands (j.fn.val * 65536 + (x.1 - 0x1100000)) (slice bs (x.2 * d.lineBytes) d.lineBytes) }) s)
    else .ok s

/-- The 256-byte groups of a write to the instruction aperture. -/
def apertureGroups (n : PlinthId) (bs : List Byte) : List (PlinthId × BitVec 2048) :=
  (List.range (bs.length / 256)).map fun i => (n, BitVec.ofNat 2048 (u bs (256 * i) 256))

/-- A bucket keeps the writes of a destination waiting (R249). -/
def State.destWaits (s : State) (fn : FnId) (r : Running) (d : Side) : Bool :=
  d.space == 3 && (d.starts (d.at r)).any fun a => s.t1Waits fn a d.lineBytes

/-- A T1 channel that retrains holds up the writes of a destination. -/
def State.destBlocked (s : State) (fn : FnId) (r : Running) (d : Side) : Bool :=
  (d.space == 4 && !(s.plinths[d.plinth]).linkUp) || d.space == 3 && (d.starts (d.at r)).any fun a => s.chanBlocks fn a d.lineBytes

/-- The writes of a destination wait in the queues of such channels. -/
def State.queueDest (s : State) (fn : FnId) (r : Running) (d : Side) : State :=
  if d.space = 3 then (d.starts (d.at r)).foldl (fun s a => s.enqueue (s.t1Units fn a d.lineBytes)) s else s

/-- Note what blocks the active descriptor. -/
def State.noteBlock (s : State) (f : ForgeId) (j : Job) (c : TongsId) (d : BitVec 512) (index : Nat) (b : Block) : State :=
  let set := fun (g : TChan → TChan) => s.modForge f fun x => { x with tchans := vmod x.tchans c g }
  let dst := dDst d
  let holds := fun (s : State) (on : Bool) =>
    if dst.isHearth && dFlag d 1 then s.modMForge j.fn j.mould (dst.forge j.logical) fun x => x.setHold dst.slot on else s
  match b with
  | .clash f' agent cl => s.conflict f' j agent cl
  | .tag f' slot => holds (set fun t => { t with tagWait := true, waitOn := some (f', slot), hold := false }) false
  | .near => holds (set fun t => { t with tagWait := false, waitOn := none, hold := true }) true
  | .wait | .divert _ => holds (set fun t => { t with tagWait := false, waitOn := none, hold := false }) false
  | .fails st => s.descFails f j c st index
  | .replay => s.replay j.fn j.mould

/-- The bytes of an active descriptor have moved. -/
def State.noteMoved (s : State) (f : ForgeId) (j : Job) (c : TongsId) (d : BitVec 512) (bytes : Nat) (g : TActive → TActive) : State :=
  let dst := dDst d
  let s := if dst.isHearth then s.modMForge j.fn j.mould (dst.forge j.logical) fun x => x.setHold dst.slot false else s
  s.modForge f fun x => { x with
    tBytes := satAdd 64 x.tBytes bytes
    tchans := vmod x.tchans c fun t => { t with
      tagWait := false, waitOn := none, hold := false, active := t.active.map fun a => g { a with moved := true } } }

/-- The stored bytes of a side in the Range, which its alternate equals (R66). -/
def State.storedBytes (s : State) (fn : FnId) (d : Side) (r : Running) : List Byte :=
  ((d.starts (d.at r)).map fun a => s.readRange fn none a d.lineBytes).flatten

/-- Run the descriptor of operation `op` on a channel: it becomes active where it may, and then moves its bytes with
`move`, which answers what stands in the way or what it leaves. -/
def State.onDesc (s : State) (f : ForgeId) (c : TongsId) (op : Nat)
    (move : Job → Mould → MForge → Running → BitVec 512 → State → State × Except Block (Nat × (TActive → TActive))) : State :=
  match s.jobForge f with
  | none => s
  | some (j, _, mf) =>
    let s := s.activate f c op mf
    match s.jobForge f, (s.forges[f]).tchans[c].active with
    | some (_, m, mf), some a =>
      let d := mf.tongs.getD a.index 0
      match m.run with
      | none => s
      | some r =>
        if dOp d != op || a.moved || r.rerun then s
        else match move j m mf r d s with
          | (s, .error (.divert alt)) => (s.callAlternate f j m mf r alt).noteMoved f j c d 0 fun a =>
              { a with diverted := true, hasCrc := dFlag d 0, crc := if dFlag d 0 then crc32c (s.storedBytes j.fn (dSrc d) r) else 0 }
          | (s, .error b) => s.noteBlock f j c d a.index b
          | (s, .ok (n, g)) => s.noteMoved f j c d n g
    | _, _ => s

/-- COPY: the destination's tags and banks, then the source's bytes, then the writes. -/
def copy (f : ForgeId) (c : TongsId) (env : Lines) (s : State) : State :=
  s.onDesc f c 1 fun j m _ r d s =>
    let phase := (s.forges[f]).phase
    let slot := s.heatAt j.fn m phase
    match (dDst d).hearthBlock s.feat.cacheMask m j.logical true phase with
    | some b => (s, .error b)
    | none =>
      if s.destBlocked j.fn r (dDst d) then (s.queueDest j.fn r (dDst d), .error .near)
      else if s.destWaits j.fn r (dDst d) then (s, .error .wait)
      else match s.readSide j m r phase (dSrc d) (dFlag d 3) slot env with
        | (s, .error b) => (s, .error b)
        | (s, .ok bs) =>
          match s.writeSide j m r phase (dDst d) (dFlag d 4) slot bs with
          | .error st => (s, .error (.fails st))
          | .ok s =>
            let aperture := if (dDst d).space = 4 && inAperture ((dDst d).at r) (dDst d).extent then apertureGroups (dDst d).plinth bs else []
            (s, .ok (bs.length, fun a => { a with aperture, hasCrc := dFlag d 0, crc := if dFlag d 0 then crc32c bs else 0 }))

/-- FILL: the constant over the whole destination, byte 0 first. -/
def fill (f : ForgeId) (c : TongsId) (s : State) : State :=
  s.onDesc f c 2 fun j m _ r d s =>
    let phase := (s.forges[f]).phase
    match (dDst d).hearthBlock s.feat.cacheMask m j.logical true phase with
    | some b => (s, .error b)
    | none =>
      if s.destBlocked j.fn r (dDst d) then (s.queueDest j.fn r (dDst d), .error .near)
      else if s.destWaits j.fn r (dDst d) then (s, .error .wait)
      else
        let k := toLe 4 (dConst d)
        let bs := ((List.range (ceilDiv (dDst d).total 4)).map fun _ => k).flatten.take (dDst d).total
        match s.writeSide j m r phase (dDst d) (dFlag d 4) (s.heatAt j.fn m phase) bs with
        | .error st => (s, .error (.fails st))
        | .ok s => (s, .ok (bs.length, id))

/-- First offset at which two byte strings differ. -/
def firstDiff : List Byte → List Byte → Nat → Option Nat
  | a :: as, b :: bs, n => if a = b then firstDiff as bs (n + 1) else some n
  | _, _, _ => none

/-- COMPARE: both sides are read. A diverted side compares with the stored bytes, which the alternate equals (R66). -/
def compare (f : ForgeId) (c : TongsId) (env : Lines) (s : State) : State :=
  s.onDesc f c 3 fun j m _ r d s =>
    let phase := (s.forges[f]).phase
    let slot := s.heatAt j.fn m phase
    let side : State → Side → Bool → State × Except Block (List Byte) := fun s x cached => match s.readSide j m r phase x cached slot env with
      | (s, .error (.divert _)) =>
        (s, .ok (((x.starts (x.at r)).map fun a => s.readRange j.fn slot a x.lineBytes).flatten))
      | y => y
    match side s (dSrc d) (dFlag d 3) with
    | (s, .error b) => (s, .error b)
    | (s, .ok a) => match side s (dDst d) (dFlag d 4) with
      | (s, .error b) => (s, .error b)
      | (s, .ok b) => (s, .ok (a.length, fun t => { t with
          mismatch := firstDiff a b 0, hasCrc := dFlag d 0, crc := if dFlag d 0 then crc32c a else 0 }))

/-- FLUSH: dirty lines of the function in the range go to their heats' shadows, and every held line goes. -/
def flush (f : ForgeId) (c : TongsId) (s : State) : State :=
  s.onDesc f c 4 fun j _ _ r d s =>
    let t := dDst d
    let plinth := if t.space = 4 then some t.plinth else none
    let base := t.at r + (if t.space = 4 then t.plinth.val * 0x10000000 else 0)
    ((t.starts base).foldl (fun s a => s.flushLines j.fn plinth a t.lineBytes) s, .ok (0, id))

/-- One atomic on an old value: the new value, and whether a CAS stored (Table HRTH-3). -/
def atomicOp (op : Nat) (wide signed : Bool) (old x cmp : Nat) : Nat × Bool :=
  let w := if wide then 64 else 32
  let less := fun a b => if signed then sext w a < sext w b else a < b
  match op with
  | 1 => ((old + x) % 2 ^ w, false)
  | 2 => (if less x old then x else old, false)
  | 3 => (if less old x then x else old, false)
  | 4 => (old ^^^ x, false)
  | _ => if old = cmp then (x, true) else (old, false)

/-- Reserved fields of an entry are zero (Tables HRTH-3, HRTH-4, R93). -/
def atomicEntryOk (e : List Byte) : Bool :=
  let o := u e 0x18 1
  let op := o / 16
  op ≤ 5 && o % 4 == 0 && zeroAt e 0x19 7 && u e 6 2 == 0 && (!bit o 2 || op == 2 || op == 3) &&
    (op == 5 || zeroAt e 0x10 8) && (bit o 3 || (zeroAt e 0x0C 4 && zeroAt e 0x14 4))

/-- One entry: its result, or the status that ends the step. -/
def State.atomicEntry (s : State) (fn : FnId) (slot : Option (Fin 32)) (done : Bool) (env : Lines) (e : List Byte) :
    Except (State × Block) (State × List Byte) :=
  let o := u e 0x18 1
  let n := if bit o 3 then 8 else 4
  let a := u e 0 8
  if !atomicEntryOk e then .error (s, .fails .badParam)
  else if o / 16 = 0 then .ok (s, List.replicate 32 0)
  else if a % n != 0 then .error (s, .fails .dmaAlign)
  else if !(s.fns[fn]).mappedRange a n then .error (s, .fails .badParam)
  else match slot with
    | none =>
      -- its heat has committed what the entry stored (DEDUCED, log 20)
      if done then .ok (s, toLe 8 (leNat (s.readRange fn none a n)) ++ List.replicate 24 0) else .error (s, .fails .notPermitted)
    | some i =>
      match s.meet fn (a / 512 * 512) 512 env slot with
      | (s, .ends st) => .error (s, .fails st)
      | (s, .wait) => .error (s, .near)
      | (s, .fine) =>
        let (s, bs) := s.cachedRead fn slot a n
        let old := leNat bs
        let r := atomicOp (o / 16) (bit o 3) (bit o 2) old (u e 8 n) (u e 0x10 n)
        let out := toLe 8 old ++ toLe 1 (b2n r.2) ++ List.replicate 23 0
        match s.cachedWrite fn i a (toLe n r.1) with
        | .error st => .error (s, .fails st)
        | .ok s => .ok (s, out)

/-- While an ATOMIC waits, the uncorrectable lines that its entries have met are noted (R241). -/
def State.atomicMeets (s : State) (fn : FnId) (slot : Option (Fin 32)) (env : Lines) (bs : List Byte) : State :=
  (List.range (bs.length / 32)).foldl (fun s i =>
    let e := slice bs (32 * i) 32
    let a := u e 0 8
    if atomicEntryOk e && u e 0x18 1 / 16 != 0 && (s.fns[fn]).mappedRange a 4 then (s.meet fn (a / 512 * 512) 512 env slot).1 else s) s

/-- ATOMIC: the entries of the source in order, their results to the destination (R92, R93). -/
def atomic (f : ForgeId) (c : TongsId) (env : Lines) (s : State) : State :=
  s.onDesc f c 5 fun j m _ r d s =>
    let phase := (s.forges[f]).phase
    let slot := s.heatAt j.fn m phase
    match (dDst d).hearthBlock s.feat.cacheMask m j.logical true phase with
    | some b => (s, .error b)
    | none => match s.readSide j m r phase (dSrc d) false slot env with
      | (s, .error b) => (s, .error b)
      | (s, .ok bs) =>
        let one := fun (acc : State × List Byte) (i : Nat) =>
          (acc.1.atomicEntry j.fn slot (m.doneAt phase) env (slice bs (32 * i) 32)).map fun (p : State × List Byte) => (p.1, acc.2 ++ p.2)
        match foldE one (List.range (bs.length / 32)) (s, []) with
        | .error (s', .fails st) => (s', .error (.fails st))
        | .error (_, b) => (s.atomicMeets j.fn slot env bs, .error b)
        | .ok (s, out) => match s.writeSide j m r phase (dDst d) false slot out with
          | .error st => (s, .error (.fails st))
          | .ok s => (s, .ok (bs.length, id))

/-- The write responses of an active descriptor are all there: it completes, and the shadow set is loaded (R101). -/
def tongsDescComplete (f : ForgeId) (c : TongsId) (s : State) : State :=
  match s.jobForge f, (s.forges[f]).tchans[c].active with
  | some (j, _, mf), some a =>
    let d := mf.tongs.getD a.index 0
    if !a.moved || !a.aperture.isEmpty then s
    else match a.failed with
      | some st => s.descFails f j c st a.index
      | none =>
        match mf.clashes s.feat.cacheMask (s.forges[f]).phase 4 (resultAcc d) with
        | some cl => (s.modForge f fun x => { x with tchans := vmod x.tchans c fun t => { t with active := none } }).conflict f j 4 cl
        | none => match mf.blocked (resultAcc d) with
          | some slot => s.modForge f fun x => { x with tchans := vmod x.tchans c fun t => { t with tagWait := true, waitOn := some (f, slot) } }
          | none => ((s.finishDesc f j mf c a).modForge f fun x => { x with tchans := vmod x.tchans c fun t =>
              { t with stopping := false } }).loadChan f c
  | _, _ => s

end Sys2Proof.Machine
end

