-- ==== Sys2Proof/Machine/Fabric.lean ====
section
/-! DEFINITION. What the Grizlink paths of a module do by themselves: credits, sends in list order, deliveries into slots,
the collective engine's combines, window requests (R364 to R371, R95). -/

namespace Sys2Proof.Machine

def State.portOf (s : State) (m : Mould) (pos : Nat) : Option PortId := (m.portTo pos).bind s.physPort

/-- A receive entry that lands a replica on request (R65, R366). -/
def Mould.isAnswer (m : Mould) (i : Nat) : Bool := m.alternates.any fun a => a.kind == 1 && a.recv == i

/-! ### Credits (R364) -/

/-- The receive entry of a position that is credited next. -/
def Mould.nextCredit (m : Mould) (pos : Nat) : Option Nat :=
  (List.range m.recvs.length).find? fun i => match m.recvs[i]? with
    | some e => e.peer == pos && !m.isAnswer i && !m.credited.contains i
    | none => false

/-- Grant one CREDIT: the entry's slot is EMPTY, and every entry of that source before it has been credited. -/
def State.grantOne (s : State) (fn : FnId) (m : Mould) : Option State :=
  if (s.fns[fn]).cohort.isNone then none
  else m.listPeers.findSome? fun pos =>
    match m.nextCredit pos, s.portOf m pos with
    | some i, some p => match m.recvs[i]? with
      | some e =>
        let empty := match m.forges[e.forge]? with
          | some mf => !mf.full.contains e.slot
          | none => false
        if empty && (s.ports[p]).state == .up && s.admitted fn m pos then
          some ((s.modMould fn m.id fun m => { m with credited := m.credited ++ [i] }).sendTo fn m pos 0x02 0 m.nextStep e.sequence)
        else none
      | none => none
    | _, _ => none

/-! ### Sends (R70, R364, R367) -/

/-- The next send of a port, in list order; entries with ON_REQUEST are skipped. -/
def State.nextSend (s : State) (m : Mould) (r : Running) (p : PortId) : Option Nat :=
  (List.range m.sends.length).find? fun i => match m.sends[i]? with
    | some e => !e.onRequest && !r.sent.contains i && s.portOf m e.peer == some p
    | none => false

/-- How a send stands to the heat of its phase (R69): free, held by the heat in a slot, or too early. -/
inductive Hold where
  | free
  | held (slot : Fin 32) (bound : Nat)
  | early

def State.holdOf (s : State) (fn : FnId) (m : Mould) (r : Running) (phase : Nat) : Hold :=
  match m.heats.findIdx? fun h => h.openPhase ≤ phase && phase ≤ h.commitPhase with
  | none => .free
  | some b => match m.heats[b]? with
    | some h =>
      if !h.sendsInHeat then .free
      else match s.heatAt fn m phase with
        | some slot => .held slot b
        | none => if r.opened ≤ b then .early else .free
    | none => .free

/-- Send the next entry of a port, where its phase has come, its slot is FULL and its credit is there. The send drains
the slot (DEDUCED, log 40). A held record names its HEAT_BOUNDS entry in SUB (DESIGN CHOICE, log 41). -/
def State.sendOne (s : State) (fn : FnId) (m : Mould) (r : Running) (p : PortId) : Option State :=
  match (s.nextSend m r p).bind fun i => (m.sends[i]?).map fun e => (i, e) with
  | none => none
  | some (i, e) => match m.forges[e.forge]? with
    | none => none
    | some mf =>
      let f := mf.phys
      let x := s.forges[f]
      let job : Job := { fn, mould := m.id, logical := e.forge }
      let acc : List Acc := [{ slot := e.slot, first := 0, n := ceilDiv e.length 512 }]
      if x.job != some job || !x.inPhase || x.phase < e.phase then none
      else if e.format = 3 && !s.portOn 0 then some (s.endStep fn m.id .annealed)
      else if (s.ports[p]).state != .up then none
      else match mf.clashes s.feat.cacheMask x.phase 6 acc with
        | some c => some (s.conflict f job 6 c)
        | none =>
          if (mf.blocked acc).isSome then none
          else
            let bs := (s.readRows f mf e.slot 0 (ceilDiv e.length 512)).take e.length
            let win := e.format == 0 && bs.take 8 == ascii "GRIZWNDW"
            if !win && !(s.fns[fn]).creditsIn.contains (m.shortDigest, r.index, e.peer, e.sequence) then none
            else
              let go := fun (s : State) (flag sub : Nat) =>
                let s := s.modMForge fn m.id e.forge (·.setEmpty e.slot)
                let s := s.modRun fn m.id fun r => { r with sent := r.sent ++ [i] }
                let s := s.modMould fn m.id fun m => { m with sentOnce := if m.sentOnce.contains i then m.sentOnce else m.sentOnce ++ [i] }
                s.sendTo fn m e.peer (if win then 8 else 1) sub r.index e.sequence (b2n (m.sentOnce.contains i) + flag) e.format bs
              match (if win then Hold.free else s.holdOf fn m r e.phase) with
              | .early => none
              | .free => some (go s 0 0)
              | .held slot b => match s.act fn slot 1 with
                | .error st => some (s.endStep fn m.id st)
                | .ok s => some (go (s.modHeat fn slot fun h => { h with sends := h.sends ++ [i] }) 2 b)

/-! ### The collective engine (R369, R370) -/

/-- A descriptor row. -/
structure CollDesc where
  op : Nat
  elem : Nat
  tokens : Nat
  elems : Nat
  coll : Nat
  deriving DecidableEq, Repr

def CollDesc.of (bs : List Byte) : CollDesc :=
  { op := u bs 0 1, elem := u bs 1 1, tokens := u bs 2 2, elems := u bs 4 4, coll := u bs 8 2 }

def CollDesc.size (d : CollDesc) : Nat := if d.elem = 3 then 4 else 1
def CollDesc.rowLen (d : CollDesc) : Nat := ceilDiv (d.elems * d.size) 512
def CollDesc.length (d : CollDesc) : Nat := 512 * (1 + d.tokens * d.rowLen + if d.elem = 3 then 0 else 1)
def CollDesc.ok (d : CollDesc) : Bool :=
  1 ≤ d.op && d.op ≤ 4 && 1 ≤ d.elem && d.elem ≤ 3 && 1 ≤ d.tokens && d.tokens ≤ 512 && 1 ≤ d.elems && d.elems ≤ 65536

/-- An element as a multiple of 2⁻³⁰ (or the integer of INT32), and whether it is a NaN, taken as zero. -/
def CollDesc.value (d : CollDesc) (bs : List Byte) (t e : Nat) : Int × Bool :=
  let at_ := 512 * (1 + t * d.rowLen) + e * d.size
  if d.elem = 3 then (sext 32 (u bs at_ 4), false)
  else
    let sc := scaleOf (bs.getD (512 * (1 + d.tokens * d.rowLen) + t) 0)
    if d.elem = 2 then (sext 8 (u bs at_ 1) * (sc.1 * 2 ^ (sc.2 + 30).toNat : Nat), false)
    else match fmtE4M3.read (u bs at_ 1) with
      | .fin m x => (m * (sc.1 * 2 ^ (x + sc.2 + 30).toNat : Nat), false)
      | _ => (0, true)

/-- One token's combined row and scale byte, with the elements saturated and the NaN inputs met. -/
def CollDesc.combineToken (d : CollDesc) (a b : List Byte) (t : Nat) : List Byte × Nat × Nat × Nat :=
  let pair := (List.range d.elems).map fun e => (d.value a t e, d.value b t e)
  let nans := (pair.map fun p => b2n p.1.2 + b2n p.2.2).foldl (· + ·) 0
  let vs := pair.map fun p => match d.op with
    | 2 => p.1.1 + p.2.1
    | 3 => max p.1.1 p.2.1
    | _ => min p.1.1 p.2.1
  if d.elem = 3 then
    (fit (512 * d.rowLen) ((vs.map fun v => toLe 4 (wrapInt 32 (satInt 32 v))).flatten), 0,
     (vs.filter fun v => satInt 32 v != v).length, nans)
  else
    let top := vs.foldl (fun (m : Int) v => max m v.natAbs) 0
    let sb := (scaleByte (if d.elem = 1 then 448 else 127) 30 top).1
    let sc := fmtUE5M3.mag sb
    let out := vs.map fun v =>
      if d.elem = 1 then fmtE4M3.write v sc.1 (-30 - sc.2)
      else
        let r := writeInt (-128) 127 v sc.1 (-30 - sc.2)
        (wrapInt 8 r.1, r.2)
    (fit (512 * d.rowLen) (out.map fun x => BitVec.ofNat 8 x.1), sb, (out.filter (·.2)).length, nans)

/-- The combined operand of an incoming and a local one, with its counts. -/
def CollDesc.combine (d : CollDesc) (a b : List Byte) : List Byte × Nat × Nat :=
  let rows := (List.range d.tokens).map fun t => d.combineToken a b t
  let scales := if d.elem = 3 then [] else fit 512 (rows.map fun r => BitVec.ofNat 8 r.2.1)
  (a.take 512 ++ (rows.map (·.1)).flatten ++ scales, (rows.map (·.2.2.1)).foldl (· + ·) 0, (rows.map (·.2.2.2)).foldl (· + ·) 0)

/-! ### Receives (R364, R365, R369) -/

/-- The forge of a list entry has entered its phase. -/
def Running.entered (r : Running) (e : XferEntry) : Bool := match r.phases.getD e.forge none with
  | some n => e.phase ≤ n
  | none => false

/-- A receive before `i` in the list fills the same slot and has not been delivered: data from several ports is taken in mould
order (R31, R70). -/
def Mould.earlierInto (m : Mould) (r : Running) (i : Nat) : Bool := match m.recvs[i]? with
  | none => false
  | some e => (List.range i).any fun k => match m.recvs[k]? with
    | some d => d.forge == e.forge && d.slot == e.slot && !r.received.contains k && !m.isAnswer k
    | none => false

/-- The running step comes to a collective while the engine has no power (R11). -/
def State.collHalts (s : State) (m : Mould) (r : Running) : Bool :=
  !s.portOn 0 && m.recvs.zipIdx.any fun x => x.1.format == 3 && !r.received.contains x.2 && r.entered x.1

/-- A message for receive `i` of the running step that its slot may take now. -/
def State.toDeliver (s : State) (fn : FnId) (m : Mould) (r : Running) (i : Nat) : Option LogMsg :=
  if r.received.contains i || (m.isAnswer i && !r.requested.contains i) || (!m.isAnswer i && m.earlierInto r i) then none
  else (s.fns[fn]).recvLog.find? fun x => x.mould == m.id && x.recv == i && x.step == r.index && x.held.isNone

/-- The operand is in the slot: FILL. -/
def State.received (s : State) (fn : FnId) (m : Mould) (i : Nat) (e : XferEntry) (mf : MForge) (bs : List Byte) : State :=
  ((s.writeRows mf.phys fn m.id mf e.slot 0 bs).modMForge fn m.id e.forge fun x => (x.setFull e.slot).setHold e.slot false).modRun
    fn m.id fun r => { r with received := r.received ++ [i] }

/-- Deliver the message of one receive entry into its slot, as agent 0x6. -/
def State.deliverOne (s : State) (fn : FnId) (m : Mould) (r : Running) (i : Nat) : Option State :=
  match m.recvs[i]?, s.toDeliver fn m r i with
  | some e, some msg => match m.forges[e.forge]? with
    | none => none
    | some mf =>
      let f := mf.phys
      let job : Job := { fn, mould := m.id, logical := e.forge }
      let n := ceilDiv msg.bytes.length 512
      let acc : List Acc := [{ write := true, slot := e.slot, first := 0, n }]
      if !mf.fits e.slot 0 n then some (s.endStep fn m.id .badParam)
      else match mf.clashes s.feat.cacheMask (s.forges[f]).phase 6 acc with
        | some c => some (s.conflict f job 6 c)
        | none =>
          if (mf.blocked acc).isSome then none
          else if e.format != 3 then some (s.received fn m i e mf msg.bytes)
          else
            let d := CollDesc.of msg.bytes
            if !d.ok || d.length != e.length || d.coll != e.collective then some (s.endStep fn m.id .badParam)
            else if d.op = 1 then some (s.received fn m i e mf msg.bytes)
            else
              let loc : List Acc := [{ slot := e.slot + 1, first := 0, n }]
              match mf.clashes s.feat.cacheMask (s.forges[f]).phase 6 loc with
              | some c => some (s.conflict f job 6 c)
              | none =>
                if (mf.blocked loc).isSome then none
                else
                  let b := s.readRows f mf (e.slot + 1) 0 n
                  if CollDesc.of b != d then some (s.endStep fn m.id .badParam)
                  else
                    let c := d.combine msg.bytes b
                    let s := { s with coll := { saturated := satAdd 32 s.coll.saturated c.2.1
                                                specials := satAdd 32 s.coll.specials c.2.2
                                                combines := inc32 s.coll.combines } }
                    some ((s.modMForge fn m.id e.forge (·.setEmpty (e.slot + 1))).received fn m i e mf c.1)
  | _, _ => none

/-! ### Windows (R95, R367) -/

/-- A window request is performed on its rows, or refused; none while a tag blocks it. -/
def State.windowTry (s : State) (f : ForgeId) (w : WinPend) : Option State :=
  match (s.fns[w.win.fn]).mould? w.win.mould with
  | none => some (s.refuseRequest w.port w.msg)
  | some m => match m.forges[w.win.logical]? with
    | none => some (s.refuseRequest w.port w.msg)
    | some mf =>
      let read := bit (u w.msg.body 10 1) 0
      let release := bit (u w.msg.body 10 1) 1
      let first := w.win.rowFirst + u w.msg.body 12 2
      let n := u w.msg.body 14 2
      let acc : List Acc := [{ write := !read, slot := w.win.slot, first, n }]
      if (mf.clashes s.feat.cacheMask 0 7 acc).isSome then some (s.refuseRequest w.port w.msg)
      else if (mf.blocked acc).isSome then none
      else
        let s := if release then s.modMForge w.win.fn w.win.mould w.win.logical fun x =>
            if read then x.setEmpty w.win.slot else x.setFull w.win.slot else s
        if read then some (s.answerWindow w.port w.msg 0 (s.readRows f mf w.win.slot first n))
        else some ((s.writeRows f w.win.fn w.win.mould mf w.win.slot first (slice w.msg.body 512 (512 * n))).answerWindow w.port w.msg 0 [])

/-- The first waiting window request of a forge that can go on. -/
def State.windowStep (s : State) (f : ForgeId) : Option State :=
  (s.forges[f]).winWait.findSome? fun w =>
    (s.windowTry f w).map fun s => s.modForge f fun x => { x with winWait := x.winWait.filter (· != w) }

/-! ### One movement of a mould's links -/

def State.linkStep (s : State) (fn : FnId) (m : Mould) : Option State :=
  if m.sends.isEmpty && m.recvs.isEmpty then none
  else match s.grantOne fn m with
    | some s => some s
    | none => match m.run with
      | none => none
      | some r =>
        if r.rerun || r.status.isSome then none
        else if s.collHalts m r then some (s.endStep fn m.id .annealed)
        else match (List.range m.recvs.length).findSome? (s.deliverOne fn m r) with
          | some s => some s
          | none => (List.finRange 8).findSome? (s.sendOne fn m r)

end Sys2Proof.Machine
end

