-- ==== Sys2Proof/Machine/Link.lean ====
section
/-! DEFINITION. Transfers on the Plinth links: the places of staged copies, the order of each link, and what a transfer waits
for (R228, R229, R231, R234, R251). -/

namespace Sys2Proof.Machine

/-! ### Places in T1 (R229) -/

/-- The lowest place that the staging frames of a function leave free. -/
def State.freePlace (s : State) (g : FnId) : Option Nat :=
  let taken := s.stagedPlaces g
  (((s.t1.filter (·.use == FrameUse.staging g)).map fun x => (List.range 32).map (32 * x.num + ·)).flatten).find? fun p => !taken.contains p

/-- The staged copy to evict: unpinned and in no transfer, RELEASE_AFTER copies first, then the least recently read. -/
def State.victim (s : State) : Option (FnId × Nat) :=
  let all := ((List.finRange 64).map fun g => ((s.fns[g]).pages.filter fun p =>
    p.staged && p.t1 && p.sealed_ && p.t2 && p.pins == 0 && !p.up && !p.down).map fun p => (g, p)).flatten
  let first := all.filter (·.2.releaseAfter)
  ((if first.isEmpty then all else first).foldl (fun (b : Option (FnId × Page)) x => match b with
    | some y => if x.2.lastRead < y.2.lastRead then some x else b
    | none => some x) none).map fun x => (x.1, x.2.num)

/-- A place for one more staged copy of a function; copies are evicted for it where no frame is free (R229). -/
def State.stagingRoom (s : State) (g : FnId) : Nat → Option (State × Nat)
  | 0 => none
  | fuel + 1 => match s.freePlace g with
    | some p => some (s, p)
    | none => match s.allocT1 g (.staging g) 1 with
      | some s => s.stagingRoom g fuel
      | none => match s.victim with
        | none => none
        | some x => ((s.modPage x.1 x.2 fun p => { p with t1 := false, staged := false, releaseAfter := false }).fixStaging x.1).stagingRoom g fuel

/-- The place in T1 that a page's copy takes, and whether it is a staged one. -/
def State.t1Room (s : State) (g : FnId) (num : Nat) : Option (State × Nat × Bool) :=
  match s.t1.find? (·.use == s.spanUse g (num / 32)) with
  | some fr => some (s, fr.num * 32 + num % 32, false)
  | none => (s.stagingRoom g 4096).map fun r => (r.1, r.2, true)

/-- The 256 units of a place. -/
def placeUnits (place : Nat) : List Nat := (List.range 256).map (256 * place + ·)

/-- Some of the units lies on a channel that retrains or is held for repair. -/
def State.unitsBusy (s : State) (units : List Nat) : Bool :=
  s.anyChanBusy && units.any fun u => (s.near.chans[s.unitChan u]).state.busy

/-- The function charged for a page's transfer (R251). -/
def Page.payer (p : Page) (g : FnId) : FnId := p.mover.getD g

/-! ### The order of a link (R231) -/

/-- Code of Table TIER-4 of what stands in the way of a page's transfer besides its turn; none where it can go. A link that is
down counts as LINK (DESIGN CHOICE, log 54). -/
def State.moveBlock (s : State) (g : FnId) (p : Page) : Option Nat :=
  match s.t2Addr g (p.num * 65536) with
  | none => some 8
  | some d =>
    if !(s.plinths[t2Plinth d]).linkUp then some 1
    else if s.bankBusy d 65536 then some 2
    else if p.up then
      if !p.t2 then some 6
      else match s.t1Room g p.num with
        | none => some 7
        | some r =>
          if s.unitsBusy (placeUnits r.2.1) then some 3
          else if s.regWaits (p.payer g) (placeUnits r.2.1) then some 4
          else none
    else if !p.t1 || !p.sealed_ || !p.bad.isEmpty then some 8
    else
      let units := s.t1Units g (p.num * 65536) 65536
      if s.unitsBusy units then some 3 else if s.regWaits (p.payer g) units then some 4 else none

/-- Transfers of prefetch entries go first, each kind by its tickets. -/
def Page.goesBefore (p q : Page) : Bool := (p.urgent && !q.urgent) || (p.urgent == q.urgent && p.ticket < q.ticket)

/-- The page whose transfer a Plinth link serves now: the first in order of those that can go (DESIGN CHOICE, log 173: one that
waits for something else lets the next one pass). -/
def State.linkHead (s : State) (n : PlinthId) : Option (FnId × Page) :=
  let all := ((List.finRange 64).map fun g => ((s.fns[g]).pages.filter fun p => (p.up || p.down) && match s.t2Addr g (p.num * 65536) with
    | some d => t2Plinth d == n && (s.moveBlock g p).isNone
    | none => false).map fun p => (g, p)).flatten
  all.foldl (fun (b : Option (FnId × Page)) x => match b with
    | some y => if x.2.goesBefore y.2 then some x else b
    | none => some x) none

/-- It is a page's turn on its link. -/
def State.myTurn (s : State) (g : FnId) (num : Nat) : Bool :=
  match s.t2Addr g (num * 65536) with
  | some d => ((s.linkHead (t2Plinth d)).map fun x => (x.1, x.2.num)) == some (g, num)
  | none => false

/-- A transfer that reaches a bank in an access phase waits in the bank's queue (R275). -/
def State.queueTransfer (s : State) (g : FnId) (num : Nat) : State :=
  match s.t2Addr g (num * 65536) with
  | some d => if s.bankBusy d 65536 then s.queueOrd (t2Plinth d) (t2Chain d) (.read (d / 65536)) else s
  | none => s

/-! ### Waits (R234) -/

/-- A unit's stack is throttled (R246). -/
def State.throttled (s : State) (units : List Nat) : Bool := units.any fun u => 0 < (s.near.stks[chanStack (s.unitChan u)]).level

/-- The cause under which a fetch waits now (Table TIER-4). -/
def State.waitCause (s : State) (g : FnId) (p : Page) : Nat :=
  if p.refetch then 6
  else match s.moveBlock g p with
    | some c => c
    | none =>
      if !s.myTurn g p.num then 1
      else match s.t1Room g p.num with
        | some r => if s.throttled (placeUnits r.2.1) then 5 else 8
        | none => 8

/-- One more tick under a cause. -/
def bumpWait (c : Nat) (l : List (Nat × Nat)) : List (Nat × Nat) :=
  if l.any (·.1 == c) then updateFirst (fun (x : Nat × Nat) => x.1 == c) (fun x => (x.1, x.2 + 1)) l else l ++ [(c, 1)]

/-- A tick of every fetch that waits. -/
def State.tickWaits (s : State) : State :=
  { s with fns := Vector.ofFn fun g => let f := s.fns[g]; { f with pages := f.pages.map fun p =>
      if p.up && !p.t1 then { p with waits := bumpWait (s.waitCause g p) p.waits } else p } }

/-- A tick of the requests that wait in bank queues (R275), in PLINTH_ORD_WAIT_TICKS. -/
def Plinth.tickWaits (p : Plinth) : Plinth :=
  { p with ordWait := satAdd 32 p.ordWait ((p.chains.toList.map fun c => if c.access.isSome then c.ordQ.length else 0).foldl (· + ·) 0) }

end Sys2Proof.Machine
end

