-- ==== Sys2Proof/Machine/Plinth.lean ====
section
/-! DEFINITION. The Plinths: acceptance of unit instructions, the near-bank units, releases, refresh, scrub, links (R254 to
R280). -/

namespace Sys2Proof.Machine

/-! ### Acceptance (R265, R271) -/

/-- Whose key decrypts a frame: a function's, or a shared model's (R160). -/
inductive KeyOwner where
  | fn (f : FnId)
  | model (m : Fin 16)
  deriving DecidableEq, Repr

/-- A key slot of a Plinth (R265): the XTS and tag keys, and the functions permitted to use them. -/
structure KeySlot where
  owner : KeyOwner
  key : StoreKey
  mask : BitVec 64
  deriving DecidableEq, Repr

/-- A frame's entry of the frame table (R265): its Range base address, in the function's own mapping or the model's, and its
key slot. -/
structure FrameEntry where
  base : Nat
  slot : Nat
  deriving DecidableEq, Repr

/-- Base address and owner of a frame that holds a span. -/
def State.frameBase (s : State) (x : Frame) : Option (KeyOwner × Nat) :=
  match x.use with
  | .span f num => some (.fn f, num * 2097152)
  | .model m num => (s.models[m]).map fun y => (.model m, num * 2097152 - y.base)
  | _ => none

/-- Functions as a 64-bit mask. -/
def fnMask (l : List FnId) : BitVec 64 := l.foldl (fun b f => b ||| (1#64 <<< f.val)) 0

def State.keySlot (s : State) : KeyOwner → KeySlot
  | .fn f => { owner := .fn f, key := (s.hall.storage[f]).getD {}, mask := fnMask [f] }
  | .model m => { owner := .model m, key := (s.hall.modelKeys[m]).getD {}, mask := fnMask (s.modelUsers m) }

/-- The key slots of a Plinth: Smith loads one for each owner of frames in its groups in compute mode, the owners of frames that
unit programs read first (R264, R265; DESIGN CHOICE, log 171: those beyond 64 stay without a slot). -/
def State.keySlots (s : State) (n : PlinthId) : List KeySlot :=
  let p := s.plinths[n]
  let here := s.t2.filter fun x => x.num % 8 == n.val && p.compute.getLsbD (x.num / 8 % 6)
  let read := (p.progs.map fun g => (g.instrs.filter fun w => uOp w == 1).map fun w => (t2At (uAddr w)).1).flatten
  let owners := fun (l : List Frame) => l.filterMap fun x => (s.frameBase x).map (·.1)
  (((owners (here.filter fun x => read.contains x.num) ++ owners here).eraseDups).take 64).map s.keySlot

/-- The entry of the frame that holds a die address, where a key slot serves it. -/
def State.frameEntry (s : State) (n : PlinthId) (a : Nat) : Option FrameEntry :=
  ((s.t2.find? (·.num == (t2At a).1)).bind s.frameBase).bind fun x =>
    ((s.keySlots n).findIdx? (·.owner == x.1)).map fun i => { base := x.2, slot := i }

/-- The issuer lies in the mask of the frame's key slot (R265). -/
def State.frameReadable (s : State) (n : PlinthId) (fn : FnId) (a : Nat) : Bool :=
  match s.frameEntry n a with
  | some e => ((s.keySlots n)[e.slot]?).any (·.mask.getLsbD fn.val)
  | none => false

/-- The chain that a NOP goes to, since it names none: the first chain of the lowest group in compute mode in which its issuer has
a compute frame (DESIGN CHOICE, log 43). -/
def State.nopChain (s : State) (n : PlinthId) (fn : FnId) : Option ChainId :=
  ((List.range 6).find? fun d => (s.plinths[n]).compute.getLsbD d && (s.computeFrame fn n d).isSome).map fun d => Fin.ofNat 12 (2 * d)

/-- The chain that an offered instruction is dispatched to (R271). -/
def State.offerChain (s : State) (n : PlinthId) (i : UInstr) : ChainId :=
  if uOp i.word = 0 then (s.nopChain n i.fn).getD 0 else unitChain i.word

/-- The refusals of Table PLIN-5, in its order. -/
def State.unitRefusal (s : State) (n : PlinthId) (i : UInstr) (tongs : Bool) : Option Status :=
  let w := i.word
  let a := uAddr w
  let len := uRows w * uKib w
  let vec := uQ w * uElems w * uBsize w
  if !uReservedOk w then some .badParam
  else if uOp w = 0 then (if (s.nopChain n i.fn).isNone then some .notPermitted else none)
  else
    let dot := uOp w == 1
    if dot && (256 < len || uF w 4 4 % uKib w != 0 || 1048576 < (a - t2Base) % 1048576 + len * 1024) then some .badParam
    else if dot && !uBitmap w && (a % 4096 != 0 || len % 4 != 0) then some .badParam
    else if (if dot && uReg w then 4096 < vec else i.scan.isNone && 65536 < uF w 12 2 * 256 + vec) ||
        (!dot && 1024 < 64 * bits (uF w 1 1) 0 4 + vec / 4) ||
        (dot && !uTopk w && 32768 < uF w 16 4 + uRows w * uQ w) then some .badParam
    else if tongs && dot && (uTopk w || uBitmap w) then some .notPermitted
    else
      let dev := unitDevice w
      let open_ := (s.plinths[n]).compute.getLsbD dev
      let readable := !dot || (onPlinth n a && s.frameReadable n i.fn a)
      if !open_ || !readable || (i.scan.isNone && (s.computeFrame i.fn n dev).isNone) then some .notPermitted
      else none

/-- Operand slices of a Plinth in use: one for each function with a compute frame there, and the running scan's (R266, R283). -/
def State.slicesUsed (s : State) (n : PlinthId) : Nat :=
  ((List.finRange 64).filter fun g => (List.range 6).any fun d => (s.computeFrame g n d).isSome).length + (s.plinths[n]).scanSlices

/-- Record the first failure of a Plinth (Table PLIN-10). -/
def Plinth.fail (p : Plinth) (st : Status) (kind chain : Nat) : Plinth :=
  if p.errValid then p else { p with errValid := true, errStatus := st.code, errKind := kind, errChain := chain }

/-- What an offered instruction meets: accepted, refused, or its chain's queue is full (R271). -/
inductive Offer where
  | taken (s : State)
  | refused (st : Status) (s : State)
  | full

def State.offer (s : State) (n : PlinthId) (i : UInstr) (tongs : Bool) : Offer :=
  let c := s.offerChain n i
  match s.unitRefusal n i tongs with
  | some st => .refused st (s.modPlinth n fun p => p.fail st 1 c.val)
  | none =>
    if 4 ≤ ((s.plinths[n]).chains[c]).queue.length then .full
    else .taken (s.modPlinth n fun p => { p with chains := vmod p.chains c fun x => { x with queue := x.queue ++ [i] } })

/-- The step that a forge runs, for the instructions that it issues (R280). -/
def State.stepOf (s : State) (f : ForgeId) : Option (BitVec 64 × Nat) :=
  (s.jobForge f).bind fun x => x.2.1.run.map fun r => (x.1.mould, r.index)

/-- The Plinth takes instructions of one aperture write in order (R271). -/
def State.takeGroup (s : State) (n : PlinthId) (fn : FnId) (f : ForgeId) (group : BitVec 2048) (a : TActive) : Nat → State × TActive
  | 0 => (s, a)
  | fuel + 1 =>
    if 8 ≤ a.apDone then (s, { a with aperture := a.aperture.drop 1, apDone := 0 })
    else
      let i : UInstr := { word := BitVec.ofNat 256 (bits group.toNat (256 * a.apDone) 256), fn, forge := some f, step := s.stepOf f }
      match s.offer n i true with
      | .full => (s, a)
      | .taken s => s.takeGroup n fn f group { a with apDone := a.apDone + 1 } fuel
      | .refused st s => s.takeGroup n fn f group { a with apDone := a.apDone + 1, failed := some (a.failed.getD st) } fuel

/-- The oldest aperture write of a channel's active descriptor. -/
def plinthApertureWrite (f : ForgeId) (c : TongsId) (s : State) : State :=
  match s.jobForge f, (s.forges[f]).tchans[c].active with
  | some (j, _, _), some a => match a.aperture with
    | [] => s
    | (n, g) :: _ =>
      if !(s.plinths[n]).linkUp then s
      else
        let r := s.takeGroup n j.fn f g a 9
        r.1.modForge f fun x => { x with tchans := vmod x.tchans c fun t => { t with active := some r.2 } }
  | _, _ => s

def execPlinthApertureWrite (f : ForgeId) (c : TongsId) (s : State) : Res := .next (plinthApertureWrite f c s)

/-! ### The units (R267 to R270) -/

/-- Smith issues the next instructions of a running scan where a queue has room (R283). -/
def State.refill (s : State) (n : PlinthId) : Nat → State
  | 0 => s
  | fuel + 1 => match (s.plinths[n]).scanTodo with
    | [] => s
    | (_, i) :: rest => match s.offer n i false with
      | .taken s => (s.modPlinth n fun p => { p with scanTodo := rest }).refill n fuel
      | _ => s

/-- A page's rows can be read at a die address: its T2 copy lies there, or its T1 home serves the read (Table PLIN-8). -/
def State.t2Good (s : State) (a : Nat) : Bool :=
  match s.t2Range a with
  | some (g, addr) => match (s.fns[g]).page? (addr / 65536) with
    | some p => p.t2 || (p.t1 && !p.homeT2)
    | none => false
  | none => false

/-- Bytes of T2 at a die address: those of the page whose copy lies there; undefined where no copy lies. -/
def State.t2Bytes (s : State) (a n : Nat) : List Byte :=
  match s.t2Range a with
  | some (g, addr) => if s.t2Good a then s.readRange g none addr n else (List.range n).map fun i => Config.freeByte (2 ^ 62 + a + i)
  | none => (List.range n).map fun i => Config.freeByte (2 ^ 62 + a + i)

/-- Element `e` of a row (R269). -/
def rowElem (w : BitVec 256) (bs : List Byte) (e : Nat) : Int :=
  if uInt4 w then sext 4 (elemAt 4 bs e) else sext 8 (elemAt 8 bs e)

/-- A B element of `size` bytes at a byte offset. -/
def vecElem (size : Nat) (bs : List Byte) (off : Nat) : Int := sext (8 * size) (u bs off size)

/-- Unit and place in the unit's slices of element `e` of a row (R256). -/
def unitOf (int4 : Bool) (e : Nat) : Nat × Nat :=
  let k := if int4 then 512 else 256
  ((e / k) % 4, e / (4 * k) * k + e % k)

/-- Element `e` of vector `q` in the register files: unit after unit, 1 KiB each (R270). -/
def regElem (w : BitVec 256) (regs : List Byte) (q e : Nat) : Int :=
  let p := unitOf (uInt4 w) e
  vecElem (uBsize w) regs (1024 * p.1 + (q * (uElems w / 4) + p.2) * uBsize w)

/-- Element `e` of vector `q` as an instruction takes it: registers, a scan's queries, the operand slice. -/
def State.bElem (s : State) (n : PlinthId) (c : ChainId) (i : UInstr) (q e : Nat) : Int :=
  let w := i.word
  let off := (q * uElems w + e) * uBsize w
  if uReg w then regElem w ((s.plinths[n]).chains[c]).regs q e
  else match i.scan with
    | some _ => vecElem 1 (s.plinths[n]).scanQ off
    | none => vecElem (uBsize w) (Memory.read (s.plinths[n]).operands (i.fn.val * 65536 + uF w 12 2 * 256 + off) (uBsize w)) 0

/-- Exact dot product of a row and a vector (R269). -/
def State.dotOf (s : State) (n : PlinthId) (c : ChainId) (i : UInstr) (row : List Byte) (q : Nat) : Int :=
  (List.range (uElems i.word)).foldl (fun acc e => acc + rowElem i.word row e * s.bElem n c i q e) 0

/-- Row `r` is computed: BITMAP leaves out rows whose bit is 0 in the Plinth's part of the scan's bitmap. -/
def State.rowTaken (s : State) (n : PlinthId) (i : UInstr) (r : Nat) : Bool :=
  let b := uF i.word 20 4 + r
  !uBitmap i.word || bit (((s.plinths[n]).scanBits.getD (b / 8) 0).toNat) (b % 8)

/-- The unit MACs of a row (R285). -/
def State.rowMac (s : State) (a : Nat) (row : List Byte) : BitVec 64 :=
  match s.t2Range a with
  | some (g, addr) => ((s.hall.storage[g]).getD {}).rowTag addr row
  | none => 0

/-- A DOT starts its access phase: its rows and vectors are taken as they stand (R267, R269, R270). -/
def State.startDot (s : State) (n : PlinthId) (c : ChainId) (i : UInstr) : UWork :=
  let w := i.word
  let rows := (List.range (uRows w)).filter (s.rowTaken n i)
  let at_ := fun r => uAddr w + r * uKib w * 1024
  let read := rows.map fun r => (r, s.t2Bytes (at_ r) (uKib w * 1024))
  let cell := fun (p : Nat × List Byte) => (List.range (uQ w)).map fun q => (p.1, q, s.dotOf n c i p.2 q)
  let all := (read.map cell).flatten
  let lost := rows.any fun r => !s.t2Good (at_ r)
  if uTopk w then
    { instr := i, lost, pairs := all.map fun x => (x.2.1, x.2.2, uF w 16 4 + x.1), rows := rows.length
      mac := read.foldl (fun m p => m ^^^ s.rowMac (at_ p.1) p.2) 0 }
  else { instr := i, lost, values := all.map fun x => (uF w 16 4 + x.1 * uQ w + x.2.1, x.2.2) }

/-- The instruction at the head of a chain's queue, of an opcode, where no access phase runs. -/
def State.unitHead (s : State) (n : PlinthId) (c : ChainId) (op : Nat) : Option UInstr :=
  let ch := (s.plinths[n]).chains[c]
  if ch.access.isSome then none else match ch.queue with
  | i :: _ => if uOp i.word = op then some i else none
  | [] => none

def countInstr (p : Plinth) : Plinth := { p with instrs := (p.instrs + 1) % 2 ^ 64 }

/-! ### Ordinary requests (R262, R275) -/

/-- Stored length of a page in T2 (R4, R260): a compressed billet's, else the whole page. -/
def State.storedLen (s : State) (g : FnId) (addr : Nat) : Nat :=
  if (s.fns[g]).roleOf addr == some .billets then
    leNat (s.readRange g none (headerAddr addr + 0x50) 4)
  else 65536

/-- The block's VALID bit is set (R259, R260, R266): of a compute frame its Plinth holds it; of a page's copy it is set up to the
stored length. -/
def State.blockValid (s : State) (frame block : Nat) : Bool :=
  match s.t2.find? (·.num == frame) with
  | none => false
  | some x => match x.use with
    | .compute fn =>
      let c : Nat := 2 * ((frame / 8) % 6) + block / 256
      (s.plinths[(Fin.ofNat 8 frame : Fin 8)]).valid.contains ((fn.val * 12 + c) * 64 + block % 256 / 4)
    | _ => match s.t2Range (t2Die frame (4096 * block)) with
      | some (g, addr) => match (s.fns[g]).page? (addr / 65536) with
        | some p => p.t2 && addr % 65536 / 4096 < ceilDiv (s.storedLen g (addr / 65536 * 65536)) 4096
        | none => false
      | none => false

/-- The check symbols that the store holds for a block of a page's copy, none where VALID is 0 (R259, R260; DESIGN CHOICE,
log 172: over the content that the model holds, which is not enciphered). -/
def State.checkEntry (s : State) (frame block : Nat) : Option (List Nat) :=
  if !s.blockValid frame block then none
  else (s.t2Range (t2Die frame (4096 * block))).map fun x => blockChecks (s.readRange x.1 none x.2 4096)

/-- The block's content as a Plinth reads and corrects it with the disturbance that the block meets (R259). -/
def State.readBlock (s : State) (frame : Nat) (e : BlockErr) : List Byte :=
  match s.t2Range (t2Die frame (4096 * e.block)) with
  | some x => blockData (s.readRange x.1 none x.2 4096) e.errs
  | none => []

/-- A scrub of one block of an allocated frame: what it corrects is counted and written back, and what it finds lost goes the
way of Table PLIN-8 (R262). -/
def State.scrubBlock (s : State) (n : PlinthId) (frame : Nat) (e : BlockErr) : State :=
  let s := s.modPlinth n fun p => if s.blockValid frame e.block then p.countFixed [e] else { p with ceOdecc := satAdd 32 p.ceOdecc e.odecc }
  if !s.blockValid frame e.block || !e.ue then s
  else
    let die := t2Die frame (4096 * e.block)
    match s.t2Range die with
    | some (g, addr) => (s.ueT2 g addr false).1
    | none => s.countT2 ((s.t2.find? (·.num == frame)).bind fun x => s.frameFn x.use) die false

/-- The ordinary requests that waited for an access phase of a chain are served before the next one (R275): scrubs are done, and
reads and transfers have their turn. -/
def State.serveOrd (s : State) (n : PlinthId) (c : ChainId) : State :=
  let q := ((s.plinths[n]).chains[c]).ordQ
  let due := q.filterMap fun x => match x with
    | .read page => some page
    | .scrub _ _ => none
  q.foldl (fun s x => match x with
    | .scrub frame e => s.scrubBlock n frame e
    | .read _ => s) (s.modPlinth n fun p => { p with chains := vmod p.chains c fun x => { x with ordQ := [], due } })

def dot (n : PlinthId) (c : ChainId) (s : State) : State :=
  let s := s.refill n 64
  match s.unitHead n c 1 with
  | none => s
  | some i =>
    let s := if ((s.plinths[n]).chains[c]).ordQ.isEmpty then s else s.serveOrd n c
    let w := s.startDot n c i
    (s.modPlinth n fun p => { p with chains := vmod p.chains c fun x => { x with queue := x.queue.drop 1, access := some w } }).refill n 64

def execDot (n : PlinthId) (c : ChainId) (s : State) : Res := .next (dot n c s)

/-- The register files after an LDR: each unit takes the elements of the vectors that pair with its slices (R270). -/
def State.ldrRegs (s : State) (n : PlinthId) (i : UInstr) (regs : List Byte) : List Byte :=
  let w := i.word
  let sz := uBsize w
  let src := Memory.read (s.plinths[n]).operands (i.fn.val * 65536 + uF w 12 2 * 256) (uQ w * uElems w * sz)
  let one := fun (regs : List Byte) (qe : Nat × Nat) =>
    let p := unitOf false qe.2
    let off := 1024 * p.1 + 64 * bits (uF w 1 1) 0 4 + (qe.1 * (uElems w / 4) + p.2) * sz
    (slice src ((qe.1 * uElems w + qe.2) * sz) sz).zipIdx.foldl (fun (r : List Byte) x => r.set (off + x.2) x.1) regs
  let all := ((List.range (uQ w)).map fun q => (List.range (uElems w)).map fun e => (q, e)).flatten
  all.foldl one (fit 4096 regs)

def ldr (n : PlinthId) (c : ChainId) (s : State) : State :=
  let s := s.refill n 64
  match s.unitHead n c 2 with
  | none => s
  | some i =>
    (s.modPlinth n fun p => countInstr { p with chains := vmod p.chains c fun x =>
      { x with queue := x.queue.drop 1, regs := s.ldrRegs n i x.regs } }).modPlinth n Plinth.fixCompute

def execLdr (n : PlinthId) (c : ChainId) (s : State) : Res := .next (ldr n c s)

def unitNop (n : PlinthId) (c : ChainId) (s : State) : State :=
  match s.unitHead n c 0 with
  | none => s
  | some _ => (s.modPlinth n fun p => (countInstr { p with chains := vmod p.chains c fun x => { x with queue := x.queue.drop 1 } }).fixCompute).refill n 64

def execUnitNop (n : PlinthId) (c : ChainId) (s : State) : Res := .next (unitNop n c s)

/-- The banks are free of the access phase, and the other row buffer takes its place; the ordinary requests that waited are
served (R267, R275). -/
def accessPhaseEnd (n : PlinthId) (c : ChainId) (s : State) : State :=
  let ch := (s.plinths[n]).chains[c]
  match ch.access, ch.compute with
  | some w, none => (s.modPlinth n fun p => { p with chains := vmod p.chains c fun x => { x with access := none, compute := some w } }).serveOrd n c
  | _, _ => s

def execAccessPhaseEnd (n : PlinthId) (c : ChainId) (s : State) : Res := .next (accessPhaseEnd n c s)

/-! ### Release (R277, R279) -/

/-- The order of a top-k list: score descending, then row ascending (R284). -/
def pairBefore (a b : Nat × Int × Nat) : Bool := b.2.1 < a.2.1 || (a.2.1 == b.2.1 && a.2.2 < b.2.2)

def insertPair (x : Nat × Int × Nat) : List (Nat × Int × Nat) → List (Nat × Int × Nat)
  | [] => [x]
  | y :: ys => if pairBefore x y then x :: y :: ys else y :: insertPair x ys

/-- Keep the first `k` pairs of a query. -/
def topkAdd (k : Nat) (l : List (Nat × Int × Nat)) (x : Nat × Int × Nat) : List (Nat × Int × Nat) :=
  (l.filter (·.1 != x.1)) ++ (insertPair x (l.filter (·.1 == x.1))).take k

/-- Key of a result entry's first byte. -/
def resultKey (fn : FnId) (c : ChainId) (entry : Nat) : Nat := (fn.val * 12 + c.val) * 262144 + 8 * entry

/-- Write the results of an instruction: i64 values, added to the old ones with ACC (R269); their check blocks become
valid and their lines are no longer failed. -/
def Plinth.writeResults (p : Plinth) (c : ChainId) (w : UWork) : Plinth :=
  let fn := w.instr.fn
  let one := fun (m : Memory) (x : Nat × Int) =>
    let a := resultKey fn c x.1
    let old : Int := if uAcc w.instr.word then (leNat (Memory.read m a 8) : Int) else 0
    Memory.write m a (toLe 8 (wrapInt 64 (old + x.2)))
  let blocks := (w.values.map fun x => (fn.val * 12 + c.val) * 64 + x.1 / 512).eraseDups
  { p with
    results := w.values.foldl one p.results
    valid := p.valid ++ blocks.filter fun b => !p.valid.contains b
    chains := vmod p.chains c fun x => { x with failed := x.failed.filter fun l => !w.instr.lines.contains l } }

/-- A scan ends with a status and returns no list; the Plinths it used are free again (R279, R283, R285). -/
def State.endScan (s : State) (fn : FnId) (id : Nat) (st : Status) (detail : Nat := 0) (payload : List Byte := []) : State :=
  match (s.fns[fn]).scans.find? (·.id == id) with
  | none => s
  | some x =>
    let s := { s with plinths := s.plinths.map fun (p : Plinth) =>
        if p.scan == some (fn, id) then
          ({ p with scan := none, topk := [], rowsScored := 0, scanTodo := [], scanAll := [], scanSlices := 0, scanQ := [], scanBits := [], chains := p.chains.map Chain.dropScan } : Plinth).fixCompute
        else p }
    ((s.modFn fn fun f => { f with scans := f.scans.filter (·.id != id) }).finish .retrieveScan x.cmd st detail payload).settle

/-- An instruction that releases nothing: its lines are failed lines, and it leaves its chain (R279). -/
def Plinth.failLines (p : Plinth) (c : ChainId) (w : UWork) : Plinth :=
  ({ p with chains := vmod p.chains c fun x => { x with compute := none, failed := (x.failed ++ w.instr.lines).eraseDups } } : Plinth).fixCompute

/-- The blocks among those described that the rows of an instruction lie in; their numbers count from the start of T2. -/
def UInstr.rowBlocks (i : UInstr) (l : List BlockErr) : List BlockErr :=
  l.filter fun b => uAddr i.word < t2Base + 4096 * b.block + 4096 && t2Base + 4096 * b.block < uAddr i.word + uRows i.word * uKib i.word * 1024

/-- What the reads of an instruction's rows find (Table PLIN-2): on-die corrections, and without BITMAP what the check symbols
correct and the blocks lost, an uncorrectable one before a failed tag. The page of a lost block goes the way of Table PLIN-8,
once. -/
def State.meetRows (s : State) (n : PlinthId) (i : UInstr) (l : List BlockErr) : State :=
  let bs := i.rowBlocks l
  let bs := if uBitmap i.word then bs.map fun b => { b with errs := [], tagOk := true } else bs
  (bs.filter (·.lost)).foldl (fun s b => match s.t2Range (t2Base + 4096 * b.block) with
    | some (g, a) => if ((s.fns[g]).page? (a / 65536)).any (·.t2) then (s.ueT2 g a (!b.ue)).1 else s
    | none => s) (s.modPlinth n fun p => p.countFixed bs)

/-- The valid blocks of a result area that an instruction's results cover in part or add to, with what their reads meet: they
are read and checked before new symbols are written (R260). -/
def State.partBlocks (s : State) (n : PlinthId) (c : ChainId) (w : UWork) (l : List BlockErr) : List BlockErr :=
  l.filter fun b =>
    let k := (w.values.filter fun x => x.1 / 512 == b.block).length
    b.block < 64 && 0 < k && (k < 512 || uAcc w.instr.word) && (s.plinths[n]).valid.contains ((w.instr.fn.val * 12 + c.val) * 64 + b.block)

/-- The step that issued an instruction replays from its last committed boundary (Table PLIN-8). -/
def State.replayInstr (s : State) (i : UInstr) : State :=
  match i.step with
  | some x => if s.atStep i.fn x then s.replay i.fn x.1 else s
  | none => s

/-- An instruction that has read a page without a good copy releases nothing (Table PLIN-8): a scan ends with INTEGRITY; lines
become failed lines, and for a shared model the step replays. -/
def State.badRead (s : State) (n : PlinthId) (c : ChainId) (w : UWork) : State :=
  let rows := (s.plinths[n]).rowsScored
  let s := s.modPlinth n fun p => p.failLines c w
  match w.instr.scan with
  | some id => (s.log 0x0501 (some w.instr.fn) n.val (toLe 4 rows)).endScan w.instr.fn id .integrity
  | none => if (s.rowPagesOf w.instr.word).any fun x => (s.modelOf x.1 x.2).isSome then s.replayInstr w.instr else s

/-- The results of an instruction are written and released, or its pairs enter the reduction unit's lists. -/
def State.releaseWork (s : State) (n : PlinthId) (c : ChainId) (w : UWork) : State :=
  let k := ((w.instr.scan.bind fun id => (s.fns[w.instr.fn]).scans.find? (·.id == id)).map (·.k)).getD 0
  (s.modPlinth n fun p =>
    let p := p.writeResults c w
    let p := { p with topk := w.pairs.foldl (topkAdd k) p.topk, rowsScored := p.rowsScored + w.rows, agg := p.agg ^^^ w.mac }
    (countInstr { p with chains := vmod p.chains c fun x => { x with compute := none } }).fixCompute).refill n 64

/-- The end of an instruction's compute phase: tags are compared, result blocks read and written, results released (R261, R277,
R279). `rows` describes blocks that its rows lie in, `results` blocks of the chain's result area, from 0 to 63. -/
def resultRelease (n : PlinthId) (c : ChainId) (rows results : List BlockErr) (s : State) : State :=
  match ((s.plinths[n]).chains[c]).compute with
  | none => s
  | some w =>
    let s := s.meetRows n w.instr rows
    if w.lost || (s.rowPagesOf w.instr.word).any s.lostHome then (s.badRead n c w).settle
    else
      let part := s.partBlocks n c w results
      let s := s.modPlinth n fun p => p.countFixed part
      if part.any (·.ue) then
        let s := (part.filter (·.ue)).foldl (fun s b => s.countT2 (some w.instr.fn) (s.resultDie w.instr.fn n (c.val * 64 + b.block)) false) s
        ((s.modPlinth n fun p => p.failLines c w).replayInstr w.instr).settle
      else s.releaseWork n c w

/-- Blocks as they are read, with those whose tag fails. -/
def blockErrs (l : List (Nat × BlockRead)) (badTags : List Nat) : List BlockErr :=
  (l.map fun x => { toBlockRead := x.2, block := x.1, tagOk := !badTags.contains x.1 }) ++
    (badTags.filter fun b => !l.any (·.1 == b)).map fun b => { block := b, tagOk := false }

def execResultRelease (n : PlinthId) (c : ChainId) (rows : List (Nat × BlockRead)) (badTags : List Nat) (results : List (Nat × BlockRead))
    (s : State) : Res := .next (resultRelease n c (blockErrs rows badTags) (blockErrs results []) s)

/-! ### Refresh, scrub, links, the instruction timeout (R258, R262, R276, R280) -/

/-- A bank that is refreshed lies under an access phase of its device. -/
def Plinth.refreshHits (p : Plinth) (dev : Fin 6) (bank : Fin 16) : Bool :=
  (List.range 2).any fun h => match p.chains[2 * dev.val + h]? with
    | some c => c.accessBanks.contains bank.val
    | none => false

/-- A bank that is refreshed lies under the transfer that the Plinth's link serves. -/
def State.refreshMeets (s : State) (n : PlinthId) (dev : Fin 6) (bank : Fin 16) : Bool :=
  match s.linkHead n with
  | some x => match s.t2Addr x.1 (x.2.num * 65536) with
    | some d => (t2Place d).device == dev.val && (t2Banks d 65536).contains bank.val
    | none => false
  | none => false

/-- A refresh suspends an access phase or an ordinary transfer on its bank (R276). The units of a chain and a transfer take part
on every channel of the device, so any channel's refresh meets them. -/
def plinthRefresh (n : PlinthId) (dev : Fin 6) (bank : Fin 16) (s : State) : State :=
  let hit := (s.plinths[n]).refreshHits dev bank || s.refreshMeets n dev bank
  s.modPlinth n fun p => if hit then { p with suspends := inc32 p.suspends } else p

def execPlinthRefresh (n : PlinthId) (dev : Fin 6) (bank : Fin 16) (s : State) : Res := .next (plinthRefresh n dev bank s)

/-- A scrub of one block of an allocated frame; one whose bank is in an access phase waits (R262, R275). -/
def plinthScrub (n : PlinthId) (frame : Nat) (e : BlockErr) (s : State) : State :=
  if !(s.t2.any (·.num == frame)) || frame % 8 != n.val || 512 ≤ e.block then s
  else if s.accessHits (t2Die frame (4096 * e.block)) 4096 then s.queueOrd n (t2Chain (t2Die frame (4096 * e.block))) (.scrub frame e)
  else s.scrubBlock n frame e

def execPlinthScrub (n : PlinthId) (frame block : Nat) (e : BlockRead) (s : State) : Res :=
  .next (plinthScrub n frame { toBlockRead := e, block } s)

/-- A flit of a Plinth link: 8 failures one after another retrain the link, with the devices in self-refresh (R258). -/
def plinthLinkFlit (n : PlinthId) (ok : Bool) (s : State) : State :=
  if !s.plinthOn n || !(s.plinths[n]).linkUp then s
  else s.modPlinth n fun p =>
    if ok then { p with linkFails := 0 }
    else if p.linkFails + 1 < 8 then { p with linkFails := p.linkFails + 1 }
    else { p with linkFails := 0, linkUp := false, selfRefresh := 0x3F }

def execPlinthLinkFlit (n : PlinthId) (ok : Bool) (s : State) : Res := .next (plinthLinkFlit n ok s)

def plinthLinkRetrainComplete (n : PlinthId) (s : State) : State :=
  if !s.plinthOn n then s else s.modPlinth n fun p => { p with linkUp := true, linkFails := 0, selfRefresh := 0 }

def execPlinthLinkRetrainComplete (n : PlinthId) (s : State) : Res := .next (plinthLinkRetrainComplete n s)

/-- The timer of a running instruction expires: its chain is annealed (R272, R280). -/
def plinthInstructionTimeout (n : PlinthId) (c : ChainId) (s : State) : State :=
  let ch := (s.plinths[n]).chains[c]
  if ch.access.isNone && ch.compute.isNone then s
  else ((s.modPlinth n fun p => p.fail .timeout 5 c.val).anneal (.plinthUnit n c) 0x0103).settle

def execPlinthInstructionTimeout (n : PlinthId) (c : ChainId) (s : State) : Res := .next (plinthInstructionTimeout n c s)

end Sys2Proof.Machine
end

