-- ==== Sys2Proof/Machine/Stream.lean ====
section
/-! DEFINITION. The instruction stream: control instructions, phases, and how the engines of a mould's forges go on once
something they wait for has come (R46 to R49, R59, R67, R72, R125, R274, R278). -/

namespace Sys2Proof.Machine

/-! ### Tiles and phases (R125) -/

/-- The Chisel asks for a queue entry, and no slot holds it (R125). -/
def Forge.chiselAsks (x : Forge) (mf : MForge) : Option ChiselJob :=
  match x.chisel.issued with
  | c :: _ => match c.reg 0 with
    | some a =>
      let accs := (c.sources.map fun t => if t.queue then [] else t.accs false).flatten ++ (c.sinks.map (·.accs true)).flatten
      if a.queue && c.taken.length < a.cols / 128 && (mf.blocked accs).isNone then some c else none
    | none => none
  | [] => none

/-- A broken count of tiles ends the step (R125). -/
def State.tileCount (s : State) (f : ForgeId) (j : Job) (kind : Nat) : State :=
  (s.modForge f fun x => { x with anvil := x.anvil.fail .badParam kind x.pc }).endStep j.fn j.mould .badParam

/-- An ANVIL_MM stands in the instructions from `pc` on, up to the next PHASE, END or RETURN, or in what they call. -/
def Running.mmFrom (r : Running) (mf : MForge) : Nat → Nat → Bool
  | 0, _ => false
  | fuel + 1, pc => match mf.stream[pc]? with
    | none => false
    | some w => match wB w 0 1 with
      | 0x10 => true
      | 0x01 | 0x02 | 0x04 => false
      | 0x03 => (match mf.subs[wB w 2 2]? with
          | some a => r.mmFrom mf fuel a
          | none => false) || r.mmFrom mf fuel (pc + 1)
      | 0x05 =>
        let n := if bit (wB w 1 1) 0 then r.word (wB w 4 4) else wB w 4 4
        r.mmFrom mf fuel (if n = 0 then pc + 1 + wB w 8 4 else pc + 1)
      | _ => r.mmFrom mf fuel (pc + 1)

/-- Where a forge's stream goes on within its phase: at its position, at the start of a loop that runs again, behind the calls it
is inside of. -/
def Forge.ahead (x : Forge) : List Nat := x.pc :: x.nest.filterMap fun n => match n with
  | .loop first _ left => if 1 < left then some first else none
  | .call ret _ => some ret

/-- Chisel asks for an entry while the queue is empty and every ANVIL_MM of the phase is complete: the stream has none ahead of
its next PHASE or END (R125). -/
def State.tileStarved (s : State) (f : ForgeId) : Option State :=
  let x := s.forges[f]
  if x.chisel.issued.isEmpty || !x.anvil.issued.isEmpty || !x.anvil.queue.isEmpty then none
  else match s.jobForge f with
    | none => none
    | some (j, m, mf) => match m.run with
      | none => none
      | some r =>
        if r.rerun || r.status.isSome || (x.chiselAsks mf).isNone || x.ahead.any (r.mmFrom mf (5 * mf.stream.length + 5)) then none
        else some (s.tileCount f j 3)

/-! ### Engines going on -/

/-- One movement of the engines of a forge, or none. -/
def State.engineStep (s : State) (f : ForgeId) : Option State :=
  (s.anvilStep f).orElse fun _ => (s.chiselStep f).orElse fun _ => (s.crucStep f).orElse fun _ => (s.pressStep f).orElse fun _ =>
    (s.windowStep f).orElse fun _ => s.tileStarved f

/-- One movement of a mould: an engine of one of its forges, or its links. -/
def State.mouldStep (s : State) (fn : FnId) (id : BitVec 64) : Option State :=
  match (s.fns[fn]).mould? id with
  | none => none
  | some m => match m.forges.findSome? fun mf => s.engineStep mf.phys with
    | some s => some s
    | none => s.linkStep fn m

def State.pumpN (s : State) (fn : FnId) (id : BitVec 64) : Nat → State
  | 0 => s
  | n + 1 => match s.mouldStep fn id with
    | some s => s.pumpN fn id n
    | none => s

/-- The slot on which a table load at the head of a forge's stream waits (R129, R138, R163). -/
def State.headWait (s : State) (fn : FnId) (id : BitVec 64) (mf : MForge) : List Nat :=
  let x := s.forges[mf.phys]
  if !x.job.any fun j => j.fn == fn && j.mould == id then []
  else match mf.stream[x.pc]? with
    | none => []
    | some w =>
      let blocked := fun (idle : Bool) (n : Nat) =>
        if idle then (mf.blocked [{ slot := wB w 2 1, first := wB w 4 2, n }]).toList else []
      match wB w 0 1 with
      | 0x19 => blocked x.anvil.issued.isEmpty 1
      | 0x23 => blocked x.chisel.issued.isEmpty 4
      | _ => []

/-- Every engine and link of a mould goes on as far as tags, operands, credits and pages allow; a step whose end is due ends,
and misses whose pages have come are counted. The blocked slots are noted anew. -/
def State.pump (s : State) (fn : FnId) (id : BitVec 64) : State :=
  let s := (s.endDue fn id).countArrivals fn
  let s := s.modMould fn id fun m => { m with forges := m.forges.map fun mf => { mf with wait := s.headWait fn id mf } }
  s.pumpN fn id 1000000

/-- The mould that runs on a forge goes on, then deferred commands are settled. -/
def State.pumpForge (s : State) (f : ForgeId) : State :=
  match (s.forges[f]).job with
  | some j => (s.pump j.fn j.mould).settle
  | none => s.settle

/-- Every mould of a function, and of every function, goes on. -/
def State.pumpFn (s : State) (fn : FnId) : State := ((s.fns[fn]).moulds).foldl (fun s (m : Mould) => s.pump fn m.id) s
def State.pumpAll (s : State) : State := (List.finRange 64).foldl (fun s fn => s.pumpFn fn) s

/-- A command of a forge: its effect, then what the forge's mould does with it. The forge is looked up before, as the
command may end the step. -/
def onForge (f : ForgeId) (body : State → State) (s : State) : Res :=
  .next (match (s.forges[f]).job with
    | some j => ((body s).pump j.fn j.mould).settle
    | none => (body s).settle)

/-! ### Phases (R46, R59, R67) -/

/-- A Tongs channel has nothing left. -/
def TChan.quiet (t : TChan) : Bool := t.cur.isNone && t.queue.isEmpty && t.shadow.isNone && t.active.isNone

/-- How a forge stands at its next PHASE or END: done, still at work, or with a broken count of tiles (R46, R125). -/
inductive PhaseEnd where
  | done
  | busy
  | wrong (kind : Nat)
  deriving DecidableEq

def Forge.phaseEnd (x : Forge) (mf : MForge) : PhaseEnd :=
  if !x.anvil.issued.isEmpty then .busy
  else if !x.chisel.issued.isEmpty then
    (if x.anvil.queue.isEmpty && (x.chiselAsks mf).isSome then .wrong 3 else .busy)
  else if !x.anvil.queue.isEmpty then .wrong 2
  else if x.cruc.issued.isEmpty && x.press.issued.isEmpty && x.tchans.toList.all (·.quiet) && x.prun.isNone then .done
  else .busy

/-- Prefetch entries that issue as the first forge enters a phase (R59). -/
def State.issueEntries (s : State) (fn : FnId) (m : Mould) (r : Running) (n : Nat) : State :=
  m.prefetch.zipIdx.foldl (fun s (x : Prefetch × Nat) =>
    if x.1.issuePhase != n then s
    else s.issueFetch fn m.id x.2 (if x.1.prevStep then r.index + 1 else r.index) x.1 r.bindings) s

/-- Open the heat whose OPEN_PHASE the first forge enters (R67, R286): its reserved frames become its shadow frames. It waits
for the commit of the heat before it (Table HEAT-5, event 7); one that has committed is not opened again. -/
def State.openBound (s : State) (fn : FnId) (m : Mould) (r : Running) (n : Nat) : Option State :=
  match m.heats.findIdx? (·.openPhase == n) with
  | none => some s
  | some b => match m.heats[b]? with
    | none => some s
    | some h =>
      if b < m.committed then some s
      else if !((s.fns[fn]).stepHeats m.id).isEmpty then none
      else (s.openHeat fn (.step m.id b) h.maxActions r.index).map fun p =>
      let s := { p.2 with t1 := p.2.t1.map fun (x : Frame) =>
        if x.use == FrameUse.shadow fn (m.resKey b) then { x with use := .shadow fn p.1.val } else x }
      s.modRun fn m.id fun r => { r with opened := r.opened + 1 }

/-- A phase has been left behind by every forge. -/
def Running.leftBehind (r : Running) (phase : Nat) : Bool :=
  (r.phases.zip r.ended).all fun x => x.2 || (match x.1 with
    | some p => phase < p
    | none => false)

/-- The pages of prefetch entries whose NEED_PHASE every forge has left are unpinned. -/
def State.endFetches (s : State) (fn : FnId) (m : Mould) : State :=
  match ((s.fns[fn]).mould? m.id).bind (·.run) with
  | none => s
  | some r =>
    let past := fun (x : Fetch) => x.step == r.index && match m.prefetch[x.entry]? with
      | some e => r.leftBehind e.needPhase
      | none => true
    let pages := ((r.fetches.filter past).map (·.pinned)).flatten
    let s := s.unpin pages
    s.modRun fn m.id fun r => { r with fetches := updateWhere past (fun (x : Fetch) => { x with pinned := [] }) r.fetches }

/-- Enter a phase (R46). The first forge to enter it issues prefetch entries and opens a heat; a cohort mould's first heat
waits until every peer's digest has been checked (R72). -/
def State.enterPhase (s : State) (f : ForgeId) (j : Job) (m : Mould) (r : Running) (n : Nat) : State :=
  let first := r.phases.all fun p => p.all (· < n)
  let s := if (s.forges[f]).inPhase then
      s.modRun j.fn m.id fun r => { r with completed := r.completed.set j.logical (some (s.forges[f]).phase) } else s
  let opens := first && m.heats.any (·.openPhase == n)
  if opens && m.flags.getLsbD 2 && !(m.listPeers.all m.checkedPeers.contains) then s
  else
    let s? := if first then s.openBound j.fn m r n else some s
    match s? with
    | none => s
    | some s =>
      let s := if first then s.issueEntries j.fn m r n else s
      let s := (s.modForge f fun x => { x with phase := n, inPhase := true }).advance f
      let s := s.modRun j.fn m.id fun r => { r with phases := r.phases.set j.logical (some n) }
      s.endFetches j.fn m

def phase (f : ForgeId) (w : BitVec 128) (s : State) : State :=
  s.onStream f w 0x01 fun j m mf r s =>
    let x := s.forges[f]
    match x.phaseEnd mf with
    | .busy => s
    | .wrong k => s.tileCount f j k
    | .done => s.enterPhase f j m r (wB w 2 2)

def execPhase (f : ForgeId) (w : BitVec 128) (s : State) : Res := onForge f (phase f w) s

def end_ (f : ForgeId) (w : BitVec 128) (s : State) : State :=
  s.onStream f w 0x02 fun j m mf _ s =>
    match (s.forges[f]).phaseEnd mf with
    | .busy => s
    | .wrong k => s.tileCount f j k
    | .done =>
      ((s.modForge f fun x => { x with ended := true }).modRun j.fn m.id fun r => { r with ended := r.ended.set j.logical true }).endFetches j.fn m

def execEnd (f : ForgeId) (w : BitVec 128) (s : State) : Res := onForge f (end_ f w) s

/-! ### Control flow (R48, R49, Table MOLD-1) -/

def call (f : ForgeId) (w : BitVec 128) (s : State) : State :=
  s.onStream f w 0x03 fun _ _ mf _ s =>
    s.modForge f fun x => { x with nest := .call (x.pc + 1) :: x.nest, pc := (mf.subs[wB w 2 2]?).getD (x.pc + 1) }

def execCall (f : ForgeId) (w : BitVec 128) (s : State) : Res := onForge f (call f w) s

def return_ (f : ForgeId) (w : BitVec 128) (s : State) : State :=
  s.onStream f w 0x04 fun _ _ _ _ s =>
    s.modForge f fun x => match x.nest with
      | .call ret _ :: rest => ({ x with pc := ret, nest := rest } : Forge).advance 0
      | _ => x

def execReturn (f : ForgeId) (w : BitVec 128) (s : State) : Res := onForge f (return_ f w) s

def loop (f : ForgeId) (w : BitVec 128) (s : State) : State :=
  s.onStream f w 0x05 fun _ _ _ r s =>
    let body := wB w 8 4
    let n := if bit (wB w 1 1) 0 then r.word (wB w 4 4) else wB w 4 4
    s.modForge f fun x =>
      if n = 0 || body = 0 then x.advance (1 + body)
      else { x with pc := x.pc + 1, nest := .loop (x.pc + 1) (x.pc + body) n :: x.nest }

def execLoop (f : ForgeId) (w : BitVec 128) (s : State) : Res := onForge f (loop f w) s

/-! ### The Plinth instructions of the stream (R274, R278) -/

/-- PLINTH_FENCE holds the stream until the forge's instructions on the masked Plinths have released their results, then
drops the function's cached result lines of those Plinths. -/
def plinthFence (f : ForgeId) (w : BitVec 128) (s : State) : State :=
  s.onStream f w 0x06 fun j _ _ _ s =>
    let on := fun (n : PlinthId) => bit (wB w 1 1) n.val
    let busy := (List.finRange 8).any fun n => on n && (s.plinths[n]).chains.toList.any fun c =>
      c.instrs.any fun i => i.forge == some f
    if busy then s
    else
      let inResults := fun (l : CacheLine) => match l.plinth with
        | some n => on n && l.fn == j.fn
        | none => false
      ({ s with cache := s.cache.filter fun l => !inResults l } : State).advance f

def execPlinthFence (f : ForgeId) (w : BitVec 128) (s : State) : Res := onForge f (plinthFence f w) s

/-- Offer the remaining instructions of a run: those left, or the status of a refusal. -/
def State.offerRun (s : State) (n : PlinthId) (fn : FnId) (f : ForgeId) : List (BitVec 256) → State × Except Status (List (BitVec 256))
  | [] => (s, .ok [])
  | w :: ws => match s.offer n { word := w, fn, forge := some f, step := s.stepOf f } true with
    | .taken s => s.offerRun n fn f ws
    | .refused st s => (s, .error st)
    | .full => (s, .ok (w :: ws))

/-- PLINTH_RUN: the stream goes on once the Plinth has accepted every instruction of the run (R274). -/
def plinthRun (f : ForgeId) (w : BitVec 128) (s : State) : State :=
  s.onStream f w 0x50 fun j m _ _ s =>
    let n : PlinthId := Fin.ofNat 8 (wB w 1 1)
    let first := wB w 4 2
    let prog := (s.plinths[n]).progs.find? fun p => p.fn == j.fn && p.mould == j.mould && p.program == wB w 2 2
    match (if m.plinthMask.getLsbD n.val then prog else none) with
    | none => s.endStep j.fn j.mould .badParam
    | some p =>
      let count := if wB w 6 2 = 0 then p.instrs.length - first else wB w 6 2
      if p.instrs.length < first + count || p.instrs.length ≤ first then s.endStep j.fn j.mould .badParam
      else if !(s.plinths[n]).linkUp then s
      else
        let left := match (s.forges[f]).prun with
          | some r => r.instrs
          | none => (p.instrs.drop first).take count
        let r := s.offerRun n j.fn f left
        match r.2 with
        | .error st => r.1.endStep j.fn j.mould st
        | .ok [] => (r.1.modForge f fun x => { x with prun := none }).advance f
        | .ok l => r.1.modForge f fun x => { x with prun := some { plinth := n, instrs := l } }

def execPlinthRun (f : ForgeId) (w : BitVec 128) (s : State) : Res := onForge f (plinthRun f w) s

/-! ### The engines' rows -/

def execAnvilCfg (f : ForgeId) (w : BitVec 128) (s : State) : Res := onForge f (anvilCfg f w) s
def execAnvilMm (f : ForgeId) (w : BitVec 128) (s : State) : Res := onForge f (anvilMm f w) s
def execSwageCfg (f : ForgeId) (w : BitVec 128) (s : State) : Res := onForge f (swageCfg f w) s
def execSwageTable (f : ForgeId) (w : BitVec 128) (s : State) : Res := onForge f (swageTable f w) s
def execChiselOp (f : ForgeId) (w : BitVec 128) (stages : List (BitVec 128)) (s : State) : Res := onForge f (chiselOp f w stages) s
def execChiselTreg (f : ForgeId) (w : BitVec 128) (s : State) : Res := onForge f (chiselTreg f w) s
def execChiselTable (f : ForgeId) (w : BitVec 128) (s : State) : Res := onForge f (chiselTable f w) s
def execCrucCfg (f : ForgeId) (w : BitVec 128) (s : State) : Res := onForge f (crucCfg f w) s
def execCrucAttn (f : ForgeId) (w : BitVec 128) (env : Lines) (s : State) : Res := onForge f (crucAttn f w env) s
def execCrucAppend (f : ForgeId) (w : BitVec 128) (s : State) : Res := onForge f (crucAppend f w) s
def execPressScan (f : ForgeId) (w : BitVec 128) (s : State) : Res := onForge f (pressScan f w) s
def execPressEncode (f : ForgeId) (w : BitVec 128) (s : State) : Res := onForge f (pressEncode f w) s
def execPressTableOut (f : ForgeId) (w : BitVec 128) (s : State) : Res := onForge f (pressTableOut f w) s
def execTongsRun (f : ForgeId) (w : BitVec 128) (s : State) : Res := onForge f (tongsRun f w) s
def execTongsWait (f : ForgeId) (w : BitVec 128) (s : State) : Res := onForge f (tongsWait f w) s
def execTongsStop (f : ForgeId) (w : BitVec 128) (s : State) : Res := onForge f (tongsStop f w) s
def execCopy (f : ForgeId) (c : TongsId) (env : Lines) (s : State) : Res := onForge f (copy f c env) s
def execFill (f : ForgeId) (c : TongsId) (s : State) : Res := onForge f (fill f c) s
def execCompare (f : ForgeId) (c : TongsId) (env : Lines) (s : State) : Res := onForge f (compare f c env) s
def execFlush (f : ForgeId) (c : TongsId) (s : State) : Res := onForge f (flush f c) s
def execAtomic (f : ForgeId) (c : TongsId) (env : Lines) (s : State) : Res := onForge f (atomic f c env) s
def execTongsDescComplete (f : ForgeId) (c : TongsId) (s : State) : Res := onForge f (tongsDescComplete f c) s

end Sys2Proof.Machine
end

