-- ==== Sys2Proof/Machine/RangeCmd.lean ====
section
/-! DEFINITION. The Range commands and the migration of sealed pages between the tiers (R221 to R234, R396 to R399). -/

namespace Sys2Proof.Machine

/-! ### Roles and index spans (R225) -/

/-- ROLE of RANGE_MAP (Table TIER-2). -/
def Role.ofCode : Nat → Option Role
  | 1 => some .data | 2 => some .billets | 3 => some .kvPages | 4 => some .kvHeaders | 5 => some .kvLists
  | 6 => some .kvPrefix | 7 => some .retrieval | _ => none

/-! ### RANGE_MAP (R221, R224, R396, R397) -/

/-- Map one span with zero content. -/
def State.mapSpan (s : State) (fn : FnId) (role : Role) (homeT2 : Bool) (model : Option (Fin 16)) (num : Nat) : Option State :=
  let use : FrameUse := match model with
    | some m => .model m num
    | none => .span fn num
  let s := s.modFn fn fun f => { f with spans := f.spans ++ [{ num, role, model }], pages := f.pages ++ blankPages num homeT2 }
  (s.allocT1 fn use 1).bind fun s => if homeT2 then s.allocT2 fn use (role == .retrieval) else some s

def State.mapSpans (s : State) (fn : FnId) (role : Role) (homeT2 : Bool) (model : Option (Fin 16)) (first n : Nat) :
    Except (Status × Bool) State :=
  match (List.range n).foldl (fun (o : Option State) i => o.bind fun s => s.mapSpan fn role homeT2 model (first + i)) (some s) with
  | none => .error (.noSpace, false)
  | some s => match (if role.far then s.fixIndexes fn first n else some s) with
    | none => .error (.noSpace, false)
    | some s => .ok s

/-- A further map of a KV role extends its run upward. -/
def Fn.extendsRun (f : Fn) (role : Role) (first : Nat) : Bool :=
  match (f.spans.filter (·.role == role)).map (·.num) with
  | [] => true
  | l => l.foldl max 0 + 1 == first

/-- Map a shared model: create it, or map the one that is ready (R396, R397). A function maps a model once (DESIGN
CHOICE, log 51). -/
def State.mapModel (s : State) (fn : FnId) (id : BitVec 64) (homeT2 : Bool) (first n : Nat) : Except (Status × Bool) State :=
  let f := s.fns[fn]
  let known := (List.finRange 16).find? fun m => match s.models[m] with
    | some x => x.id == id
    | none => false
  let mine := (List.finRange 16).filter fun m => f.spans.any (·.model == some m)
  if 4 ≤ mine.length && !(known.any mine.contains) then .error (.noSpace, false)
  else match known with
    | some m => match s.models[m] with
      | none => .error (.badParam, false)
      | some x =>
        if mine.contains m then .error (.badParam, false)
        else if !x.ready then .error (.busy, false)
        else if x.spans != n then .error (.badParam, false)
        else
          let s := s.modFn fn fun f => { f with spans := f.spans ++ (List.range n).map fun i => { num := first + i, role := .billets, model := some m } }
          match s.fixIndexes fn first n with
          | none => .error (.noSpace, false)
          | some s => .ok s
    | none => match (List.finRange 16).find? fun m => (s.models[m]).isNone with
      | none => .error (.noSpace, false)
      | some m =>
        let (d, s) := s.drbg
        let s := s.drbg.2.drbg.2
        let s := { s with models := s.models.set m (some { id, publisher := fn, base := first * 2097152, spans := n })
                          hall := { s.hall.keep with modelKeys := s.hall.modelKeys.set m (some (StoreKey.drawn d)) } }
        s.mapSpans fn .billets homeT2 (some m) first n

/-- The parameters of RANGE_MAP are in order (Table TIER-2, R221, R396). -/
def rangeMapOk (k : Cmd) : Bool :=
  let addr := u k.p 0 8
  let home := u k.p 13 1
  let shared := bit (u k.p 14 1) 0
  plain k [(0, 15), (16, 8)] && u k.p 14 1 < 2 && addr % 2097152 == 0 && 1 ≤ u k.p 8 4 && (home == 1 || home == 2) &&
    addr + u k.p 8 4 * 2097152 ≤ indexBase && (shared || u k.p 16 8 == 0) &&
    match Role.ofCode (u k.p 12 1) with
    | some r => (home == 1 || r.far) && (r != .retrieval || home == 2) && (!shared || r == .billets)
    | none => false

def rangeMap (k : Cmd) (s : State) : State :=
  let addr := u k.p 0 8
  let n := u k.p 8 4
  let home := u k.p 13 1
  let shared := bit (u k.p 14 1) 0
  checked .rangeMap k (rangeMapOk k) 0 (inHeat .rangeMap k · fun _ s =>
    let first := addr / 2097152
    let f := s.fns[k.fn]
    match Role.ofCode (u k.p 12 1) with
    | none => .error (.badParam, false)
    | some role =>
      if f.spans.any (fun x => first ≤ x.num && x.num < first + n) || (role.isKv && !f.extendsRun role first) then .error (.badParam, false)
      else
        let r := if shared then s.mapModel k.fn (BitVec.ofNat 64 (u k.p 16 8)) (home == 2) first n
          else s.mapSpans k.fn role (home == 2) none first n
        match r with
        | .error e => .error e
        | .ok s => .ok (s, 0, [])) s

def execRangeMap (k : Cmd) (s : State) : Res := hostCmd .rangeMap k (rangeMap k) s

/-! ### RANGE_UNMAP (R224, R227) -/

/-- Range bytes of a Press instruction's destination that no parameter word moves. -/
def pressNames (w : BitVec 128) : Option (Nat × Nat) :=
  if wB w 0 1 = 0x61 && wB w 12 2 = 0xFFFF then some (65536 * wB w 8 4, 65536 * wB w 6 2)
  else if wB w 0 1 = 0x62 && wB w 14 2 = 0xFFFF then some (wB w 8 6, 512)
  else none

/-- Range bytes that an installed mould names, as first byte and length (Table TIER-2). -/
def Mould.names (m : Mould) : List (Nat × Nat) :=
  ((m.prefetch.filter (·.kind == 1)).map fun e => (e.source % 2 ^ 48, 65536 * e.count)) ++
  ((m.alternates.filter (·.kind != 1)).map fun a => (a.source % 2 ^ 48, 65536 * a.billets)) ++
  (m.forges.map fun mf => (mf.tongs.map fun d => (([dSrc d, dDst d].filter (·.space == 3)).map fun x =>
    (x.addr, (x.lines - 1) * x.stride + x.lineBytes))).flatten).flatten ++
  (m.forges.map fun mf => mf.stream.filterMap pressNames).flatten

/-- The page of a unit instruction's rows lies in the span (Table PLIN-4). -/
def Plinth.names (p : Plinth) (fn : FnId) (frames : List Nat) : Bool :=
  p.progs.any fun g => g.fn == fn && g.instrs.any fun w =>
    bits w.toNat 0 8 == 1 && frames.contains ((bits w.toNat 32 32 * 1024 - 0x4000000000) / 2097152)

/-- Empty the KV pool of a function: no header, no prefix node is left (Table TIER-5; DESIGN CHOICE, log 52). -/
def Fn.emptyPool (f : Fn) : Fn := { f with hdrs := [], nodes := [], nextNode := 1 }

/-- A KV page becomes OPEN again: its T2 copy is released, and its span holds a T1 frame (R209, R223, R226). -/
def State.reopenPage (s : State) (g : FnId) (num : Nat) : Option State :=
  (s.takeT1 g (num / 32)).map fun s => (((s.modPage g num fun p =>
    { num := p.num, homeT2 := p.homeT2, bad := p.bad }).fixFrames g (num / 32)).fixStaging g)

/-- Why the spans may not be unmapped now. -/
def State.unmapBusy (s : State) (fn : FnId) (first n : Nat) : Bool :=
  let f := s.fns[fn]
  let inside := fun (num : Nat) => first ≤ num && num < first + n
  let frames := (s.t2.filter fun x => match x.use with
    | .span g num => g == fn && inside num
    | .model m num => inside num && (s.modelsOf fn).contains m
    | _ => false).map (·.num)
  let spans := f.spans.filter fun x => inside x.num
  (f.pages.any fun p => inside (p.num / 32) && p.pins != 0) ||
  (f.moulds.any fun m => m.names.any fun r => r.2 != 0 && r.1 < (first + n) * 2097152 && first * 2097152 < r.1 + r.2) ||
  (s.plinths.toList.any fun p => p.names fn frames) ||
  (spans.any (·.role.isKv) && (!f.seqs.isEmpty || f.hdrs.any (fun h => f.pinOf h != 0) ||
    (List.finRange 32).any fun i => match f.slots[i] with
      | some h => h.edits.any fun e => match e with
        | .newSeq _ | .newNode _ => true
        | _ => false
      | none => false)) ||
  (spans.any fun x => match x.model with
    | some m => (s.modelsOf fn).contains m && (s.modelUsers m).any (· != fn)
    | none => false) ||
  (spans.any (·.role == .retrieval) && !f.scans.isEmpty) ||
  (List.finRange 32).any fun i => match f.slots[i] with
    | some h => h.state != .committed && (h.granules.any fun g => inside (g / 512) || (indexBase ≤ g * 4096 && inside ((g * 4096 - indexBase) / 256 / 32)))
    | none => false

/-- The spans named may be unmapped as a set: a shared mapping whole, a KV run from one of its ends (DESIGN CHOICE, log 52). -/
def State.unmapOk (s : State) (fn : FnId) (first n : Nat) : Bool :=
  let f := s.fns[fn]
  let inside := fun (num : Nat) => first ≤ num && num < first + n
  ((List.range n).all fun i => f.spans.any (·.num == first + i)) &&
  (f.spans.all fun x => x.model.isNone || inside x.num || !(f.spans.any fun y => y.model == x.model && inside y.num)) &&
  [Role.kvPages, .kvHeaders, .kvLists, .kvPrefix].all fun r =>
    let rest := (f.spans.filter fun x => x.role == r && !inside x.num).map (·.num)
    match rest with
    | [] => true
    | x :: xs => xs.foldl max x + 1 - xs.foldl min x == rest.length

/-- Unmap spans: frames, copies, content and headers go, zeroed before any other use (R227). -/
def State.unmapSpans (s : State) (fn : FnId) (first n : Nat) : Option State :=
  let inside := fun (num : Nat) => first ≤ num && num < first + n
  let spans := (s.fns[fn]).spans.filter fun x => inside x.num
  let kv := spans.any (·.role.isKv)
  let s := (List.finRange 32).foldl (fun s i => match (s.fns[fn]).heat i with
    | some h => if h.state == HeatState.committed then s.foldHeat fn i else s
    | none => s) s
  let own := (spans.filterMap (·.model)).eraseDups.filter (s.modelsOf fn).contains
  let s := own.foldl (fun s m => s.dropModel m) s
  let keepCache := fun (l : CacheLine) => l.fn != fn || l.plinth.isSome ||
    !(inside (l.line * 512 / 2097152) || (indexBase ≤ l.line * 512 && inside ((l.line * 512 - indexBase) / 256 / 32)))
  let s := ({ s with
    cache := s.cache.filter keepCache
    ram := Memory.clear (Memory.clear s.ram (ramKey fn (first * 2097152)) (n * 2097152)) (ramKey fn (indexBase + first * 8192)) (n * 8192)
    t1 := s.t1.filter fun (x : Frame) => match x.use with
      | .span g num => !(g == fn && inside num)
      | _ => true
    t2 := s.t2.filter fun (x : Frame) => match x.use with
      | .span g num => !(g == fn && inside num)
      | _ => true } : State).modFn fn fun f => { f with
    spans := f.spans.filter fun x => !inside x.num
    pages := f.pages.filter fun p => !inside (p.num / 32) }
  let s := s.fixStaging fn
  let s? := if spans.any (·.role.far) then s.fixIndexes fn first n else some s
  if kv then s?.bind fun s =>
    let s := s.modFn fn Fn.emptyPool
    let left := ((s.fns[fn]).pages.filter fun p => (s.fns[fn]).roleOf (p.num * 65536) == some .kvPages && p.sealed_).map (·.num)
    left.foldl (fun (o : Option State) num => o.bind fun s => s.reopenPage fn num) (some s)
  else s?

def rangeUnmap (k : Cmd) (s : State) : State :=
  let addr := u k.p 0 8
  let n := u k.p 8 4
  checked .rangeUnmap k (plain k [(0, 12)] && addr % 2097152 == 0 && 1 ≤ n && addr + n * 2097152 ≤ indexBase) 0
    (inHeat .rangeUnmap k · fun _ s =>
      let first := addr / 2097152
      if !s.unmapOk k.fn first n then .error (.badParam, false)
      else if s.unmapBusy k.fn first n then .error (.busy, false)
      else match s.unmapSpans k.fn first n with
        | none => .error (.noSpace, false)
        | some s => .ok (s, 0, [])) s

def execRangeUnmap (k : Cmd) (s : State) : Res := hostCmd .rangeUnmap k (rangeUnmap k) s

/-! ### Sealing (R150, R160) -/

/-- Key identifier, key and address of R160 for a page. -/
def State.pageKey (s : State) (g : FnId) (a : Nat) : Nat × StoreKey × Nat :=
  match s.modelOf g a with
  | some (m, off) => (0x8000 + m.val, (s.hall.modelKeys[m]).getD {}, off)
  | none => (0x0100 + g.val, (s.hall.storage[g]).getD {}, a)

/-- A header with KEY_ID, TAGS and FLAGS.TAGGED written. -/
def State.tagged (s : State) (g : FnId) (a : Nat) (hdr stored : List Byte) : List Byte :=
  let (id, key, at_) := s.pageKey g a
  let tags := (headerBlocks hdr).zipIdx.map fun (x : BlockEntry × Nat) =>
    key.mac (at_ + 4096 * x.2) (slice stored (16 * x.1.off) (16 * x.1.len))
  slice hdr 0 3 ++ [1] ++ slice hdr 4 2 ++ toLe 2 id ++ slice hdr 8 0x58 ++ fit 128 tags.flatten ++ List.replicate 32 0

/-- Sixteen RAW blocks. -/
def rawBlocks : List BlockEntry := (List.range 16).map fun i => { off := 256 * i, len := 256, raw := true }

/-- The stored bytes of a billet, padding included, as a heat sees them. -/
def State.storedAt (s : State) (fn : FnId) (slot : Option (Fin 32)) (a : Nat) (hdr : List Byte) : List Byte :=
  s.readRange fn slot a (512 * ceilDiv (min (headerStored hdr) 65536) 512)

/-- A granule of the page is claimed by another heat in progress. -/
def Fn.pageClaimed (f : Fn) (slot : Fin 32) (num : Nat) : Bool :=
  (List.range 16).any fun i => match f.claimer (16 * num + i) with
    | some (j, h) => j != slot && h.state != .committed
    | none => false

/-- Seal one page in a heat: one action, with KEY_ID and TAGS in the header of a page that may have a T2 copy. A KV or
RETRIEVAL page gets the header of a billet whose blocks are all RAW (DEDUCED, log 53). -/
def State.sealPage (s : State) (fn : FnId) (slot : Fin 32) (num : Nat) : Except Status State :=
  let a := num * 65536
  let f := s.fns[fn]
  if f.pageClaimed slot num then .error .busy
  else
    let far := ((f.roleOf a).map Role.far).getD false
    s.countsAs fn slot 1 fun s =>
      if far then
        let hdr := if f.roleOf a == some .billets then s.readRange fn (some slot) (headerAddr a) 256 else headerBytes 0xFFFF 0 rawBlocks num
        match s.heatWrite fn slot (headerAddr a) (s.tagged fn a hdr (s.storedAt fn (some slot) a hdr)) with
        | .error e => .error e
        | .ok s => .ok (s.edit fn slot (.seal_ num))
      else .ok (s.edit fn slot (.seal_ num))

/-- Sealed as a heat sees it. -/
def Fn.sealedFor (f : Fn) (slot : Fin 32) (p : Page) : Bool :=
  p.sealed_ || match f.heat slot with
    | some h => h.seals p.num
    | none => false

/-! ### Shared-model manifests (R397, R398) -/

def hashBytes (bs : List Byte) : List Byte := digestBytes (sha256 bs)

/-- A leaf: model offset, header and padded stored form. -/
def modelLeaf (off : Nat) (hdr stored : List Byte) : List Byte :=
  hashBytes ([0] ++ toLe 8 off ++ slice hdr 0 3 ++ [0] ++ slice hdr 4 2 ++ [0, 0] ++ slice hdr 8 0x58 ++ stored)

/-- One level up of the tree. -/
def treeLevel : List (List Byte) → List (List Byte)
  | a :: b :: rest => hashBytes ([1] ++ a ++ b) :: treeLevel rest
  | l => l

def treeRoot : Nat → List (List Byte) → List Byte
  | 0, l => l.headD []
  | fuel + 1, l => if l.length ≤ 1 then l.headD [] else treeRoot fuel (treeLevel l)

/-- The checks of a model's manifest, as the sealing heat sees its bytes. -/
def State.manifestOk (s : State) (fn : FnId) (slot : Fin 32) (x : Model) : Bool :=
  let read := fun off n => s.readRange fn (some slot) (x.base + off) n
  let hdrOf := fun i => s.readRange fn (some slot) (headerAddr (x.base + 65536 * i)) 256
  let h := read 0 256
  let mb := u h 0x10 4
  let n := u h 0x14 4
  let leaf := fun i => modelLeaf ((mb + i) * 65536) (hdrOf (mb + i)) (s.storedAt fn (some slot) (x.base + (mb + i) * 65536) (hdrOf (mb + i)))
  u h 0 4 == 0x4D4D5355 && u h 4 2 == 1 && u h 8 8 == x.id.toNat && 1 ≤ mb && 1 ≤ n && mb + n == 32 * x.spans && 0x2000 + 32 * n ≤ 65536 * mb &&
    ((List.range mb).all fun i => (headerBlocks (hdrOf i)).all (·.raw)) &&
    Config.slhVerify (toDigest (slice h 0x20 32)) h (read 0x100 7856) &&
    treeRoot 32 ((List.range n).map leaf) == slice h 0x40 32 &&
    read 0x2000 (32 * n) == ((List.range n).map leaf).flatten

/-- The last unsealed page of a model is sealed here: the manifest has to hold. Pages that other heats of the function are
about to seal count as sealed. -/
def State.sealsModels (s : State) (fn : FnId) (slot : Fin 32) (pages : List Nat) : Bool :=
  (s.modelsOf fn).all fun m => match s.models[m] with
    | none => true
    | some x =>
      let f := s.fns[fn]
      let mine := fun (num : Nat) => x.base / 65536 ≤ num && num < x.base / 65536 + 32 * x.spans
      x.ready || !(pages.any mine) || !((f.pages.filter fun p => mine p.num).all fun p =>
          p.sealed_ || (List.finRange 32).any fun i => f.sealedFor i p) || s.manifestOk fn slot x

/-! ### LOAD_BILLETS, SEAL_PAGES, READ_OUT (R150, R224, R399) -/

/-- A page that is POISONED: a poisoned line, or a sealed page without any good copy (R222, R241). -/
def Page.poisoned (p : Page) : Bool := !p.bad.isEmpty || (p.sealed_ && !p.t1 && !p.t2)

/-- A write to a billet of a ready model: accepted only where its leaf equals the stored one (R399). Swage's failure stays noted
(R168). -/
def State.refetchBillet (s : State) (x : Model) (off : Nat) (hdr stored : List Byte) : Except Status State :=
  let h := s.manifest x 256
  let mb := u h 0x10 4
  let i := off / 65536 - mb
  let g := x.publisher
  let a := x.base + off
  if off / 65536 < mb || Memory.read s.ram (ramKey g (x.base + 0x2000 + 32 * i)) 32 != modelLeaf off hdr stored then .error .integrity
  else
    let s := { s with ram := Memory.write (Memory.write s.ram (ramKey g a) (fit 65536 stored)) (ramKey g (headerAddr a)) (s.tagged g a hdr stored) }
    let room := match (s.fns[g]).page? (a / 65536) with
      | some p => if p.t1 then some (s, p.place, p.staged) else s.t1Room g (a / 65536)
      | none => none
    match room with
    | none => .error .noSpace
    | some (s, place, staged) =>
      let (now, s) := s.stamp
      .ok (((s.modPage g (a / 65536) fun p =>
        { p with bad := [], t1 := true, staged, place, arrived := now, lastRead := now, up := false, t2 := false
                 down := p.homeT2 || p.t2 || p.down, urgent := false, ticket := 0, refetch := false, mover := none }).access g (placeUnits place)).queueMoves g none)

/-- Load one billet: its page whole and its header (Table TIER-2). -/
def State.loadBillet (s : State) (fn : FnId) (slot : Fin 32) (a : Nat) (hdr stored : List Byte) (sealIt : Bool) : Except Status State :=
  match s.pageAt fn a with
  | none => .error .badParam
  | some (g, p) =>
    match s.modelOf g (p.num * 65536) with
    | some (m, off) => match s.models[m] with
      | some x => if x.ready then (s.act fn slot 1).bind fun s => s.refetchBillet x off hdr stored else load g p s
      | none => load g p s
    | none => load g p s
where
  load (g : FnId) (p : Page) (s : State) : Except Status State :=
    if p.num * 65536 != a || g != fn then .error .notPermitted
    else
      match s.takeT1 fn (a / 2097152) with
      | none => .error .noSpace
      | some s =>
        match s.countsAs fn slot 1 fun s => (s.heatWrite fn slot a (fit 65536 stored)).bind fun s => s.heatWrite fn slot (headerAddr a) hdr with
        | .error e => .error e
        | .ok s =>
          let s := s.modPage fn p.num fun p => { p with swageFail := false }
          if sealIt then s.sealPage fn slot p.num else .ok s

/-- The billets of a payload, in address order: the first failure decides. -/
def State.loadPayload (s : State) (fn : FnId) (slot : Fin 32) (sealIt : Bool) : Nat → Nat → List Byte → Except Status State
  | 0, _, pl => if pl.isEmpty then .ok s else .error .badParam
  | n + 1, a, pl =>
    let hdr := pl.take 256
    let num := ((s.pageAt fn a).map fun x => x.2.num).getD (a / 65536)
    if hdr.length < 256 then .error .badParam
    else if !headerOk hdr || headerBillet hdr != num % 2 ^ 32 then .error .integrity
    else
      let len := 512 * ceilDiv (headerStored hdr) 512
      let body := (pl.drop 256).take len
      if body.length < len || !((body.drop (headerStored hdr)).all (· == 0)) then .error .badParam
      else match s.loadBillet fn slot a hdr body sealIt with
        | .error e => .error e
        | .ok s => s.loadPayload fn slot sealIt n (a + 65536) (pl.drop (256 + len))

def loadBillets (k : Cmd) (s : State) : State :=
  let a := u k.p 0 8
  let n := u k.p 8 4
  let sealIt := bit (u k.p 12 1) 0
  checked .loadBillets k (zeroOutside k.p 32 [(0, 13)] && u k.p 12 1 < 2 && a % 65536 == 0 && 1 ≤ n && n ≤ 256 && a < indexBase) 0
    (inHeat .loadBillets k · fun slot s =>
      let f := s.fns[k.fn]
      let at_ := fun i => s.pageAt k.fn (a + 65536 * i)
      if !((List.range n).all fun i => f.roleOf (a + 65536 * i) == some .billets) then .error (.badParam, false)
      else if (List.range n).any (fun i => match at_ i with
          | some (_, p) => f.sealedFor slot p && !p.poisoned
          | none => true) then .error (.notPermitted, false)
      else match s.loadPayload k.fn slot sealIt n a k.payload with
        | .error e => .error (e, e == .busy)
        | .ok s =>
          if sealIt && !s.sealsModels k.fn slot ((List.range n).map (a / 65536 + ·)) then .error (.integrity, false)
          else .ok (s, 0, [])) s

def execLoadBillets (k : Cmd) (s : State) : Res :=
  match hostCmd .loadBillets k (loadBillets k) s with
  | .next s => .next (s.pumpFn k.fn)
  | o => o

/-- A BILLETS page holds a billet that keeps R149 and names it. -/
def State.holdsBillet (s : State) (fn : FnId) (slot : Fin 32) (num : Nat) : Bool :=
  let hdr := s.readRange fn (some slot) (headerAddr (num * 65536)) 256
  headerOk hdr && headerBillet hdr == num % 2 ^ 32

/-- The pages that are not yet sealed, as the heat sees them. -/
def State.toSeal (s : State) (fn : FnId) (slot : Fin 32) (nums : List Nat) : List Nat :=
  nums.filter fun i => match s.pageAt fn (65536 * i) with
    | some (_, p) => !(s.fns[fn]).sealedFor slot p
    | none => false

/-- Seal the listed pages in a heat: each is DATA or BILLETS, none POISONED, and a billet holds one that keeps R149. -/
def State.sealAll (s : State) (fn : FnId) (slot : Fin 32) (nums : List Nat) : Except (Status × Bool) State :=
  let f := s.fns[fn]
  if !(nums.all fun i => f.roleOf (65536 * i) == some .data || f.roleOf (65536 * i) == some .billets) then .error (.badParam, false)
  else if nums.any (fun i => match s.pageAt fn (65536 * i) with
      | some (_, p) => p.poisoned
      | none => false) then .error (.integrity, false)
  else
    let todo := s.toSeal fn slot nums
    if todo.any fun i => f.roleOf (65536 * i) == some .billets && !s.holdsBillet fn slot i then .error (.integrity, false)
    else match foldE (fun (s : State) i => s.sealPage fn slot i) todo s with
      | .error e => .error (e, e == .busy)
      | .ok s => if s.sealsModels fn slot todo then .ok s else .error (.integrity, false)

def sealPages (k : Cmd) (s : State) : State :=
  let a := u k.p 0 8
  let n := u k.p 8 4
  checked .sealPages k (plain k [(0, 12)] && a % 65536 == 0 && 1 ≤ n && n ≤ 4096 && a < indexBase) 0
    (inHeat .sealPages k · fun slot s => (s.sealAll k.fn slot ((List.range n).map (a / 65536 + ·))).map fun s => (s, 0, [])) s

def execSealPages (k : Cmd) (s : State) : Res := hostCmd .sealPages k (sealPages k) s

/-- The bytes of a Range run as a heat sees them, its edits of the KV tables among them (R18, R289). -/
def State.readView (s : State) (fn : FnId) (slot : Fin 32) (a n : Nat) : List Byte :=
  ({ s with fns := s.fns.set fn (s.fnView fn (some slot)) } : State).readRange fn (some slot) a n

/-- A lost header line or list unit lies in the run (Table TIER-5). -/
def Fn.lostIn (f : Fn) (a n : Nat) : Bool :=
  (match f.roleBase .kvHeaders with
    | some b => f.hdrs.any fun h => h.lost && a < b + 64 * h.num + 64 && b + 64 * h.num < a + n
    | none => false) ||
  f.seqs.any fun q => q.lost.any fun x => a < x + 256 && x < a + n

/-- A READ_OUT begins: it registers in the epoch, and pins the KV pages that it covers (R207, R209). -/
def State.startRead (s : State) (k : Cmd) (a n : Nat) : State :=
  s.modFn k.fn fun f =>
    if f.readers.any (·.cmd == k) then f
    else
      let pages := ((List.range ((a + n + 65535) / 65536 - a / 65536)).map (a / 65536 + ·)).filter fun p => f.roleOf (65536 * p) == some .kvPages
      { f with readers := f.readers ++ [{ cmd := k, epoch := f.epoch, pages }]
               pages := updateWhere (fun (p : Page) => pages.contains p.num) (fun p => { p with pins := p.pins + 1 }) f.pages }

/-- Pages that a READ_OUT has pinned may enter LIMBO now, and frames be released (R209, R232). -/
def State.afterRead (s : State) (fn : FnId) (a n : Nat) : State :=
  ((List.range ((a + n + 2097151) / 2097152 - a / 2097152)).foldl (fun s i => s.fixFrames fn (a / 2097152 + i)) s).modFn fn Fn.limbo

def readOut (k : Cmd) (s : State) : State :=
  let a := u k.p 0 8
  let n := u k.p 8 4
  checked .readOut k (plain k [(0, 12)] && a % 256 == 0 && n % 256 == 0 && n ≤ 16777216 && a < 2 ^ 48) n
    (fun s =>
      if !(s.fns[k.fn]).mappedRange a n then s.finish .readOut k .badParam
      else
        let (s', out) := (s.startRead k a n).meet k.fn a n {}
        match out with
        | .wait => s'
        | .ends st => (s'.finish .readOut k st).afterRead k.fn a n
        | .fine => (inHeat .readOut k s' fun slot s =>
          if (s.fns[k.fn]).lostIn a n then .error (.integrity, false) else .ok (s, 0, s.readView k.fn slot a n)).afterRead k.fn a n) s

def execReadOut (k : Cmd) (s : State) : Res := hostCmd .readOut k (readOut k) s

/-! ### MIGRATE_HINT (R232, Table TIER-3) -/

/-- A page of a hint: the function that holds it, and its number. -/
abbrev HintPage := FnId × Nat

/-- The pages of KIND 0x01, where each is admitted. -/
def State.hintRange (s : State) (fn : FnId) (action a n : Nat) : Option (List HintPage) :=
  let pages := (List.range n).map fun i => s.pageAt fn (a + 65536 * i)
  let ok := fun (o : Option (FnId × Page)) => match o with
    | some (g, p) => match (s.fns[g]).roleOf (p.num * 65536) with
      | some r => r.far && p.sealed_ && !p.poisoned && !(action == 3 && r == .retrieval)
      | none => false
    | none => false
  if pages.all ok then some (pages.filterMap fun o => o.map fun x => (x.1, x.2.num)) else none

/-- The pages of KIND 0x02; PARK seals every full OPEN page it covers first. -/
def State.hintSeq (s : State) (fn : FnId) (slot : Fin 32) (action h first count l0 ln : Nat) : Except Status (State × List HintPage) :=
  let f := s.fns[fn]
  match f.seq? h with
  | none => .error .badParam
  | some q =>
    if ln = 0 || l0 < q.layerFirst || q.layerFirst + q.layers < l0 + ln then .error .badParam
    else if f.seqLost q then .error .integrity
    else
      let es := q.entries.filter fun e => l0 ≤ e.layer && e.layer < l0 + ln && first ≤ e.lpage && e.lpage < first + count && !e.dropped
      let base := (f.roleBase .kvPages).getD 0 / 65536
      let full := if action = 2 then (es.filter fun e => match f.hdr? e.page with
          | some x => x.state == .open_ && x.filled == 64
          | none => false).map (·.page) else []
      match foldE (fun (s : State) n => (s.sealPage fn slot (base + n)).map fun s => s.edit fn slot (.kvState n .sealed_)) full.eraseDups s with
      | .error e => .error e
      | .ok s => .ok (s, ((es.filter fun e => match f.hdr? e.page with
          | some x => x.state == .sealed_ || full.contains e.page
          | none => false).map fun e => (fn, base + e.page)).eraseDups)

/-- A unit instruction whose rows lie in a frame reads them from another frame of the same group. -/
def moveRows (old new : Nat) (w : BitVec 256) : BitVec 256 :=
  if uOp w = 1 && (t2At (uAddr w)).1 = old then
    BitVec.ofNat 256 (w.toNat % 2 ^ 32 + (uF w 4 4 + new * 2048 - old * 2048) * 2 ^ 32 + w.toNat / 2 ^ 64 * 2 ^ 64)
  else w

/-- Installed unit programs name rows of a T2 frame. -/
def State.progNames (s : State) (frame : Nat) : Bool :=
  s.plinths.toList.any fun (p : Plinth) => p.progs.any fun g => g.instrs.any fun w => uOp w == 1 && (t2At (uAddr w)).1 == frame

/-- A retired frame of a span is replaced. Where unit programs name it, the fresh frame lies in the same group, and their rows
follow it (R265, R279; DESIGN CHOICE, log 56). -/
def State.replaceT2 (s : State) (use : FrameUse) (scans : Bool) (old : Nat) : Option State :=
  let s := s.freeT2 use
  if !s.progNames old then s.allocT2One use scans
  else
    let used := s.t2.map (·.num)
    (((List.range 2048).map fun i => old % 48 + 48 * i).find? fun n => s.t2Ok scans n && !used.contains n).map fun n =>
      let move := fun (p : Plinth) => ({ p with progs := p.progs.map fun g => { g with instrs := g.instrs.map (moveRows old n) } } : Plinth)
      { s with t2 := insertFrame ⟨n, use⟩ s.t2, plinths := s.plinths.map move }

/-- The T2 frame of a page's span, taken where it holds none. A retired frame is replaced by a fresh one, to which the
span's other copies move (R279; DESIGN CHOICE, log 56). -/
def State.needT2 (s : State) (x : HintPage) : Option State :=
  let use := s.spanUse x.1 (x.2 / 32)
  let scans := (s.fns[x.1]).roleOf (x.2 * 65536) == some .retrieval
  match s.t2.find? (·.use == use) with
  | some fr => if s.retired.contains fr.num then s.replaceT2 use scans fr.num else some s
  | none => s.allocT2 x.1 use scans

/-- Manifest billets of a ready model are never parked (R398). -/
def State.isManifest (s : State) (x : HintPage) : Bool :=
  match s.modelOf x.1 (x.2 * 65536) with
  | some (m, off) => match s.models[m] with
    | some y => y.ready && off / 65536 < u (s.manifest y 256) 0x10 4
    | none => false
  | none => false

/-- A hint of a function begins a fetch, or a copy to T2, that is not under way. -/
def Page.fetchFor (fn : FnId) (p : Page) : Page := if p.t1 || p.up then p else { p with up := true, waits := [], mover := some fn }
def Page.copyFor (fn : FnId) (p : Page) : Page := if p.t2 || p.down then p else { p with down := true, mover := some fn }

/-- The action on one page for a function; none without the frame it takes. -/
def State.hintPage (s : State) (fn : FnId) (action : Nat) (x : HintPage) : Option State :=
  match action with
  | 1 => some (s.modPage x.1 x.2 (Page.fetchFor fn))
  | 2 => if s.isManifest x then some s else (s.needT2 x).map fun s => s.modPage x.1 x.2 fun p => p.copyFor fn |> fun p => { p with homeT2 := true, dropT1 := p.t1 }
  | 3 => (s.takeT1 x.1 (x.2 / 32)).map fun s => s.modPage x.1 x.2 fun p => p.fetchFor fn |> fun p => { p with homeT2 := false, dropT1 := false }
  | _ => (s.needT2 x).map fun s => s.modPage x.1 x.2 (Page.copyFor fn)

/-- The pages of the hint's spans have changed home: their frames follow. -/
def State.fixHinted (s : State) (l : List HintPage) : State :=
  ((l.map fun x => (x.1, x.2 / 32)).eraseDups).foldl (fun s x => (s.fixFrames x.1 x.2).fixStaging x.1) s

/-- Frames follow the homes that a hint has changed (R226). -/
def State.afterHint (s : State) (fn : FnId) : State :=
  let gs := ((s.fns[fn]).spans.filterMap fun x => x.model.bind fun m => (s.models[m]).map (·.publisher))
  (fn :: gs).eraseDups.foldl (fun s g => s.fixHinted (((s.fns[g]).pages.filter fun p => p.num < indexBase / 65536).map fun p => (g, p.num))) s

/-- The parameters of MIGRATE_HINT are in order (Table TIER-3). -/
def hintOk (k : Cmd) : Bool :=
  let action := u k.p 0 1
  let kind := u k.p 1 1
  let n := u k.p 0x10 4
  plain k [(0, 2), (8, 16), (24, 4)] && 1 ≤ action && action ≤ 4 && (kind == 1 || kind == 2) && 1 ≤ n &&
    (if kind == 1 then u k.p 8 8 % 65536 == 0 && u k.p 0x14 8 == 0 && u k.p 8 8 + 65536 * n ≤ indexBase else u k.p 12 4 == 0)

/-- The pages that a hint names: of KIND 0x01 by address, of KIND 0x02 by sequence. -/
def State.hintNamed (s : State) (k : Cmd) (slot : Fin 32) : Except Status (State × List HintPage) :=
  let action := u k.p 0 1
  let n := u k.p 0x10 4
  if u k.p 1 1 == 1 then match s.hintRange k.fn action (u k.p 8 8) n with
    | some l => .ok (s, l)
    | none => .error .badParam
  else s.hintSeq k.fn slot action (u k.p 8 4) (u k.p 0x18 4) n (u k.p 0x14 2) (u k.p 0x16 2)

/-- The action on every page of a hint, whose transfers take their turns in its order; none without the frames it takes. -/
def State.hintPages (s : State) (fn : FnId) (action : Nat) (l : List HintPage) : Option State :=
  l.foldl (fun (o : Option State) x => o.bind fun s => (s.hintPage fn action x).map fun s => s.queueMoves x.1 (some fn)) (some s)

def migrateHint (k : Cmd) (s : State) : State :=
  checked .migrateHint k (hintOk k) 0 (fun s => (inHeat .migrateHint k s fun slot s =>
      match s.hintNamed k slot with
      | .error e => .error (e, false)
      | .ok (s, l) => match s.hintPages k.fn (u k.p 0 1) l with
        | none => .error (.noSpace, false)
        | some s => .ok (s, 0, [])).afterHint k.fn) s

def execMigratePrefetch (k : Cmd) (s : State) : Res := hostCmd .migrateHint k (migrateHint k) s
def execPark (k : Cmd) (s : State) : Res := hostCmd .migrateHint k (fun s => migrateHint k s) s
def execPromote (k : Cmd) (s : State) : Res := hostCmd .migrateHint k (migrateHint k) s
def execMigrateCopy (k : Cmd) (s : State) : Res := hostCmd .migrateHint k (fun s => migrateHint k s) s

/-! ### Copies between the tiers (R228 to R234) -/

/-- Bytes that travel for a page: its stored blocks (R159). -/
def State.travels (s : State) (g : FnId) (num : Nat) : Nat :=
  headerStored (Memory.read s.ram (ramKey g (headerAddr (num * 65536))) 256)

/-- The Plinth that holds a T2 frame, with its link up. -/
def State.t2Linked (s : State) (g : FnId) (num : Nat) : Bool :=
  match s.t2Frame g (num * 65536) with
  | some fr => (s.plinths[(Fin.ofNat 8 fr : Fin 8)]).linkUp
  | none => false

/-- A page that is being fetched, at its turn on the link, has its whole T1 copy: in its span's frame, or in a staging frame
(R229, R231). -/
def State.arrive (s : State) (g : FnId) (num : Nat) (tagOk : Bool) : State :=
  match (s.fns[g]).page? num with
  | none => s
  | some p =>
    if !p.up || p.t1 || !p.t2 || !s.t2Linked g num then s
    else if !s.myTurn g num then s.queueTransfer g num
    else if !tagOk then (s.ueT2 g (num * 65536) true).1
    else match s.t1Room g num with
      | none => s
      | some (s, place, staged) =>
        let (now, s) := s.stamp
        let s := s.modPage g num fun p => { p with t1 := true, up := false, staged, place, arrived := now, lastRead := now
                                                   urgent := false, ticket := 0, refetch := false, mover := none }
        let s := s.access (p.payer g) (placeUnits place)
        (({ s with migr := { s.migr with up := s.migr.up + s.travels g num } } : State).modFn g Fn.limbo).queueMoves g none

/-- A sealed page has its T2 copy, at its turn on the link; a T1 copy that PARK gives up goes once no pin holds it. -/
def State.copied (s : State) (g : FnId) (num : Nat) : State :=
  match (s.fns[g]).page? num with
  | none => s
  | some p =>
    if !p.down || !p.t1 || !p.sealed_ || !p.bad.isEmpty then s
    else match s.needT2 (g, num) with
      | none => s
      | some s =>
        if !s.t2Linked g num then s
        else if !s.myTurn g num then s.queueTransfer g num
        else
          let s := s.access (p.payer g) (s.t1Units g (num * 65536) 65536)
          let s := { s with migr := { s.migr with down := s.migr.down + s.travels g num } }
          let s := s.modPage g num fun p =>
            let p := { p with t2 := true, down := false, urgent := false, ticket := 0, mover := none }
            if p.dropT1 && p.pins == 0 then { p with t1 := false, staged := false, dropT1 := false } else p
          ((s.fixFrames g (num / 32)).fixStaging g).modFn g Fn.limbo

def execBilletArrival (fn : FnId) (addr : BitVec 48) (s : State) : Res :=
  .next (match s.pageAt fn addr.toNat with
    | some (g, p) => (((s.queueMoves g none).arrive g p.num true).pumpAll).settle
    | none => s)

def execMigrationCopyComplete (fn : FnId) (addr : BitVec 48) (tagOk : Bool) (s : State) : Res :=
  .next (match s.pageAt fn addr.toNat with
    | some (g, p) => ((if p.up then (s.queueMoves g none).arrive g p.num tagOk else (s.queueMoves g none).copied g p.num).pumpAll).settle
    | none => s)

end Sys2Proof.Machine
end

