-- ==== Sys2Proof/Machine/Kv.lean ====
section
/-! DEFINITION. The KV commands, prefix sharing, epochs and the drop policy (R201 to R217). -/

namespace Sys2Proof.Machine

/-! ### The pool as the commands see it -/

/-- The four KV roles are mapped, with a header for each page (R225). -/
def Fn.poolMapped (f : Fn) : Bool :=
  [Role.kvPages, .kvHeaders, .kvLists, .kvPrefix].all (fun r => (f.roleBase r).isSome) && 64 * f.kvPages ≤ f.roleBytes .kvHeaders

/-- The token area of a sequence lies wholly in spans of role DATA (R205). -/
def Fn.tokenArea (f : Fn) (base maxPages : Nat) : Bool :=
  let n := 256 * maxPages
  (List.range ((base + n - 1) / 2097152 - base / 2097152 + 1)).all fun i => f.roleOf ((base / 2097152 + i) * 2097152) == some .data

/-- A session slot of a running or queued step binds the sequence. -/
def Fn.bound (f : Fn) (handle : Nat) : Bool :=
  f.moulds.any fun m => m.queue.any (fun c => c.bindings.contains handle) || match m.run with
    | some r => r.bindings.contains handle
    | none => false

/-- Sequences of the function, those that open heats have created among them. -/
def Fn.allSeqs (f : Fn) : List Seq :=
  f.seqs ++ ((List.finRange 32).map fun i => match f.slots[i] with
    | some h => if h.state == .committed then [] else h.edits.filterMap fun e => match e with
      | .newSeq q => some q
      | _ => none
    | none => []).flatten

/-- First place of `n` bytes from `a` on that no list of `l`, ascending, takes. -/
def fitGap (n : Nat) : List (Nat × Nat) → Nat → Nat
  | [], a => a
  | x :: xs, a => if a + n ≤ x.1 then a else fitGap n xs (max a (x.1 + x.2))

/-- LIST_BASE of a new sequence: the lowest place in the list region (DESIGN CHOICE, log 58). -/
def Fn.placeList (f : Fn) (n : Nat) : Option Nat :=
  match f.roleBase .kvLists with
  | none => none
  | some b =>
    let used := sortAsc (fun (x : Nat × Nat) => x.1) (f.allSeqs.map fun q => (q.listBase, q.listBytes))
    let a := fitGap n used b
    if a + n ≤ b + f.roleBytes .kvLists then some a else none

/-- List units, of 64 logical pages of one layer and group, that hold an entry. -/
def listUnits (es : List ListEntry) : Nat := ((es.map fun e => (e.layer, e.group, e.lpage / 64)).eraseDups).length

/-- A page of this chip, and not REMOTE (R204). -/
def ListEntry.here (e : ListEntry) (f : Fn) : Bool := !e.dropped && e.page < f.kvPages

/-- Net deltas of REF over the pages of entries. -/
def State.refs (s : State) (fn : FnId) (slot : Fin 32) (es : List ListEntry) (d : Int) : State :=
  es.foldl (fun s e => if e.here (s.fns[fn]) then s.edit fn slot (.delta e.page d) else s) s

/-- A new sequence enters a heat: its handle and its list. -/
def State.newSeq (s : State) (fn : FnId) (slot : Fin 32) (q : Seq) : Except (Status × Bool) (State × Nat) :=
  let f := s.fns[fn]
  if 65536 ≤ f.allSeqs.length || 2 ^ 32 - 1 ≤ f.nextHandle then .error (.noSpace, false)
  else match f.placeList q.listBytes with
    | none => .error (.noSpace, false)
    | some b =>
      let s := s.modFn fn fun f => { f with nextHandle := f.nextHandle + 1 }
      .ok (s.edit fn slot (.newSeq { q with handle := f.nextHandle, listBase := b }), f.nextHandle)

/-- The sequence that KV_ALLOC_SEQ describes, before its handle and its list are given. -/
def allocSeq (k : Cmd) : Seq :=
  { handle := 0, namespace_ := u k.p 0 8, tokenBase := u k.p 8 8, maxPages := u k.p 0x10 4, layerFirst := u k.p 0x14 2
    layers := u k.p 0x16 2, groups := u k.p 0x18 1, priority := u k.p 0x19 1, order := u k.p 0x1A 1 }

/-- The parameters of KV_ALLOC_SEQ are in order (R205). -/
def allocSeqOk (k : Cmd) : Bool :=
  let q := allocSeq k
  plain k [(0, 27)] && q.tokenBase % 256 == 0 && 64 ≤ q.maxPages && q.maxPages ≤ 2 ^ 24 && q.maxPages % 64 == 0 && 1 ≤ q.layers &&
    1 ≤ q.groups && q.groups ≤ 16 && q.order < 2

def kvAllocSeq (k : Cmd) (s : State) : State :=
  let q := allocSeq k
  checked .kvAllocSeq k (allocSeqOk k) 0 (inHeat .kvAllocSeq k · fun slot s =>
    if !((s.fns[k.fn]).poolMapped && (s.fns[k.fn]).tokenArea q.tokenBase q.maxPages) then .error (.badParam, false)
    else (s.newSeq k.fn slot q).map fun x => (x.1, x.2, [])) s

def execKvAllocSeq (k : Cmd) (s : State) : Res := hostCmd .kvAllocSeq k (kvAllocSeq k) s

/-- A command that reads KV registers in the epoch for its heat, and pins the prefix nodes that it has hit (R209, R211). -/
def State.noteLookup (s : State) (fn : FnId) (slot : Fin 32) (nodes : List Nat) : State :=
  s.modHeat fn slot fun h => { h with lookups := h.lookups ++ [((s.fns[fn]).epoch, nodes)] }

/-- KV_FORK: the child shares the pages, and has its own token identifiers (R205). Logical pages that the source has
dropped stay dropped in the child (DEDUCED, log 59). -/
def kvFork (k : Cmd) (s : State) : State :=
  let base := u k.p 0x10 8
  checked .kvFork k (plain k [(0, 10), (16, 8)] && u k.p 9 1 < 2) 0 (inHeat .kvFork k · fun slot s =>
    let v := s.fnView k.fn (some slot)
    match v.seq? (u k.p 0 4) with
    | none => .error (.badParam, false)
    | some q =>
      let n := if u k.p 4 4 = 0xFFFFFFFF then q.length else u k.p 4 4
      if q.length < n || !v.tokenArea base q.maxPages then .error (.badParam, false)
      else if v.seqLost q || s.poisonedIn k.fn q.tokenBase (4 * n) (some slot) then .error (.integrity, false)
      else if v.bound q.handle then .error (.busy, false)
      else
        let es := q.entries.filter fun e => e.lpage < ceilDiv n 64
        match s.newSeq k.fn slot { q with tokenBase := base, priority := u k.p 8 1, order := u k.p 9 1, length := n, entries := es, lastStep := 0, lost := [] } with
        | .error e => .error e
        | .ok (s, h) =>
          let cost := q.layers * q.groups * ceilDiv (ceilDiv n 64) 64 + ceilDiv (4 * n) 2097152
          match s.countsAs k.fn slot cost fun s => s.heatWrite k.fn slot base (s.readRange k.fn (some slot) q.tokenBase (4 * n)) with
          | .error e => .error (e, e == .busy)
          | .ok s => .ok ((s.refs k.fn slot es 1).noteLookup k.fn slot [], h, [])) s

def execKvFork (k : Cmd) (s : State) : Res := hostCmd .kvFork k (kvFork k) s

/-- The entries of a sequence whose references a free gives up: of this chip, in no lost list unit, with their header
(Table TIER-5). -/
def Seq.freed (q : Seq) (v : Fn) : List ListEntry :=
  let unit := fun (e : ListEntry) => (q.listBase + (((e.layer - q.layerFirst) * q.groups + e.group) * q.maxPages + e.lpage) * 4) / 256 * 256
  q.entries.filter fun e => e.here v && !q.lost.contains (unit e) && match v.hdr? e.page with
    | some h => !h.lost
    | none => false

/-- KV_FREE_SEQ, which reads no lost entry (Table TIER-5). -/
def kvFreeSeq (k : Cmd) (s : State) : State :=
  checked .kvFreeSeq k (plain k [(0, 4)]) 0 (inHeat .kvFreeSeq k · fun slot s =>
    let v := s.fnView k.fn (some slot)
    match v.seq? (u k.p 0 4) with
    | none => .error (.badParam, false)
    | some q =>
      if v.bound q.handle then .error (.busy, false)
      else match s.act k.fn slot (listUnits (q.freed v)) with
        | .error e => .error (e, false)
        | .ok s => .ok ((s.refs k.fn slot (q.freed v) (-1)).edit k.fn slot (.freeSeq q.handle), 0, [])) s

def execKvFreeSeq (k : Cmd) (s : State) : Res := hostCmd .kvFreeSeq k (kvFreeSeq k) s

/-! ### Prefix sharing (R212 to R214) -/

/-- The chain hash of a block, as the number of its 8 bytes. -/
def chainHash (prev : Nat) (tokens : List Byte) : Nat := leNat ((digestBytes (sha256 (toLe 8 prev ++ tokens))).take 8)

def Node.key (n : Node) (hash : Nat) (parent : Option Nat) : Bool := n.hash == hash && n.parent == parent

/-- The token identifiers of a block. -/
def blockTokens (bs : List Byte) : List Nat := (List.range 64).map fun i => u bs (4 * i) 4

/-- The node holds a page for each layer and group of the sequence, and for no other. -/
def Node.fits (n : Node) (q : Seq) : Bool := n.pages.length == q.layers * q.groups && n.pages.all fun e => q.holds e.layer e.group

/-- Walk from the root: the nodes matched, and the block at which a hash hit failed its confirmation. -/
def walkPrefix (nodes : List Node) (q : Seq) (tokens : Nat → List Byte) : Nat → Nat → Nat → Option Nat → List Node × Option Nat
  | 0, _, _, _ => ([], none)
  | fuel + 1, j, prev, parent =>
    let bs := tokens j
    let h := chainHash prev bs
    match nodes.find? fun n => n.key h parent && n.fits q with
    | none => ([], none)
    | some n =>
      if n.tokens != blockTokens bs then ([], some j)
      else
        let r := walkPrefix nodes q tokens fuel (j + 1) h (some n.id)
        (n :: r.1, r.2)

/-- A poisoned line of the prefix region leaves its nodes unknown: the prefix commands end with INTEGRITY (log 60). -/
def State.prefixLost (s : State) (fn : FnId) : Bool :=
  (s.fns[fn]).pages.any fun p => !p.bad.isEmpty && (s.fns[fn]).roleOf (p.num * 65536) == some .kvPrefix

/-- A hash hit that its tokens do not confirm is reported (R213). -/
def State.noteClash (s : State) (fn : FnId) (q : Seq) : Option Nat → State
  | some j => s.log 0x0401 (some fn) 0 (toLe 4 q.handle ++ toLe 4 j)
  | none => s

/-- The nodes that a lookup finds for a sequence: matched from the root, with the block of a failed confirmation. -/
def State.prefixHits (s : State) (fn : FnId) (slot : Fin 32) (q : Seq) (n : Nat) : List Node × Option Nat :=
  walkPrefix (s.fnView fn (some slot)).nodes q (fun j => s.readRange fn (some slot) (q.tokenBase + 256 * j) 256) (n / 64) 0
    q.namespace_ none

/-- A sequence takes the pages of the nodes it hit (R213). -/
def State.takePrefix (s : State) (fn : FnId) (slot : Fin 32) (q : Seq) (hit : List Node) : State :=
  let ids := hit.map (·.id)
  let s := s.modFn fn fun f => { f with nodes := updateWhere (fun (x : Node) => ids.contains x.id) (fun x => { x with lastHit := f.nextHeat }) f.nodes }
  let es := (hit.zipIdx.map fun x => x.1.pages.map fun e => ({ e with lpage := x.2, dropped := false } : ListEntry)).flatten
  let s := es.foldl (fun s e => s.edit fn slot (.entry q.handle e.layer e.group e.lpage (some e.page))) s
  ((s.refs fn slot es 1).edit fn slot (.length q.handle (64 * hit.length))).noteLookup fn slot ids

def prefixLookup (k : Cmd) (s : State) : State :=
  checked .prefixLookup k (plain k [(0, 8)]) 0 (inHeat .prefixLookup k · fun slot s =>
    let v := s.fnView k.fn (some slot)
    match v.seq? (u k.p 0 4) with
    | none => .error (.badParam, false)
    | some q =>
      let n := u k.p 4 4
      if q.length != 0 || 64 * q.maxPages < n then .error (.badParam, false)
      else if v.seqLost q || s.prefixLost k.fn || s.poisonedIn k.fn q.tokenBase (4 * n) (some slot) then .error (.integrity, false)
      else if v.bound q.handle then .error (.busy, false)
      else
        let r := s.prefixHits k.fn slot q n
        match (s.noteClash k.fn q r.2).act k.fn slot (q.layers * q.groups * ceilDiv r.1.length 64) with
        | .error e => .error (e, false)
        | .ok s => .ok (s.takePrefix k.fn slot q r.1, r.1.length, [])) s

def execPrefixLookup (k : Cmd) (s : State) : Res := hostCmd .prefixLookup k (prefixLookup k) s

/-- What a publish has done so far: the state, the blocks reached, the nodes created, the list units edited. -/
structure Published where
  s : State
  blocks : Nat := 0
  made : Nat := 0
  units : List Nat := []

/-- Publish block `j` and those after it. -/
def publishBlocks (fn : FnId) (slot : Fin 32) (q : Seq) (cap : Nat) : Nat → Nat → Nat → Option Nat → Published → Except Status Published
  | 0, _, _, _, a => .ok a
  | fuel + 1, j, prev, parent, a =>
    let s := a.s
    let v := s.fnView fn (some slot)
    let bs := s.readRange fn (some slot) (q.tokenBase + 256 * j) 256
    let h := chainHash prev bs
    match v.nodes.find? fun n => n.key h parent && n.tokens == blockTokens bs && n.fits q with
    | some n => publishBlocks fn slot q cap fuel (j + 1) h (some n.id) { a with blocks := a.blocks + 1 }
    | none =>
      let es := q.block j
      let whole := es.length == q.layers * q.groups && es.all fun e => e.here v && match v.hdr? e.page with
        | some x => x.state == .open_ || x.state == .sealed_
        | none => false
      if (v.nodes.any fun n => n.hash == h && n.tokens != blockTokens bs) || cap ≤ v.nodes.length || !whole then .ok a
      else
        let base := (v.roleBase .kvPages).getD 0 / 65536
        let units := q.layers * q.groups
        let fresh := !a.units.contains (j / 64)
        let seals := (es.filter fun e => match v.hdr? e.page with
          | some x => x.state == .open_
          | none => false).map (·.page)
        match s.act fn slot (if fresh then units else 0) with
        | .error e => .error e
        | .ok s => match foldE (fun (s : State) n => (s.sealPage fn slot (base + n)).map fun s => s.edit fn slot (.kvState n .sealed_)) seals s with
          | .error e => .error e
          | .ok s =>
            let id := (s.fns[fn]).nextNode
            let s := s.modFn fn fun f => { f with nextNode := f.nextNode + 1 }
            let s := s.edit fn slot (.newNode { hash := h, parent, id, tokens := blockTokens bs, pages := es, lastHit := (s.fns[fn]).nextHeat })
            let s := es.foldl (fun s e => (s.edit fn slot (.delta e.page 1)).edit fn slot (.publish e.page h)) s
            publishBlocks fn slot q cap fuel (j + 1) h (some id)
              { s, blocks := a.blocks + 1, made := a.made + 1, units := if fresh then a.units ++ [j / 64] else a.units }

def prefixPublish (k : Cmd) (s : State) : State :=
  checked .prefixPublish k (plain k [(0, 8)]) 0 (inHeat .prefixPublish k · fun slot s =>
    let v := s.fnView k.fn (some slot)
    match v.seq? (u k.p 0 4) with
    | none => .error (.badParam, false)
    | some q =>
      let n := u k.p 4 4
      if q.length / 64 < n then .error (.badParam, false)
      else if v.seqLost q || s.prefixLost k.fn || s.poisonedIn k.fn q.tokenBase (256 * n) (some slot) then .error (.integrity, false)
      else if v.bound q.handle then .error (.busy, false)
      else match publishBlocks k.fn slot q (Config.prefixNodes (v.roleBytes .kvPrefix)) n 0 q.namespace_ none { s } with
        | .error e => .error (e, e == .busy)
        | .ok a => .ok (a.s, min a.blocks 65535 * 65536 + min a.made 65535, [])) s

def execPrefixPublish (k : Cmd) (s : State) : Res := hostCmd .prefixPublish k (prefixPublish k) s

/-! ### Drops (R205, R215) -/

/-- Drop a candidate block in a heat: one action per page, one per list unit not edited before. -/
def State.dropIn (s : State) (fn : FnId) (slot : Fin 32) (q : Seq) (j : Nat) (fresh : Bool) : Except Status State :=
  match s.act fn slot ((q.block j).length + if fresh then q.layers * q.groups else 0) with
  | .error e => .error e
  | .ok s => .ok ((s.edit fn slot (.drop q.handle j)).dropLab fn fun l => l.seq == q.handle && l.lpage == j)

/-- The parameters of KV_DROP are in order: a run of logical pages, or a policy (R215). -/
def kvDropOk (k : Cmd) : Bool :=
  plain k [(0, 16)] && u k.p 7 1 == 0 && (if u k.p 4 1 = 0 then u k.p 5 2 == 0 else u k.p 4 1 == 1 && u k.p 6 1 < 2 && u k.p 8 8 == 0)

/-- The logical pages of a run that are drop candidates (R215). -/
def Fn.candidates (v : Fn) (q : Seq) (first n : Nat) : List Nat :=
  ((q.entries.map (·.lpage)).eraseDups).filter fun j => first ≤ j && j < first + n && v.candidate q j

/-- Drop logical pages in a heat, in their order; a list unit is counted once. -/
def State.dropAll (s : State) (fn : FnId) (slot : Fin 32) (q : Seq) (js : List Nat) : Except Status State :=
  (foldE (fun (a : State × List Nat) j =>
    (a.1.dropIn fn slot q j (!a.2.contains (j / 64))).map fun s => (s, a.2 ++ [j / 64])) (sortAsc id js) (s, [])).map (·.1)

def kvDrop (k : Cmd) (s : State) : State :=
  checked .kvDrop k (kvDropOk k) 0 (inHeat .kvDrop k · fun slot s =>
    let v := s.fnView k.fn (some slot)
    match v.seq? (u k.p 0 4) with
    | none => .error (.badParam, false)
    | some q =>
      if v.seqLost q then .error (.integrity, false)
      else if u k.p 4 1 = 1 then .ok (s.edit k.fn slot (.policy q.handle (u k.p 5 1) (u k.p 6 1)), 0, [])
      else
        let js := v.candidates q (u k.p 8 4) (u k.p 12 4)
        match s.dropAll k.fn slot q js with
        | .error e => .error (e, false)
        | .ok s => .ok (s, js.length, [])) s

def execKvDrop (k : Cmd) (s : State) : Res := hostCmd .kvDrop k (kvDrop k) s
def execKvDropSetPolicy (k : Cmd) (s : State) : Res := hostCmd .kvDrop k (fun s => kvDrop k s) s

/-! ### Epochs (R209) -/

/-- Something registered in an epoch before `e` is still active: a step, a command that reads KV and the heat that it joined, or
a prefetch entry that holds its pages. -/
def Fn.registeredBefore (f : Fn) (e : Nat) : Bool :=
  (f.regs.any (·.epoch < e)) || f.readers.any (·.epoch < e) || (f.slots.toList.any fun x => match x with
    | some h => h.state != HeatState.committed && h.lookups.any (·.1 < e)
    | none => false) || f.moulds.any fun m =>
    let live := fun (x : Fetch) => !x.pinned.isEmpty && x.epoch < e
    m.carried.any live || match m.run with
      | some r => r.fetches.any live
      | none => false

/-- Reclaim a LIMBO page: FREE, OPEN again, its T2 copy released. One whose span needs a T1 frame that is not there waits
(DESIGN CHOICE, log 61). -/
def State.reclaim (s : State) (fn : FnId) (n : Nat) : State :=
  let num := ((s.fns[fn]).roleBase .kvPages).getD 0 / 65536 + n
  match s.reopenPage fn num with
  | none => s
  | some s => s.modFn fn fun f => { f with hdrs := f.hdrs.filter (·.num != n) }

def epochAdvance (fn : FnId) (s : State) : State :=
  let f := s.fns[fn]
  if f.registeredBefore f.epoch then s
  else
    let due := (f.hdrs.filter fun h => h.state == .limbo && h.epoch + 2 ≤ f.epoch + 1 && !h.lost).map (·.num)
    due.foldl (fun s n => s.reclaim fn n) (s.modFn fn fun f => { f with epoch := f.epoch + 1 })

def execEpochAdvance (fn : FnId) (s : State) : Res := .next ((epochAdvance fn s).pumpFn fn).settle

/-! ### The drop policy (R216) -/

/-- Pages in LIMBO and FREE once the heat in a slot commits. -/
def State.roomWith (s : State) (fn : FnId) (slot : Fin 32) : Nat :=
  let f := (s.fnView fn (some slot)).limbo
  f.freeKv + (f.hdrs.filter fun h => h.state == .limbo).length

/-- A lookup of a heat that has not committed pins the node (R211). -/
def Fn.nodePinned (f : Fn) (id : Nat) : Bool := f.slots.toList.any fun x => match x with
  | some h => h.state != HeatState.committed && h.lookups.any (·.2.contains id)
  | none => false

/-- The unpinned leaf node, least recently hit first, whose removal brings a page's REF to 0. -/
def Fn.leafToEvict (f : Fn) : Option Node :=
  let ok := fun (n : Node) => !(f.nodes.any fun m => m.parent == some n.id) && !f.nodePinned n.id && n.pages.any fun e => match f.hdr? e.page with
    | some h => f.refOf h == 1 && !h.lost
    | none => false
  (sortAsc (fun (n : Node) => n.lastHit) (f.nodes.filter ok)).head?

/-- Evict nodes until there is room for `want` pages: the state and the nodes evicted. -/
def State.evictNodes (s : State) (fn : FnId) (slot : Fin 32) (want : Nat) : Nat → State × Nat
  | 0 => (s, 0)
  | fuel + 1 =>
    if want ≤ s.roomWith fn slot then (s, 0)
    else match (s.fnView fn (some slot)).leafToEvict with
      | none => (s, 0)
      | some n => match s.act fn slot (listUnits n.pages) with
        | .error _ => (s, 0)
        | .ok s' =>
          let s' := (n.pages.foldl (fun s e => s.edit fn slot (.delta e.page (-1))) s').edit fn slot (.dropNode n.id)
          let r := s'.evictNodes fn slot want fuel
          (r.1, r.2 + 1)

/-- Candidates in the order of the policy. -/
def Fn.dropOrder (f : Fn) : List (Seq × Nat) :=
  let seqs := sortAsc (fun (q : Seq) => q.priority) (sortAsc (fun (q : Seq) => q.lastStep) (f.seqs.filter fun q => 1 ≤ q.priority && !f.seqLost q))
  (seqs.map fun q =>
    let js := sortAsc id ((q.entries.map (·.lpage)).eraseDups)
    (if q.order = 0 then js else js.reverse).map fun j => (q, j)).flatten

/-- Drop candidates until there is room for `want` pages, each list unit counted once in the heat: the state and the pages
dropped. -/
def State.dropBlocks (s : State) (fn : FnId) (slot : Fin 32) (want : Nat) (units : List (Nat × Nat)) : List (Seq × Nat) → State × Nat
  | [] => (s, 0)
  | (q, j) :: rest =>
    if want ≤ s.roomWith fn slot then (s, 0)
    else
      let v := s.fnView fn (some slot)
      match v.seq? q.handle with
      | none => s.dropBlocks fn slot want units rest
      | some q =>
        if !v.candidate q j then s.dropBlocks fn slot want units rest
        else match s.dropIn fn slot q j (!units.contains (q.handle, j / 64)) with
          | .error _ => s.dropBlocks fn slot want units rest
          | .ok s' =>
            let r := s'.dropBlocks fn slot want ((q.handle, j / 64) :: units) rest
            (r.1, r.2 + (q.block j).length)

def dropPolicy (fn : FnId) (id : BitVec 64) (s : State) : State :=
  match ((s.fns[fn]).mould? id).bind (·.run) with
  | none => s
  | some r => match r.dropWanted with
    | none => s
    | some n =>
      if 32 ≤ (s.fns[fn]).counted then s
      else match s.openHeat fn .single 4096 with
        | none => s
        | some (slot, s) =>
          let (s, nodes) := s.evictNodes fn slot (2 * n) (s.fns[fn]).nodes.length
          let (s, pages) := s.dropBlocks fn slot (2 * n) [] (s.fns[fn]).dropOrder
          let room := s.roomWith fn slot
          let s := (s.commitHeat fn slot).log 0x0402 (some fn) 0 (toLe 4 pages ++ toLe 4 nodes)
          if pages = 0 && nodes = 0 then s.endStep fn id .noSpace
          else s.modRun fn id fun r => { r with dropWanted := none, dropped := true, dropGoal := min (2 * n) room }

def execDropPolicy (fn : FnId) (mould : BitVec 64) (s : State) : Res := .next (dropPolicy fn mould s).settle

end Sys2Proof.Machine
end

