-- ==== Sys2Proof/Machine/Retrieval.lean ====
section
/-! DEFINITION. Retrieval: loading an index, scanning it in the Plinths, the lists and the aggregate check (R281 to R285). -/

namespace Sys2Proof.Machine

/-- Bytes of a row, from DIM. -/
def rowKib (d : Nat) : Bool := d == 1 || d == 2 || d == 4

/-! ### RETRIEVE_INDEX_LOAD (R282) -/

/-- Every page of `[a, a + n)` lies in spans of a role whose pages have the given home. -/
def State.pagesOf (s : State) (fn : FnId) (a n : Nat) (role : Role) (t2 : Bool) : Bool :=
  (List.range ((a + n + 65535) / 65536 - a / 65536)).all fun i =>
    let at_ := (a / 65536 + i) * 65536
    (s.fns[fn]).roleOf at_ == some role && match s.pageAt fn at_ with
      | some (_, p) => p.homeT2 == t2
      | none => false

/-- A page of the run is SEALED; a POISONED page may be written whole again (Table TIER-1). -/
def State.anySealed (s : State) (fn : FnId) (slot : Fin 32) (a n : Nat) : Bool :=
  (List.range ((a + n + 65535) / 65536 - a / 65536)).any fun i => match s.pageAt fn ((a / 65536 + i) * 65536) with
    | some (_, p) => (s.fns[fn]).sealedFor slot p && !p.poisoned
    | none => false

/-- The row tag: the exclusive-or of its unit MACs. -/
def State.rowTag (s : State) (fn : FnId) (a : Nat) (row : List Byte) : BitVec 64 :=
  ((s.hall.storage[fn]).getD {}).rowTag a row

/-- Write a page of rows and seal it with its T2 copy; its T1 copy is given up. -/
def State.loadIndexPage (s : State) (fn : FnId) (slot : Fin 32) (num : Nat) (bs : List Byte) : Except Status State :=
  match s.needT2 (fn, num) with
  | none => .error .noSpace
  | some s => match s.countsAs fn slot 0 fun s => s.heatWrite fn slot (num * 65536) (fit 65536 bs) with
    | .error e => .error e
    | .ok s =>
      let s := s.modPage fn num fun p => { p with t2 := true, t1 := false, dropT1 := false }
      let s := { s with migr := { s.migr with down := s.migr.down + 65536 } }
      s.sealPage fn slot num

/-- The parameters of RETRIEVE_INDEX_LOAD are in order (R282). -/
def indexLoadOk (k : Cmd) : Bool :=
  let first := u k.p 0x10 4
  let rows := u k.p 0x14 4
  let kib := u k.p 0x18 1
  let d := 1024 * kib
  zeroOutside k.p 32 [(0, 26)] && rowKib kib && u k.p 0x19 1 < 2 && u k.p 0 8 % 65536 == 0 && u k.p 8 8 % 256 == 0 &&
    first % (65536 / d) == 0 && k.len.toNat == rows * d && rows * d ≤ 16777216 && (bit (u k.p 0x19 1) 0 || rows * d % 65536 == 0) &&
    u k.p 0 8 + (first + rows) * d ≤ indexBase && u k.p 8 8 + 8 * (first + rows) ≤ indexBase

/-- First address and bytes of the rows, and first address of their tags. -/
def loadAt (k : Cmd) : Nat := u k.p 0 8 + u k.p 0x10 4 * (1024 * u k.p 0x18 1)
def loadBytes (k : Cmd) : Nat := u k.p 0x14 4 * (1024 * u k.p 0x18 1)
def loadTags (k : Cmd) : Nat := u k.p 8 8 + 8 * u k.p 0x10 4

/-- Rows and tags enter a heat: the pages of rows are sealed with their T2 copies, then the tags are written, and sealed as
their pages fill. -/
def State.loadIndex (s : State) (k : Cmd) (slot : Fin 32) : Except (Status × Bool) State :=
  let rows := u k.p 0x14 4
  let d := 1024 * u k.p 0x18 1
  let n := loadBytes k
  if s.anySealed k.fn slot (loadAt k) n || s.anySealed k.fn slot (loadTags k) (8 * rows) then .error (.notPermitted, false)
  else match foldE (fun (s : State) i => s.loadIndexPage k.fn slot (loadAt k / 65536 + i) (slice k.payload (65536 * i) 65536)) (List.range (ceilDiv n 65536)) s with
    | .error e => .error (e, e == .busy)
    | .ok s =>
      let row := fun r => s.rowTag k.fn (loadAt k + r * d) (slice k.payload (r * d) d)
      let bs := ((List.range rows).map fun r => bvBytes 8 (row r)).flatten
      match s.heatWrite k.fn slot (loadTags k) bs with
      | .error e => .error (e, e == .busy)
      | .ok s =>
        let end_ := loadTags k + 8 * rows
        let full := (List.range ((end_ + 65535) / 65536 - loadTags k / 65536)).map (loadTags k / 65536 + ·)
        let seals := if rows = 0 then [] else full.filter fun p => bit (u k.p 0x19 1) 0 || (p + 1) * 65536 ≤ end_
        match foldE (fun (s : State) p => s.sealPage k.fn slot p) seals s with
        | .error e => .error (e, e == .busy)
        | .ok s => .ok s

/-- Frames follow the spans of the rows that were loaded. -/
def State.fixLoaded (s : State) (k : Cmd) : State :=
  (List.range (ceilDiv (loadBytes k) 2097152 + 1)).foldl (fun s i => s.fixFrames k.fn (loadAt k / 2097152 + i)) s

/-- Every page of the rows has a T2 frame on a Plinth whose link is up. -/
def State.loadLinked (s : State) (k : Cmd) : Bool :=
  (List.range (ceilDiv (loadBytes k) 65536)).all fun i => s.t2Linked k.fn (loadAt k / 65536 + i)

def retrieveIndexLoad (k : Cmd) (s : State) : State :=
  checked .retrieveIndexLoad k (indexLoadOk k) 0 (fun s =>
    if !(s.pagesOf k.fn (loadAt k) (loadBytes k) .retrieval true && s.pagesOf k.fn (loadTags k) (8 * u k.p 0x14 4) .data false) then
      s.finish .retrieveIndexLoad k .badParam
    else if !s.loadLinked k then s
    else (inHeat .retrieveIndexLoad k s fun slot s => (s.loadIndex k slot).map fun s => (s, u k.p 0x14 4, [])).fixLoaded k) s

def execRetrieveIndexLoad (k : Cmd) (s : State) : Res := hostCmd .retrieveIndexLoad k (retrieveIndexLoad k) s

/-! ### RETRIEVE_SCAN (R283, R284) -/

/-- Rows 0 to ROWS − 1 and their tags lie in sealed pages of their roles. -/
def State.scanReady (s : State) (fn : FnId) (a tags rows d : Nat) : Bool :=
  let sealedIn := fun (at_ n : Nat) (role : Role) => (List.range ((at_ + n + 65535) / 65536 - at_ / 65536)).all fun i =>
    let b := (at_ / 65536 + i) * 65536
    (s.fns[fn]).roleOf b == some role && match s.pageAt fn b with
      | some (_, p) => p.sealed_ && !p.poisoned
      | none => false
  sealedIn a (rows * d) .retrieval && sealedIn tags (8 * rows) .data

/-- The parameters of RETRIEVE_SCAN are in order (R283). An ADDRESS that no row of DIM can have, as a unit instruction names rows,
is refused with the fields (DESIGN CHOICE, log 62). -/
def scanOk (k : Cmd) : Bool :=
  let d := 1024 * u k.p 0x17 1
  let rows := u k.p 0x10 4
  let q := u k.p 0x16 1
  let top := u k.p 0x14 2
  zeroOutside k.p 32 [(0, 25), (28, 4)] && rowKib (u k.p 0x17 1) && u k.p 0x18 1 < 2 && 1 ≤ top && top ≤ 1024 && 1 ≤ q && q ≤ 64 &&
    u k.p 0x1C 4 != 0 && u k.p 0 8 % d == 0 && u k.p 0 8 + rows * d ≤ indexBase && u k.p 8 8 + 8 * rows ≤ indexBase &&
    k.len.toNat == q * d + if bit (u k.p 0x18 1) 0 then ceilDiv rows 8 else 0

/-- A scan is accepted and queued; its DEADLINE counts from here. -/
def retrieveScan (k : Cmd) (s : State) : State :=
  if (s.fns[k.fn]).scans.any (·.cmd == k) then s
  else checked .retrieveScan k (scanOk k) (8 * u k.p 0x16 1 * u k.p 0x14 2) (fun s =>
    if !s.scanReady k.fn (u k.p 0 8) (u k.p 8 8) (u k.p 0x10 4) (1024 * u k.p 0x17 1) then s.finish .retrieveScan k .notPermitted
    else s.modFn k.fn fun f =>
      { f with nextScan := f.nextScan + 1
               scans := f.scans ++ [{ id := f.nextScan, cmd := k, queries := u k.p 0x16 1, k := u k.p 0x14 2 }] }) s

def execRetrieveScan (k : Cmd) (s : State) : Res := hostCmd .retrieveScan k (retrieveScan k) s

/-- The rows of a scan that lie in one 64 KiB page: the first row and how many, with the address of the first; `whole` where they
fill the page and no bitmap selects among them. -/
structure ScanPart where
  first : Nat
  rows : Nat
  addr : Nat
  whole : Bool

/-- The parts of a scan, in order of their rows: one for each 64 KiB page of the index (DESIGN CHOICE, log 62). -/
def Scan.parts (x : Scan) : List ScanPart :=
  let k := x.cmd
  let d := 1024 * u k.p 0x17 1
  let a := u k.p 0 8
  let rows := u k.p 0x10 4
  let page := a / 65536 * 65536
  if rows = 0 then []
  else (List.range ((a % 65536 + rows * d + 65535) / 65536)).map fun i =>
    let r0 := (page + 65536 * i - a) / d
    let r1 := min rows ((page + 65536 * (i + 1) - a) / d)
    { first := r0, rows := r1 - r0, addr := a + r0 * d, whole := r1 - r0 == 65536 / d && !bit (u k.p 0x18 1) 0 }

/-- The parts with the T2 frames that they lie in. -/
def State.scanParts (s : State) (fn : FnId) (x : Scan) : List (Nat × ScanPart) :=
  x.parts.filterMap fun c => (s.t2Frame fn c.addr).map fun fr => (fr, c)

/-- The unit instructions of a scan: one DOT with TOPK for each part, with its Plinth. A part that is not a whole page goes with
BITMAP; its bits follow those of the parts before it on the Plinth. -/
def State.scanInstrs (s : State) (fn : FnId) (x : Scan) : List (PlinthId × UInstr) :=
  let kib := u x.cmd.p 0x17 1
  ((s.scanParts fn x).foldl (fun (acc : List (PlinthId × UInstr) × List Nat) p =>
    let c := p.2
    let n : PlinthId := Fin.ofNat 8 p.1
    let at_ := acc.2.getD n.val 0
    let bytes := [1, (if c.whole then 2 else 6)] ++ [0] ++ toLe 1 (x.queries - 1) ++ toLe 4 (t2Die p.1 (c.addr % 2097152) / 1024) ++ toLe 2 c.rows ++
      toLe 1 kib ++ List.replicate 5 0 ++ toLe 4 c.first ++ toLe 4 (if c.whole then 0 else at_)
    (acc.1 ++ [(n, { word := BitVec.ofNat 256 (leNat bytes), fn, scan := some x.id })], if c.whole then acc.2 else acc.2.set n.val (at_ + c.rows)))
    ([], List.replicate 8 0)).1

/-- Bits as bytes, the first in the lowest bit. -/
def packLsb (l : List Bool) : List Byte :=
  (List.range (ceilDiv l.length 8)).map fun i => BitVec.ofNat 8 (((List.range 8).map fun j => b2n (l.getD (8 * i + j) false) * 2 ^ j).foldl (· + ·) 0)

/-- A Plinth's share of a scan's bitmap (R283): the command's bits, or ones where it has none. -/
def State.scanShare (s : State) (fn : FnId) (x : Scan) (n : PlinthId) : List Byte :=
  let k := x.cmd
  let map := k.payload.drop (x.queries * 1024 * u k.p 0x17 1)
  let one := fun (r : Nat) => !bit (u k.p 0x18 1) 0 || bit ((map.getD (r / 8) 0).toNat) (r % 8)
  packLsb (((s.scanParts fn x).filter fun p => p.1 % 8 == n.val && !p.2.whole).map fun p => (List.range p.2.rows).map fun i => one (p.2.first + i)).flatten

/-- Operand slices that a scan takes on a Plinth: for its queries, and for its share of the bitmap (R283). -/
def State.scanNeeds (s : State) (fn : FnId) (x : Scan) (n : PlinthId) : Nat :=
  ceilDiv (x.queries * 1024 * u x.cmd.p 0x17 1) 65536 + ceilDiv (s.scanShare fn x n).length 65536

/-- Scans of any function that came before and have not ended, with their Plinths. -/
def State.earlierScans (s : State) (fn : FnId) (x : Scan) : List PlinthId :=
  let before := s.flights.takeWhile fun f => !(f.isOf .retrieveScan x.cmd)
  ((before.filter fun f => f.op == .retrieveScan).map fun f =>
    match (s.fns[f.cmd.fn]).scans.find? (·.cmd == f.cmd) with
    | some y => if f.cmd.fn == fn && y.id == x.id then [] else (s.scanInstrs f.cmd.fn y).map (·.1)
    | none => []).flatten

/-- The Plinths that a scan uses, in the order of its instructions. -/
def State.scanPlinths (s : State) (fn : FnId) (x : Scan) : List PlinthId := ((s.scanInstrs fn x).map (·.1)).eraseDups

/-- A scan may start: its function is not held by a quiesce, and each of its Plinths is free, linked, not waited for by an earlier
scan, and has the operand slices that it takes (R283; DESIGN CHOICE, log 172: it waits for them). -/
def State.scanMayStart (s : State) (fn : FnId) (x : Scan) : Bool :=
  !(s.fns[fn]).held && !(s.scanPlinths fn x).any fun n =>
    (s.plinths[n]).scan.isSome || (s.earlierScans fn x).contains n || !(s.plinths[n]).linkUp || 64 < s.slicesUsed n + s.scanNeeds fn x n

/-- A scan starts on a Plinth with the instructions that work there. -/
def State.startScanOn (fn : FnId) (x : Scan) (is : List (PlinthId × UInstr)) (s : State) (n : PlinthId) : State :=
  let mine := (is.filter (·.1 == n)).map fun i => (unitChain i.2.word, i.2)
  let slices := s.scanNeeds fn x n
  let share := s.scanShare fn x n
  let upd := fun (p : Plinth) => ({ p with
    scan := some (fn, x.id), topk := [], rowsScored := 0, agg := 0, scanAll := mine, scanTodo := mine
    scanSlices := slices, scanQ := x.cmd.payload.take (x.queries * 1024 * u x.cmd.p 0x17 1), scanBits := share } : Plinth).fixCompute
  (s.modPlinth n upd).refill n 64

def scanStart (fn : FnId) (s : State) : State :=
  match (s.fns[fn]).scans.find? (!·.started) with
  | none => s
  | some x =>
    if !s.scanMayStart fn x then s
    else (s.scanPlinths fn x).foldl (State.startScanOn fn x (s.scanInstrs fn x))
      (s.modFn fn fun f => { f with scans := updateFirst (fun (y : Scan) => y.id == x.id) (fun y => { y with started := true }) f.scans })

def execScanStart (fn : FnId) (s : State) : Res := .next (scanStart fn s)

/-- One list of the reply: the first K pairs over all Plinths, filled out (R284). -/
def scanList (pairs : List (Nat × Int × Nat)) (q k : Nat) : List Byte :=
  let l := ((pairs.filter (·.1 == q)).foldr insertPair []).take k
  ((l.map fun x => toLe 4 (wrapInt 32 x.2.1) ++ toLe 4 x.2.2) ++
    List.replicate (k - l.length) (toLe 4 0x80000000 ++ toLe 4 0xFFFFFFFF)).flatten

/-- Exclusive-or of the stored tags of the selected rows on a Plinth (R285). -/
def State.storedTags (s : State) (fn : FnId) (x : Scan) (n : PlinthId) : BitVec 64 :=
  ((s.plinths[n]).scanAll).foldl (fun m i =>
    ((List.range (uRows i.2.word)).filter (s.rowTaken n i.2)).foldl (fun m r =>
      m ^^^ BitVec.ofNat 64 (leNat (s.readRange fn none (u x.cmd.p 8 8 + 8 * (uF i.2.word 16 4 + r)) 8))) m) 0

/-- The Plinths on which a scan runs. -/
def State.scanning (s : State) (fn : FnId) (id : Nat) : List PlinthId :=
  (List.finRange 8).filter fun n => (s.plinths[n]).scan == some (fn, id)

/-- A Plinth has still to score rows of its scan. -/
def Plinth.scoring (p : Plinth) : Bool := !p.scanTodo.isEmpty || p.chains.toList.any fun c => c.instrs.any (·.scan.isSome)

/-- Rows that a scan has scored. -/
def State.scored (s : State) (fn : FnId) (id : Nat) : Nat :=
  ((s.scanning fn id).map fun n => (s.plinths[n]).rowsScored).foldl (· + ·) 0

/-- The lists of a scan's reply, over all its Plinths (R284). -/
def State.scanLists (s : State) (fn : FnId) (x : Scan) : List Byte :=
  let pairs := ((s.scanning fn x.id).map fun n => (s.plinths[n]).topk).flatten
  ((List.range x.queries).map fun q => scanList pairs q x.k).flatten

/-- The lists are complete: the aggregates are compared, the lists merged, and the scan replies. -/
def scanComplete (fn : FnId) (id : Nat) (rowTagsOk : Bool) (s : State) : State :=
  match (s.fns[fn]).scans.find? (·.id == id) with
  | none => s
  | some x =>
    let ps := s.scanning fn id
    if !x.started || ps.any (fun n => (s.plinths[n]).scoring) then s
    else
      let rows := u x.cmd.p 0x10 4
      let wrong := ps.filter fun n => !rowTagsOk || s.storedTags fn x n != (s.plinths[n]).agg
      if s.poisonedIn fn (u x.cmd.p 8 8) (8 * rows) then s.endScan fn id .integrity
      else if s.chanBlocks fn (u x.cmd.p 8 8) (8 * rows) then s
      else if !wrong.isEmpty then
        let s := wrong.foldl (fun s n => (s.modPlinth n fun p => ({ p with tagFail := inc32 p.tagFail } : Plinth).fail .integrity 4 0).log 0x0501
          (some fn) n.val (toLe 4 (s.plinths[n]).rowsScored)) s
        s.endScan fn id .integrity
      else s.endScan fn id .ok (min (s.scored fn id) 0xFFFFFFFF) (s.scanLists fn x)

def execScanComplete (fn : FnId) (id : Nat) (rowTagsOk : Bool) (s : State) : Res := .next (scanComplete fn id rowTagsOk s)

def execScanDeadline (fn : FnId) (id : Nat) (s : State) : Res := .next (s.endScan fn id .timeout)

end Sys2Proof.Machine
end

