-- ==== Sys2Proof/Machine/Near.lean ====
section
/-! DEFINITION. The near tier: scrubs, retrains, Quench, map-outs, repairs (R236 to R253). -/

namespace Sys2Proof.Machine

/-! ### Scrub and refresh (R237, R240, R241) -/

def State.stackOn (s : State) (c : ChanId) : Bool := s.domOn (64 + (chanStack c).val)

/-- A line of the firmware reserve is lost while the device anneals: whether a wrapped key copy lay in it is a free choice, for the
reserve has no layout (R375, R390; log 177). -/
def State.loseCopy (s : State) (unit : Nat) : State :=
  if 65536 ≤ unit || !s.annealing .device then s
  else
    let (n, s) := s.draw
    s.modHall fun h => { h with copyLost := h.copyLost || Config.freeNat n % 2 == 1 }

/-- A scrub reads one unit of a channel, with the beats that meet disturbances: what the decoder corrects is counted and written
back, and a lost line of a page goes the way of Table TIER-5, one of a heat area that of R311 (R240). -/
def nearScrub (c : ChanId) (what : ScrubAt) (place : Nat) (errs : List (Fin 8 × BitVec 320)) (s : State) : State :=
  if !s.stackOn c || (s.near.chans[c]).state != .active then s
  else
    let count := fun (s : State) (g : Option FnId) (unit : Nat) => errs.foldl (fun s b => s.countBeat g c unit b.1.val b.2) s
    let lost := errs.any fun b => beatLost b.2
    match what with
    | .page fn =>
      let (g, a) := s.resolve fn place
      match s.t1Addr g a with
      | none => s
      | some d => if lost then (((count s (some g) (d / 256)).loseT1 g a).1.pumpAll).settle else count s (some g) (d / 256)
    | .heat fn => if lost then ((((count s (some fn) place).functionFault fn)).pumpAll).settle else count s (some fn) place
    | .other => if lost then (count s none place).loseCopy place else count s none place

def execNearScrub (c : ChanId) (what : ScrubAt) (place : Nat) (errs : List (Fin 8 × BitVec 320)) (s : State) : Res :=
  .next (nearScrub c what place errs s)

/-- The extra refresh of the neighbouring rows takes time only (R237). -/
def execRowRefresh (_ : ChanId) (_ _ : Nat) (s : State) : Res := .next s

/-! ### Retrains (R242, R243) -/

def execT1PhyLockLoss (c : ChanId) (s : State) : Res := .next (if s.stackOn c then s.retrain c else s)

def execT1CorrectionCount (c : ChanId) (s : State) : Res :=
  .next (if s.stackOn c then (s.modChan c fun x => { x with ce2 := satAdd 32 x.ce2 257 }).retrain c else s)

/-- A retrain completes in its own time; one that an anneal has taken over ends with the anneal. -/
def t1RetrainComplete (c : ChanId) (ticks : Nat) (s : State) : State :=
  if (s.near.chans[c]).state != .retraining || s.annealing (.channel c) then s
  else
    let s := s.modChan c fun x => { x with retrains := satAdd 16 x.retrains 1, retrainTicks := satAdd 32 x.retrainTicks ticks }
    (((s.trained c).log 0x0201 none c.val (toLe 4 ticks)).pumpAll).settle

def execT1RetrainComplete (c : ChanId) (ticks : BitVec 32) (s : State) : Res := .next (t1RetrainComplete c ticks.toNat s)

def execT1ChannelRetrainTimeout (c : ChanId) (s : State) : Res :=
  .next (if (s.near.chans[c]).state == .retraining then (s.anneal (.channel c) 0x0104).settle else s)

/-- The anneal of a unit completes, and what waited for it goes on. -/
def execAnnealComplete (unit : AnnealUnit) (s : State) : Res :=
  .next (match s.anneals.find? (·.unit == unit) with
    | some r => ((s.annealDone r).pumpAll).settle
    | none => s)

/-! ### Quench (R246, R247) -/

/-- Temperatures at which levels 1 to 6 are entered. -/
def quenchEnter : List Int := [95, 97, 99, 101, 103, 105]

/-- The level that a reading sets: a level is left 2 °C below its threshold. -/
def quenchLevel (level : Nat) (t : Int) : Nat :=
  let up := (quenchEnter.filter fun c => deg c ≤ t).length
  let stay := (quenchEnter.filter fun c => deg c - deg 2 < t).length
  if level < up then up else min level stay

/-- A stack reports its temperature: level, trips of level 6, drifts that call for a retrain, thermal demand. -/
def quenchReport (k : StackId) (temp : BitVec 16) (s : State) : State :=
  let old := (s.near.stks[k]).level
  let new := quenchLevel old temp.toInt
  let s := s.modStack k fun x => { x with temp, level := new, hard := x.hard || (new == 6 && old < 6) }
  let s := s.modBell fun b => { b with temps := b.temps.set (64 + k.val) temp (by omega) }
  let s := if new == 6 && old < 6 then
      (s.log 0x0905 none (64 + k.val) (bvBytes 2 temp ++ [2])).modBell fun b => { b with stackDemand := 550, stackThrottle := true }
    else s
  (List.finRange 512).foldl (fun s c =>
    if chanStack c != k then s
    else match (s.near.chans[c]).trainTemp with
      | none => s.modChan c fun x => { x with trainTemp := some temp }
      | some t => if 160 ≤ (temp.toInt - t.toInt).natAbs then s.retrain c else s) s

def execQuenchReport (k : StackId) (temp : BitVec 16) (s : State) : Res :=
  .next (if s.domOn (64 + k.val) then quenchReport k temp s else s)

/-! ### CHANNEL_MAPOUT (R244, R245, Table TIER-8) -/

/-- Map-outs recorded so far, and the record of the next. -/
def State.recordMapout (s : State) (c : ChanId) (pending : Bool) : Option State :=
  (s.ledgerWrite 0x0030 (s.near.mapouts.length + 1) (toLe 2 c.val ++ toLe 1 (b2n pending) ++ List.replicate 5 0)).map fun s =>
    s.modNear fun n => { n with mapouts := n.mapouts ++ [(c, pending)] }

/-- Frames in the block that the next map-out withdraws. -/
def State.withdrawn (s : State) : List Frame := s.t1.filter fun x => s.t1Frames - 256 ≤ x.num

/-- The frames that stay, and those of the withdrawn block at free places below it, with the moves: old number and new. -/
def State.movedFrames (s : State) : List Frame × List (Nat × Nat) :=
  s.withdrawn.foldl (fun (l : List Frame × List (Nat × Nat)) x =>
    let n := lowestFree (l.1.map (·.num)) 0
    (insertFrame { x with num := n } l.1, l.2 ++ [(x.num, n)])) (s.t1.filter fun x => x.num < s.t1Frames - 256, [])

/-- A page whose staged copy lies in a frame that moves. -/
def Page.movePlace (moves : List (Nat × Nat)) (p : Page) : Page :=
  match moves.find? fun x => p.staged && x.1 == p.place / 32 with
  | some x => { p with place := x.2 * 32 + p.place % 32 }
  | none => p

/-- Move the spans of the withdrawn block to free frames below it, and the staged copies with their frames. -/
def State.moveFrames (s : State) : State :=
  let r := s.movedFrames
  { s with t1 := r.1
           fns := if r.2.isEmpty then s.fns else s.fns.map fun (f : Fn) => { f with pages := f.pages.map (Page.movePlace r.2) } }

/-- Refusals of both forms, then those of the form that acts at once. -/
def State.mapoutRefusal (s : State) (c : Nat) (atBoot : Bool) : Option Status :=
  if s.near.mapouts.any (·.1.val == c) then some .badParam
  else if 16 ≤ s.near.mapouts.length then some .noSpace
  else if s.timeout 8 < 6000000 then some .badParam
  else if s.bell.low then some .supplyLow
  else if atBoot then none
  else if !(s.near.chans[(Fin.ofNat 512 c : ChanId)]).trains then some .notPermitted
  else if s.t1Frames - 256 < s.t1.length then some .noSpace
  else none

/-- The map-out takes effect now: the block moves, Ledger records it, the channel leaves, and the lines that the move found
lost are reported. -/
def State.mapoutNow (s : State) (ch : ChanId) (bad : List (FnId × BitVec 48)) : Option State :=
  (s.moveFrames.recordMapout ch false).map fun s =>
    bad.foldl (fun (s : State) (b : FnId × BitVec 48) =>
      let (g, a) := s.resolve b.1 b.2.toNat
      ((s.countUe (some g) ch ((s.t1Addr g a).getD 0 / 256) false).loseT1 g a).1) (s.modChan ch fun x => { x with state := .mappedOut })

def channelMapout (k : Cmd) (bad : List (FnId × BitVec 48)) (s : State) : State :=
  let c := u k.p 0 2
  let atBoot := bit (u k.p 2 1) 0
  checked .channelMapout k (plain k [(0, 3)] && c < 512 && u k.p 2 1 < 2) 0 (fun s =>
    match s.mapoutRefusal c atBoot with
    | some st =>
      let s := if st == .supplyLow then s.ledgerRefused else s
      s.finish .channelMapout k st
    | none =>
      let ch : ChanId := Fin.ofNat 512 c
      if atBoot then match s.recordMapout ch true with
        | none => s.finish .channelMapout k .supplyLow
        | some s => s.finish .channelMapout k .ok
      else if s.longChain s.mapped ch then s.finish .channelMapout k .noSpace
      else if s.anyRunning then s
      else match s.mapoutNow ch bad with
        | none => s.finish .channelMapout k .supplyLow
        | some s => s.finish .channelMapout k (if bad.isEmpty then .ok else .integrity)) s

def execChannelMapout (k : Cmd) (bad : List (FnId × BitVec 48)) (s : State) : Res := hostCmd .channelMapout k (channelMapout k bad) s
def execChannelMapoutAtBoot (k : Cmd) (s : State) : Res := hostCmd .channelMapout k (channelMapout k []) s

/-! ### Repair (R252, R253) -/

/-- Spare rows of the bank with the fewest. -/
def Chan.fewestRows (c : Chan) : Nat := c.spareRows.toList.foldl min 4

/-- One listed location: BANK, KIND, count, INDEX. -/
def worstBytes (x : Nat × Nat × Nat × Nat) : List Byte := toLe 1 x.1 ++ toLe 1 x.2.1 ++ toLe 2 (min x.2.2.2 65535) ++ toLe 4 x.2.2.1

/-- The locations of a channel with the highest corrected-error counts, highest first. The spec leaves open which of equal counts
comes first: it is the one that `first` names first (DESIGN CHOICE, log 117). -/
def Chan.worst (c : Chan) (first : List (Nat × Nat × Nat)) (n : Nat) : List (Nat × Nat × Nat × Nat) :=
  let top := c.located.foldl (fun m x => max m x.2.2.2) 0
  let l := sortAsc (fun (x : Nat × Nat × Nat × Nat) => first.idxOf (x.1, x.2.1, x.2.2.1)) c.located
  (sortAsc (fun (x : Nat × Nat × Nat × Nat) => top - x.2.2.2) l).take n

/-- The spares left, and the worst locations. -/
def stackRepairQuery (k : Cmd) (first : List (Nat × Nat × Nat)) (s : State) : State :=
  let c := u k.p 0 2
  checked .stackRepairQuery k (plain k [(0, 2)] && c < 512) 0 (fun s =>
    let ch := s.near.chans[(Fin.ofNat 512 c : ChanId)]
    s.finish .stackRepairQuery k .ok (ch.fewestRows + 256 * ch.spareCols) ((ch.worst first (min 256 (k.outCap.toNat / 8))).map worstBytes).flatten) s

def execStackRepairQuery (k : Cmd) (first : List (Nat × Nat × Nat)) (s : State) : Res :=
  hostCmd .stackRepairQuery k (stackRepairQuery k first) s

/-- The spare that a repair takes. -/
def Chan.spend (kind bank : Nat) (c : Chan) : Chan :=
  if kind = 1 then { c with spareRows := vmod c.spareRows (Fin.ofNat 16 bank) (· - 1) } else { c with spareCols := c.spareCols - 1 }

/-- A repair holds its channel (R252) until the command runs again, when the copy is done: the spare takes the place of the row or
column group, Ledger records it, and the next access to the channel retrains it (Table TIER-6; DESIGN CHOICE, log 63). -/
def stackRepairApply (k : Cmd) (s : State) : State :=
  let c := u k.p 0 2
  let kind := u k.p 2 1
  let bank := u k.p 3 1
  checked .stackRepairApply k (plain k [(0, 8)] && c < 512 && (kind == 1 || kind == 2) && bank < 16) 0 (fun s =>
    let ch : ChanId := Fin.ofNat 512 c
    let x := s.near.chans[ch]
    let none_ := (if kind = 1 then x.spareRows[(Fin.ofNat 16 bank : Fin 16)] else x.spareCols) == 0
    if x.holder == some k then
      let key := 1 + (s.ledger.log.filter fun r => r.type == 0x0031).foldl (fun m r => max m r.key) 0
      match s.ledgerWrite 0x0031 key (toLe 2 c ++ toLe 1 kind ++ toLe 1 bank ++ toLe 4 (u k.p 4 4)) with
      | none => (((s.ledgerRefused.channelFree ch id).finish .stackRepairApply k .supplyLow).pumpAll).settle
      | some s =>
        let done := fun (y : Chan) => { y.spend kind bank with
          repaired := true, located := y.located.filter fun l => !(l.1 == bank && l.2.1 == kind && l.2.2.1 == u k.p 4 4) }
        (((s.channelFree ch done).finish .stackRepairApply k .ok).pumpAll).settle
    else if x.state == .mappedOut then s.finish .stackRepairApply k .badParam
    else if s.bell.low then s.ledgerRefused.finish .stackRepairApply k .supplyLow
    else if none_ then s.finish .stackRepairApply k .noSpace
    else if s.stackBusy (chanStack ch) then s
    else s.modChan ch fun y => { y with state := .repair, holder := some k }) s

def execStackRepairApply (k : Cmd) (s : State) : Res := hostCmd .stackRepairApply k (stackRepairApply k) s

end Sys2Proof.Machine
end

