-- ==== Sys2Proof/Machine/Griz.lean ====
section
/-! DEFINITION. Grizlink: bring-up, lanes, frames and keys, cohort policies, Hearth windows, and the records that a port
receives (R94 to R96, R300 to R303, R346 to R373). -/

namespace Sys2Proof.Machine

/-! ### The GRIZ_ registers of a port (Table GRIZ-12) -/

def widthCode (w : Nat) : Nat := if w = 16 then 3 else if w = 8 then 2 else if w = 4 then 1 else 0

/-- A register of a port instance, as a read without side effects sees it. -/
def Port.reg (q : Port) (off : Nat) : Nat :=
  let key := digestBytes q.partnerKey
  let codes := fun (first : Nat) => (List.range 8).foldl (fun v i => v + 16 ^ i * (q.codes.toList.getD (first + i) 0).toNat) 0
  match off with
  | 0x00 => q.lanes.toNat + 2 ^ 16 * q.logical.val + 2 ^ 24 * b2n q.inverted + 2 ^ 25 * b2n q.mapped
      + 2 ^ 26 * widthCode q.width + 2 ^ 28 * q.state.code
  | 0x04 => q.partnerChip.toNat + 2 ^ 16 * (q.partnerPort % 8)
  | 0x08 => leNat (key.take 4)
  | 0x0C => leNat ((key.drop 4).take 4)
  | 0x10 => codes 0
  | 0x14 => codes 8
  | 0x18 => b2n q.evAnnealed + 2 * b2n q.evSwapped + 4 * b2n q.evDegraded + 8 * b2n q.evFenced
  | 0x20 => q.fecCorr
  | 0x24 => q.fecUncorr
  | 0x28 => q.retries
  | 0x2C => q.tagFails
  | 0x30 => q.creditWait
  | 0x34 => q.discards
  | 0x38 => q.tx % 2 ^ 32
  | 0x3C => q.tx / 2 ^ 32
  | _ => 0

/-- LINK_STATUS: the image of the registers from 0x0000 to 0x003F; a port that is off reads as zero (R440). -/
def State.linkImage (s : State) (p : PortId) : List Byte :=
  ((List.range 16).map fun i => toLe 4 (if s.portOn p then (s.ports[p]).reg (4 * i) else 0)).flatten

def linkStatus (k : Cmd) (s : State) : State :=
  checked .linkStatus k (plain k [(0, 1)] && u k.p 0 1 < 8) 64
    (fun s => match s.physPort (u k.p 0 1) with
      | some p => s.finish .linkStatus k .ok 0 (s.linkImage p)
      | none => s.finish .linkStatus k .badParam) s

def execLinkStatus (k : Cmd) (s : State) : Res := hostCmd .linkStatus k (linkStatus k) s

/-! ### Bring-up (R352 to R359, R372) -/

/-- A port before event 1: its counters and events stay. -/
def Port.fresh (q : Port) : Port :=
  { logical := q.logical, evFenced := q.evFenced, evDegraded := q.evDegraded, evSwapped := q.evSwapped
    evAnnealed := q.evAnnealed, fecCorr := q.fecCorr, fecUncorr := q.fecUncorr, retries := q.retries
    tagFails := q.tagFails, creditWait := q.creditWait, discards := q.discards, tx := q.tx, outbox := q.outbox }

/-- Codes of the lanes after event 3: open, shorted and untrained lanes show what was found; a swapped pair is inverted, a lane
that meets another physical lane is remapped. -/
def laneCodes (codes : BitVec 64) (laneMap : BitVec 64) (inverted : BitVec 16) : Vector (BitVec 4) 16 :=
  Vector.ofFn fun l =>
    let c := codes.extractLsb' (4 * l.val) 4
    if c == 1 || c == 2 || c == 3 || c == 6 then c
    else if inverted.getLsbD l.val then 4
    else if laneMap.extractLsb' (4 * l.val) 4 != BitVec.ofNat 4 l.val then 5
    else 0

/-- Events 1 to 7 of one port. -/
def State.bringUp (s : State) (p : PortId) (x : Partner) : State :=
  let s := s.modPort p Port.fresh
  match x with
  | .absent => s.modPort p fun q => { q with state := .absent, codes := Vector.replicate 16 1 }
  | .untrained => s.modPort p fun q => { q with state := .down, codes := Vector.replicate 16 6 }
  | .hostile kase => s.fence p (kase.val + 1)
  | .ok port chip digest codes far laneMap inverted =>
    let s := s.modPort p fun q => ({ q with codes := laneCodes codes laneMap inverted
                                            far := ((List.finRange 16).filter fun l => far.getLsbD l.val).length } : Port).useLanes
    if (s.ports[p]).width = 0 then s.modPort p fun q => { q with state := .down }
    else (s.modPort p fun q => { q with
      state := .up, partnerPort := port % 8, partnerChip := chip, partnerKey := digest
      inverted := (q.lanes &&& inverted) != 0
      mapped := (List.finRange 16).any fun l => q.lanes.getLsbD l.val && laneMap.extractLsb' (4 * l.val) 4 != BitVec.ofNat 4 l.val
      }).rekeyPort p

/-- The expected partner of a logical port; none for 0xFFFF. -/
def expect (k : Cmd) (l : Nat) : Option Nat := let c := u k.p (16 + 2 * l) 2; if c = 0xFFFF then none else some c

/-- The logical number that R358 gives a port whose partner has authenticated, where there is one. -/
def State.logicalFor (s : State) (k : Cmd) (p : PortId) : Option Nat :=
  let chip := (s.ports[p]).partnerChip.toNat
  match (List.range 8).filter fun l => expect k l == some chip with
  | [] => if (expect k p.val).isNone then some p.val else none
  | [l] => some l
  | _ => none

/-- Logical numbers of the ports: those in `got` take theirs; the others keep their own where it is free, else take the
lowest number left. -/
def fillLogical (got : List (PortId × Nat)) : List (PortId × Nat) :=
  (List.finRange 8).foldl (fun l p =>
    if l.any (·.1 == p) then l
    else
      let free := (List.range 8).filter fun n => !l.any (·.2 == n)
      let own := (List.finRange 8).all fun q => q == p || !l.any (fun x => x.1 == q && x.2 == p.val)
      l ++ [(p, if own then p.val else free.headD 0)]) got

/-- R358: assign the logical numbers of the trained ports; the ports that break a one-to-one mapping stay DOWN. -/
def State.assignPorts (s : State) (k : Cmd) (named : List PortId) : State :=
  let up := (List.finRange 8).filter fun p => (s.ports[p]).state == .up
  let want := up.map fun p => (p, if named.contains p then s.logicalFor k p else some (s.ports[p]).logical.val)
  let ok := fun (p : PortId) (n : Option Nat) => n.isSome && !(want.any fun x => x.1 != p && x.2 == n && (named.contains p))
  let bad := (want.filter fun x => named.contains x.1 && !ok x.1 x.2).map (·.1)
  let s := bad.foldl (fun s p => s.modPort p fun q => { q with state := .down, width := 0, lanes := 0, keyed := false }) s
  let got := want.filterMap fun x => if bad.contains x.1 then none else x.2.map fun n => (x.1, n)
  let all := fillLogical got
  let s := all.foldl (fun s x => s.modPort x.1 fun q => { q with logical := Fin.ofNat 8 x.2 }) s
  (named.filter fun p => (s.ports[p]).state == .up && (s.ports[p]).logical.val != p.val).foldl (fun s p =>
    (s.modPort p fun q => { q with evSwapped := true }).log 0x0605 none p.val [BitVec.ofNat 8 (s.ports[p]).logical.val]) s

/-- A step whose lists use the port runs. -/
def State.portRuns (s : State) (p : PortId) : Bool :=
  (List.finRange 64).any fun fn => (s.fns[fn]).moulds.any fun m =>
    m.run.isSome && m.listPeers.any fun pos => s.portOf m pos == some p

/-- Ports named by LINK_BRINGUP. -/
def namedPorts (k : Cmd) : List PortId := (List.finRange 8).filter fun p => bit (u k.p 0 1) p.val

/-- Refusals of LINK_BRINGUP (R359, R372). -/
def State.bringupRefusal (s : State) (k : Cmd) : Option Status :=
  let set := u k.p 1 1 = 1
  if set && u k.p 2 2 = 0xFFFF then some .badParam
  else if (namedPorts k).any fun p => !s.portOn p then some .notPermitted
  else if (namedPorts k).any fun p => (s.ports[p]).state == .up && s.portRuns p then some .busy
  else if set && (s.fns.toList.any fun f => f.cohort.isSome) then some .busy
  else if set && s.bell.low then some .supplyLow
  else none

/-- The reply of LINK_BRINGUP: the masks of the named ports by state, with the worst of them as its status. -/
def State.bringupReply (s : State) (k : Cmd) (named : List PortId) : State :=
  let mask := fun (x : PortState) => (named.filter fun p => (s.ports[p]).state == x).foldl (fun v p => v + 2 ^ p.val) 0
  let st := if mask .fenced != 0 then Status.partnerFault
    else if mask .down != 0 then .linkDown
    else if mask .absent != 0 then .absent
    else .ok
  s.finish .linkBringup k st (mask .up + 256 * mask .absent + 65536 * mask .fenced + 2 ^ 24 * mask .down)

def linkBringup (k : Cmd) (partners : List (PortId × Partner)) (s : State) : State :=
  checked .linkBringup k (plain k [(0, 4), (16, 16)] && u k.p 1 1 < 2) 0
    (fun s => match s.bringupRefusal k with
      | some st => (if st == .supplyLow then s.ledgerRefused else s).finish .linkBringup k st
      | none =>
        let s := if u k.p 1 1 = 1 then (s.ledgerWrite 0x0020 0 (slice k.p 2 2)).getD s else s
        let named := namedPorts k
        let s := named.foldl (fun s p => s.bringUp p (((partners.find? (·.1 == p)).map (·.2)).getD .absent)) s
        ((s.assignPorts k named).bringupReply k named).pumpAll) s

def execLinkBringup (k : Cmd) (partners : List (PortId × Partner)) (s : State) : Res :=
  hostCmd .linkBringup k (linkBringup k partners) s

/-- Rows of a LANE_DIAG reply: a lane that carries a logical lane is not tested and shows its own code. -/
def laneRows (q : Port) (results : List (BitVec 64)) : List Byte :=
  ((List.finRange 16).map fun (l : Fin 16) =>
    let r := (results.getD l.val 0).toNat
    let used := q.lanes.getLsbD l.val
    [BitVec.ofNat 8 l.val, BitVec.ofNat 8 (if used then (q.codes[l]).toNat else bits r 8 4), BitVec.ofNat 8 (b2n !used), 0]
      ++ toLe 4 (bits r 32 32)).flatten

/-- LANE_DIAG (R373): eye results by lane. -/
def laneDiag (k : Cmd) (results : List (BitVec 64)) (s : State) : State :=
  checked .laneDiag k (plain k [(0, 1)] && u k.p 0 1 < 8) 128
    (fun s => match s.physPort (u k.p 0 1) with
      | none => s.finish .laneDiag k .badParam
      | some p =>
        s.finish .laneDiag k .ok 0 (laneRows s.ports[p] results)) s

def execLaneDiag (k : Cmd) (results : List (BitVec 64)) (s : State) : Res := hostCmd .laneDiag k (laneDiag k results) s

/-! ### Lanes and frames in operation (R348 to R350, R354, R357) -/

/-- A port carries flits now. -/
def State.carries (s : State) (p : PortId) : Bool := (s.ports[p]).state == .up && (s.ports[p]).retraining == 0

/-- A lane in use loses lock or its corrections pass the limit: it retrains, and the port carries nothing meanwhile. -/
def laneRetrainTrigger (p : PortId) (l : Fin 16) (code : BitVec 4) (s : State) : State :=
  let q := s.ports[p]
  if q.state != .up || !q.lanes.getLsbD l.val || q.retraining.getLsbD l.val then s
  else (s.modPort p fun q => { q with retraining := q.retraining ||| (1#16 <<< l.val) }).log 0x0601 none p.val
    [BitVec.ofNat 8 l.val, code.zeroExtend 8]

def execLaneRetrainTrigger (p : PortId) (l : Fin 16) (code : BitVec 4) (s : State) : Res :=
  .next (laneRetrainTrigger p l code s)

/-- The retrain completes in its own time; one that an anneal has taken over ends with the anneal. -/
def laneRetrainComplete (p : PortId) (l : Fin 16) (s : State) : State :=
  if (s.ports[p]).state != .up || s.annealing (.lane p l) then s
  else ((s.modPort p fun q => { q with retraining := q.retraining &&& ~~~(1#16 <<< l.val) }).pumpAll).settle

def execLaneRetrainComplete (p : PortId) (l : Fin 16) (s : State) : Res := .next (laneRetrainComplete p l s)

def execLaneRetrainTimeout (p : PortId) (l : Fin 16) (s : State) : Res :=
  .next (if (s.ports[p]).state == .up && (s.ports[p]).retraining.getLsbD l.val then (s.anneal (.lane p l) 0x0105).settle else s)

/-- The oldest flit is not acknowledged in time: it is resent; the eighth expiry in succession anneals the port (R350). -/
def execAcknowledgementTimeout (p : PortId) (s : State) : Res :=
  let q := s.ports[p]
  .next (if !s.carries p || q.unacked = 0 then s
    else
      let s := s.modPort p fun q => { q with retries := inc32 q.retries, expiries := q.expiries + 1 }
      if q.expiries + 1 < 8 then s
      else ((s.modPort p fun q => { q with expiries := 0 }).anneal (.port p) 0x0106).settle)

/-- A running step has the next send of a trained port ready and no credit for it (R40). -/
def State.starves (s : State) (p : PortId) : Bool :=
  s.carries p && (List.finRange 64).any fun fn => (s.fns[fn]).moulds.any fun m => match m.run with
    | none => false
    | some r => match (s.nextSend m r p).bind fun i => m.sends[i]? with
      | none => false
      | some e => match m.forges[e.forge]? with
        | none => false
        | some mf => !r.rerun && r.status.isNone && r.entered e && mf.full.contains e.slot &&
            !(s.fns[fn]).creditsIn.contains (m.shortDigest, r.index, e.peer, e.sequence)

def execCreditStarvationTimeout (p : PortId) (s : State) : Res :=
  .next (if s.starves p then (s.anneal (.port p) 0x0107).settle else s)

/-- What one tick adds: the ticks that a port has data to send and no credit (Table GRIZ-12). -/
def State.linkTick (s : State) : State :=
  { s with ports := Vector.ofFn fun p : Fin 8 =>
      if s.bell.spine && s.starves p then { s.ports[p] with creditWait := inc32 (s.ports[p]).creditWait } else s.ports[p] }

/-- A frame whose tag fails (R357): cases 3 and 4 fence the port, else it is resent. -/
def State.frameFails (s : State) (p : PortId) : State :=
  let q := s.ports[p]
  let times := (q.failTimes ++ [s.time.ticks]).filter fun t => s.time.ticks - t < 10000000
  let s := s.modPort p fun q => { q with tagFails := inc32 q.tagFails, failedFrame := some q.frameRx, failTimes := times, again := true }
  if q.failedFrame == some q.frameRx then s.fence p 3
  else if 3 ≤ times.length then s.fence p 4
  else s

/-- ACK of a verified frame: the flits up to it leave the retry buffer, and waiting flits follow (R349, R350). -/
def Port.acked (q : Port) (ack : Nat) : Port :=
  let left := (q.txSeq + 4095 - ack) % 4096
  if q.unacked ≤ left then q
  else ({ q with unacked := left, expiries := 0, buffer := q.buffer.drop (q.buffer.length - ceilDiv (left + q.backlog) 8) } : Port).launch

/-- A flit lies beyond the one that a port waits for, not before it. -/
def seqGap (seq next : Nat) : Bool := (seq + 4096 - next) % 4096 < 2048

/-- The decoders' counts of a frame: codewords corrected, flits discarded (R348). -/
def Port.fecCounts (q : Port) (errs : List (Fin 8 × Fin 280 × BitVec 8)) : Port :=
  { q with fecCorr := satAdd 32 q.fecCorr (fecCorrected errs), fecUncorr := satAdd 32 q.fecUncorr (fecDiscards errs).length }

/-- A whole frame has verified: its ACK and RETRY act. -/
def Port.takeFrame (q : Port) (seq ack : Nat) (retry : Bool) : Port :=
  let q := ({ q with rxSeq := (seq + 7) % 4096, frameRx := q.frameRx + 1, failedFrame := none, again := false } : Port).acked ack
  if retry then { q with retries := inc32 q.retries } else q

/-- A frame is received: its flits are accepted in order up to one beyond correction, from which on the port asks for them again; a
whole frame acts once its tag verifies. -/
def frame (p : PortId) (seq ack : Nat) (retry tagOk : Bool) (errs : List (Fin 8 × Fin 280 × BitVec 8)) (s : State) : State :=
  let q := s.ports[p]
  if !s.carries p then s
  else
    let s := s.modPort p (·.fecCounts errs)
    let done := (q.rxSeq + 4097 - seq) % 4096
    if 8 ≤ done then (if seqGap seq ((q.rxSeq + 1) % 4096) then s.modPort p fun q => { q with again := true } else s)
    else match (fecDiscards errs).find? (done ≤ ·) with
      | some i => s.modPort p fun q => { q with rxSeq := (seq + i + 4095) % 4096, again := true }
      | none =>
        if tagOk && !fecWrong errs done then s.modPort p (·.takeFrame seq ack retry)
        else (s.modPort p fun q => { q with rxSeq := (seq + 4095) % 4096 }).frameFails p

def execFrame (p : PortId) (seq ack : BitVec 12) (retry tagOk : Bool) (data : List (Fin 8 × Fin 256 × BitVec 8))
    (check : List (Fin 8 × Fin 24 × BitVec 8)) (s : State) : Res :=
  .next (frame p seq.toNat ack.toNat retry tagOk (wireErrs data check) s).settle

/-! ### Keys in traffic (R356) -/

/-- A KEY record is sent; it joins the messages of the exchange. -/
def State.sendKey (s : State) (p : PortId) (message : Nat) (body : List Byte) : State :=
  (s.modPort p fun q => { q with rekey := message + 1, kexLog := q.kexLog ++ body }).sendRecord p { kind := 0x0A, sub := message, body }

/-- The exchange begins: side A sends the encapsulation key. -/
def execLinkRekey (p : PortId) (s : State) : Res :=
  .next (if (s.ports[p]).state == .up && (s.ports[p]).rekey = 0 && s.sideA p then
      let (n, s) := s.draw
      (s.modPort p fun q => { q with kexDk := (Config.kemKeyGen n).2, kexLog := [] }).sendKey p 0 (Config.kemKeyGen n).1
    else s)

/-- The proof of the resumption secret over the messages of the exchange so far. -/
def Port.proof (q : Port) : List Byte := digestBytes (hmac (digestBytes (q.resume.getD 0)) q.kexLog)

/-- What is wrong with a KEY record, as a case of R357: an encapsulation key or a ciphertext of another length breaks the exchange, a
proof must verify. -/
def Port.keyFault (q : Port) (message : Nat) (body : List Byte) : Option Nat :=
  if message = 0 then if body.length = 1184 then none else some 2
  else if message = 1 then if body.length = 1088 then none else some 2
  else if body = q.proof then none else some 1

/-- One KEY record: encapsulation key, ciphertext, proof of A, proof of B. After the last proof both sides switch keys. -/
def key (p : PortId) (message : Nat) (body : List Byte) (s : State) : State :=
  let q := s.ports[p]
  if !s.carries p || message != q.rekey || (s.sideA p == (message % 2 == 0)) then s
  else match q.keyFault message body with
    | some kase => s.fence p kase
    | none =>
      let s := s.modPort p fun q => { q with kexLog := (if message = 0 then [] else q.kexLog) ++ body }
      if message = 0 then
        let (n, s) := s.draw
        (s.modPort p fun q => { q with kexSecret := (Config.kemEncap n body).2 }).sendKey p 1 (Config.kemEncap n body).1
      else if message = 1 then
        let s := s.modPort p fun q => { q with kexSecret := Config.kemDecap q.kexDk body }
        s.sendKey p 2 (s.ports[p]).proof
      else
        let s := if message = 2 then s.sendKey p 3 (s.ports[p]).proof else s
        s.modPort p fun q => q.rekeyed (s.sideA p) q.kexSecret q.kexLog

def execKey (p : PortId) (message : Fin 4) (body : List Byte) (s : State) : Res := .next (key p message.val body s).settle

/-! ### Cohort policies (R360, R361) -/

/-- Entries of a policy payload (Table GRIZ-6). -/
def policyEntries (pl : List Byte) : List (Nat × BitVec 256) :=
  (List.range (u pl 8 4)).map fun i => (u pl (0x40 + 40 * i) 2, toDigest (slice pl (0x48 + 40 * i) 32))

def hasDup {α : Type} [DecidableEq α] : List α → Bool
  | [] => false
  | x :: xs => xs.contains x || hasDup xs

/-- Check 3 of R360. -/
def policyFieldsOk (pl : List Byte) (serial : Nat) : Bool :=
  let es := policyEntries pl
  u pl 0 4 = 0x4C504347 && u pl 4 2 = 1 && zeroAt pl 6 2 && zeroAt pl 0x18 40 && 2 ≤ u pl 8 4 && u pl 8 4 ≤ 65535 &&
    ((List.range (u pl 8 4)).all fun i => zeroAt pl (0x42 + 40 * i) 6) && !hasDup (es.map (·.1)) && !hasDup (es.map (·.2)) &&
    !(es.any (·.1 == 0xFFFF)) && serial < u pl 0x0C 4 && u pl 0x10 8 != 0

/-- The first check of R360 that fails. -/
def State.policyCheck (s : State) (k : Cmd) : Option Status :=
  let pl := k.payload
  let n := u pl 8 4
  let fn := k.fn
  let own := sha256 (digestBytes identityKey)
  if pl.length < 64 + 40 * n + 7856 then some .badParam
  else if !Config.slhVerify (((s.session? fn k.session).map (·.mouldKey)).getD 0) (pl.take (64 + 40 * n))
      (slice pl (64 + 40 * n) 7856) then some .integrity
  else if !policyFieldsOk pl (s.fns[fn]).serial || pl.length != 64 + 40 * n + 7856 then some .badParam
  else if !((policyEntries pl).contains (s.chipId, own)) then some .notPermitted
  else if (List.finRange 64).any (fun g => g != fn && ((s.fns[g]).cohort.map (·.id)) == some (BitVec.ofNat 64 (u pl 0x10 8))) then
    some .notPermitted
  else if (s.fns[fn]).moulds.any (fun m => m.flags.getLsbD 2 && m.cohort.any fun c => !((policyEntries pl).any (·.1 == c.chip))) then
    some .busy
  else none

/-- The frames of a policy, taken once those of the function's earlier policy are free again. -/
def State.policyFrames (s : State) (k : Cmd) : Option State :=
  (s.freeT1 (.policy k.fn)).allocT1 k.fn (.policy k.fn) (ceilDiv (64 + 40 * u k.payload 8 4) 2097152)

/-- The function's policy is in force (R360). -/
def State.formCohort (s : State) (k : Cmd) : State :=
  s.modFn k.fn fun f => { f with
    cohort := some { id := BitVec.ofNat 64 (u k.payload 0x10 8), entries := policyEntries k.payload }
    serial := u k.payload 0x0C 4 }

def cohortForm (k : Cmd) (s : State) : State :=
  checked .cohortForm k (zeroOutside k.p 32 []) 0
    (fun s => match s.policyCheck k with
      | some st => s.finish .cohortForm k st
      | none => match s.policyFrames k with
        | none => s.finish .cohortForm k .noSpace
        | some s => (s.formCohort k).finish .cohortForm k .ok (u k.payload 8 4)) s

def execCohortForm (k : Cmd) (s : State) : Res := hostCmd .cohortForm k (cohortForm k) s

def cohortLeave (k : Cmd) (s : State) : State :=
  let byHost := k.ring.isNone
  checked .cohortLeave k (plain k (if byHost then [(0, 1)] else []) && u k.p 0 1 < 64) 0
    (fun s =>
      let fn : FnId := if byHost then (fnOf (u k.p 0 1)).getD k.fn else k.fn
      if (s.fns[fn]).active then s
      else
        let s := ((s.scrapPrepared fn).closeWindows fn).freeT1 (.policy fn)
        (s.modFn fn fun f => { f with cohort := none, decisions := [] }).finish .cohortLeave k .ok) s

def execCohortLeave (k : Cmd) (s : State) : Res := hostCmd .cohortLeave k (cohortLeave k) s

/-! ### Windows (R94 to R96) -/

/-- WINDOW_OPEN's refusals, with the place of the slot it names. -/
def State.windowPlace (s : State) (k : Cmd) : Except Status (Mould × MForge) :=
  match (s.fns[k.fn]).mould? (BitVec.ofNat 64 (u k.p 0 8)) with
  | none => .error .badParam
  | some m => match m.forges[u k.p 8 1]? with
    | none => .error .badParam
    | some mf =>
      let slot := u k.p 9 1
      let right := u k.p 10 1
      let first := u k.p 0x0E 2
      let n := u k.p 0x10 2
      let acc := fun (w : Bool) => ({ write := w, slot, first, n } : Acc)
      if (mf.slot? slot).isNone || !mf.fits slot first n then .error .badParam
      else if (bit right 0 && (mf.clashes s.feat.cacheMask 0 7 [acc false]).isSome) || (bit right 1 && (mf.clashes s.feat.cacheMask 0 7 [acc true]).isSome) then
        .error .notPermitted
      else .ok (m, mf)

/-- The window that WINDOW_OPEN describes, at an index. -/
def newWindow (k : Cmd) (m : Mould) (i : Fin 16) : Window :=
  { index := i, fn := k.fn, mould := m.id, logical := u k.p 8 1, slot := u k.p 9 1, rights := u k.p 10 1
    peer := u k.p 12 2, rowFirst := u k.p 0x0E 2, rowCount := u k.p 0x10 2
    digest := BitVec.ofNat 64 (u k.p 0x18 8), expiry := u k.p 0x14 4 }

/-- The lowest window index of a forge that is not open. -/
def Forge.freeWindow (x : Forge) : Option (Fin 16) := (List.finRange 16).find? fun i => !(x.windows.any (·.index == i))

def windowOpen (k : Cmd) (s : State) : State :=
  checked .windowOpen k (plain k [(0, 11), (12, 6), (20, 12)] && 1 ≤ u k.p 10 1 && u k.p 10 1 ≤ 3 && 1 ≤ u k.p 0x10 2 && 1 ≤ u k.p 0x14 4) 0
    (fun s => match s.windowPlace k with
      | .error st => s.finish .windowOpen k st
      | .ok (m, mf) => match (s.forges[mf.phys]).freeWindow with
        | none => s.finish .windowOpen k .noSpace
        | some i => (s.modForge mf.phys fun x => { x with windows := x.windows ++ [newWindow k m i] }).finish .windowOpen k .ok
            (16 * mf.phys.val + i.val)) s

def execWindowOpen (k : Cmd) (s : State) : Res := hostCmd .windowOpen k (windowOpen k) s

/-- The open window of a handle: physical forge in bits [13:4], index in bits [3:0]. -/
def State.windowOf (s : State) (handle : Nat) : Option (ForgeId × Window) :=
  (forgeOf (handle / 16)).bind fun f => ((s.forges[f]).windows.find? (·.index.val == handle % 16)).map fun w => (f, w)

/-- A window closes; requests admitted before it complete. -/
def State.closeWindow (s : State) (f : ForgeId) (w : Window) : State :=
  s.modForge f fun x => { x with windows := x.windows.filter (· != w) }

/-- A command that waits for the admitted requests of its window. -/
def Deferred.closesFor (k : Cmd) : Deferred → Bool
  | .closeWindow k' _ _ => k' == k
  | _ => false

def windowClose (k : Cmd) (s : State) : State :=
  -- given again while it waits for admitted requests, it goes on waiting
  if s.deferred.any (·.closesFor k) then s
  else checked .windowClose k (plain k [(0, 2)]) 0
    (fun s => match s.windowOf (u k.p 0 2) with
      | none => s.finish .windowClose k .badParam
      | some (f, w) =>
        if w.fn != k.fn then s.finish .windowClose k .badParam
        else { s.closeWindow f w with deferred := s.deferred ++ [.closeWindow k f (u k.p 0 2)] }) s

def execWindowClose (k : Cmd) (s : State) : Res := hostCmd .windowClose k (windowClose k) s

def execWindowExpiry (handle : BitVec 16) (s : State) : Res :=
  .next (match s.windowOf handle.toNat with
    | some (f, w) => s.closeWindow f w
    | none => s)

/-! ### Records received (R362 to R367, R307) -/

/-- A record is discarded, counted and logged (R362). -/
def State.discardMsg (s : State) (p : PortId) (m : Msg) : State :=
  (s.modPort p fun q => { q with discards := inc32 q.discards }).log 0x0606 none p.val (bvBytes 8 m.cohort)

/-- A record that an admitted partner sends to a function; the function's moulds go on after it. -/
def onRecord (p : PortId) (m : Msg) (body : FnId → State → State) (s : State) : Res :=
  .next (if !s.carries p then s
    else match s.msgFn p m with
      | none => s.discardMsg p m
      | some fn => ((body fn s).pumpFn fn).settle)

/-- The position that a record claims is that of the partner on this port. -/
def State.fromPeer (s : State) (p : PortId) (m : Msg) (x : Mould) : Bool :=
  let q := s.ports[p]
  x.portTo m.src.toNat == some q.logical.val && match x.cohort[m.src.toNat]? with
    | some c => c.chip == q.partnerChip.toNat
    | none => false

/-- Running steps that a record's STEP or DIGEST does not fit: that of the mould that its DIGEST names, else those of the cohort
moulds that reach its sender (R72, R364). -/
def State.outOfStep (s : State) (fn : FnId) (p : PortId) (m : Msg) : List (BitVec 64) :=
  match (s.fns[fn]).msgMould m with
  | some x => if x.run.isSome && x.nextStep != m.step.toNat then [x.id] else []
  | none => ((s.fns[fn]).moulds.filter fun x => x.flags.getLsbD 2 && x.run.isSome && s.fromPeer p m x).map (·.id)

/-- A record that matches no credited receive: logged, and the tenant is annealed (R364). A step that its STEP or DIGEST does not
fit ends with ANNEALED (R72). -/
def State.mismatch (s : State) (fn : FnId) (p : PortId) (m : Msg) : State :=
  ((s.outOfStep fn p m).foldl (fun s id => s.closeStep fn id .annealed true) (s.log 0x0606 none p.val (bvBytes 8 m.cohort))).anneal (.tenant fn)

/-- A receive entry's data enters the receive log (R307). -/
def State.accept (s : State) (fn : FnId) (x : Mould) (i : Nat) (m : Msg) (held : Option Nat) : State :=
  s.modFn fn fun f => { f with
    recvLog := f.recvLog ++ [{ mould := x.id, recv := i, step := m.step.toNat, seq := m.seq.toNat, bytes := m.body, held }] }

/-- The receive log holds the message of an entry. -/
def Fn.logged (f : Fn) (id : BitVec 64) (i step : Nat) : Bool :=
  f.recvLog.any fun l => l.mould == id && l.recv == i && l.step == step

/-- A DATA record may take a receive entry now: credited, for the step in turn, of the entry's length and format, and
after every earlier entry of its source (R70, R364). -/
def State.dataFits (s : State) (fn : FnId) (x : Mould) (i : Nat) (e : XferEntry) (m : Msg) : Bool :=
  let f := s.fns[fn]
  let step := m.step.toNat
  step == x.nextStep && x.credited.contains i && !f.logged x.id i step && m.body.length == e.length &&
    m.format.toNat == e.format && !x.isAnswer i &&
    (List.range i).all fun j => match x.recvs[j]? with
      | some d => d.peer != e.peer || x.isAnswer j || f.logged x.id j step
      | none => true

/-- An ANSWER to a diverted read: LENGTH 0 ends the requesting step with TIMEOUT (R366). -/
def State.answered (s : State) (fn : FnId) (p : PortId) (x : Mould) (i : Nat) (e : XferEntry) (m : Msg) : State :=
  match x.run with
  | none => s.discardMsg p m
  | some r =>
    if r.index != m.step.toNat || !r.requested.contains i || (s.fns[fn]).logged x.id i m.step.toNat then s.discardMsg p m
    else if m.body.isEmpty then s.endStep fn x.id .timeout
    else if m.body.length != e.length then s.mismatch fn p m
    else s.accept fn x i m none

/-- The receive entry of a DATA record, with its number. -/
def Mould.recvFor (x : Mould) (m : Msg) : Option (XferEntry × Nat) :=
  x.recvs.zipIdx.find? fun (e : XferEntry × Nat) => m.dst.toNat == x.selfPos && e.1.peer == m.src.toNat && e.1.sequence == m.seq.toNat

def data (p : PortId) (m : Msg) (fn : FnId) (s : State) : State :=
  match (s.fns[fn]).msgMould m with
  | none => s.mismatch fn p m
  | some x =>
    if !s.fromPeer p m x then s.discardMsg p m
    else match x.recvFor m with
      | none => s.mismatch fn p m
      | some (e, i) =>
        if m.flags.getLsbD 0 && ((s.fns[fn]).logged x.id i m.step.toNat || m.step.toNat < x.nextStep) then
          s.modPort p fun q => { q with discards := inc32 q.discards }
        else if m.flags.getLsbD 2 then s.answered fn p x i e m
        else if s.dataFits fn x i e m then s.accept fn x i m (if m.flags.getLsbD 1 then some m.sub.toNat else none)
        else s.mismatch fn p m

def execData (p : PortId) (m : Msg) (s : State) : Res := onRecord p m (data p m) s

/-- A credit is kept, also for a mould that is not installed yet. -/
def credit (p : PortId) (m : Msg) (fn : FnId) (s : State) : State :=
  match (s.fns[fn]).msgMould m with
  | some x => if s.fromPeer p m x && m.dst.toNat == x.selfPos then add s else s.discardMsg p m
  | none => add s
where
  add (s : State) : State := s.modFn fn fun f =>
    let c := (m.digest, m.step.toNat, m.src.toNat, m.seq.toNat)
    { f with creditsIn := if f.creditsIn.contains c then f.creditsIn else f.creditsIn ++ [c] }

def execCredit (p : PortId) (m : Msg) (s : State) : Res := onRecord p m (credit p m) s

/-- The ON_REQUEST entry that a REQUEST names. -/
def Mould.sendFor (x : Mould) (m : Msg) : Option XferEntry :=
  x.sends.find? fun e => m.dst.toNat == x.selfPos && e.onRequest && e.peer == m.src.toNat && e.sequence == m.seq.toNat

/-- The part of the mould that holds an entry's slot, while the step runs and the slot is FULL. -/
def Mould.offered (x : Mould) (e : XferEntry) (step : Nat) : Option MForge :=
  match x.run, x.forges[e.forge]? with
  | some r, some mf => if r.index == step && !r.rerun && r.status.isNone && r.entered e && mf.full.contains e.slot then some mf else none
  | _, _ => none

/-- The bytes that a REQUEST is answered with, read from its entry's slot as agent 0x6. A bank that is not Grizlink's to read ends
the step and gives none (R57, R85). -/
def State.requested (s : State) (fn : FnId) (x : Mould) (e : XferEntry) (step : Nat) : State × List Byte :=
  match x.offered e step with
  | none => (s, [])
  | some mf => match mf.clashes s.feat.cacheMask 0 6 [{ slot := e.slot, first := 0, n := ceilDiv e.length 512 }] with
    | some c => (s.conflict mf.phys { fn, mould := x.id, logical := e.forge } 6 c, [])
    | none => (s, (s.readRows mf.phys mf e.slot 0 (ceilDiv e.length 512)).take e.length)

/-- A REQUEST is answered from its entry's slot while the step runs and the slot is FULL, else with LENGTH 0 (R366). -/
def request (p : PortId) (m : Msg) (fn : FnId) (s : State) : State :=
  match (s.fns[fn]).msgMould m with
  | none => s.discardMsg p m
  | some x =>
    if !s.fromPeer p m x then s.discardMsg p m
    else match x.sendFor m with
      | none => s.discardMsg p m
      | some e =>
        let r := s.requested fn x e m.step.toNat
        r.1.sendTo fn x m.src.toNat 1 0 m.step.toNat m.seq.toNat 4 e.format r.2

def execRequest (p : PortId) (m : Msg) (s : State) : Res := onRecord p m (request p m) s

/-- Whether a logged message is held for the heat that a RELEASE or DISCARD names (R365). -/
def Mould.holds (x : Mould) (m : Msg) (l : LogMsg) : Bool :=
  l.mould == x.id && l.step == m.step.toNat && l.held == some m.sub.toNat && match x.recvs[l.recv]? with
    | some e => e.peer == m.src.toNat
    | none => false

def onHeld (p : PortId) (m : Msg) (g : (LogMsg → Bool) → List LogMsg → List LogMsg) (fn : FnId) (s : State) : State :=
  match (s.fns[fn]).msgMould m with
  | none => s.discardMsg p m
  | some x => if s.fromPeer p m x then s.modFn fn fun f => { f with recvLog := g (x.holds m) f.recvLog } else s.discardMsg p m

def release (p : PortId) (m : Msg) (fn : FnId) (s : State) : State :=
  onHeld p m (fun h => updateWhere h fun (l : LogMsg) => { l with held := none }) fn s

def discard (p : PortId) (m : Msg) (fn : FnId) (s : State) : State :=
  onHeld p m (fun h => List.filter fun (l : LogMsg) => !h l) fn s

def execRelease (p : PortId) (m : Msg) (s : State) : Res := onRecord p m (release p m) s
def execDiscard (p : PortId) (m : Msg) (s : State) : Res := onRecord p m (discard p m) s

/-! ### Digests (R72) -/

/-- The DIGEST of a peer names another cohort than a running mould that waits for it: its step ends with INTEGRITY. One
that no running mould waits for is kept. -/
def State.strayDigest (s : State) (fn : FnId) (p : PortId) (m : Msg) : State :=
  let chip := (s.ports[p]).partnerChip.toNat
  let waits := fun (x : Mould) => x.flags.getLsbD 2 && x.run.isSome && s.fromPeer p m x && x.listPeers.contains m.src.toNat &&
    !x.checkedPeers.contains m.src.toNat
  match (s.fns[fn]).moulds.find? waits with
  | some x => s.endStep fn x.id .integrity
  | none => s.modFn fn fun f => { f with earlyDigests := f.earlyDigests.filter (·.1 != chip) ++ [(chip, m.body)] }

/-- A peer's digests are checked: its COHORT_DIGEST is the mould's own, and its mould digest goes into the set of R72. -/
def Mould.checkPeer (x : Mould) (pos : Nat) (d : BitVec 256) : Mould :=
  { x with
    checkedPeers := if x.checkedPeers.contains pos then x.checkedPeers else x.checkedPeers ++ [pos]
    peerDigests := x.peerDigests.filter (·.1 != pos) ++ [(pos, d)] }

def digest (p : PortId) (m : Msg) (fn : FnId) (s : State) : State :=
  match (s.fns[fn]).msgMould m with
  | none => s.strayDigest fn p m
  | some x =>
    if !s.fromPeer p m x then s.discardMsg p m
    else if m.body.length == 64 && m.body.drop 32 == digestBytes x.cohortDigest then
      let chip := (s.ports[p]).partnerChip.toNat
      let x := x.checkPeer m.src.toNat (toDigest (m.body.take 32))
      let s := (s.modMould fn x.id fun _ => x).modFn fn fun f => { f with earlyDigests := f.earlyDigests.filter (·.1 != chip) }
      if x.wrongSet then s.endStep fn x.id .integrity else s
    else s.strayDigest fn p m

def execDigest (p : PortId) (m : Msg) (s : State) : Res := onRecord p m (digest p m) s

/-! ### Window requests and answers (R95, R367) -/

/-- The checks of a request against its window: identity, rows, rights, the header's reserved bits. -/
def windowAdmits (q : Port) (fn : FnId) (w : Window) (m : Msg) : Bool :=
  let read := bit (u m.body 10 1) 0
  let first := u m.body 12 2
  let n := u m.body 14 2
  w.fn == fn && w.reaches q && u m.body 10 1 < 4 && zeroAt m.body 11 1 && 1 ≤ n && first + n ≤ w.rowCount &&
    bit w.rights (if read then 0 else 1) && (read || 512 * n + 512 ≤ m.body.length)

def windowReq (p : PortId) (m : Msg) (fn : FnId) (s : State) : State :=
  let handle := u m.body 8 2
  let refused := s.refuseRequest p m
  match s.windowOf handle with
  | none => refused
  | some (f, w) =>
    if !windowAdmits (s.ports[p]) fn w m then refused
    else
      let x : WinPend := { port := p, win := w, msg := m }
      match s.windowTry f x with
      | some s => s
      | none => s.modForge f fun y => { y with winWait := y.winWait ++ [x] }

def execWindowReq (p : PortId) (m : Msg) (s : State) : Res := onRecord p m (windowReq p m) s

/-- The answer to a request of the running step: a refusal ends the step; the rows of a read go to the receive entry with
the same peer and SEQUENCE. -/
def windowResp (p : PortId) (m : Msg) (fn : FnId) (s : State) : State :=
  match (s.fns[fn]).msgMould m with
  | none => s.discardMsg p m
  | some x =>
    let mine := fun (e : XferEntry) => e.peer == m.src.toNat && e.sequence == m.seq.toNat
    match x.run, x.sends.findIdx? mine with
    | some r, some i =>
      if !s.fromPeer p m x || r.index != m.step.toNat || !r.sent.contains i then s.discardMsg p m
      else if m.sub == 1 then s.endStep fn x.id .notPermitted
      else if m.sub == 2 then s.endStep fn x.id .slotTimeout
      else match x.recvs.findIdx? mine with
        | some j =>
          if m.body.isEmpty || (s.fns[fn]).logged x.id j m.step.toNat then s else s.accept fn x j m none
        | none => s
    | _, _ => s.discardMsg p m

def execWindowResp (p : PortId) (m : Msg) (s : State) : Res := onRecord p m (windowResp p m) s

/-! ### Distributed commits (R300 to R303, Table HEAT-6) -/

/-- The mould and the HEAT_BOUNDS index that a HEAT record names, where its identifiers match. -/
def State.heatMsg (s : State) (fn : FnId) (p : PortId) (m : Msg) : Option (Mould × Nat) :=
  let b := u m.body 8 2
  match (s.fns[fn]).msgMould m with
  | none => none
  | some x =>
    let ok := s.fromPeer p m x && m.dst.toNat == x.selfPos && m.body.length == 16 && m.body.take 8 == (digestBytes x.cohortDigest).take 8 &&
      zeroAt m.body 10 6 && match x.heats[b]? with
        | some h => h.distributed && h.participants.contains m.src.toNat && h.participants.contains x.selfPos
        | none => false
    if ok then some (x, b) else none

/-- The heat of a step that has not committed. -/
def Fn.stepHeat (f : Fn) (id : BitVec 64) (b step : Nat) : Option (Fin 32 × Heat) :=
  (f.stepHeats id).find? fun h => h.2.stepIndex == step && match h.2.origin with
    | .step _ b' => b' == b
    | _ => false

/-- A HEAT record whose identifiers match no heat: discarded, counted, logged (R301). -/
def State.badHeat (s : State) (fn : FnId) (p : PortId) : State :=
  let q := s.ports[p]
  (s.modPort p fun q => { q with discards := inc32 q.discards }).log 0x0306 (some fn) q.logical.val (toLe 2 q.partnerChip.toNat)

/-- An undecided distributed heat that this module coordinates and of which the partner on a port is a participant. -/
def State.coordinated (s : State) (fn : FnId) (p : PortId) : Option (Fin 32 × Mould × Nat × Nat) :=
  let chip := (s.ports[p]).partnerChip.toNat
  (s.fns[fn]).moulds.findSome? fun x =>
    if x.coordinator != x.selfPos then none
    else ((s.fns[fn]).stepHeats x.id).findSome? fun h => match h.2.origin with
      | .step _ b =>
        let takes : Bool := match x.heats[b]? with
          | some hb => hb.distributed && hb.participants.any fun pos => ((x.cohort[pos]?).map (·.chip)) == some chip
          | none => false
        if takes then some (h.1, x, b, h.2.stepIndex) else none
      | _ => none

/-- A mismatched vote counts as SCRAP. -/
def State.badVote (s : State) (fn : FnId) (p : PortId) : State :=
  let s := s.badHeat fn p
  match s.coordinated fn p with
  | some (slot, x, b, step) => s.decide fn slot x b step false
  | none => s

def votePrepared (p : PortId) (m : Msg) (fn : FnId) (s : State) : State :=
  match s.heatMsg fn p m with
  | none => s.badVote fn p
  | some (x, b) =>
    let v : Vote := { mould := x.id, bound := b, step := m.step.toNat, pos := m.src.toNat }
    let past := (s.fns[fn]).decisions.any fun d => d.mould == x.id && d.bound == b && d.step == m.step.toNat && d.commit
    if x.coordinator != x.selfPos || m.step.toNat != x.nextStep || past then s.badVote fn p
    else
      let s := s.modFn fn fun f => { f with votes := if f.votes.contains v then f.votes else f.votes ++ [v] }
      match (s.fns[fn]).stepHeat x.id b m.step.toNat with
      | some h => s.tryDecide fn h.1
      | none => s

/-- VOTE SCRAP decides at once; one that comes before the heat has opened is kept for it (R300). -/
def voteScrap (p : PortId) (m : Msg) (fn : FnId) (s : State) : State :=
  match s.heatMsg fn p m with
  | none => s.badVote fn p
  | some (x, b) =>
    if x.coordinator != x.selfPos then s.badVote fn p
    else match (s.fns[fn]).stepHeat x.id b m.step.toNat with
      | some h => s.decide fn h.1 x b m.step.toNat false
      | none =>
        if m.step.toNat == x.nextStep then
          s.modFn fn fun f => { f with votes := f.votes ++ [{ mould := x.id, bound := b, step := m.step.toNat, pos := m.src.toNat, scrap := true }] }
        else s.badHeat fn p

def execVotePrepared (p : PortId) (m : Msg) (s : State) : Res := onRecord p m (votePrepared p m) s
def execVoteScrap (p : PortId) (m : Msg) (s : State) : Res := onRecord p m (voteScrap p m) s

/-- A decision is accepted from the coordinator only. It acts on the heat it names; one on a heat that is decided already is
acknowledged again, and one that matches no heat is discarded (R301). -/
def onDecision (p : PortId) (m : Msg) (fits : Heat → Bool) (past : Mould → Nat → Bool)
    (act : Fin 32 × Heat → Mould → Nat → State → State) (fn : FnId) (s : State) : State :=
  match s.heatMsg fn p m with
  | none => s.badHeat fn p
  | some (x, b) =>
    if m.src.toNat != x.coordinator then s.badHeat fn p
    else match (s.fns[fn]).stepHeat x.id b m.step.toNat with
      | some h =>
        if fits h.2 then (act h x b s).sendHeat fn x x.coordinator 5 b m.step.toNat else s.badHeat fn p
      | none => if past x b then s.sendHeat fn x x.coordinator 5 b m.step.toNat else s.badHeat fn p

/-- COMMIT commits a heat in doubt. -/
def decisionCommit (p : PortId) (m : Msg) (fn : FnId) (s : State) : State :=
  onDecision p m (fun h => h.state == HeatState.prepared)
    (fun x b => m.step.toNat < x.nextStep || (m.step.toNat == x.nextStep && b < x.committed))
    (fun h _ _ s => s.commitStepHeat fn h.1) fn s

/-- SCRAP: the participant scraps, and its step runs again; a heat that it has scrapped itself is gone already. -/
def decisionScrap (p : PortId) (m : Msg) (fn : FnId) (s : State) : State :=
  onDecision p m (fun _ => true) (fun x b => m.step.toNat == x.nextStep && x.committed ≤ b)
    (fun h x _ s => (s.scrapStepHeat fn h.1 .annealed).annealStep fn x.id 6) fn s

def execDecisionCommit (p : PortId) (m : Msg) (s : State) : Res := onRecord p m (decisionCommit p m) s
def execDecisionScrap (p : PortId) (m : Msg) (s : State) : Res := onRecord p m (decisionScrap p m) s

/-- An acknowledgement: its ACKED record is written, and after the last one the decision is released (Table HEAT-6). -/
def ack (p : PortId) (m : Msg) (fn : FnId) (s : State) : State :=
  match s.heatMsg fn p m with
  | none => s.badHeat fn p
  | some (x, b) =>
    let is := fun (d : Decision) => d.mould == x.id && d.bound == b && d.step == m.step.toNat
    match (s.fns[fn]).decisions.find? fun d => is d && d.waiting.contains m.src.toNat with
    | none => s.badHeat fn p
    | some d => s.modFn fn fun f => { f with
      journal := f.journal ++ [{ kind := 0x0C, slot := d.slot, index := (f.records d.slot d.heat).length, heat := d.heat
                                 payload := fit 12 (toLe 2 (s.ports[p]).partnerChip.toNat) }]
      decisions := (updateWhere is (fun (d : Decision) => { d with waiting := d.waiting.filter (· != m.src.toNat) })
        f.decisions).filter fun d => !d.waiting.isEmpty }

def execAck (p : PortId) (m : Msg) (s : State) : Res := onRecord p m (ack p m) s

/-- A QUERY is answered with the decision while it is held, with SCRAP where no heat is held, and not at all while the
heat is undecided (R303). A participant asks only after its vote: one whose vote for the OPEN heat is not here asks for the
heat of an attempt that an anneal has scrapped. -/
def query (p : PortId) (m : Msg) (fn : FnId) (s : State) : State :=
  match s.heatMsg fn p m with
  | none => s.badHeat fn p
  | some (x, b) =>
    if x.coordinator != x.selfPos then s.badHeat fn p
    else match (s.fns[fn]).decisions.find? fun d => d.mould == x.id && d.bound == b && d.step == m.step.toNat with
      | some d => s.sendHeat fn x m.src.toNat (if d.commit then 3 else 4) b m.step.toNat
      | none => match (s.fns[fn]).stepHeat x.id b m.step.toNat with
        | some _ =>
          if (s.fns[fn]).votes.contains { mould := x.id, bound := b, step := m.step.toNat, pos := m.src.toNat } then s
          else s.sendHeat fn x m.src.toNat 4 b m.step.toNat
        | none =>
          (s.modFn fn fun f => { f with votes := f.votes.filter fun v =>
            !(v.mould == x.id && v.bound == b && v.step == m.step.toNat && v.pos == m.src.toNat) }).sendHeat fn x m.src.toNat 4 b m.step.toNat

def execQuery (p : PortId) (m : Msg) (s : State) : Res := onRecord p m (query p m) s

/-- A prepared participant asks its coordinator while a path exists (R302). -/
def inDoubtQuery (fn : FnId) (slot : Fin 32) (s : State) : State :=
  match (s.fns[fn]).heat slot with
  | none => s
  | some h => match h.origin with
    | .step id b => match (s.fns[fn]).mould? id with
      | none => s
      | some m =>
        let path := match s.portOf m m.coordinator with
          | some p => (s.ports[p]).state == .up
          | none => false
        if h.state == HeatState.prepared && path then s.sendHeat fn m m.coordinator 6 b h.stepIndex else s
    | _ => s

def execInDoubtQueryInterval (fn : FnId) (slot : Fin 32) (s : State) : Res := .next (inDoubtQuery fn slot s)

end Sys2Proof.Machine
end

