-- ==== Sys2Proof/Machine/Regs.lean ====
section
/-! DEFINITION. The register blocks (Table CONN-11 and the register maps): reads with their side effects, writes under the
access codes, and BAR0 (R7 to R9, R316 to R318, R334, R439, R440). -/

namespace Sys2Proof.Machine

/-! ### Words (R8, R9) -/

/-- A 32-bit register word as it stands: what a read returns and does, and what a write does where some field of it may be
written. -/
structure RegWord where
  value : Nat
  read : State → State := id
  write : Option (Nat → State → State) := none
  /-- REG_WRITE may not write it: write-only, or Smith's alone (Table CMND-10) -/
  closed : Bool := false

def State.latched (s : State) (a : Nat) : Option Nat := (s.smith.latches.find? (·.1 == a)).map (·.2)

/-- Empty the latch of a wide register, by the address of its low word. -/
def State.unlatch (s : State) (a : Nat) : State :=
  { s with smith := { s.smith with latches := s.smith.latches.filter (·.1 != a) } }

def State.latch (s : State) (a v : Nat) : State :=
  { s.unlatch a with smith := { (s.unlatch a).smith with latches := (a, v) :: (s.unlatch a).smith.latches } }

def ro (v : Nat) : RegWord := { value := v }

/-- A counter that a read clears (ROC). -/
def roc (v : Nat) (clear : State → State) : RegWord := { value := v, read := clear }

/-- The low word of a wide register: its read latches the high word and, for ROC, clears the whole register. -/
def lowWord (a v : Nat) (clear : State → State := id) : RegWord :=
  { value := v % 2 ^ 32, read := fun s => (clear s).latch a (v / 2 ^ 32) }

/-- The high word: the latched value where the latch holds one, which it empties. -/
def highWord (s : State) (a v : Nat) : RegWord :=
  { value := (s.latched a).getD (v / 2 ^ 32), read := fun s => s.unlatch a }

def rw (v : Nat) (write : Nat → State → State) : RegWord := { value := v, write := some write }

/-- A word whose only writable field is one W1C bit. -/
def w1c (v i : Nat) (clear : State → State) : RegWord :=
  { value := v, write := some fun w s => if bit w i then clear s else s }

/-- An error word: VALID in bit 31, STATUS in bits [27:12], the rest below. -/
def errWord (valid : Bool) (status low : Nat) (clear : State → State) : RegWord :=
  w1c (2 ^ 31 * b2n valid + 4096 * status + low) 31 clear

/-- A word of a block instance whose power domain is off (R440). -/
def RegWord.off (r : RegWord) : RegWord :=
  { value := 0, write := r.write.map fun _ _ s => s, closed := r.closed }

/-! ### Control blocks -/

/-- Table CONN-12. -/
def smithReg (s : State) (off : Nat) : Option RegWord :=
  match off with
  | 0x0 => some (ro (b2n s.smith.firmware + 2 * b2n s.smith.faultService + 2 ^ 28 * s.smith.coreUp.toNat))
  | 0x4 => some (ro (match s.flights.find? fun f => f.cmd.ring.isNone && !f.background with
      | some f => 2 ^ 31 + f.op.code
      | none => 0))
  | 0x8 => some (roc s.smith.watchdog fun s => { s with smith := { s.smith with watchdog := 0 } })
  | _ => none

/-- Table TRST-16. -/
def hallReg (s : State) (off : Nat) : Option RegWord :=
  let h := s.hall
  match off with
  | 0x00 => some (ro (b2n h.identityOk + 2 * b2n h.image.isSome + 4 * b2n h.fwRunning + 8 * b2n h.t1Degraded + 16 * h.stage))
  | 0x04 => some (ro h.svn)
  | 0x08 => some (ro h.fwVersion)
  | 0x0C => some (ro (s.ledger.rollback 0))
  | 0x10 => some (ro (s.ledger.rollback 1 % 4))
  | 0x14 => some (errWord h.errValid h.errStatus.toNat (256 * h.errKind.toNat + h.errCheck.toNat) fun s =>
      s.modHall fun h => { h with errValid := false })
  | 0x18 => some (ro ((h.sessions.toList.map (·.length)).foldl (· + ·) 0))
  | 0x1C => some (roc h.tagFails fun s => s.modHall fun h => { h with tagFails := 0 })
  | 0x20 => some (roc h.kexRefused fun s => s.modHall fun h => { h with kexRefused := 0 })
  | 0x24 => some (roc h.attests fun s => s.modHall fun h => { h with attests := 0 })
  | 0x28 => some (roc h.reseeds fun s => s.modHall fun h => { h with reseeds := 0 })
  | _ => none

/-- Table TRST-17. -/
def ledgReg (s : State) (off : Nat) : Option RegWord :=
  let l := s.ledger
  match off with
  | 0x00 => some (ro (ceilDiv l.used 1024 + 2 ^ 27 * b2n l.half + 2 ^ 28 * b2n l.mfgLocked + 2 ^ 29 * b2n l.compacting
      + 2 ^ 30 * b2n s.bell.low + 2 ^ 31 * b2n (!s.bell.low)))
  | 0x04 => some (ro (l.log.filter l.isLive).length)
  | 0x08 => some (ro (l.topSeq % 2 ^ 32))
  | 0x0C => some (roc l.writes fun s => { s with ledger := { s.ledger with writes := 0 } })
  | 0x10 => some (roc l.authFails fun s => { s with ledger := { s.ledger with authFails := 0 } })
  | 0x14 => some (roc l.refused fun s => { s with ledger := { s.ledger with refused := 0 } })
  | _ => none

/-- The hottest die sensor. -/
def Bellows.dieHottest (b : Bellows) : Nat × BitVec 16 :=
  ((b.temps.toList.zipIdx).filter (dieSensor ·.2)).foldl (fun (m : Nat × BitVec 16) x =>
    if m.2.toInt < x.1.toInt then (x.2, x.1) else m) (0, b.temps[0])

/-- The events part of the BELL_ block. -/
def eventReg (s : State) (a off : Nat) : Option RegWord :=
  let e := s.events
  match off with
  | 0x80 => some (lowWord a (e.ringAddr.toNat / 4096 * 4096))
  | 0x84 => some (highWord s (a - 4) e.ringAddr.toNat)
  | 0x88 => some (ro (e.ringLog2 + 2 ^ 31 * b2n e.enabled))
  | 0x8C => some (ro (e.held.length + 2 ^ 16 * e.written + 2 ^ 31 * b2n e.coalescing))
  | 0x90 => some (ro e.counters.length)
  | 0x94 => some (roc e.lostCount fun s => { s with events := { s.events with lostCount := 0 } })
  | 0x98 => some (roc e.coalescedCount fun s => { s with events := { s.events with coalescedCount := 0 } })
  | _ => none

/-- The time base (Table TIME-4). -/
def timeReg (s : State) (a off : Nat) : Option RegWord :=
  match off with
  | 0x100 => some (lowWord a s.time.ticks)
  | 0x104 => some (highWord s (a - 4) s.time.ticks)
  | 0x108 => some (w1c (s.time.src.toNat + 8 * b2n s.time.refLost) 3 fun s => { s with time := { s.time with refLost := false } })
  | 0x10C => some (roc s.time.losses fun s => { s with time := { s.time with losses := 0 } })
  | _ => none

/-- Table POWR-8. The measured voltage of a domain is a free value (log 1). -/
def bellReg (s : State) (a off : Nat) : Option RegWord :=
  let b := s.bell
  let clr := fun (g : Bellows → Bellows) (s : State) => s.modBell g
  match off with
  | 0x00 => some (ro (b.voltageMv10.toNat + 65536 * b.currentMa10.toNat))
  | 0x04 => some (ro (b.sample % 65536 + 65536 * (b.average % 65536)))
  | 0x08 => some { value := b2n b.limitSeen + 2 * b2n b.lowSeen + 4 * b2n b.low
                   write := some fun w s => s.modBell fun b =>
                     { b with limitSeen := b.limitSeen && !bit w 0, lowSeen := b.lowSeen && !bit w 1 } }
  | 0x10 => some (ro (b.cap + 2 ^ 30 * b2n b.unreachable + 2 ^ 31 * b2n (b.capForge < 750 || b.capMigr < 750 || b.capCtl < 750)))
  | 0x14 => some (ro b.capWindow)
  | 0x18 => some (roc b.capTicks (clr fun b => { b with capTicks := 0 }))
  | 0x20 => some (ro (bits b.domOn.toNat 0 32))
  | 0x24 => some (ro (bits b.domOn.toNat 32 32))
  | 0x28 => some (ro (bits b.domOn.toNat 64 32))
  | 0x2C => some (ro (bits b.domOn.toNat 96 32))
  | 0x30 => some (rw b.domSel.toNat fun w s => s.modBell fun b => { b with domSel := BitVec.ofNat 7 w })
  | 0x34 => some { value := b.setMv b.domSel.toNat + 65536 * (Config.freeNat s.draws % 1024), read := fun s => s.draw.2 }
  | 0x38 => some (roc b.undervolts (clr fun b => { b with undervolts := 0 }))
  | 0x40 => some (ro (b.dieHottest.2.toNat + 65536 * b.dieHottest.1))
  | 0x44 => some (w1c (b2n b.hotSeen + 2 * b2n b.dieThrottle + 4 * b2n b.stackThrottle + 2 ^ 28 * b.faultCause.toNat) 0
      (clr fun b => { b with hotSeen := false }))
  | 0x48 => some (roc b.throttleTicks (clr fun b => { b with throttleTicks := 0 }))
  | _ => if off < 0x100 then eventReg s a off else timeReg s a off

/-- A function number read from six bits. -/
def fn6 (v : BitVec 6) : FnId := Fin.ofNat 64 v.toNat

/-- Two bits a slot: 0 free, 1 OPEN, 2 PREPARED, 3 COMMITTED. -/
def Fn.slotCodes (f : Fn) (first : Nat) : Nat :=
  (List.range 16).foldl (fun v i => v + 4 ^ i * match (f.slots.toList.getD (first + i) none).map (·.state) with
    | none => 0
    | some .open_ => 1
    | some .prepared => 2
    | some .committed => 3) 0

/-- The level that HEAT_ANNEAL_SEL shows, as an index from 0. -/
def HeatRegs.level (h : HeatRegs) : Fin 7 := Fin.ofNat 7 (h.annealSel.toNat - 1)

/-- Table HEAT-12. -/
def heatReg (s : State) (a off : Nat) : Option RegWord :=
  let fn := fn6 s.heatRegs.sel
  let f := s.fns[fn]
  let lv := s.heatRegs.level
  match off with
  | 0x00 => some (rw s.heatRegs.sel.toNat fun w s => { s with heatRegs := { s.heatRegs with sel := BitVec.ofNat 6 w } })
  | 0x04 => some (ro (b2n f.fault + 2 * b2n s.host[fn].quiescing + 256 * f.inDoubt + 65536 * f.counted))
  | 0x08 => some (lowWord a (f.slotCodes 0 + 2 ^ 32 * f.slotCodes 16))
  | 0x0C => some (highWord s (a - 4) (2 ^ 32 * f.slotCodes 16))
  | 0x10 => some (lowWord a f.commits fun s => s.modFn fn fun f => { f with commits := 0 })
  | 0x14 => some (highWord s (a - 4) f.commits)
  | 0x18 => some (roc f.scraps fun s => s.modFn fn fun f => { f with scraps := 0 })
  | 0x1C => some (ro f.journalFree)
  | 0x20 => some (lowWord a f.commitSeq)
  | 0x24 => some (highWord s (a - 4) f.commitSeq)
  | 0x28 => some (roc f.replays fun s => s.modFn fn fun f => { f with replays := 0 })
  | 0x30 => some (rw (lv.val + 1) fun w s => { s with heatRegs := { s.heatRegs with annealSel := BitVec.ofNat 3 w } })
  | 0x34 => some (roc (s.heatRegs.anneals[lv]) fun s =>
      { s with heatRegs := { s.heatRegs with anneals := s.heatRegs.anneals.set lv 0 } })
  | 0x38 => some (roc (s.heatRegs.fails[lv]) fun s =>
      { s with heatRegs := { s.heatRegs with fails := s.heatRegs.fails.set lv 0 } })
  | _ => none

/-- Table TIER-12. -/
def migrReg (s : State) (a off : Nat) : Option RegWord :=
  let sel := s.migr.sel
  let fn := fn6 (sel.extractLsb' 8 6)
  let g : Fin 16 := Fin.ofNat 16 (sel.extractLsb' 0 4).toNat
  let c : Fin 16 := Fin.ofNat 16 (sel.extractLsb' 4 4).toNat
  let f := s.fns[fn]
  let staging := (s.t1.filter fun x => match x.use with | .staging _ => true | _ => false).length
  match off with
  | 0x00 => some (rw sel.toNat fun w s => { s with migr := { s.migr with sel := BitVec.ofNat 14 w } })
  | 0x04 => some (roc (f.stallMisses[g]) fun s => s.modFn fn fun f => { f with stallMisses := f.stallMisses.set g 0 })
  | 0x08 => some (lowWord a (f.stallTicks[g]) fun s => s.modFn fn fun f => { f with stallTicks := f.stallTicks.set g 0 })
  | 0x0C => some (highWord s (a - 4) (f.stallTicks[g]))
  | 0x10 => some (roc (f.diverts[g]) fun s => s.modFn fn fun f => { f with diverts := f.diverts.set g 0 })
  | 0x14 => some (roc (f.causes[c]) fun s => s.modFn fn fun f => { f with causes := f.causes.set c 0 })
  | 0x20 => some (ro (s.freeT1Count + staging))
  | 0x24 => some (ro s.freeT2Count)
  | 0x28 => some (ro staging)
  | 0x30 => some (lowWord a s.migr.up fun s => { s with migr := { s.migr with up := 0 } })
  | 0x34 => some (highWord s (a - 4) s.migr.up)
  | 0x38 => some (lowWord a s.migr.down fun s => { s with migr := { s.migr with down := 0 } })
  | 0x3C => some (highWord s (a - 4) s.migr.down)
  | 0x40 => some (roc s.migr.poisoned fun s => { s with migr := { s.migr with poisoned := 0 } })
  | _ => none

/-! ### Near tier, Plinths, ports -/

def ChanState.code : ChanState → Nat
  | .active => 0 | .retraining => 1 | .mappedOut => 2 | .repair => 3

/-- A channel's registers (Table TIER-11). -/
def chanReg (s : State) (c : ChanId) (off : Nat) : Option RegWord :=
  let x := s.near.chans[c]
  let clr := fun (g : Chan → Chan) (s : State) => s.modChan c g
  match off with
  | 0x00 => some (ro (x.queue.length + 2 ^ 30 * x.state.code))
  | 0x04 => some (roc x.ce1 (clr fun x => { x with ce1 := 0 }))
  | 0x08 => some (roc x.ce2 (clr fun x => { x with ce2 := 0 }))
  | 0x0C => some (roc (x.ueOther + 65536 * x.ueAddress) (clr fun x => { x with ueOther := 0, ueAddress := 0 }))
  | 0x10 => some (roc x.retrains (clr fun x => { x with retrains := 0 }))
  | 0x14 => some (roc x.retrainTicks (clr fun x => { x with retrainTicks := 0 }))
  | 0x18 => some (ro (x.spareRows.toList.foldl (· + ·) 0 + 256 * x.spareCols))
  | _ => none

def stackReg (s : State) (k : StackId) (off : Nat) : Option RegWord :=
  let x := s.near.stks[k]
  match off with
  | 0x0 => some (ro x.temp.toNat)
  | 0x4 => some (w1c (x.level + 2 ^ 31 * b2n x.hard) 31 fun s => s.modStack k fun x => { x with hard := false })
  | 0x8 => some (roc x.quenchTicks fun s => s.modStack k fun x => { x with quenchTicks := 0 })
  | _ =>
    if 0x100 ≤ off && off < 0x500 then chanReg s (Fin.ofNat 512 (32 * k.val + (off - 0x100) / 0x20)) ((off - 0x100) % 0x20) else none

def nearReg (s : State) (a off : Nat) : Option RegWord :=
  let n := s.near
  let inEffect := n.mapouts.filter (!·.2)
  let p : Fin 64 := Fin.ofNat 64 n.partSel.toNat
  if off = 0 then some (ro (512 - inEffect.length + 65536 * inEffect.length))
  else if 4 ≤ off && off < 0x44 then some (ro (match n.mapouts[(off - 4) / 4]? with
    | some m => m.1.val + (if m.2 then 2 ^ 30 else 2 ^ 31)
    | none => 0))
  else match off with
    | 0x80 => some (rw n.partSel.toNat fun w s => s.modNear fun n => { n with partSel := BitVec.ofNat 6 w })
    | 0x84 => some (lowWord a (n.parts[p]).waitTicks fun s => s.modNear fun n =>
        { n with parts := vmod n.parts p fun x => { x with waitTicks := 0 } })
    | 0x88 => some (highWord s (a - 4) (n.parts[p]).waitTicks)
    | _ => none

/-- Table PLIN-10. -/
def plinthReg (s : State) (n : PlinthId) (a off : Nat) : Option RegWord :=
  let p := s.plinths[n]
  let clr := fun (g : Plinth → Plinth) (s : State) => s.modPlinth n g
  let mask := fun (t : Chain → Bool) => (p.chains.toList.zipIdx.filter (t ·.1)).foldl (fun v x => v + 2 ^ x.2) 0
  match off with
  | 0x00 => some { value := p.compute.toNat, write := some fun _ s => s, closed := true }
  | 0x04 => some (ro (bits s.feat.scanGroups.toNat (6 * n.val) 6))
  | 0x08 => some (ro (mask (fun c => c.queue.length = 4) + 4096 * mask (fun c => c.access.isSome || c.compute.isSome)
      + 2 ^ 24 * p.selfRefresh.toNat + 2 ^ 30 * b2n p.linkUp + 2 ^ 31 * b2n p.scan.isSome))
  | 0x0C => some (errWord p.errValid p.errStatus (256 * p.errKind + p.errChain) (clr fun p => { p with errValid := false }))
  | 0x10 => some (roc p.ceOdecc (clr fun p => { p with ceOdecc := 0 }))
  | 0x14 => some (roc p.ceCheck (clr fun p => { p with ceCheck := 0 }))
  | 0x18 => some (roc p.ue (clr fun p => { p with ue := 0 }))
  | 0x1C => some (roc p.tagFail (clr fun p => { p with tagFail := 0 }))
  | 0x20 => some (roc p.ordWait (clr fun p => { p with ordWait := 0 }))
  | 0x24 => some (roc p.suspends (clr fun p => { p with suspends := 0 }))
  | 0x28 => some (lowWord a p.instrs (clr fun p => { p with instrs := 0 }))
  | 0x2C => some (highWord s (a - 4) p.instrs)
  | 0x30 => some (roc p.unitAnneals (clr fun p => { p with unitAnneals := 0 }))
  | 0x34 => some (rw p.devSel.toNat fun w s => s.modPlinth n fun p => { p with devSel := BitVec.ofNat 3 w })
  | 0x38 => some (ro (if p.devSel.toNat < 6 then (s.bell.temps.toList.getD (80 + 6 * n.val + p.devSel.toNat) 0).toNat else 0))
  | 0x40 => some (lowWord a p.agg.toNat)
  | 0x44 => some (highWord s (a - 4) p.agg.toNat)
  | _ => none

/-- Table GRIZ-12. -/
def portReg (s : State) (p : PortId) (a off : Nat) : Option RegWord :=
  let q := s.ports[p]
  let v := q.reg off
  let clr := fun (g : Port → Port) (s : State) => s.modPort p g
  match off with
  | 0x00 | 0x04 => some (ro v)
  | 0x10 => some (lowWord a (v + 2 ^ 32 * q.reg 0x14))
  | 0x14 => some (highWord s (a - 4) (2 ^ 32 * v))
  | 0x08 => some (lowWord a (v + 2 ^ 32 * q.reg 0x0C))
  | 0x0C => some (highWord s (a - 4) (2 ^ 32 * v))
  | 0x18 => some { value := v, write := some fun w s => s.modPort p fun q =>
      { q with evAnnealed := q.evAnnealed && !bit w 0, evSwapped := q.evSwapped && !bit w 1
               evDegraded := q.evDegraded && !bit w 2, evFenced := q.evFenced && !bit w 3 } }
  | 0x20 => some (roc v (clr fun q => { q with fecCorr := 0 }))
  | 0x24 => some (roc v (clr fun q => { q with fecUncorr := 0 }))
  | 0x28 => some (roc v (clr fun q => { q with retries := 0 }))
  | 0x2C => some (roc v (clr fun q => { q with tagFails := 0 }))
  | 0x30 => some (roc v (clr fun q => { q with creditWait := 0 }))
  | 0x34 => some (roc v (clr fun q => { q with discards := 0 }))
  | 0x38 => some (lowWord a q.tx (clr fun q => { q with tx := 0 }))
  | 0x3C => some (highWord s (a - 4) q.tx)
  | _ => none

/-- Table GRIZ-13. A combine is done within one command: BUSY is 0. -/
def collReg (s : State) (off : Nat) : Option RegWord :=
  let clr := fun (g : Coll → Coll) (s : State) => { s with coll := g s.coll }
  match off with
  | 0x0 => some (ro 0)
  | 0x4 => some (roc s.coll.saturated (clr fun c => { c with saturated := 0 }))
  | 0x8 => some (roc s.coll.specials (clr fun c => { c with specials := 0 }))
  | 0xC => some (roc s.coll.combines (clr fun c => { c with combines := 0 }))
  | _ => none

/-! ### Forge blocks. The instruction at the head of an engine's issued list is the running one. -/

/-- Installed moulds assigned to a forge, of every function. -/
def State.mouldsOn (s : State) (f : ForgeId) : List (Mould × MForge) :=
  ((List.finRange 64).map fun fn => (s.fns[fn]).moulds.filterMap fun m =>
    (m.forges.find? (·.phys == f)).map fun mf => (m, mf)).flatten

/-- Table CONN-13. -/
def forgeReg (s : State) (f : ForgeId) (off : Nat) : Option RegWord :=
  let x := s.forges[f]
  match off with
  | 0x0 => some (ro (2 ^ 31 + 2 ^ 30 * b2n x.job.isSome + 2 ^ 29 * b2n x.failed + (match x.job with
      | some j => j.fn.val + 256 * j.logical
      | none => 0x7FFF)))
  | 0x4 => some (ro (s.mouldsOn f).length)
  | 0x8 => some (roc x.anneals fun s => s.modForge f fun x => { x with anneals := 0 })
  | _ => none

/-- Table ANVL-13. -/
def anvilReg (s : State) (f : ForgeId) (a off : Nat) : Option RegWord :=
  let x := (s.forges[f]).anvil
  let clr := fun (g : Anvil → Anvil) (s : State) => s.modForge f fun x => { x with anvil := g x.anvil }
  let run := x.issued.head?
  match off with
  | 0x00 => some (ro ((run.map (·.tile)).getD 0 % 256 + 256 * (x.issued.length - 1) + 65536 * x.queue.length
      + 2 ^ 29 * b2n (run.isSome && x.queue.length = 8) + 2 ^ 30 * b2n x.waitOpnd + 2 ^ 31 * b2n run.isSome))
  | 0x04 => some (ro (match run with
      | some j => j.cfg.mt.toNat + 256 * j.cfg.out.toNat + 65536 * j.cfg.bSide.toNat + 2 ^ 24 * j.cfg.aSide.toNat
      | none => 0))
  | 0x08 => some (errWord x.errValid x.errStatus (256 * x.errKind) (clr fun x => { x with errValid := false }))
  | 0x0C => some (ro x.errPc)
  | 0x10 => some (roc x.specials (clr fun x => { x with specials := 0 }))
  | 0x14 => some (roc x.saturated (clr fun x => { x with saturated := 0 }))
  | 0x18 => some (lowWord a x.beats (clr fun x => { x with beats := 0 }))
  | 0x1C => some (highWord s (a - 4) x.beats)
  | 0x20 => some (ro (x.tiles % 2 ^ 32))
  | _ => none

/-- Table SWAG-8. An expansion is done within one command: BUSY, the waits and PANELS are 0. -/
def swageReg (s : State) (f : ForgeId) (a off : Nat) : Option RegWord :=
  let x := (s.forges[f]).swage
  let clr := fun (g : Swage → Swage) (s : State) => s.modForge f fun x => { x with swage := g x.swage }
  match off with
  | 0x00 => some (ro (65536 * (x.tables.toList.zipIdx.filter (·.1.isSome)).foldl (fun v t => v + 2 ^ t.2) 0))
  | 0x04 => some (errWord x.errValid x.errStatus (16 * x.errCheck) (clr fun x => { x with errValid := false }))
  | 0x08 => some (ro x.errBillet)
  | 0x0C => some (ro x.errPc)
  | 0x10 => some (lowWord a x.inBytes (clr fun x => { x with inBytes := 0 }))
  | 0x14 => some (highWord s (a - 4) x.inBytes)
  | 0x18 => some (lowWord a x.outBytes (clr fun x => { x with outBytes := 0 }))
  | 0x1C => some (highWord s (a - 4) x.outBytes)
  | 0x20 => some (roc x.rawBlocks (clr fun x => { x with rawBlocks := 0 }))
  | _ => none

/-- Table SWAG-9. A Press instruction is done within one command: CHANNEL and BILLETS are 0 between commands. -/
def pressReg (s : State) (f : ForgeId) (a off : Nat) : Option RegWord :=
  let x := (s.forges[f]).press
  let clr := fun (g : Press → Press) (s : State) => s.modForge f fun x => { x with press := g x.press }
  match off with
  | 0x00 => some (ro (2 ^ 24 * (x.tables.toList.zipIdx.filter (·.1.built)).foldl (fun v t => v + 2 ^ t.2) 0
      + 2 ^ 30 * b2n x.waitCh + 2 ^ 31 * b2n (!x.issued.isEmpty)))
  | 0x04 => some (errWord x.errValid x.errStatus 0 (clr fun x => { x with errValid := false }))
  | 0x08 => some (ro x.errPc)
  | 0x10 => some (lowWord a x.raw (clr fun x => { x with raw := 0 }))
  | 0x14 => some (highWord s (a - 4) x.raw)
  | 0x18 => some (lowWord a x.stored (clr fun x => { x with stored := 0 }))
  | 0x1C => some (highWord s (a - 4) x.stored)
  | 0x20 => some (roc x.rawBlocks (clr fun x => { x with rawBlocks := 0 }))
  | _ => none

/-- Table CHSL-11. The running instruction has passed no vector while it waits; its predecessor's writes are done. -/
def chiselReg (s : State) (f : ForgeId) (a off : Nat) : Option RegWord :=
  let x := (s.forges[f]).chisel
  let clr := fun (g : Chisel → Chisel) (s : State) => s.modForge f fun x => { x with chisel := g x.chisel }
  match off with
  | 0x00 => some (ro (65536 * (x.issued.length - 1) + 2 ^ 30 * b2n x.waitOpnd + 2 ^ 31 * b2n (!x.issued.isEmpty)))
  | 0x04 => some (ro ((x.tregs.toList.zipIdx.filter (·.1.isSome)).foldl (fun v t => v + 2 ^ t.2) 0))
  | 0x08 => some (errWord x.errValid x.errStatus (x.errCheck % 16) (clr fun x => { x with errValid := false }))
  | 0x0C => some (ro x.errPc)
  | 0x10 => some (roc x.saturated (clr fun x => { x with saturated := 0 }))
  | 0x14 => some (roc x.specials (clr fun x => { x with specials := 0 }))
  | 0x18 => some (lowWord a x.vectors (clr fun x => { x with vectors := 0 }))
  | 0x1C => some (highWord s (a - 4) x.vectors)
  | _ => none

/-- Table CRUC-12. -/
def crucReg (s : State) (f : ForgeId) (a off : Nat) : Option RegWord :=
  let x := (s.forges[f]).cruc
  let clr := fun (g : Crucible → Crucible) (s : State) => s.modForge f fun x => { x with cruc := g x.cruc }
  match off with
  | 0x00 => some (ro ((x.issued.head?.map (·.page)).getD 0 + 2 ^ 24 * (x.issued.length - 1) + 2 ^ 27 * b2n x.waitDivert
      + 2 ^ 28 * b2n x.waitPending + 2 ^ 29 * b2n x.waitT1 + 2 ^ 30 * b2n x.waitOpnd + 2 ^ 31 * b2n (!x.issued.isEmpty)))
  | 0x04 => some (ro x.lab.length)
  | 0x08 => some (errWord x.errValid x.errStatus x.errCheck (clr fun x => { x with errValid := false }))
  | 0x0C => some (ro x.errPc)
  | 0x10 => some (roc x.labHits (clr fun x => { x with labHits := 0 }))
  | 0x14 => some (roc x.labMisses (clr fun x => { x with labMisses := 0 }))
  | 0x18 => some (roc x.rowsEmpty (clr fun x => { x with rowsEmpty := 0 }))
  | 0x1C => some (roc x.rowsInf (clr fun x => { x with rowsInf := 0 }))
  | 0x20 => some (roc x.rowsNan (clr fun x => { x with rowsNan := 0 }))
  | 0x24 => some (roc x.scoreSat (clr fun x => { x with scoreSat := 0 }))
  | 0x28 => some (roc x.specials (clr fun x => { x with specials := 0 }))
  | 0x2C => some (roc x.diverts (clr fun x => { x with diverts := 0 }))
  | 0x30 => some (lowWord a x.records (clr fun x => { x with records := 0 }))
  | 0x34 => some (highWord s (a - 4) x.records)
  | 0x38 => some (roc x.appends (clr fun x => { x with appends := 0 }))
  | _ => none

/-- The mould whose slots HEARTH_TAG shows: the running step's, else the one installed last on the forge. -/
def State.tagMould (s : State) (f : ForgeId) : Option MForge :=
  match (s.forges[f]).job with
  | some j => ((s.fns[j.fn]).mould? j.mould).bind (·.forges[j.logical]?)
  | none => ((sortAsc (fun (x : Mould × MForge) => x.1.order) (s.mouldsOn f)).getLast?).map (·.2)

def State.tagWord (s : State) (f : ForgeId) : Nat :=
  let n := (s.forges[f]).tagSel
  match s.tagMould f with
  | none => 0
  | some mf =>
    if (mf.slot? n).isNone then 0
    else b2n (mf.full.contains n) + 2 * b2n (mf.wait.contains n) + 4 * b2n (mf.hold.contains n)

/-- Table HRTH-11. -/
def hearthReg (s : State) (f : ForgeId) (a off : Nat) : Option RegWord :=
  let x := s.forges[f]
  let clr := fun (g : Forge → Forge) (s : State) => s.modForge f g
  match off with
  | 0x00 => some (ro s.feat.cacheMask.toNat)
  | 0x04 => some (ro x.phase)
  | 0x10 => some (w1c (x.conflict.toNat + 2 ^ 31 * b2n x.conflictValid) 31 (clr fun x => { x with conflictValid := false }))
  | 0x14 => some (ro (b2n x.conflictUntagged + 2 * b2n x.conflictWrite))
  | 0x18 => some (roc x.conflictCount (clr fun x => { x with conflictCount := 0 }))
  | 0x1C => some (roc x.slotTimeouts (clr fun x => { x with slotTimeouts := 0 }))
  | 0x20 => some (rw x.tagSel fun w s => s.modForge f fun x => { x with tagSel := w % 256 })
  | 0x24 => some (ro (s.tagWord f))
  | 0x30 => some (lowWord a x.cacheHits (clr fun x => { x with cacheHits := 0 }))
  | 0x34 => some (highWord s (a - 4) x.cacheHits)
  | 0x38 => some (lowWord a x.cacheMisses (clr fun x => { x with cacheMisses := 0 }))
  | 0x3C => some (highWord s (a - 4) x.cacheMisses)
  | 0x40 => some (ro (x.windows.foldl (fun v w => v + 2 ^ w.index.val) 0))
  | _ => none

/-- Table HRTH-12. A transfer is done within one command: no staging buffer is in use between commands. -/
def tongsReg (s : State) (f : ForgeId) (a off : Nat) : Option RegWord :=
  let x := s.forges[f]
  if off < 0x80 then
    let c : TongsId := Fin.ofNat 8 (off / 16)
    let t := x.tchans[c]
    match off % 16 with
    | 0x0 => some (ro (t.desc + 2 ^ 26 * b2n t.stopping + 2 ^ 27 * b2n t.hold + 2 ^ 28 * b2n t.tagWait + 2 ^ 29 * b2n t.paused
        + 2 ^ 30 * b2n t.shadow.isSome + 2 ^ 31 * b2n t.active.isSome))
    | 0x4 => some (ro (t.done % 2 ^ 32))
    | 0x8 => some (errWord t.errValid t.errStatus t.errDesc fun s => s.modForge f fun x =>
        { x with tchans := vmod x.tchans c fun t => { t with errValid := false } })
    | 0xC => some (ro t.crc)
    | _ => none
  else match off with
    | 0x80 => some (ro 0)
    | 0x88 => some (lowWord a x.tBytes fun s => s.modForge f fun x => { x with tBytes := 0 })
    | 0x8C => some (highWord s (a - 4) x.tBytes)
    | _ => none

/-! ### BAR0 (R316 to R319) -/

/-- A 32-bit half of a 64-bit ring address, low bits reserved. -/
def setHalf (v : BitVec 64) (high : Bool) (w : Nat) : BitVec 64 :=
  if high then BitVec.ofNat 64 (v.toNat % 2 ^ 32 + 2 ^ 32 * (w % 2 ^ 32))
  else BitVec.ofNat 64 (v.toNat / 2 ^ 32 * 2 ^ 32 + w % 2 ^ 32 / 4096 * 4096)

def half (v : BitVec 64) (high : Bool) : Nat := if high then v.toNat / 2 ^ 32 else v.toNat % 2 ^ 32

/-- A ring's registers (Table CMND-3). Writes to the address and size registers of an active ring are ignored (R318). -/
def ringReg (s : State) (fn : FnId) (r : Option RingId) (off : Nat) : Option RegWord :=
  let q := s.ring fn r
  let idle := fun (g : Nat → Ring → Ring) => some fun (w : Nat) (s : State) =>
    s.modRing fn r fun q => if q.active then q else g w q
  match off with
  | 0x00 => some { value := half q.sq false, write := idle fun w q => { q with sq := setHalf q.sq false w } }
  | 0x04 => some { value := half q.sq true, write := idle fun w q => { q with sq := setHalf q.sq true w } }
  | 0x08 => some { value := half q.rq false, write := idle fun w q => { q with rq := setHalf q.rq false w } }
  | 0x0C => some { value := half q.rq true, write := idle fun w q => { q with rq := setHalf q.rq true w } }
  | 0x10 => some { value := half q.pt false, write := idle fun w q => { q with pt := setHalf q.pt false w } }
  | 0x14 => some { value := half q.pt true, write := idle fun w q => { q with pt := setHalf q.pt true w } }
  | 0x18 => some { value := q.size.toNat, write := idle fun w q => { q with size := BitVec.ofNat 32 (w % 2 ^ 14) } }
  | 0x1C => some { value := b2n q.enable + 2 * b2n q.active + 4 * b2n q.error
                   write := some fun w s =>
                     let s := if bit w 2 then s.modRing fn r fun q => { q with error := false } else s
                     if bit w 0 then ringEnable fn r s else ringDisable fn r s }
  | 0x20 => some (rw q.coal.toNat fun w s => s.modRing fn r fun q => { q with coal := BitVec.ofNat 32 w &&& 0xFFFF00FF })
  | 0x24 => some (ro q.sqHead)
  | 0x28 => some (ro q.rqTail)
  | 0x2C => some (w1c (q.errStatus.toNat + 2 ^ 31 * b2n q.errValid) 31 fun s => s.modRing fn r fun q => { q with errValid := false })
  | _ => none

/-- A doorbell pair: write-only. -/
def doorbellReg (fn : FnId) (r : Option RingId) (off : Nat) : Option RegWord :=
  match off with
  | 0 => some { value := 0, write := some fun w s => hostDbSq fn r (w % 65536) s, closed := true }
  | 4 => some { value := 0, write := some fun w s => hostDbRq fn r (w % 65536) s, closed := true }
  | _ => none

/-- An MSI-X vector whose mask is now clear and that is pending is sent (R325). -/
def State.unmask (s : State) (fn : FnId) (v : Fin 66) : State :=
  let h := s.host[fn]
  if (h.msix[v]).getLsbD 96 || !h.msixPend.getLsbD v.val || h.d3hot then s
  else (s.modHost fn fun h => { h with msixPend := h.msixPend &&& ~~~(1#66 <<< v.val) }).send (.msix fn v.val)

/-- A 32-bit word of the MSI-X table. -/
def msixReg (s : State) (fn : FnId) (n off : Nat) : Option RegWord :=
  if h : off / 16 < 66 then
    if n ≤ off / 16 then none
    else
      let v : Fin 66 := ⟨off / 16, h⟩
      let i := off % 16 / 4
      let e := (s.host[fn]).msix[v]
      let put := fun (w : Nat) =>
        BitVec.ofNat 128 (e.toNat - 2 ^ (32 * i) * bits e.toNat (32 * i) 32 + 2 ^ (32 * i) * (w % 2 ^ 32))
      some (rw (bits e.toNat (32 * i) 32) fun w s =>
        (s.modHost fn fun x => { x with msix := x.msix.set v.val (put w) v.isLt }).unmask fn v)
  else none

/-- A word of the pending-bit array. -/
def pbaReg (s : State) (fn : FnId) (off : Nat) : Option RegWord := some (ro (bits (s.host[fn]).msixPend.toNat (8 * off) 32))

/-- A function slice (Table CMND-3, R317). -/
def sliceReg (s : State) (fn : FnId) (off : Nat) : Option RegWord :=
  if off = 0 then some (ro (fn.val + 64 * b2n (s.host[fn]).enabled + 128 * b2n (s.host[fn]).quiescing))
  else if 0x1000 ≤ off && off < 0x2000 then ringReg s fn (some (Fin.ofNat 64 ((off - 0x1000) / 0x40))) ((off - 0x1000) % 0x40)
  else if fn != 0 && 0x4000 ≤ off && off < 0x4400 then msixReg s fn 64 (off - 0x4000)
  else if fn != 0 && 0x5000 ≤ off && off < 0x5008 then pbaReg s fn (off - 0x5000)
  else if 0x8000 ≤ off && off < 0x8200 then doorbellReg fn (some (Fin.ofNat 64 ((off - 0x8000) / 8))) (off % 8)
  else none

/-- BAR0 of a function (Table CMND-2). The three identification registers follow one another from offset 0 (DESIGN CHOICE,
log 64). -/
def barReg (s : State) (fn : FnId) (off : Nat) : Option RegWord :=
  if fn != 0 then (if off < 0x10000 then sliceReg s fn off else none)
  else if 0x10000 ≤ off then (if off < 0x20000 then sliceReg s 0 (off - 0x10000) else none)
  else match off with
    | 0 => some (ro 0x4D445054)
    | 4 => some (ro Config.stepping.toNat)
    | 8 => some (ro s.pcie.ready.toNat)
    | _ =>
      if 0x1000 ≤ off && off < 0x1040 then ringReg s 0 none (off - 0x1000)
      else if 0x1800 ≤ off && off < 0x1808 then doorbellReg 0 none (off - 0x1800)
      else if 0x2000 ≤ off && off < 0x2420 then msixReg s 0 66 (off - 0x2000)
      else if 0x3000 ≤ off && off < 0x3010 then pbaReg s 0 (off - 0x3000)
      else none

/-! ### The base map (Table CONN-11) -/

def gate (on : Bool) (r : Option RegWord) : Option RegWord := if on then r else r.map RegWord.off

/-- The blocks with one instance for each forge, by their place in the map. -/
def perForge (s : State) (block : Nat) (f : ForgeId) (a off : Nat) : Option RegWord :=
  gate (s.forgeOn f) (match block with
    | 0 => forgeReg s f off
    | 1 => anvilReg s f a off
    | 2 => swageReg s f a off
    | 3 => pressReg s f a off
    | 4 => chiselReg s f a off
    | 5 => crucReg s f a off
    | 6 => hearthReg s f a off
    | _ => tongsReg s f a off)

/-- The word at a die address, where a register map defines one. -/
def dieReg (s : State) (a : Nat) : Option RegWord :=
  let o := a - 0xFF00000000
  let i := o / 0x10000
  let off := o % 0x10000
  if a < 0xFF00000000 || a % 4 != 0 then none
  else if i = 0 then gate (s.domOn 97) (smithReg s off)
  else if i = 1 then gate (s.domOn 98) (hallReg s off)
  else if i = 2 then ledgReg s off
  else if i = 3 then bellReg s a off
  else if i = 4 then gate (s.domOn 97) (heatReg s a off)
  else if i = 5 then gate (s.domOn 99) (migrReg s a off)
  else if i = 0x10 then gate (s.domOn 97) (nearReg s a off)
  else if 0x11 ≤ i && i < 0x21 then gate (s.domOn (64 + (i - 0x11))) (stackReg s (Fin.ofNat 16 (i - 0x11)) off)
  else if 0x30 ≤ i && i < 0x38 then gate (s.domOn (80 + (i - 0x30))) (plinthReg s (Fin.ofNat 8 (i - 0x30)) a off)
  else if 0x40 ≤ i && i < 0x48 then gate (s.domOn (88 + (i - 0x40))) (portReg s (Fin.ofNat 8 (i - 0x40)) a off)
  else if i = 0x48 then gate (s.portOn 0) (collReg s off)
  else if 0x100 ≤ i && i < 0x300 then perForge s ((i - 0x100) / 0x40) (Fin.ofNat 64 ((i - 0x100) % 0x40)) a off
  else if 0x400 ≤ i && i < 0x500 then gate (s.domOn 96) (barReg s 0 (o - 0x4000000))
  else none

/-- The word that an access names: a die address, or BAR0 of function f at f × 2^24 + its offset (DESIGN CHOICE, log 64). -/
def State.regAt (s : State) (a : Nat) : Option RegWord :=
  if a < 2 ^ 30 then (if a % 4 = 0 then gate (s.domOn 96) (barReg s (Fin.ofNat 64 (a / 2 ^ 24)) (a % 2 ^ 24)) else none)
  else dieReg s a

/-- A read: the value returned, and the state it leaves. -/
def State.readReg (s : State) (a : Nat) : Nat × State :=
  match s.regAt a with
  | some r => (r.value, r.read s)
  | none => (0, s)

def State.writeReg (s : State) (a w : Nat) : State :=
  match s.regAt a with
  | some r => match r.write with
    | some g => g w s
    | none => s
  | none => s

/-- A register access needs Smith's control path. -/
def regRead (a : Nat) (s : State) : State :=
  if s.domOn 97 then (s.readReg a).2.send (.read a (s.readReg a).1) else s
def regWrite (a w : Nat) (s : State) : State := if s.domOn 97 then (s.writeReg a w).settle else s

def execRocRead (addr : BitVec 48) (s : State) : Res := .next (regRead addr.toNat s)
def execLowWordRead (addr : BitVec 48) (s : State) : Res := .next (regRead addr.toNat s)
def execHighWordRead (addr : BitVec 48) (s : State) : Res := .next (regRead addr.toNat s)
def execW1cWrite (addr : BitVec 48) (value : BitVec 32) (s : State) : Res := .next (regWrite addr.toNat value.toNat s)
def execRegisterWrite (addr : BitVec 48) (value : BitVec 32) (s : State) : Res := .next (regWrite addr.toNat value.toNat s)

end Sys2Proof.Machine
end

