-- ==== Sys2Proof/Machine/Features.lean ====
section
/-! DEFINITION. SET_FEATURE and GET_FEATURE: timeouts, cache segments, scan groups, register access (R41, R87, R89, R257,
R334). -/

namespace Sys2Proof.Machine

/-! ### Timeouts (R41, Table TIME-6) -/

/-- Ranges in ticks, features 0x0101 to 0x010B. -/
def timeoutRange : List (Nat × Nat) :=
  [(1000, 10000000), (100000, 100000000), (10000, 10000000), (100000, 1000000), (2000, 100000), (500, 50000)] ++
    [(10000, 1000000), (100000, 10000000), (1000000, 1000000000), (100000, 100000000), (100000, 10000000)]

/-- The orders that the timeouts keep among themselves. -/
def timeoutsOk (t : Vector Nat 11) : Bool :=
  8 * t[5] < t[6] && t[4] < t[6] && t[6] < t[0] && t[3] < t[1] && t[2] < t[1] && t[9] < t[8]

def setTimeout (k : Cmd) (i : Fin 11) (v : Nat) (s : State) : State :=
  let r := timeoutRange.getD i.val (0, 0)
  let t := s.feat.timeouts.set i v
  if v < r.1 || r.2 < v || !timeoutsOk t then s.finish .setFeature k .badParam
  else { s with feat := { s.feat with timeouts := t } }.finish .setFeature k .ok

/-! ### Cache segments (R87, R89) -/

/-- Segments that hold rows of a mould's slots. -/
def Mould.segments (m : Mould) : List Nat :=
  ((m.forges.map (·.slots)).flatten.map fun d => (List.range d.rowCount).map fun i => (d.rowFirst + i) / 64).flatten.eraseDups

/-- Installed moulds with slot rows in a segment that the mask puts into cache mode. -/
def State.mouldsUnder (s : State) (mask : Nat) : Nat :=
  ((List.finRange 64).map fun fn => ((s.fns[fn]).moulds.filter fun m => m.segments.any (bit mask ·)).length).foldl (· + ·) 0

/-- Events 3 to 5 of R89: the cache is written back and dropped, the segments switch, the switched rows are zero. -/
def State.switchSegments (s : State) (mask : BitVec 12) : State :=
  let changed := s.feat.cacheMask ^^^ mask
  let s := s.dropCache
  { s with
    feat := { s.feat with cacheMask := mask }
    forges := Vector.ofFn fun f : Fin 64 =>
      if s.forgeOn f then { s.forges[f] with zeroSeg := (s.forges[f]).zeroSeg ||| changed } else s.forges[f]
    hearth := s.hearth.filter fun c => !changed.getLsbD (c.1 % 2 ^ 24 / 16384 / 64) }

def setSegments (k : Cmd) (v : Nat) (s : State) : State :=
  let n := s.mouldsUnder v
  if v = 0 || 2 ^ 12 ≤ v then s.finish .setFeature k .badParam
  else if n != 0 then s.finish .setFeature k .busy n
  else if s.anyRunning then s
  else (s.switchSegments (BitVec.ofNat 12 v)).finish .setFeature k .ok

/-! ### Scan groups (R257) -/

/-- What a mask makes of a group: any role, RETRIEVAL only, or every other role. -/
def groupClass (mask : BitVec 48) (g : Nat) : Nat := if mask = 0 then 0 else if mask.getLsbD g then 1 else 2

def setScanGroups (k : Cmd) (v : Nat) (s : State) : State :=
  let mask := BitVec.ofNat 48 v
  if 2 ^ 48 ≤ v then s.finish .setFeature k .badParam
  else if s.t2.any fun x => groupClass s.feat.scanGroups (t2Group x.num) != groupClass mask (t2Group x.num) then
    s.finish .setFeature k .busy
  else { s with feat := { s.feat with scanGroups := mask } }.finish .setFeature k .ok

/-! ### REG_WRITE and REG_READ (R334) -/

/-- ARG of a register access. -/
def regArgOk (a : Nat) : Bool := 0xFF00000000 ≤ a && a % 4 = 0

def setRegister (k : Cmd) (a v : Nat) (s : State) : State :=
  if !regArgOk a || 2 ^ 32 ≤ v then s.finish .setFeature k .badParam
  else match dieReg s a with
    | none => s.finish .setFeature k .ok
    | some r => match r.write with
      | none => s.finish .setFeature k .notPermitted
      | some g => if r.closed then s.finish .setFeature k .notPermitted else (g v s).finish .setFeature k .ok

def setFeature (k : Cmd) (s : State) : State :=
  let code := u k.p 0 2
  let v := u k.p 8 8
  let arg := u k.p 16 8
  checked .setFeature k (plain k [(0, 2), (8, 16)] && (arg = 0 || code = 0xF001)) 0
    (fun s =>
      if h : 0x101 ≤ code ∧ code < 0x10C then setTimeout k ⟨code - 0x101, by omega⟩ v s
      else if code = 0x0201 then setSegments k v s
      else if code = 0x0301 then setScanGroups k v s
      else if code = 0xF001 then setRegister k arg v s
      else s.finish .setFeature k .badParam) s

def execSetFeature (k : Cmd) (s : State) : Res := hostCmd .setFeature k (setFeature k) s
def execHearthCacheSegments (k : Cmd) (s : State) : Res := hostCmd .setFeature k (fun s => setFeature k s) s
def execPlinthScanGroups (k : Cmd) (s : State) : Res := hostCmd .setFeature k (setFeature k) s
def execRegWrite (k : Cmd) (s : State) : Res := hostCmd .setFeature k (fun s => setFeature k s) s

def getFeature (k : Cmd) (s : State) : State :=
  let code := u k.p 0 2
  let arg := u k.p 16 8
  checked .getFeature k (plain k [(0, 2), (16, 8)] && (arg = 0 || code = 0xF000)) 8
    (fun s =>
      let give := fun (s : State) (v : Nat) => s.finish .getFeature k .ok 0 (toLe 8 v)
      if h : 0x101 ≤ code ∧ code < 0x10C then give s (s.timeout ⟨code - 0x101, by omega⟩)
      else if code = 0x0201 then give s s.feat.cacheMask.toNat
      else if code = 0x0301 then give s s.feat.scanGroups.toNat
      else if code = 0xF000 then
        if !regArgOk arg then s.finish .getFeature k .badParam
        else give (s.readReg arg).2 (s.readReg arg).1
      else s.finish .getFeature k .badParam) s

def execGetFeature (k : Cmd) (s : State) : Res := hostCmd .getFeature k (getFeature k) s
def execRegRead (k : Cmd) (s : State) : Res := hostCmd .getFeature k (fun s => getFeature k s) s

end Sys2Proof.Machine
end

