-- ==== Sys2Proof/Machine/MouldCheck.lean ====
section
/-! DEFINITION. Mould containers: sections, streams, programs, and the load-time checks of Table MOLD-13 (R52 to R75,
R441). -/

namespace Sys2Proof.Machine

/-! ### Sections (Tables MOLD-2 to MOLD-4) -/

/-- A directory entry. -/
structure Sec where
  index : Nat
  type : Nat
  forge : Nat
  rsvd : Nat
  entries : Nat
  off : Nat
  len : Nat
  deriving DecidableEq, Repr

/-- The directory of a container. -/
def sections (pl : List Byte) : List Sec :=
  (List.range (u pl 0x0C 2)).map fun i =>
    let o := 0x80 + 16 * i
    { index := i, type := u pl o 2, forge := u pl (o + 2) 1, rsvd := u pl (o + 3) 1, entries := u pl (o + 4) 4
      off := u pl (o + 8) 4, len := u pl (o + 12) 4 }

/-- Bytes of an entry by section type; types whose entries have no fixed size count none. -/
def secSize : Nat → Option Nat
  | 1 => some 16 | 2 => some 64 | 3 => some 16 | 4 => some 36 | 5 => some 32 | 6 => some 32 | 7 => some 16 | 8 => some 24
  | 9 => some 24 | 0xA => some 0 | 0xB => some 16 | 0xFF => some 0 | _ => none

def Sec.perForge (x : Sec) : Bool := 1 ≤ x.type && x.type ≤ 4
def Sec.bytes (pl : List Byte) (x : Sec) : List Byte := slice pl x.off x.len
/-- The entries of a section. -/
def Sec.items (pl : List Byte) (x : Sec) : List (List Byte) :=
  let n := (secSize x.type).getD 0
  (List.range x.entries).map fun i => slice pl (x.off + n * i) n

/-- The one section of a type, and of a logical forge. -/
def secOf (pl : List Byte) (t : Nat) (forge : Nat := 0xFF) : Option Sec := (sections pl).find? fun x => x.type == t && x.forge == forge
def itemsOf (pl : List Byte) (t : Nat) (forge : Nat := 0xFF) : List (List Byte) :=
  match secOf pl t forge with
  | some x => x.items pl
  | none => []
/-- Directory index that a check reports: 0xFFFF where the container has no such section (R74). -/
def indexOf (pl : List Byte) (t : Nat) (forge : Nat := 0xFF) : Nat := ((secOf pl t forge).map (·.index)).getD 0xFFFF

/-! ### Header fields (Table MOLD-2) -/

def hFlags (pl : List Byte) : Nat := u pl 0x0E 2
def hCohort (pl : List Byte) : Bool := bit (hFlags pl) 2
def hId (pl : List Byte) : BitVec 64 := BitVec.ofNat 64 (u pl 0x10 8)
def hForges (pl : List Byte) : Nat := u pl 0x18 1
def hMask (pl : List Byte) : Nat := u pl 0x19 1
def hPhases (pl : List Byte) : Nat := u pl 0x1A 2
def hDeadline (pl : List Byte) : Nat := u pl 0x1C 4
def hParams (pl : List Byte) : Nat := u pl 0x20 2
def hHeats (pl : List Byte) : Nat := u pl 0x22 2
def hSessions (pl : List Byte) : Nat := u pl 0x24 2

/-! ### Parts -/

/-- A FORGE_STREAM section (R441). -/
structure MStream where
  count : Nat
  subs : List Nat
  ins : List (BitVec 128)
  /-- header and padding as they should be; the section holds nothing else -/
  whole : Bool
  rsvdOk : Bool
  deriving DecidableEq, Repr

def streamOf (bs : List Byte) : MStream :=
  let n := u bs 0 4
  let k := u bs 4 2
  let base := 16 + 16 * ceilDiv (4 * k) 16
  { count := n, subs := (List.range k).map fun i => u bs (16 + 4 * i) 4
    ins := (List.range (min n ((bs.length - base) / 16))).map fun i => BitVec.ofNat 128 (u bs (base + 16 * i) 16)
    whole := 1 ≤ n && base + 16 * n == bs.length
    rsvdOk := zeroAt bs 6 10 && zeroAt bs (16 + 4 * k) (base - (16 + 4 * k)) }

def streamFor (pl : List Byte) (forge : Nat) : MStream :=
  streamOf (match secOf pl 1 forge with
    | some x => x.bytes pl
    | none => [])

/-- Where subroutine `i` runs: first instruction, and the one after its last. -/
def MStream.sub (t : MStream) (i : Nat) : Option (Nat × Nat) := (t.subs[i]?).map fun a => (a, (t.subs[i + 1]?).getD t.count)
/-- Where the main stream ends. -/
def MStream.mainEnd (t : MStream) : Nat := t.subs.headD t.count
def MStream.range (t : MStream) (lo hi : Nat) : List (BitVec 128) := (t.ins.drop lo).take (hi - lo)

def tongsOf (pl : List Byte) (forge : Nat) : List (BitVec 512) := (itemsOf pl 2 forge).map fun e => BitVec.ofNat 512 (leNat e)

def slotOf (e : List Byte) : SlotDecl :=
  { slot := u e 0 1, bankFirst := u e 1 1, bankCount := u e 2 1, persist := bit (u e 3 1) 0, initialFull := bit (u e 3 1) 1
    rowFirst := u e 4 2, rowCount := u e 6 2 }
def slotsOf (pl : List Byte) (forge : Nat) : List SlotDecl := (itemsOf pl 3 forge).map slotOf

def prefetchOf (e : List Byte) : Prefetch :=
  { kind := u e 0 1, divert := u e 1 1 == 2, prevStep := bit (u e 2 1) 0, releaseAfter := bit (u e 2 1) 1, group := u e 3 1
    issuePhase := u e 4 2, needPhase := u e 6 2, alt := u e 8 2, count := u e 12 4, source := u e 16 8, groupMask := u e 24 2 }

def alternateOf (e : List Byte) : Alternate :=
  { kind := u e 0 1, peer := u e 2 2, recv := u e 4 2, sub := u e 6 2, source := u e 8 8, billets := u e 16 4 }

def xferOf (e : List Byte) : XferEntry :=
  { phase := u e 0 2, peer := u e 2 2, forge := u e 4 1, slot := u e 5 1, format := u e 6 1, onRequest := bit (u e 7 1) 0
    length := u e 8 4, sequence := u e 12 4, collective := u e 16 2 }

def cohortOf (e : List Byte) : CohortPos := { chip := u e 0 2, self := bit (u e 2 1) 0, port := u e 3 1 }

def prefetches (pl : List Byte) : List Prefetch := (itemsOf pl 5).map prefetchOf
def alternatesOf (pl : List Byte) : List Alternate := (itemsOf pl 6).map alternateOf
def sendsOf (pl : List Byte) : List XferEntry := (itemsOf pl 8).map xferOf
def recvsOf (pl : List Byte) : List XferEntry := (itemsOf pl 9).map xferOf
def positions (pl : List Byte) : List CohortPos := (itemsOf pl 0xB).map cohortOf

/-- Participants of a distributed heat, as its list gives them (Table MOLD-10). -/
def participants (pl : List Byte) (e : List Byte) : List Nat :=
  match secOf pl 0xB with
  | none => []
  | some x => (List.range (u e 8 2)).map fun i => u (x.bytes pl) (u e 12 4 + 2 * i) 2

def boundOf (pl : List Byte) (e : List Byte) : HeatBound :=
  let dist := bit (u e 6 1) 0
  { openPhase := u e 0 2, commitPhase := u e 2 2, maxActions := u e 4 2, distributed := dist, sendsInHeat := bit (u e 6 1) 1
    participants := if dist then participants pl e else [] }
def boundsOf (pl : List Byte) : List HeatBound := (itemsOf pl 7).map (boundOf pl)

/-- A near-bank unit program: number, Plinth, instructions, header as it should be (R273). -/
structure MProg where
  program : Nat
  plinth : Nat
  instrs : List (BitVec 256)
  rsvdOk : Bool
  deriving DecidableEq, Repr

/-- The programs of a PLINTH_PROG section; none where they do not lie in it. -/
def progsIn : Nat → List Byte → Option (List MProg)
  | 0, _ => some []
  | k + 1, bs =>
    let n := u bs 2 2
    if n = 0 || 8192 < n || bs.length < 16 + 32 * n then none
    else (progsIn k (bs.drop (16 + 32 * n))).map fun l =>
      { program := u bs 0 2, plinth := u bs 4 1, rsvdOk := zeroAt bs 5 11
        instrs := (List.range n).map fun i => BitVec.ofNat 256 (u bs (16 + 32 * i) 32) } :: l

/-- The programs of a section, all for one Plinth. -/
def Sec.progs (pl : List Byte) (x : Sec) : Option (List MProg) :=
  (progsIn x.entries (x.bytes pl)).bind fun l =>
    match l with
    | [] => none
    | p :: _ => if l.all (·.plinth == p.plinth) then some l else none

def programs (pl : List Byte) : List MProg :=
  (((sections pl).filter (·.type == 0xA)).filterMap (·.progs pl)).flatten

/-! ### Reserved bits (check 0x0005) -/

/-- Every bit set in a number lies in one of the (bit, width) fields. -/
def within (v : Nat) (fields : List (Nat × Nat)) : Bool :=
  v &&& (fields.foldl (fun m f => m ||| ((2 ^ f.2 - 1) <<< f.1)) 0) == v

/-- The fields of a stream instruction, by engine code: bit and width (R49 and the engine chapters). A code with no
instruction holds no reserved field. -/
def fieldsOf (code : Nat) : List (Nat × Nat) :=
  match code with
  | 0x01 | 0x03 => [(0, 8), (16, 16)]
  | 0x02 | 0x04 => [(0, 8)]
  | 0x05 => [(0, 9), (32, 64)]
  | 0x06 => [(0, 16)]
  | 0x10 => [(0, 14), (16, 88)]
  | 0x11 => [(0, 28), (32, 3), (40, 40)]
  | 0x18 => [(0, 9), (16, 8), (32, 16)]
  | 0x19 => [(0, 11), (16, 8), (32, 16)]
  | 0x20 => [(0, 12), (16, 29), (48, 6), (56, 10)]
  | 0x21 => [(0, 12), (16, 10), (32, 64)]
  | 0x22 => [(0, 13), (16, 12), (32, 31), (64, 48)]
  | 0x23 => [(0, 10), (16, 8), (32, 16)]
  | 0x30 => [(0, 13), (16, 4), (24, 3), (28, 2), (32, 4), (40, 64)]
  | 0x31 => [(0, 60), (64, 64)]
  | 0x32 => [(0, 9), (16, 44), (64, 16)]
  | 0x40 => [(0, 11), (16, 32)]
  | 0x41 | 0x42 => [(0, 16)]
  | 0x50 => [(0, 11), (16, 48)]
  | 0x60 => [(0, 12), (16, 8), (32, 48)]
  | 0x61 => [(0, 9), (11, 1), (16, 11), (32, 80)]
  | 0x62 => [(0, 9), (24, 3), (64, 64)]
  | _ => [(0, 128)]

/-- An engine code that has an instruction (R49). -/
def codeKnown (code : Nat) : Bool :=
  [0x01, 0x02, 0x03, 0x04, 0x05, 0x06, 0x10, 0x11, 0x18, 0x19, 0x20, 0x21, 0x22, 0x23, 0x30, 0x31, 0x32, 0x40, 0x41, 0x42,
   0x50, 0x60, 0x61, 0x62].contains code

/-- Reserved bits of a stream instruction. A TABLE stage reserves bits of OP; a queued tensor register has no slot, first
row and stride. -/
def instrRsvdOk (w : BitVec 128) : Bool :=
  let c := wB w 0 1
  within w.toNat (fieldsOf c) && !(c == 0x21 && stKind w == 5 && 2 ≤ wB w 2 1) &&
    !(c == 0x22 && bit (wB w 1 1) 4 && (wB w 2 1 != 0 || wB w 4 2 != 0 || wB w 12 2 != 0))

/-- Bits of ADDR that a space names (Table HRTH-8). -/
def addrBits : Nat → Nat
  | 0 => 0 | 1 => 24 | 2 => 30 | 3 => 48 | 4 => 31 | _ => 64

def sideRsvdOk (d : BitVec 512) (off : Nat) : Bool :=
  let x := Side.of d off
  x.addr < 2 ^ addrBits x.space && bits d.toNat (8 * (off + 0x15)) 8 == 0 &&
    (x.space != 0 || (x.lineBytes == 0 && x.stride == 0 && x.lines == 0))

def descRsvdOk (d : BitVec 512) : Bool :=
  bits d.toNat 13 3 == 0 && bits d.toNat 16 16 == 0 && (dOp d == 2 || dConst d == 0) && sideRsvdOk d 0x08 && sideRsvdOk d 0x20 &&
    (dResult d == 0xFFFFFFFF || bits (dResult d) 24 8 == 0)

/-- Fields of a unit instruction in a program (Table PLIN-4). -/
def unitRsvdOk (w : BitVec 256) : Bool :=
  within w.toNat (match uOp w with
    | 1 => [(0, 12), (16, 4), (24, 6), (64, 24), (96, 16), (128, 64), (192, 64)]
    | 2 => [(0, 12), (18, 2), (24, 6), (32, 4), (64, 16), (96, 16)]
    | 0 => [(0, 8)]
    | _ => [(0, 256)])

/-- The reserved parts of a section. -/
def Sec.rsvdOk (pl : List Byte) (x : Sec) : Bool :=
  x.rsvd == 0 && match x.type with
    | 1 => (streamOf (x.bytes pl)).rsvdOk && (streamOf (x.bytes pl)).ins.all instrRsvdOk
    | 2 => (x.items pl).all fun e => descRsvdOk (BitVec.ofNat 512 (leNat e))
    | 3 => (x.items pl).all fun e => u e 3 1 < 4 && zeroAt e 8 8
    | 4 => (x.items pl).all fun e => zeroAt e 2 2
    | 5 => (x.items pl).all fun e => u e 2 1 < 4 && zeroAt e 10 2 && zeroAt e 26 6 &&
        (u e 0 1 != 1 || (zeroAt e 22 2 && zeroAt e 24 2))
    | 6 => (x.items pl).all fun e => zeroAt e 1 1 && zeroAt e 20 12
    | 7 => (x.items pl).all fun e => u e 6 1 < 4 && zeroAt e 7 1 && zeroAt e 10 2 && (bit (u e 6 1) 0 || zeroAt e 8 2)
    | 8 | 9 => (x.items pl).all fun e => u e 7 1 < 2 && zeroAt e 18 6
    | 0xA => ((x.progs pl).getD []).all fun p => p.rsvdOk && p.instrs.all unitRsvdOk
    | 0xB => (x.items pl).all fun e => u e 2 1 < 2 && zeroAt e 4 12
    | _ => true

/-! ### The directory (check 0x0003, R53) -/

def overlap (a b : Sec) : Bool := a.off < b.off + b.len && b.off < a.off + a.len

/-- What a directory entry must be, beside the entries before it. -/
def Sec.placed (pl : List Byte) (before : List Sec) (x : Sec) : Bool :=
  (match secSize x.type with
    | none => false
    | some n => n * x.entries ≤ x.len) &&
  x.off % 16 == 0 && 0x80 + 16 * u pl 0x0C 2 ≤ x.off && x.off + x.len ≤ pl.length &&
  (if x.perForge then x.forge < hForges pl else x.forge == 0xFF) &&
  (x.type == 0xA || !before.any fun y => y.type == x.type && y.forge == x.forge) && !before.any (overlap x) &&
  (x.type != 0xB || hCohort pl) &&
  (x.type != 0xA || match x.progs pl with
    | some (p :: _) => p.plinth < 8 && bit (hMask pl) p.plinth &&
        !before.any fun y => y.type == 0xA && ((y.progs pl).getD []).any (·.plinth == p.plinth)
    | _ => false)

/-- Check 0x0003: the directory entry at fault. -/
def badDirectory (pl : List Byte) : Option Nat :=
  let ss := sections pl
  let need := ((List.range (hForges pl)).map fun f => [(1, f), (3, f), (4, f)]).flatten ++ [(7, 0xFF), (0xFF, 0xFF)] ++
    (if hCohort pl then [(0xB, 0xFF)] else [])
  if pl.length < 0x80 + 16 * u pl 0x0C 2 then some 0xFFFF
  else match ss.find? fun x => !x.placed pl (ss.take x.index) with
    | some x => some x.index
    | none =>
      if !(need.all fun t => ss.any fun x => x.type == t.1 && x.forge == t.2) ||
          (ss.filter (·.type == 0xA)).length != popcount 8 (hMask pl) then some 0xFFFF
      else match ss.getLast? with
        | some x => if x.type == 0xFF && x.off + x.len == pl.length then none else some (indexOf pl 0xFF)
        | none => some 0xFFFF

/-- The signed part of a container, and its signature (R54). -/
def signedPart (pl : List Byte) : List Byte :=
  match secOf pl 0xFF with
  | some x => pl.take x.off
  | none => pl
def signature (pl : List Byte) : List Byte :=
  match secOf pl 0xFF with
  | some x => x.bytes pl
  | none => []

/-! ### Streams (check 0x000D, R46, R49, R441) -/

/-- Body of a LOOP, in instructions. -/
def loopBody (w : BitVec 128) : Nat := wB w 8 4

/-- Loops around instruction `i` of the range that begins at `lo`. -/
def MStream.loopsAt (t : MStream) (lo i : Nat) : Nat :=
  ((List.range (i - lo)).filter fun k => match t.ins[lo + k]? with
    | some w => wB w 0 1 == 5 && i ≤ lo + k + loopBody w
    | none => false).length

/-- Loops and calls of a range nest at most `depth` deep, and every CALL names a subroutine. Each call takes one of the
five levels that `fuel` counts. -/
def MStream.nests (t : MStream) : Nat → Nat → Nat → Nat → Bool
  | 0, _, _, _ => false
  | fuel + 1, depth, lo, hi => (List.range (hi - lo)).all fun k =>
    match t.ins[lo + k]? with
    | none => false
    | some w =>
      let d := t.loopsAt lo (lo + k)
      if wB w 0 1 = 5 then d + 1 ≤ depth
      else if wB w 0 1 = 3 then d + 1 ≤ depth && (match t.sub (wB w 2 2) with
        | some r => t.nests fuel (depth - (d + 1)) r.1 r.2
        | none => false)
      else true

/-- A LOOP's body ends before the last instruction of its range and within every loop around it; no PHASE stands in a
body. -/
def MStream.loopsOk (t : MStream) (lo hi : Nat) : Bool :=
  (List.range (hi - lo)).all fun k => match t.ins[lo + k]? with
    | some w => wB w 0 1 != 5 || (lo + k + loopBody w + 1 < hi &&
        (List.range (loopBody w)).all fun i => match t.ins[lo + k + 1 + i]? with
          | some v => wB v 0 1 != 1 && (wB v 0 1 != 5 || i + loopBody v < loopBody w)
          | none => false)
    | none => false

/-- The parameter word that a stream instruction names, if any. -/
def paramOf (w : BitVec 128) : Option Nat :=
  let p := match wB w 0 1 with
    | 0x05 => if bit (wB w 1 1) 0 then wB w 4 4 else 0xFFFF
    | 0x61 => wB w 12 2
    | 0x62 => wB w 14 2
    | _ => 0xFFFF
  if p = 0xFFFF && !(wB w 0 1 == 5 && bit (wB w 1 1) 0) then none else some p

def ascending : List Nat → Bool
  | a :: b :: l => a < b && ascending (b :: l)
  | _ => true

/-- A part of the section: known codes only, `last` at its end and nowhere else, and none of the `never` codes. -/
def MStream.partOk (t : MStream) (lo hi last : Nat) (never : List Nat) : Bool :=
  let codes := (t.range lo hi).map fun w => wB w 0 1
  codes.all codeKnown && codes.getLast? == some last && codes.count last == 1 && !codes.any never.contains && t.loopsOk lo hi

def MStream.ok (t : MStream) (phases params : Nat) : Bool :=
  let n := t.subs.length
  t.whole && ascending t.subs && (t.subs.all fun a => 1 ≤ a && a < t.count) &&
    t.partOk 0 t.mainEnd 2 [4] &&
    ((List.range n).all fun i => match t.sub i with
      | some r => t.partOk r.1 r.2 4 [1, 2] && t.nests 5 4 r.1 r.2
      | none => false) &&
    t.nests 5 4 0 t.mainEnd &&
    (t.ins.head?.map fun w => wB w 0 1) == some 1 &&
    ((t.range 0 t.mainEnd).filter fun w => wB w 0 1 == 1).map (fun w => wB w 2 2) == List.range phases &&
    t.ins.all fun w => match paramOf w with
      | some p => 4 * p + 4 ≤ params
      | none => true

/-! ### Slots and owners (checks 0x000E to 0x0010) -/

def SlotDecl.meets (a b : SlotDecl) : Bool :=
  a.bankFirst < b.bankFirst + b.bankCount && b.bankFirst < a.bankFirst + a.bankCount &&
    a.rowFirst < b.rowFirst + b.rowCount && b.rowFirst < a.rowFirst + a.rowCount

def SlotDecl.ok (d : SlotDecl) (mask : BitVec 12) : Bool :=
  d.slot != 0xFF && d.bankFirst ≤ 31 && 1 ≤ d.bankCount && d.bankCount ≤ 32 - d.bankFirst && d.rowFirst ≤ 767 && 1 ≤ d.rowCount &&
    d.rowFirst + d.rowCount ≤ 768 &&
    (List.range 12).all fun g => !mask.getLsbD g || d.rowFirst + d.rowCount ≤ 64 * g || 64 * g + 64 ≤ d.rowFirst

def slotsOk (mask : BitVec 12) : List SlotDecl → Bool
  | [] => true
  | d :: l => d.ok mask && (l.all fun e => e.slot != d.slot && !d.meets e) && slotsOk mask l

/-- The slots of other moulds on a physical forge. -/
def State.slotsOn (s : State) (fn : FnId) (id : BitVec 64) (f : ForgeId) : List SlotDecl :=
  ((List.finRange 64).map fun g => (((s.fns[g]).moulds.filter fun m => !(g == fn && m.id == id)).map fun m =>
    ((m.forges.filter (·.phys == f)).map (·.slots)).flatten).flatten).flatten

/-- PERSIST rows belong to one mould alone (R56). -/
def persistOk (mine others : List SlotDecl) : Bool :=
  mine.all fun a => others.all fun b => !((a.persist || b.persist) && a.meets b)

def ownersOk (phases : Nat) (es : List (List Byte)) : Bool :=
  let at_ := fun (e : List Byte) (b : Nat) => (u e (4 + b) 1 / 16, u e (4 + b) 1 % 16)
  es.map (fun e => u e 0 2) == List.range phases &&
    (List.range 32).all fun b =>
      (es.all fun e => (at_ e b).1 < 10 && (at_ e b).2 < 10 && !([1, 8, 9].contains (at_ e b).1)) &&
      (!(es.any fun e => [5, 6, 7].contains (at_ e b).1) || (es.map fun e => (at_ e b).1).eraseDups.length == 1)

/-! ### Named slots and Range addresses (checks 0x0011, 0x0012) -/

/-- Slots that a stream instruction names: those that it must have, and those that may be 0xFF. -/
def slotFields (w : BitVec 128) : List Nat × List Nat :=
  let b := fun i => wB w i 1
  match b 0 with
  | 0x10 => ([b 2, b 3], [b 4, b 5])
  | 0x18 | 0x19 | 0x23 | 0x60 | 0x61 => ([], [b 2])
  | 0x22 => ([], if bit (b 1) 4 then [] else [b 2])
  | 0x30 => ([], [b 5, b 12])
  | 0x31 => ([b 2, b 3] ++ (if bit (b 1) 6 then [b 6] else []), [b 4])
  | 0x32 => ([b 2], [])
  | _ => ([], [])

def declared (pl : List Byte) (forge slot : Nat) : Bool := (slotsOf pl forge).any (·.slot == slot)

def instrSlotsOk (pl : List Byte) (forge : Nat) (w : BitVec 128) : Bool :=
  let x := slotFields w
  x.1.all (declared pl forge) && x.2.all fun n => n == 0xFF || declared pl forge n

def descSlotsOk (pl : List Byte) (forge : Nat) (d : BitVec 512) : Bool :=
  ([dSrc d, dDst d].all fun x => !x.isHearth || declared pl (x.forge forge) x.slot) &&
    (dResult d == 0xFFFFFFFF || declared pl forge (bits (dResult d) 0 8)) &&
    (List.range (dPaceSlots d)).all fun i => declared pl forge (dPaceFirst d + i)

/-- Check 0x0011. -/
def badSlot (pl : List Byte) : Option Nat :=
  let fs := List.range (hForges pl)
  let of := fun t f => indexOf pl t f
  (fs.findSome? fun f => if (tongsOf pl f).all (descSlotsOk pl f) then none else some (of 2 f)) <|>
  (fs.findSome? fun f => if ((streamFor pl f).ins).all (instrSlotsOk pl f) then none else some (of 1 f)) <|>
  (if (sendsOf pl).all fun e => declared pl e.forge e.slot then none else some (indexOf pl 8)) <|>
  (if (recvsOf pl).all fun e => declared pl e.forge e.slot then none else some (indexOf pl 9))

/-- A side's fixed Range lines are mapped. -/
def Side.mapped (d : Side) (f : Fn) : Bool :=
  d.space != 3 || d.param != 0xFFFF ||
    (f.mapped d.addr && (d.starts d.addr).all fun a => a + d.lineBytes ≤ 2 ^ 48 && f.mappedRange a d.lineBytes)

def instrMapped (f : Fn) (w : BitVec 128) : Bool :=
  match wB w 0 1 with
  | 0x61 => wB w 12 2 != 0xFFFF || (f.mapped (65536 * wB w 8 4) && f.mappedRange (65536 * wB w 8 4) (65536 * wB w 6 2))
  | 0x62 => wB w 14 2 != 0xFFFF || (f.mapped (wB w 8 6) && f.mappedRange (wB w 8 6) 512)
  | _ => true

/-- Range address of a program's row, and the pages its rows lie in. -/
def rowAddr (w : BitVec 256) : Nat := uF w 24 8
def rowPages (w : BitVec 256) : List Nat :=
  (List.range ((rowAddr w + uRows w * uKib w * 1024 - 1) / 65536 - rowAddr w / 65536 + 1)).map fun i => rowAddr w / 65536 + i

/-- A page that a unit program names is SEALED, in a span of role BILLETS, and stored RAW (R273). -/
def State.unitPageOk (s : State) (fn : FnId) (num : Nat) : Bool :=
  match s.pageAt fn (65536 * num) with
  | some (g, p) => p.sealed_ && (s.fns[g]).roleOf (65536 * p.num) == some .billets &&
      (headerBlocks (s.readRange g none (headerAddr (65536 * p.num)) 256)).all (·.raw)
  | none => false

def State.unitRowsOk (s : State) (fn : FnId) (w : BitVec 256) : Bool :=
  uOp w != 1 || (rowAddr w < 2 ^ 48 && rowAddr w % 1024 == 0 && (rowPages w).all (s.unitPageOk fn))

/-- Check 0x0012. -/
def State.badAddress (s : State) (fn : FnId) (pl : List Byte) : Option Nat :=
  let f := s.fns[fn]
  let fs := List.range (hForges pl)
  let run := fun a n => f.mapped a && a + 65536 * n ≤ 2 ^ 48 && f.mappedRange a (65536 * n)
  (if (prefetches pl).all fun e => e.kind != 1 || run e.source e.count then none else some (indexOf pl 5)) <|>
  (if (alternatesOf pl).all fun e => !(e.kind == 2 || e.kind == 3) || run e.source e.billets then none else some (indexOf pl 6)) <|>
  (fs.findSome? fun n => if (tongsOf pl n).all fun d => (dSrc d).mapped f && (dDst d).mapped f then none else some (indexOf pl 2 n)) <|>
  (fs.findSome? fun n => if ((streamFor pl n).ins).all (instrMapped f) then none else some (indexOf pl 1 n)) <|>
  ((sections pl).find? fun x => x.type == 0xA && !(((x.progs pl).getD []).all fun p => p.instrs.all (s.unitRowsOk fn))).map (·.index)

/-! ### Prefetch, alternates, heats, lists, cohort (checks 0x0013 to 0x0019) -/

def prefetchOk (phases : Nat) (e : List Byte) : Bool :=
  let x := prefetchOf e
  (x.kind == 1 || x.kind == 2) && (u e 1 1 == 1 || u e 1 1 == 2) && x.group ≤ 15 && (x.kind != 1 || x.source % 65536 == 0) &&
    x.issuePhase < phases && x.needPhase < phases && (x.prevStep || x.issuePhase ≤ x.needPhase)

def isPersist (slots : List SlotDecl) (n : Nat) : Bool := slots.any fun d => d.slot == n && d.persist

/-- A descriptor that R65 forbids in an alternate's subroutine. -/
def forbiddenDesc (pl : List Byte) (forge : Nat) (d : BitVec 512) : Bool :=
  let t := dDst d
  dOp d == 4 || dOp d == 5 || (dOp d != 3 && (t.space == 3 || t.space == 4)) ||
    (dOp d != 3 && t.isHearth && isPersist (slotsOf pl (t.forge forge)) t.slot) ||
    (dResult d != 0xFFFFFFFF && isPersist (slotsOf pl forge) (bits (dResult d) 0 8))

/-- A subroutine, with those it calls, holds nothing that R65 forbids. Calls nest at most 4 deep. -/
def subClean (pl : List Byte) (forge : Nat) : Nat → Nat → Bool
  | 0, _ => false
  | fuel + 1, i =>
    let t := streamFor pl forge
    match t.sub i with
    | none => false
    | some r => (t.range r.1 r.2).all fun w => match wB w 0 1 with
      | 0x32 | 0x61 | 0x62 | 0x50 => false
      | 0x03 => subClean pl forge fuel (wB w 2 2)
      | 0x31 => !isPersist (slotsOf pl forge) (wB w 3 1)
      | 0x40 => !(((tongsOf pl forge).drop (wB w 2 2)).take (wB w 4 2)).any (forbiddenDesc pl forge)
      | _ => true

def alternateOk (pl : List Byte) (x : Alternate) : Bool :=
  match x.kind with
  | 1 => x.sub == 0xFFFF && x.source == 0 && x.peer < (positions pl).length && match (recvsOf pl)[x.recv]? with
    | some e => e.peer == x.peer
    | none => false
  | 2 | 3 => x.peer == 0 && x.recv == 0xFFFF && (List.range (hForges pl)).all fun f => subClean pl f 5 x.sub
  | _ => false

/-- Heats in order, apart from one another, the last one ending at the last phase. -/
def boundsOk (phases : Nat) : Nat → List HeatBound → Bool
  | from_, [] => from_ == phases
  | from_, h :: l => from_ ≤ h.openPhase && h.openPhase ≤ h.commitPhase && h.commitPhase < phases && 1 ≤ h.maxActions &&
      h.maxActions ≤ 4096 && boundsOk phases (h.commitPhase + 1) l

/-- Check 0x0016. The participants that a heat names are positions of the cohort. -/
def heatsOk (pl : List Byte) : Bool :=
  let hs := boundsOf pl
  hs.length == hHeats pl && !hs.isEmpty && boundsOk (hPhases pl) 0 hs &&
    (hs.all fun h => !h.distributed || hCohort pl) &&
    ((itemsOf pl 7).zip hs).all fun x => !x.2.distributed || (match secOf pl 0xB with
      | some c => u x.1 12 4 + 2 * u x.1 8 2 ≤ c.len && x.2.participants.all (· < c.entries)
      | none => false)

def listOk (pl : List Byte) (send : Bool) : List (Nat × Nat) → List XferEntry → Bool
  | _, [] => true
  | last, e :: l =>
    let reach := match (positions pl)[e.peer]? with
      | some c => c.port ≤ 7 && !c.self
      | none => false
    e.length % 256 == 0 && (match last.find? (·.1 == e.peer) with
      | some x => x.2 < e.sequence
      | none => true) && e.phase < hPhases pl && e.format ≤ 3 && (send || !e.onRequest) &&
      (e.format == 3) == (e.collective != 0xFFFF) && reach && (e.format != 3 || bit (hFlags pl) 1) &&
      listOk pl send ((e.peer, e.sequence) :: last.filter (·.1 != e.peer)) l

def cohortOk (pl : List Byte) (chip : Nat) : Bool :=
  let c := positions pl
  match c.filter (·.self) with
  | [x] => x.chip == chip && c.all (·.chip != 0xFFFF) && !hasDup (c.map (·.chip))
  | _ => false

/-! ### Placement on physical forges (R47, checks 0x0009, 0x000C, 0x000F) -/

/-- Instructions and descriptors of other moulds on a physical forge. -/
def State.loadOn (s : State) (fn : FnId) (id : BitVec 64) (f : ForgeId) : Nat × Nat :=
  let mine := ((List.finRange 64).map fun g => (((s.fns[g]).moulds.filter fun m => !(g == fn && m.id == id)).map fun m =>
    m.forges.filter (·.phys == f)).flatten).flatten
  ((mine.map (·.stream.length)).foldl (· + ·) 0, (mine.map (·.tongs.length)).foldl (· + ·) 0)

/-- Check 0x000C of logical forge `n` on a physical forge: the directory entry at fault. -/
def State.storeFull (s : State) (fn : FnId) (pl : List Byte) (n : Nat) (f : ForgeId) : Option Nat :=
  let l := s.loadOn fn (hId pl) f
  if 16384 < (streamFor pl n).count + l.1 then some (indexOf pl 1 n)
  else if 4096 < (tongsOf pl n).length + l.2 then some (indexOf pl 2 n)
  else none

def State.persistClear (s : State) (fn : FnId) (pl : List Byte) (n : Nat) (f : ForgeId) : Bool :=
  persistOk (slotsOf pl n) (s.slotsOn fn (hId pl) f)

/-- Smith's choice of a powered forge for each logical forge, from `n` on. The spec does not say which: a free choice among
the forges that admit the part, or among all that are left where none does (R47, log 1). -/
def State.place (s : State) (fn : FnId) (pl : List Byte) : Nat → Nat → List ForgeId → List ForgeId
  | 0, _, _ => []
  | k + 1, n, left =>
    let fit := left.filter fun f => (s.storeFull fn pl n f).isNone && s.persistClear fn pl n f
    let from_ := if fit.isEmpty then left else fit
    match from_[Config.freeNat (s.draws + n) % max 1 from_.length]? with
    | some f => f :: s.place fn pl k (n + 1) (left.filter (· != f))
    | none => []

def State.placement (s : State) (fn : FnId) (pl : List Byte) : List ForgeId := s.place fn pl (hForges pl) 0 s.poweredForges

/-! ### Frames and Plinth resources (check 0x0009) -/

/-- T1 frames of the checked copy and of the persist save area (R74, R306). -/
def copyFrames (pl : List Byte) : Nat := ceilDiv pl.length 2097152
def persistFrames (pl : List Byte) : Nat :=
  let rows := (List.range (hForges pl)).map fun n => ((slotsOf pl n).filter (·.persist)).map (·.rows)
  ceilDiv (512 * (rows.flatten).foldl (· + ·) 0) 2097152

/-- Pages that the programs name, each with the function that holds it. -/
def State.unitPages (s : State) (fn : FnId) (pl : List Byte) : List HintPage :=
  (((programs pl).map fun p => ((p.instrs.filter fun w => uOp w == 1).map rowPages).flatten).flatten.filterMap fun n =>
    (s.pageAt fn (65536 * n)).map fun x => (x.1, x.2.num)).eraseDups

/-- Every page that a program names has a T2 copy (R273). -/
def State.giveT2 (s : State) (pages : List HintPage) : Option State :=
  pages.foldl (fun (o : Option State) x => o.bind fun s => match (s.fns[x.1]).page? x.2 with
    | some p => if p.t2 then some s else (s.needT2 x).map fun s => s.modPage x.1 x.2 fun p => { p with t2 := true, down := false, ticket := if p.up then p.ticket else 0 }
    | none => some s) (some s)

/-- A program instruction with its Range address resolved through the frame table (R273). -/
def State.resolveUnit (s : State) (fn : FnId) (w : BitVec 256) : BitVec 256 :=
  if uOp w != 1 then w
  else match s.pageAt fn (rowAddr w) with
    | none => w
    | some (g, p) => match s.t2.find? (·.use == s.spanUse g (p.num / 32)) with
      | none => w
      | some x =>
        let die := t2Die x.num (p.num % 32 * 65536 + rowAddr w % 65536)
        BitVec.ofNat 256 (w.toNat % 2 ^ 192 + (die / 1024) * 2 ^ 32)

def State.resolvedProgs (s : State) (fn : FnId) (pl : List Byte) : List (PlinthId × UProg) :=
  (programs pl).map fun p => (Fin.ofNat 8 p.plinth,
    { fn, mould := hId pl, program := p.program, instrs := p.instrs.map (s.resolveUnit fn) })

/-- The result areas of a group are zeroed for a function, as whole blocks: their VALID bits are set (R260, R266). -/
def Plinth.zeroResults (fn : FnId) (dev : Nat) (p : Plinth) : Plinth :=
  let mine := fun (c : Nat) => c / 2 == dev
  let blocks := ((List.range 128).map fun i => (fn.val * 12 + 2 * dev) * 64 + i)
  { p with
    results := p.results.filter fun x => !(x.1 / 262144 / 12 == fn.val && mine (x.1 / 262144 % 12))
    valid := p.valid.filter (fun v => !(v / 64 / 12 == fn.val && mine (v / 64 % 12))) ++ blocks
    chains := p.chains.mapFinIdx fun i c _ => { c with failed := c.failed.filter fun l => !(l.1 == fn && mine i) } }

/-- A compute frame in a channel group: the lowest free frame there (R256, R266). -/
def State.allocCompute (s : State) (fn : FnId) (n : PlinthId) (dev : Nat) : Option State :=
  if (s.computeFrame fn n dev).isSome then some s
  else if !s.t2LimitOk fn 1 then none
  else
    let used := s.t2.map (·.num)
    ((List.range 2048).find? fun k =>
      let f := 48 * k + 8 * dev + n.val
      s.plinthOn n && !s.retired.contains f && !used.contains f).map fun k =>
      ({ s with t2 := insertFrame ⟨48 * k + 8 * dev + n.val, .compute fn⟩ s.t2 } : State).modPlinth n (Plinth.zeroResults fn dev)

/-- Channel groups that programs name. -/
def groupsOf (l : List (PlinthId × UProg)) : List (PlinthId × Nat) :=
  ((l.map fun p => (p.2.instrs.filter fun w => uOp w != 0).map fun w => (p.1, unitDevice w)).flatten).eraseDups

/-- The Plinth resources of a mould: T2 copies, resolved programs, program memory, compute frames, operand slices (R266, R273). -/
def State.takePlinths (s : State) (fn : FnId) (pl : List Byte) : Option State :=
  (s.giveT2 (s.unitPages fn pl)).bind fun s =>
    let new := s.resolvedProgs fn pl
    let fits := (List.finRange 8).all fun n =>
      (((s.plinths[n]).progs.map (·.instrs.length)).foldl (· + ·) 0) +
        (((new.filter (·.1 == n)).map (·.2.instrs.length)).foldl (· + ·) 0) ≤ 8192
    if !fits then none
    else ((groupsOf new).foldl (fun (o : Option State) g => o.bind fun s => s.allocCompute fn g.1 g.2) (some s)).bind fun s =>
      if (List.finRange 8).any fun n => 64 < s.slicesUsed n then none
      else some (new.foldl (fun s x => s.modPlinth x.1 fun p => { p with progs := p.progs ++ [x.2] }) s)

/-- A LOAD_MOULD of the same MOULD_ID that arrived before (R75). -/
def State.loadingBefore (s : State) (k : Cmd) : Bool :=
  (s.flights.takeWhile (!·.isOf .loadMould k)).any fun f => f.op == .loadMould && f.cmd.fn == k.fn && hId f.cmd.payload == hId k.payload

/-! ### Table MOLD-13 -/

/-- A failed check as status and detail (R74). -/
def failed (code : Nat) (st : Status) (o : Option Nat) : Option (Status × Nat) := o.map fun i => (st, 65536 * i + code)
def failedIf (code : Nat) (st : Status) (b : Bool) (index : Nat := 0xFFFF) : Option (Status × Nat) :=
  failed code st (if b then some index else none)

/-- Checks 0x0002 to 0x0008. -/
def State.checksHead (s : State) (k : Cmd) : Option (Status × Nat) :=
  let pl := k.payload
  let key := ((s.session? k.fn k.session).map (·.mouldKey)).getD 0
  failedIf 2 .badParam (u pl 0 4 != 0x444D5455 || u pl 4 2 != 1 || u pl 6 2 != 128 || u pl 8 4 != pl.length) <|>
  failed 3 .badParam (badDirectory pl) <|>
  failedIf 4 .integrity ((signature pl).length != 7856 || !Config.slhVerify key (signedPart pl) (signature pl)) (indexOf pl 0xFF) <|>
  failedIf 5 .badParam (8 ≤ hFlags pl || !zeroAt pl 0x26 26 || !zeroAt pl 0x60 32) <|>
  failed 5 .badParam (((sections pl).find? fun x => !x.rsvdOk pl).map (·.index)) <|>
  failedIf 6 .badParam (u pl 0x0C 2 < 3 || 512 < u pl 0x0C 2 || 2 ^ 28 < pl.length || hId pl == 0 || hForges pl == 0 || 64 < hForges pl ||
    hPhases pl == 0 || 4096 < hPhases pl || 4096 < hParams pl || hParams pl % 16 != 0 || hHeats pl == 0 || 8 < hHeats pl ||
    hSessions pl == 0 || 64 < hSessions pl || (!hCohort pl && !zeroAt pl 0x40 32)) <|>
  failedIf 7 .badParam (hDeadline pl ≤ 2 * s.timeout 7) <|>
  failedIf 8 .busy (s.loadingBefore k || match (s.fns[k.fn]).mould? (hId pl) with
    | some m => !m.queue.isEmpty || m.run.isSome
    | none => false)

/-- Checks 0x0009 to 0x000F. -/
def State.checksPlace (s : State) (fn : FnId) (pl : List Byte) : Option (Status × Nat) :=
  let fs := List.range (hForges pl)
  let frames := copyFrames pl + persistFrames pl
  let at_ := fs.zip (s.placement fn pl)
  failedIf 9 .noSpace (s.poweredForges.length < hForges pl || (List.finRange 8).any (fun n => bit (hMask pl) n.val && !s.plinthOn n) ||
    !s.t1LimitOk fn frames || s.freeT1Count < frames || (s.takePlinths fn pl).isNone) <|>
  failedIf 0xA .notPermitted (bit (hFlags pl) 1 && !s.domOn 88) <|>
  failedIf 0xB .notPermitted ((bit (hFlags pl) 0 || (itemsOf pl 5).any fun e => u e 1 1 == 1) &&
    !(s.near.parts[(s.fns[fn]).partition]).stall) (indexOf pl 5) <|>
  failed 0xC .noSpace (at_.findSome? fun x => s.storeFull fn pl x.1 x.2) <|>
  failed 0xD .badParam (fs.findSome? fun n => if (streamFor pl n).ok (hPhases pl) (hParams pl) then none else some (indexOf pl 1 n)) <|>
  failed 0xE .badParam (fs.findSome? fun n =>
    if (slotsOf pl n).length ≤ 255 && slotsOk s.feat.cacheMask (slotsOf pl n) then none else some (indexOf pl 3 n)) <|>
  failed 0xF .noSpace (at_.findSome? fun x => if s.persistClear fn pl x.1 x.2 then none else some (indexOf pl 3 x.1))

/-- Checks 0x0010 to 0x001A. -/
def State.checksBody (s : State) (fn : FnId) (pl : List Byte) : Option (Status × Nat) :=
  let others := (s.fns[fn]).moulds.filter (·.id != hId pl)
  let all := ((List.finRange 64).map fun g => ((s.fns[g]).moulds.filter fun m => !(g == fn && m.id == hId pl)).length).foldl (· + ·) 0
  failed 0x10 .badParam ((List.range (hForges pl)).findSome? fun n => if ownersOk (hPhases pl) (itemsOf pl 4 n) then none else some (indexOf pl 4 n)) <|>
  failed 0x11 .badParam (badSlot pl) <|>
  failed 0x12 .badParam (s.badAddress fn pl) <|>
  failedIf 0x13 .badParam (!(itemsOf pl 5).all (prefetchOk (hPhases pl))) (indexOf pl 5) <|>
  failedIf 0x14 .badParam ((prefetches pl).any fun e => e.divert && (e.alt == 0xFFFF || (alternatesOf pl).length ≤ e.alt)) (indexOf pl 5) <|>
  failedIf 0x15 .badParam (!(alternatesOf pl).all (alternateOk pl)) (indexOf pl 6) <|>
  failedIf 0x16 .badParam (!heatsOk pl) (indexOf pl 7) <|>
  failedIf 0x17 .noSpace (32 < (others.map (·.heats.length)).foldl (· + ·) (hHeats pl)) <|>
  failedIf 0x18 .badParam (!listOk pl true [] (sendsOf pl)) (indexOf pl 8) <|>
  failedIf 0x18 .badParam (!listOk pl false [] (recvsOf pl)) (indexOf pl 9) <|>
  failedIf 0x19 .badParam (hCohort pl && !cohortOk pl s.chipId) (indexOf pl 0xB) <|>
  failedIf 0x1A .noSpace (8 ≤ others.length || 64 ≤ all)

/-- The first failed check of a container, in table order. -/
def State.mouldCheck (s : State) (k : Cmd) : Option (Status × Nat) :=
  s.checksHead k <|> s.checksPlace k.fn k.payload <|> s.checksBody k.fn k.payload

end Sys2Proof.Machine
end

