-- ==== Sys2Proof/Machine/Mould.lean ====
section
/-! DEFINITION. LOAD_MOULD: checking, replacing and installing a mould (R47, R54, R56, R74, R75, R266, R273, R306). -/

namespace Sys2Proof.Machine

/-! ### The end of an installed mould (R75, R96, R264, R266, R306) -/

/-- Compute frames of groups that no mould of the function names any more go, with their results (R266). -/
def State.dropCompute (s : State) (fn : FnId) : State :=
  let named := fun (n : Nat) (dev : Nat) => (s.plinths[(Fin.ofNat 8 n : Fin 8)]).progs.any fun g =>
    g.fn == fn && g.instrs.any fun w => uOp w != 0 && unitDevice w == dev
  let keep := fun (x : Frame) => match x.use with
    | .compute g => g != fn || named (x.num % 8) ((x.num / 8) % 6)
    | _ => true
  let s := { s with t2 := s.t2.filter keep }
  let clean := fun (n : PlinthId) (p : Plinth) =>
    let gone := fun (c : Nat) => (s.computeFrame fn n (c / 2)).isNone
    let all := (List.range 6).all fun d => gone (2 * d)
    { p with
      results := p.results.filter fun x => x.1 / 262144 / 12 != fn.val || !gone (x.1 / 262144 % 12)
      valid := p.valid.filter fun v => v / 64 / 12 != fn.val || !gone (v / 64 % 12)
      chains := p.chains.mapFinIdx fun i c _ => { c with failed := c.failed.filter fun l => l.1 != fn || !gone i }
      operands := if all then p.operands.filter fun x => x.1 / 65536 != fn.val else p.operands }
  (List.finRange 8).foldl (fun s n => s.modPlinth n (clean n)) s

/-- The open windows of a mould close (R96). -/
def State.closeMould (s : State) (fn : FnId) (id : BitVec 64) : State :=
  { s with forges := s.forges.map fun (x : Forge) => { x with windows := x.windows.filter fun w => !(w.fn == fn && w.mould == id) } }

/-- A replaced mould goes: its windows close, its programs, prefetches, frames and logged data go. -/
def State.removeMould (s : State) (fn : FnId) (id : BitVec 64) : State :=
  match (s.fns[fn]).mould? id with
  | none => s
  | some m =>
    let s := (s.closeMould fn id).unpin ((m.carried.map (·.pinned)).flatten)
    let upd := fun (p : Plinth) => ({ p with progs := p.progs.filter fun g => !(g.fn == fn && g.mould == id) } : Plinth).fixCompute
    let s := { s with plinths := s.plinths.map upd }
    let s := ((s.freeT1 (.mouldCopy fn id)).freeT1 (.persist fn id)).dropCompute fn
    s.modFn fn fun f => { f with
      moulds := f.moulds.filter (·.id != id)
      recvLog := f.recvLog.filter (·.mould != id)
      votes := f.votes.filter (·.mould != id)
      creditsIn := f.creditsIn.filter (·.1 != m.shortDigest) }

/-! ### Installation (R56, R74) -/

/-- The part of a mould on one logical forge. -/
def forgePart (pl : List Byte) (x : ForgeId × Nat) : MForge :=
  let t := streamFor pl x.2
  MForge.initial { phys := x.1, stream := t.ins, subs := t.subs, tongs := tongsOf pl x.2, slots := slotsOf pl x.2
                   owners := (itemsOf pl 4 x.2).map fun e => BitVec.ofNat 256 (u e 4 32) }

/-- Positions of a cohort whose DIGEST came before the mould and names the same cohort (R72). -/
def Fn.heard (f : Fn) (pl : List Byte) : List Nat :=
  ((positions pl).zipIdx.filter fun x => f.earlyDigests.any fun d =>
    d.1 == x.1.chip && d.2.length == 64 && d.2.drop 32 == slice pl 0x40 32).map (·.2)

/-- The mould digests of those positions. -/
def Fn.heardDigests (f : Fn) (pl : List Byte) : List (Nat × BitVec 256) :=
  (f.heard pl).filterMap fun i => ((positions pl)[i]?.bind fun x => f.earlyDigests.find? (·.1 == x.chip)).map fun d => (i, toDigest (d.2.take 32))

/-- The coordinator takes part in every distributed heat (R69). -/
def withCoordinator (m : Mould) (h : HeatBound) : HeatBound :=
  if h.distributed && !h.participants.contains m.coordinator then { h with participants := h.participants ++ [m.coordinator] } else h

/-- The mould that a container holds. -/
def mouldOf (f : Fn) (pl : List Byte) (forges : List ForgeId) (order : Nat) : Mould :=
  let m : Mould :=
    { id := hId pl, digest := sha256 (signedPart pl), flags := BitVec.ofNat 16 (hFlags pl)
      plinthMask := BitVec.ofNat 8 (hMask pl), phaseCount := hPhases pl, deadline := hDeadline pl, paramBytes := hParams pl
      sessionSlots := hSessions pl, cohortDigest := toDigest (slice pl 0x40 32)
      forges := forges.zipIdx.map (forgePart pl), prefetch := prefetches pl, alternates := alternatesOf pl, heats := boundsOf pl
      sends := sendsOf pl, recvs := recvsOf pl, cohort := positions pl, order
      progs := ((sections pl).filter (·.type == 0xA)).map fun x =>
        { plinth := Fin.ofNat 8 ((((x.progs pl).bind List.head?).map (·.plinth)).getD 0), bytes := x.bytes pl }
      checkedPeers := f.heard pl, peerDigests := f.heardDigests pl }
  { m with heats := m.heats.map (withCoordinator m) }

/-- Rows of the mould's PERSIST slots hold undefined data until they are written (R56). -/
def State.freshPersist (s : State) (m : Mould) : State :=
  let rows := (m.forges.map fun mf => ((mf.slots.filter (·.persist)).map fun d =>
    (List.range d.rows).map fun i => (mf.phys.val, (d.place i).2 * 32 + (d.place i).1)).flatten).flatten
  { s with hearth := s.hearth.filter fun c => !rows.contains (c.1 / 2 ^ 24, c.1 % 2 ^ 24 / 512) }

/-- Install a checked container in place of a mould of the same MOULD_ID. -/
def State.install (s : State) (fn : FnId) (pl : List Byte) : State :=
  let id := hId pl
  let forges := s.placement fn pl
  let s := ({ s with draws := s.draws + hForges pl } : State).removeMould fn id
  let s := ((s.allocT1Many (.mouldCopy fn id) (copyFrames pl)).bind fun s => s.allocT1Many (.persist fn id) (persistFrames pl)).getD s
  let s := (s.takePlinths fn pl).getD s
  let s := { s with plinths := s.plinths.map Plinth.fixCompute }
  let m := mouldOf (s.fns[fn]) pl forges (s.installs + 1)
  let s := s.modFn fn fun f => { f with
    moulds := f.moulds ++ [m]
    earlyDigests := f.earlyDigests.filter fun d => !(m.cohort.zipIdx.any fun x => x.1.chip == d.1 && m.checkedPeers.contains x.2) }
  ({ s with installs := s.installs + 1 } : State).freshPersist m

/-! ### LOAD_MOULD -/

/-- A window request that was admitted to a slot of the mould still waits for its tag (R96). -/
def State.windowPending (s : State) (fn : FnId) (id : BitVec 64) : Bool :=
  s.forges.toList.any fun x => x.winWait.any fun w => w.win.fn == fn && w.win.mould == id

def loadMould (k : Cmd) (s : State) : State :=
  checked .loadMould k (zeroOutside k.p 32 []) 0
    (fun s => match s.mouldCheck k with
      | some (st, detail) => s.finish .loadMould k st detail
      | none =>
        -- replacing a mould closes its windows, and requests admitted before that complete first (R96)
        let s := s.closeMould k.fn (hId k.payload)
        if s.windowPending k.fn (hId k.payload) then s else (s.install k.fn k.payload).finish .loadMould k .ok) s

def execLoadMould (k : Cmd) (s : State) : Res := hostCmd .loadMould k (loadMould k) s

/-! ### A tick of an idle module -/

/-- A tick of a channel that is held for repair (Table TIER-11). -/
def Chan.tick (c : Chan) : Chan := if c.state == .repair then { c with retrainTicks := satAdd 32 c.retrainTicks 1 } else c

/-- A tick of what waits in the tiers: channels held, fetches and bank queues, and the buckets, which fill (R234, R249, R275). -/
def State.tierTick (s : State) : State :=
  let s := { s.tickWaits with
    plinths := s.plinths.map Plinth.tickWaits
    near := { s.near with chans := s.near.chans.map Chan.tick, parts := s.near.parts.map Partition.tick } }
  if s.near.parts.toList.any (!·.unlimited) then s.pumpAll.settle else s

/-- What step does on an empty queue: one tick of the time base, with the links' credit waits and the tiers (log 13). -/
def State.idle (s : State) : State := s.tick.linkTick.tierTick

end Sys2Proof.Machine
end

