-- ==== Sys2Proof/Machine/Dispatch.lean ====
section
/-! DEFINITION. What each command does: one arm per row of the table. -/

namespace Sys2Proof.Machine

open Sys2Proof

def exec (i : Instr) (s : State) : Host.Outcome State Fault Refusal :=
  match i with
  | .nop k => Sys2Proof.Machine.execNop k s
  | .identify k => Sys2Proof.Machine.execIdentify k s
  | .setFeature k => Sys2Proof.Machine.execSetFeature k s
  | .hearthCacheSegments k => Sys2Proof.Machine.execHearthCacheSegments k s
  | .plinthScanGroups k => Sys2Proof.Machine.execPlinthScanGroups k s
  | .regWrite k => Sys2Proof.Machine.execRegWrite k s
  | .getFeature k => Sys2Proof.Machine.execGetFeature k s
  | .regRead k => Sys2Proof.Machine.execRegRead k s
  | .quiesceHold k => Sys2Proof.Machine.execQuiesceHold k s
  | .quiesceRelease k => Sys2Proof.Machine.execQuiesceRelease k s
  | .enableFunction k => Sys2Proof.Machine.execEnableFunction k s
  | .heldEnableProceed fn => Sys2Proof.Machine.execHeldEnableProceed fn s
  | .disableFunction k => Sys2Proof.Machine.execDisableFunction k s
  | .openSession k => Sys2Proof.Machine.execOpenSession k s
  | .closeSession k => Sys2Proof.Machine.execCloseSession k s
  | .setPartition k => Sys2Proof.Machine.execSetPartition k s
  | .rangeMap k => Sys2Proof.Machine.execRangeMap k s
  | .rangeUnmap k => Sys2Proof.Machine.execRangeUnmap k s
  | .loadBillets k => Sys2Proof.Machine.execLoadBillets k s
  | .sealPages k => Sys2Proof.Machine.execSealPages k s
  | .readOut k => Sys2Proof.Machine.execReadOut k s
  | .migratePrefetch k => Sys2Proof.Machine.execMigratePrefetch k s
  | .park k => Sys2Proof.Machine.execPark k s
  | .promote k => Sys2Proof.Machine.execPromote k s
  | .migrateCopy k => Sys2Proof.Machine.execMigrateCopy k s
  | .loadMould k => Sys2Proof.Machine.execLoadMould k s
  | .runStep k => Sys2Proof.Machine.execRunStep k s
  | .runSteps k => Sys2Proof.Machine.execRunSteps k s
  | .haltRun k => Sys2Proof.Machine.execHaltRun k s
  | .queryRun k => Sys2Proof.Machine.execQueryRun k s
  | .heatBegin k => Sys2Proof.Machine.execHeatBegin k s
  | .heatEndCommit k => Sys2Proof.Machine.execHeatEndCommit k s
  | .heatEndScrap k => Sys2Proof.Machine.execHeatEndScrap k s
  | .kvAllocSeq k => Sys2Proof.Machine.execKvAllocSeq k s
  | .kvFork k => Sys2Proof.Machine.execKvFork k s
  | .kvFreeSeq k => Sys2Proof.Machine.execKvFreeSeq k s
  | .prefixLookup k => Sys2Proof.Machine.execPrefixLookup k s
  | .prefixPublish k => Sys2Proof.Machine.execPrefixPublish k s
  | .kvDrop k => Sys2Proof.Machine.execKvDrop k s
  | .kvDropSetPolicy k => Sys2Proof.Machine.execKvDropSetPolicy k s
  | .retrieveIndexLoad k => Sys2Proof.Machine.execRetrieveIndexLoad k s
  | .retrieveScan k => Sys2Proof.Machine.execRetrieveScan k s
  | .scanStart fn => Sys2Proof.Machine.execScanStart fn s
  | .linkBringup k partners => Sys2Proof.Machine.execLinkBringup k partners s
  | .linkStatus k => Sys2Proof.Machine.execLinkStatus k s
  | .cohortForm k => Sys2Proof.Machine.execCohortForm k s
  | .cohortLeave k => Sys2Proof.Machine.execCohortLeave k s
  | .windowOpen k => Sys2Proof.Machine.execWindowOpen k s
  | .windowClose k => Sys2Proof.Machine.execWindowClose k s
  | .fwLoad k => Sys2Proof.Machine.execFwLoad k s
  | .fwStart k => Sys2Proof.Machine.execFwStart k s
  | .attest k => Sys2Proof.Machine.execAttest k s
  | .keyExchange k => Sys2Proof.Machine.execKeyExchange k s
  | .ledgerRead k => Sys2Proof.Machine.execLedgerRead k s
  | .rollbackAdvance k => Sys2Proof.Machine.execRollbackAdvance k s
  | .selftestForge k failing => Sys2Proof.Machine.execSelftestForge k failing s
  | .selftestHallmark k failing => Sys2Proof.Machine.execSelftestHallmark k failing s
  | .stackRepairQuery k first => Sys2Proof.Machine.execStackRepairQuery k first s
  | .stackRepairApply k => Sys2Proof.Machine.execStackRepairApply k s
  | .channelMapout k bad => Sys2Proof.Machine.execChannelMapout k bad s
  | .channelMapoutAtBoot k => Sys2Proof.Machine.execChannelMapoutAtBoot k s
  | .laneDiag k results => Sys2Proof.Machine.execLaneDiag k results s
  | .powerDomainOn k => Sys2Proof.Machine.execPowerDomainOn k s
  | .powerDomainOff k => Sys2Proof.Machine.execPowerDomainOff k s
  | .setPowerCap k => Sys2Proof.Machine.execSetPowerCap k s
  | .thermalStatus k => Sys2Proof.Machine.execThermalStatus k s
  | .eventRingSetup k => Sys2Proof.Machine.execEventRingSetup k s
  | .eventRingTeardown k => Sys2Proof.Machine.execEventRingTeardown k s
  | .eventAck k => Sys2Proof.Machine.execEventAck k s
  | .phase f w => Sys2Proof.Machine.execPhase f w s
  | .end_ f w => Sys2Proof.Machine.execEnd f w s
  | .call f w => Sys2Proof.Machine.execCall f w s
  | .return_ f w => Sys2Proof.Machine.execReturn f w s
  | .loop f w => Sys2Proof.Machine.execLoop f w s
  | .plinthFence f w => Sys2Proof.Machine.execPlinthFence f w s
  | .tongsRun f w => Sys2Proof.Machine.execTongsRun f w s
  | .tongsWait f w => Sys2Proof.Machine.execTongsWait f w s
  | .tongsStop f w => Sys2Proof.Machine.execTongsStop f w s
  | .copy f c env => Sys2Proof.Machine.execCopy f c env s
  | .fill f c => Sys2Proof.Machine.execFill f c s
  | .compare f c env => Sys2Proof.Machine.execCompare f c env s
  | .flush f c => Sys2Proof.Machine.execFlush f c s
  | .atomic f c env => Sys2Proof.Machine.execAtomic f c env s
  | .tongsDescComplete f c => Sys2Proof.Machine.execTongsDescComplete f c s
  | .anvilCfg f w => Sys2Proof.Machine.execAnvilCfg f w s
  | .anvilMm f w => Sys2Proof.Machine.execAnvilMm f w s
  | .swageCfg f w => Sys2Proof.Machine.execSwageCfg f w s
  | .swageTable f w => Sys2Proof.Machine.execSwageTable f w s
  | .chiselOp f w stages => Sys2Proof.Machine.execChiselOp f w stages s
  | .chiselTreg f w => Sys2Proof.Machine.execChiselTreg f w s
  | .chiselTable f w => Sys2Proof.Machine.execChiselTable f w s
  | .crucCfg f w => Sys2Proof.Machine.execCrucCfg f w s
  | .crucAttn f w env => Sys2Proof.Machine.execCrucAttn f w env s
  | .crucAppend f w => Sys2Proof.Machine.execCrucAppend f w s
  | .pressScan f w => Sys2Proof.Machine.execPressScan f w s
  | .pressEncode f w => Sys2Proof.Machine.execPressEncode f w s
  | .pressTableOut f w => Sys2Proof.Machine.execPressTableOut f w s
  | .plinthRun f w => Sys2Proof.Machine.execPlinthRun f w s
  | .plinthApertureWrite f c => Sys2Proof.Machine.execPlinthApertureWrite f c s
  | .dot n c => Sys2Proof.Machine.execDot n c s
  | .ldr n c => Sys2Proof.Machine.execLdr n c s
  | .unitNop n c => Sys2Proof.Machine.execUnitNop n c s
  | .accessPhaseEnd n c => Sys2Proof.Machine.execAccessPhaseEnd n c s
  | .resultRelease n c rows badTags results => Sys2Proof.Machine.execResultRelease n c rows badTags results s
  | .plinthRefresh n dev bank => Sys2Proof.Machine.execPlinthRefresh n dev bank s
  | .plinthScrub n frame block e => Sys2Proof.Machine.execPlinthScrub n frame block e s
  | .plinthLinkFlit n ok => Sys2Proof.Machine.execPlinthLinkFlit n ok s
  | .nearScrub c what place errs => Sys2Proof.Machine.execNearScrub c what place errs s
  | .rowRefresh c bank row => Sys2Proof.Machine.execRowRefresh c bank row s
  | .t1PhyLockLoss c => Sys2Proof.Machine.execT1PhyLockLoss c s
  | .t1CorrectionCount c => Sys2Proof.Machine.execT1CorrectionCount c s
  | .t1RetrainComplete c ticks => Sys2Proof.Machine.execT1RetrainComplete c ticks s
  | .slotTimeout f slot => Sys2Proof.Machine.execSlotTimeout f slot s
  | .tongsDescriptorTimeout f c => Sys2Proof.Machine.execTongsDescriptorTimeout f c s
  | .plinthInstructionTimeout n c => Sys2Proof.Machine.execPlinthInstructionTimeout n c s
  | .t1ChannelRetrainTimeout c => Sys2Proof.Machine.execT1ChannelRetrainTimeout c s
  | .laneRetrainTimeout p l => Sys2Proof.Machine.execLaneRetrainTimeout p l s
  | .acknowledgementTimeout p => Sys2Proof.Machine.execAcknowledgementTimeout p s
  | .creditStarvationTimeout p => Sys2Proof.Machine.execCreditStarvationTimeout p s
  | .heatCommitPhaseTimeout fn slot => Sys2Proof.Machine.execHeatCommitPhaseTimeout fn slot s
  | .stepDeadline fn mould => Sys2Proof.Machine.execStepDeadline fn mould s
  | .adminCommandTimeout k => Sys2Proof.Machine.execAdminCommandTimeout k s
  | .quiesceTimeout fn => Sys2Proof.Machine.execQuiesceTimeout fn s
  | .smithWatchdog => Sys2Proof.Machine.execSmithWatchdog s
  | .annealBoundExpiry u => Sys2Proof.Machine.execAnnealBoundExpiry u s
  | .annealComplete u => Sys2Proof.Machine.execAnnealComplete u s
  | .stepRerun fn mould => Sys2Proof.Machine.execStepRerun fn mould s
  | .commandHeatLifetime fn ring => Sys2Proof.Machine.execCommandHeatLifetime fn ring s
  | .scanDeadline fn id => Sys2Proof.Machine.execScanDeadline fn id s
  | .windowExpiry handle => Sys2Proof.Machine.execWindowExpiry handle s
  | .domainUndervoltage d => Sys2Proof.Machine.execDomainUndervoltage d s
  | .currentLimitOnset => Sys2Proof.Machine.execCurrentLimitOnset s
  | .inputCurrentLimit => Sys2Proof.Machine.execInputCurrentLimit s
  | .stackHardLimit st => Sys2Proof.Machine.execStackHardLimit st s
  | .dieHardLimit sensor => Sys2Proof.Machine.execDieHardLimit sensor s
  | .gddr7HardLimit n dev => Sys2Proof.Machine.execGddr7HardLimit n dev s
  | .inDoubtQueryInterval fn slot => Sys2Proof.Machine.execInDoubtQueryInterval fn slot s
  | .linkRekey p => Sys2Proof.Machine.execLinkRekey p s
  | .refLock => Sys2Proof.Machine.execRefLock s
  | .refLost => Sys2Proof.Machine.execRefLost s
  | .powerOn => Sys2Proof.Machine.execPowerOn s
  | .perstAssert => Sys2Proof.Machine.execPerstAssert s
  | .perstDeassert env => Sys2Proof.Machine.execPerstDeassert env s
  | .fwLoadHeldStart => Sys2Proof.Machine.execFwLoadHeldStart s
  | .supplyLow mv10 => Sys2Proof.Machine.execSupplyLow mv10 s
  | .supplyOk mv10 => Sys2Proof.Machine.execSupplyOk mv10 s
  | .shutdownThreshold => Sys2Proof.Machine.execShutdownThreshold s
  | .overvoltage => Sys2Proof.Machine.execOvervoltage s
  | .presentMate => Sys2Proof.Machine.execPresentMate s
  | .presentBreak => Sys2Proof.Machine.execPresentBreak s
  | .powerSample watts => Sys2Proof.Machine.execPowerSample watts s
  | .dieThermalReading temps => Sys2Proof.Machine.execDieThermalReading temps s
  | .quenchReport st temp => Sys2Proof.Machine.execQuenchReport st temp s
  | .gddr7TempReading n temps => Sys2Proof.Machine.execGddr7TempReading n temps s
  | .errorSummary => Sys2Proof.Machine.execErrorSummary s
  | .flr fn => Sys2Proof.Machine.execFlr fn s
  | .flrPf => Sys2Proof.Machine.execFlrPf s
  | .d3hotEntry fn => Sys2Proof.Machine.execD3hotEntry fn s
  | .d0Return fn => Sys2Proof.Machine.execD0Return fn s
  | .hostDbSq fn ring tail => Sys2Proof.Machine.execHostDbSq fn ring tail s
  | .hostDbRq fn ring head => Sys2Proof.Machine.execHostDbRq fn ring head s
  | .ringEnable fn ring => Sys2Proof.Machine.execRingEnable fn ring s
  | .ringDisable fn ring => Sys2Proof.Machine.execRingDisable fn ring s
  | .commandFetch fn ring packet entry payload fetchErr payloadErr => Sys2Proof.Machine.execCommandFetch fn ring packet entry payload fetchErr payloadErr s
  | .replyWrite fn ring payloadErr replyErr => Sys2Proof.Machine.execReplyWrite fn ring payloadErr replyErr s
  | .interruptCoalesceTimer fn ring => Sys2Proof.Machine.execInterruptCoalesceTimer fn ring s
  | .eventVectorTimer => Sys2Proof.Machine.execEventVectorTimer s
  | .w1cWrite addr value => Sys2Proof.Machine.execW1cWrite addr value s
  | .rocRead addr => Sys2Proof.Machine.execRocRead addr s
  | .lowWordRead addr => Sys2Proof.Machine.execLowWordRead addr s
  | .highWordRead addr => Sys2Proof.Machine.execHighWordRead addr s
  | .registerWrite addr value => Sys2Proof.Machine.execRegisterWrite addr value s
  | .extestLoad => Sys2Proof.Machine.execExtestLoad s
  | .extestLeave env => Sys2Proof.Machine.execExtestLeave env s
  | .idcode => Sys2Proof.Machine.execIdcode s
  | .samplePreload capture data => Sys2Proof.Machine.execSamplePreload capture data s
  | .bypass code => Sys2Proof.Machine.execBypass code s
  | .frame p seq ack retry tagOk data check => Sys2Proof.Machine.execFrame p seq ack retry tagOk data check s
  | .laneRetrainTrigger p l code => Sys2Proof.Machine.execLaneRetrainTrigger p l code s
  | .laneRetrainComplete p l => Sys2Proof.Machine.execLaneRetrainComplete p l s
  | .data p m => Sys2Proof.Machine.execData p m s
  | .credit p m => Sys2Proof.Machine.execCredit p m s
  | .request p m => Sys2Proof.Machine.execRequest p m s
  | .release p m => Sys2Proof.Machine.execRelease p m s
  | .discard p m => Sys2Proof.Machine.execDiscard p m s
  | .digest p m => Sys2Proof.Machine.execDigest p m s
  | .windowReq p m => Sys2Proof.Machine.execWindowReq p m s
  | .windowResp p m => Sys2Proof.Machine.execWindowResp p m s
  | .key p message body => Sys2Proof.Machine.execKey p message body s
  | .votePrepared p m => Sys2Proof.Machine.execVotePrepared p m s
  | .voteScrap p m => Sys2Proof.Machine.execVoteScrap p m s
  | .decisionCommit p m => Sys2Proof.Machine.execDecisionCommit p m s
  | .decisionScrap p m => Sys2Proof.Machine.execDecisionScrap p m s
  | .ack p m => Sys2Proof.Machine.execAck p m s
  | .query p m => Sys2Proof.Machine.execQuery p m s
  | .stepGateOpen fn mould => Sys2Proof.Machine.execStepGateOpen fn mould s
  | .localCommit fn slot env => Sys2Proof.Machine.execLocalCommit fn slot env s
  | .fold fn slot => Sys2Proof.Machine.execFold fn slot s
  | .epochAdvance fn => Sys2Proof.Machine.execEpochAdvance fn s
  | .dropPolicy fn mould => Sys2Proof.Machine.execDropPolicy fn mould s
  | .billetArrival fn addr => Sys2Proof.Machine.execBilletArrival fn addr s
  | .migrationCopyComplete fn addr tagOk => Sys2Proof.Machine.execMigrationCopyComplete fn addr tagOk s
  | .scanComplete fn id rowTagsOk => Sys2Proof.Machine.execScanComplete fn id rowTagsOk s
  | .plinthLinkRetrainComplete n => Sys2Proof.Machine.execPlinthLinkRetrainComplete n s
  | .currentLimitRelease => Sys2Proof.Machine.execCurrentLimitRelease s
  | .undervoltageOnset d => Sys2Proof.Machine.execUndervoltageOnset d s
  | .undervoltageRecovery d => Sys2Proof.Machine.execUndervoltageRecovery d s
  | .completionError fn ring seq event => Sys2Proof.Machine.execCompletionError fn ring seq event s
  | .hotReset env => Sys2Proof.Machine.execHotReset env s
  | .entropyHealthFail => Sys2Proof.Machine.execEntropyHealthFail s

end Sys2Proof.Machine
end

