-- ==== Sys2Proof/Safety.lean ====
section
/-! DEFINITION. The terms that statements use: a step that answers, a host command that may run, a stream instruction at the
head of its stream, a unit instruction at the head of its chain. -/

namespace Sys2Proof.Machine

/-- The step answers a next state. -/
def completes (o : Host.Outcome State Fault Refusal) : Prop := ∃ t, o = .next t

/-- The state once a host command is in flight: as it stands where it was fetched before, else as its fetch and its
acceptance leave it (R320, R329, log 5). -/
def State.entered (s : State) (op : Op) (k : Cmd) : State := if s.flights.any (·.isOf op k) then s else s.takeNow op k

/-- A host command may run now: it is in flight, or may be fetched (R320) and passes the checks of R329; its turn has come
(R340, R341); its function is not in the function fault (R311); no command heat of its ring turns it away (R289, R290); its
payload was read. -/
structure Ready (op : Op) (k : Cmd) (s : State) : Prop where
  accepted : s.flights.any (·.isOf op k) = true ∨ (s.fetches k.fn k.ring = true ∧ acceptStatus s op k = none)
  turn : (s.entered op k).turn op k = true
  sound : (k.ring.isSome && ((s.entered op k).fns[k.fn]).fault) = false
  gate : heatGate (s.entered op k) op k = none
  payload : k.payloadErr = false

/-- A forge runs a step of an installed mould, and `w`, of the engine code `code`, is the instruction at its stream's head
(R46, R49). -/
structure AtHead (f : ForgeId) (w : BitVec 128) (code : Nat) (j : Job) (m : Mould) (mf : MForge) (r : Running) (s : State) :
    Prop where
  job : s.jobForge f = some (j, m, mf)
  run : m.run = some r
  live : r.rerun = false
  running : r.status = none
  going : (s.forges[f]).ended = false
  word : mf.stream[(s.forges[f]).pc]? = some w
  code : wB w 0 1 = code

/-- The heat in which a command's effect runs, with the state in which it runs: the open command heat of its ring, or a heat of
its own opened in a free slot, unless such a heat is in its commit phase (R286, R289, R298, R341). -/
def heatFor (op : Op) (k : Cmd) (s : State) : Option (Fin 32 × State) :=
  match joinedHeat op k s with
  | some slot => some (slot, s)
  | none => if 32 ≤ (s.fns[k.fn]).counted || (s.fns[k.fn]).commits? op k then none else s.openHeat k.fn .single 4096

/-- How such a command ends: PENDING inside the command heat, or with its own heat committed and OK, where no channel's
retrain keeps it in its commit phase. `s` is the state before its effect and `t` the one after it. -/
def heatEnds (op : Op) (k : Cmd) (s : State) (slot : Fin 32) (t : State) (detail : Nat := 0) (payload : List Byte := []) : State :=
  if (joinedHeat op k s).isSome then t.finish op k .pending detail payload
  else t.commitCmd op k slot detail payload

/-- A record of an installed mould of a function arrives from the mould's peer on a port that carries records (R362). -/
structure FromPeer (p : PortId) (m : Msg) (fn : FnId) (x : Mould) (s : State) : Prop where
  carries : s.carries p = true
  func : s.msgFn p m = some fn
  mould : (s.fns[fn]).msgMould m = some x
  peer : s.fromPeer p m x = true

/-- A HEAT record of an installed mould of a function arrives with identifiers that match a heat of the mould's list, the
one numbered `b` (R301). -/
structure HeatRecord (p : PortId) (m : Msg) (fn : FnId) (x : Mould) (b : Nat) (s : State) : Prop where
  carries : s.carries p = true
  func : s.msgFn p m = some fn
  heat : s.heatMsg fn p m = some (x, b)

/-- What a record leaves once its own effect is done: the function's moulds go on as far as they can. -/
def State.goOn (s : State) (fn : FnId) : State := (s.pumpFn fn).settle

/-- What a stream instruction leaves once its own effect is done: the mould that ran on the forge goes on as far as it can. -/
def State.wentOn (s : State) (j : Job) : State := (s.pump j.fn j.mould).settle

/-- A Tongs channel has an active descriptor of operation `op` whose bytes have not moved, or may take one up now: `t` is
the state in which it is active (R101, R105). -/
structure AtDesc (f : ForgeId) (c : TongsId) (op : Nat) (j : Job) (m : Mould) (mf : MForge) (r : Running) (a : TActive)
    (s t : State) : Prop where
  taken : ∃ j' m' mf', s.jobForge f = some (j', m', mf') ∧ t = s.activate f c op mf'
  home : (s.forges[f]).job = some j
  job : t.jobForge f = some (j, m, mf)
  active : ((t.forges[f]).tchans[c]).active = some a
  run : m.run = some r
  code : dOp (mf.tongs.getD a.index 0) = op
  still : a.moved = false
  live : r.rerun = false

/-- A ring may fetch its next entry now (R318, R319, R320, R344). -/
structure MayFetch (fn : FnId) (r : Option RingId) (s : State) : Prop where
  fetches : s.fetches fn r = true
  active : (s.ring fn r).active = true
  more : (s.ring fn r).sqHead ≠ (s.ring fn r).sqTail

/-- The state in which a fetched command is judged: the ring has passed its entry. -/
def State.fetched (s : State) (fn : FnId) (r : Option RingId) : State :=
  s.modRing fn r Ring.passEntry

/-- What every step keeps: the Range memory and the Hearths in their canonical forms, each frame of T1 and of T2 listed
once and in order, so that no frame serves two uses (R221, R224, R257). -/
structure State.Sound (s : State) : Prop where
  ram : Memory.wf s.ram = true
  hearth : Memory.sorted s.hearth = true
  t1 : (s.t1.map (·.num)).Pairwise (· < ·)
  t2 : (s.t2.map (·.num)).Pairwise (· < ·)

/-- The demands of the power cap lie in the ranges of R411 and R413, in steps of 10 mV. -/
def CapInRange (b : Bellows) : Prop :=
  (550 ≤ b.capForge ∧ b.capForge ≤ 750 ∧ b.capForge % 10 = 0) ∧
  (550 ≤ b.capMigr ∧ b.capMigr ≤ 750 ∧ b.capMigr % 10 = 0) ∧
  (600 ≤ b.capCtl ∧ b.capCtl ≤ 750 ∧ b.capCtl % 10 = 0)

end Sys2Proof.Machine
end

