-- ==== Sys2Proof/WellFormed.lean ====
section
/-! DEFINITION. The checks a command's operands pass before they mean what their row says. `exec` is total on ill-formed
terms too: it answers as the rule that reads the operand does. -/

namespace Sys2Proof

/-- No key of an operand list stands twice: one outcome per unit. -/
def keysDistinct {α β : Type} [BEq α] : List (α × β) → Bool
  | [] => true
  | x :: l => !l.any (·.1 == x.1) && keysDistinct l

/-- A payload holds the bytes its LEN names (Table CMND-4). -/
def Cmd.wf (k : Cmd) : Bool := k.payload.length == k.len.toNat

/-- A block's disturbance names each of its 2,050 words once, with bits of the word that change (R259). -/
def BlockRead.wf (e : BlockRead) : Bool := keysDistinct e.errs && e.errs.all fun p => decide (p.1 < 2050) && decide (0 < p.2) && decide (p.2 < 65536)

/-- Blocks are listed once each. -/
def blocksWf (l : List (Nat × BlockRead)) : Bool := keysDistinct l && l.all (·.2.wf)

/-- Beats and blocks are listed once each. -/
def Lines.wf (e : Lines) : Bool := keysDistinct e.beats && blocksWf (e.blocks.map fun b => (b.block, b.toBlockRead))

/-- A boot's link trained to one of the widths and rates of Table CMND-1, VF_COUNT names functions of the device. -/
def BootEnv.wf (e : BootEnv) : Bool :=
  [1, 4, 8, 16].contains e.width && decide (e.rate ≤ 7) && decide (e.vfs ≤ 63) && keysDistinct (e.deadChans.map fun c => (c, ()))

/-- Reserved bits of a record's FLAGS are zero, and LENGTH holds the length of its body (Table GRIZ-7). -/
def Msg.wf (m : Msg) : Bool := decide (m.flags.toNat < 8) && decide (m.body.length < 2 ^ 32)

/-- A partner that authenticates has one of the conditions of Table GRIZ-4 on each lane, those the lane map adds left out. -/
def Partner.wf : Partner → Bool
  | .ok _ _ _ codes _ _ _ => (List.range 16).all fun l => [0, 1, 2, 3, 6].contains ((codes.extractLsb' (4 * l) 4).toNat)
  | _ => true

/-- Engine code of a stream instruction: its byte 0 (R50, Table MOLD-1). -/
def wCode (w : BitVec 128) : Nat := w.toNat % 256

/-- The operands of a command are what its row of the table takes. -/
def Instr.wf : Instr → Bool
  | .nop k => k.wf
  | .identify k => k.wf
  | .setFeature k => k.wf
  | .hearthCacheSegments k => k.wf
  | .plinthScanGroups k => k.wf
  | .regWrite k => k.wf
  | .getFeature k => k.wf
  | .regRead k => k.wf
  | .quiesceHold k => k.wf
  | .quiesceRelease k => k.wf
  | .enableFunction k => k.wf
  | .heldEnableProceed _ => true
  | .disableFunction k => k.wf
  | .openSession k => k.wf
  | .closeSession k => k.wf
  | .setPartition k => k.wf
  | .rangeMap k => k.wf
  | .rangeUnmap k => k.wf
  | .loadBillets k => k.wf
  | .sealPages k => k.wf
  | .readOut k => k.wf
  | .migratePrefetch k => k.wf
  | .park k => k.wf
  | .promote k => k.wf
  | .migrateCopy k => k.wf
  | .loadMould k => k.wf
  | .runStep k => k.wf
  | .runSteps k => k.wf
  | .haltRun k => k.wf
  | .queryRun k => k.wf
  | .heatBegin k => k.wf
  | .heatEndCommit k => k.1.wf && k.2.wf
  | .heatEndScrap k => k.wf
  | .kvAllocSeq k => k.wf
  | .kvFork k => k.wf
  | .kvFreeSeq k => k.wf
  | .prefixLookup k => k.wf
  | .prefixPublish k => k.wf
  | .kvDrop k => k.wf
  | .kvDropSetPolicy k => k.wf
  | .retrieveIndexLoad k => k.wf
  | .retrieveScan k => k.wf
  | .scanStart _ => true
  | .linkBringup k partners => k.wf && keysDistinct partners && partners.all (·.2.wf)
  | .linkStatus k => k.wf
  | .cohortForm k => k.wf
  | .cohortLeave k => k.wf
  | .windowOpen k => k.wf
  | .windowClose k => k.wf
  | .fwLoad k => k.wf
  | .fwStart k => k.wf
  | .attest k => k.wf
  | .keyExchange k => k.wf
  | .ledgerRead k => k.wf
  | .rollbackAdvance k => k.wf
  | .selftestForge k _ => k.wf
  | .selftestHallmark k _ => k.wf
  | .stackRepairQuery k first => k.wf && keysDistinct (first.map fun x => (x, ()))
  | .stackRepairApply k => k.wf
  | .channelMapout k bad => k.wf && keysDistinct bad
  | .channelMapoutAtBoot k => k.wf
  | .laneDiag k results => k.wf && decide (results.length ≤ 16)
  | .powerDomainOn k => k.wf
  | .powerDomainOff k => k.wf
  | .setPowerCap k => k.wf
  | .thermalStatus k => k.wf
  | .eventRingSetup k => k.wf
  | .eventRingTeardown k => k.wf
  | .eventAck k => k.wf
  | .phase _ w => wCode w == 0x01
  | .end_ _ w => wCode w == 0x02
  | .call _ w => wCode w == 0x03
  | .return_ _ w => wCode w == 0x04
  | .loop _ w => wCode w == 0x05
  | .plinthFence _ w => wCode w == 0x06
  | .tongsRun _ w => wCode w == 0x40
  | .tongsWait _ w => wCode w == 0x41
  | .tongsStop _ w => wCode w == 0x42
  | .copy _ _ env => env.wf
  | .fill _ _ => true
  | .compare _ _ env => env.wf
  | .flush _ _ => true
  | .atomic _ _ env => env.wf
  | .tongsDescComplete _ _ => true
  | .anvilCfg _ w => wCode w == 0x11
  | .anvilMm _ w => wCode w == 0x10
  | .swageCfg _ w => wCode w == 0x18
  | .swageTable _ w => wCode w == 0x19
  | .chiselOp _ w stages => (wCode w == 0x20 && decide (stages.length ≤ 8) && stages.all (wCode · == 0x21)) || (wCode w == 0x21 && stages.isEmpty)
  | .chiselTreg _ w => wCode w == 0x22
  | .chiselTable _ w => wCode w == 0x23
  | .crucCfg _ w => wCode w == 0x30
  | .crucAttn _ w env => wCode w == 0x31 && env.wf
  | .crucAppend _ w => wCode w == 0x32
  | .pressScan _ w => wCode w == 0x60
  | .pressEncode _ w => wCode w == 0x61
  | .pressTableOut _ w => wCode w == 0x62
  | .plinthRun _ w => wCode w == 0x50
  | .plinthApertureWrite _ _ => true
  | .dot _ _ => true
  | .ldr _ _ => true
  | .unitNop _ _ => true
  | .accessPhaseEnd _ _ => true
  | .resultRelease _ _ rows tags results =>
    blocksWf rows && keysDistinct (tags.map fun b => (b, ())) && blocksWf results && results.all fun e => decide (e.1 < 64)
  | .plinthRefresh _ _ _ => true
  | .plinthScrub n x b e => x % 8 == n.val && decide (b < 512) && e.wf
  | .plinthLinkFlit _ _ => true
  | .nearScrub _ _ _ errs => keysDistinct errs
  | .rowRefresh _ bank _ => decide (bank < 16)
  | .t1PhyLockLoss _ => true
  | .t1CorrectionCount _ => true
  | .t1RetrainComplete _ _ => true
  | .slotTimeout _ _ => true
  | .tongsDescriptorTimeout _ _ => true
  | .plinthInstructionTimeout _ _ => true
  | .t1ChannelRetrainTimeout _ => true
  | .laneRetrainTimeout _ _ => true
  | .acknowledgementTimeout _ => true
  | .creditStarvationTimeout _ => true
  | .heatCommitPhaseTimeout _ _ => true
  | .stepDeadline _ _ => true
  | .adminCommandTimeout k => k.wf
  | .quiesceTimeout _ => true
  | .smithWatchdog => true
  | .annealBoundExpiry _ => true
  | .annealComplete _ => true
  | .stepRerun _ _ => true
  | .commandHeatLifetime _ _ => true
  | .scanDeadline _ _ => true
  | .windowExpiry _ => true
  | .domainUndervoltage _ => true
  | .currentLimitOnset => true
  | .inputCurrentLimit => true
  | .stackHardLimit _ => true
  | .dieHardLimit _ => true
  | .gddr7HardLimit _ _ => true
  | .inDoubtQueryInterval _ _ => true
  | .linkRekey _ => true
  | .refLock => true
  | .refLost => true
  | .powerOn => true
  | .perstAssert => true
  | .perstDeassert env => env.wf
  | .fwLoadHeldStart => true
  | .supplyLow _ => true
  | .supplyOk _ => true
  | .shutdownThreshold => true
  | .overvoltage => true
  | .presentMate => true
  | .presentBreak => true
  | .powerSample _ => true
  | .dieThermalReading temps => keysDistinct temps
  | .quenchReport _ _ => true
  | .gddr7TempReading _ temps => keysDistinct temps
  | .errorSummary => true
  | .flr _ => true
  | .flrPf => true
  | .d3hotEntry _ => true
  | .d0Return _ => true
  | .hostDbSq _ _ _ => true
  | .hostDbRq _ _ _ => true
  | .ringEnable _ _ => true
  | .ringDisable _ _ => true
  | .commandFetch _ _ packet _ payload _ _ => decide (payload.length = (packet.extractLsb' 96 32).toNat)
  | .replyWrite _ _ _ _ => true
  | .interruptCoalesceTimer _ _ => true
  | .eventVectorTimer => true
  | .w1cWrite addr _ => decide (addr.toNat % 4 = 0)
  | .rocRead addr => decide (addr.toNat % 4 = 0)
  | .lowWordRead addr => decide (addr.toNat % 8 = 0)
  | .highWordRead addr => decide (addr.toNat % 8 = 4)
  | .registerWrite addr _ => decide (addr.toNat % 4 = 0)
  | .extestLoad => true
  | .extestLeave env => env.wf
  | .idcode => true
  | .samplePreload _ _ => true
  | .bypass code => decide (2 < code.toNat)
  | .frame _ _ _ _ _ bytes checks =>
    keysDistinct (bytes.map fun x => ((x.1, x.2.1), ())) && keysDistinct (checks.map fun x => ((x.1, x.2.1), ()))
  | .laneRetrainTrigger _ _ _ => true
  | .laneRetrainComplete _ _ => true
  | .data _ m => m.wf
  | .credit _ m => m.wf && m.body.length == 0
  | .request _ m => m.wf && m.body.length == 0
  | .release _ m => m.wf && m.body.length == 0
  | .discard _ m => m.wf && m.body.length == 0
  | .digest _ m => m.wf && m.body.length == 64
  | .windowReq _ m => m.wf
  | .windowResp _ m => m.wf
  | .key _ _ _ => true
  | .votePrepared _ m => m.wf && m.body.length == 16
  | .voteScrap _ m => m.wf && m.body.length == 16
  | .decisionCommit _ m => m.wf && m.body.length == 16
  | .decisionScrap _ m => m.wf && m.body.length == 16
  | .ack _ m => m.wf && m.body.length == 16
  | .query _ m => m.wf && m.body.length == 16
  | .stepGateOpen _ _ => true
  | .localCommit _ _ env => env.wf
  | .fold _ x => x.2.wf
  | .epochAdvance _ => true
  | .dropPolicy _ _ => true
  | .billetArrival _ _ => true
  | .migrationCopyComplete _ _ _ => true
  | .scanComplete _ _ _ => true
  | .plinthLinkRetrainComplete _ => true
  | .currentLimitRelease => true
  | .undervoltageOnset _ => true
  | .undervoltageRecovery _ => true
  | .completionError _ _ _ _ => true
  | .hotReset env => env.wf
  | .entropyHealthFail => true

end Sys2Proof
end

