-- ==== Sys2Proof/Certificates/Slice0/Obligations.lean ====
section
/-! DEFINITION. The statements for the provers, each named for what it states. -/

section

open Sys2Proof Sys2Proof.Machine

/-! ### The step -/

/-- A step takes the command at the front of the queue and runs it on everything but the queue; on an empty queue the
step is one tick of the time base (the model's choice, log 13). -/
def Obligations.StepRunsTheFrontCommand : Prop :=
  (∀ (c : Instr) (rest : List Instr) (s : State),
    step { s with pending := c :: rest } = exec c { s with pending := rest }) ∧
  ∀ s : State, step { s with pending := [] } = .next (State.idle { s with pending := [] })

/-! ### Operator commands -/

/-- NOP, IDENTIFY, SET_POWER_CAP and THERMAL_STATUS complete with OK where they may run and their parameters are in order:
IDENTIFY with the structure of Table CMND-11, SET_POWER_CAP with the cap and its window set, THERMAL_STATUS with the 164
sensors. Nothing else changes but the command's own flight, its reply and what waited for its end (R331, R335, R410, R418). -/
def Obligations.NopIdentifyCapAndThermalComplete : Prop :=
  (∀ (k : Cmd) (s : State), Ready .nop k s → plain k [] = true →
    exec (.nop k) s = .next ((s.entered .nop k).finish .nop k .ok).settle) ∧
  (∀ (k : Cmd) (s : State), Ready .identify k s → plain k [] = true → 4096 ≤ k.outCap.toNat →
    exec (.identify k) s =
      .next ((s.entered .identify k).finish .identify k .ok 0 (identifyBytes (s.entered .identify k) k.fn)).settle) ∧
  (∀ (k : Cmd) (s : State), Ready .setPowerCap k s → plain k [(0, 2), (4, 4)] = true →
    800 ≤ u k.p 0 2 → u k.p 0 2 ≤ 1800 → 100000 ≤ u k.p 4 4 → u k.p 4 4 ≤ 100000000 →
    exec (.setPowerCap k) s =
      .next (({ s.entered .setPowerCap k with
        bell := { (s.entered .setPowerCap k).bell with cap := u k.p 0 2, capWindow := u k.p 4 4 } } : State).finish
          .setPowerCap k .ok).settle) ∧
  (∀ (k : Cmd) (s : State), Ready .thermalStatus k s → plain k [] = true → 512 ≤ k.outCap.toNat →
    exec (.thermalStatus k) s =
      .next ((s.entered .thermalStatus k).finish .thermalStatus k .ok (thermalDetail (s.entered .thermalStatus k))
        (fit 512 ((s.entered .thermalStatus k).bell.temps.toList.map fun t => bvBytes 2 t).flatten)).settle)

/-- QUIESCE holds the gates of the functions it names and waits for their running steps, or lifts the hold and replies
OK at once (R332). OPEN_SESSION of a keyed session that is not open binds it to its ring and takes the mould key;
CLOSE_SESSION waits for the session's earlier commands (R333, R394). -/
def Obligations.QuiesceAndSessionsComplete : Prop :=
  ((∀ (k : Cmd) (s : State), Ready .quiesce k s → plain k [(0, 2)] = true → u k.p 0 1 < 64 ∨ u k.p 0 1 = 0xFF →
      u k.p 1 1 = 0 → (∀ fns a, Deferred.quiesce k fns a ∉ s.deferred) →
      exec (.quiesceHold k) s =
        .next ({ (s.entered .quiesce k).holdGates (namedFns (u k.p 0 1)) true with
          deferred := s.deferred ++ [Deferred.quiesce k (namedFns (u k.p 0 1)) false] } : State).settle) ∧
    (∀ (k : Cmd) (s : State), Ready .quiesce k s → plain k [(0, 2)] = true → u k.p 0 1 < 64 ∨ u k.p 0 1 = 0xFF →
      u k.p 1 1 = 1 →
      exec (.quiesceRelease k) s =
        .next (((s.entered .quiesce k).holdGates (namedFns (u k.p 0 1)) false).finish .quiesce k .ok).settle)) ∧
  ((∀ (k : Cmd) (x : Session) (s : State), Ready .openSession k s → k.len = 0 →
      (s.entered .openSession k).session? k.fn k.session = some x → x.isOpen = false →
      exec (.openSession k) s =
        .next (((s.entered .openSession k).modSession k.fn k.session fun x =>
          { x with isOpen := true, ring := k.ring, mouldKey := toDigest k.p }).finish .openSession k .ok).settle) ∧
    (∀ (k : Cmd) (s : State), Ready .closeSession k s → plain k [] = true → s.deferred.contains (.closeSession k) = false →
      exec (.closeSession k) s =
        .next ({ s.entered .closeSession k with deferred := s.deferred ++ [.closeSession k] } : State).settle))

/-- ENABLE_FUNCTION of a disabled function that exists and has its heat area enables it and replies OK; a held enable
proceeds once its disable has completed, with OK, or ANNEALED where the quiesce expired (R312, R313). DISABLE_FUNCTION
of an enabled function refuses its new commands, holds its gates, scraps its command heats, passes to the background and
waits for the function to fall quiet (R312, R340). -/
def Obligations.EnablingAndDisablingComplete : Prop :=
  ((∀ (k : Cmd) (fn : FnId) (s t : State), Ready .enableFunction k s → plain k [(0, 1)] = true → u k.p 0 1 = fn.val →
      fn.val ≤ s.pcie.vfs → s.hall.t1Degraded = false → (s.host[fn]).quiescing = false → (s.host[fn]).enabled = false →
      s.heldFor fn = false → (s.entered .enableFunction k).enable fn = some t →
      exec (.enableFunction k) s = .next (t.finish .enableFunction k .ok).settle) ∧
    (∀ (k : Cmd) (fn : FnId) (a : Bool) (s t : State),
      s.deferred.find? (·.readyFor fn) = some (.heldEnable k fn true a) →
      ({ s with deferred := s.deferred.filter (· != .heldEnable k fn true a) } : State).enable fn = some t →
      exec (.heldEnableProceed fn) s = .next (t.finish .enableFunction k (if a then .annealed else .ok)).settle)) ∧
  (∀ (k : Cmd) (fn : FnId) (s : State), Ready .disableFunction k s → plain k [(0, 1)] = true → u k.p 0 1 = fn.val →
      (s.host[fn]).enabled = true → (s.host[fn]).quiescing = false → s.heldFor fn = false →
      exec (.disableFunction k) s =
        .next ({ ((s.entered .disableFunction k).beginDisable fn).toBackground .disableFunction k with
          deferred := (((s.entered .disableFunction k).beginDisable fn).toBackground .disableFunction k).deferred ++
            [Deferred.disable k fn false false] } : State).settle)

/-- What enabling a function leaves: eight more frames of T1 as its heat area, its storage key drawn, ENABLED set, and an
event FUNCTION_ENABLED of the function (R296, R312, Table TRST-9). -/
def Obligations.EnableTakesHeatAreaAndStorageKey : Prop :=
  ∀ (fn : FnId) (s t : State), s.enable fn = some t →
    (t.host[fn]).enabled = true ∧ (t.hall.storage[fn]) = some (StoreKey.drawn s.draws) ∧
    (t.t1.filter (·.use == .heatArea fn)).length = (s.t1.filter (·.use == .heatArea fn)).length + 8 ∧
    t.t1.length = s.t1.length + 8 ∧ t.ram = s.ram ∧ t.hearth = s.hearth ∧ t.fns = s.fns ∧ t.ledger = s.ledger

/-- SET_PARTITION moves the function into the partition and gives the partition its grant, rate, burst and limits, where
the function's frames fit them and no function of the partition, nor the one placed, loses a grant that a mould of its uses
(R250). SELFTEST of an unassigned forge, with no step running, leaves the forge fresh and
its failure flag as the test found; of Hallmark, its first failure in HALL_ERR (R339). POWER_DOMAIN_SET switches every
named domain that is not yet as asked and replies with their number, once no step runs; the shared cache is dropped
where a forge domain changes (R408, R409, R89). -/
def Obligations.PartitionSelftestAndDomainsComplete : Prop :=
  (∀ (k : Cmd) (part : Fin 64) (fn : FnId) (s : State), Ready .setPartition k s → plain k [(0, 3), (4, 16)] = true →
      u k.p 0 1 = part.val → u k.p 1 1 = fn.val → u k.p 2 1 < 4 → 1 ≤ u k.p 4 4 → u k.p 4 4 ≤ 131072 → 64 ≤ u k.p 8 4 →
      u k.p 8 4 ≤ 65536 →
      (bit (u k.p 2 1) 0 = true ∨ ∀ g : FnId, g = fn ∨ (s.fns[g]).partition = part →
        (s.near.parts[(s.fns[g]).partition]).stall = true → (s.fns[g]).moulds.any (·.usesStall) = false) →
      let t := (s.entered .setPartition k).modFn fn fun f => { f with partition := part }
      (u k.p 12 4 = 0 ∨ t.charged t.t1 fn ≤ u k.p 12 4) → (u k.p 16 4 = 0 ∨ t.charged t.t2 fn ≤ u k.p 16 4) →
      exec (.setPartition k) s =
        .next ((t.modNear fun n => { n with parts := vmod n.parts part fun x =>
          { x with stall := bit (u k.p 2 1) 0, unlimited := bit (u k.p 2 1) 1, rate := u k.p 4 4, burst := u k.p 8 4
                   t1Limit := u k.p 12 4, t2Limit := u k.p 16 4 } }).finish .setPartition k .ok).settle) ∧
  ((∀ (k : Cmd) (f : ForgeId) (failing : BitVec 32) (s : State), Ready .selftest k s → plain k [(0, 1), (2, 2)] = true →
      u k.p 0 1 = 1 → u k.p 2 2 = f.val → (s.entered .selftest k).forgeAssigned f = false →
      (s.entered .selftest k).anyRunning = false →
      exec (.selftestForge k failing) s =
        .next (if failing = 0 then
            ((((s.entered .selftest k).dropCache.forgeOff f).forgeUp f).modForge f fun x =>
              { x with failed := false }).finish .selftest k .ok
          else ((((s.entered .selftest k).dropCache.forgeOff f).modForge f fun x => { x with failed := true }).log 0x0801 none
            f.val (bvBytes 4 failing)).finish .selftest k .ok failing.toNat).settle) ∧
    (∀ (k : Cmd) (failing : BitVec 32) (s : State), Ready .selftest k s → plain k [(0, 1), (2, 2)] = true →
      u k.p 0 1 = 2 → u k.p 2 2 = 0 →
      exec (.selftestHallmark k failing) s =
        .next (if failing = 0 then (s.entered .selftest k).finish .selftest k .ok
          else (((s.entered .selftest k).hallErr .integrity 4 0).log 0x0801 none 0xFFFF (bvBytes 4 failing)).finish .selftest k
            .ok failing.toNat).settle)) ∧
  ((∀ (k : Cmd) (s : State), Ready .powerDomainSet k s → plain k [(0, 1), (8, 16)] = true → u k.p 0 1 = 1 →
      u k.p 16 8 < 2 ^ 36 → (s.entered .powerDomainSet k).powerRefusal true (domMask k) = none →
      (s.entered .powerDomainSet k).anyRunning = false →
      let change := bitsSet 100 (domMask k &&& ~~~s.bell.domOn).toNat
      let t := if change.any (· < 64) then (s.entered .powerDomainSet k).dropCache else s.entered .powerDomainSet k
      exec (.powerDomainOn k) s =
        .next ((change.foldl (fun s d => s.switchDom true d) t).finish .powerDomainSet k .ok change.length).settle) ∧
    (∀ (k : Cmd) (s : State), Ready .powerDomainSet k s → plain k [(0, 1), (8, 16)] = true → u k.p 0 1 = 0 →
      u k.p 16 8 < 2 ^ 36 → (s.entered .powerDomainSet k).powerRefusal false (domMask k) = none →
      (s.entered .powerDomainSet k).anyRunning = false →
      let change := bitsSet 100 (domMask k &&& s.bell.domOn).toNat
      let t := if change.any (· < 64) then (s.entered .powerDomainSet k).dropCache else s.entered .powerDomainSet k
      exec (.powerDomainOff k) s =
        .next ((change.foldl (fun s d => s.switchDom false d) t).finish .powerDomainSet k .ok change.length).settle))

/-- EVENT_RING_SETUP with an address sets the ring up and the held records are written to it; with address 0 it tears the
ring down; EVENT_ACK frees the acknowledged records (R421 to R424). -/
def Obligations.EventRingCommandsComplete : Prop :=
  (∀ (k : Cmd) (s : State), Ready .eventRingSetup k s → plain k [(0, 9)] = true → u k.p 0 8 ≠ 0 → u k.p 0 8 % 4096 = 0 →
    6 ≤ u k.p 8 1 → u k.p 8 1 ≤ 10 →
    exec (.eventRingSetup k) s =
      .next (((s.entered .eventRingSetup k).evSetup (u k.p 0 8) (u k.p 8 1)).finish .eventRingSetup k .ok).settle) ∧
  (∀ (k : Cmd) (s : State), Ready .eventRingSetup k s → plain k [(0, 9)] = true → u k.p 0 8 = 0 → u k.p 8 1 = 0 →
    exec (.eventRingTeardown k) s =
      .next (({ s.entered .eventRingSetup k with events := { s.events with
        enabled := false, ringAddr := 0, ringLog2 := 0, written := 0, tail := 0, phase := true
        unsignalled := false } } : State).finish .eventRingSetup k .ok).settle) ∧
  (∀ (k : Cmd) (s : State), Ready .eventAck k s → plain k [(0, 4)] = true → u k.p 0 4 ≤ s.events.written →
    exec (.eventAck k) s =
      .next (((s.entered .eventAck k).ackEvents (u k.p 0 4)).finish .eventAck k .ok
        ((s.entered .eventAck k).ackEvents (u k.p 0 4)).events.held.length).settle)

/-! ### Firmware, keys and the Ledger -/

/-- FW_LOAD takes the image where every check of Table TRST-8 passes, and gives the first failing check's status where
one fails; before boot event 7 ends it is held, and starts when that event has ended (R374, R385). FW_START with an
image loaded and none running runs it: every domain on, the services up, and OK (R386). LEDGER_READ replies with the
live records of the type and sequence asked for, whole and in order, as many as fit; ROLLBACK_ADVANCE raises a counter
by a record unless it stands there already (R384, R387). -/
def Obligations.FirmwareAndLedgerCommandsComplete : Prop :=
  ((∀ (k : Cmd) (s : State), Ready .fwLoad k s → zeroOutside k.p 32 [] = true → s.hall.fwRunning = false →
      s.smith.event7 = true → s.hall.identityFault = false →
      exec (.fwLoad k) s =
        .next (if (fwCheck (s.entered .fwLoad k) k.payload).isNone then
            ((s.entered .fwLoad k).modHall fun h => { h with
              image := some { manifest := k.payload.take 8192, image := k.payload.drop 8192 }
              stage := if h.t1Degraded then h.stage else 10 }).finish .fwLoad k .ok
          else (s.entered .fwLoad k).loadFw k).settle) ∧
    (∀ (k : Cmd) (s : State), Ready .fwLoad k s → zeroOutside k.p 32 [] = true → s.hall.fwRunning = false →
      s.smith.event7 = false → s.hall.identityFault = false →
      exec (.fwLoad k) s =
        .next ({ s.entered .fwLoad k with smith := { s.smith with heldFwLoad := some k } } : State).settle) ∧
    (∀ (k : Cmd) (s : State), s.smith.event7 = false → s.hall.identityFault = false → s.domOn 97 = true →
      s.faulted = false → s.smith.heldFwLoad = some k →
      exec .fwLoadHeldStart s =
        .next (({ s.endEvent7 with smith := { s.endEvent7.smith with heldFwLoad := none } } : State).loadFw k)) ∧
    (∀ (s : State), s.smith.event7 = false → s.hall.identityFault = false → s.domOn 97 = true →
      s.faulted = false → s.smith.heldFwLoad = none → exec .fwLoadHeldStart s = .next s.endEvent7)) ∧
  (∀ (k : Cmd) (s : State), Ready .fwStart k s → plain k [] = true → s.hall.fwRunning = false → s.hall.image.isSome = true →
      exec (.fwStart k) s = .next ((s.entered .fwStart k).startFw.finish .fwStart k .ok).settle) ∧
  ((∀ (k : Cmd) (s : State), Ready .ledgerRead k s → plain k [(0, 2), (4, 4)] = true →
      let live := Ledger.mfg ++ s.ledger.log.filter s.ledger.isLive
      let out := takeFit k.outCap.toNat ((sortAsc (·.seq) (live.filter fun r =>
        (u k.p 0 2 = 0 || r.type == u k.p 0 2) && u k.p 4 4 ≤ r.seq)).map LedgerRec.stored)
      exec (.ledgerRead k) s = .next ((s.entered .ledgerRead k).finish .ledgerRead k .ok out.length out.flatten).settle) ∧
    (∀ (k : Cmd) (s : State), Ready .rollbackAdvance k s → plain k [(0, 1), (4, 4)] = true → u k.p 0 1 < 2 →
      u k.p 4 4 ≤ (if u k.p 0 1 = 0 then s.hall.svn else s.hall.keyIndex) → u k.p 4 4 ≤ s.ledger.rollback (u k.p 0 1) →
      exec (.rollbackAdvance k) s =
        .next ((s.entered .rollbackAdvance k).finish .rollbackAdvance k .ok (s.ledger.rollback (u k.p 0 1))).settle) ∧
    (∀ (k : Cmd) (s : State), Ready .rollbackAdvance k s → plain k [(0, 1), (4, 4)] = true → u k.p 0 1 < 2 →
      u k.p 4 4 ≤ (if u k.p 0 1 = 0 then s.hall.svn else s.hall.keyIndex) → s.ledger.rollback (u k.p 0 1) < u k.p 4 4 →
      s.bell.low = false →
      let l := s.ledger.write 0x0010 (u k.p 0 1) (toLe 4 (u k.p 4 4))
      exec (.rollbackAdvance k) s =
        .next (({ s.entered .rollbackAdvance k with ledger := l } : State).finish .rollbackAdvance k .ok
          (l.rollback (u k.p 0 1))).settle))

/-- ATTEST makes a key pair, signs the report over its public half, keeps the private half pending for the function and
replies with the report and the certificates (R391, Table TRST-10). KEY_EXCHANGE against the pending report, from the
function's owner, takes the pending key; where the owner's signature verifies it makes a session with the lowest free
number and replies with the confirmation, else it is refused at check 3 (R392, R393). Each slot that changes is wrapped anew
(R390). -/
def Obligations.AttestAndKeyExchangeComplete : Prop :=
  (∀ (k : Cmd) (s : State), Ready .attest k s → plain k [(8, 24)] = true → 26128 ≤ k.outCap.toNat →
      let a := (s.entered .attest k).drbg
      let kem := Config.kemKeyGen a.1
      let body := reportBody a.2 k.fn (slice k.p 8 24) kem.1
      let b := a.2.drbg
      let report := body ++ fit 7856 (Config.slhSign b.1 body)
      exec (.attest k) s =
        .next ((b.2.modHall fun h => { h.keep with
            pending := h.pending.set k.fn (some { dk := kem.2, report, digest := sha256 report })
            attests := inc32 h.attests }).finish .attest k .ok 0
          (report ++ fit 8112 (Config.certificate 0) ++ fit 8112 (Config.certificate 1))).settle) ∧
  (∀ (k : Cmd) (p : PendingKem) (s : State), Ready .keyExchange k s → zeroOutside k.p 32 [] = true → k.len = 9008 →
      32 ≤ k.outCap.toNat → (s.entered .keyExchange k).hall.pending[k.fn] = some p →
      digestBytes p.digest = slice k.payload 0 32 →
      (∀ d, (s.entered .keyExchange k).hall.owner[k.fn] = some d → d = sha256 (slice k.payload 0x460 32)) →
      ((s.entered .keyExchange k).hall.sessions[k.fn]).length < 64 →
      let t := (s.entered .keyExchange k).modHall fun h => { h.keep with pending := h.pending.set k.fn none }
      let th := digestBytes (sha256 (p.report ++ slice k.payload 0 0x480))
      let keys := fit 64 (kdf (Config.kemDecap p.dk (slice k.payload 0x20 1088)) (ascii "SESS") th 64)
      exec (.keyExchange k) s =
        .next (if Config.slhVerify (toDigest (slice k.payload 0x460 32))
              (digestBytes (sha256 (slice k.payload 0 0x480 ++ toLe 1 k.fn.val))) (slice k.payload 0x480 7856) then
            (t.modHall fun h => { h.keep with
              owner := h.owner.set k.fn (some (h.owner[k.fn].getD (sha256 (slice k.payload 0x460 32))))
              sessions := vmod h.sessions k.fn fun l =>
                l ++ [{ id := BitVec.ofNat 16 (t.freeSession k.fn), key := toDigest (keys.take 32) }] }).finish .keyExchange k .ok
              (t.freeSession k.fn) (digestBytes (hmac (keys.drop 32) (ascii "TPD1 CONFIRM" ++ th)))
          else t.kexRefuse k .integrity 3).settle)

/-! ### Supply, reset and the time base -/

/-- The reference: its lock makes it the time base and brings a dropped link back; its loss sets the latch, counts,
drops the link, and is logged (R32, R33). The tick count itself does not change. The supply comes: a seated module
without power starts from a cleared machine with only its Ledger; the contact and the shutdown, the overvoltage and the
current limit's expiry each end in the loss of power (R403, R405, R427, R429). The supply falls below its warning level
and recovers: LOW follows it, the latch stays, both are logged with the voltage (R404). -/
def Obligations.SupplyAndReferenceComplete : Prop :=
  ((∀ s : State, s.bell.spine = true → s.time.src ≠ 1 →
      exec .refLock s = .next { s with
        time := { s.time with src := 1 }, pcie := { s.pcie with up := s.domOn 96 && !s.held } }) ∧
    (∀ s : State, s.bell.spine = true → s.time.src = 1 →
      exec .refLost s = .next (State.log { s with
        time := { s.time with src := 2, refLost := true, losses := satAdd 16 s.time.losses 1 }
        pcie := { s.pcie with up := false } } 0x0004))) ∧
  ((∀ s : State, s.bell.spine = false → s.bell.present = true →
      exec .powerOn s = .next { s.powerLoss with
        bell := { s.powerLoss.bell with spine := true }, pcie := { s.powerLoss.pcie with perst := true } }) ∧
    (∀ s : State, s.bell.spine = true → exec .shutdownThreshold s = .next s.powerLoss) ∧
    (∀ s : State, s.bell.spine = true → exec .overvoltage s = .next s.powerLoss) ∧
    (∀ s : State, exec .presentMate s = .next { s with bell := { s.bell with present := true } }) ∧
    (∀ s : State, s.bell.spine = true →
      exec .presentBreak s = .next (State.powerLoss { s with bell := { s.bell with present := false } })) ∧
    (∀ s : State, s.bell.spine = true → exec .currentLimitOnset s = .next { s with
      bell := { s.bell with limiting := true, limitSeen := true, currentMa10 := 4800 } }) ∧
    (∀ s : State, exec .currentLimitRelease s = .next { s with bell := { s.bell with limiting := false } }) ∧
    (∀ s : State, s.bell.spine = true → s.bell.limiting = true → s.events.enabled = true →
      exec .inputCurrentLimit s = .next (s.log 0x0903 none 0 (bvBytes 2 s.bell.currentMa10)).powerLoss) ∧
    (∀ s : State, s.bell.spine = true → s.bell.limiting = true → s.events.enabled = false →
      exec .inputCurrentLimit s = .next s.powerLoss)) ∧
  ((∀ (v : BitVec 16) (s : State), s.bell.spine = true → s.bell.low = false →
      exec (.supplyLow v) s = .next (State.log { s with
        bell := { s.bell with low := true, lowSeen := true, voltageMv10 := v } } 0x0901 none 0 (bvBytes 2 v))) ∧
    (∀ (v : BitVec 16) (s : State), s.bell.spine = true → s.bell.low = true →
      exec (.supplyOk v) s = .next (State.log { s with
        bell := { s.bell with low := false, voltageMv10 := v } } 0x0902 none 0 (bvBytes 2 v))))

/-- A loss of power keeps Ledger's records and half, and nothing else of the module: no memory, no Hearth byte, no
function, no key, no event, no ring (R310, R406). What PERST# leaves: every switched domain off, no memory, no session
or key, an empty event buffer, and the time base and the Ledger as they were (R374). -/
def Obligations.WhatSurvivesResets : Prop :=
  (∀ s t : State, s.bell.spine = true → exec .shutdownThreshold s = .next t →
      t.ledger.log = s.ledger.log ∧ t.ledger.half = s.ledger.half ∧ t.ledger.generation = s.ledger.generation ∧
      t.ram = [] ∧ t.hearth = [] ∧ t.t1 = [] ∧ t.t2 = [] ∧ t.fns = State.reset.fns ∧ t.forges = State.reset.forges ∧
      t.plinths = State.reset.plinths ∧ t.ports = State.reset.ports ∧ t.host = State.reset.host ∧ t.admin = State.reset.admin ∧
      t.events = State.reset.events ∧ t.hall = State.reset.hall ∧ t.time = State.reset.time ∧ t.smith = State.reset.smith ∧
      t.near = State.reset.near ∧ t.models = State.reset.models ∧ t.flights = [] ∧ t.deferred = [] ∧ t.bell.spine = false) ∧
  (∀ s t : State, s.bell.spine = true → exec .perstAssert s = .next t →
      t.bell.domOn = 0 ∧ t.bell.spine = true ∧ t.time = s.time ∧ t.ledger = s.ledger ∧ t.ram = [] ∧ t.hearth = [] ∧
      t.t1 = [] ∧ t.t2 = [] ∧ t.hall.fwRunning = false ∧ t.hall.sessions = Vector.replicate 64 [] ∧
      t.hall.storage = Vector.replicate 64 none ∧ t.hall.modelKeys = Vector.replicate 16 none ∧
      t.hall.kHash = none ∧ t.hall.kWrap = none ∧ t.events.held = [] ∧ t.host = Vector.replicate 64 {} ∧ t.admin = {} ∧
      t.feat = {} ∧ t.flights = [] ∧ t.tap = s.tap)

/-- PERST#: asserted, it resets everything but the spine; released with the spine up, it starts the boot of Table
TRST-1. A hot reset is a function level reset of every function, with the link as newly trained (R374; log 12). Function
level resets and D-states: an FLR of an enabled function clears its rings and begins its disable without replies; a
function in D3hot raises no vector until it returns (R344, Table CMND-15). -/
def Obligations.ResetsComplete : Prop :=
  ((∀ s : State, s.bell.spine = true →
      exec .perstAssert s = .next (State.perstReset { s with pcie := { s.pcie with perst := true } })) ∧
    (∀ (env : BootEnv) (s : State), s.bell.spine = true → s.pcie.perst = true → s.tap.extest = false →
      exec (.perstDeassert env) s = .next (State.boot { s with pcie := { s.pcie with perst := false } } env)) ∧
    (∀ (env : BootEnv) (s : State), s.domOn 96 = true →
      exec (.hotReset env) s = .next (State.settle { s.flrAll with
        pcie := { s.pcie with up := true, width := env.width, rate := env.rate, vfs := env.vfs } }))) ∧
  ((∀ (fn : FnId) (s : State), s.domOn 96 = true → exec (.flr fn) s = .next (s.flr fn).settle) ∧
    (∀ (fn : FnId) (s : State), (s.host[fn]).enabled = true → (s.host[fn]).quiescing = false →
      let t := (s.modHost fn fun h => { h with rings := Vector.replicate 64 {}, d3hot := false }).beginDisable fn
      s.flr fn = { t with deferred := t.deferred ++ [Deferred.disable { fn, ring := none } fn false true] }) ∧
    (∀ s : State, s.domOn 96 = true → exec .flrPf s = .next s.flrAll.settle) ∧
    (∀ (fn : FnId) (s : State), exec (.d3hotEntry fn) s = .next (s.modHost fn fun h => { h with d3hot := true })) ∧
    (∀ (fn : FnId) (s : State), exec (.d0Return fn) s = .next (s.modHost fn fun h => { h with d3hot := false })))

/-- Undervoltage: its onset marks a powered domain and its recovery unmarks it; one that has lasted is counted, logged
with a value below 0.55 V, and anneals the domain's unit (R25; the value is free, log 1). A power sample enters the
window's average and moves the demands as R411 and R412 say; the first sample that finds the cap unreachable is logged.
The reading changes Bellows and the event log alone. -/
def Obligations.VoltageAndPowerSamplesComplete : Prop :=
  ((∀ (d : DomId) (s : State), s.domOn d.val = true → exec (.undervoltageOnset d) s = .next { s with
      bell := { s.bell with under := s.bell.under ||| (1#100 <<< d.val) } }) ∧
    (∀ (d : DomId) (s : State), exec (.undervoltageRecovery d) s = .next { s with
      bell := { s.bell with under := s.bell.under &&& ~~~(1#100 <<< d.val) } }) ∧
    (∀ (d : DomId) (s : State), s.bell.under.getLsbD d.val = true →
      exec (.domainUndervoltage d) s = .next (State.settle (State.anneal (State.log { s with
        draws := s.draws + 1
        bell := { s.bell with under := s.bell.under &&& ~~~(1#100 <<< d.val), undervolts := inc32 s.bell.undervolts } }
        0x0005 none d.val (toLe 2 (Config.freeNat s.draws % 550))) (domUnit d))))) ∧
  (∀ (w : BitVec 16) (s : State), s.bell.spine = true →
      exec (.powerSample w) s =
        .next (if (s.bell.sampled w.toNat).unreachable && !s.bell.unreachable then
            State.log { s with bell := s.bell.sampled w.toNat } 0x0904 none 0
              (toLe 2 (s.bell.sampled w.toNat).average ++ toLe 2 (s.bell.sampled w.toNat).cap)
          else { s with bell := s.bell.sampled w.toNat }))

/-- A sample above CAP on average with every group at its floor lowers nothing; below the floor one group moves, by 10
mV, in the order forges, migration, Smith and Hallmark, and a sample over 1,800 W takes 50 mV off the forges at once.
The demands of the cap stay in their ranges: forges and migration from 550 to 750 mV, Smith and Hallmark from 600 to 750
mV, in steps of 10 mV, at every sample (R411, R412). -/
def Obligations.CapMovesDemandsInOrder : Prop :=
  (∀ b : Bellows, CapInRange b →
      (550 < b.capForge → b.lower = { b with capForge := b.capForge - 10 }) ∧
      (b.capForge = 550 → 550 < b.capMigr → b.lower = { b with capMigr := b.capMigr - 10 }) ∧
      (b.capForge = 550 → b.capMigr = 550 → 600 < b.capCtl → b.lower = { b with capCtl := b.capCtl - 10 }) ∧
      (b.atFloor = true → b.lower = b) ∧
      (b.capCtl < 750 → b.raise = { b with capCtl := b.capCtl + 10 }) ∧
      (b.capCtl = 750 → b.capMigr < 750 → b.raise = { b with capMigr := b.capMigr + 10 }) ∧
      (b.capCtl = 750 → b.capMigr = 750 → b.capForge < 750 → b.raise = { b with capForge := b.capForge + 10 }) ∧
      (∀ w, 1800 < w → (b.surge w).capForge = max 550 (b.capForge - 50)) ∧ (∀ w, w ≤ 1800 → b.surge w = b)) ∧
  (∀ (b : Bellows) (w : Nat), CapInRange b → CapInRange (b.sampled w))

/-- Temperature readings and limits complete: the die's readings, the GDDR7 readings of a powered Plinth, and the hard
limits, whose sensor at 105 °C or more for the time of R417 puts the module into the fault state (R414 to R418). A
stack's report completes with the temperature taken and the level of Quench that R246 gives: level n is entered at the
n-th threshold of 95, 97, 99, 101, 103 and 105 °C, and left 2 °C below it. The ERROR_SUMMARY record is written where
firmware runs; a failed entropy test is recorded, and anneals the device, or is an identity fault before firmware runs
(R388, R404, Table TRST-6). -/
def Obligations.TemperatureEntropyAndSummaryComplete : Prop :=
  ((∀ (temps : List (Fin 164 × BitVec 16)) (s : State), s.bell.spine = true →
      exec (.dieThermalReading temps) s = .next (dieReading temps s)) ∧
    (∀ (n : PlinthId) (temps : List (Fin 6 × BitVec 16)) (s : State), s.plinthOn n = true →
      exec (.gddr7TempReading n temps) s = .next (gddr7Reading n temps s)) ∧
    (∀ (x : Fin 164) (s : State), dieSensor x.val = true → s.bell.spine = true → s.faulted = false →
      deg 105 ≤ (s.bell.temps[x]).toInt →
      exec (.dieHardLimit x) s =
        .next ((s.log 0x0905 none x.val (bvBytes 2 s.bell.temps[x] ++ [3])).enterFault 2)) ∧
    (∀ (st : StackId) (x : Fin 164) (s : State), x.val = 64 + st.val → s.bell.spine = true → s.faulted = false →
      deg 105 ≤ (s.bell.temps[x]).toInt →
      exec (.stackHardLimit st) s =
        .next ((s.log 0x0905 none x.val (bvBytes 2 s.bell.temps[x] ++ [3])).enterFault 2)) ∧
    (∀ (n : PlinthId) (dev : Fin 6) (x : Fin 164) (s : State), x.val = 80 + 6 * n.val + dev.val → s.bell.spine = true →
      s.faulted = false → deg 105 ≤ (s.bell.temps[x]).toInt →
      exec (.gddr7HardLimit n dev) s =
        .next ((s.log 0x0905 none x.val (bvBytes 2 s.bell.temps[x] ++ [3])).enterFault 2))) ∧
  ((∀ (k : StackId) (t : BitVec 16) (s : State), s.domOn (64 + k.val) = true →
      exec (.quenchReport k t) s = .next (quenchReport k t s)) ∧
    (∀ (k : StackId) (t : BitVec 16) (s : State),
      ((quenchReport k t s).near.stks[k]).level = quenchLevel (s.near.stks[k]).level t.toInt ∧
      ((quenchReport k t s).near.stks[k]).temp = t ∧ ((quenchReport k t s).bell.temps[64 + k.val]'(by omega)) = t) ∧
    (∀ (old : Nat) (t : Int), old ≤ 6 →
      (deg 105 ≤ t → quenchLevel old t = 6) ∧ (t < deg 93 → quenchLevel old t = 0) ∧
      (∀ n, 1 ≤ n → n ≤ 5 → deg (93 + 2 * n) ≤ t → t < deg (95 + 2 * n) → quenchLevel old t = n ∨
        quenchLevel old t = n + 1 ∧ n + 1 ≤ old))) ∧
  ((∀ s : State, s.hall.fwRunning = true → exec .errorSummary s = .next s.errorSummary) ∧
    (∀ s : State, s.domOn 98 = true → s.hall.fwRunning = true →
      exec .entropyHealthFail s = .next (((s.hallErr .integrity 4 0).anneal .device).settle)) ∧
    (∀ s : State, s.domOn 98 = true → s.hall.fwRunning = false →
      exec .entropyHealthFail s = .next ((s.hallErr .integrity 4 0).modHall fun h =>
        { h with identityFault := true, stage := 0xF })))

/-- The test access port: IDCODE selects the device's 32-bit code, SAMPLE/PRELOAD captures or holds the boundary and loads
it, BYPASS and the unused codes select the one-bit register, EXTEST holds the module in reset until it is left (R433,
R434). -/
def Obligations.TestAccessPortCompletes : Prop :=
  (∀ s : State, s.bell.spine = true → s.tap.extest = false →
    exec .idcode s = .next { s with tap := { s.tap with ir := 1, dr := 0x1D44154B } }) ∧
  (∀ (c : Bool) (d : BitVec 16) (s : State), s.bell.spine = true → s.tap.extest = false →
    exec (.samplePreload c d) s = .next { s with
      tap := { s.tap with ir := 2, boundary := d, dr := (if c then d else s.tap.boundary).zeroExtend 32 } }) ∧
  (∀ (c : BitVec 4) (s : State), s.bell.spine = true → s.tap.extest = false → 2 < c.toNat →
    exec (.bypass c) s = .next { s with tap := { s.tap with ir := c, dr := 0 } }) ∧
  (∀ s : State, s.bell.spine = true → exec .extestLoad s = .next (State.perstReset { s with
    tap := { s.tap with ir := 0, extest := true, dr := s.tap.boundary.zeroExtend 32 } })) ∧
  (∀ (env : BootEnv) (s : State), s.tap.extest = true → s.bell.spine = true → s.pcie.perst = false →
    exec (.extestLeave env) s = .next (State.boot { s with
      tap := { s.tap with ir := 1, extest := false, dr := 0x1D44154B } } env)) ∧
  (∀ (env : BootEnv) (s : State), s.tap.extest = true → s.pcie.perst = true →
    exec (.extestLeave env) s = .next { s with tap := { s.tap with ir := 1, extest := false, dr := 0x1D44154B } })

/-! ### The Range and the tiers -/

/-- RANGE_MAP maps spans of its own with zero content, or a shared model, and RANGE_UNMAP unmaps a set of spans that may go
and that nothing uses; each commits as one heat (R221, R224, R227, R396, R397). -/
def Obligations.RangeCommandsComplete : Prop :=
  (∀ (k : Cmd) (role : Role) (slot : Fin 32) (s t u' : State), Ready .rangeMap k s → rangeMapOk k = true →
    Role.ofCode (u k.p 12 1) = some role → bit (u k.p 14 1) 0 = false →
    heatFor .rangeMap k (s.entered .rangeMap k) = some (slot, t) →
    (t.fns[k.fn]).spans.any (fun x => u k.p 0 8 / 2097152 ≤ x.num && x.num < u k.p 0 8 / 2097152 + u k.p 8 4) = false →
    (role.isKv = false ∨ (t.fns[k.fn]).extendsRun role (u k.p 0 8 / 2097152) = true) →
    t.mapSpans k.fn role (u k.p 13 1 == 2) none (u k.p 0 8 / 2097152) (u k.p 8 4) = .ok u' →
    exec (.rangeMap k) s = .next (heatEnds .rangeMap k (s.entered .rangeMap k) slot u').settle) ∧
  (∀ (k : Cmd) (slot : Fin 32) (s t u' : State), Ready .rangeMap k s → rangeMapOk k = true → bit (u k.p 14 1) 0 = true →
    heatFor .rangeMap k (s.entered .rangeMap k) = some (slot, t) →
    (t.fns[k.fn]).spans.any (fun x => u k.p 0 8 / 2097152 ≤ x.num && x.num < u k.p 0 8 / 2097152 + u k.p 8 4) = false →
    t.mapModel k.fn (BitVec.ofNat 64 (u k.p 16 8)) (u k.p 13 1 == 2) (u k.p 0 8 / 2097152) (u k.p 8 4) = .ok u' →
    exec (.rangeMap k) s = .next (heatEnds .rangeMap k (s.entered .rangeMap k) slot u').settle) ∧
  (∀ (k : Cmd) (slot : Fin 32) (s t u' : State), Ready .rangeUnmap k s → plain k [(0, 12)] = true →
    u k.p 0 8 % 2097152 = 0 → 1 ≤ u k.p 8 4 → u k.p 0 8 + u k.p 8 4 * 2097152 ≤ indexBase →
    heatFor .rangeUnmap k (s.entered .rangeUnmap k) = some (slot, t) →
    t.unmapOk k.fn (u k.p 0 8 / 2097152) (u k.p 8 4) = true → t.unmapBusy k.fn (u k.p 0 8 / 2097152) (u k.p 8 4) = false →
    t.unmapSpans k.fn (u k.p 0 8 / 2097152) (u k.p 8 4) = some u' →
    exec (.rangeUnmap k) s = .next (heatEnds .rangeUnmap k (s.entered .rangeUnmap k) slot u').settle)

/-- LOAD_BILLETS writes its billets to unsealed or poisoned BILLETS pages, SEAL_PAGES seals what is not yet sealed, READ_OUT,
registered in the epoch and pinning the KV pages that it reads, replies with the bytes as its heat sees them (R150, R160, R207,
R209, R224, R397). -/
def Obligations.BilletCommandsComplete : Prop :=
  (∀ (k : Cmd) (slot : Fin 32) (s t u' : State), Ready .loadBillets k s → zeroOutside k.p 32 [(0, 13)] = true →
    u k.p 12 1 < 2 → u k.p 0 8 % 65536 = 0 → 1 ≤ u k.p 8 4 → u k.p 8 4 ≤ 256 → u k.p 0 8 < indexBase →
    heatFor .loadBillets k (s.entered .loadBillets k) = some (slot, t) →
    (∀ i, i < u k.p 8 4 → (t.fns[k.fn]).roleOf (u k.p 0 8 + 65536 * i) = some .billets ∧
      ∃ g p, t.pageAt k.fn (u k.p 0 8 + 65536 * i) = some (g, p) ∧
        ((t.fns[k.fn]).sealedFor slot p = false ∨ p.poisoned = true)) →
    t.loadPayload k.fn slot (bit (u k.p 12 1) 0) (u k.p 8 4) (u k.p 0 8) k.payload = .ok u' →
    (bit (u k.p 12 1) 0 = false ∨
      u'.sealsModels k.fn slot ((List.range (u k.p 8 4)).map (u k.p 0 8 / 65536 + ·)) = true) →
    exec (.loadBillets k) s =
      .next ((heatEnds .loadBillets k (s.entered .loadBillets k) slot u').settle.pumpFn k.fn)) ∧
  (∀ (k : Cmd) (slot : Fin 32) (s t u' : State), Ready .sealPages k s → plain k [(0, 12)] = true →
    u k.p 0 8 % 65536 = 0 → 1 ≤ u k.p 8 4 → u k.p 8 4 ≤ 4096 → u k.p 0 8 < indexBase →
    heatFor .sealPages k (s.entered .sealPages k) = some (slot, t) →
    let nums := (List.range (u k.p 8 4)).map (u k.p 0 8 / 65536 + ·)
    let todo := t.toSeal k.fn slot nums
    (∀ i ∈ nums, (t.fns[k.fn]).roleOf (65536 * i) = some .data ∨ (t.fns[k.fn]).roleOf (65536 * i) = some .billets) →
    (∀ i ∈ nums, ∀ g p, t.pageAt k.fn (65536 * i) = some (g, p) → p.poisoned = false) →
    (∀ i ∈ todo, (t.fns[k.fn]).roleOf (65536 * i) = some .billets → t.holdsBillet k.fn slot i = true) →
    foldE (fun (s : State) i => s.sealPage k.fn slot i) todo t = .ok u' → u'.sealsModels k.fn slot todo = true →
    exec (.sealPages k) s = .next (heatEnds .sealPages k (s.entered .sealPages k) slot u').settle) ∧
  (∀ (k : Cmd) (slot : Fin 32) (s s' t : State), Ready .readOut k s → plain k [(0, 12)] = true → u k.p 0 8 % 256 = 0 →
    u k.p 8 4 % 256 = 0 → u k.p 8 4 ≤ 16777216 → u k.p 0 8 < 2 ^ 48 → u k.p 8 4 ≤ k.outCap.toNat →
    ((s.entered .readOut k).fns[k.fn]).mappedRange (u k.p 0 8) (u k.p 8 4) = true →
    ((s.entered .readOut k).startRead k (u k.p 0 8) (u k.p 8 4)).meet k.fn (u k.p 0 8) (u k.p 8 4) {} = (s', .fine) →
    heatFor .readOut k s' = some (slot, t) → (t.fns[k.fn]).lostIn (u k.p 0 8) (u k.p 8 4) = false →
    exec (.readOut k) s =
      .next ((heatEnds .readOut k s' slot t 0 (t.readView k.fn slot (u k.p 0 8) (u k.p 8 4))).afterRead k.fn (u k.p 0 8)
        (u k.p 8 4)).settle)

/-- MIGRATE_HINT in its four actions: prefetch starts the pages towards T1, PARK gives them home T2, PROMOTE home T1,
and a copy starts them towards T2, where the pages are admitted and the frames are there (R232, Table TIER-3). A page on
its way up, at its turn on the link of its Plinth, has its T1 copy at the arrival, in its span's frame or in a staging frame,
and what waited for it goes on; a sealed page on its way down, at its turn, has its T2 copy (R228 to R234). -/
def Obligations.MigrationComplete : Prop :=
  (∀ (k : Cmd) (slot : Fin 32) (s t t' u' : State) (l : List HintPage), Ready .migrateHint k s → hintOk k = true →
      heatFor .migrateHint k (s.entered .migrateHint k) = some (slot, t) → t.hintNamed k slot = .ok (t', l) →
      t'.hintPages k.fn (u k.p 0 1) l = some u' →
      (u k.p 0 1 = 1 → exec (.migratePrefetch k) s =
        .next ((heatEnds .migrateHint k (s.entered .migrateHint k) slot u').afterHint k.fn).settle) ∧
      (u k.p 0 1 = 2 → exec (.park k) s =
        .next ((heatEnds .migrateHint k (s.entered .migrateHint k) slot u').afterHint k.fn).settle) ∧
      (u k.p 0 1 = 3 → exec (.promote k) s =
        .next ((heatEnds .migrateHint k (s.entered .migrateHint k) slot u').afterHint k.fn).settle) ∧
      (u k.p 0 1 = 4 → exec (.migrateCopy k) s =
        .next ((heatEnds .migrateHint k (s.entered .migrateHint k) slot u').afterHint k.fn).settle)) ∧
  ((∀ (fn g : FnId) (addr : BitVec 48) (place : Nat) (staged : Bool) (p q : Page) (s t : State),
      s.pageAt fn addr.toNat = some (g, p) → ((s.queueMoves g none).fns[g]).page? p.num = some q → p.up = true → q.up = true →
      q.t1 = false → q.t2 = true → (s.queueMoves g none).t2Linked g p.num = true → (s.queueMoves g none).myTurn g p.num = true →
      (s.queueMoves g none).t1Room g p.num = some (t, place, staged) →
      let t' := (t.stamp.2.modPage g p.num fun p =>
        { p with t1 := true, up := false, staged, place, arrived := t.stamp.1, lastRead := t.stamp.1, urgent := false
                 ticket := 0, refetch := false, mover := none }).access (q.payer g) (placeUnits place)
      let t'' := (({ t' with migr := { t'.migr with up := t'.migr.up + t'.travels g p.num } } : State).modFn g Fn.limbo).queueMoves
        g none
      exec (.billetArrival fn addr) s = .next t''.pumpAll.settle ∧
        exec (.migrationCopyComplete fn addr true) s = .next t''.pumpAll.settle) ∧
    (∀ (fn g : FnId) (addr : BitVec 48) (p q : Page) (s t : State), s.pageAt fn addr.toNat = some (g, p) →
      ((s.queueMoves g none).fns[g]).page? p.num = some q → p.up = false → q.down = true → q.t1 = true → q.sealed_ = true →
      q.bad = [] → (s.queueMoves g none).needT2 (g, p.num) = some t → t.t2Linked g p.num = true → t.myTurn g p.num = true →
      let t' := t.access (q.payer g) (t.t1Units g (p.num * 65536) 65536)
      let t'' := ({ t' with migr := { t'.migr with down := t'.migr.down + t'.travels g p.num } } : State).modPage g p.num fun p =>
        let p := { p with t2 := true, down := false, urgent := false, ticket := 0, mover := none }
        if p.dropT1 && p.pins == 0 then { p with t1 := false, staged := false, dropT1 := false } else p
      ∀ ok, exec (.migrationCopyComplete fn addr ok) s =
        .next (((t''.fixFrames g (p.num / 32)).fixStaging g).modFn g Fn.limbo).pumpAll.settle))

/-! ### The KV store -/

/-- KV_ALLOC_SEQ, KV_FORK and KV_FREE_SEQ: a new sequence with its handle and its place for a list; a child that shares the
source's pages up to the length asked for, with its own token area; a sequence that gives its references up (R203, R205). -/
def Obligations.SequenceCommandsComplete : Prop :=
  (∀ (k : Cmd) (slot : Fin 32) (h : Nat) (s t u' : State), Ready .kvAllocSeq k s → allocSeqOk k = true →
    heatFor .kvAllocSeq k (s.entered .kvAllocSeq k) = some (slot, t) → (t.fns[k.fn]).poolMapped = true →
    (t.fns[k.fn]).tokenArea (u k.p 8 8) (u k.p 0x10 4) = true → t.newSeq k.fn slot (allocSeq k) = .ok (u', h) →
    exec (.kvAllocSeq k) s = .next (heatEnds .kvAllocSeq k (s.entered .kvAllocSeq k) slot u' h).settle) ∧
  (∀ (k : Cmd) (slot : Fin 32) (q : Seq) (h : Nat) (s t t' u' : State), Ready .kvFork k s →
    plain k [(0, 10), (16, 8)] = true → u k.p 9 1 < 2 →
    heatFor .kvFork k (s.entered .kvFork k) = some (slot, t) → (t.fnView k.fn (some slot)).seq? (u k.p 0 4) = some q →
    let n := if u k.p 4 4 = 0xFFFFFFFF then q.length else u k.p 4 4
    let es := q.entries.filter fun e => e.lpage < ceilDiv n 64
    n ≤ q.length → (t.fnView k.fn (some slot)).tokenArea (u k.p 0x10 8) q.maxPages = true →
    (t.fnView k.fn (some slot)).seqLost q = false → t.poisonedIn k.fn q.tokenBase (4 * n) (some slot) = false →
    (t.fnView k.fn (some slot)).bound q.handle = false →
    t.newSeq k.fn slot { q with tokenBase := u k.p 0x10 8, priority := u k.p 8 1, order := u k.p 9 1, length := n, entries := es, lastStep := 0, lost := [] } = .ok (t', h) →
    t'.countsAs k.fn slot (q.layers * q.groups * ceilDiv (ceilDiv n 64) 64 + ceilDiv (4 * n) 2097152)
      (fun s => s.heatWrite k.fn slot (u k.p 0x10 8) (s.readRange k.fn (some slot) q.tokenBase (4 * n))) = .ok u' →
    exec (.kvFork k) s =
      .next (heatEnds .kvFork k (s.entered .kvFork k) slot ((u'.refs k.fn slot es 1).noteLookup k.fn slot []) h).settle) ∧
  (∀ (k : Cmd) (slot : Fin 32) (q : Seq) (s t u' : State), Ready .kvFreeSeq k s → plain k [(0, 4)] = true →
    heatFor .kvFreeSeq k (s.entered .kvFreeSeq k) = some (slot, t) → (t.fnView k.fn (some slot)).seq? (u k.p 0 4) = some q →
    (t.fnView k.fn (some slot)).bound q.handle = false →
    t.act k.fn slot (listUnits (q.freed (t.fnView k.fn (some slot)))) = .ok u' →
    exec (.kvFreeSeq k) s =
      .next (heatEnds .kvFreeSeq k (s.entered .kvFreeSeq k) slot
        ((u'.refs k.fn slot (q.freed (t.fnView k.fn (some slot))) (-1)).edit k.fn slot (.freeSeq q.handle))).settle)

/-- PREFIX_LOOKUP gives an empty sequence the pages of the nodes that match its tokens from the root; PREFIX_PUBLISH
makes nodes of a sequence's full blocks and says how far it came (R212, R213). KV_DROP of a run drops its candidates and
says how many; with a policy it sets the sequence's priority and order (R205, R215). -/
def Obligations.PrefixAndDropCommandsComplete : Prop :=
  ((∀ (k : Cmd) (slot : Fin 32) (q : Seq) (s t u' : State), Ready .prefixLookup k s → plain k [(0, 8)] = true →
      heatFor .prefixLookup k (s.entered .prefixLookup k) = some (slot, t) →
      (t.fnView k.fn (some slot)).seq? (u k.p 0 4) = some q → q.length = 0 → u k.p 4 4 ≤ 64 * q.maxPages →
      (t.fnView k.fn (some slot)).seqLost q = false → t.prefixLost k.fn = false →
      t.poisonedIn k.fn q.tokenBase (4 * u k.p 4 4) (some slot) = false →
      (t.fnView k.fn (some slot)).bound q.handle = false →
      let r := t.prefixHits k.fn slot q (u k.p 4 4)
      (t.noteClash k.fn q r.2).act k.fn slot (q.layers * q.groups * ceilDiv r.1.length 64) = .ok u' →
      exec (.prefixLookup k) s =
        .next (heatEnds .prefixLookup k (s.entered .prefixLookup k) slot (u'.takePrefix k.fn slot q r.1) r.1.length).settle) ∧
    (∀ (k : Cmd) (slot : Fin 32) (q : Seq) (a : Published) (s t : State), Ready .prefixPublish k s → plain k [(0, 8)] = true →
      heatFor .prefixPublish k (s.entered .prefixPublish k) = some (slot, t) →
      (t.fnView k.fn (some slot)).seq? (u k.p 0 4) = some q → u k.p 4 4 ≤ q.length / 64 →
      (t.fnView k.fn (some slot)).seqLost q = false → t.prefixLost k.fn = false →
      t.poisonedIn k.fn q.tokenBase (256 * u k.p 4 4) (some slot) = false →
      (t.fnView k.fn (some slot)).bound q.handle = false →
      publishBlocks k.fn slot q (Config.prefixNodes ((t.fnView k.fn (some slot)).roleBytes .kvPrefix)) (u k.p 4 4) 0
        q.namespace_ none { s := t } = .ok a →
      exec (.prefixPublish k) s =
        .next (heatEnds .prefixPublish k (s.entered .prefixPublish k) slot a.s
          (min a.blocks 65535 * 65536 + min a.made 65535)).settle)) ∧
  ((∀ (k : Cmd) (slot : Fin 32) (q : Seq) (s t u' : State), Ready .kvDrop k s → kvDropOk k = true → u k.p 4 1 = 0 →
      heatFor .kvDrop k (s.entered .kvDrop k) = some (slot, t) → (t.fnView k.fn (some slot)).seq? (u k.p 0 4) = some q →
      (t.fnView k.fn (some slot)).seqLost q = false →
      let js := (t.fnView k.fn (some slot)).candidates q (u k.p 8 4) (u k.p 12 4)
      t.dropAll k.fn slot q js = .ok u' →
      exec (.kvDrop k) s = .next (heatEnds .kvDrop k (s.entered .kvDrop k) slot u' js.length).settle) ∧
    (∀ (k : Cmd) (slot : Fin 32) (q : Seq) (s t : State), Ready .kvDrop k s → kvDropOk k = true → u k.p 4 1 = 1 →
      heatFor .kvDrop k (s.entered .kvDrop k) = some (slot, t) → (t.fnView k.fn (some slot)).seq? (u k.p 0 4) = some q →
      (t.fnView k.fn (some slot)).seqLost q = false →
      exec (.kvDropSetPolicy k) s =
        .next (heatEnds .kvDrop k (s.entered .kvDrop k) slot
          (t.edit k.fn slot (.policy q.handle (u k.p 5 1) (u k.p 6 1)))).settle))

/-- The epoch advances once nothing registered before it is active, and reclaims the pages two epochs old; the drop policy
of a step that wants pages evicts nodes and drops blocks in a heat of its own, then lets the step run again, or ends it with
NO_SPACE where nothing could go (R209, R216). -/
def Obligations.EpochAndDropPolicyComplete : Prop :=
  (∀ (fn : FnId) (s : State), (s.fns[fn]).registeredBefore (s.fns[fn]).epoch = false →
    exec (.epochAdvance fn) s =
      .next ((((((s.fns[fn]).hdrs.filter fun h => h.state == .limbo && h.epoch + 2 ≤ (s.fns[fn]).epoch + 1 && !h.lost).map
        (·.num)).foldl (fun s n => s.reclaim fn n)
          (s.modFn fn fun f => { f with epoch := f.epoch + 1 })).pumpFn fn).settle)) ∧
  (∀ (fn : FnId) (id : BitVec 64) (r : Running) (n : Nat) (slot : Fin 32) (s t : State),
    ((s.fns[fn]).mould? id).bind (·.run) = some r → r.dropWanted = some n → (s.fns[fn]).counted < 32 →
    s.openHeat fn .single 4096 = some (slot, t) →
    let a := t.evictNodes fn slot (2 * n) (t.fns[fn]).nodes.length
    let b := a.1.dropBlocks fn slot (2 * n) [] (a.1.fns[fn]).dropOrder
    let t' := (b.1.commitHeat fn slot).log 0x0402 (some fn) 0 (toLe 4 b.2 ++ toLe 4 a.2)
    exec (.dropPolicy fn id) s =
      .next (if b.2 = 0 && a.2 = 0 then t'.endStep fn id .noSpace
        else t'.modRun fn id fun r =>
          { r with dropWanted := none, dropped := true, dropGoal := min (2 * n) (b.1.roomWith fn slot) }).settle)

/-! ### Retrieval -/

/-- RETRIEVE_INDEX_LOAD seals pages of rows with their T2 copies and writes their tags; RETRIEVE_SCAN is accepted where its
rows and tags are sealed (R282, R283). -/
def Obligations.RetrievalCommandsComplete : Prop :=
  (∀ (k : Cmd) (slot : Fin 32) (s t u' : State), Ready .retrieveIndexLoad k s → indexLoadOk k = true →
    (s.entered .retrieveIndexLoad k).pagesOf k.fn (loadAt k) (loadBytes k) .retrieval true = true →
    (s.entered .retrieveIndexLoad k).pagesOf k.fn (loadTags k) (8 * u k.p 0x14 4) .data false = true →
    (s.entered .retrieveIndexLoad k).loadLinked k = true →
    heatFor .retrieveIndexLoad k (s.entered .retrieveIndexLoad k) = some (slot, t) → t.loadIndex k slot = .ok u' →
    exec (.retrieveIndexLoad k) s =
      .next ((heatEnds .retrieveIndexLoad k (s.entered .retrieveIndexLoad k) slot u' (u k.p 0x14 4)).fixLoaded k).settle) ∧
  (∀ (k : Cmd) (s : State), Ready .retrieveScan k s → scanOk k = true → 8 * u k.p 0x16 1 * u k.p 0x14 2 ≤ k.outCap.toNat →
    (s.fns[k.fn]).scans.any (·.cmd == k) = false →
    (s.entered .retrieveScan k).scanReady k.fn (u k.p 0 8) (u k.p 8 8) (u k.p 0x10 4) (1024 * u k.p 0x17 1) = true →
    exec (.retrieveScan k) s =
      .next ((s.entered .retrieveScan k).modFn k.fn fun f => { f with
        nextScan := f.nextScan + 1
        scans := f.scans ++ [{ id := f.nextScan, cmd := k, queries := u k.p 0x16 1, k := u k.p 0x14 2 }] }).settle)

/-- A queued scan starts on all its Plinths at once where they are free; when all rows are scored and every aggregate
agrees with the stored tags it replies with the lists; at its deadline it ends with TIMEOUT and no list (R283 to R285).
What the end of a scan leaves: its Plinths free, with no list and no instruction of the scan, the scan gone from its
function (R283, R284). -/
def Obligations.ScansStartAndEnd : Prop :=
  ((∀ (fn : FnId) (x : Scan) (s : State), (s.fns[fn]).scans.find? (!·.started) = some x → s.scanMayStart fn x = true →
      exec (.scanStart fn) s =
        .next ((s.scanPlinths fn x).foldl (State.startScanOn fn x (s.scanInstrs fn x))
          (s.modFn fn fun f => { f with
            scans := updateFirst (fun (y : Scan) => y.id == x.id) (fun y => { y with started := true }) f.scans }))) ∧
    (∀ (fn : FnId) (id : Nat) (x : Scan) (s : State), (s.fns[fn]).scans.find? (·.id == id) = some x → x.started = true →
      (∀ n ∈ s.scanning fn id, (s.plinths[n]).scoring = false ∧ s.storedTags fn x n = (s.plinths[n]).agg) →
      s.poisonedIn fn (u x.cmd.p 8 8) (8 * u x.cmd.p 0x10 4) = false →
      s.chanBlocks fn (u x.cmd.p 8 8) (8 * u x.cmd.p 0x10 4) = false →
      exec (.scanComplete fn id true) s =
        .next (s.endScan fn id .ok (min (s.scored fn id) 0xFFFFFFFF) (s.scanLists fn x))) ∧
    (∀ (fn : FnId) (id : Nat) (x : Scan) (s : State), (s.fns[fn]).scans.find? (·.id == id) = some x →
      exec (.scanDeadline fn id) s = .next (s.endScan fn id .timeout))) ∧
  (∀ (fn : FnId) (id : Nat) (st : Status) (detail : Nat) (pl : List Byte) (s : State), s.deferred = [] →
      (s.fns[fn]).scans.any (·.id == id) = true →
      let t := s.endScan fn id st detail pl
      (t.fns[fn]).scans = (s.fns[fn]).scans.filter (·.id != id) ∧ t.ram = s.ram ∧ t.hearth = s.hearth ∧
      ∀ n : PlinthId, (s.plinths[n]).scan = some (fn, id) →
        (t.plinths[n]).scan = none ∧ (t.plinths[n]).topk = [] ∧ (t.plinths[n]).scanTodo = [] ∧ (t.plinths[n]).scanAll = [])

/-! ### Features and registers -/

/-- SET_FEATURE sets a timeout within its range where the orders of Table TIME-6 hold, switches cache segments that no
installed mould lies in, sets the scan groups where no frame changes its class, writes a register under REG_WRITE;
GET_FEATURE reads each of them back (R41, R87, R89, R257, R334). -/
def Obligations.FeatureCommandsComplete : Prop :=
  (∀ (k : Cmd) (i : Fin 11) (s : State), Ready .setFeature k s → plain k [(0, 2), (8, 16)] = true → u k.p 16 8 = 0 →
    u k.p 0 2 = 0x101 + i.val → (timeoutRange.getD i.val (0, 0)).1 ≤ u k.p 8 8 → u k.p 8 8 ≤ (timeoutRange.getD i.val (0, 0)).2 →
    timeoutsOk (s.feat.timeouts.set i (u k.p 8 8)) = true →
    exec (.setFeature k) s =
      .next (({ s.entered .setFeature k with
        feat := { s.feat with timeouts := s.feat.timeouts.set i (u k.p 8 8) } } : State).finish .setFeature k .ok).settle) ∧
  (∀ (k : Cmd) (s : State), Ready .setFeature k s → plain k [(0, 2), (8, 16)] = true → u k.p 16 8 = 0 → u k.p 0 2 = 0x0201 →
    u k.p 8 8 ≠ 0 → u k.p 8 8 < 2 ^ 12 → s.mouldsUnder (u k.p 8 8) = 0 → s.anyRunning = false →
    exec (.hearthCacheSegments k) s =
      .next (((s.entered .setFeature k).switchSegments (BitVec.ofNat 12 (u k.p 8 8))).finish .setFeature k .ok).settle) ∧
  (∀ (k : Cmd) (s : State), Ready .setFeature k s → plain k [(0, 2), (8, 16)] = true → u k.p 16 8 = 0 → u k.p 0 2 = 0x0301 →
    u k.p 8 8 < 2 ^ 48 →
    (∀ x ∈ s.t2, groupClass s.feat.scanGroups (t2Group x.num) = groupClass (BitVec.ofNat 48 (u k.p 8 8)) (t2Group x.num)) →
    exec (.plinthScanGroups k) s =
      .next (({ s.entered .setFeature k with
        feat := { s.feat with scanGroups := BitVec.ofNat 48 (u k.p 8 8) } } : State).finish .setFeature k .ok).settle) ∧
  (∀ (k : Cmd) (r : RegWord) (g : Nat → State → State) (s : State), Ready .setFeature k s →
    plain k [(0, 2), (8, 16)] = true → u k.p 0 2 = 0xF001 → regArgOk (u k.p 16 8) = true → u k.p 8 8 < 2 ^ 32 →
    dieReg (s.entered .setFeature k) (u k.p 16 8) = some r → r.write = some g → r.closed = false →
    exec (.regWrite k) s = .next ((g (u k.p 8 8) (s.entered .setFeature k)).finish .setFeature k .ok).settle) ∧
  (∀ (k : Cmd) (s : State), Ready .getFeature k s → plain k [(0, 2), (16, 8)] = true → u k.p 16 8 = 0 → 8 ≤ k.outCap.toNat →
    (∀ i : Fin 11, u k.p 0 2 = 0x101 + i.val → exec (.getFeature k) s =
      .next ((s.entered .getFeature k).finish .getFeature k .ok 0 (toLe 8 s.feat.timeouts[i])).settle) ∧
    (u k.p 0 2 = 0x0201 → exec (.getFeature k) s =
      .next ((s.entered .getFeature k).finish .getFeature k .ok 0 (toLe 8 s.feat.cacheMask.toNat)).settle) ∧
    (u k.p 0 2 = 0x0301 → exec (.getFeature k) s =
      .next ((s.entered .getFeature k).finish .getFeature k .ok 0 (toLe 8 s.feat.scanGroups.toNat)).settle)) ∧
  (∀ (k : Cmd) (s : State), Ready .getFeature k s → k.ring = none → plain k [(0, 2), (16, 8)] = true → u k.p 0 2 = 0xF000 →
    regArgOk (u k.p 16 8) = true → 8 ≤ k.outCap.toNat →
    let r := (s.entered .getFeature k).readReg (u k.p 16 8)
    exec (.regRead k) s = .next (r.2.finish .getFeature k .ok 0 (toLe 8 r.1)).settle)

/-- Register accesses do what the access code of their word says: a written field changes by its rule, a W1C bit clears
where its bit is written 1 and stays where it is written 0, a counter that a read clears returns its value and is
cleared, the low word of a wide register latches the high one, and the high word returns the latch and empties it (R8,
R9). The latch of a wide register: after its low word is read the latch holds the high word, whatever the register does
meanwhile; reading the high word empties it; other registers' latches stay (R9). A word of a block whose power domain is
off reads as zero, a read of it changes nothing, and a write to it has no effect (R440): so for every register of a
forge, an Anvil to a Tongs. -/
def Obligations.RegisterAccessesComplete : Prop :=
  ((∀ (a : BitVec 48) (v : BitVec 32) (r : RegWord) (g : Nat → State → State) (s : State), s.domOn 97 = true →
      s.regAt a.toNat = some r → r.write = some g → exec (.registerWrite a v) s = .next (g v.toNat s).settle) ∧
    (∀ (a : BitVec 48) (v : BitVec 32) (x i : Nat) (clear : State → State) (s : State), s.domOn 97 = true →
      s.regAt a.toNat = some (w1c x i clear) →
      exec (.w1cWrite a v) s = .next (if bit v.toNat i then (clear s).settle else s.settle)) ∧
    (∀ (a : BitVec 48) (x : Nat) (clear : State → State) (s : State), s.domOn 97 = true →
      s.regAt a.toNat = some (roc x clear) →
      exec (.rocRead a) s = .next ((clear s).send (.read a.toNat x))) ∧
    (∀ (a : BitVec 48) (x : Nat) (clear : State → State) (s : State), s.domOn 97 = true →
      s.regAt a.toNat = some (lowWord a.toNat x clear) →
      exec (.lowWordRead a) s = .next (((clear s).latch a.toNat (x / 2 ^ 32)).send (.read a.toNat (x % 2 ^ 32)))) ∧
    (∀ (a : BitVec 48) (low x : Nat) (s : State), s.domOn 97 = true → s.regAt a.toNat = some (highWord s low x) →
      exec (.highWordRead a) s =
        .next ((s.unlatch low).send (.read a.toNat ((s.latched low).getD (x / 2 ^ 32)))))) ∧
  (∀ (a b v : Nat) (s : State),
      (s.latch a v).latched a = some v ∧ ((s.latch a v).unlatch a).latched a = none ∧
      (a ≠ b → (s.latch a v).latched b = s.latched b ∧ (s.unlatch a).latched b = s.latched b)) ∧
  (∀ (s : State) (block : Nat) (f : ForgeId) (a off : Nat) (r : RegWord), s.forgeOn f = false →
      perForge s block f a off = some r →
      r.value = 0 ∧ r.read s = s ∧ ∀ g, r.write = some g → ∀ w t, g w t = t)

/-! ### The near tier -/

/-- CHANNEL_MAPOUT at once moves the withdrawn block's frames, records the map-out and takes the channel out, unless a
chain of the new place would take more than eight steps; at boot it records it for the next boot (R244, R245, Table
TIER-8). STACK_REPAIR_QUERY replies with the spares left and the worst locations; STACK_REPAIR_APPLY of a channel with a
spare left holds the channel, no other of its stack retraining, and once its copy is done records the repair, uses the spare,
leaves the channel to retrain at its next access, and replies OK (R242, R252, R253; the two runs of the command are the model's
choice, log 63). -/
def Obligations.StackMaintenanceCompletes : Prop :=
  ((∀ (k : Cmd) (bad : List (FnId × BitVec 48)) (c : ChanId) (s t : State), Ready .channelMapout k s →
      plain k [(0, 3)] = true → u k.p 0 2 = c.val → u k.p 2 1 = 0 →
      (s.entered .channelMapout k).mapoutRefusal c.val false = none → (s.entered .channelMapout k).anyRunning = false →
      (s.entered .channelMapout k).mapoutNow c bad = some t →
      exec (.channelMapout k bad) s =
        .next (if (s.entered .channelMapout k).longChain (s.entered .channelMapout k).mapped c then (s.entered .channelMapout k).finish .channelMapout k .noSpace
          else t.finish .channelMapout k (if bad.isEmpty then .ok else .integrity)).settle) ∧
    (∀ (k : Cmd) (c : ChanId) (s t : State), Ready .channelMapout k s → plain k [(0, 3)] = true → u k.p 0 2 = c.val →
      u k.p 2 1 = 1 → (s.entered .channelMapout k).mapoutRefusal c.val true = none →
      (s.entered .channelMapout k).recordMapout c true = some t →
      exec (.channelMapoutAtBoot k) s = .next (t.finish .channelMapout k .ok).settle)) ∧
  ((∀ (k : Cmd) (first : List (Nat × Nat × Nat)) (c : ChanId) (s : State), Ready .stackRepairQuery k s → plain k [(0, 2)] = true → u k.p 0 2 = c.val →
      exec (.stackRepairQuery k first) s =
        .next ((s.entered .stackRepairQuery k).finish .stackRepairQuery k .ok
          ((s.near.chans[c]).fewestRows + 256 * (s.near.chans[c]).spareCols)
          (((s.near.chans[c]).worst first (min 256 (k.outCap.toNat / 8))).map worstBytes).flatten).settle) ∧
    (∀ (k : Cmd) (c : ChanId) (b : Fin 16) (s : State), Ready .stackRepairApply k s → plain k [(0, 8)] = true →
      u k.p 0 2 = c.val → (u k.p 2 1 = 1 ∨ u k.p 2 1 = 2) → u k.p 3 1 = b.val → s.bell.low = false →
      ((s.near.chans[c]).holder ≠ some k → (s.near.chans[c]).state ≠ .mappedOut →
        (u k.p 2 1 = 1 → (s.near.chans[c]).spareRows[b] ≠ 0) → (u k.p 2 1 = 2 → (s.near.chans[c]).spareCols ≠ 0) →
        (∀ d, chanStack d = chanStack c → (s.near.chans[d]).state.busy = false) →
        exec (.stackRepairApply k) s =
          .next ((s.entered .stackRepairApply k).modChan c fun y => { y with state := .repair, holder := some k }).settle) ∧
      ((s.near.chans[c]).holder = some k →
        let key := 1 + (s.ledger.log.filter fun r => r.type == 0x0031).foldl (fun m r => max m r.key) 0
        let t := ({ s.entered .stackRepairApply k with
          ledger := s.ledger.write 0x0031 key (toLe 2 c.val ++ toLe 1 (u k.p 2 1) ++ toLe 1 b.val ++ toLe 4 (u k.p 4 4)) } : State)
        exec (.stackRepairApply k) s =
          .next (((t.channelFree c fun y => { y.spend (u k.p 2 1) b.val with
            repaired := true
            located := y.located.filter fun l => !(l.1 == b.val && l.2.1 == u k.p 2 1 && l.2.2.1 == u k.p 4 4) }).finish
              .stackRepairApply k .ok).pumpAll.settle).settle)))

/-- A scrub of a channel that works visits a line of a page, of a heat area, or of neither: what the symbol code corrected in
its beats is counted, a lost line of a page goes the way of Table TIER-5, one of a heat area gives the function fault; a row
refresh changes nothing that software sees (R237, R239, R240, R241, R311). A lost PHY lock and 256 corrections in a refresh window retrain the channel; the
end of a retrain counts it and its time, and what waited goes on; a retrain that lasts too long anneals the channel
(R242, R243, Table TIME-6). A channel of a stack retrains at once where no other channel of the stack retrains or is held for
repair, else it waits for its turn; one that retrains or is held itself retrains once more afterwards; one that waits or is
mapped out is left alone (R242). -/
def Obligations.ScrubRefreshAndRetrainsComplete : Prop :=
  ((∀ (c : ChanId) (fn : FnId) (a : Nat) (errs : List (Fin 8 × BitVec 320)) (s : State), s.stackOn c = true →
      (s.near.chans[c]).state = .active →
      (∀ what place, exec (.nearScrub c what place []) s = .next s) ∧
      (∀ g b d, s.resolve fn a = (g, b) → s.t1Addr g b = some d →
        let t := errs.foldl (fun s e => s.countBeat (some g) c (d / 256) e.1.val e.2) s
        ((∀ e ∈ errs, beatLost e.2 = false) → exec (.nearScrub c (.page fn) a errs) s = .next t) ∧
        ((∃ e ∈ errs, beatLost e.2 = true) →
          exec (.nearScrub c (.page fn) a errs) s = .next ((t.loseT1 g b).1.pumpAll).settle)) ∧
      (∀ unit,
        let t := errs.foldl (fun s e => s.countBeat (some fn) c unit e.1.val e.2) s
        ((∀ e ∈ errs, beatLost e.2 = false) → exec (.nearScrub c (.heat fn) unit errs) s = .next t) ∧
        ((∃ e ∈ errs, beatLost e.2 = true) →
          exec (.nearScrub c (.heat fn) unit errs) s = .next ((t.functionFault fn).pumpAll).settle)) ∧
      (∀ unit,
        let t := errs.foldl (fun s e => s.countBeat none c unit e.1.val e.2) s
        ((∀ e ∈ errs, beatLost e.2 = false) → exec (.nearScrub c .other unit errs) s = .next t) ∧
        ((∃ e ∈ errs, beatLost e.2 = true) → exec (.nearScrub c .other unit errs) s = .next (t.loseCopy unit)))) ∧
    ∀ (c : ChanId) (bank row : Nat) (s : State), exec (.rowRefresh c bank row) s = .next s) ∧
  ((∀ (c : ChanId) (s : State), s.stackOn c = true → exec (.t1PhyLockLoss c) s = .next (s.retrain c)) ∧
    (∀ (c : ChanId) (s : State), s.stackOn c = true →
      exec (.t1CorrectionCount c) s = .next ((s.modChan c fun x => { x with ce2 := satAdd 32 x.ce2 257 }).retrain c)) ∧
    (∀ (c : ChanId) (n : BitVec 32) (s : State), (s.near.chans[c]).state = .retraining → s.annealing (.channel c) = false →
      exec (.t1RetrainComplete c n) s =
        .next (((((s.modChan c fun x => { x with
          retrains := satAdd 16 x.retrains 1, retrainTicks := satAdd 32 x.retrainTicks n.toNat }).trained c).log 0x0201 none c.val
            (toLe 4 n.toNat)).pumpAll).settle)) ∧
    (∀ (c : ChanId) (s : State), (s.near.chans[c]).state = .retraining →
      exec (.t1ChannelRetrainTimeout c) s = .next ((s.anneal (.channel c) 0x0104).settle))) ∧
  (∀ (c : ChanId) (s : State),
      ((s.near.chans[c]).state = .active → (s.near.stks[chanStack c]).waiting.contains c = false →
        (∀ d, chanStack d = chanStack c → (s.near.chans[d]).state.busy = false) →
        s.retrain c = s.modChan c fun x => { x with state := .retraining, repaired := false }) ∧
      ((s.near.chans[c]).state = .active → (s.near.stks[chanStack c]).waiting.contains c = false →
        (∃ d, chanStack d = chanStack c ∧ (s.near.chans[d]).state.busy = true) →
        s.retrain c = s.modStack (chanStack c) fun x => { x with waiting := x.waiting ++ [c] }) ∧
      ((s.near.chans[c]).state.busy = true → s.retrain c = s.modChan c fun x => { x with again := true }) ∧
      ((s.near.chans[c]).state ≠ .active → (s.near.chans[c]).state.busy = false → s.retrain c = s))

/-- The anneal of a unit completes and what waited for it goes on; one that outlasts its bound fails and the next larger unit
is annealed (R45, R305, Table TIME-7). -/
def Obligations.AnnealsEndOrEscalate : Prop :=
  (∀ (x : AnnealUnit) (r : AnnealRun) (s : State), s.anneals.find? (·.unit == x) = some r →
    exec (.annealComplete x) s = .next ((s.annealDone r).pumpAll).settle) ∧
  (∀ (x : AnnealUnit) (r : AnnealRun) (s : State), s.anneals.find? (·.unit == x) = some r →
    exec (.annealBoundExpiry x) s = .next (s.escalate r).settle)

/-! ### Grizlink -/

/-- LINK_BRINGUP takes the named ports through bring-up, records the chip identifier where asked, assigns the logical numbers
and replies with the ports by state; LINK_STATUS replies with a port's registers, LANE_DIAG with its lanes (R352, R358, R359,
R372, R373). -/
def Obligations.LinkCommandsComplete : Prop :=
  (∀ (k : Cmd) (partners : List (PortId × Partner)) (s : State), Ready .linkBringup k s →
    plain k [(0, 4), (16, 16)] = true → u k.p 1 1 < 2 → (s.entered .linkBringup k).bringupRefusal k = none →
    let t := if u k.p 1 1 = 1 then ((s.entered .linkBringup k).ledgerWrite 0x0020 0 (slice k.p 2 2)).getD (s.entered .linkBringup k)
      else s.entered .linkBringup k
    let up := (namedPorts k).foldl (fun s p => s.bringUp p (((partners.find? (·.1 == p)).map (·.2)).getD .absent)) t
    exec (.linkBringup k partners) s =
      .next (((up.assignPorts k (namedPorts k)).bringupReply k (namedPorts k)).pumpAll).settle) ∧
  (∀ (k : Cmd) (p : PortId) (s : State), Ready .linkStatus k s → plain k [(0, 1)] = true → u k.p 0 1 < 8 →
    64 ≤ k.outCap.toNat → (s.entered .linkStatus k).physPort (u k.p 0 1) = some p →
    exec (.linkStatus k) s =
      .next ((s.entered .linkStatus k).finish .linkStatus k .ok 0 ((s.entered .linkStatus k).linkImage p)).settle) ∧
  (∀ (k : Cmd) (results : List (BitVec 64)) (p : PortId) (s : State), Ready .laneDiag k s → plain k [(0, 1)] = true →
    u k.p 0 1 < 8 → 128 ≤ k.outCap.toNat → (s.entered .laneDiag k).physPort (u k.p 0 1) = some p →
    exec (.laneDiag k results) s =
      .next ((s.entered .laneDiag k).finish .laneDiag k .ok 0
        (laneRows (s.entered .laneDiag k).ports[p] results)).settle)

/-- COHORT_FORM puts a policy that passes the checks of R360 in force and replies with its number of entries, else with
the status of the first check that fails; COHORT_LEAVE of a function with no step running scraps its prepared heats,
closes its windows and discards its policy (R360, R361). WINDOW_OPEN opens the lowest free window of the forge and
replies with its handle; WINDOW_CLOSE closes a window of the function and waits for the requests admitted before; an
expired window closes (R94, R96, Table TIME-7). -/
def Obligations.CohortAndWindowCommandsComplete : Prop :=
  ((∀ (k : Cmd) (t : State) (s : State), Ready .cohortForm k s → zeroOutside k.p 32 [] = true →
      (s.entered .cohortForm k).policyFrames k = some t →
      exec (.cohortForm k) s =
        .next (match (s.entered .cohortForm k).policyCheck k with
          | some st => (s.entered .cohortForm k).finish .cohortForm k st
          | none => (t.formCohort k).finish .cohortForm k .ok (u k.payload 8 4)).settle) ∧
    (∀ (k : Cmd) (r : RingId) (s : State), Ready .cohortLeave k s → k.ring = some r → plain k [] = true →
      (s.fns[k.fn]).active = false →
      exec (.cohortLeave k) s =
        .next ((((((s.entered .cohortLeave k).scrapPrepared k.fn).closeWindows k.fn).freeT1 (.policy k.fn)).modFn k.fn fun f =>
          { f with cohort := none, decisions := [] }).finish .cohortLeave k .ok).settle) ∧
    (∀ (k : Cmd) (fn : FnId) (s : State), Ready .cohortLeave k s → k.ring = none → plain k [(0, 1)] = true →
      u k.p 0 1 = fn.val → (s.fns[fn]).active = false →
      exec (.cohortLeave k) s =
        .next ((((((s.entered .cohortLeave k).scrapPrepared fn).closeWindows fn).freeT1 (.policy fn)).modFn fn fun f =>
          { f with cohort := none, decisions := [] }).finish .cohortLeave k .ok).settle)) ∧
  ((∀ (k : Cmd) (m : Mould) (mf : MForge) (i : Fin 16) (s : State), Ready .windowOpen k s →
      plain k [(0, 11), (12, 6), (20, 12)] = true → 1 ≤ u k.p 10 1 → u k.p 10 1 ≤ 3 → 1 ≤ u k.p 0x10 2 → 1 ≤ u k.p 0x14 4 →
      (s.entered .windowOpen k).windowPlace k = .ok (m, mf) → ((s.entered .windowOpen k).forges[mf.phys]).freeWindow = some i →
      exec (.windowOpen k) s =
        .next (((s.entered .windowOpen k).modForge mf.phys fun x =>
          { x with windows := x.windows ++ [newWindow k m i] }).finish .windowOpen k .ok (16 * mf.phys.val + i.val)).settle) ∧
    (∀ (k : Cmd) (f : ForgeId) (w : Window) (s : State), Ready .windowClose k s → plain k [(0, 2)] = true →
      (s.entered .windowClose k).deferred.any (·.closesFor k) = false →
      (s.entered .windowClose k).windowOf (u k.p 0 2) = some (f, w) → w.fn = k.fn →
      exec (.windowClose k) s =
        .next ({ (s.entered .windowClose k).closeWindow f w with
          deferred := (s.entered .windowClose k).deferred ++ [.closeWindow k f (u k.p 0 2)] } : State).settle) ∧
    (∀ (handle : BitVec 16) (f : ForgeId) (w : Window) (s : State), s.windowOf handle.toNat = some (f, w) →
      exec (.windowExpiry handle) s = .next (s.closeWindow f w)))

/-- A frame on a port that carries flits adds its corrected symbols to GRIZ_FEC_CORR and its flits beyond correction to
GRIZ_FEC_UNCORR; flits that come again are dropped, and a gap before the frame asks for what is missing; the flits before the
first one beyond correction are accepted and the rest asked for again; a frame whose tag fails, as one of which a flit
decodes wrongly does, counts in GRIZ_TAG_FAILS and fences the port on the same frame's second failure (case 3) and the third
failure within ten million ticks (case 4); a good one is taken, its ACK frees the retry buffer and its RETRY counts a resend
(R348, R349, R350, R357). -/
def Obligations.FrameCompletes : Prop :=
  ∀ (p : PortId) (seq ack : BitVec 12) (retry tagOk : Bool) (data : List (Fin 8 × Fin 256 × BitVec 8))
      (check : List (Fin 8 × Fin 24 × BitVec 8)) (s : State), s.carries p = true →
    let errs := wireErrs data check
    let t := s.modPort p fun q => { q with
      fecCorr := satAdd 32 q.fecCorr (fecCorrected errs), fecUncorr := satAdd 32 q.fecUncorr (fecDiscards errs).length }
    let done := ((s.ports[p]).rxSeq + 4097 - seq.toNat) % 4096
    let t' := t.modPort p fun q => { q with rxSeq := (seq.toNat + 4095) % 4096 }
    (8 ≤ done → exec (.frame p seq ack retry tagOk data check) s =
      .next (if seqGap seq.toNat (((s.ports[p]).rxSeq + 1) % 4096) then t.modPort p fun q => { q with again := true } else t).settle) ∧
    (done < 8 → exec (.frame p seq ack retry tagOk data check) s =
      .next (match (fecDiscards errs).find? (done ≤ ·) with
        | some i => t.modPort p fun q => { q with rxSeq := (seq.toNat + i + 4095) % 4096, again := true }
        | none =>
          if tagOk && !fecWrong errs done then
            t.modPort p fun q =>
              let q := ({ q with
                rxSeq := (seq.toNat + 7) % 4096, frameRx := q.frameRx + 1, failedFrame := none, again := false } : Port).acked ack.toNat
              if retry then { q with retries := inc32 q.retries } else q
          else t'.frameFails p).settle) ∧
    ((s.ports[p]).failedFrame = some (s.ports[p]).frameRx → ((t'.frameFails p).ports[p]).state = .fenced)

/-- A lane of a port that is UP retrains when it loses lock, the port carries nothing meanwhile, and goes on when the
retrain completes; a retrain that lasts too long anneals the lane; an unacknowledged flit is resent and the eighth expiry
in succession anneals the port; a starved send anneals the port; keys are exchanged in four messages: A's encapsulation key, B's ciphertext, A's proof and B's,
each proof made with the secret that the port resumes by, after the last of which both sides switch keys; side A is the side
with the smaller key digest, and a side takes only the other's messages; one of the wrong length or a proof that does not verify
fences the port (R350, R354, R356, R357, Table TIME-6; over what a proof is made is the
model's choice, log 175). -/
def Obligations.LinkTimersAndKeysComplete : Prop :=
  (∀ (p : PortId) (l : Fin 16) (code : BitVec 4) (s : State), (s.ports[p]).state = .up →
    (s.ports[p]).lanes.getLsbD l.val = true → (s.ports[p]).retraining.getLsbD l.val = false →
    exec (.laneRetrainTrigger p l code) s =
      .next ((s.modPort p fun q => { q with retraining := q.retraining ||| (1#16 <<< l.val) }).log 0x0601 none p.val
        [BitVec.ofNat 8 l.val, code.zeroExtend 8]) ∧
    (s.modPort p fun q => { q with retraining := q.retraining ||| (1#16 <<< l.val) }).carries p = false) ∧
  (∀ (p : PortId) (l : Fin 16) (s : State), (s.ports[p]).state = .up → s.annealing (.lane p l) = false →
    exec (.laneRetrainComplete p l) s =
      .next ((s.modPort p fun q => { q with retraining := q.retraining &&& ~~~(1#16 <<< l.val) }).pumpAll).settle) ∧
  (∀ (p : PortId) (l : Fin 16) (s : State), (s.ports[p]).state = .up → (s.ports[p]).retraining.getLsbD l.val = true →
    exec (.laneRetrainTimeout p l) s = .next (s.anneal (.lane p l) 0x0105).settle) ∧
  (∀ (p : PortId) (s : State), s.carries p = true → (s.ports[p]).unacked ≠ 0 →
    let t := s.modPort p fun q => { q with retries := inc32 q.retries, expiries := q.expiries + 1 }
    exec (.acknowledgementTimeout p) s =
      .next (if (s.ports[p]).expiries + 1 < 8 then t
        else ((t.modPort p fun q => { q with expiries := 0 }).anneal (.port p) 0x0106).settle)) ∧
  (∀ (p : PortId) (s : State), s.starves p = true →
    exec (.creditStarvationTimeout p) s = .next (s.anneal (.port p) 0x0107).settle) ∧
  (∀ (p : PortId) (s : State), (s.ports[p]).state = .up → (s.ports[p]).rekey = 0 →
    let d := s.draw
    exec (.linkRekey p) s =
      .next (if s.sideA p then
        (d.2.modPort p fun q => { q with kexDk := (Config.kemKeyGen d.1).2, kexLog := [] }).sendKey p 0 (Config.kemKeyGen d.1).1
      else s)) ∧
  ∀ (p : PortId) (m : Fin 4) (body : List Byte) (s : State), s.carries p = true → (s.ports[p]).rekey = m.val →
    (m.val = 0 → body.length = 1184 →
      let d := (s.modPort p fun q => { q with kexLog := body }).draw
      exec (.key p m body) s =
        .next (if s.sideA p then s
          else (d.2.modPort p fun q => { q with kexSecret := (Config.kemEncap d.1 body).2 }).sendKey p 1
            (Config.kemEncap d.1 body).1).settle) ∧
    (m.val = 1 → body.length = 1088 →
      let t := s.modPort p fun q => { q with kexLog := q.kexLog ++ body, kexSecret := Config.kemDecap q.kexDk body }
      exec (.key p m body) s = .next (if s.sideA p then t.sendKey p 2 (t.ports[p]).proof else s).settle) ∧
    (m.val = 2 → body = (s.ports[p]).proof →
      let t := s.modPort p fun q => { q with kexLog := q.kexLog ++ body }
      exec (.key p m body) s =
        .next (if s.sideA p then s
          else (t.sendKey p 3 (t.ports[p]).proof).modPort p fun q => q.rekeyed false q.kexSecret q.kexLog).settle) ∧
    (m.val = 3 → body = (s.ports[p]).proof →
      let t := s.modPort p fun q => { q with kexLog := q.kexLog ++ body }
      exec (.key p m body) s =
        .next (if s.sideA p then t.modPort p fun q => q.rekeyed true q.kexSecret q.kexLog else s).settle) ∧
    (∀ kase, (s.ports[p]).keyFault m.val body = some kase →
      exec (.key p m body) s = .next (if s.sideA p = (m.val % 2 == 0) then s else s.fence p kase).settle)

/-- Records of installed moulds take their effect and the moulds go on: a DATA record that its credited receive entry
takes enters the receive log, held where it says so, an ANSWER ends the wait of the diverted read that asked; a CREDIT is
kept; a REQUEST is answered with the bytes of its slot; RELEASE and DISCARD free or drop what the sender's heat held
back; the matching DIGEST of a peer is noted, and a set of mould digests that is not the mould's own ends the step with
INTEGRITY (R72, R307, R364, R365, R366). -/
def Obligations.DataRecordsComplete : Prop :=
  (∀ (p : PortId) (m : Msg) (fn : FnId) (x : Mould) (e : XferEntry) (i : Nat) (s : State), FromPeer p m fn x s →
    x.recvFor m = some (e, i) →
    (m.flags.getLsbD 0 = false → m.flags.getLsbD 2 = false → s.dataFits fn x i e m = true →
      exec (.data p m) s = .next ((s.accept fn x i m (if m.flags.getLsbD 1 then some m.sub.toNat else none)).goOn fn)) ∧
    (∀ r, m.flags.getLsbD 0 = false → m.flags.getLsbD 2 = true → x.run = some r → r.index = m.step.toNat →
      r.requested.contains i = true → (s.fns[fn]).logged x.id i m.step.toNat = false →
      exec (.data p m) s = .next ((if m.body.isEmpty then s.endStep fn x.id .timeout
        else if m.body.length = e.length then s.accept fn x i m none else s.mismatch fn p m).goOn fn))) ∧
  (∀ (p : PortId) (m : Msg) (fn : FnId) (x : Mould) (s : State), FromPeer p m fn x s →
    (m.dst.toNat = x.selfPos → exec (.credit p m) s =
      .next ((s.modFn fn fun f =>
        { f with creditsIn := if f.creditsIn.contains (m.digest, m.step.toNat, m.src.toNat, m.seq.toNat) then f.creditsIn
            else f.creditsIn ++ [(m.digest, m.step.toNat, m.src.toNat, m.seq.toNat)] }).goOn fn)) ∧
    (∀ e, x.sendFor m = some e →
      let q := s.requested fn x e m.step.toNat
      exec (.request p m) s =
        .next ((q.1.sendTo fn x m.src.toNat 1 0 m.step.toNat m.seq.toNat 4 e.format q.2).goOn fn)) ∧
    exec (.release p m) s =
      .next ((s.modFn fn fun f => { f with recvLog := f.recvLog.map fun l => if x.holds m l then { l with held := none } else l }).goOn fn) ∧
    exec (.discard p m) s =
      .next ((s.modFn fn fun f => { f with recvLog := f.recvLog.filter fun l => !x.holds m l }).goOn fn) ∧
    (m.body.length = 64 → m.body.drop 32 = digestBytes x.cohortDigest →
      let y := x.checkPeer m.src.toNat (toDigest (m.body.take 32))
      let t := (s.modMould fn x.id fun _ => y).modFn fn fun f =>
        { f with earlyDigests := f.earlyDigests.filter (·.1 != (s.ports[p]).partnerChip.toNat) }
      exec (.digest p m) s = .next ((if y.wrongSet then t.endStep fn x.id .integrity else t).goOn fn)))

/-- A window request that its window admits is performed at once or waits for its rows, another is refused and logged; the
answer of a request of the running step ends the step where it is a refusal, else its rows go to the receive entry of the
same peer and SEQUENCE (R95, R367). -/
def Obligations.WindowRecordsComplete : Prop :=
  (∀ (p : PortId) (m : Msg) (fn : FnId) (s : State), s.carries p = true → s.msgFn p m = some fn →
    (∀ f w, s.windowOf (u m.body 8 2) = some (f, w) → windowAdmits (s.ports[p]) fn w m = true →
      exec (.windowReq p m) s =
        .next (((s.windowTry f { port := p, win := w, msg := m }).getD
          (s.modForge f fun y => { y with winWait := y.winWait ++ [{ port := p, win := w, msg := m }] })).goOn fn)) ∧
    (∀ f w, s.windowOf (u m.body 8 2) = some (f, w) → windowAdmits (s.ports[p]) fn w m = false →
      exec (.windowReq p m) s = .next ((s.refuseRequest p m).goOn fn)) ∧
    (s.windowOf (u m.body 8 2) = none → exec (.windowReq p m) s = .next ((s.refuseRequest p m).goOn fn))) ∧
  (∀ (p : PortId) (m : Msg) (fn : FnId) (x : Mould) (r : Running) (i : Nat) (s : State), FromPeer p m fn x s →
    x.run = some r → r.index = m.step.toNat →
    x.sends.findIdx? (fun e => e.peer == m.src.toNat && e.sequence == m.seq.toNat) = some i → r.sent.contains i = true →
    (m.sub = 1 → exec (.windowResp p m) s = .next ((s.endStep fn x.id .notPermitted).goOn fn)) ∧
    (m.sub = 2 → exec (.windowResp p m) s = .next ((s.endStep fn x.id .slotTimeout).goOn fn)) ∧
    (∀ j, m.sub = 0 → x.recvs.findIdx? (fun e => e.peer == m.src.toNat && e.sequence == m.seq.toNat) = some j →
      m.body ≠ [] → (s.fns[fn]).logged x.id j m.step.toNat = false →
      exec (.windowResp p m) s = .next ((s.accept fn x j m none).goOn fn)))

/-- The records of a distributed commit: the coordinator keeps a vote PREPARED of the step in turn and decides once all are
there, a vote SCRAP decides for SCRAP; a participant takes the coordinator's decision and acknowledges it, where COMMIT finds its
heat PREPARED; the coordinator journals an acknowledgement, releases its decision after the last one and answers a QUERY; a
prepared participant with a path asks; a record that matches nothing is discarded, counted and logged (R300 to R303, Table
HEAT-6). -/
def Obligations.CommitRecordsComplete : Prop :=
  (∀ (p : PortId) (m : Msg) (fn : FnId) (x : Mould) (b : Nat) (s : State), HeatRecord p m fn x b s →
    x.coordinator = x.selfPos →
    (m.step.toNat = x.nextStep →
      ((s.fns[fn]).decisions.any fun d => d.mould == x.id && d.bound == b && d.step == m.step.toNat && d.commit) = false →
      let v : Vote := { mould := x.id, bound := b, step := m.step.toNat, pos := m.src.toNat }
      let t := s.modFn fn fun f => { f with votes := if f.votes.contains v then f.votes else f.votes ++ [v] }
      exec (.votePrepared p m) s =
        .next ((match (t.fns[fn]).stepHeat x.id b m.step.toNat with
          | some h => t.tryDecide fn h.1
          | none => t).goOn fn)) ∧
    (∀ h, (s.fns[fn]).stepHeat x.id b m.step.toNat = some h →
      exec (.voteScrap p m) s = .next ((s.decide fn h.1 x b m.step.toNat false).goOn fn)) ∧
    (∀ d, ((s.fns[fn]).decisions.find? fun d => d.mould == x.id && d.bound == b && d.step == m.step.toNat) = some d →
      exec (.query p m) s =
        .next ((s.sendHeat fn x m.src.toNat (if d.commit then 3 else 4) b m.step.toNat).goOn fn))) ∧
  (∀ (p : PortId) (m : Msg) (fn : FnId) (x : Mould) (b : Nat) (h : Fin 32 × Heat) (s : State), HeatRecord p m fn x b s →
    m.src.toNat = x.coordinator → (s.fns[fn]).stepHeat x.id b m.step.toNat = some h →
    (h.2.state = HeatState.prepared → exec (.decisionCommit p m) s =
      .next (((s.commitStepHeat fn h.1).sendHeat fn x x.coordinator 5 b m.step.toNat).goOn fn)) ∧
    (h.2.state ≠ HeatState.prepared → exec (.decisionCommit p m) s = .next ((s.badHeat fn p).goOn fn)) ∧
    exec (.decisionScrap p m) s =
      .next ((((s.scrapStepHeat fn h.1 .annealed).annealStep fn x.id 6).sendHeat fn x x.coordinator 5 b m.step.toNat).goOn fn)) ∧
  (∀ (p : PortId) (m : Msg) (fn : FnId) (x : Mould) (b : Nat) (s : State), HeatRecord p m fn x b s →
    let is := fun (d : Decision) => d.mould == x.id && d.bound == b && d.step == m.step.toNat
    (∀ d, ((s.fns[fn]).decisions.find? fun d => is d && d.waiting.contains m.src.toNat) = some d →
      exec (.ack p m) s =
        .next ((s.modFn fn fun f => { f with
          journal := f.journal ++ [{ kind := 0x0C, slot := d.slot, index := (f.records d.slot d.heat).length, heat := d.heat
                                     payload := fit 12 (toLe 2 (s.ports[p]).partnerChip.toNat) }]
          decisions := (f.decisions.map fun d => if is d then { d with waiting := d.waiting.filter (· != m.src.toNat) }
            else d).filter fun d => !d.waiting.isEmpty }).goOn fn)) ∧
    (((s.fns[fn]).decisions.find? fun d => is d && d.waiting.contains m.src.toNat) = none →
      exec (.ack p m) s = .next ((s.badHeat fn p).goOn fn))) ∧
  ∀ (fn : FnId) (slot : Fin 32) (h : Heat) (id : BitVec 64) (b : Nat) (m : Mould) (p : PortId) (s : State),
    (s.fns[fn]).heat slot = some h → h.origin = .step id b → (s.fns[fn]).mould? id = some m →
    h.state = .prepared → s.portOf m m.coordinator = some p → (s.ports[p]).state = .up →
    exec (.inDoubtQueryInterval fn slot) s = .next (s.sendHeat fn m m.coordinator 6 b h.stepIndex)

/-! ### Moulds and runs -/

/-- LOAD_MOULD installs a container that passes every check of Table MOLD-13, once the window requests admitted to the mould
that it replaces have completed, else replies with the first failed check; a
run command joins its mould's queue; HALT_RUN halts the run and waits for its step; QUERY_RUN replies with the record of
Table CMND-13 (R74, R75, R96, R336, R337, R338). -/
def Obligations.RunCommandsComplete : Prop :=
  (∀ (k : Cmd) (s : State), Ready .loadMould k s → zeroOutside k.p 32 [] = true →
    exec (.loadMould k) s =
      .next (match (s.entered .loadMould k).mouldCheck k with
        | some (st, detail) => (s.entered .loadMould k).finish .loadMould k st detail
        | none =>
          let t := (s.entered .loadMould k).closeMould k.fn (hId k.payload)
          if t.windowPending k.fn (hId k.payload) then t else (t.install k.fn k.payload).finish .loadMould k .ok).settle) ∧
  (∀ (op : Op) (k : Cmd) (c : Instr) (m : Mould) (s : State), op = .runStep ∧ c = .runStep k ∨ op = .runSteps ∧ c = .runSteps k →
    Ready op k s → runParamsOk op k = true → runSteps op k * u k.p 0x18 4 ≤ k.outCap.toNat →
    ((s.fns[k.fn]).moulds.any fun m => m.queue.any fun c => c.cmd == k) = false →
    (s.fns[k.fn]).mould? (runMould k) = some m → (s.entered op k).loading op k = false →
    runFits (s.entered op k) op k m = true → m.queue.length < 16 →
    exec c s =
      .next ((s.entered op k).modMould k.fn (runMould k) fun m =>
        { m with queue := m.queue ++ [{ cmd := k, op, next := u k.p 8 4, left := runSteps op k }] }).settle) ∧
  (∀ (k : Cmd) (r : RingId) (s : State), Ready .haltRun k s → k.ring = some r → plain k [(0, 8)] = true →
    ((s.fns[k.fn]).mould? (runMould k)).isSome = true → s.deferred.contains (.halt k k.fn (runMould k)) = false →
    exec (.haltRun k) s =
      .next ({ (s.entered .haltRun k).halt k.fn (runMould k) with
        deferred := ((s.entered .haltRun k).halt k.fn (runMould k)).deferred ++ [.halt k k.fn (runMould k)] } : State).settle) ∧
  (∀ (k : Cmd) (fn : FnId) (s : State), Ready .haltRun k s → k.ring = none → plain k [(0, 9)] = true → u k.p 8 1 = fn.val →
    ((s.fns[fn]).mould? (runMould k)).isSome = true → s.deferred.contains (.halt k fn (runMould k)) = false →
    exec (.haltRun k) s =
      .next ({ (s.entered .haltRun k).halt fn (runMould k) with
        deferred := ((s.entered .haltRun k).halt fn (runMould k)).deferred ++ [.halt k fn (runMould k)] } : State).settle) ∧
  (∀ (k : Cmd) (m : Mould) (s : State), Ready .queryRun k s → plain k [(0, 8)] = true → 512 ≤ k.outCap.toNat →
    (s.fns[k.fn]).mould? (runMould k) = some m → (s.entered .queryRun k).loading .queryRun k = false →
    exec (.queryRun k) s = .next ((s.entered .queryRun k).finish .queryRun k .ok 0 (queryBytes m)).settle)

/-- RUN_STEP and RUN_STEPS name an installed mould: one that names a mould that is not installed, or one still being
installed, is refused with NOT_PERMITTED, and has no other effect than that reply (R14). -/
def Obligations.RunCommandNeedsInstalledMould : Prop :=
  ∀ (op : Op) (k : Cmd) (c : Instr) (s : State), op = .runStep ∧ c = .runStep k ∨ op = .runSteps ∧ c = .runSteps k →
    Ready op k s → runParamsOk op k = true → runSteps op k * u k.p 0x18 4 ≤ k.outCap.toNat →
    ((s.fns[k.fn]).moulds.any fun m => m.queue.any fun c => c.cmd == k) = false →
    ((s.fns[k.fn]).mould? (runMould k) = none ∨ (s.entered op k).loading op k = true) →
    exec c s = .next ((s.entered op k).finish op k .notPermitted).settle

/-- The gate of a queued step in turn opens, or ends the step under the checks of a cohort; a step that an anneal stopped
runs again from its gate; a step that meets its deadline ends with TIMEOUT and its tenant is annealed (R40, R50, R51,
R308, R362). -/
def Obligations.StepGateCompletes : Prop :=
  (∀ (fn : FnId) (id : BitVec 64) (m : Mould) (c : RunCmd) (q : List RunCmd) (s : State), (s.fns[fn]).mould? id = some m →
    m.queue = c :: q → m.run = none → s.hall.fwRunning = true →
    (c.next ≠ m.nextStep → exec (.stepGateOpen fn id) s = .next (s.endRunCmd fn id .badParam).settle) ∧
    (c.next = m.nextStep → s.gateWaits fn m = false → s.cohortCheck fn m = none → s.portsDown m = false →
      exec (.stepGateOpen fn id) s = .next (s.openGate fn m c 0).settle) ∧
    (∀ st, c.next = m.nextStep → s.gateWaits fn m = false → s.cohortCheck fn m = some st →
      exec (.stepGateOpen fn id) s =
        .next ((s.modMould fn id fun m => { m with lastStatus := st.code }).endRunCmd fn id st).settle)) ∧
  (∀ (fn : FnId) (id : BitVec 64) (m : Mould) (r : Running) (c : RunCmd) (q : List RunCmd) (s : State),
    (s.fns[fn]).mould? id = some m → m.run = some r → m.queue = c :: q → r.rerun = true → s.hall.fwRunning = true →
    (s.modMould fn id fun m => { m with run := none }).gateWaits fn m = false → s.portsDown m = false →
    r.dropWanted = none → r.dropGoal ≤ (s.fns[fn]).freeKv →
    exec (.stepRerun fn id) s =
      .next ((s.modMould fn id fun m => { m with run := none }).openGate fn m c r.attempts r.dropped).settle) ∧
  (∀ (fn : FnId) (id : BitVec 64) (m : Mould) (s : State), (s.fns[fn]).mould? id = some m → m.queue ≠ [] →
    exec (.stepDeadline fn id) s =
      .next (((if m.run.isSome then s.closeStep fn id .timeout true
        else (s.modMould fn id fun m => { m with lastStatus := Status.timeout.code }).endRunCmd fn id .timeout)).anneal
          (.tenant fn)).settle)

/-- HEAT_BEGIN opens a command heat with its shadow frames and replies with its number; HEAT_END commits or scraps it, or
reports the scrap that ended it before; a commit that meets a lost line of the heat area gives the function fault; a command
heat that lives too long is scrapped and its end will report TIMEOUT (R289, R290, R298, R311, Table TIME-7; that a commit ends
later where some T1 channel retrains is the model's choice, log 161). -/
def Obligations.CommandHeatsComplete : Prop :=
  (∀ (k : Cmd) (r : RingId) (slot : Fin 32) (t v : State) (s : State), Ready .heatBegin k s → k.ring = some r →
    plain k [(0, 6)] = true → 1 ≤ u k.p 0 4 → 1 ≤ u k.p 4 2 → u k.p 4 2 ≤ 4096 → (s.fns[k.fn]).counted < 32 →
    (s.entered .heatBegin k).openHeat k.fn (.ring r) (u k.p 4 2) = some (slot, t) →
    t.allocT1 k.fn (.shadow k.fn slot.val) (ceilDiv (u k.p 4 2) 512) = some v →
    exec (.heatBegin k) s =
      .next ((v.modFn k.fn fun f => { f with cmdHeats := f.cmdHeats ++ [{ ring := r, slot := some slot }] }).finish .heatBegin k
        .ok ((((v.fns[k.fn]).heat slot).map (·.number)).getD 0 % 2 ^ 32)).settle) ∧
  (∀ (k : Cmd) (c : CmdHeat) (env : Lines) (s : State), Ready .heatEnd k s → plain k [(0, 1)] = true →
    (s.fns[k.fn]).commits? .heatEnd k = false → (s.fns[k.fn]).cmdHeats.find? (fun c => some c.ring == k.ring) = some c →
    let t := (s.entered .heatEnd k).dropCmdHeat k.fn k.ring
    (∀ slot, c.slot = some slot → u k.p 0 1 = 0 → env.heatArea = false → t.anyChanBusy = false →
      exec (.heatEndCommit (k, env)) s = .next ((t.commitHeat k.fn slot).finish .heatEnd k .ok).settle) ∧
    (∀ slot, c.slot = some slot → u k.p 0 1 = 0 → env.heatArea = false → t.anyChanBusy = true →
      exec (.heatEndCommit (k, env)) s = .next (t.modHeat k.fn slot fun h =>
        { h with committing := true, reply := some (.heatEnd, k, 0, []) }).settle) ∧
    (∀ slot, c.slot = some slot → u k.p 0 1 = 0 → env.heatArea = true → exec (.heatEndCommit (k, env)) s =
      .next (((t.scrapHeat k.fn slot .integrity).functionFault k.fn).finish .heatEnd k .integrity).settle) ∧
    (∀ slot, c.slot = some slot → u k.p 0 1 = 1 → exec (.heatEndScrap k) s =
      .next ((t.scrapHeat k.fn slot .ok).finish .heatEnd k .ok).settle) ∧
    (c.slot = none → u k.p 0 1 = 0 → exec (.heatEndCommit (k, env)) s =
      .next (t.finish .heatEnd k (c.scrapped.getD .annealed)).settle)) ∧
  (∀ (fn : FnId) (ring : RingId) (c : CmdHeat) (slot : Fin 32) (s : State), (s.fns[fn]).cmdHeats.find? (·.ring == ring) = some c →
    c.slot = some slot →
    exec (.commandHeatLifetime fn ring) s = .next ((s.scrapHeat fn slot .timeout).modFn fn fun f =>
      { f with cmdHeats := updateFirst (·.ring == ring) (fun x => { x with slot := none, scrapped := some .timeout }) f.cmdHeats }))

/-- A step's heat whose commit phase every forge has completed commits where it is local; of a distributed one the
coordinator decides once it holds every vote, and a participant writes its PREPARED record and votes; a lost line of the heat area
gives the function fault, and a write that fails anneals the tenant; a commit that takes too long scraps the heat, with the
coordinator's decision or the participant's vote to scrap where it is distributed, and anneals the tenant; a command's heat in
its commit phase commits, with its reply, or is scrapped with the tenant annealed (R67, R290, R298, R300, R308, R311; that the
last heat waits for the step's sends is the model's choice, log 170, and so is a command's commit phase, log 161). -/
def Obligations.StepHeatsComplete : Prop :=
  (∀ (fn : FnId) (slot : Fin 32) (env : Lines) (h : Heat) (id : BitVec 64) (b : Nat) (m : Mould) (r : Running) (hb : HeatBound)
    (s : State), (s.fns[fn]).heat slot = some h → h.origin = .step id b → (s.fns[fn]).mould? id = some m → m.run = some r →
    m.heats[b]? = some hb → h.state = .open_ → r.rerun = false → r.status = none → r.committed hb.commitPhase = true →
    ((m.lastBound b = false ∨ m.unsent r = false) →
      (env.heatArea = true → exec (.localCommit fn slot env) s = .next (s.functionFault fn).settle) ∧
      (env.heatArea = false → env.fails = true → exec (.localCommit fn slot env) s = .next (s.anneal (.tenant fn)).settle) ∧
      (env.heatArea = false → env.fails = false → hb.distributed = false →
        exec (.localCommit fn slot env) s = .next (s.commitStepHeat fn slot).settle) ∧
      (env.heatArea = false → env.fails = false → hb.distributed = true → m.coordinator = m.selfPos →
        exec (.localCommit fn slot env) s =
          .next (((s.spillLines fn slot).modHeat fn slot fun h =>
            { h with committing := true, coordinator := true, distributed := true }).tryDecide fn slot).settle) ∧
      (env.heatArea = false → env.fails = false → hb.distributed = true → m.coordinator ≠ m.selfPos → h.committing = false →
        exec (.localCommit fn slot env) s =
          .next ((((s.spillLines fn slot).record fn slot 0x09 (preparedRecord m hb h.stepIndex)).modHeat fn slot fun h =>
            { h with state := .prepared, committing := true, distributed := true, participants := hb.participants }).sendHeat fn m
              m.coordinator 1 b h.stepIndex).settle)) ∧
    (hb.distributed = false → exec (.heatCommitPhaseTimeout fn slot) s =
      .next ((s.closeStep fn id .timeout true).anneal (.tenant fn) 0x0108).settle) ∧
    (hb.distributed = true → m.coordinator ≠ m.selfPos → exec (.heatCommitPhaseTimeout fn slot) s =
      .next (((s.sendHeat fn m m.coordinator 2 b h.stepIndex).closeStep fn id .timeout true).anneal (.tenant fn) 0x0108).settle) ∧
    (hb.distributed = true → m.coordinator = m.selfPos → exec (.heatCommitPhaseTimeout fn slot) s =
      .next (((s.announce fn slot m b h.stepIndex false).closeStep fn id .timeout true).anneal (.tenant fn) 0x0108).settle)) ∧
  ∀ (fn : FnId) (slot : Fin 32) (env : Lines) (h : Heat) (x : Op × Cmd × Nat × List Byte) (s : State),
    (s.fns[fn]).heat slot = some h → (∀ id b, h.origin ≠ .step id b) → h.reply = some x → h.state = .open_ →
    (env.heatArea = true → exec (.localCommit fn slot env) s = .next (s.functionFault fn).settle) ∧
    (env.heatArea = false → env.fails = true → exec (.localCommit fn slot env) s = .next (s.failCommit fn slot x 0).settle) ∧
    (env.heatArea = false → env.fails = false → exec (.localCommit fn slot env) s =
      .next ((s.commitHeat fn slot).finish x.1 x.2.1 .ok x.2.2.1 x.2.2.2).settle) ∧
    exec (.heatCommitPhaseTimeout fn slot) s = .next (s.failCommit fn slot x 0x0108).settle

/-- The fold of a committed heat writes its shadow into the memory, frees its slot and its shadow frames, and leaves
everything else; no other byte of the memory changes (R295). A line of the heat area that the fold finds lost gives the function
fault (R311). -/
def Obligations.FoldWritesTheShadow : Prop :=
  ∀ (fn : FnId) (slot : Fin 32) (h : Heat) (s : State), (s.fns[fn]).heat slot = some h → h.state = .committed →
    (∀ env : Lines, env.heatArea = false → exec (.fold fn (slot, env)) s = .next (s.foldHeat fn slot)) ∧
    (∀ env : Lines, env.heatArea = true → exec (.fold fn (slot, env)) s = .next (s.functionFault fn).settle) ∧
    ((s.foldHeat fn slot).fns[fn]).heat slot = none ∧
    (Memory.wf s.ram = true → Memory.sorted h.shadow = true →
      ∀ c ∈ h.shadow, Memory.get (s.foldHeat fn slot).ram (ramKey fn c.1) = c.2) ∧
    (∀ x, x ∉ h.shadow.map (fun c => ramKey fn c.1) → Memory.get (s.foldHeat fn slot).ram x = Memory.get s.ram x) ∧
    (∀ g, g ≠ fn → (s.foldHeat fn slot).fns[g] = s.fns[g]) ∧
    (s.foldHeat fn slot).hearth = s.hearth ∧ (s.foldHeat fn slot).pending = s.pending ∧ (s.foldHeat fn slot).ledger = s.ledger

/-- What the remaining timeouts of Table TIME-6 do: an admin command ends with TIMEOUT, a quiesce anneals the functions it
waits for, Smith's watchdog anneals the device, a slot wait that no producer holds and a Tongs descriptor anneal their forge, the window requests blocked there being refused, and a
transfer error ends the command it was for with HOST_FAULT (R42, R79, R95, R312, R332, R421). -/
def Obligations.TimeoutsComplete : Prop :=
  (∀ (k : Cmd) (f : Flight) (s : State), s.flights.find? (fun f => f.cmd == k && f.op.adminBound) = some f →
    (∀ d ∈ s.deferred, ∃ k' fns a, d = .quiesce k' fns a) → s.smith.heldFwLoad = none →
    exec (.adminCommandTimeout k) s = .next (s.finish f.op k .timeout).settle) ∧
  (∀ (fn : FnId) (k : Cmd) (fns : List FnId) (a : Bool) (s : State), s.deferred = [.quiesce k fns a] → fns.contains fn = true →
    (s.fns[fn]).active = true →
    exec (.quiesceTimeout fn) s =
      .next (({ s with deferred := [.quiesce k fns true] } : State).anneal (.tenant fn) 0x010A).settle) ∧
  (∀ s : State, s.hall.fwRunning = true → s.faulted = false →
    exec .smithWatchdog s =
      .next (({ s with smith := { s.smith with watchdog := inc32 s.smith.watchdog } } : State).anneal .device 0x010B).settle) ∧
  (∀ (f : ForgeId) (slot : BitVec 8) (j : Job) (m : Mould) (mf : MForge) (s : State), s.anyChanBusy = false →
    let t := s.refuseWindow f slot.toNat
    t.jobForge f = some (j, m, mf) → mf.wait.contains slot.toNat = true → t.slotHeld m j.logical slot.toNat = false →
    exec (.slotTimeout f slot) s =
      .next ((((t.modForge f fun x => { x with slotTimeouts := satAdd 16 x.slotTimeouts 1 }).log 0x0303 (some j.fn) f.val
        (bvBytes 1 slot ++ [0, 0, 0] ++ toLe 4 ((m.run.map (·.index)).getD 0))).anneal (.forge f) 0x0101).settle)) ∧
  (∀ (f : ForgeId) (c : TongsId) (a : TActive) (s : State), ((s.forges[f]).tchans[c]).active = some a →
    exec (.tongsDescriptorTimeout f c) s =
      .next (((s.modForge f fun x => { x with tchans := vmod x.tchans c fun t =>
        if t.errValid then t else { t with errValid := true, errStatus := Status.timeout.code, errDesc := a.index } }).anneal
          (.forge f) 0x0102).settle)) ∧
  (∀ (fn : FnId) (ring : Option RingId) (seq : BitVec 32) (s : State),
    exec (.completionError fn ring seq true) s = .next s.evTearDown ∧
    ∀ f, s.flights.find? (fun f => f.cmd.fn == fn && f.cmd.ring == ring && f.cmd.seq == seq && !f.background) = some f →
      ((s.fns[fn]).moulds.any fun m => m.queue.any (·.cmd == f.cmd)) = false → s.deferred = [] →
      exec (.completionError fn ring seq false) s = .next (s.finish f.op f.cmd .hostFault).settle)

/-! ### The instruction stream -/

/-- PHASE and END act once the forge's engines have nothing left: PHASE enters its phase, END ends the forge's stream; a
broken count of tiles ends the step with BAD_PARAM (R46, R59, R67, R125). CALL goes to its subroutine and keeps the
place to return to, RETURN goes back there, LOOP repeats its body as often as it says and skips it where it says zero
(R48, R49). -/
def Obligations.StreamControlCompletes : Prop :=
  (∀ (f : ForgeId) (w : BitVec 128) (j : Job) (m : Mould) (mf : MForge) (r : Running) (s : State),
      (AtHead f w 0x01 j m mf r s → (s.forges[f]).phaseEnd mf = .done →
        exec (.phase f w) s = .next ((s.enterPhase f j m r (wB w 2 2)).wentOn j)) ∧
      (AtHead f w 0x02 j m mf r s → (s.forges[f]).phaseEnd mf = .done →
        exec (.end_ f w) s =
          .next ((((s.modForge f fun x => { x with ended := true }).modRun j.fn m.id fun r =>
            { r with ended := r.ended.set j.logical true }).endFetches j.fn m).wentOn j)) ∧
      (∀ k, AtHead f w 0x01 j m mf r s → (s.forges[f]).phaseEnd mf = .wrong k →
        exec (.phase f w) s = .next ((s.tileCount f j k).wentOn j)) ∧
      (∀ k, AtHead f w 0x02 j m mf r s → (s.forges[f]).phaseEnd mf = .wrong k →
        exec (.end_ f w) s = .next ((s.tileCount f j k).wentOn j))) ∧
  (∀ (f : ForgeId) (w : BitVec 128) (j : Job) (m : Mould) (mf : MForge) (r : Running) (s : State),
      (∀ a, AtHead f w 0x03 j m mf r s → mf.subs[wB w 2 2]? = some a →
        exec (.call f w) s =
          .next ((s.modForge f fun x => { x with nest := .call (x.pc + 1) :: x.nest, pc := a }).wentOn j)) ∧
      (∀ ret rest, AtHead f w 0x04 j m mf r s → (s.forges[f]).nest = .call ret :: rest →
        exec (.return_ f w) s =
          .next ((s.modForge f fun x => ({ x with pc := ret, nest := rest } : Forge).advance 0).wentOn j)) ∧
      (AtHead f w 0x05 j m mf r s →
        let n := if bit (wB w 1 1) 0 then r.word (wB w 4 4) else wB w 4 4
        exec (.loop f w) s =
          .next ((s.modForge f fun x => if n = 0 ∨ wB w 8 4 = 0 then x.advance (1 + wB w 8 4)
            else { x with pc := x.pc + 1, nest := .loop (x.pc + 1) (x.pc + wB w 8 4) n :: x.nest }).wentOn j)))

/-- The configuration instructions of the engines: ANVIL_CFG, SWAGE_CFG, CHISEL_TREG and CRUC_CFG set what later
instructions use; SWAGE_TABLE and CHISEL_TABLE load a table from its slot once the engine has nothing issued
(R122, R130, R138, R161, R163, R173). -/
def Obligations.EngineConfigurationCompletes : Prop :=
  ∀ (f : ForgeId) (w : BitVec 128) (j : Job) (m : Mould) (mf : MForge) (r : Running) (s : State),
    (AtHead f w 0x11 j m mf r s →
      exec (.anvilCfg f w) s =
        .next (((s.modForge f fun x => { x with anvil := { x.anvil with
          cfg := { aSide := BitVec.ofNat 8 (wB w 1 1), bSide := BitVec.ofNat 8 (wB w 2 1), out := BitVec.ofNat 8 (wB w 3 1)
                   mt := BitVec.ofNat 8 (wB w 4 1), shift := BitVec.ofNat 8 (wB w 5 1), sRow := wB w 6 2
                   pRow := wB w 8 2 } } }).advance f).wentOn j)) ∧
    (AtHead f w 0x18 j m mf r s →
      exec (.swageCfg f w) s =
        .next (((s.modForge f fun x => { x with swage := { x.swage with
          cfg := { coded := bit (wB w 1 1) 0, hSlot := wB w 2 1, hRow := wB w 4 2 } } }).advance f).wentOn j)) ∧
    (AtHead f w 0x22 j m mf r s →
      exec (.chiselTreg f w) s =
        .next (((s.modForge f fun x => { x with chisel := { x.chisel with
          tregs := x.chisel.tregs.set (Fin.ofNat 16 (wB w 1 1)) (some w) } }).advance f).wentOn j)) ∧
    (AtHead f w 0x30 j m mf r s → CrucJob.cfgReserved w = false →
      exec (.crucCfg f w) s = .next (((s.modForge f fun x => { x with cruc := { x.cruc with cfg := w } }).advance f).wentOn j)) ∧
    (AtHead f w 0x19 j m mf r s → (s.forges[f]).anvil.issued = [] → mf.fits (wB w 2 1) (wB w 4 2) 1 = true →
      mf.clash s.feat.cacheMask (s.forges[f]).phase 1 { slot := wB w 2 1, first := wB w 4 2, n := 1 } = none →
      mf.blocked [{ slot := wB w 2 1, first := wB w 4 2, n := 1 }] = none →
      recordOk (s.readRows f mf (wB w 2 1) (wB w 4 2) 1) = true →
      let row := s.readRows f mf (wB w 2 1) (wB w 4 2) 1
      let t := s.modForge f fun x => { x with swage := { x.swage with
        tables := x.swage.tables.set (Fin.ofNat 4 (bits (wB w 1 1) 0 2))
          (some { id := u row 4 2, digest := recordDigest row, lengths := recordLengths row }) } }
      exec (.swageTable f w) s =
        .next (((if bit (wB w 1 1) 2 then t.modMForge j.fn j.mould j.logical (·.setEmpty (wB w 2 1)) else t).advance f).wentOn j)) ∧
    (AtHead f w 0x23 j m mf r s → (s.forges[f]).chisel.issued = [] → mf.fits (wB w 2 1) (wB w 4 2) 4 = true →
      mf.clash s.feat.cacheMask (s.forges[f]).phase 2 { slot := wB w 2 1, first := wB w 4 2, n := 4 } = none →
      mf.blocked [{ slot := wB w 2 1, first := wB w 4 2, n := 4 }] = none →
      let bs := s.readRows f mf (wB w 2 1) (wB w 4 2) 4
      let tab := (List.range 256).map fun i => (BitVec.ofNat 32 (u bs (8 * i) 4), BitVec.ofNat 32 (u bs (8 * i + 4) 4))
      let t := s.modForge f fun x => { x with chisel := { x.chisel with
        tables := x.chisel.tables.set (Fin.ofNat 2 (wB w 1 1)) (some tab) } }
      exec (.chiselTable f w) s =
        .next (((if bit (wB w 1 1) 1 && wB w 2 1 != 0xFF then t.modMForge j.fn j.mould j.logical (·.setEmpty (wB w 2 1))
          else t).advance f).wentOn j))

/-- The engines take the instructions that pass their checks in order behind those already issued, up to five products
and Chisel instructions and three of the Crucible and of the Press, and go on with them as their operands allow; those of an
alternate's subroutine run before the instruction that waits for its delivery (R121, R123, R134, R153, R158, R175, R193, R197,
R218, log 164). -/
def Obligations.EngineIssueCompletes : Prop :=
  ∀ (f : ForgeId) (w : BitVec 128) (j : Job) (m : Mould) (mf : MForge) (r : Running) (s : State),
    (∀ a : AnvilJob, a = { word := w, cfg := (s.forges[f]).anvil.cfg, swage := (s.forges[f]).swage.cfg, pc := (s.forges[f]).pc } →
      AtHead f w 0x10 j m mf r s → (s.forges[f]).anvil.issued.length < 5 → a.ok mf = true →
      exec (.anvilMm f w) s =
        .next (((s.modForge f fun x => { x with anvil := { x.anvil with issued := x.anvil.issued ++ [a] } }).advance f).wentOn j)) ∧
    (∀ (stages : List (BitVec 128)) (c : ChiselJob),
      c = { word := w, stages, tregs := (s.forges[f]).chisel.tregs.toList, pc := (s.forges[f]).pc } →
      AtHead f w 0x20 j m mf r s → (s.forges[f]).chisel.issued.length < 5 → stages.length = bits (wB w 1 1) 0 4 →
      (((mf.stream.drop ((s.forges[f]).pc + 1)).take (bits (wB w 1 1) 0 4)).takeWhile fun w => wB w 0 1 == 0x21) = stages →
      (s.forges[f]).nest = [] →
      c.check mf s.feat.cacheMask (fun i => ((s.forges[f]).chisel.tables.toList.getD i none).isSome) true = none →
      exec (.chiselOp f w stages) s =
        .next (((s.modForge f fun x => { x with chisel := { x.chisel with issued := x.chisel.issued ++ [c] } }).advance f
          (1 + bits (wB w 1 1) 0 4)).wentOn j)) ∧
    (∀ (env : Lines) (c : CrucJob), c = { word := w, cfg := (s.forges[f]).cruc.cfg, pc := (s.forges[f]).pc, env } →
      AtHead f w 0x31 j m mf r s → (s.forges[f]).crucAhead.1.length < 3 → c.check m mf = none →
      exec (.crucAttn f w env) s =
        .next (((s.modForge f fun x => { x with cruc := { x.cruc with
          issued := x.crucAhead.1 ++ c :: x.crucAhead.2 } }).advance f).wentOn j)) ∧
    (∀ c : CrucJob, c = { word := w, cfg := (s.forges[f]).cruc.cfg, pc := (s.forges[f]).pc, env := {} } →
      AtHead f w 0x32 j m mf r s → (s.forges[f]).crucAhead.1.length < 3 → c.check m mf = none →
      exec (.crucAppend f w) s =
        .next (((s.modForge f fun x => { x with cruc := { x.cruc with
          issued := x.crucAhead.1 ++ c :: x.crucAhead.2 } }).advance f).wentOn j)) ∧
    (∀ (c : Instr) (code : Nat) (p : PressJob), p = { word := w, pc := (s.forges[f]).pc } →
      code = 0x60 ∧ c = .pressScan f w ∨ code = 0x61 ∧ c = .pressEncode f w ∨ code = 0x62 ∧ c = .pressTableOut f w →
      AtHead f w code j m mf r s → (s.forges[f]).press.issued.length < 3 → p.ok (s.forges[f]).press mf = true →
      p.placed m r s.fns[j.fn] = true →
      exec c s =
        .next (((s.modForge f fun x => { x with press := { x.press with issued := x.press.issued ++ [p] } }).advance f).wentOn j))

/-- The stream's Tongs and Plinth instructions: TONGS_RUN queues a run of descriptors on its channel, TONGS_WAIT waits
until its channels are empty, TONGS_STOP empties their queues and waits for what is active, PLINTH_FENCE waits for the
forge's Plinth instructions and drops the cached result lines, PLINTH_RUN offers its program's instructions to the
Plinth and goes on once all are accepted (R99, R100, R101, R274, R278). -/
def Obligations.TongsAndPlinthStreamComplete : Prop :=
  ∀ (f : ForgeId) (w : BitVec 128) (j : Job) (m : Mould) (mf : MForge) (r : Running) (s : State),
    (∀ c : TongsId, AtHead f w 0x40 j m mf r s → c = Fin.ofNat 8 (wB w 1 1) → 1 ≤ wB w 4 2 → wB w 4 2 ≤ 4096 →
      wB w 2 2 + wB w 4 2 ≤ mf.tongs.length → ((s.forges[f]).tchans[c]).queue.length < 4 →
      exec (.tongsRun f w) s =
        .next ((((s.modForge f fun x => { x with tchans := vmod x.tchans c fun t =>
          { t with queue := t.queue ++ [{ first := wB w 2 2, count := wB w 4 2 }], started := true
                   paused := t.paused || !t.started } }).advance f).loadChan f c).wentOn j)) ∧
    (AtHead f w 0x41 j m mf r s → ((chansOf w).all fun c => ((s.forges[f]).tchans[c]).empty) = true →
      exec (.tongsWait f w) s = .next ((s.advance f).wentOn j)) ∧
    (AtHead f w 0x42 j m mf r s →
      let t := (chansOf w).foldl (fun s c => s.modForge f fun x => { x with tchans := vmod x.tchans c fun t =>
        { t with queue := [], cur := none, shadow := none, stopping := t.active.isSome } }) s
      exec (.tongsStop f w) s =
        .next ((if (chansOf w).all fun c => ((t.forges[f]).tchans[c]).active.isNone then t.advance f else t).wentOn j)) ∧
    (AtHead f w 0x06 j m mf r s →
      (∀ n : PlinthId, bit (wB w 1 1) n.val = true → ∀ c ∈ (s.plinths[n]).chains.toList, ∀ i ∈ c.instrs, i.forge ≠ some f) →
      ∃ t, exec (.plinthFence f w) s = .next (t.wentOn j) ∧
        t = ({ s with cache := t.cache } : State).advance f ∧
        ∀ l, l ∈ t.cache ↔ l ∈ s.cache ∧ ¬ (l.fn = j.fn ∧ ∃ n, l.plinth = some n ∧ bit (wB w 1 1) n.val = true)) ∧
    (∀ (n : PlinthId) (p : UProg) (t : State), AtHead f w 0x50 j m mf r s → n = Fin.ofNat 8 (wB w 1 1) →
      m.plinthMask.getLsbD n.val = true →
      ((s.plinths[n]).progs.find? fun p => p.fn == j.fn && p.mould == j.mould && p.program == wB w 2 2) = some p →
      wB w 4 2 < p.instrs.length → wB w 4 2 + wB w 6 2 ≤ p.instrs.length → (s.plinths[n]).linkUp = true →
      (s.forges[f]).prun = none →
      s.offerRun n j.fn f ((p.instrs.drop (wB w 4 2)).take (if wB w 6 2 = 0 then p.instrs.length - wB w 4 2 else wB w 6 2)) =
        (t, .ok []) →
      exec (.plinthRun f w) s = .next (((t.modForge f fun x => { x with prun := none }).advance f).wentOn j))

/-- The Tongs descriptors: COPY, FILL, COMPARE and ATOMIC move their bytes once banks, tags, pages, channels and the
partitions' buckets allow, a COPY whose source diverts calls the alternate and keeps the CRC of the bytes that the alternate
equals, FLUSH sends the function's dirty lines to their shadows and lets the others go, and a descriptor whose bytes have
moved completes (R66, R91, R92, R93, R99 to R103, R249). -/
def Obligations.TongsDescriptorsComplete : Prop :=
  (∀ (f : ForgeId) (c : TongsId) (env : Lines) (j : Job) (m : Mould) (mf : MForge) (r : Running) (a : TActive)
    (t t₁ t₂ : State) (bs : List Byte) (s : State), AtDesc f c 1 j m mf r a s t →
    let d := mf.tongs.getD a.index 0
    let slot := t.heatAt j.fn m (t.forges[f]).phase
    (dDst d).hearthBlock t.feat.cacheMask m j.logical true (t.forges[f]).phase = none → t.destBlocked j.fn r (dDst d) = false →
    t.destWaits j.fn r (dDst d) = false →
    (t.readSide j m r (t.forges[f]).phase (dSrc d) (dFlag d 3) slot env = (t₁, .ok bs) →
      t₁.writeSide j m r (t.forges[f]).phase (dDst d) (dFlag d 4) slot bs = .ok t₂ →
      exec (.copy f c env) s =
        .next ((t₂.noteMoved f j c d bs.length fun a => { a with
          aperture := if (dDst d).space = 4 && inAperture ((dDst d).at r) (dDst d).extent then apertureGroups (dDst d).plinth bs else []
          hasCrc := dFlag d 0, crc := if dFlag d 0 then crc32c bs else 0 }).wentOn j)) ∧
    (∀ alt, t.readSide j m r (t.forges[f]).phase (dSrc d) (dFlag d 3) slot env = (t₁, .error (.divert alt)) →
      exec (.copy f c env) s =
        .next (((t₁.callAlternate f j m mf r alt).noteMoved f j c d 0 fun a => { a with
          diverted := true, hasCrc := dFlag d 0
          crc := if dFlag d 0 then crc32c (t₁.storedBytes j.fn (dSrc d) r) else 0 }).wentOn j))) ∧
  (∀ (f : ForgeId) (c : TongsId) (j : Job) (m : Mould) (mf : MForge) (r : Running) (a : TActive) (t t₂ : State) (s : State),
    AtDesc f c 2 j m mf r a s t →
    let d := mf.tongs.getD a.index 0
    let bs := ((List.range (ceilDiv (dDst d).total 4)).map fun _ => toLe 4 (dConst d)).flatten.take (dDst d).total
    (dDst d).hearthBlock t.feat.cacheMask m j.logical true (t.forges[f]).phase = none → t.destBlocked j.fn r (dDst d) = false →
    t.destWaits j.fn r (dDst d) = false →
    t.writeSide j m r (t.forges[f]).phase (dDst d) (dFlag d 4) (t.heatAt j.fn m (t.forges[f]).phase) bs = .ok t₂ →
    exec (.fill f c) s = .next ((t₂.noteMoved f j c d bs.length id).wentOn j)) ∧
  (∀ (f : ForgeId) (c : TongsId) (env : Lines) (j : Job) (m : Mould) (mf : MForge) (r : Running) (a : TActive)
    (t t₁ t₂ : State) (bs cs : List Byte) (s : State), AtDesc f c 3 j m mf r a s t →
    let d := mf.tongs.getD a.index 0
    let slot := t.heatAt j.fn m (t.forges[f]).phase
    t.readSide j m r (t.forges[f]).phase (dSrc d) (dFlag d 3) slot env = (t₁, .ok bs) →
    t₁.readSide j m r (t.forges[f]).phase (dDst d) (dFlag d 4) slot env = (t₂, .ok cs) →
    exec (.compare f c env) s =
      .next ((t₂.noteMoved f j c d bs.length fun a => { a with
        mismatch := firstDiff bs cs 0, hasCrc := dFlag d 0, crc := if dFlag d 0 then crc32c bs else 0 }).wentOn j)) ∧
  (∀ (f : ForgeId) (c : TongsId) (j : Job) (m : Mould) (mf : MForge) (r : Running) (a : TActive) (t : State) (s : State),
    AtDesc f c 4 j m mf r a s t →
    let d := mf.tongs.getD a.index 0
    let plinth := if (dDst d).space = 4 then some (dDst d).plinth else none
    let base := (dDst d).at r + (if (dDst d).space = 4 then (dDst d).plinth.val * 0x10000000 else 0)
    exec (.flush f c) s =
      .next (((((dDst d).starts base).foldl (fun s a => s.flushLines j.fn plinth a (dDst d).lineBytes) t).noteMoved f j c d 0 id).wentOn j)) ∧
  (∀ (f : ForgeId) (c : TongsId) (env : Lines) (j : Job) (m : Mould) (mf : MForge) (r : Running) (a : TActive)
    (t t₁ t₂ t₃ : State) (bs out : List Byte) (s : State), AtDesc f c 5 j m mf r a s t →
    let d := mf.tongs.getD a.index 0
    let slot := t.heatAt j.fn m (t.forges[f]).phase
    (dDst d).hearthBlock t.feat.cacheMask m j.logical true (t.forges[f]).phase = none →
    t.readSide j m r (t.forges[f]).phase (dSrc d) false slot env = (t₁, .ok bs) →
    foldE (fun (acc : State × List Byte) (i : Nat) =>
      (acc.1.atomicEntry j.fn slot (m.doneAt (t.forges[f]).phase) env (slice bs (32 * i) 32)).map fun (p : State × List Byte) => (p.1, acc.2 ++ p.2))
        (List.range (bs.length / 32)) (t₁, []) = .ok (t₂, out) →
    t₂.writeSide j m r (t.forges[f]).phase (dDst d) false slot out = .ok t₃ →
    exec (.atomic f c env) s = .next ((t₃.noteMoved f j c d bs.length id).wentOn j)) ∧
  (∀ (f : ForgeId) (c : TongsId) (j : Job) (m : Mould) (mf : MForge) (a : TActive) (s : State), s.jobForge f = some (j, m, mf) →
    ((s.forges[f]).tchans[c]).active = some a → a.moved = true → a.aperture = [] →
    (∀ st, a.failed = some st → exec (.tongsDescComplete f c) s = .next ((s.descFails f j c st a.index).wentOn j)) ∧
    (a.failed = none → dResult (mf.tongs.getD a.index 0) = 0xFFFFFFFF →
      exec (.tongsDescComplete f c) s =
        .next ((((s.finishDesc f j mf c a).modForge f fun x => { x with tchans := vmod x.tchans c fun t =>
          { t with stopping := false } }).loadChan f c).wentOn j)))

/-- One atomic on an old value does what Table HRTH-3 says, wrapping at the operand's width: ADD, MIN and MAX signed or not,
XOR, and CAS, which stores only where the old value equals COMPARE and says so. -/
def Obligations.AtomicOperations : Prop :=
  ∀ (wide signed : Bool) (old x cmp : Nat),
    let w := if wide then 64 else 32
    old < 2 ^ w → x < 2 ^ w → cmp < 2 ^ w →
    atomicOp 1 wide signed old x cmp = ((old + x) % 2 ^ w, false) ∧
    (∀ op, op = 2 ∨ op = 3 → (atomicOp op wide signed old x cmp).1 < 2 ^ w) ∧
    atomicOp 2 wide false old x cmp = (min old x, false) ∧ atomicOp 3 wide false old x cmp = (max old x, false) ∧
    (sext w (atomicOp 2 wide true old x cmp).1 = min (sext w old) (sext w x)) ∧
    (sext w (atomicOp 3 wide true old x cmp).1 = max (sext w old) (sext w x)) ∧
    (atomicOp 4 wide signed old x cmp).1 < 2 ^ w ∧ (∀ i, (atomicOp 4 wide signed old x cmp).1.testBit i = (old.testBit i != x.testBit i)) ∧
    (old = cmp → atomicOp 5 wide signed old x cmp = (x, true)) ∧ (old ≠ cmp → atomicOp 5 wide signed old x cmp = (old, false))

/-! ### The far tier -/

/-- The units of a Plinth take the instructions at the heads of their chains in order: DOT starts its access phase with
the rows and vectors as they stand, behind the ordinary requests that waited, LDR fills the registers, NOP passes; an access
phase ends, its computation goes on and the requests that waited for its banks are served; the blocks that its rows and its
results lie in are checked, and the results of a computation are released and counted, where no page of its rows was lost and
no result block that it reads back is beyond correction, else nothing is released; an aperture write gives its instructions
to the chains (R255, R259 to R261, R267, R269 to R271, R275, R277, R279). What a Plinth's own upkeep does: a refresh of a bank
suspends the access phase or the transfer there; a scrub of a block waits for an access phase of its bank, counts what it
corrected and reports what it could not; eight failed flits in a row retrain the link with the devices in self-refresh, until
the retrain completes; an instruction that outlasts its timer anneals its chain (R258, R262, R272, R276, R280). -/
def Obligations.PlinthCommandsComplete : Prop :=
  (∀ (n : PlinthId) (c : ChainId) (s : State),
      (∀ i, (s.refill n 64).unitHead n c 1 = some i →
        let t := if (((s.refill n 64).plinths[n]).chains[c]).ordQ = [] then s.refill n 64 else (s.refill n 64).serveOrd n c
        exec (.dot n c) s =
          .next ((t.modPlinth n fun p => { p with chains := vmod p.chains c fun x =>
            { x with queue := x.queue.drop 1, access := some (t.startDot n c i) } }).refill n 64)) ∧
      (∀ i, (s.refill n 64).unitHead n c 2 = some i →
        exec (.ldr n c) s =
          .next (((s.refill n 64).modPlinth n fun p => countInstr { p with chains := vmod p.chains c fun x =>
            { x with queue := x.queue.drop 1, regs := (s.refill n 64).ldrRegs n i x.regs } }).modPlinth n Plinth.fixCompute)) ∧
      (∀ i, s.unitHead n c 0 = some i →
        exec (.unitNop n c) s =
          .next ((s.modPlinth n fun p => (countInstr { p with chains := vmod p.chains c fun x =>
            { x with queue := x.queue.drop 1 } }).fixCompute).refill n 64)) ∧
      (∀ w, ((s.plinths[n]).chains[c]).access = some w → ((s.plinths[n]).chains[c]).compute = none →
        exec (.accessPhaseEnd n c) s =
          .next ((s.modPlinth n fun p => { p with
            chains := vmod p.chains c fun x => { x with access := none, compute := some w } }).serveOrd n c)) ∧
      (∀ (w : UWork) (rows results : List (Nat × BlockRead)) (badTags : List Nat), ((s.plinths[n]).chains[c]).compute = some w →
        let t := s.meetRows n w.instr (blockErrs rows badTags)
        let part := t.partBlocks n c w (blockErrs results [])
        let u := t.modPlinth n fun p => p.countFixed part
        let k := ((w.instr.scan.bind fun id => (u.fns[w.instr.fn]).scans.find? (·.id == id)).map (·.k)).getD 0
        let gone := w.lost || (t.rowPagesOf w.instr.word).any t.lostHome
        (gone = true → exec (.resultRelease n c rows badTags results) s = .next (t.badRead n c w).settle) ∧
        (gone = false → part.any (·.ue) = false → exec (.resultRelease n c rows badTags results) s =
          .next ((u.modPlinth n fun p =>
            let p := p.writeResults c w
            let p := { p with topk := w.pairs.foldl (topkAdd k) p.topk, rowsScored := p.rowsScored + w.rows, agg := p.agg ^^^ w.mac }
            (countInstr { p with chains := vmod p.chains c fun x => { x with compute := none } }).fixCompute).refill n 64)) ∧
        (gone = false → part.any (·.ue) = true → exec (.resultRelease n c rows badTags results) s =
          .next (((((part.filter (·.ue)).foldl (fun s b =>
            s.countT2 (some w.instr.fn) (s.resultDie w.instr.fn n (c.val * 64 + b.block)) false) u).modPlinth n fun p =>
              p.failLines c w).replayInstr w.instr).settle))) ∧
      (∀ (f : ForgeId) (h : TongsId) (j : Job) (m : Mould) (mf : MForge) (a : TActive) (g : BitVec 2048)
        (rest : List (PlinthId × BitVec 2048)), s.jobForge f = some (j, m, mf) → ((s.forges[f]).tchans[h]).active = some a →
        a.aperture = (n, g) :: rest → (s.plinths[n]).linkUp = true →
        exec (.plinthApertureWrite f h) s =
          .next ((s.takeGroup n j.fn f g a 9).1.modForge f fun x => { x with tchans := vmod x.tchans h fun t =>
            { t with active := some (s.takeGroup n j.fn f g a 9).2 } }))) ∧
  (∀ (n : PlinthId) (s : State),
      (∀ (dev : Fin 6) (bank : Fin 16),
        ((s.plinths[n]).refreshHits dev bank = true ∨ s.refreshMeets n dev bank = true →
          exec (.plinthRefresh n dev bank) s = .next (s.modPlinth n fun p => { p with suspends := inc32 p.suspends })) ∧
        ((s.plinths[n]).refreshHits dev bank = false → s.refreshMeets n dev bank = false →
          exec (.plinthRefresh n dev bank) s = .next s)) ∧
      (∀ (frame block : Nat) (r : BlockRead), (s.t2.any fun x => x.num == frame) = true → frame % 8 = n.val → block < 512 →
        let e : BlockErr := { toBlockRead := r, block }
        let die := t2Die frame (4096 * e.block)
        (s.accessHits die 4096 = true →
          exec (.plinthScrub n frame block r) s = .next (s.queueOrd n (t2Chain die) (.scrub frame e))) ∧
        (s.accessHits die 4096 = false → s.blockValid frame e.block = false →
          exec (.plinthScrub n frame block r) s = .next (s.modPlinth n fun p => { p with ceOdecc := satAdd 32 p.ceOdecc e.odecc })) ∧
        (s.accessHits die 4096 = false → s.blockValid frame e.block = true →
          let t := s.modPlinth n fun p => { p with
            ceOdecc := satAdd 32 p.ceOdecc e.odecc
            ceCheck := match blockClass e.errs with
              | .fixed _ _ => inc32 p.ceCheck
              | _ => p.ceCheck }
          (e.ue = false → exec (.plinthScrub n frame block r) s = .next t) ∧
          (∀ g a, e.ue = true → t.t2Range die = some (g, a) → exec (.plinthScrub n frame block r) s = .next (t.ueT2 g a false).1))) ∧
      (s.plinthOn n = true → (s.plinths[n]).linkUp = true →
        exec (.plinthLinkFlit n true) s = .next (s.modPlinth n fun p => { p with linkFails := 0 }) ∧
        ((s.plinths[n]).linkFails < 7 →
          exec (.plinthLinkFlit n false) s = .next (s.modPlinth n fun p => { p with linkFails := p.linkFails + 1 })) ∧
        (7 ≤ (s.plinths[n]).linkFails →
          exec (.plinthLinkFlit n false) s =
            .next (s.modPlinth n fun p => { p with linkFails := 0, linkUp := false, selfRefresh := 0x3F }))) ∧
      (s.plinthOn n = true → exec (.plinthLinkRetrainComplete n) s =
        .next (s.modPlinth n fun p => { p with linkUp := true, linkFails := 0, selfRefresh := 0 })) ∧
      (∀ c : ChainId, (((s.plinths[n]).chains[c]).access.isSome || ((s.plinths[n]).chains[c]).compute.isSome) = true →
        exec (.plinthInstructionTimeout n c) s =
          .next ((s.modPlinth n fun p => p.fail .timeout 5 c.val).anneal (.plinthUnit n c) 0x0103).settle))

/-! ### The host interface -/

/-- Enabling a ring whose addresses and sizes are valid, of an enabled function or the admin ring, starts it from its
initial values, also while ACTIVE is still 1 for replies not yet written; one that is not valid stops with ERROR and
BAD_PARAM; a ring that is disabled stays active until its last reply is written (R318). The coalescing timer raises the ring's vector for its unsignalled replies; the timer of
vector 1 raises it again for the records written since, or ends (R325, R422). -/
def Obligations.RingsAndInterruptTimersComplete : Prop :=
  (∀ (fn : FnId) (r : Option RingId) (s : State), s.domOn 96 = true → (r = none → fn = 0) →
      ((s.ring fn r).enable = false → (s.ring fn r).valid = true →
        (r = none ∨ (s.host[fn]).enabled = true) →
        exec (.ringEnable fn r) s =
          .next (s.modRing fn r fun q => { q with
            enable := true, active := true, stopped := false, sqHead := 0, sqTail := 0, rqTail := 0, rqHeld := 0, rqHead := 0
            phase := true, unsignalled := 0 })) ∧
      ((s.ring fn r).enable = false →
        ((s.ring fn r).valid = false ∨ (r ≠ none ∧ (s.host[fn]).enabled = false)) →
        exec (.ringEnable fn r) s =
          .next (s.modRing fn r fun q => { q with
            enable := true, error := true, stopped := true, errValid := true
            errStatus := if q.errValid then q.errStatus else BitVec.ofNat 16 Status.badParam.code })) ∧
      exec (.ringDisable fn r) s =
        .next (let t := s.modRing fn r fun q => { q with enable := false }
          if (s.ring fn r).active && s.flightsOf fn r = 0 && (s.ring fn r).done.isEmpty then
            t.modRing fn r fun q => { q with active := false, unsignalled := 0 } else t)) ∧
  ((∀ (fn : FnId) (r : Option RingId) (s : State), (s.ring fn r).unsignalled ≠ 0 →
      exec (.interruptCoalesceTimer fn r) s =
        .next ((s.modRing fn r fun q => { q with unsignalled := 0 }).raise fn (match r with
          | none => 0
          | some r => if fn = 0 then 2 + r.val else r.val))) ∧
    (∀ s : State, s.events.recent = true →
      exec .eventVectorTimer s =
        .next (if s.events.unsignalled then ({ s with events := { s.events with unsignalled := false } } : State).raise 0 1
          else { s with events := { s.events with recent := false } })))

/-- A submission doorbell announces entries: a TAIL inside the ring that passes no entry not yet fetched is taken; a TAIL
outside the ring stops the ring with ERROR and BAD_PARAM; a ring that is not active ignores it; a reply doorbell frees the
entries before HEAD (R318, R319). -/
def Obligations.DoorbellsComplete : Prop :=
  ∀ (fn : FnId) (r : Option RingId) (x : BitVec 16) (s : State), s.domOn 96 = true →
    let q := s.ring fn r
    (q.active = false → exec (.hostDbSq fn r x) s = .next s ∧ exec (.hostDbRq fn r x) s = .next s) ∧
    (q.active = true → x.toNat ≠ q.sqTail → x.toNat < q.sqSize →
      (q.sqTail + q.sqSize - q.sqHead) % q.sqSize ≤ (x.toNat + q.sqSize - q.sqHead) % q.sqSize →
      exec (.hostDbSq fn r x) s = .next (s.modRing fn r fun q => { q with sqTail := x.toNat })) ∧
    (q.active = true → x.toNat ≠ q.sqTail → q.sqSize ≤ x.toNat →
      exec (.hostDbSq fn r x) s = .next (s.modRing fn r fun q => q.stop .badParam)) ∧
    (q.active = true → x.toNat = q.sqTail → exec (.hostDbSq fn r x) s = .next s) ∧
    (q.active = true → x.toNat < q.rqSize → (x.toNat + q.rqSize - q.rqHead) % q.rqSize ≤ q.rqHeld →
      exec (.hostDbRq fn r x) s =
        .next (s.modRing fn r fun q => { q with
          rqHead := x.toNat, rqHeld := q.rqHeld - (x.toNat + q.rqSize - q.rqHead) % q.rqSize }))

/-- A ring that may fetch takes its next entry: a command that passes acceptance is in flight, one that does not is
answered with the status of the first check that fails, an opcode that no table lists with BAD_OPCODE, and a fetch that
ends in error stops the ring with HOST_FAULT (R320, R321, R329). -/
def Obligations.CommandFetchCompletes : Prop :=
  ∀ (fn : FnId) (r : Option RingId) (packet : BitVec 512) (entry : BitVec 256) (payload : List Byte) (s : State),
    MayFetch fn r s →
    let k := parseCmd fn r packet entry payload
    let t := s.fetched fn r
    (∀ e, exec (.commandFetch fn r packet entry payload true e) s =
      .next (s.modRing fn r fun q => q.stop .hostFault)) ∧
    (Op.ofCode (packet.extractLsb' 0 16).toNat = none → s.faulted = false → s.hall.fwRunning = true →
      exec (.commandFetch fn r packet entry payload false false) s = .next (t.refuse .nop k .badOpcode)) ∧
    (∀ op st, Op.ofCode (packet.extractLsb' 0 16).toNat = some op → k.isSealed = false → acceptStatus t op k = some st →
      exec (.commandFetch fn r packet entry payload false false) s = .next (t.refuseAccept op k st)) ∧
    (∀ op, Op.ofCode (packet.extractLsb' 0 16).toNat = some op → k.isSealed = false → acceptStatus t op k = none →
      exec (.commandFetch fn r packet entry payload false false) s = .next (t.takeIn op k)) ∧
    (∀ op, Op.ofCode (packet.extractLsb' 0 16).toNat = some op → k.isSealed = true →
      let k' := openSealed t packet k
      exec (.commandFetch fn r packet entry payload false false) s =
        .next (match acceptStatus t op k' with
          | some st => t.refuseAccept op k' st
          | none => ((t.takeIn op k').allocT1 fn (.payload fn) (stagingFrames k')).getD ((t.takeIn op k').answer op k' .noSpace 0 [])))

/-- Acceptance applies the checks of Table CMND-7 in table order and the first that fails gives the status: so, once the
firmware runs and the device has no fault, in this order for a packet whose fields are out of order, a caller that may not
issue the opcode, a function that is being disabled, a tenant's session, its tag and its sequence number. -/
def Obligations.AcceptanceInTableOrder : Prop :=
  ∀ (op : Op) (k : Cmd) (s : State), s.faulted = false → s.hall.fwRunning = true →
    (packetOk s k = false → acceptStatus s op k = some .badParam) ∧
    (packetOk s k = true → callerOk s op k = false → acceptStatus s op k = some .notPermitted) ∧
    (packetOk s k = true → callerOk s op k = true → k.ring.isSome = true → (s.host[k.fn]).quiescing = true →
      acceptStatus s op k = some .quiescing) ∧
    (packetOk s k = true → callerOk s op k = true → (k.ring = none ∨ (s.host[k.fn]).quiescing = false) → asTenant op k = true →
      (sessionOk s op k = false → acceptStatus s op k = some .notPermitted) ∧
      (sessionOk s op k = true → k.tagOk = false → acceptStatus s op k = some .badTag)) ∧
    (packetOk s k = true → callerOk s op k = true → (k.ring = none ∨ (s.host[k.fn]).quiescing = false) → asTenant op k = false →
      acceptStatus s op k = if k.isSealed || k.session != 0 || k.tag != 0 then some .badParam else none)

/-- A session accepts sealed commands only from the one ring to which OPEN_SESSION bound it, and only with SEQUENCE strictly
greater than that of the last command it accepted, gaps permitted; one that passes its tag with a SEQUENCE not greater is
refused with SEQUENCE and has no effect; 0xFFFFFFFF is kept for CLOSE_SESSION, which may carry any SEQUENCE above the last
accepted; what a session accepts is its last accepted from then on, so that a repeated command is refused (R327). -/
def Obligations.SequenceStrictlyRises : Prop :=
  (∀ (op : Op) (k : Cmd) (x : Session) (s : State), asTenant op k = true → s.session? k.fn k.session = some x →
    acceptStatus s op k = none →
      (x.isOpen = true → x.ring = k.ring) ∧ x.lastSeq < k.seq.toNat ∧ (k.seq = 0xFFFFFFFF → op = .closeSession)) ∧
  (∀ (op : Op) (k : Cmd) (x : Session) (s : State), s.faulted = false → s.hall.fwRunning = true → packetOk s k = true →
    callerOk s op k = true → (k.ring = none ∨ (s.host[k.fn]).quiescing = false) → asTenant op k = true →
    sessionOk s op k = true → k.tagOk = true → s.session? k.fn k.session = some x →
      acceptStatus s op k =
        if x.lastSeq < k.seq.toNat ∧ (k.seq ≠ 0xFFFFFFFF ∨ op = .closeSession) then none else some .sequence) ∧
  (∀ (op : Op) (k : Cmd) (body : State → State) (s : State), s.fetches k.fn k.ring = true →
    s.flights.any (·.isOf op k) = false → acceptStatus s op k = some .sequence →
      hostCmd op k body s = .next ((s.modRing k.fn k.ring Ring.passEntry).pushReply k { op, seq := k.seq, status := .sequence, queue := queueOf k.ring, outAddr := k.outAddr })) ∧
  (∀ (op : Op) (k : Cmd) (x : Session) (s : State), k.isSealed = true → s.session? k.fn k.session = some x →
    (s.takeIn op k).session? k.fn k.session =
      some { x with lastSeq := k.seq.toNat, before := (x.lastSeq :: x.before).take 33 }) ∧
  (∀ (op op' : Op) (k k' : Cmd) (x : Session) (s : State), asTenant op k = true → asTenant op' k' = true →
    s.session? k.fn k.session = some x → k'.fn = k.fn → k'.session = k.session → acceptStatus s op k = none →
    k'.seq.toNat ≤ k.seq.toNat → acceptStatus (s.takeIn op k) op' k' ≠ none)

/-- For each command, the device writes its reply payload first, then the reply entry, and raises the vector last; the
entry goes to the next place of the reply ring, whose phase turns at the wrap; a reply that meets a full ring waits. The
payload is written only where the final status is OK or PENDING, or of a run command (R323, R324, R338, R343). -/
def Obligations.ReplyWrittenInOrder : Prop :=
  (∀ (op : Op) (k : Cmd) (st : Status) (d : Nat) (pl : List Byte) (s : State),
    ((s.answer op k st d pl).ring k.fn k.ring).done = (s.ring k.fn k.ring).done ++
      [{ op, seq := k.seq, status := st, sealed_ := k.isSealed, detail := d, queue := k.queue, session := k.session,
         payload := if st = .ok ∨ st = .pending ∨ op = .runSteps ∨ op = .runStep then pl else [], outAddr := k.outAddr
         background := s.flights.any fun f => f.isOf op k && f.background }]) ∧
  ∀ (fn : FnId) (r : Option RingId) (x : Reply) (rest : List Reply) (s : State), (s.ring fn r).done = x :: rest →
    s.domOn 96 = true → s.pcie.up = true → (s.ring fn r).active = true →
    ((s.ring fn r).rqSize ≤ (s.ring fn r).rqHeld → s.deferred = [] → exec (.replyWrite fn r false false) s = .next s) ∧
    ((s.ring fn r).rqHeld < (s.ring fn r).rqSize → s.deferred = [] →
      let b := replyBytes s fn x (s.ring fn r).phase (s.ring fn r).sqHead
      ∃ t tail, exec (.replyWrite fn r false false) s = .next t ∧
        t.out = s.out ++ (if b.2.isEmpty then [] else [.write x.outAddr.toNat b.2]) ++
          [.write ((s.ring fn r).rq.toNat + 32 * (s.ring fn r).rqTail) b.1] ++ tail ∧
        (∀ e ∈ tail, ∃ v, e = .msix fn v) ∧ tail.length ≤ 1 ∧
        (t.ring fn r).done = rest ∧ (t.ring fn r).rqHeld = (s.ring fn r).rqHeld + 1 ∧
        (t.ring fn r).rqTail = (if (s.ring fn r).rqTail + 1 = (s.ring fn r).rqSize then 0 else (s.ring fn r).rqTail + 1) ∧
        (t.ring fn r).phase = ((s.ring fn r).phase != decide ((s.ring fn r).rqTail + 1 = (s.ring fn r).rqSize)))

/-! ### The whole machine -/

/-- No command stops the module: from every state every command, and every step, ends in a next state. -/
def Obligations.EveryStepAnswers : Prop :=
  (∀ (c : Instr) (s : State), ∃ t, exec c s = .next t) ∧ ∀ s : State, ∃ t, step s = .next t

/-- The queue is first in, first out, and the draws of free values only go on: a command leaves the commands that wait
behind it as they are, a step takes exactly the first of them, and no draw number is used again (log 1, log 13). -/
def Obligations.QueueAndDrawsOnlyAdvance : Prop :=
  (∀ (c : Instr) (s t : State), exec c s = .next t → t.pending = s.pending ∧ s.draws ≤ t.draws) ∧
  ∀ s t : State, step s = .next t → t.pending = s.pending.tail ∧ s.draws ≤ t.draws

/-- The module before power is sound: its memories are empty and it holds no frame. -/
def Obligations.ResetIsSound : Prop := State.reset.Sound ∧ State.reset.pending = [] ∧ CapInRange State.reset.bell

/-- Every step keeps the Range memory in its canonical form, no unlisted byte stored as zero and no address twice, the
Hearths likewise, and gives no frame of T1 or T2 to two uses: from every state that is so, whatever the command
(R221, R224, R226, R257). -/
def Obligations.StepsKeepMemoriesAndFramesSound : Prop :=
  ∀ s t : State, s.Sound → step s = .next t → t.Sound

end
end

