-- ==== Sys2Proof/Laws/State.lean ====
section
/-! SUPPORT. Each part of the state after each shared update of it. -/

namespace Sys2Proof.Machine

/-! ### Vectors -/

theorem vmod_get {α : Type} {n : Nat} (v : Vector α n) (i j : Fin n) (g : α → α) :
    (vmod v i g)[j] = if i = j then g v[j] else v[j] := by
  unfold vmod
  by_cases h : i = j
  · subst h; simp
  · have h' : i.val ≠ j.val := fun e => h (Fin.ext e)
    simp [h, h']

@[simp] theorem vmod_same {α : Type} {n : Nat} (v : Vector α n) (i : Fin n) (g : α → α) : (vmod v i g)[i] = g v[i] := by
  rw [vmod_get, if_pos rfl]

theorem vmod_other {α : Type} {n : Nat} (v : Vector α n) {i j : Fin n} (g : α → α) (h : i ≠ j) : (vmod v i g)[j] = v[j] := by
  rw [vmod_get, if_neg h]

/-! ### modFn -/

@[simp] theorem modFn_pending (s : State) (i : FnId) (g : Fn → Fn) : (s.modFn i g).pending = s.pending := rfl
@[simp] theorem modFn_time (s : State) (i : FnId) (g : Fn → Fn) : (s.modFn i g).time = s.time := rfl
@[simp] theorem modFn_feat (s : State) (i : FnId) (g : Fn → Fn) : (s.modFn i g).feat = s.feat := rfl
@[simp] theorem modFn_smith (s : State) (i : FnId) (g : Fn → Fn) : (s.modFn i g).smith = s.smith := rfl
@[simp] theorem modFn_hall (s : State) (i : FnId) (g : Fn → Fn) : (s.modFn i g).hall = s.hall := rfl
@[simp] theorem modFn_ledger (s : State) (i : FnId) (g : Fn → Fn) : (s.modFn i g).ledger = s.ledger := rfl
@[simp] theorem modFn_bell (s : State) (i : FnId) (g : Fn → Fn) : (s.modFn i g).bell = s.bell := rfl
@[simp] theorem modFn_pcie (s : State) (i : FnId) (g : Fn → Fn) : (s.modFn i g).pcie = s.pcie := rfl
@[simp] theorem modFn_tap (s : State) (i : FnId) (g : Fn → Fn) : (s.modFn i g).tap = s.tap := rfl
@[simp] theorem modFn_events (s : State) (i : FnId) (g : Fn → Fn) : (s.modFn i g).events = s.events := rfl
@[simp] theorem modFn_host (s : State) (i : FnId) (g : Fn → Fn) : (s.modFn i g).host = s.host := rfl
@[simp] theorem modFn_admin (s : State) (i : FnId) (g : Fn → Fn) : (s.modFn i g).admin = s.admin := rfl
@[simp] theorem modFn_flights (s : State) (i : FnId) (g : Fn → Fn) : (s.modFn i g).flights = s.flights := rfl
@[simp] theorem modFn_out (s : State) (i : FnId) (g : Fn → Fn) : (s.modFn i g).out = s.out := rfl
@[simp] theorem modFn_deferred (s : State) (i : FnId) (g : Fn → Fn) : (s.modFn i g).deferred = s.deferred := rfl
@[simp] theorem modFn_anneals (s : State) (i : FnId) (g : Fn → Fn) : (s.modFn i g).anneals = s.anneals := rfl
@[simp] theorem modFn_heatRegs (s : State) (i : FnId) (g : Fn → Fn) : (s.modFn i g).heatRegs = s.heatRegs := rfl
@[simp] theorem modFn_fns (s : State) (i : FnId) (g : Fn → Fn) : (s.modFn i g).fns = vmod s.fns i g := rfl
@[simp] theorem modFn_forges (s : State) (i : FnId) (g : Fn → Fn) : (s.modFn i g).forges = s.forges := rfl
@[simp] theorem modFn_hearth (s : State) (i : FnId) (g : Fn → Fn) : (s.modFn i g).hearth = s.hearth := rfl
@[simp] theorem modFn_ram (s : State) (i : FnId) (g : Fn → Fn) : (s.modFn i g).ram = s.ram := rfl
@[simp] theorem modFn_t1 (s : State) (i : FnId) (g : Fn → Fn) : (s.modFn i g).t1 = s.t1 := rfl
@[simp] theorem modFn_t2 (s : State) (i : FnId) (g : Fn → Fn) : (s.modFn i g).t2 = s.t2 := rfl
@[simp] theorem modFn_retired (s : State) (i : FnId) (g : Fn → Fn) : (s.modFn i g).retired = s.retired := rfl
@[simp] theorem modFn_models (s : State) (i : FnId) (g : Fn → Fn) : (s.modFn i g).models = s.models := rfl
@[simp] theorem modFn_cache (s : State) (i : FnId) (g : Fn → Fn) : (s.modFn i g).cache = s.cache := rfl
@[simp] theorem modFn_near (s : State) (i : FnId) (g : Fn → Fn) : (s.modFn i g).near = s.near := rfl
@[simp] theorem modFn_migr (s : State) (i : FnId) (g : Fn → Fn) : (s.modFn i g).migr = s.migr := rfl
@[simp] theorem modFn_plinths (s : State) (i : FnId) (g : Fn → Fn) : (s.modFn i g).plinths = s.plinths := rfl
@[simp] theorem modFn_ports (s : State) (i : FnId) (g : Fn → Fn) : (s.modFn i g).ports = s.ports := rfl
@[simp] theorem modFn_coll (s : State) (i : FnId) (g : Fn → Fn) : (s.modFn i g).coll = s.coll := rfl
@[simp] theorem modFn_draws (s : State) (i : FnId) (g : Fn → Fn) : (s.modFn i g).draws = s.draws := rfl
@[simp] theorem modFn_installs (s : State) (i : FnId) (g : Fn → Fn) : (s.modFn i g).installs = s.installs := rfl

/-! ### modForge -/

@[simp] theorem modForge_pending (s : State) (i : ForgeId) (g : Forge → Forge) : (s.modForge i g).pending = s.pending := rfl
@[simp] theorem modForge_time (s : State) (i : ForgeId) (g : Forge → Forge) : (s.modForge i g).time = s.time := rfl
@[simp] theorem modForge_feat (s : State) (i : ForgeId) (g : Forge → Forge) : (s.modForge i g).feat = s.feat := rfl
@[simp] theorem modForge_smith (s : State) (i : ForgeId) (g : Forge → Forge) : (s.modForge i g).smith = s.smith := rfl
@[simp] theorem modForge_hall (s : State) (i : ForgeId) (g : Forge → Forge) : (s.modForge i g).hall = s.hall := rfl
@[simp] theorem modForge_ledger (s : State) (i : ForgeId) (g : Forge → Forge) : (s.modForge i g).ledger = s.ledger := rfl
@[simp] theorem modForge_bell (s : State) (i : ForgeId) (g : Forge → Forge) : (s.modForge i g).bell = s.bell := rfl
@[simp] theorem modForge_pcie (s : State) (i : ForgeId) (g : Forge → Forge) : (s.modForge i g).pcie = s.pcie := rfl
@[simp] theorem modForge_tap (s : State) (i : ForgeId) (g : Forge → Forge) : (s.modForge i g).tap = s.tap := rfl
@[simp] theorem modForge_events (s : State) (i : ForgeId) (g : Forge → Forge) : (s.modForge i g).events = s.events := rfl
@[simp] theorem modForge_host (s : State) (i : ForgeId) (g : Forge → Forge) : (s.modForge i g).host = s.host := rfl
@[simp] theorem modForge_admin (s : State) (i : ForgeId) (g : Forge → Forge) : (s.modForge i g).admin = s.admin := rfl
@[simp] theorem modForge_flights (s : State) (i : ForgeId) (g : Forge → Forge) : (s.modForge i g).flights = s.flights := rfl
@[simp] theorem modForge_out (s : State) (i : ForgeId) (g : Forge → Forge) : (s.modForge i g).out = s.out := rfl
@[simp] theorem modForge_deferred (s : State) (i : ForgeId) (g : Forge → Forge) : (s.modForge i g).deferred = s.deferred := rfl
@[simp] theorem modForge_anneals (s : State) (i : ForgeId) (g : Forge → Forge) : (s.modForge i g).anneals = s.anneals := rfl
@[simp] theorem modForge_heatRegs (s : State) (i : ForgeId) (g : Forge → Forge) : (s.modForge i g).heatRegs = s.heatRegs := rfl
@[simp] theorem modForge_fns (s : State) (i : ForgeId) (g : Forge → Forge) : (s.modForge i g).fns = s.fns := rfl
@[simp] theorem modForge_forges (s : State) (i : ForgeId) (g : Forge → Forge) : (s.modForge i g).forges = vmod s.forges i g := rfl
@[simp] theorem modForge_hearth (s : State) (i : ForgeId) (g : Forge → Forge) : (s.modForge i g).hearth = s.hearth := rfl
@[simp] theorem modForge_ram (s : State) (i : ForgeId) (g : Forge → Forge) : (s.modForge i g).ram = s.ram := rfl
@[simp] theorem modForge_t1 (s : State) (i : ForgeId) (g : Forge → Forge) : (s.modForge i g).t1 = s.t1 := rfl
@[simp] theorem modForge_t2 (s : State) (i : ForgeId) (g : Forge → Forge) : (s.modForge i g).t2 = s.t2 := rfl
@[simp] theorem modForge_retired (s : State) (i : ForgeId) (g : Forge → Forge) : (s.modForge i g).retired = s.retired := rfl
@[simp] theorem modForge_models (s : State) (i : ForgeId) (g : Forge → Forge) : (s.modForge i g).models = s.models := rfl
@[simp] theorem modForge_cache (s : State) (i : ForgeId) (g : Forge → Forge) : (s.modForge i g).cache = s.cache := rfl
@[simp] theorem modForge_near (s : State) (i : ForgeId) (g : Forge → Forge) : (s.modForge i g).near = s.near := rfl
@[simp] theorem modForge_migr (s : State) (i : ForgeId) (g : Forge → Forge) : (s.modForge i g).migr = s.migr := rfl
@[simp] theorem modForge_plinths (s : State) (i : ForgeId) (g : Forge → Forge) : (s.modForge i g).plinths = s.plinths := rfl
@[simp] theorem modForge_ports (s : State) (i : ForgeId) (g : Forge → Forge) : (s.modForge i g).ports = s.ports := rfl
@[simp] theorem modForge_coll (s : State) (i : ForgeId) (g : Forge → Forge) : (s.modForge i g).coll = s.coll := rfl
@[simp] theorem modForge_draws (s : State) (i : ForgeId) (g : Forge → Forge) : (s.modForge i g).draws = s.draws := rfl
@[simp] theorem modForge_installs (s : State) (i : ForgeId) (g : Forge → Forge) : (s.modForge i g).installs = s.installs := rfl

/-! ### modHost -/

@[simp] theorem modHost_pending (s : State) (i : FnId) (g : FnHost → FnHost) : (s.modHost i g).pending = s.pending := rfl
@[simp] theorem modHost_time (s : State) (i : FnId) (g : FnHost → FnHost) : (s.modHost i g).time = s.time := rfl
@[simp] theorem modHost_feat (s : State) (i : FnId) (g : FnHost → FnHost) : (s.modHost i g).feat = s.feat := rfl
@[simp] theorem modHost_smith (s : State) (i : FnId) (g : FnHost → FnHost) : (s.modHost i g).smith = s.smith := rfl
@[simp] theorem modHost_hall (s : State) (i : FnId) (g : FnHost → FnHost) : (s.modHost i g).hall = s.hall := rfl
@[simp] theorem modHost_ledger (s : State) (i : FnId) (g : FnHost → FnHost) : (s.modHost i g).ledger = s.ledger := rfl
@[simp] theorem modHost_bell (s : State) (i : FnId) (g : FnHost → FnHost) : (s.modHost i g).bell = s.bell := rfl
@[simp] theorem modHost_pcie (s : State) (i : FnId) (g : FnHost → FnHost) : (s.modHost i g).pcie = s.pcie := rfl
@[simp] theorem modHost_tap (s : State) (i : FnId) (g : FnHost → FnHost) : (s.modHost i g).tap = s.tap := rfl
@[simp] theorem modHost_events (s : State) (i : FnId) (g : FnHost → FnHost) : (s.modHost i g).events = s.events := rfl
@[simp] theorem modHost_host (s : State) (i : FnId) (g : FnHost → FnHost) : (s.modHost i g).host = vmod s.host i g := rfl
@[simp] theorem modHost_admin (s : State) (i : FnId) (g : FnHost → FnHost) : (s.modHost i g).admin = s.admin := rfl
@[simp] theorem modHost_flights (s : State) (i : FnId) (g : FnHost → FnHost) : (s.modHost i g).flights = s.flights := rfl
@[simp] theorem modHost_out (s : State) (i : FnId) (g : FnHost → FnHost) : (s.modHost i g).out = s.out := rfl
@[simp] theorem modHost_deferred (s : State) (i : FnId) (g : FnHost → FnHost) : (s.modHost i g).deferred = s.deferred := rfl
@[simp] theorem modHost_anneals (s : State) (i : FnId) (g : FnHost → FnHost) : (s.modHost i g).anneals = s.anneals := rfl
@[simp] theorem modHost_heatRegs (s : State) (i : FnId) (g : FnHost → FnHost) : (s.modHost i g).heatRegs = s.heatRegs := rfl
@[simp] theorem modHost_fns (s : State) (i : FnId) (g : FnHost → FnHost) : (s.modHost i g).fns = s.fns := rfl
@[simp] theorem modHost_forges (s : State) (i : FnId) (g : FnHost → FnHost) : (s.modHost i g).forges = s.forges := rfl
@[simp] theorem modHost_hearth (s : State) (i : FnId) (g : FnHost → FnHost) : (s.modHost i g).hearth = s.hearth := rfl
@[simp] theorem modHost_ram (s : State) (i : FnId) (g : FnHost → FnHost) : (s.modHost i g).ram = s.ram := rfl
@[simp] theorem modHost_t1 (s : State) (i : FnId) (g : FnHost → FnHost) : (s.modHost i g).t1 = s.t1 := rfl
@[simp] theorem modHost_t2 (s : State) (i : FnId) (g : FnHost → FnHost) : (s.modHost i g).t2 = s.t2 := rfl
@[simp] theorem modHost_retired (s : State) (i : FnId) (g : FnHost → FnHost) : (s.modHost i g).retired = s.retired := rfl
@[simp] theorem modHost_models (s : State) (i : FnId) (g : FnHost → FnHost) : (s.modHost i g).models = s.models := rfl
@[simp] theorem modHost_cache (s : State) (i : FnId) (g : FnHost → FnHost) : (s.modHost i g).cache = s.cache := rfl
@[simp] theorem modHost_near (s : State) (i : FnId) (g : FnHost → FnHost) : (s.modHost i g).near = s.near := rfl
@[simp] theorem modHost_migr (s : State) (i : FnId) (g : FnHost → FnHost) : (s.modHost i g).migr = s.migr := rfl
@[simp] theorem modHost_plinths (s : State) (i : FnId) (g : FnHost → FnHost) : (s.modHost i g).plinths = s.plinths := rfl
@[simp] theorem modHost_ports (s : State) (i : FnId) (g : FnHost → FnHost) : (s.modHost i g).ports = s.ports := rfl
@[simp] theorem modHost_coll (s : State) (i : FnId) (g : FnHost → FnHost) : (s.modHost i g).coll = s.coll := rfl
@[simp] theorem modHost_draws (s : State) (i : FnId) (g : FnHost → FnHost) : (s.modHost i g).draws = s.draws := rfl
@[simp] theorem modHost_installs (s : State) (i : FnId) (g : FnHost → FnHost) : (s.modHost i g).installs = s.installs := rfl

/-! ### modPlinth -/

@[simp] theorem modPlinth_pending (s : State) (i : PlinthId) (g : Plinth → Plinth) : (s.modPlinth i g).pending = s.pending := rfl
@[simp] theorem modPlinth_time (s : State) (i : PlinthId) (g : Plinth → Plinth) : (s.modPlinth i g).time = s.time := rfl
@[simp] theorem modPlinth_feat (s : State) (i : PlinthId) (g : Plinth → Plinth) : (s.modPlinth i g).feat = s.feat := rfl
@[simp] theorem modPlinth_smith (s : State) (i : PlinthId) (g : Plinth → Plinth) : (s.modPlinth i g).smith = s.smith := rfl
@[simp] theorem modPlinth_hall (s : State) (i : PlinthId) (g : Plinth → Plinth) : (s.modPlinth i g).hall = s.hall := rfl
@[simp] theorem modPlinth_ledger (s : State) (i : PlinthId) (g : Plinth → Plinth) : (s.modPlinth i g).ledger = s.ledger := rfl
@[simp] theorem modPlinth_bell (s : State) (i : PlinthId) (g : Plinth → Plinth) : (s.modPlinth i g).bell = s.bell := rfl
@[simp] theorem modPlinth_pcie (s : State) (i : PlinthId) (g : Plinth → Plinth) : (s.modPlinth i g).pcie = s.pcie := rfl
@[simp] theorem modPlinth_tap (s : State) (i : PlinthId) (g : Plinth → Plinth) : (s.modPlinth i g).tap = s.tap := rfl
@[simp] theorem modPlinth_events (s : State) (i : PlinthId) (g : Plinth → Plinth) : (s.modPlinth i g).events = s.events := rfl
@[simp] theorem modPlinth_host (s : State) (i : PlinthId) (g : Plinth → Plinth) : (s.modPlinth i g).host = s.host := rfl
@[simp] theorem modPlinth_admin (s : State) (i : PlinthId) (g : Plinth → Plinth) : (s.modPlinth i g).admin = s.admin := rfl
@[simp] theorem modPlinth_flights (s : State) (i : PlinthId) (g : Plinth → Plinth) : (s.modPlinth i g).flights = s.flights := rfl
@[simp] theorem modPlinth_out (s : State) (i : PlinthId) (g : Plinth → Plinth) : (s.modPlinth i g).out = s.out := rfl
@[simp] theorem modPlinth_deferred (s : State) (i : PlinthId) (g : Plinth → Plinth) : (s.modPlinth i g).deferred = s.deferred := rfl
@[simp] theorem modPlinth_anneals (s : State) (i : PlinthId) (g : Plinth → Plinth) : (s.modPlinth i g).anneals = s.anneals := rfl
@[simp] theorem modPlinth_heatRegs (s : State) (i : PlinthId) (g : Plinth → Plinth) : (s.modPlinth i g).heatRegs = s.heatRegs := rfl
@[simp] theorem modPlinth_fns (s : State) (i : PlinthId) (g : Plinth → Plinth) : (s.modPlinth i g).fns = s.fns := rfl
@[simp] theorem modPlinth_forges (s : State) (i : PlinthId) (g : Plinth → Plinth) : (s.modPlinth i g).forges = s.forges := rfl
@[simp] theorem modPlinth_hearth (s : State) (i : PlinthId) (g : Plinth → Plinth) : (s.modPlinth i g).hearth = s.hearth := rfl
@[simp] theorem modPlinth_ram (s : State) (i : PlinthId) (g : Plinth → Plinth) : (s.modPlinth i g).ram = s.ram := rfl
@[simp] theorem modPlinth_t1 (s : State) (i : PlinthId) (g : Plinth → Plinth) : (s.modPlinth i g).t1 = s.t1 := rfl
@[simp] theorem modPlinth_t2 (s : State) (i : PlinthId) (g : Plinth → Plinth) : (s.modPlinth i g).t2 = s.t2 := rfl
@[simp] theorem modPlinth_retired (s : State) (i : PlinthId) (g : Plinth → Plinth) : (s.modPlinth i g).retired = s.retired := rfl
@[simp] theorem modPlinth_models (s : State) (i : PlinthId) (g : Plinth → Plinth) : (s.modPlinth i g).models = s.models := rfl
@[simp] theorem modPlinth_cache (s : State) (i : PlinthId) (g : Plinth → Plinth) : (s.modPlinth i g).cache = s.cache := rfl
@[simp] theorem modPlinth_near (s : State) (i : PlinthId) (g : Plinth → Plinth) : (s.modPlinth i g).near = s.near := rfl
@[simp] theorem modPlinth_migr (s : State) (i : PlinthId) (g : Plinth → Plinth) : (s.modPlinth i g).migr = s.migr := rfl
@[simp] theorem modPlinth_plinths (s : State) (i : PlinthId) (g : Plinth → Plinth) : (s.modPlinth i g).plinths = vmod s.plinths i g := rfl
@[simp] theorem modPlinth_ports (s : State) (i : PlinthId) (g : Plinth → Plinth) : (s.modPlinth i g).ports = s.ports := rfl
@[simp] theorem modPlinth_coll (s : State) (i : PlinthId) (g : Plinth → Plinth) : (s.modPlinth i g).coll = s.coll := rfl
@[simp] theorem modPlinth_draws (s : State) (i : PlinthId) (g : Plinth → Plinth) : (s.modPlinth i g).draws = s.draws := rfl
@[simp] theorem modPlinth_installs (s : State) (i : PlinthId) (g : Plinth → Plinth) : (s.modPlinth i g).installs = s.installs := rfl

/-! ### modPort -/

@[simp] theorem modPort_pending (s : State) (i : PortId) (g : Port → Port) : (s.modPort i g).pending = s.pending := rfl
@[simp] theorem modPort_time (s : State) (i : PortId) (g : Port → Port) : (s.modPort i g).time = s.time := rfl
@[simp] theorem modPort_feat (s : State) (i : PortId) (g : Port → Port) : (s.modPort i g).feat = s.feat := rfl
@[simp] theorem modPort_smith (s : State) (i : PortId) (g : Port → Port) : (s.modPort i g).smith = s.smith := rfl
@[simp] theorem modPort_hall (s : State) (i : PortId) (g : Port → Port) : (s.modPort i g).hall = s.hall := rfl
@[simp] theorem modPort_ledger (s : State) (i : PortId) (g : Port → Port) : (s.modPort i g).ledger = s.ledger := rfl
@[simp] theorem modPort_bell (s : State) (i : PortId) (g : Port → Port) : (s.modPort i g).bell = s.bell := rfl
@[simp] theorem modPort_pcie (s : State) (i : PortId) (g : Port → Port) : (s.modPort i g).pcie = s.pcie := rfl
@[simp] theorem modPort_tap (s : State) (i : PortId) (g : Port → Port) : (s.modPort i g).tap = s.tap := rfl
@[simp] theorem modPort_events (s : State) (i : PortId) (g : Port → Port) : (s.modPort i g).events = s.events := rfl
@[simp] theorem modPort_host (s : State) (i : PortId) (g : Port → Port) : (s.modPort i g).host = s.host := rfl
@[simp] theorem modPort_admin (s : State) (i : PortId) (g : Port → Port) : (s.modPort i g).admin = s.admin := rfl
@[simp] theorem modPort_flights (s : State) (i : PortId) (g : Port → Port) : (s.modPort i g).flights = s.flights := rfl
@[simp] theorem modPort_out (s : State) (i : PortId) (g : Port → Port) : (s.modPort i g).out = s.out := rfl
@[simp] theorem modPort_deferred (s : State) (i : PortId) (g : Port → Port) : (s.modPort i g).deferred = s.deferred := rfl
@[simp] theorem modPort_anneals (s : State) (i : PortId) (g : Port → Port) : (s.modPort i g).anneals = s.anneals := rfl
@[simp] theorem modPort_heatRegs (s : State) (i : PortId) (g : Port → Port) : (s.modPort i g).heatRegs = s.heatRegs := rfl
@[simp] theorem modPort_fns (s : State) (i : PortId) (g : Port → Port) : (s.modPort i g).fns = s.fns := rfl
@[simp] theorem modPort_forges (s : State) (i : PortId) (g : Port → Port) : (s.modPort i g).forges = s.forges := rfl
@[simp] theorem modPort_hearth (s : State) (i : PortId) (g : Port → Port) : (s.modPort i g).hearth = s.hearth := rfl
@[simp] theorem modPort_ram (s : State) (i : PortId) (g : Port → Port) : (s.modPort i g).ram = s.ram := rfl
@[simp] theorem modPort_t1 (s : State) (i : PortId) (g : Port → Port) : (s.modPort i g).t1 = s.t1 := rfl
@[simp] theorem modPort_t2 (s : State) (i : PortId) (g : Port → Port) : (s.modPort i g).t2 = s.t2 := rfl
@[simp] theorem modPort_retired (s : State) (i : PortId) (g : Port → Port) : (s.modPort i g).retired = s.retired := rfl
@[simp] theorem modPort_models (s : State) (i : PortId) (g : Port → Port) : (s.modPort i g).models = s.models := rfl
@[simp] theorem modPort_cache (s : State) (i : PortId) (g : Port → Port) : (s.modPort i g).cache = s.cache := rfl
@[simp] theorem modPort_near (s : State) (i : PortId) (g : Port → Port) : (s.modPort i g).near = s.near := rfl
@[simp] theorem modPort_migr (s : State) (i : PortId) (g : Port → Port) : (s.modPort i g).migr = s.migr := rfl
@[simp] theorem modPort_plinths (s : State) (i : PortId) (g : Port → Port) : (s.modPort i g).plinths = s.plinths := rfl
@[simp] theorem modPort_ports (s : State) (i : PortId) (g : Port → Port) : (s.modPort i g).ports = vmod s.ports i g := rfl
@[simp] theorem modPort_coll (s : State) (i : PortId) (g : Port → Port) : (s.modPort i g).coll = s.coll := rfl
@[simp] theorem modPort_draws (s : State) (i : PortId) (g : Port → Port) : (s.modPort i g).draws = s.draws := rfl
@[simp] theorem modPort_installs (s : State) (i : PortId) (g : Port → Port) : (s.modPort i g).installs = s.installs := rfl

/-! ### modBell -/

@[simp] theorem modBell_pending (s : State) (g : Bellows → Bellows) : (s.modBell g).pending = s.pending := rfl
@[simp] theorem modBell_time (s : State) (g : Bellows → Bellows) : (s.modBell g).time = s.time := rfl
@[simp] theorem modBell_feat (s : State) (g : Bellows → Bellows) : (s.modBell g).feat = s.feat := rfl
@[simp] theorem modBell_smith (s : State) (g : Bellows → Bellows) : (s.modBell g).smith = s.smith := rfl
@[simp] theorem modBell_hall (s : State) (g : Bellows → Bellows) : (s.modBell g).hall = s.hall := rfl
@[simp] theorem modBell_ledger (s : State) (g : Bellows → Bellows) : (s.modBell g).ledger = s.ledger := rfl
@[simp] theorem modBell_bell (s : State) (g : Bellows → Bellows) : (s.modBell g).bell = g s.bell := rfl
@[simp] theorem modBell_pcie (s : State) (g : Bellows → Bellows) : (s.modBell g).pcie = s.pcie := rfl
@[simp] theorem modBell_tap (s : State) (g : Bellows → Bellows) : (s.modBell g).tap = s.tap := rfl
@[simp] theorem modBell_events (s : State) (g : Bellows → Bellows) : (s.modBell g).events = s.events := rfl
@[simp] theorem modBell_host (s : State) (g : Bellows → Bellows) : (s.modBell g).host = s.host := rfl
@[simp] theorem modBell_admin (s : State) (g : Bellows → Bellows) : (s.modBell g).admin = s.admin := rfl
@[simp] theorem modBell_flights (s : State) (g : Bellows → Bellows) : (s.modBell g).flights = s.flights := rfl
@[simp] theorem modBell_out (s : State) (g : Bellows → Bellows) : (s.modBell g).out = s.out := rfl
@[simp] theorem modBell_deferred (s : State) (g : Bellows → Bellows) : (s.modBell g).deferred = s.deferred := rfl
@[simp] theorem modBell_anneals (s : State) (g : Bellows → Bellows) : (s.modBell g).anneals = s.anneals := rfl
@[simp] theorem modBell_heatRegs (s : State) (g : Bellows → Bellows) : (s.modBell g).heatRegs = s.heatRegs := rfl
@[simp] theorem modBell_fns (s : State) (g : Bellows → Bellows) : (s.modBell g).fns = s.fns := rfl
@[simp] theorem modBell_forges (s : State) (g : Bellows → Bellows) : (s.modBell g).forges = s.forges := rfl
@[simp] theorem modBell_hearth (s : State) (g : Bellows → Bellows) : (s.modBell g).hearth = s.hearth := rfl
@[simp] theorem modBell_ram (s : State) (g : Bellows → Bellows) : (s.modBell g).ram = s.ram := rfl
@[simp] theorem modBell_t1 (s : State) (g : Bellows → Bellows) : (s.modBell g).t1 = s.t1 := rfl
@[simp] theorem modBell_t2 (s : State) (g : Bellows → Bellows) : (s.modBell g).t2 = s.t2 := rfl
@[simp] theorem modBell_retired (s : State) (g : Bellows → Bellows) : (s.modBell g).retired = s.retired := rfl
@[simp] theorem modBell_models (s : State) (g : Bellows → Bellows) : (s.modBell g).models = s.models := rfl
@[simp] theorem modBell_cache (s : State) (g : Bellows → Bellows) : (s.modBell g).cache = s.cache := rfl
@[simp] theorem modBell_near (s : State) (g : Bellows → Bellows) : (s.modBell g).near = s.near := rfl
@[simp] theorem modBell_migr (s : State) (g : Bellows → Bellows) : (s.modBell g).migr = s.migr := rfl
@[simp] theorem modBell_plinths (s : State) (g : Bellows → Bellows) : (s.modBell g).plinths = s.plinths := rfl
@[simp] theorem modBell_ports (s : State) (g : Bellows → Bellows) : (s.modBell g).ports = s.ports := rfl
@[simp] theorem modBell_coll (s : State) (g : Bellows → Bellows) : (s.modBell g).coll = s.coll := rfl
@[simp] theorem modBell_draws (s : State) (g : Bellows → Bellows) : (s.modBell g).draws = s.draws := rfl
@[simp] theorem modBell_installs (s : State) (g : Bellows → Bellows) : (s.modBell g).installs = s.installs := rfl

/-! ### modHall -/

@[simp] theorem modHall_pending (s : State) (g : Hallmark → Hallmark) : (s.modHall g).pending = s.pending := rfl
@[simp] theorem modHall_time (s : State) (g : Hallmark → Hallmark) : (s.modHall g).time = s.time := rfl
@[simp] theorem modHall_feat (s : State) (g : Hallmark → Hallmark) : (s.modHall g).feat = s.feat := rfl
@[simp] theorem modHall_smith (s : State) (g : Hallmark → Hallmark) : (s.modHall g).smith = s.smith := rfl
@[simp] theorem modHall_hall (s : State) (g : Hallmark → Hallmark) : (s.modHall g).hall = g s.hall := rfl
@[simp] theorem modHall_ledger (s : State) (g : Hallmark → Hallmark) : (s.modHall g).ledger = s.ledger := rfl
@[simp] theorem modHall_bell (s : State) (g : Hallmark → Hallmark) : (s.modHall g).bell = s.bell := rfl
@[simp] theorem modHall_pcie (s : State) (g : Hallmark → Hallmark) : (s.modHall g).pcie = s.pcie := rfl
@[simp] theorem modHall_tap (s : State) (g : Hallmark → Hallmark) : (s.modHall g).tap = s.tap := rfl
@[simp] theorem modHall_events (s : State) (g : Hallmark → Hallmark) : (s.modHall g).events = s.events := rfl
@[simp] theorem modHall_host (s : State) (g : Hallmark → Hallmark) : (s.modHall g).host = s.host := rfl
@[simp] theorem modHall_admin (s : State) (g : Hallmark → Hallmark) : (s.modHall g).admin = s.admin := rfl
@[simp] theorem modHall_flights (s : State) (g : Hallmark → Hallmark) : (s.modHall g).flights = s.flights := rfl
@[simp] theorem modHall_out (s : State) (g : Hallmark → Hallmark) : (s.modHall g).out = s.out := rfl
@[simp] theorem modHall_deferred (s : State) (g : Hallmark → Hallmark) : (s.modHall g).deferred = s.deferred := rfl
@[simp] theorem modHall_anneals (s : State) (g : Hallmark → Hallmark) : (s.modHall g).anneals = s.anneals := rfl
@[simp] theorem modHall_heatRegs (s : State) (g : Hallmark → Hallmark) : (s.modHall g).heatRegs = s.heatRegs := rfl
@[simp] theorem modHall_fns (s : State) (g : Hallmark → Hallmark) : (s.modHall g).fns = s.fns := rfl
@[simp] theorem modHall_forges (s : State) (g : Hallmark → Hallmark) : (s.modHall g).forges = s.forges := rfl
@[simp] theorem modHall_hearth (s : State) (g : Hallmark → Hallmark) : (s.modHall g).hearth = s.hearth := rfl
@[simp] theorem modHall_ram (s : State) (g : Hallmark → Hallmark) : (s.modHall g).ram = s.ram := rfl
@[simp] theorem modHall_t1 (s : State) (g : Hallmark → Hallmark) : (s.modHall g).t1 = s.t1 := rfl
@[simp] theorem modHall_t2 (s : State) (g : Hallmark → Hallmark) : (s.modHall g).t2 = s.t2 := rfl
@[simp] theorem modHall_retired (s : State) (g : Hallmark → Hallmark) : (s.modHall g).retired = s.retired := rfl
@[simp] theorem modHall_models (s : State) (g : Hallmark → Hallmark) : (s.modHall g).models = s.models := rfl
@[simp] theorem modHall_cache (s : State) (g : Hallmark → Hallmark) : (s.modHall g).cache = s.cache := rfl
@[simp] theorem modHall_near (s : State) (g : Hallmark → Hallmark) : (s.modHall g).near = s.near := rfl
@[simp] theorem modHall_migr (s : State) (g : Hallmark → Hallmark) : (s.modHall g).migr = s.migr := rfl
@[simp] theorem modHall_plinths (s : State) (g : Hallmark → Hallmark) : (s.modHall g).plinths = s.plinths := rfl
@[simp] theorem modHall_ports (s : State) (g : Hallmark → Hallmark) : (s.modHall g).ports = s.ports := rfl
@[simp] theorem modHall_coll (s : State) (g : Hallmark → Hallmark) : (s.modHall g).coll = s.coll := rfl
@[simp] theorem modHall_draws (s : State) (g : Hallmark → Hallmark) : (s.modHall g).draws = s.draws := rfl
@[simp] theorem modHall_installs (s : State) (g : Hallmark → Hallmark) : (s.modHall g).installs = s.installs := rfl

/-! ### modNear -/

@[simp] theorem modNear_pending (s : State) (g : Near → Near) : (s.modNear g).pending = s.pending := rfl
@[simp] theorem modNear_time (s : State) (g : Near → Near) : (s.modNear g).time = s.time := rfl
@[simp] theorem modNear_feat (s : State) (g : Near → Near) : (s.modNear g).feat = s.feat := rfl
@[simp] theorem modNear_smith (s : State) (g : Near → Near) : (s.modNear g).smith = s.smith := rfl
@[simp] theorem modNear_hall (s : State) (g : Near → Near) : (s.modNear g).hall = s.hall := rfl
@[simp] theorem modNear_ledger (s : State) (g : Near → Near) : (s.modNear g).ledger = s.ledger := rfl
@[simp] theorem modNear_bell (s : State) (g : Near → Near) : (s.modNear g).bell = s.bell := rfl
@[simp] theorem modNear_pcie (s : State) (g : Near → Near) : (s.modNear g).pcie = s.pcie := rfl
@[simp] theorem modNear_tap (s : State) (g : Near → Near) : (s.modNear g).tap = s.tap := rfl
@[simp] theorem modNear_events (s : State) (g : Near → Near) : (s.modNear g).events = s.events := rfl
@[simp] theorem modNear_host (s : State) (g : Near → Near) : (s.modNear g).host = s.host := rfl
@[simp] theorem modNear_admin (s : State) (g : Near → Near) : (s.modNear g).admin = s.admin := rfl
@[simp] theorem modNear_flights (s : State) (g : Near → Near) : (s.modNear g).flights = s.flights := rfl
@[simp] theorem modNear_out (s : State) (g : Near → Near) : (s.modNear g).out = s.out := rfl
@[simp] theorem modNear_deferred (s : State) (g : Near → Near) : (s.modNear g).deferred = s.deferred := rfl
@[simp] theorem modNear_anneals (s : State) (g : Near → Near) : (s.modNear g).anneals = s.anneals := rfl
@[simp] theorem modNear_heatRegs (s : State) (g : Near → Near) : (s.modNear g).heatRegs = s.heatRegs := rfl
@[simp] theorem modNear_fns (s : State) (g : Near → Near) : (s.modNear g).fns = s.fns := rfl
@[simp] theorem modNear_forges (s : State) (g : Near → Near) : (s.modNear g).forges = s.forges := rfl
@[simp] theorem modNear_hearth (s : State) (g : Near → Near) : (s.modNear g).hearth = s.hearth := rfl
@[simp] theorem modNear_ram (s : State) (g : Near → Near) : (s.modNear g).ram = s.ram := rfl
@[simp] theorem modNear_t1 (s : State) (g : Near → Near) : (s.modNear g).t1 = s.t1 := rfl
@[simp] theorem modNear_t2 (s : State) (g : Near → Near) : (s.modNear g).t2 = s.t2 := rfl
@[simp] theorem modNear_retired (s : State) (g : Near → Near) : (s.modNear g).retired = s.retired := rfl
@[simp] theorem modNear_models (s : State) (g : Near → Near) : (s.modNear g).models = s.models := rfl
@[simp] theorem modNear_cache (s : State) (g : Near → Near) : (s.modNear g).cache = s.cache := rfl
@[simp] theorem modNear_near (s : State) (g : Near → Near) : (s.modNear g).near = g s.near := rfl
@[simp] theorem modNear_migr (s : State) (g : Near → Near) : (s.modNear g).migr = s.migr := rfl
@[simp] theorem modNear_plinths (s : State) (g : Near → Near) : (s.modNear g).plinths = s.plinths := rfl
@[simp] theorem modNear_ports (s : State) (g : Near → Near) : (s.modNear g).ports = s.ports := rfl
@[simp] theorem modNear_coll (s : State) (g : Near → Near) : (s.modNear g).coll = s.coll := rfl
@[simp] theorem modNear_draws (s : State) (g : Near → Near) : (s.modNear g).draws = s.draws := rfl
@[simp] theorem modNear_installs (s : State) (g : Near → Near) : (s.modNear g).installs = s.installs := rfl

/-! ### modChan -/

@[simp] theorem modChan_pending (s : State) (i : ChanId) (g : Chan → Chan) : (s.modChan i g).pending = s.pending := rfl
@[simp] theorem modChan_time (s : State) (i : ChanId) (g : Chan → Chan) : (s.modChan i g).time = s.time := rfl
@[simp] theorem modChan_feat (s : State) (i : ChanId) (g : Chan → Chan) : (s.modChan i g).feat = s.feat := rfl
@[simp] theorem modChan_smith (s : State) (i : ChanId) (g : Chan → Chan) : (s.modChan i g).smith = s.smith := rfl
@[simp] theorem modChan_hall (s : State) (i : ChanId) (g : Chan → Chan) : (s.modChan i g).hall = s.hall := rfl
@[simp] theorem modChan_ledger (s : State) (i : ChanId) (g : Chan → Chan) : (s.modChan i g).ledger = s.ledger := rfl
@[simp] theorem modChan_bell (s : State) (i : ChanId) (g : Chan → Chan) : (s.modChan i g).bell = s.bell := rfl
@[simp] theorem modChan_pcie (s : State) (i : ChanId) (g : Chan → Chan) : (s.modChan i g).pcie = s.pcie := rfl
@[simp] theorem modChan_tap (s : State) (i : ChanId) (g : Chan → Chan) : (s.modChan i g).tap = s.tap := rfl
@[simp] theorem modChan_events (s : State) (i : ChanId) (g : Chan → Chan) : (s.modChan i g).events = s.events := rfl
@[simp] theorem modChan_host (s : State) (i : ChanId) (g : Chan → Chan) : (s.modChan i g).host = s.host := rfl
@[simp] theorem modChan_admin (s : State) (i : ChanId) (g : Chan → Chan) : (s.modChan i g).admin = s.admin := rfl
@[simp] theorem modChan_flights (s : State) (i : ChanId) (g : Chan → Chan) : (s.modChan i g).flights = s.flights := rfl
@[simp] theorem modChan_out (s : State) (i : ChanId) (g : Chan → Chan) : (s.modChan i g).out = s.out := rfl
@[simp] theorem modChan_deferred (s : State) (i : ChanId) (g : Chan → Chan) : (s.modChan i g).deferred = s.deferred := rfl
@[simp] theorem modChan_anneals (s : State) (i : ChanId) (g : Chan → Chan) : (s.modChan i g).anneals = s.anneals := rfl
@[simp] theorem modChan_heatRegs (s : State) (i : ChanId) (g : Chan → Chan) : (s.modChan i g).heatRegs = s.heatRegs := rfl
@[simp] theorem modChan_fns (s : State) (i : ChanId) (g : Chan → Chan) : (s.modChan i g).fns = s.fns := rfl
@[simp] theorem modChan_forges (s : State) (i : ChanId) (g : Chan → Chan) : (s.modChan i g).forges = s.forges := rfl
@[simp] theorem modChan_hearth (s : State) (i : ChanId) (g : Chan → Chan) : (s.modChan i g).hearth = s.hearth := rfl
@[simp] theorem modChan_ram (s : State) (i : ChanId) (g : Chan → Chan) : (s.modChan i g).ram = s.ram := rfl
@[simp] theorem modChan_t1 (s : State) (i : ChanId) (g : Chan → Chan) : (s.modChan i g).t1 = s.t1 := rfl
@[simp] theorem modChan_t2 (s : State) (i : ChanId) (g : Chan → Chan) : (s.modChan i g).t2 = s.t2 := rfl
@[simp] theorem modChan_retired (s : State) (i : ChanId) (g : Chan → Chan) : (s.modChan i g).retired = s.retired := rfl
@[simp] theorem modChan_models (s : State) (i : ChanId) (g : Chan → Chan) : (s.modChan i g).models = s.models := rfl
@[simp] theorem modChan_cache (s : State) (i : ChanId) (g : Chan → Chan) : (s.modChan i g).cache = s.cache := rfl
@[simp] theorem modChan_near (s : State) (i : ChanId) (g : Chan → Chan) : (s.modChan i g).near = { s.near with chans := vmod s.near.chans i g } := rfl
@[simp] theorem modChan_migr (s : State) (i : ChanId) (g : Chan → Chan) : (s.modChan i g).migr = s.migr := rfl
@[simp] theorem modChan_plinths (s : State) (i : ChanId) (g : Chan → Chan) : (s.modChan i g).plinths = s.plinths := rfl
@[simp] theorem modChan_ports (s : State) (i : ChanId) (g : Chan → Chan) : (s.modChan i g).ports = s.ports := rfl
@[simp] theorem modChan_coll (s : State) (i : ChanId) (g : Chan → Chan) : (s.modChan i g).coll = s.coll := rfl
@[simp] theorem modChan_draws (s : State) (i : ChanId) (g : Chan → Chan) : (s.modChan i g).draws = s.draws := rfl
@[simp] theorem modChan_installs (s : State) (i : ChanId) (g : Chan → Chan) : (s.modChan i g).installs = s.installs := rfl

/-! ### modStack -/

@[simp] theorem modStack_pending (s : State) (i : StackId) (g : Stack → Stack) : (s.modStack i g).pending = s.pending := rfl
@[simp] theorem modStack_time (s : State) (i : StackId) (g : Stack → Stack) : (s.modStack i g).time = s.time := rfl
@[simp] theorem modStack_feat (s : State) (i : StackId) (g : Stack → Stack) : (s.modStack i g).feat = s.feat := rfl
@[simp] theorem modStack_smith (s : State) (i : StackId) (g : Stack → Stack) : (s.modStack i g).smith = s.smith := rfl
@[simp] theorem modStack_hall (s : State) (i : StackId) (g : Stack → Stack) : (s.modStack i g).hall = s.hall := rfl
@[simp] theorem modStack_ledger (s : State) (i : StackId) (g : Stack → Stack) : (s.modStack i g).ledger = s.ledger := rfl
@[simp] theorem modStack_bell (s : State) (i : StackId) (g : Stack → Stack) : (s.modStack i g).bell = s.bell := rfl
@[simp] theorem modStack_pcie (s : State) (i : StackId) (g : Stack → Stack) : (s.modStack i g).pcie = s.pcie := rfl
@[simp] theorem modStack_tap (s : State) (i : StackId) (g : Stack → Stack) : (s.modStack i g).tap = s.tap := rfl
@[simp] theorem modStack_events (s : State) (i : StackId) (g : Stack → Stack) : (s.modStack i g).events = s.events := rfl
@[simp] theorem modStack_host (s : State) (i : StackId) (g : Stack → Stack) : (s.modStack i g).host = s.host := rfl
@[simp] theorem modStack_admin (s : State) (i : StackId) (g : Stack → Stack) : (s.modStack i g).admin = s.admin := rfl
@[simp] theorem modStack_flights (s : State) (i : StackId) (g : Stack → Stack) : (s.modStack i g).flights = s.flights := rfl
@[simp] theorem modStack_out (s : State) (i : StackId) (g : Stack → Stack) : (s.modStack i g).out = s.out := rfl
@[simp] theorem modStack_deferred (s : State) (i : StackId) (g : Stack → Stack) : (s.modStack i g).deferred = s.deferred := rfl
@[simp] theorem modStack_anneals (s : State) (i : StackId) (g : Stack → Stack) : (s.modStack i g).anneals = s.anneals := rfl
@[simp] theorem modStack_heatRegs (s : State) (i : StackId) (g : Stack → Stack) : (s.modStack i g).heatRegs = s.heatRegs := rfl
@[simp] theorem modStack_fns (s : State) (i : StackId) (g : Stack → Stack) : (s.modStack i g).fns = s.fns := rfl
@[simp] theorem modStack_forges (s : State) (i : StackId) (g : Stack → Stack) : (s.modStack i g).forges = s.forges := rfl
@[simp] theorem modStack_hearth (s : State) (i : StackId) (g : Stack → Stack) : (s.modStack i g).hearth = s.hearth := rfl
@[simp] theorem modStack_ram (s : State) (i : StackId) (g : Stack → Stack) : (s.modStack i g).ram = s.ram := rfl
@[simp] theorem modStack_t1 (s : State) (i : StackId) (g : Stack → Stack) : (s.modStack i g).t1 = s.t1 := rfl
@[simp] theorem modStack_t2 (s : State) (i : StackId) (g : Stack → Stack) : (s.modStack i g).t2 = s.t2 := rfl
@[simp] theorem modStack_retired (s : State) (i : StackId) (g : Stack → Stack) : (s.modStack i g).retired = s.retired := rfl
@[simp] theorem modStack_models (s : State) (i : StackId) (g : Stack → Stack) : (s.modStack i g).models = s.models := rfl
@[simp] theorem modStack_cache (s : State) (i : StackId) (g : Stack → Stack) : (s.modStack i g).cache = s.cache := rfl
@[simp] theorem modStack_near (s : State) (i : StackId) (g : Stack → Stack) : (s.modStack i g).near = { s.near with stks := vmod s.near.stks i g } := rfl
@[simp] theorem modStack_migr (s : State) (i : StackId) (g : Stack → Stack) : (s.modStack i g).migr = s.migr := rfl
@[simp] theorem modStack_plinths (s : State) (i : StackId) (g : Stack → Stack) : (s.modStack i g).plinths = s.plinths := rfl
@[simp] theorem modStack_ports (s : State) (i : StackId) (g : Stack → Stack) : (s.modStack i g).ports = s.ports := rfl
@[simp] theorem modStack_coll (s : State) (i : StackId) (g : Stack → Stack) : (s.modStack i g).coll = s.coll := rfl
@[simp] theorem modStack_draws (s : State) (i : StackId) (g : Stack → Stack) : (s.modStack i g).draws = s.draws := rfl
@[simp] theorem modStack_installs (s : State) (i : StackId) (g : Stack → Stack) : (s.modStack i g).installs = s.installs := rfl

/-! ### send -/

@[simp] theorem send_pending (s : State) (e : HostEvent) : (s.send e).pending = s.pending := rfl
@[simp] theorem send_time (s : State) (e : HostEvent) : (s.send e).time = s.time := rfl
@[simp] theorem send_feat (s : State) (e : HostEvent) : (s.send e).feat = s.feat := rfl
@[simp] theorem send_smith (s : State) (e : HostEvent) : (s.send e).smith = s.smith := rfl
@[simp] theorem send_hall (s : State) (e : HostEvent) : (s.send e).hall = s.hall := rfl
@[simp] theorem send_ledger (s : State) (e : HostEvent) : (s.send e).ledger = s.ledger := rfl
@[simp] theorem send_bell (s : State) (e : HostEvent) : (s.send e).bell = s.bell := rfl
@[simp] theorem send_pcie (s : State) (e : HostEvent) : (s.send e).pcie = s.pcie := rfl
@[simp] theorem send_tap (s : State) (e : HostEvent) : (s.send e).tap = s.tap := rfl
@[simp] theorem send_events (s : State) (e : HostEvent) : (s.send e).events = s.events := rfl
@[simp] theorem send_host (s : State) (e : HostEvent) : (s.send e).host = s.host := rfl
@[simp] theorem send_admin (s : State) (e : HostEvent) : (s.send e).admin = s.admin := rfl
@[simp] theorem send_flights (s : State) (e : HostEvent) : (s.send e).flights = s.flights := rfl
@[simp] theorem send_out (s : State) (e : HostEvent) : (s.send e).out = s.out ++ [e] := rfl
@[simp] theorem send_deferred (s : State) (e : HostEvent) : (s.send e).deferred = s.deferred := rfl
@[simp] theorem send_anneals (s : State) (e : HostEvent) : (s.send e).anneals = s.anneals := rfl
@[simp] theorem send_heatRegs (s : State) (e : HostEvent) : (s.send e).heatRegs = s.heatRegs := rfl
@[simp] theorem send_fns (s : State) (e : HostEvent) : (s.send e).fns = s.fns := rfl
@[simp] theorem send_forges (s : State) (e : HostEvent) : (s.send e).forges = s.forges := rfl
@[simp] theorem send_hearth (s : State) (e : HostEvent) : (s.send e).hearth = s.hearth := rfl
@[simp] theorem send_ram (s : State) (e : HostEvent) : (s.send e).ram = s.ram := rfl
@[simp] theorem send_t1 (s : State) (e : HostEvent) : (s.send e).t1 = s.t1 := rfl
@[simp] theorem send_t2 (s : State) (e : HostEvent) : (s.send e).t2 = s.t2 := rfl
@[simp] theorem send_retired (s : State) (e : HostEvent) : (s.send e).retired = s.retired := rfl
@[simp] theorem send_models (s : State) (e : HostEvent) : (s.send e).models = s.models := rfl
@[simp] theorem send_cache (s : State) (e : HostEvent) : (s.send e).cache = s.cache := rfl
@[simp] theorem send_near (s : State) (e : HostEvent) : (s.send e).near = s.near := rfl
@[simp] theorem send_migr (s : State) (e : HostEvent) : (s.send e).migr = s.migr := rfl
@[simp] theorem send_plinths (s : State) (e : HostEvent) : (s.send e).plinths = s.plinths := rfl
@[simp] theorem send_ports (s : State) (e : HostEvent) : (s.send e).ports = s.ports := rfl
@[simp] theorem send_coll (s : State) (e : HostEvent) : (s.send e).coll = s.coll := rfl
@[simp] theorem send_draws (s : State) (e : HostEvent) : (s.send e).draws = s.draws := rfl
@[simp] theorem send_installs (s : State) (e : HostEvent) : (s.send e).installs = s.installs := rfl

/-! ### freeT1 -/

@[simp] theorem freeT1_pending (s : State) (u : FrameUse) : (s.freeT1 u).pending = s.pending := rfl
@[simp] theorem freeT1_time (s : State) (u : FrameUse) : (s.freeT1 u).time = s.time := rfl
@[simp] theorem freeT1_feat (s : State) (u : FrameUse) : (s.freeT1 u).feat = s.feat := rfl
@[simp] theorem freeT1_smith (s : State) (u : FrameUse) : (s.freeT1 u).smith = s.smith := rfl
@[simp] theorem freeT1_hall (s : State) (u : FrameUse) : (s.freeT1 u).hall = s.hall := rfl
@[simp] theorem freeT1_ledger (s : State) (u : FrameUse) : (s.freeT1 u).ledger = s.ledger := rfl
@[simp] theorem freeT1_bell (s : State) (u : FrameUse) : (s.freeT1 u).bell = s.bell := rfl
@[simp] theorem freeT1_pcie (s : State) (u : FrameUse) : (s.freeT1 u).pcie = s.pcie := rfl
@[simp] theorem freeT1_tap (s : State) (u : FrameUse) : (s.freeT1 u).tap = s.tap := rfl
@[simp] theorem freeT1_events (s : State) (u : FrameUse) : (s.freeT1 u).events = s.events := rfl
@[simp] theorem freeT1_host (s : State) (u : FrameUse) : (s.freeT1 u).host = s.host := rfl
@[simp] theorem freeT1_admin (s : State) (u : FrameUse) : (s.freeT1 u).admin = s.admin := rfl
@[simp] theorem freeT1_flights (s : State) (u : FrameUse) : (s.freeT1 u).flights = s.flights := rfl
@[simp] theorem freeT1_out (s : State) (u : FrameUse) : (s.freeT1 u).out = s.out := rfl
@[simp] theorem freeT1_deferred (s : State) (u : FrameUse) : (s.freeT1 u).deferred = s.deferred := rfl
@[simp] theorem freeT1_anneals (s : State) (u : FrameUse) : (s.freeT1 u).anneals = s.anneals := rfl
@[simp] theorem freeT1_heatRegs (s : State) (u : FrameUse) : (s.freeT1 u).heatRegs = s.heatRegs := rfl
@[simp] theorem freeT1_fns (s : State) (u : FrameUse) : (s.freeT1 u).fns = s.fns := rfl
@[simp] theorem freeT1_forges (s : State) (u : FrameUse) : (s.freeT1 u).forges = s.forges := rfl
@[simp] theorem freeT1_hearth (s : State) (u : FrameUse) : (s.freeT1 u).hearth = s.hearth := rfl
@[simp] theorem freeT1_ram (s : State) (u : FrameUse) : (s.freeT1 u).ram = s.ram := rfl
@[simp] theorem freeT1_t1 (s : State) (u : FrameUse) : (s.freeT1 u).t1 = s.t1.filter (·.use != u) := rfl
@[simp] theorem freeT1_t2 (s : State) (u : FrameUse) : (s.freeT1 u).t2 = s.t2 := rfl
@[simp] theorem freeT1_retired (s : State) (u : FrameUse) : (s.freeT1 u).retired = s.retired := rfl
@[simp] theorem freeT1_models (s : State) (u : FrameUse) : (s.freeT1 u).models = s.models := rfl
@[simp] theorem freeT1_cache (s : State) (u : FrameUse) : (s.freeT1 u).cache = s.cache := rfl
@[simp] theorem freeT1_near (s : State) (u : FrameUse) : (s.freeT1 u).near = s.near := rfl
@[simp] theorem freeT1_migr (s : State) (u : FrameUse) : (s.freeT1 u).migr = s.migr := rfl
@[simp] theorem freeT1_plinths (s : State) (u : FrameUse) : (s.freeT1 u).plinths = s.plinths := rfl
@[simp] theorem freeT1_ports (s : State) (u : FrameUse) : (s.freeT1 u).ports = s.ports := rfl
@[simp] theorem freeT1_coll (s : State) (u : FrameUse) : (s.freeT1 u).coll = s.coll := rfl
@[simp] theorem freeT1_draws (s : State) (u : FrameUse) : (s.freeT1 u).draws = s.draws := rfl
@[simp] theorem freeT1_installs (s : State) (u : FrameUse) : (s.freeT1 u).installs = s.installs := rfl

/-! ### freeT2 -/

@[simp] theorem freeT2_pending (s : State) (u : FrameUse) : (s.freeT2 u).pending = s.pending := rfl
@[simp] theorem freeT2_time (s : State) (u : FrameUse) : (s.freeT2 u).time = s.time := rfl
@[simp] theorem freeT2_feat (s : State) (u : FrameUse) : (s.freeT2 u).feat = s.feat := rfl
@[simp] theorem freeT2_smith (s : State) (u : FrameUse) : (s.freeT2 u).smith = s.smith := rfl
@[simp] theorem freeT2_hall (s : State) (u : FrameUse) : (s.freeT2 u).hall = s.hall := rfl
@[simp] theorem freeT2_ledger (s : State) (u : FrameUse) : (s.freeT2 u).ledger = s.ledger := rfl
@[simp] theorem freeT2_bell (s : State) (u : FrameUse) : (s.freeT2 u).bell = s.bell := rfl
@[simp] theorem freeT2_pcie (s : State) (u : FrameUse) : (s.freeT2 u).pcie = s.pcie := rfl
@[simp] theorem freeT2_tap (s : State) (u : FrameUse) : (s.freeT2 u).tap = s.tap := rfl
@[simp] theorem freeT2_events (s : State) (u : FrameUse) : (s.freeT2 u).events = s.events := rfl
@[simp] theorem freeT2_host (s : State) (u : FrameUse) : (s.freeT2 u).host = s.host := rfl
@[simp] theorem freeT2_admin (s : State) (u : FrameUse) : (s.freeT2 u).admin = s.admin := rfl
@[simp] theorem freeT2_flights (s : State) (u : FrameUse) : (s.freeT2 u).flights = s.flights := rfl
@[simp] theorem freeT2_out (s : State) (u : FrameUse) : (s.freeT2 u).out = s.out := rfl
@[simp] theorem freeT2_deferred (s : State) (u : FrameUse) : (s.freeT2 u).deferred = s.deferred := rfl
@[simp] theorem freeT2_anneals (s : State) (u : FrameUse) : (s.freeT2 u).anneals = s.anneals := rfl
@[simp] theorem freeT2_heatRegs (s : State) (u : FrameUse) : (s.freeT2 u).heatRegs = s.heatRegs := rfl
@[simp] theorem freeT2_fns (s : State) (u : FrameUse) : (s.freeT2 u).fns = s.fns := rfl
@[simp] theorem freeT2_forges (s : State) (u : FrameUse) : (s.freeT2 u).forges = s.forges := rfl
@[simp] theorem freeT2_hearth (s : State) (u : FrameUse) : (s.freeT2 u).hearth = s.hearth := rfl
@[simp] theorem freeT2_ram (s : State) (u : FrameUse) : (s.freeT2 u).ram = s.ram := rfl
@[simp] theorem freeT2_t1 (s : State) (u : FrameUse) : (s.freeT2 u).t1 = s.t1 := rfl
@[simp] theorem freeT2_retired (s : State) (u : FrameUse) : (s.freeT2 u).retired = s.retired := rfl
@[simp] theorem freeT2_models (s : State) (u : FrameUse) : (s.freeT2 u).models = s.models := rfl
@[simp] theorem freeT2_cache (s : State) (u : FrameUse) : (s.freeT2 u).cache = s.cache := rfl
@[simp] theorem freeT2_near (s : State) (u : FrameUse) : (s.freeT2 u).near = s.near := rfl
@[simp] theorem freeT2_migr (s : State) (u : FrameUse) : (s.freeT2 u).migr = s.migr := rfl
@[simp] theorem freeT2_plinths (s : State) (u : FrameUse) : (s.freeT2 u).plinths = s.plinths := rfl
@[simp] theorem freeT2_ports (s : State) (u : FrameUse) : (s.freeT2 u).ports = s.ports := rfl
@[simp] theorem freeT2_coll (s : State) (u : FrameUse) : (s.freeT2 u).coll = s.coll := rfl
@[simp] theorem freeT2_draws (s : State) (u : FrameUse) : (s.freeT2 u).draws = s.draws := rfl
@[simp] theorem freeT2_installs (s : State) (u : FrameUse) : (s.freeT2 u).installs = s.installs := rfl

@[simp] theorem freeT2_t2 (s : State) (u : FrameUse) : (s.freeT2 u).t2 = s.t2.filter (·.use != u) := rfl

/-! ### Rings -/

theorem modRing_ring (s : State) (fn : FnId) (r : Option RingId) (g : Ring → Ring) : (s.modRing fn r g).ring fn r = g (s.ring fn r) := by
  cases r with
  | none => rfl
  | some r => simp only [State.modRing, State.ring, modHost_host, vmod_same]

/-! ### Draws -/

@[simp] theorem draw_fst (s : State) : s.draw.1 = s.draws := rfl
@[simp] theorem draw_draws (s : State) : s.draw.2.draws = s.draws + 1 := rfl
@[simp] theorem draw_pending (s : State) : s.draw.2.pending = s.pending := rfl

end Sys2Proof.Machine
end

