-- ==== Sys2Proof/Laws/Command.lean ====
section
/-! SUPPORT. What the shared operations of the host commands answer. -/

namespace Sys2Proof.Machine

/-- A host command that may run answers the next state that its body gives on the state it entered. -/
theorem hostCmd_of_ready {op : Op} {k : Cmd} {s : State} (body : State → State) (h : Ready op k s) :
    hostCmd op k body s = .next (body (s.entered op k)).settle := by
  have ht := h.turn
  unfold hostCmd
  by_cases hf : s.flights.any (·.isOf op k) = true
  · have he : s.entered op k = s := by simp only [State.entered, hf, if_true]
    rw [he] at ht ⊢
    simp only [hf, ht, if_true]
  · have he : s.entered op k = s.takeNow op k := by simp only [State.entered, hf, Bool.false_eq_true, if_false]
    obtain ⟨hd, ha⟩ := h.accepted.resolve_left hf
    rw [he] at ht ⊢
    simp [hf, hd, ha, ht]

/-- Once the checks 10 and 11 and the gates pass, the body runs. -/
theorem checked_of_ok {op : Op} {k : Cmd} {ok : Bool} {n : Nat} {s : State} (body : State → State)
    (ho : ok = true) (hn : n ≤ k.outCap.toNat) (hp : k.payloadErr = false)
    (hs : (k.ring.isSome && s.fns[k.fn].fault) = false) (hg : heatGate s op k = none) :
    checked op k ok n body s = body s := by
  have h : gated op k body s = body s := by
    unfold gated
    rw [if_neg (by rw [hs]; exact Bool.false_ne_true), hg]
  simp [checked, ho, hn, hp, h]

/-- Parameters that are not in order end the command with BAD_PARAM and no other effect (R329, R442). -/
theorem checked_of_bad {op : Op} {k : Cmd} {ok : Bool} {n : Nat} {s : State} (body : State → State)
    (ho : (ok && decide (n ≤ k.outCap.toNat)) = false) : checked op k ok n body s = (s.unspend k).finish op k .badParam := by
  simp [checked, ho]

/-- A command whose effect succeeds in its heat ends as `heatEnds` says. -/
theorem inHeat_of_ok {op : Op} {k : Cmd} {s s₁ t : State} {slot : Fin 32} {d : Nat} {pl : List Byte}
    (body : Fin 32 → State → Except (Status × Bool) (State × Nat × List Byte))
    (h : heatFor op k s = some (slot, s₁)) (hb : body slot s₁ = .ok (t, d, pl)) :
    inHeat op k s body = heatEnds op k s slot t d pl := by
  unfold heatFor at h
  unfold inHeat heatEnds
  cases hj : joinedHeat op k s with
  | some i =>
    rw [hj] at h
    cases h
    simp [hb]
  | none =>
    rw [hj] at h
    dsimp only at h ⊢
    split at h
    · cases h
    · rename_i hc
      rw [if_neg hc, h]
      simp [hb]

/-! ### What the entry of a command leaves

`entered` puts the command into flight, moves its ring past the entry and notes its SEQUENCE in its session: everything else is
as it stood. -/

theorem State.entered_eq (s : State) (op : Op) (k : Cmd) : s.entered op k = s ∨
    ∃ (h : Vector FnHost 64) (q : Ring) (l : List Flight) (w : Nat) (v : Vector (List Session) 64),
      s.entered op k = { s with host := h, admin := q, flights := l, hall := { s.hall with wraps := w, sessions := v } } ∧
        ∀ fn : FnId, (h[fn]).enabled = (s.host[fn]).enabled ∧ (h[fn]).quiescing = (s.host[fn]).quiescing := by
  by_cases hf : s.flights.any (·.isOf op k) = true
  · exact .inl (by simp only [State.entered, hf, if_true])
  · refine .inr ?_
    have he : s.entered op k = s.takeNow op k := by simp only [State.entered, hf, Bool.false_eq_true, if_false]
    have hv : ∀ (g : FnHost → FnHost) (i fn : FnId), (∀ x, (g x).enabled = x.enabled ∧ (g x).quiescing = x.quiescing) →
        ((vmod s.host i g)[fn]).enabled = (s.host[fn]).enabled ∧ ((vmod s.host i g)[fn]).quiescing = (s.host[fn]).quiescing := by
      intro g i fn hg
      by_cases h : i = fn
      · subst h; rw [vmod_same]; exact hg _
      · rw [vmod_other _ _ h]; exact ⟨rfl, rfl⟩
    rw [he]
    unfold State.takeNow State.takeIn
    cases k.ring with
    | none =>
      dsimp only [State.modRing]
      split <;> exact ⟨_, _, _, _, _, rfl, fun _ => ⟨rfl, rfl⟩⟩
    | some r =>
      dsimp only [State.modRing]
      split <;> exact ⟨_, _, _, _, _, rfl, fun fn => hv _ _ fn fun _ => ⟨rfl, rfl⟩⟩

@[simp] theorem State.entered_bell (s : State) (op : Op) (k : Cmd) : (s.entered op k).bell = s.bell := by
  obtain h | ⟨_, _, _, _, _, h, -⟩ := s.entered_eq op k <;> rw [h]
@[simp] theorem State.entered_time (s : State) (op : Op) (k : Cmd) : (s.entered op k).time = s.time := by
  obtain h | ⟨_, _, _, _, _, h, -⟩ := s.entered_eq op k <;> rw [h]
@[simp] theorem State.entered_near (s : State) (op : Op) (k : Cmd) : (s.entered op k).near = s.near := by
  obtain h | ⟨_, _, _, _, _, h, -⟩ := s.entered_eq op k <;> rw [h]
@[simp] theorem State.entered_fns (s : State) (op : Op) (k : Cmd) : (s.entered op k).fns = s.fns := by
  obtain h | ⟨_, _, _, _, _, h, -⟩ := s.entered_eq op k <;> rw [h]
@[simp] theorem State.entered_events (s : State) (op : Op) (k : Cmd) : (s.entered op k).events = s.events := by
  obtain h | ⟨_, _, _, _, _, h, -⟩ := s.entered_eq op k <;> rw [h]
@[simp] theorem State.entered_pcie (s : State) (op : Op) (k : Cmd) : (s.entered op k).pcie = s.pcie := by
  obtain h | ⟨_, _, _, _, _, h, -⟩ := s.entered_eq op k <;> rw [h]
@[simp] theorem State.entered_smith (s : State) (op : Op) (k : Cmd) : (s.entered op k).smith = s.smith := by
  obtain h | ⟨_, _, _, _, _, h, -⟩ := s.entered_eq op k <;> rw [h]
@[simp] theorem State.entered_ledger (s : State) (op : Op) (k : Cmd) : (s.entered op k).ledger = s.ledger := by
  obtain h | ⟨_, _, _, _, _, h, -⟩ := s.entered_eq op k <;> rw [h]
@[simp] theorem State.entered_deferred (s : State) (op : Op) (k : Cmd) : (s.entered op k).deferred = s.deferred := by
  obtain h | ⟨_, _, _, _, _, h, -⟩ := s.entered_eq op k <;> rw [h]
@[simp] theorem State.entered_models (s : State) (op : Op) (k : Cmd) : (s.entered op k).models = s.models := by
  obtain h | ⟨_, _, _, _, _, h, -⟩ := s.entered_eq op k <;> rw [h]
@[simp] theorem State.entered_t1 (s : State) (op : Op) (k : Cmd) : (s.entered op k).t1 = s.t1 := by
  obtain h | ⟨_, _, _, _, _, h, -⟩ := s.entered_eq op k <;> rw [h]
@[simp] theorem State.entered_t2 (s : State) (op : Op) (k : Cmd) : (s.entered op k).t2 = s.t2 := by
  obtain h | ⟨_, _, _, _, _, h, -⟩ := s.entered_eq op k <;> rw [h]
@[simp] theorem State.entered_ram (s : State) (op : Op) (k : Cmd) : (s.entered op k).ram = s.ram := by
  obtain h | ⟨_, _, _, _, _, h, -⟩ := s.entered_eq op k <;> rw [h]
@[simp] theorem State.entered_hearth (s : State) (op : Op) (k : Cmd) : (s.entered op k).hearth = s.hearth := by
  obtain h | ⟨_, _, _, _, _, h, -⟩ := s.entered_eq op k <;> rw [h]
@[simp] theorem State.entered_forges (s : State) (op : Op) (k : Cmd) : (s.entered op k).forges = s.forges := by
  obtain h | ⟨_, _, _, _, _, h, -⟩ := s.entered_eq op k <;> rw [h]
@[simp] theorem State.entered_plinths (s : State) (op : Op) (k : Cmd) : (s.entered op k).plinths = s.plinths := by
  obtain h | ⟨_, _, _, _, _, h, -⟩ := s.entered_eq op k <;> rw [h]
@[simp] theorem State.entered_ports (s : State) (op : Op) (k : Cmd) : (s.entered op k).ports = s.ports := by
  obtain h | ⟨_, _, _, _, _, h, -⟩ := s.entered_eq op k <;> rw [h]
@[simp] theorem State.entered_cache (s : State) (op : Op) (k : Cmd) : (s.entered op k).cache = s.cache := by
  obtain h | ⟨_, _, _, _, _, h, -⟩ := s.entered_eq op k <;> rw [h]
@[simp] theorem State.entered_feat (s : State) (op : Op) (k : Cmd) : (s.entered op k).feat = s.feat := by
  obtain h | ⟨_, _, _, _, _, h, -⟩ := s.entered_eq op k <;> rw [h]
@[simp] theorem State.entered_draws (s : State) (op : Op) (k : Cmd) : (s.entered op k).draws = s.draws := by
  obtain h | ⟨_, _, _, _, _, h, -⟩ := s.entered_eq op k <;> rw [h]
@[simp] theorem State.entered_pending (s : State) (op : Op) (k : Cmd) : (s.entered op k).pending = s.pending := by
  obtain h | ⟨_, _, _, _, _, h, -⟩ := s.entered_eq op k <;> rw [h]
@[simp] theorem State.entered_tap (s : State) (op : Op) (k : Cmd) : (s.entered op k).tap = s.tap := by
  obtain h | ⟨_, _, _, _, _, h, -⟩ := s.entered_eq op k <;> rw [h]
@[simp] theorem State.entered_out (s : State) (op : Op) (k : Cmd) : (s.entered op k).out = s.out := by
  obtain h | ⟨_, _, _, _, _, h, -⟩ := s.entered_eq op k <;> rw [h]
@[simp] theorem State.entered_fwRunning (s : State) (op : Op) (k : Cmd) : (s.entered op k).hall.fwRunning = s.hall.fwRunning := by
  obtain h | ⟨_, _, _, _, _, h, -⟩ := s.entered_eq op k <;> rw [h]
@[simp] theorem State.entered_image (s : State) (op : Op) (k : Cmd) : (s.entered op k).hall.image = s.hall.image := by
  obtain h | ⟨_, _, _, _, _, h, -⟩ := s.entered_eq op k <;> rw [h]
@[simp] theorem State.entered_identityFault (s : State) (op : Op) (k : Cmd) : (s.entered op k).hall.identityFault = s.hall.identityFault := by
  obtain h | ⟨_, _, _, _, _, h, -⟩ := s.entered_eq op k <;> rw [h]
@[simp] theorem State.entered_t1Degraded (s : State) (op : Op) (k : Cmd) : (s.entered op k).hall.t1Degraded = s.hall.t1Degraded := by
  obtain h | ⟨_, _, _, _, _, h, -⟩ := s.entered_eq op k <;> rw [h]
@[simp] theorem State.entered_pendingKem (s : State) (op : Op) (k : Cmd) : (s.entered op k).hall.pending = s.hall.pending := by
  obtain h | ⟨_, _, _, _, _, h, -⟩ := s.entered_eq op k <;> rw [h]
@[simp] theorem State.entered_storage (s : State) (op : Op) (k : Cmd) : (s.entered op k).hall.storage = s.hall.storage := by
  obtain h | ⟨_, _, _, _, _, h, -⟩ := s.entered_eq op k <;> rw [h]
@[simp] theorem State.entered_modelKeys (s : State) (op : Op) (k : Cmd) : (s.entered op k).hall.modelKeys = s.hall.modelKeys := by
  obtain h | ⟨_, _, _, _, _, h, -⟩ := s.entered_eq op k <;> rw [h]
@[simp] theorem State.entered_kHash (s : State) (op : Op) (k : Cmd) : (s.entered op k).hall.kHash = s.hall.kHash := by
  obtain h | ⟨_, _, _, _, _, h, -⟩ := s.entered_eq op k <;> rw [h]
@[simp] theorem State.entered_svn (s : State) (op : Op) (k : Cmd) : (s.entered op k).hall.svn = s.hall.svn := by
  obtain h | ⟨_, _, _, _, _, h, -⟩ := s.entered_eq op k <;> rw [h] <;> rfl
@[simp] theorem State.entered_keyIndex (s : State) (op : Op) (k : Cmd) : (s.entered op k).hall.keyIndex = s.hall.keyIndex := by
  obtain h | ⟨_, _, _, _, _, h, -⟩ := s.entered_eq op k <;> rw [h] <;> rfl
@[simp] theorem State.entered_owner (s : State) (op : Op) (k : Cmd) : (s.entered op k).hall.owner = s.hall.owner := by
  obtain h | ⟨_, _, _, _, _, h, -⟩ := s.entered_eq op k <;> rw [h]
@[simp] theorem State.entered_stage (s : State) (op : Op) (k : Cmd) : (s.entered op k).hall.stage = s.hall.stage := by
  obtain h | ⟨_, _, _, _, _, h, -⟩ := s.entered_eq op k <;> rw [h]
@[simp] theorem State.entered_enabled (s : State) (op : Op) (k : Cmd) (fn : FnId) :
    ((s.entered op k).host[fn.val]).enabled = (s.host[fn.val]).enabled := by
  obtain h | ⟨_, _, _, _, _, h, e⟩ := s.entered_eq op k
  · rw [h]
  · rw [h]; exact (e fn).1
@[simp] theorem State.entered_quiescing (s : State) (op : Op) (k : Cmd) (fn : FnId) :
    ((s.entered op k).host[fn.val]).quiescing = (s.host[fn.val]).quiescing := by
  obtain h | ⟨_, _, _, _, _, h, e⟩ := s.entered_eq op k
  · rw [h]
  · rw [h]; exact (e fn).2

/-- A host command that may run and passes the checks 10 and 11 runs its body on the state it entered. -/
theorem hostCmd_of_checked {op : Op} {k : Cmd} {ok : State → Bool} {n : State → Nat} {s : State} (body : State → State → State)
    (h : Ready op k s) (ho : ok (s.entered op k) = true) (hn : n (s.entered op k) ≤ k.outCap.toNat) :
    hostCmd op k (fun s => checked op k (ok s) (n s) (body s) s) s =
      .next (body (s.entered op k) (s.entered op k)).settle := by
  rw [hostCmd_of_ready _ h, checked_of_ok _ ho hn h.payload h.sound h.gate]

/-- With no command waiting for an end, nothing is settled. -/
theorem State.settle_of_nil {s : State} (h : s.deferred = []) : s.settle = s := by simp [State.settle, h]

end Sys2Proof.Machine
end

