-- ==== Sys2Proof/Laws/Mem.lean ====
section
/-! SUPPORT. The byte memories: every operation keeps the canonical form, a byte written is read back, and no other byte
changes. -/

namespace Sys2Proof.Machine

/-! ### The two forms as facts about all entries -/

theorem Memory.wf_iff (m : Memory) :
    Memory.wf m = true ↔ (m.map (·.1)).Pairwise (· < ·) ∧ ∀ c ∈ m, c.2 ≠ 0 := by
  induction m with
  | nil => simp [Memory.wf]
  | cons c m ih =>
    cases m with
    | nil => simp [Memory.wf]
    | cons d m =>
      simp only [Memory.wf, Bool.and_eq_true, bne_iff_ne, ne_eq, decide_eq_true_eq, ih, List.map_cons,
        List.pairwise_cons, List.mem_cons, List.mem_map, forall_eq_or_imp]
      constructor
      · rintro ⟨⟨h1, h2⟩, ⟨h3, h4⟩, h5, h6⟩
        refine ⟨⟨⟨h2, ?_⟩, h3, h4⟩, h1, h5, h6⟩
        rintro a ⟨x, hx, rfl⟩
        exact lt_trans h2 (h3 _ ⟨x, hx, rfl⟩)
      · rintro ⟨⟨⟨h2, -⟩, h3, h4⟩, h1, h5, h6⟩
        exact ⟨⟨h1, h2⟩, ⟨h3, h4⟩, h5, h6⟩

theorem Memory.sorted_iff (m : Memory) : Memory.sorted m = true ↔ (m.map (·.1)).Pairwise (· < ·) := by
  induction m with
  | nil => simp [Memory.sorted]
  | cons c m ih =>
    cases m with
    | nil => simp [Memory.sorted]
    | cons d m =>
      simp only [Memory.sorted, Bool.and_eq_true, decide_eq_true_eq, ih, List.map_cons, List.pairwise_cons,
        List.mem_cons, List.mem_map, forall_eq_or_imp]
      constructor
      · rintro ⟨h2, h3, h4⟩
        refine ⟨⟨h2, ?_⟩, h3, h4⟩
        rintro a ⟨x, hx, rfl⟩
        exact lt_trans h2 (h3 _ ⟨x, hx, rfl⟩)
      · rintro ⟨⟨h2, -⟩, h3, h4⟩
        exact ⟨h2, h3, h4⟩

/-! ### Where the entries of a written memory come from -/

theorem Memory.mem_put {m : Memory} {a : Nat} {b : Byte} {c : Host.Cell} (h : c ∈ m.put a b) :
    c ∈ m ∨ c = (a, b) ∧ b ≠ 0 := by
  induction m with
  | nil =>
    simp only [Memory.put] at h
    split at h
    · simp at h
    · simp_all
  | cons d m ih =>
    simp only [Memory.put] at h
    split at h
    · split at h <;> simp_all; tauto
    · split at h
      · split at h <;> simp_all; tauto
      · simp only [List.mem_cons] at h ⊢
        rcases h with h | h
        · exact .inl (.inl h)
        · exact (ih h).imp .inr id

theorem Memory.mem_putAll {m : Memory} {a : Nat} {b : Byte} {c : Host.Cell} (h : c ∈ Memory.putAll m a b) :
    c ∈ m ∨ c = (a, b) := by
  induction m with
  | nil => simp_all [Memory.putAll]
  | cons d m ih =>
    simp only [Memory.putAll] at h
    split at h
    · simp_all; tauto
    · split at h
      · simp_all; tauto
      · simp only [List.mem_cons] at h ⊢
        rcases h with h | h
        · exact .inl (.inl h)
        · exact (ih h).imp .inr id

/-! ### The forms are kept -/

theorem Memory.rising_put {m : Memory} (h : (m.map (·.1)).Pairwise (· < ·)) (a : Nat) (b : Byte) :
    ((m.put a b).map (·.1)).Pairwise (· < ·) := by
  induction m with
  | nil => simp only [Memory.put]; split <;> simp
  | cons c m ih =>
    have h0 := h
    simp only [List.map_cons, List.pairwise_cons, List.mem_map, forall_exists_index, and_imp] at h
    simp only [Memory.put]
    split
    · next hac =>
      split
      · exact h0
      · simp only [List.map_cons, List.pairwise_cons, List.mem_cons, List.mem_map]
        refine ⟨?_, by simpa only [List.map_cons, List.pairwise_cons, List.mem_map] using h0⟩
        rintro x (rfl | ⟨y, hy, rfl⟩)
        · exact hac
        · exact lt_trans hac (h.1 _ y hy rfl)
    · split
      · next hac =>
        split
        · exact h.2
        · simp only [List.map_cons, List.pairwise_cons, List.mem_map]
          exact ⟨by rintro x ⟨y, hy, rfl⟩; exact hac ▸ h.1 _ y hy rfl, h.2⟩
      · next h1 h2 =>
        simp only [List.map_cons, List.pairwise_cons, List.mem_map]
        refine ⟨?_, ih h.2⟩
        rintro x ⟨y, hy, rfl⟩
        rcases Memory.mem_put hy with hy | ⟨rfl, -⟩
        · exact h.1 _ y hy rfl
        · simp only; omega

theorem Memory.rising_putAll {m : Memory} (h : (m.map (·.1)).Pairwise (· < ·)) (a : Nat) (b : Byte) :
    ((Memory.putAll m a b).map (·.1)).Pairwise (· < ·) := by
  induction m with
  | nil => simp [Memory.putAll]
  | cons c m ih =>
    have h0 := h
    simp only [List.map_cons, List.pairwise_cons, List.mem_map, forall_exists_index, and_imp] at h
    simp only [Memory.putAll]
    split
    · next hac =>
      simp only [List.map_cons, List.pairwise_cons, List.mem_cons, List.mem_map]
      refine ⟨?_, by simpa only [List.map_cons, List.pairwise_cons, List.mem_map] using h0⟩
      rintro x (rfl | ⟨y, hy, rfl⟩)
      · exact hac
      · exact lt_trans hac (h.1 _ y hy rfl)
    · split
      · next hac =>
        simp only [List.map_cons, List.pairwise_cons, List.mem_map]
        exact ⟨by rintro x ⟨y, hy, rfl⟩; exact hac ▸ h.1 _ y hy rfl, h.2⟩
      · next h1 h2 =>
        simp only [List.map_cons, List.pairwise_cons, List.mem_map]
        refine ⟨?_, ih h.2⟩
        rintro x ⟨y, hy, rfl⟩
        rcases Memory.mem_putAll hy with hy | rfl
        · exact h.1 _ y hy rfl
        · simp only; omega

theorem Memory.wf_put {m : Memory} (h : Memory.wf m = true) (a : Nat) (b : Byte) : Memory.wf (m.put a b) = true := by
  rw [Memory.wf_iff] at h ⊢
  refine ⟨Memory.rising_put h.1 a b, fun c hc => ?_⟩
  rcases Memory.mem_put hc with hc | ⟨rfl, hb⟩
  · exact h.2 c hc
  · exact hb

theorem Memory.wf_write {m : Memory} (h : Memory.wf m = true) (a : Nat) (bs : List Byte) :
    Memory.wf (m.write a bs) = true := by
  induction bs generalizing m a with
  | nil => exact h
  | cons b bs ih => exact ih (Memory.wf_put h a b) (a + 1)

theorem Memory.wf_filter {m : Memory} (h : Memory.wf m = true) (p : Host.Cell → Bool) : Memory.wf (m.filter p) = true := by
  rw [Memory.wf_iff] at h ⊢
  exact ⟨h.1.sublist (List.filter_sublist.map _), fun c hc => h.2 c (List.mem_of_mem_filter hc)⟩

theorem Memory.wf_clear {m : Memory} (h : Memory.wf m = true) (a n : Nat) : Memory.wf (m.clear a n) = true :=
  Memory.wf_filter h _

theorem Memory.sorted_putAll {m : Memory} (h : Memory.sorted m = true) (a : Nat) (b : Byte) :
    Memory.sorted (Memory.putAll m a b) = true := by
  rw [Memory.sorted_iff] at h ⊢
  exact Memory.rising_putAll h a b

theorem Memory.sorted_writeAll {m : Memory} (h : Memory.sorted m = true) (a : Nat) (bs : List Byte) :
    Memory.sorted (Memory.writeAll m a bs) = true := by
  induction bs generalizing m a with
  | nil => exact h
  | cons b bs ih => exact ih (Memory.sorted_putAll h a b) (a + 1)

theorem Memory.sorted_filter {m : Memory} (h : Memory.sorted m = true) (p : Host.Cell → Bool) :
    Memory.sorted (m.filter p) = true := by
  rw [Memory.sorted_iff] at h ⊢
  exact h.sublist (List.filter_sublist.map _)

/-! ### Reads after writes -/

/-- An address below every entry is not listed. -/
theorem Memory.find_of_lt {m : Memory} {a : Nat} (h : ∀ c ∈ m, a < c.1) : m.find a = none := by
  induction m with
  | nil => rfl
  | cons c m ih =>
    have hc := h c (by simp)
    simp only [Memory.find]
    rw [if_neg (by omega)]
    exact ih fun d hd => h d (by simp [hd])

/-- A byte written to a canonical memory is read back. -/
theorem Memory.get_put_same {m : Memory} (h : Memory.wf m = true) (a : Nat) (b : Byte) : (m.put a b).get a = b := by
  rw [Memory.wf_iff] at h
  obtain ⟨h, -⟩ := h
  unfold Memory.get
  induction m with
  | nil => simp only [Memory.put]; split <;> simp_all [Memory.find]
  | cons c m ih =>
    simp only [List.map_cons, List.pairwise_cons, List.mem_map, forall_exists_index, and_imp] at h
    simp only [Memory.put]
    split
    · next hac =>
      split
      · next hb =>
        rw [Memory.find_of_lt (a := a)]
        · simp [hb]
        · intro d hd
          rcases List.mem_cons.1 hd with rfl | hd
          · exact hac
          · exact lt_trans hac (h.1 _ d hd rfl)
      · simp [Memory.find]
    · split
      · next hac =>
        split
        · next hb =>
          rw [Memory.find_of_lt (a := a)]
          · simp [hb]
          · intro d hd; exact hac ▸ h.1 _ d hd rfl
        · simp [Memory.find]
      · next h1 h2 =>
        simp only [Memory.find]
        rw [if_neg (by omega)]
        exact ih h.2

/-- No other byte changes. -/
theorem Memory.get_put_other (m : Memory) {a x : Nat} (b : Byte) (hx : x ≠ a) : (m.put a b).get x = m.get x := by
  unfold Memory.get
  induction m with
  | nil => simp only [Memory.put]; split <;> simp [Memory.find, hx.symm]
  | cons c m ih =>
    simp only [Memory.put]
    split
    · split
      · rfl
      · simp [Memory.find, hx.symm]
    · split
      · next hac => split <;> simp [Memory.find, hx.symm, ← hac]
      · simp only [Memory.find]; split
        · rfl
        · exact ih

/-- A write changes no byte outside the bytes it writes. -/
theorem Memory.get_write_other (m : Memory) {a x : Nat} (bs : List Byte) (hx : x < a ∨ a + bs.length ≤ x) :
    (m.write a bs).get x = m.get x := by
  induction bs generalizing m a with
  | nil => rfl
  | cons b bs ih =>
    simp only [List.length_cons] at hx
    simp only [Memory.write]
    rw [ih _ (by omega), Memory.get_put_other _ _ (by omega)]

end Sys2Proof.Machine
end

