-- ==== Sys2Proof/Laws/Keep.lean ====
section
/-! SUPPORT. What every operation of the model keeps: the forms of the memories and of the frame lists, and the queue, while
the draws of free values only go on. One lemma per function says it of that function: the files Keeps<File> beside this one
hold them, one for each file of the machine. -/

namespace Sys2Proof.Machine

/-- From `s` to `t` the memories and the frame lists keep their forms, the queue stays, and draws only go on. -/
structure Keeps (s t : State) : Prop where
  ram : Memory.wf s.ram = true → Memory.wf t.ram = true
  hearth : Memory.sorted s.hearth = true → Memory.sorted t.hearth = true
  t1 : (s.t1.map (·.num)).Pairwise (· < ·) → (t.t1.map (·.num)).Pairwise (· < ·)
  t2 : (s.t2.map (·.num)).Pairwise (· < ·) → (t.t2.map (·.num)).Pairwise (· < ·)
  pending : t.pending = s.pending
  draws : s.draws ≤ t.draws

theorem Keeps.refl (s : State) : Keeps s s := ⟨id, id, id, id, rfl, le_refl _⟩

theorem Keeps.trans {s t v : State} (h : Keeps s t) (k : Keeps t v) : Keeps s v :=
  ⟨k.ram ∘ h.ram, k.hearth ∘ h.hearth, k.t1 ∘ h.t1, k.t2 ∘ h.t2, k.pending.trans h.pending, h.draws.trans k.draws⟩

/-- A state from its parts: what a record update answers, under a name that unification does not open. -/
@[irreducible] def State.of (pending : List Instr) (time : TimeBase) (feat : Features) (smith : Smith) (hall : Hallmark) (ledger : Ledger) (bell : Bellows)
    (pcie : Pcie) (tap : Tap) (events : EventLog) (host : Vector FnHost 64) (admin : Ring) (flights : List Flight)
    (out : List HostEvent) (deferred : List Deferred) (anneals : List AnnealRun) (heatRegs : HeatRegs) (fns : Vector Fn 64)
    (forges : Vector Forge 64) (hearth ram : List Host.Cell) (t1 t2 : List Frame) (retired : List Nat)
    (models : Vector (Option Model) 16) (cache : List CacheLine) (near : Near) (migr : Migr) (plinths : Vector Plinth 8)
    (ports : Vector Port 8) (coll : Coll) (draws installs : Nat) : State :=
  State.mk pending time feat smith hall ledger bell pcie tap events host admin flights out deferred anneals heatRegs fns
      forges hearth ram t1 t2 retired models cache near migr plinths ports coll draws installs

theorem State.mk_eq_of (pending : List Instr) (time : TimeBase) (feat : Features) (smith : Smith) (hall : Hallmark) (ledger : Ledger) (bell : Bellows)
    (pcie : Pcie) (tap : Tap) (events : EventLog) (host : Vector FnHost 64) (admin : Ring) (flights : List Flight)
    (out : List HostEvent) (deferred : List Deferred) (anneals : List AnnealRun) (heatRegs : HeatRegs) (fns : Vector Fn 64)
    (forges : Vector Forge 64) (hearth ram : List Host.Cell) (t1 t2 : List Frame) (retired : List Nat)
    (models : Vector (Option Model) 16) (cache : List CacheLine) (near : Near) (migr : Migr) (plinths : Vector Plinth 8)
    (ports : Vector Port 8) (coll : Coll) (draws installs : Nat) :
    State.mk pending time feat smith hall ledger bell pcie tap events host admin flights out deferred anneals heatRegs fns
      forges hearth ram t1 t2 retired models cache near migr plinths ports coll draws installs =
      State.of pending time feat smith hall ledger bell pcie tap events host admin flights out deferred anneals heatRegs fns
      forges hearth ram t1 t2 retired models cache near migr plinths ports coll draws installs := by
  unfold State.of
  rfl

/-- A record update of parts that have no form. -/
theorem Keeps.upd {s₀ s : State} (h : Keeps s₀ s)
    {x_time x_feat x_smith x_hall x_ledger x_bell x_pcie x_tap x_events x_host x_admin x_flights x_out x_deferred
      x_anneals x_heatRegs x_fns x_forges x_retired x_models x_cache x_near x_migr x_plinths x_ports x_coll
      x_installs} :
    Keeps s₀ (State.of s.pending x_time x_feat x_smith x_hall x_ledger x_bell x_pcie x_tap x_events x_host x_admin x_flights x_out
      x_deferred x_anneals x_heatRegs x_fns x_forges s.hearth s.ram s.t1 s.t2 x_retired x_models x_cache x_near
      x_migr x_plinths x_ports x_coll s.draws x_installs) := by
  unfold State.of
  exact h.trans ⟨id, id, id, id, rfl, le_refl _⟩

/-- A record update that touches a part that has a form, and beside it any that has none. -/
theorem Keeps.updRam {s₀ s : State} (h : Keeps s₀ s)
    {x_time x_feat x_smith x_hall x_ledger x_bell x_pcie x_tap x_events x_host x_admin x_flights x_out x_deferred
      x_anneals x_heatRegs x_fns x_forges x_retired x_models x_cache x_near x_migr x_plinths x_ports x_coll
      x_installs} {y} (k : Memory.wf s.ram = true → Memory.wf y = true) :
    Keeps s₀ (State.of s.pending x_time x_feat x_smith x_hall x_ledger x_bell x_pcie x_tap x_events x_host x_admin x_flights x_out
      x_deferred x_anneals x_heatRegs x_fns x_forges s.hearth y s.t1 s.t2 x_retired x_models x_cache x_near x_migr
      x_plinths x_ports x_coll s.draws x_installs) := by
  unfold State.of
  exact h.trans ⟨k, id, id, id, rfl, le_refl _⟩

theorem Keeps.updHearth {s₀ s : State} (h : Keeps s₀ s)
    {x_time x_feat x_smith x_hall x_ledger x_bell x_pcie x_tap x_events x_host x_admin x_flights x_out x_deferred
      x_anneals x_heatRegs x_fns x_forges x_retired x_models x_cache x_near x_migr x_plinths x_ports x_coll
      x_installs} {y} (k : Memory.sorted s.hearth = true → Memory.sorted y = true) :
    Keeps s₀ (State.of s.pending x_time x_feat x_smith x_hall x_ledger x_bell x_pcie x_tap x_events x_host x_admin x_flights x_out
      x_deferred x_anneals x_heatRegs x_fns x_forges y s.ram s.t1 s.t2 x_retired x_models x_cache x_near x_migr
      x_plinths x_ports x_coll s.draws x_installs) := by
  unfold State.of
  exact h.trans ⟨id, k, id, id, rfl, le_refl _⟩

theorem Keeps.updT1 {s₀ s : State} (h : Keeps s₀ s)
    {x_time x_feat x_smith x_hall x_ledger x_bell x_pcie x_tap x_events x_host x_admin x_flights x_out x_deferred
      x_anneals x_heatRegs x_fns x_forges x_retired x_models x_cache x_near x_migr x_plinths x_ports x_coll
      x_installs} {y} (k : (s.t1.map (·.num)).Pairwise (· < ·) → (y.map (·.num)).Pairwise (· < ·)) :
    Keeps s₀ (State.of s.pending x_time x_feat x_smith x_hall x_ledger x_bell x_pcie x_tap x_events x_host x_admin x_flights x_out
      x_deferred x_anneals x_heatRegs x_fns x_forges s.hearth s.ram y s.t2 x_retired x_models x_cache x_near x_migr
      x_plinths x_ports x_coll s.draws x_installs) := by
  unfold State.of
  exact h.trans ⟨id, id, k, id, rfl, le_refl _⟩

theorem Keeps.updT2 {s₀ s : State} (h : Keeps s₀ s)
    {x_time x_feat x_smith x_hall x_ledger x_bell x_pcie x_tap x_events x_host x_admin x_flights x_out x_deferred
      x_anneals x_heatRegs x_fns x_forges x_retired x_models x_cache x_near x_migr x_plinths x_ports x_coll
      x_installs} {y} (k : (s.t2.map (·.num)).Pairwise (· < ·) → (y.map (·.num)).Pairwise (· < ·)) :
    Keeps s₀ (State.of s.pending x_time x_feat x_smith x_hall x_ledger x_bell x_pcie x_tap x_events x_host x_admin x_flights x_out
      x_deferred x_anneals x_heatRegs x_fns x_forges s.hearth s.ram s.t1 y x_retired x_models x_cache x_near x_migr
      x_plinths x_ports x_coll s.draws x_installs) := by
  unfold State.of
  exact h.trans ⟨id, id, id, k, rfl, le_refl _⟩

theorem Keeps.updDraws {s₀ s : State} (h : Keeps s₀ s)
    {x_time x_feat x_smith x_hall x_ledger x_bell x_pcie x_tap x_events x_host x_admin x_flights x_out x_deferred
      x_anneals x_heatRegs x_fns x_forges x_retired x_models x_cache x_near x_migr x_plinths x_ports x_coll
      x_installs} {y} (k : s.draws ≤ y) :
    Keeps s₀ (State.of s.pending x_time x_feat x_smith x_hall x_ledger x_bell x_pcie x_tap x_events x_host x_admin x_flights x_out
      x_deferred x_anneals x_heatRegs x_fns x_forges s.hearth s.ram s.t1 s.t2 x_retired x_models x_cache x_near
      x_migr x_plinths x_ports x_coll y x_installs) := by
  unfold State.of
  exact h.trans ⟨id, id, id, id, rfl, k⟩

theorem Memory.wf_foldl_put {α : Type} {l : List α} {key : α → Nat} {val : α → Byte} {m : Memory} (h : Memory.wf m = true) :
    Memory.wf (l.foldl (fun m a => Memory.put m (key a) (val a)) m) = true := by
  induction l generalizing m with
  | nil => exact h
  | cons a l ih => exact ih (Memory.wf_put h _ _)

/-! ### Frame lists -/

theorem frames_filter {l : List Frame} (p : Frame → Bool) (h : (l.map (·.num)).Pairwise (· < ·)) :
    ((l.filter p).map (·.num)).Pairwise (· < ·) :=
  h.sublist (List.filter_sublist.map _)

theorem frames_map {l : List Frame} (g : Frame → Frame) (hg : ∀ x, (g x).num = x.num)
    (h : (l.map (·.num)).Pairwise (· < ·)) : ((l.map g).map (·.num)).Pairwise (· < ·) := by
  rw [List.map_map, show (Frame.num ∘ g) = Frame.num from funext hg]
  exact h

theorem mem_insertFrame {x y : Frame} {l : List Frame} (h : y ∈ insertFrame x l) : y = x ∨ y ∈ l := by
  induction l with
  | nil => simpa [insertFrame] using h
  | cons z l ih =>
    unfold insertFrame at h
    split at h
    · simpa using h
    · rcases List.mem_cons.1 h with rfl | h
      · exact .inr (List.mem_cons_self ..)
      · exact (ih h).imp_right (List.mem_cons_of_mem _)

/-- A frame of a number that is free goes to its place. -/
theorem frames_insert {x : Frame} {l : List Frame} (hn : x.num ∉ l.map (·.num)) (h : (l.map (·.num)).Pairwise (· < ·)) :
    ((insertFrame x l).map (·.num)).Pairwise (· < ·) := by
  induction l with
  | nil => simp [insertFrame]
  | cons z l ih =>
    rw [List.map_cons, List.pairwise_cons] at h
    rw [List.map_cons, List.mem_cons, not_or] at hn
    unfold insertFrame
    split
    · next hlt =>
      rw [List.map_cons, List.map_cons, List.pairwise_cons, List.pairwise_cons]
      refine ⟨fun b hb => ?_, h.1, h.2⟩
      rcases List.mem_cons.1 hb with rfl | hb
      · exact hlt
      · exact hlt.trans (h.1 b hb)
    · next hlt =>
      rw [List.map_cons, List.pairwise_cons]
      refine ⟨fun b hb => ?_, ih hn.2 h.2⟩
      obtain ⟨y, hy, rfl⟩ := List.mem_map.1 hb
      rcases mem_insertFrame hy with rfl | hy
      · omega
      · exact h.1 _ (List.mem_map_of_mem hy)

theorem le_lowestFree (l : List Nat) (n : Nat) : n ≤ lowestFree l n := by
  induction l generalizing n with
  | nil => exact le_refl _
  | cons x l ih =>
    unfold lowestFree
    split
    · exact ih n
    · split
      · exact (Nat.le_succ n).trans (ih (n + 1))
      · exact le_refl _

/-- The number that `lowestFree` finds is in no rising list. -/
theorem lowestFree_not_mem {l : List Nat} (h : l.Pairwise (· < ·)) (n : Nat) : lowestFree l n ∉ l := by
  induction l generalizing n with
  | nil => simp
  | cons x l ih =>
    rw [List.pairwise_cons] at h
    rw [List.mem_cons, not_or]
    unfold lowestFree
    split
    · next hx => exact ⟨by have := le_lowestFree l n; omega, ih h.2 n⟩
    · split
      · next hx => exact ⟨by have := le_lowestFree l (n + 1); omega, ih h.2 (n + 1)⟩
      · exact ⟨by omega, fun hm => by have := h.1 _ hm; omega⟩

/-! ### Operations that answer something beside a state -/

/-- An operation that may answer a state keeps what it answers. -/
def OKeeps (s : State) (o : Option State) : Prop := ∀ t, o = some t → Keeps s t
def EKeeps {ε : Type} (s : State) (e : Except ε State) : Prop := ∀ t, e = .ok t → Keeps s t
@[reducible] def PKeeps {β : Type} (s : State) (p : State × β) : Prop := Keeps s p.1
@[reducible] def QKeeps {β : Type} (s : State) (p : β × State) : Prop := Keeps s p.2
def EPKeeps {ε β : Type} (s : State) (e : Except ε (State × β)) : Prop := ∀ t b, e = .ok (t, b) → Keeps s t
def EQKeeps {ε β : Type} (s : State) (e : Except ε (β × State)) : Prop := ∀ t b, e = .ok (b, t) → Keeps s t
def XKeeps {α : Type} (s : State) (e : Except State α) : Prop := ∀ t, e = .error t → Keeps s t
def XPKeeps {α β : Type} (s : State) (e : Except (State × β) α) : Prop := ∀ t b, e = .error (t, b) → Keeps s t
def OQKeeps {β : Type} (s : State) (o : Option (β × State)) : Prop := ∀ t b, o = some (b, t) → Keeps s t
def OPKeeps {β : Type} (s : State) (o : Option (State × β)) : Prop := ∀ t b, o = some (t, b) → Keeps s t
/-- A command or a step answers a next state and keeps it. -/
def RKeeps (s : State) (r : Host.Outcome State Fault Refusal) : Prop := ∃ t, r = .next t ∧ Keeps s t

section
variable {s₀ s t : State}

theorem OKeeps.use {o : Option State} (e : o = some t) (h : OKeeps s₀ o) : Keeps s₀ t := h t e
theorem EKeeps.use {ε : Type} {o : Except ε State} (e : o = .ok t) (h : EKeeps s₀ o) : Keeps s₀ t := h t e
theorem PKeeps.use {β : Type} {b : β} {o : State × β} (e : o = (t, b)) (h : PKeeps s₀ o) : Keeps s₀ t := by
  subst e; exact h
theorem QKeeps.use {β : Type} {b : β} {o : β × State} (e : o = (b, t)) (h : QKeeps s₀ o) : Keeps s₀ t := by
  subst e; exact h
theorem EPKeeps.use {ε β : Type} {b : β} {o : Except ε (State × β)} (e : o = .ok (t, b)) (h : EPKeeps s₀ o) :
    Keeps s₀ t := h t b e
theorem EPKeeps.use' {ε β : Type} {p : State × β} {o : Except ε (State × β)} (e : o = .ok p) (h : EPKeeps s₀ o) :
    Keeps s₀ p.1 := h p.1 p.2 e
theorem EQKeeps.use {ε β : Type} {b : β} {o : Except ε (β × State)} (e : o = .ok (b, t)) (h : EQKeeps s₀ o) :
    Keeps s₀ t := h t b e
theorem EQKeeps.use' {ε β : Type} {p : β × State} {o : Except ε (β × State)} (e : o = .ok p) (h : EQKeeps s₀ o) :
    Keeps s₀ p.2 := h p.2 p.1 e
theorem XKeeps.use {α : Type} {o : Except State α} (e : o = .error t) (h : XKeeps s₀ o) : Keeps s₀ t := h t e
theorem XPKeeps.use {α β : Type} {b : β} {o : Except (State × β) α} (e : o = .error (t, b)) (h : XPKeeps s₀ o) :
    Keeps s₀ t := h t b e
theorem OQKeeps.use {β : Type} {b : β} {o : Option (β × State)} (e : o = some (b, t)) (h : OQKeeps s₀ o) :
    Keeps s₀ t := h t b e
theorem OQKeeps.use' {β : Type} {p : β × State} {o : Option (β × State)} (e : o = some p) (h : OQKeeps s₀ o) :
    Keeps s₀ p.2 := h p.2 p.1 e

theorem OPKeeps.use {β : Type} {b : β} {o : Option (State × β)} (e : o = some (t, b)) (h : OPKeeps s₀ o) :
    Keeps s₀ t := h t b e
theorem OPKeeps.use' {β : Type} {p : State × β} {o : Option (State × β)} (e : o = some p) (h : OPKeeps s₀ o) :
    Keeps s₀ p.1 := h p.1 p.2 e
theorem RKeeps.use {r : Host.Outcome State Fault Refusal} (e : r = .next t) (h : RKeeps s₀ r) : Keeps s₀ t := by
  obtain ⟨v, hv, hk⟩ := h
  rw [e] at hv
  cases hv
  exact hk

theorem OKeeps.none : OKeeps s₀ none := fun _ h => by cases h
theorem OKeeps.some (h : Keeps s₀ s) : OKeeps s₀ (some s) := fun _ e => by cases e; exact h
theorem EKeeps.ok {ε : Type} (h : Keeps s₀ s) : EKeeps (ε := ε) s₀ (.ok s) := fun _ e => by cases e; exact h
theorem EKeeps.error {ε : Type} {e : ε} : EKeeps s₀ (.error e) := fun _ h => by cases h
theorem PKeeps.mk {β : Type} {b : β} (h : Keeps s₀ s) : PKeeps s₀ (s, b) := h
theorem QKeeps.mk {β : Type} {b : β} (h : Keeps s₀ s) : QKeeps s₀ (b, s) := h
theorem EPKeeps.ok {ε β : Type} {b : β} (h : Keeps s₀ s) : EPKeeps (ε := ε) s₀ (.ok (s, b)) := fun _ _ e => by
  cases e; exact h
theorem EPKeeps.error {ε β : Type} {e : ε} : EPKeeps (β := β) s₀ (.error e) := fun _ _ h => by cases h
theorem EQKeeps.ok {ε β : Type} {b : β} (h : Keeps s₀ s) : EQKeeps (ε := ε) s₀ (.ok (b, s)) := fun _ _ e => by
  cases e; exact h
theorem EQKeeps.error {ε β : Type} {e : ε} : EQKeeps (β := β) s₀ (.error e) := fun _ _ h => by cases h
theorem XKeeps.ok {α : Type} {a : α} : XKeeps s₀ (.ok a) := fun _ h => by cases h
theorem XKeeps.error {α : Type} (h : Keeps s₀ s) : XKeeps (α := α) s₀ (.error s) := fun _ e => by cases e; exact h
theorem XPKeeps.ok {α β : Type} {a : α} : XPKeeps (β := β) s₀ (.ok a) := fun _ _ h => by cases h
theorem XPKeeps.error {α β : Type} {b : β} (h : Keeps s₀ s) : XPKeeps (α := α) s₀ (.error (s, b)) := fun _ _ e => by
  cases e; exact h
theorem OQKeeps.none {β : Type} : OQKeeps (β := β) s₀ none := fun _ _ h => by cases h
theorem OQKeeps.some {β : Type} {b : β} (h : Keeps s₀ s) : OQKeeps s₀ (some (b, s)) := fun _ _ e => by cases e; exact h
theorem OPKeeps.none {β : Type} : OPKeeps (β := β) s₀ none := fun _ _ h => by cases h
theorem OPKeeps.some {β : Type} {b : β} (h : Keeps s₀ s) : OPKeeps s₀ (some (s, b)) := fun _ _ e => by cases e; exact h
theorem RKeeps.next (h : Keeps s₀ s) : RKeeps s₀ (.next s) := ⟨s, rfl, h⟩

/-! ### Combinations -/

theorem Keeps.ite {c : Prop} [Decidable c] {a b : State} (h : c → Keeps s₀ a) (k : ¬c → Keeps s₀ b) :
    Keeps s₀ (if c then a else b) := by
  by_cases hc : c
  · rw [if_pos hc]
    exact h hc
  · rw [if_neg hc]
    exact k hc
theorem OKeeps.ite {c : Prop} [Decidable c] {a b : Option State} (h : c → OKeeps s₀ a) (k : ¬c → OKeeps s₀ b) :
    OKeeps s₀ (if c then a else b) := by
  by_cases hc : c
  · rw [if_pos hc]
    exact h hc
  · rw [if_neg hc]
    exact k hc
theorem PKeeps.ite {β : Type} {c : Prop} [Decidable c] {a b : State × β} (h : c → PKeeps s₀ a) (k : ¬c → PKeeps s₀ b) :
    PKeeps s₀ (if c then a else b) := by
  by_cases hc : c
  · rw [if_pos hc]
    exact h hc
  · rw [if_neg hc]
    exact k hc
theorem EKeeps.ite {ε : Type} {c : Prop} [Decidable c] {a b : Except ε State} (h : c → EKeeps s₀ a) (k : ¬c → EKeeps s₀ b) :
    EKeeps s₀ (if c then a else b) := by
  by_cases hc : c
  · rw [if_pos hc]
    exact h hc
  · rw [if_neg hc]
    exact k hc
theorem EPKeeps.ite {ε β : Type} {c : Prop} [Decidable c] {a b : Except ε (State × β)} (h : c → EPKeeps s₀ a) (k : ¬c → EPKeeps s₀ b) :
    EPKeeps s₀ (if c then a else b) := by
  by_cases hc : c
  · rw [if_pos hc]
    exact h hc
  · rw [if_neg hc]
    exact k hc
theorem OKeeps.bind {o : Option State} {g : State → Option State} (h : OKeeps s₀ o)
    (k : ∀ x, Keeps s₀ x → OKeeps s₀ (g x)) : OKeeps s₀ (o.bind g) := by
  cases o with
  | none => exact OKeeps.none
  | some x => exact k x (h x rfl)
theorem OKeeps.map {o : Option State} {g : State → State} (h : OKeeps s₀ o)
    (k : ∀ x, Keeps s₀ x → Keeps s₀ (g x)) : OKeeps s₀ (o.map g) := by
  cases o with
  | none => exact OKeeps.none
  | some x => exact OKeeps.some (k x (h x rfl))
theorem OKeeps.mapOf {α : Type} {o : Option α} {g : α → State} (k : ∀ x, Keeps s₀ (g x)) : OKeeps s₀ (o.map g) := by
  cases o with
  | none => exact OKeeps.none
  | some x => exact OKeeps.some (k x)
theorem OKeeps.bindOf {α : Type} {o : Option α} {g : α → Option State} (k : ∀ x, OKeeps s₀ (g x)) :
    OKeeps s₀ (o.bind g) := by
  cases o with
  | none => exact OKeeps.none
  | some x => exact k x
theorem OKeeps.mapQ {β : Type} {o : Option (β × State)} {g : β × State → State} (h : OQKeeps s₀ o)
    (k : ∀ b x, Keeps s₀ x → Keeps s₀ (g (b, x))) : OKeeps s₀ (o.map g) := by
  cases o with
  | none => exact OKeeps.none
  | some x => exact OKeeps.some (k x.1 x.2 (h x.2 x.1 rfl))
theorem OPKeeps.map {β γ : Type} {o : Option (State × β)} {g : State × β → State × γ} (h : OPKeeps s₀ o)
    (k : ∀ x b, Keeps s₀ x → Keeps s₀ (g (x, b)).1) : OPKeeps s₀ (o.map g) := by
  cases o with
  | none => exact OPKeeps.none
  | some x =>
    intro t b e
    have hg : g x = (t, b) := by injection e
    have hk := k x.1 x.2 (h x.1 x.2 rfl)
    rw [hg] at hk
    exact hk
theorem OKeeps.findSome {α : Type} {l : List α} {g : α → Option State} (k : ∀ x, OKeeps s₀ (g x)) :
    OKeeps s₀ (l.findSome? g) := by
  intro t e
  obtain ⟨a, -, h⟩ := List.exists_of_findSome?_eq_some e
  exact k a t h
theorem OKeeps.getD {o : Option State} (h : OKeeps s₀ o) (k : Keeps s₀ s) : Keeps s₀ (o.getD s) := by
  cases o with
  | none => exact k
  | some x => exact h x rfl
theorem Keeps.foldl {α : Type} {l : List α} {g : State → α → State} (h : Keeps s₀ s)
    (k : ∀ x a, Keeps s₀ x → Keeps s₀ (g x a)) : Keeps s₀ (l.foldl g s) := by
  induction l generalizing s with
  | nil => exact h
  | cons a l ih => exact ih (k s a h)
theorem Keeps.iter {n : Nat} {g : State → State} (h : Keeps s₀ s) (k : ∀ x, Keeps s₀ x → Keeps s₀ (g x)) :
    Keeps s₀ (iter g n s) := by
  induction n generalizing s with
  | zero => exact h
  | succ n ih => exact ih (k s h)
theorem OKeeps.foldl {α : Type} {l : List α} {g : Option State → α → Option State} {o : Option State} (h : OKeeps s₀ o)
    (k : ∀ x a, OKeeps s₀ x → OKeeps s₀ (g x a)) : OKeeps s₀ (l.foldl g o) := by
  induction l generalizing o with
  | nil => exact h
  | cons a l ih => exact ih (k o a h)
theorem PKeeps.foldl {α β : Type} {l : List α} {g : State × β → α → State × β} {p : State × β} (h : PKeeps s₀ p)
    (k : ∀ x a, PKeeps s₀ x → PKeeps s₀ (g x a)) : PKeeps s₀ (l.foldl g p) := by
  induction l generalizing p with
  | nil => exact h
  | cons a l ih => exact ih (k p a h)
theorem QKeeps.foldl {α β : Type} {l : List α} {g : β × State → α → β × State} {p : β × State} (h : QKeeps s₀ p)
    (k : ∀ x a, QKeeps s₀ x → QKeeps s₀ (g x a)) : QKeeps s₀ (l.foldl g p) := by
  induction l generalizing p with
  | nil => exact h
  | cons a l ih => exact ih (k p a h)
theorem EKeeps.foldE {ε α : Type} {l : List α} {g : State → α → Except ε State} (h : Keeps s₀ s)
    (k : ∀ x a, Keeps s₀ x → EKeeps s₀ (g x a)) : EKeeps s₀ (foldE g l s) := by
  induction l generalizing s with
  | nil => exact EKeeps.ok h
  | cons a l ih =>
    unfold Machine.foldE
    split
    · next x e => exact ih (k s a h x e)
    · exact EKeeps.error
theorem EKeeps.map {ε : Type} {e : Except ε State} {g : State → State} (h : EKeeps s₀ e)
    (k : ∀ x, Keeps s₀ x → Keeps s₀ (g x)) : EKeeps s₀ (e.map g) := by
  cases e with
  | error x => exact EKeeps.error
  | ok x => exact EKeeps.ok (k x (h x rfl))
theorem EKeeps.mapError {ε ε' : Type} {e : Except ε State} {g : ε → ε'} (h : EKeeps s₀ e) : EKeeps s₀ (e.mapError g) := by
  cases e with
  | error x => exact EKeeps.error
  | ok x => exact EKeeps.ok (h x rfl)
theorem EPKeeps.foldE {ε α β : Type} {l : List α} {g : State × β → α → Except ε (State × β)} {p : State × β} (h : PKeeps s₀ p)
    (k : ∀ x a, PKeeps s₀ x → EPKeeps s₀ (g x a)) : EPKeeps s₀ (foldE g l p) := by
  induction l generalizing p with
  | nil => exact EPKeeps.ok h
  | cons a l ih =>
    unfold Machine.foldE
    split
    · next x e => exact ih (k p a h x.1 x.2 e)
    · exact EPKeeps.error
theorem EKeeps.bind {ε : Type} {e : Except ε State} {g : State → Except ε State} (h : EKeeps s₀ e)
    (k : ∀ x, Keeps s₀ x → EKeeps s₀ (g x)) : EKeeps s₀ (e.bind g) := by
  cases e with
  | error x => exact EKeeps.error
  | ok x => exact k x (h x rfl)
theorem EPKeeps.bindE {ε β : Type} {e : Except ε State} {g : State → Except ε (State × β)} (h : EKeeps s₀ e)
    (k : ∀ x, Keeps s₀ x → EPKeeps s₀ (g x)) : EPKeeps s₀ (e.bind g) := by
  cases e with
  | error x => exact EPKeeps.error
  | ok x => exact k x (h x rfl)
theorem EPKeeps.mapE {ε β : Type} {e : Except ε State} {g : State → State × β} (h : EKeeps s₀ e)
    (k : ∀ x, Keeps s₀ x → Keeps s₀ (g x).1) : EPKeeps s₀ (e.map g) := by
  cases e with
  | error x => exact EPKeeps.error
  | ok x =>
    intro t b e
    have hg : g x = (t, b) := by injection e
    have hk := k x (h x rfl)
    rw [hg] at hk
    exact hk
theorem EPKeeps.map {ε β γ : Type} {e : Except ε (State × β)} {g : State × β → State × γ} (h : EPKeeps s₀ e)
    (k : ∀ x b, Keeps s₀ x → Keeps s₀ (g (x, b)).1) : EPKeeps s₀ (e.map g) := by
  cases e with
  | error x => exact EPKeeps.error
  | ok x =>
    intro t b e
    have hg : g x = (t, b) := by injection e
    have hk := k x.1 x.2 (h x.1 x.2 rfl)
    rw [hg] at hk
    exact hk
theorem XPKeeps.map {α β γ : Type} {e : Except (State × γ) α} {g : α → β} (h : XPKeeps s₀ e) : XPKeeps s₀ (e.map g) := by
  cases e with
  | error x => exact XPKeeps.error (h x.1 x.2 rfl)
  | ok x => exact XPKeeps.ok
theorem XPKeeps.foldE {α β γ : Type} {l : List α} {g : State × β → α → Except (State × γ) (State × β)} {p : State × β}
    (h : PKeeps s₀ p) (k : ∀ x a, PKeeps s₀ x → EPKeeps s₀ (g x a)) (k' : ∀ x a, PKeeps s₀ x → XPKeeps s₀ (g x a)) :
    XPKeeps s₀ (foldE g l p) := by
  induction l generalizing p with
  | nil => exact XPKeeps.ok
  | cons a l ih =>
    unfold Machine.foldE
    split
    · next x e => exact ih (k p a h x.1 x.2 e)
    · next x e => exact XPKeeps.error (k' p a h x.1 x.2 e)
theorem EQKeeps.foldE {ε α β : Type} {l : List α} {g : β × State → α → Except ε (β × State)} {p : β × State} (h : QKeeps s₀ p)
    (k : ∀ x a, QKeeps s₀ x → EQKeeps s₀ (g x a)) : EQKeeps s₀ (foldE g l p) := by
  induction l generalizing p with
  | nil => exact EQKeeps.ok h
  | cons a l ih =>
    unfold Machine.foldE
    split
    · next x e => exact ih (k p a h x.2 x.1 e)
    · exact EQKeeps.error
theorem XKeeps.foldE {α β : Type} {l : List α} {g : β × State → α → Except State (β × State)} {p : β × State}
    (h : QKeeps s₀ p) (k : ∀ x a, QKeeps s₀ x → EQKeeps s₀ (g x a)) (k' : ∀ x a, QKeeps s₀ x → XKeeps s₀ (g x a)) :
    XKeeps s₀ (foldE g l p) := by
  induction l generalizing p with
  | nil => exact XKeeps.ok
  | cons a l ih =>
    unfold Machine.foldE
    split
    · next x e => exact ih (k p a h x.2 x.1 e)
    · next x e => exact XKeeps.error (k' p a h x e)

end

end Sys2Proof.Machine
end

