-- ==== Sys2Proof/Laws/KeepsOps.lean ====
section
/-! SUPPORT. The operations of Machine/Ops.lean keep what `Keeps` says. -/

set_option linter.unusedTactic false
set_option linter.unreachableTactic false

namespace Sys2Proof.Machine

theorem State.modFn_keeps {s₀ : State} {s : State} {f : FnId} {g : Fn → Fn} (hk : Keeps s₀ s) :
    Keeps s₀ (State.modFn s f g) := by
  unfold State.modFn
  repeat' (first | with_reducible assumption | with_reducible intro _ | (rw [State.mk_eq_of]; with_reducible refine Keeps.upd ?_) | dsimp only | split)

theorem State.modForge_keeps {s₀ : State} {s : State} {f : ForgeId} {g : Forge → Forge} (hk : Keeps s₀ s) :
    Keeps s₀ (State.modForge s f g) := by
  unfold State.modForge
  repeat' (first | with_reducible assumption | with_reducible intro _ | (rw [State.mk_eq_of]; with_reducible refine Keeps.upd ?_) | dsimp only | split)

theorem State.modHost_keeps {s₀ : State} {s : State} {f : FnId} {g : FnHost → FnHost} (hk : Keeps s₀ s) :
    Keeps s₀ (State.modHost s f g) := by
  unfold State.modHost
  repeat' (first | with_reducible assumption | with_reducible intro _ | (rw [State.mk_eq_of]; with_reducible refine Keeps.upd ?_) | dsimp only | split)

theorem State.modPlinth_keeps {s₀ : State} {s : State} {n : PlinthId} {g : Plinth → Plinth} (hk : Keeps s₀ s) :
    Keeps s₀ (State.modPlinth s n g) := by
  unfold State.modPlinth
  repeat' (first | with_reducible assumption | with_reducible intro _ | (rw [State.mk_eq_of]; with_reducible refine Keeps.upd ?_) | dsimp only | split)

theorem State.modPort_keeps {s₀ : State} {s : State} {p : PortId} {g : Port → Port} (hk : Keeps s₀ s) :
    Keeps s₀ (State.modPort s p g) := by
  unfold State.modPort
  repeat' (first | with_reducible assumption | with_reducible intro _ | (rw [State.mk_eq_of]; with_reducible refine Keeps.upd ?_) | dsimp only | split)

theorem State.modBell_keeps {s₀ : State} {s : State} {g : Bellows → Bellows} (hk : Keeps s₀ s) :
    Keeps s₀ (State.modBell s g) := by
  unfold State.modBell
  repeat' (first | with_reducible assumption | with_reducible intro _ | (rw [State.mk_eq_of]; with_reducible refine Keeps.upd ?_) | dsimp only | split)

theorem State.modHall_keeps {s₀ : State} {s : State} {g : Hallmark → Hallmark} (hk : Keeps s₀ s) :
    Keeps s₀ (State.modHall s g) := by
  unfold State.modHall
  repeat' (first | with_reducible assumption | with_reducible intro _ | (rw [State.mk_eq_of]; with_reducible refine Keeps.upd ?_) | dsimp only | split)

theorem State.modNear_keeps {s₀ : State} {s : State} {g : Near → Near} (hk : Keeps s₀ s) :
    Keeps s₀ (State.modNear s g) := by
  unfold State.modNear
  repeat' (first | with_reducible assumption | with_reducible intro _ | (rw [State.mk_eq_of]; with_reducible refine Keeps.upd ?_) | dsimp only | split)

theorem State.modChan_keeps {s₀ : State} {s : State} {c : ChanId} {g : Chan → Chan} (hk : Keeps s₀ s) :
    Keeps s₀ (State.modChan s c g) := by
  unfold State.modChan
  repeat' (first | with_reducible assumption | with_reducible intro _ | with_reducible refine State.modNear_keeps ?_ | (rw [State.mk_eq_of]; with_reducible refine Keeps.upd ?_) | dsimp only | split)

theorem State.modStack_keeps {s₀ : State} {s : State} {c : StackId} {g : Stack → Stack} (hk : Keeps s₀ s) :
    Keeps s₀ (State.modStack s c g) := by
  unfold State.modStack
  repeat' (first | with_reducible assumption | with_reducible intro _ | with_reducible refine State.modNear_keeps ?_ | (rw [State.mk_eq_of]; with_reducible refine Keeps.upd ?_) | dsimp only | split)

theorem State.modRing_keeps {s₀ : State} {s : State} {fn : FnId} {r : Option RingId} {g : Ring → Ring} (hk : Keeps s₀ s) :
    Keeps s₀ (State.modRing s fn r g) := by
  unfold State.modRing
  repeat' (first | with_reducible assumption | with_reducible intro _ | with_reducible refine State.modHost_keeps ?_ | (rw [State.mk_eq_of]; with_reducible refine Keeps.upd ?_) | dsimp only | split)

theorem State.draw_keeps {s₀ s : State} (h : Keeps s₀ s) : QKeeps s₀ (State.draw s) := by
  unfold State.draw
  rw [State.mk_eq_of]
  exact h.updDraws (Nat.le_succ _)

theorem State.stamp_keeps {s₀ : State} {s : State} (hk : Keeps s₀ s) :
    QKeeps s₀ (State.stamp s) := by
  unfold State.stamp
  repeat' (first | with_reducible assumption | with_reducible intro _ | (rw [State.mk_eq_of]; with_reducible refine Keeps.upd ?_) | with_reducible refine QKeeps.use (by assumption) ?_ | dsimp only | split)

theorem State.allocT1One_keeps {s₀ s : State} {use : FrameUse} (h : Keeps s₀ s) : OKeeps s₀ (State.allocT1One s use) := by
  unfold State.allocT1One
  dsimp only
  split
  · rw [State.mk_eq_of]
    exact OKeeps.some (h.updT1 fun hs => frames_insert (lowestFree_not_mem hs _) hs)
  · exact OKeeps.none

theorem State.allocT1Many_keeps {s₀ s : State} {use : FrameUse} {n : Nat} (h : Keeps s₀ s) :
    OKeeps s₀ (State.allocT1Many s use n) := by
  induction n generalizing s with
  | zero => exact OKeeps.some h
  | succ n ih => exact OKeeps.bind (State.allocT1One_keeps h) fun _ hx => ih hx

theorem State.allocT1_keeps {s₀ : State} {s : State} {fn : FnId} {use : FrameUse} {n : ℕ} (hk : Keeps s₀ s) :
    OKeeps s₀ (State.allocT1 s fn use n) := by
  unfold State.allocT1
  repeat' (first | with_reducible assumption | with_reducible intro _ | with_reducible refine State.allocT1Many_keeps ?_ | with_reducible refine OKeeps.none | with_reducible refine OKeeps.some ?_ | (rw [State.mk_eq_of]; with_reducible refine Keeps.upd ?_) | with_reducible refine OKeeps.use (by assumption) ?_ | dsimp only | split)

theorem State.findT2_not_mem {s : State} {r : Bool} {used : List Nat} {fuel n m : Nat}
    (h : s.findT2 r used fuel n = some m) : m ∉ used := by
  induction fuel generalizing n with
  | zero => cases h
  | succ fuel ih =>
    unfold State.findT2 at h
    split at h
    · next hc =>
      cases h
      rw [Bool.and_eq_true] at hc
      simpa using hc.2
    · exact ih h

theorem State.allocT2One_keeps {s₀ s : State} {use : FrameUse} {r : Bool} (h : Keeps s₀ s) :
    OKeeps s₀ (State.allocT2One s use r) := by
  intro t e
  obtain ⟨n, hn, rfl⟩ := Option.map_eq_some_iff.1 e
  rw [State.mk_eq_of]
  exact h.updT2 fun hs => frames_insert (State.findT2_not_mem hn) hs

theorem State.allocT2_keeps {s₀ : State} {s : State} {fn : FnId} {use : FrameUse} {retrieval : Bool} (hk : Keeps s₀ s) :
    OKeeps s₀ (State.allocT2 s fn use retrieval) := by
  unfold State.allocT2
  repeat' (first | with_reducible assumption | with_reducible intro _ | with_reducible refine State.allocT2One_keeps ?_ | with_reducible refine OKeeps.none | with_reducible refine OKeeps.some ?_ | (rw [State.mk_eq_of]; with_reducible refine Keeps.upd ?_) | with_reducible refine OKeeps.use (by assumption) ?_ | dsimp only | split)

theorem State.freeT1_keeps {s₀ s : State} {use : FrameUse} (h : Keeps s₀ s) : Keeps s₀ (State.freeT1 s use) := by
  unfold State.freeT1
  rw [State.mk_eq_of]
  exact h.updT1 fun hs => frames_filter _ hs

theorem State.freeT2_keeps {s₀ s : State} {use : FrameUse} (h : Keeps s₀ s) : Keeps s₀ (State.freeT2 s use) := by
  unfold State.freeT2
  rw [State.mk_eq_of]
  exact h.updT2 fun hs => frames_filter _ hs

theorem State.freeT1One_keeps {s₀ s : State} {use : FrameUse} (h : Keeps s₀ s) : Keeps s₀ (State.freeT1One s use) := by
  unfold State.freeT1One
  split
  · rw [State.mk_eq_of]
    exact h.updT1 fun hs => frames_filter _ hs
  · exact h

theorem State.send_keeps {s₀ : State} {s : State} {e : HostEvent} (hk : Keeps s₀ s) :
    Keeps s₀ (State.send s e) := by
  unfold State.send
  repeat' (first | with_reducible assumption | with_reducible intro _ | (rw [State.mk_eq_of]; with_reducible refine Keeps.upd ?_) | dsimp only | split)

theorem State.raise_keeps {s₀ : State} {s : State} {fn : FnId} {v : ℕ} (hk : Keeps s₀ s) :
    Keeps s₀ (State.raise s fn v) := by
  unfold State.raise
  repeat' (first | with_reducible assumption | with_reducible intro _ | with_reducible refine State.modHost_keeps ?_ | with_reducible refine State.send_keeps ?_ | (rw [State.mk_eq_of]; with_reducible refine Keeps.upd ?_) | dsimp only | split)

theorem State.flushEvents_keeps {s₀ s : State} {n : Nat} (h : Keeps s₀ s) : Keeps s₀ (State.flushEvents s n) := by
  induction n generalizing s with
  | zero => exact h
  | succ n ih =>
    unfold State.flushEvents
    dsimp only
    split
    · split
      · exact h
      · refine ih ?_
        rw [State.mk_eq_of]
        split
        · exact State.raise_keeps (Keeps.upd (State.send_keeps h))
        · exact Keeps.upd (State.send_keeps h)
    · exact h

theorem State.log_keeps {s₀ : State} {s : State} {code : ℕ} {fn : optParam (Option FnId) none} {source : optParam ℕ 0} {data : optParam (List Byte) []} (hk : Keeps s₀ s) :
    Keeps s₀ (State.log s code fn source data) := by
  unfold State.log
  repeat' (first | with_reducible assumption | with_reducible intro _ | with_reducible refine State.flushEvents_keeps ?_ | (rw [State.mk_eq_of]; with_reducible refine Keeps.upd ?_) | dsimp only | split)

theorem State.pushReply_keeps {s₀ : State} {s : State} {k : Cmd} {r : Reply} (hk : Keeps s₀ s) :
    Keeps s₀ (State.pushReply s k r) := by
  unfold State.pushReply
  repeat' (first | with_reducible assumption | with_reducible intro _ | with_reducible refine State.modRing_keeps ?_ | (rw [State.mk_eq_of]; with_reducible refine Keeps.upd ?_) | dsimp only | split)

theorem State.unread_keeps {s₀ : State} {s : State} {op : Op} {k : Cmd} (hk : Keeps s₀ s) :
    Keeps s₀ (State.unread s op k) := by
  unfold State.unread
  repeat' (first | with_reducible assumption | with_reducible intro _ | with_reducible refine State.modFn_keeps ?_ | (rw [State.mk_eq_of]; with_reducible refine Keeps.upd ?_) | dsimp only | split)

theorem State.answer_keeps {s₀ : State} {s : State} {op : Op} {k : Cmd} {st : Status} {detail : ℕ} {payload : List Byte} (hk : Keeps s₀ s) :
    Keeps s₀ (State.answer s op k st detail payload) := by
  unfold State.answer
  repeat' (first | with_reducible assumption | with_reducible intro _ | with_reducible refine State.pushReply_keeps ?_ | with_reducible refine State.unread_keeps ?_ | (rw [State.mk_eq_of]; with_reducible refine Keeps.upd ?_) | dsimp only | split)

theorem State.finish_keeps {s₀ : State} {s : State} {op : Op} {k : Cmd} {st : Status} {detail : optParam ℕ 0} {payload : optParam (List Byte) []} (hk : Keeps s₀ s) :
    Keeps s₀ (State.finish s op k st detail payload) := by
  unfold State.finish
  repeat' (first | with_reducible assumption | with_reducible intro _ | with_reducible refine State.answer_keeps ?_ | with_reducible refine State.freeT1One_keeps ?_ | (rw [State.mk_eq_of]; with_reducible refine Keeps.upd ?_) | with_reducible refine Keeps.iter ?_ ?_ | dsimp only | split)

theorem State.refuse_keeps {s₀ : State} {s : State} {op : Op} {k : Cmd} {st : Status} {detail : optParam ℕ 0} (hk : Keeps s₀ s) :
    Keeps s₀ (State.refuse s op k st detail) := by
  unfold State.refuse
  repeat' (first | with_reducible assumption | with_reducible intro _ | with_reducible refine State.pushReply_keeps ?_ | (rw [State.mk_eq_of]; with_reducible refine Keeps.upd ?_) | dsimp only | split)

theorem State.modSession_keeps {s₀ : State} {s : State} {fn : FnId} {id : BitVec 16} {g : Session → Session} (hk : Keeps s₀ s) :
    Keeps s₀ (State.modSession s fn id g) := by
  unfold State.modSession
  repeat' (first | with_reducible assumption | with_reducible intro _ | with_reducible refine State.modHall_keeps ?_ | (rw [State.mk_eq_of]; with_reducible refine Keeps.upd ?_) | dsimp only | split)

theorem State.eraseSession_keeps {s₀ : State} {s : State} {fn : FnId} {id : BitVec 16} (hk : Keeps s₀ s) :
    Keeps s₀ (State.eraseSession s fn id) := by
  unfold State.eraseSession
  repeat' (first | with_reducible assumption | with_reducible intro _ | with_reducible refine State.modHall_keeps ?_ | (rw [State.mk_eq_of]; with_reducible refine Keeps.upd ?_) | dsimp only | split)

theorem State.hallErr_keeps {s₀ : State} {s : State} {st : Status} {kind : ℕ} {check : ℕ} (hk : Keeps s₀ s) :
    Keeps s₀ (State.hallErr s st kind check) := by
  unfold State.hallErr
  repeat' (first | with_reducible assumption | with_reducible intro _ | with_reducible refine State.modHall_keeps ?_ | (rw [State.mk_eq_of]; with_reducible refine Keeps.upd ?_) | dsimp only | split)

theorem State.ledgerWrite_keeps {s₀ : State} {s : State} {type : ℕ} {key : ℕ} {payload : List Byte} (hk : Keeps s₀ s) :
    OKeeps s₀ (State.ledgerWrite s type key payload) := by
  unfold State.ledgerWrite
  repeat' (first | with_reducible assumption | with_reducible intro _ | with_reducible refine OKeeps.none | with_reducible refine OKeeps.some ?_ | (rw [State.mk_eq_of]; with_reducible refine Keeps.upd ?_) | with_reducible refine OKeeps.use (by assumption) ?_ | dsimp only | split)

theorem State.ledgerRefused_keeps {s₀ : State} {s : State} (hk : Keeps s₀ s) :
    Keeps s₀ (State.ledgerRefused s) := by
  unfold State.ledgerRefused
  repeat' (first | with_reducible assumption | with_reducible intro _ | (rw [State.mk_eq_of]; with_reducible refine Keeps.upd ?_) | dsimp only | split)

end Sys2Proof.Machine
end

