-- ==== Sys2Proof/Laws/KeepsChannel.lean ====
section
/-! SUPPORT. The operations of Machine/Channel.lean keep what `Keeps` says. -/

set_option linter.unusedTactic false
set_option linter.unreachableTactic false

namespace Sys2Proof.Machine

theorem State.retrain_keeps {s₀ : State} {s : State} {c : ChanId} (hk : Keeps s₀ s) :
    Keeps s₀ (State.retrain s c) := by
  unfold State.retrain
  repeat' (first | with_reducible assumption | with_reducible intro _ | with_reducible refine State.modChan_keeps ?_ | with_reducible refine State.modStack_keeps ?_ | (rw [State.mk_eq_of]; with_reducible refine Keeps.upd ?_) | dsimp only | split)

theorem State.nextRetrain_keeps {s₀ : State} {s : State} {k : StackId} (hk : Keeps s₀ s) :
    Keeps s₀ (State.nextRetrain s k) := by
  unfold State.nextRetrain
  repeat' (first | with_reducible assumption | with_reducible intro _ | with_reducible refine State.retrain_keeps ?_ | with_reducible refine State.modStack_keeps ?_ | (rw [State.mk_eq_of]; with_reducible refine Keeps.upd ?_) | dsimp only | split)

theorem State.enqueue_keeps {s₀ : State} {s : State} {units : List ℕ} (hk : Keeps s₀ s) :
    Keeps s₀ (State.enqueue s units) := by
  unfold State.enqueue
  repeat' (first | with_reducible assumption | with_reducible intro _ | with_reducible refine State.modChan_keeps ?_ | (rw [State.mk_eq_of]; with_reducible refine Keeps.upd ?_) | with_reducible refine Keeps.foldl ?_ ?_ | dsimp only | split)

theorem State.channelFree_keeps {s₀ : State} {s : State} {c : ChanId} {g : Chan → Chan} (hk : Keeps s₀ s) :
    Keeps s₀ (State.channelFree s c g) := by
  unfold State.channelFree
  repeat' (first | with_reducible assumption | with_reducible intro _ | with_reducible refine State.modStack_keeps ?_ | with_reducible refine State.nextRetrain_keeps ?_ | with_reducible refine State.modChan_keeps ?_ | (rw [State.mk_eq_of]; with_reducible refine Keeps.upd ?_) | dsimp only | split)

theorem State.trained_keeps {s₀ : State} {s : State} {c : ChanId} (hk : Keeps s₀ s) :
    Keeps s₀ (State.trained s c) := by
  unfold State.trained
  repeat' (first | with_reducible assumption | with_reducible intro _ | with_reducible refine State.channelFree_keeps ?_ | (rw [State.mk_eq_of]; with_reducible refine Keeps.upd ?_) | dsimp only | split)

theorem State.charge_keeps {s₀ : State} {s : State} {fn : FnId} {units : List ℕ} (hk : Keeps s₀ s) :
    Keeps s₀ (State.charge s fn units) := by
  unfold State.charge
  repeat' (first | with_reducible assumption | with_reducible intro _ | with_reducible refine State.modNear_keeps ?_ | (rw [State.mk_eq_of]; with_reducible refine Keeps.upd ?_) | with_reducible refine Keeps.foldl ?_ ?_ | dsimp only | split)

theorem State.firstAccess_keeps {s₀ : State} {s : State} {units : List ℕ} (hk : Keeps s₀ s) :
    Keeps s₀ (State.firstAccess s units) := by
  unfold State.firstAccess
  repeat' (first | with_reducible assumption | with_reducible intro _ | with_reducible refine State.retrain_keeps ?_ | (rw [State.mk_eq_of]; with_reducible refine Keeps.upd ?_) | with_reducible refine Keeps.foldl ?_ ?_ | dsimp only | split)

theorem State.access_keeps {s₀ : State} {s : State} {fn : FnId} {units : List ℕ} (hk : Keeps s₀ s) :
    Keeps s₀ (State.access s fn units) := by
  unfold State.access
  repeat' (first | with_reducible assumption | with_reducible intro _ | with_reducible refine State.firstAccess_keeps ?_ | with_reducible refine State.charge_keeps ?_ | (rw [State.mk_eq_of]; with_reducible refine Keeps.upd ?_) | dsimp only | split)

end Sys2Proof.Machine
end

