-- ==== Sys2Proof/Laws/KeepsHostIf.lean ====
section
/-! SUPPORT. The operations of Machine/HostIf.lean keep what `Keeps` says. -/

set_option linter.unusedTactic false
set_option linter.unreachableTactic false

namespace Sys2Proof.Machine

theorem State.takeIn_keeps {s₀ : State} {s : State} {op : Op} {k : Cmd} (hk : Keeps s₀ s) :
    Keeps s₀ (State.takeIn s op k) := by
  unfold State.takeIn
  repeat' (first | with_reducible assumption | with_reducible intro _ | with_reducible refine State.modSession_keeps ?_ | (rw [State.mk_eq_of]; with_reducible refine Keeps.upd ?_) | dsimp only | split)

theorem State.unspend_keeps {s₀ : State} {s : State} {k : Cmd} (hk : Keeps s₀ s) :
    Keeps s₀ (State.unspend s k) := by
  unfold State.unspend
  repeat' (first | with_reducible assumption | with_reducible intro _ | with_reducible refine State.modSession_keeps ?_ | (rw [State.mk_eq_of]; with_reducible refine Keeps.upd ?_) | dsimp only | split)

theorem State.refuseAccept_keeps {s₀ : State} {s : State} {op : Op} {k : Cmd} {st : Status} (hk : Keeps s₀ s) :
    Keeps s₀ (State.refuseAccept s op k st) := by
  unfold State.refuseAccept
  repeat' (first | with_reducible assumption | with_reducible intro _ | with_reducible refine State.modHall_keeps ?_ | with_reducible refine State.refuse_keeps ?_ | (rw [State.mk_eq_of]; with_reducible refine Keeps.upd ?_) | dsimp only | split)

theorem State.takeNow_keeps {s₀ : State} {s : State} {op : Op} {k : Cmd} (hk : Keeps s₀ s) :
    Keeps s₀ (State.takeNow s op k) := by
  unfold State.takeNow
  repeat' (first | with_reducible assumption | with_reducible intro _ | with_reducible refine State.takeIn_keeps ?_ | with_reducible refine State.modRing_keeps ?_ | (rw [State.mk_eq_of]; with_reducible refine Keeps.upd ?_) | dsimp only | split)

theorem State.ringIdle_keeps {s₀ : State} {s : State} {fn : FnId} {r : Option RingId} (hk : Keeps s₀ s) :
    Keeps s₀ (State.ringIdle s fn r) := by
  unfold State.ringIdle
  repeat' (first | with_reducible assumption | with_reducible intro _ | with_reducible refine State.modRing_keeps ?_ | (rw [State.mk_eq_of]; with_reducible refine Keeps.upd ?_) | dsimp only | split)

theorem ringEnable_keeps {s₀ : State} {fn : FnId} {r : Option RingId} {s : State} (hk : Keeps s₀ s) :
    Keeps s₀ (ringEnable fn r s) := by
  unfold ringEnable
  repeat' (first | with_reducible assumption | with_reducible intro _ | with_reducible refine State.modRing_keeps ?_ | (rw [State.mk_eq_of]; with_reducible refine Keeps.upd ?_) | dsimp only | split)

theorem ringDisable_keeps {s₀ : State} {fn : FnId} {r : Option RingId} {s : State} (hk : Keeps s₀ s) :
    Keeps s₀ (ringDisable fn r s) := by
  unfold ringDisable
  repeat' (first | with_reducible assumption | with_reducible intro _ | with_reducible refine State.ringIdle_keeps ?_ | with_reducible refine State.modRing_keeps ?_ | (rw [State.mk_eq_of]; with_reducible refine Keeps.upd ?_) | dsimp only | split)

theorem execRingEnable_keeps {s₀ : State} {fn : FnId} {r : Option RingId} {s : State} (hk : Keeps s₀ s) :
    RKeeps s₀ (execRingEnable fn r s) := by
  unfold execRingEnable
  repeat' (first | with_reducible assumption | with_reducible intro _ | with_reducible refine ringEnable_keeps ?_ | with_reducible refine RKeeps.next ?_ | (rw [State.mk_eq_of]; with_reducible refine Keeps.upd ?_) | with_reducible refine RKeeps.use (by assumption) ?_ | dsimp only | split)

theorem execRingDisable_keeps {s₀ : State} {fn : FnId} {r : Option RingId} {s : State} (hk : Keeps s₀ s) :
    RKeeps s₀ (execRingDisable fn r s) := by
  unfold execRingDisable
  repeat' (first | with_reducible assumption | with_reducible intro _ | with_reducible refine ringDisable_keeps ?_ | with_reducible refine RKeeps.next ?_ | (rw [State.mk_eq_of]; with_reducible refine Keeps.upd ?_) | with_reducible refine RKeeps.use (by assumption) ?_ | dsimp only | split)

theorem hostDbSq_keeps {s₀ : State} {fn : FnId} {r : Option RingId} {tail : ℕ} {s : State} (hk : Keeps s₀ s) :
    Keeps s₀ (hostDbSq fn r tail s) := by
  unfold hostDbSq
  repeat' (first | with_reducible assumption | with_reducible intro _ | with_reducible refine State.modRing_keeps ?_ | (rw [State.mk_eq_of]; with_reducible refine Keeps.upd ?_) | dsimp only | split)

theorem execHostDbSq_keeps {s₀ : State} {fn : FnId} {r : Option RingId} {tail : BitVec 16} {s : State} (hk : Keeps s₀ s) :
    RKeeps s₀ (execHostDbSq fn r tail s) := by
  unfold execHostDbSq
  repeat' (first | with_reducible assumption | with_reducible intro _ | with_reducible refine hostDbSq_keeps ?_ | with_reducible refine RKeeps.next ?_ | (rw [State.mk_eq_of]; with_reducible refine Keeps.upd ?_) | with_reducible refine RKeeps.use (by assumption) ?_ | dsimp only | split)

theorem hostDbRq_keeps {s₀ : State} {fn : FnId} {r : Option RingId} {head : ℕ} {s : State} (hk : Keeps s₀ s) :
    Keeps s₀ (hostDbRq fn r head s) := by
  unfold hostDbRq
  repeat' (first | with_reducible assumption | with_reducible intro _ | with_reducible refine State.modRing_keeps ?_ | (rw [State.mk_eq_of]; with_reducible refine Keeps.upd ?_) | dsimp only | split)

theorem execHostDbRq_keeps {s₀ : State} {fn : FnId} {r : Option RingId} {head : BitVec 16} {s : State} (hk : Keeps s₀ s) :
    RKeeps s₀ (execHostDbRq fn r head s) := by
  unfold execHostDbRq
  repeat' (first | with_reducible assumption | with_reducible intro _ | with_reducible refine hostDbRq_keeps ?_ | with_reducible refine RKeeps.next ?_ | (rw [State.mk_eq_of]; with_reducible refine Keeps.upd ?_) | with_reducible refine RKeeps.use (by assumption) ?_ | dsimp only | split)

theorem commandFetch_keeps {s₀ : State} {fn : FnId} {r : Option RingId} {packet : BitVec 512} {entry : BitVec 256} {payload : List Byte} {fetchErr : Bool} {payloadErr : Bool} {s : State} (hk : Keeps s₀ s) :
    Keeps s₀ (commandFetch fn r packet entry payload fetchErr payloadErr s) := by
  unfold commandFetch
  repeat' (first | with_reducible assumption | with_reducible intro _ | with_reducible refine State.modRing_keeps ?_ | with_reducible refine State.refuse_keeps ?_ | with_reducible refine State.refuseAccept_keeps ?_ | with_reducible refine State.takeIn_keeps ?_ | with_reducible refine State.allocT1_keeps ?_ | with_reducible refine State.answer_keeps ?_ | with_reducible refine OKeeps.none | with_reducible refine OKeeps.some ?_ | (rw [State.mk_eq_of]; with_reducible refine Keeps.upd ?_) | with_reducible refine OKeeps.use (by assumption) ?_ | dsimp only | split)

theorem execCommandFetch_keeps {s₀ : State} {fn : FnId} {r : Option RingId} {packet : BitVec 512} {entry : BitVec 256} {payload : List Byte} {fetchErr : Bool} {payloadErr : Bool} {s : State} (hk : Keeps s₀ s) :
    RKeeps s₀ (execCommandFetch fn r packet entry payload fetchErr payloadErr s) := by
  unfold execCommandFetch
  repeat' (first | with_reducible assumption | with_reducible intro _ | with_reducible refine commandFetch_keeps ?_ | with_reducible refine RKeeps.next ?_ | (rw [State.mk_eq_of]; with_reducible refine Keeps.upd ?_) | with_reducible refine RKeeps.use (by assumption) ?_ | dsimp only | split)

theorem State.signal_keeps {s₀ : State} {s : State} {fn : FnId} {r : Option RingId} (hk : Keeps s₀ s) :
    Keeps s₀ (State.signal s fn r) := by
  unfold State.signal
  repeat' (first | with_reducible assumption | with_reducible intro _ | with_reducible refine State.raise_keeps ?_ | with_reducible refine State.modRing_keeps ?_ | (rw [State.mk_eq_of]; with_reducible refine Keeps.upd ?_) | dsimp only | split)

theorem replyWrite_keeps {s₀ : State} {fn : FnId} {r : Option RingId} {payloadErr : Bool} {replyErr : Bool} {s : State} (hk : Keeps s₀ s) :
    Keeps s₀ (replyWrite fn r payloadErr replyErr s) := by
  unfold replyWrite
  repeat' (first | with_reducible assumption | with_reducible intro _ | with_reducible refine State.modRing_keeps ?_ | with_reducible refine State.send_keeps ?_ | with_reducible refine State.eraseSession_keeps ?_ | with_reducible refine State.ringIdle_keeps ?_ | with_reducible refine State.signal_keeps ?_ | (rw [State.mk_eq_of]; with_reducible refine Keeps.upd ?_) | dsimp only | split)

theorem execInterruptCoalesceTimer_keeps {s₀ : State} {fn : FnId} {r : Option RingId} {s : State} (hk : Keeps s₀ s) :
    RKeeps s₀ (execInterruptCoalesceTimer fn r s) := by
  unfold execInterruptCoalesceTimer
  repeat' (first | with_reducible assumption | with_reducible intro _ | with_reducible refine State.raise_keeps ?_ | with_reducible refine State.modRing_keeps ?_ | with_reducible refine RKeeps.next ?_ | (rw [State.mk_eq_of]; with_reducible refine Keeps.upd ?_) | with_reducible refine RKeeps.use (by assumption) ?_ | dsimp only | split)

theorem execEventVectorTimer_keeps {s₀ : State} {s : State} (hk : Keeps s₀ s) :
    RKeeps s₀ (execEventVectorTimer s) := by
  unfold execEventVectorTimer
  repeat' (first | with_reducible assumption | with_reducible intro _ | with_reducible refine State.raise_keeps ?_ | with_reducible refine RKeeps.next ?_ | (rw [State.mk_eq_of]; with_reducible refine Keeps.upd ?_) | with_reducible refine RKeeps.use (by assumption) ?_ | dsimp only | split)

theorem execD3hotEntry_keeps {s₀ : State} {fn : FnId} {s : State} (hk : Keeps s₀ s) :
    RKeeps s₀ (execD3hotEntry fn s) := by
  unfold execD3hotEntry
  repeat' (first | with_reducible assumption | with_reducible intro _ | with_reducible refine State.modHost_keeps ?_ | with_reducible refine RKeeps.next ?_ | (rw [State.mk_eq_of]; with_reducible refine Keeps.upd ?_) | with_reducible refine RKeeps.use (by assumption) ?_ | dsimp only | split)

theorem execD0Return_keeps {s₀ : State} {fn : FnId} {s : State} (hk : Keeps s₀ s) :
    RKeeps s₀ (execD0Return fn s) := by
  unfold execD0Return
  repeat' (first | with_reducible assumption | with_reducible intro _ | with_reducible refine State.modHost_keeps ?_ | with_reducible refine RKeeps.next ?_ | (rw [State.mk_eq_of]; with_reducible refine Keeps.upd ?_) | with_reducible refine RKeeps.use (by assumption) ?_ | dsimp only | split)

end Sys2Proof.Machine
end

