-- ==== Sys2Proof/Laws/KeepsRange.lean ====
section
/-! SUPPORT. The operations of Machine/Range.lean keep what `Keeps` says. -/

set_option linter.unusedTactic false
set_option linter.unreachableTactic false

namespace Sys2Proof.Machine

theorem State.modPage_keeps {s₀ : State} {s : State} {fn : FnId} {num : ℕ} {g : Page → Page} (hk : Keeps s₀ s) :
    Keeps s₀ (State.modPage s fn num g) := by
  unfold State.modPage
  repeat' (first | with_reducible assumption | with_reducible intro _ | with_reducible refine State.modFn_keeps ?_ | (rw [State.mk_eq_of]; with_reducible refine Keeps.upd ?_) | dsimp only | split)

theorem State.t1Access_keeps {s₀ : State} {s : State} {fn : FnId} {addr : ℕ} {n : ℕ} (hk : Keeps s₀ s) :
    Keeps s₀ (State.t1Access s fn addr n) := by
  unfold State.t1Access
  repeat' (first | with_reducible assumption | with_reducible intro _ | with_reducible refine State.access_keeps ?_ | (rw [State.mk_eq_of]; with_reducible refine Keeps.upd ?_) | dsimp only | split)

theorem State.noteRead_keeps {s₀ : State} {s : State} {fn : FnId} {addr : ℕ} {n : ℕ} (hk : Keeps s₀ s) :
    Keeps s₀ (State.noteRead s fn addr n) := by
  unfold State.noteRead
  repeat' (first | with_reducible assumption | with_reducible intro _ | with_reducible refine State.modPage_keeps ?_ | with_reducible refine State.stamp_keeps ?_ | (rw [State.mk_eq_of]; with_reducible refine Keeps.upd ?_) | with_reducible refine Keeps.foldl ?_ ?_ | with_reducible refine QKeeps.use (by assumption) ?_ | dsimp only | split)

theorem State.t1Read_keeps {s₀ : State} {s : State} {fn : FnId} {addr : ℕ} {n : ℕ} (hk : Keeps s₀ s) :
    Keeps s₀ (State.t1Read s fn addr n) := by
  unfold State.t1Read
  repeat' (first | with_reducible assumption | with_reducible intro _ | with_reducible refine State.noteRead_keeps ?_ | with_reducible refine State.t1Access_keeps ?_ | (rw [State.mk_eq_of]; with_reducible refine Keeps.upd ?_) | dsimp only | split)

theorem State.modHeat_keeps {s₀ : State} {s : State} {fn : FnId} {slot : Fin 32} {g : Heat → Heat} (hk : Keeps s₀ s) :
    Keeps s₀ (State.modHeat s fn slot g) := by
  unfold State.modHeat
  repeat' (first | with_reducible assumption | with_reducible intro _ | with_reducible refine State.modFn_keeps ?_ | (rw [State.mk_eq_of]; with_reducible refine Keeps.upd ?_) | dsimp only | split)

theorem State.record_keeps {s₀ : State} {s : State} {fn : FnId} {slot : Fin 32} {kind : ℕ} {payload : List Byte} (hk : Keeps s₀ s) :
    Keeps s₀ (State.record s fn slot kind payload) := by
  unfold State.record
  repeat' (first | with_reducible assumption | with_reducible intro _ | with_reducible refine State.modFn_keeps ?_ | with_reducible refine State.access_keeps ?_ | (rw [State.mk_eq_of]; with_reducible refine Keeps.upd ?_) | dsimp only | split)

theorem State.lastRecord_keeps {s₀ : State} {s : State} {fn : FnId} {slot : Fin 32} {kind : ℕ} {payload : List Byte} (hk : Keeps s₀ s) :
    Keeps s₀ (State.lastRecord s fn slot kind payload) := by
  unfold State.lastRecord
  repeat' (first | with_reducible assumption | with_reducible intro _ | with_reducible refine State.modFn_keeps ?_ | with_reducible refine State.access_keeps ?_ | (rw [State.mk_eq_of]; with_reducible refine Keeps.upd ?_) | dsimp only | split)

theorem State.openHeat_keeps {s₀ : State} {s : State} {fn : FnId} {origin : Origin} {maxActions : ℕ} {stepIndex : optParam ℕ 0} (hk : Keeps s₀ s) :
    OQKeeps s₀ (State.openHeat s fn origin maxActions stepIndex) := by
  unfold State.openHeat
  repeat' (first | with_reducible assumption | with_reducible intro _ | with_reducible refine State.record_keeps ?_ | with_reducible refine State.modFn_keeps ?_ | with_reducible refine OQKeeps.none | with_reducible refine OQKeeps.some ?_ | (rw [State.mk_eq_of]; with_reducible refine Keeps.upd ?_) | with_reducible refine OQKeeps.use (by assumption) ?_ | with_reducible refine OQKeeps.use' (by assumption) ?_ | dsimp only | split)

theorem State.act_keeps {s₀ : State} {s : State} {fn : FnId} {slot : Fin 32} {n : ℕ} (hk : Keeps s₀ s) :
    EKeeps s₀ (State.act s fn slot n) := by
  unfold State.act
  repeat' (first | with_reducible assumption | with_reducible intro _ | with_reducible refine State.modHeat_keeps ?_ | with_reducible refine EKeeps.ok ?_ | with_reducible refine EKeeps.error | (rw [State.mk_eq_of]; with_reducible refine Keeps.upd ?_) | with_reducible refine EKeeps.use (by assumption) ?_ | dsimp only | split)

theorem State.foldHeat_keeps {s₀ : State} {s : State} {fn : FnId} {slot : Fin 32} (hk : Keeps s₀ s) :
    Keeps s₀ (State.foldHeat s fn slot) := by
  unfold State.foldHeat
  repeat' (first | with_reducible assumption | with_reducible intro _ | with_reducible refine State.access_keeps ?_ | with_reducible refine State.freeT1_keeps ?_ | with_reducible refine State.modFn_keeps ?_ | with_reducible refine State.lastRecord_keeps ?_ | (rw [State.mk_eq_of]; with_reducible refine Keeps.upd ?_) | (rw [State.mk_eq_of]; with_reducible refine Keeps.updRam ?_ (fun hs => Memory.wf_write hs _ _)) | (rw [State.mk_eq_of]; with_reducible refine Keeps.updRam ?_ (fun hs => Memory.wf_clear hs _ _)) | (rw [State.mk_eq_of]; with_reducible refine Keeps.updRam ?_ (fun hs => Memory.wf_filter hs _)) | (rw [State.mk_eq_of]; with_reducible refine Keeps.updRam ?_ (fun hs => Memory.wf_foldl_put hs)) | with_reducible refine Keeps.foldl ?_ ?_ | dsimp only | split)

theorem State.foldClaimer_keeps {s₀ : State} {s : State} {fn : FnId} {slot : Fin 32} {g : ℕ} (hk : Keeps s₀ s) :
    Keeps s₀ (State.foldClaimer s fn slot g) := by
  unfold State.foldClaimer
  repeat' (first | with_reducible assumption | with_reducible intro _ | with_reducible refine State.foldHeat_keeps ?_ | (rw [State.mk_eq_of]; with_reducible refine Keeps.upd ?_) | dsimp only | split)

theorem State.claim_keeps {s₀ : State} {s : State} {fn : FnId} {slot : Fin 32} {g : ℕ} (hk : Keeps s₀ s) :
    EKeeps s₀ (State.claim s fn slot g) := by
  unfold State.claim
  repeat' (first | with_reducible assumption | with_reducible intro _ | with_reducible refine State.allocT1_keeps ?_ | with_reducible refine State.record_keeps ?_ | with_reducible refine State.modHeat_keeps ?_ | with_reducible refine EKeeps.ok ?_ | with_reducible refine EKeeps.error | with_reducible refine OKeeps.none | with_reducible refine OKeeps.some ?_ | (rw [State.mk_eq_of]; with_reducible refine Keeps.upd ?_) | with_reducible refine OKeeps.getD ?_ ?_ | with_reducible refine EKeeps.use (by assumption) ?_ | with_reducible refine OKeeps.use (by assumption) ?_ | dsimp only | split)

theorem State.claimGranule_keeps {s₀ : State} {s : State} {fn : FnId} {slot : Fin 32} {addr : ℕ} {bs : List Byte} (hk : Keeps s₀ s) :
    EKeeps s₀ (State.claimGranule s fn slot addr bs) := by
  unfold State.claimGranule
  repeat' (first | with_reducible assumption | with_reducible intro _ | with_reducible refine State.foldClaimer_keeps ?_ | with_reducible refine State.act_keeps ?_ | with_reducible refine State.claim_keeps ?_ | with_reducible refine State.modHeat_keeps ?_ | with_reducible refine State.access_keeps ?_ | with_reducible refine EKeeps.ok ?_ | with_reducible refine EKeeps.error | (rw [State.mk_eq_of]; with_reducible refine Keeps.upd ?_) | with_reducible refine EKeeps.use (by assumption) ?_ | dsimp only | split)

theorem State.fixStaging_keeps {s₀ : State} {s : State} {g : FnId} (hk : Keeps s₀ s) :
    Keeps s₀ (State.fixStaging s g) := by
  unfold State.fixStaging
  repeat' (first | with_reducible assumption | with_reducible intro _ | (rw [State.mk_eq_of]; with_reducible refine Keeps.upd ?_) | (rw [State.mk_eq_of]; with_reducible refine Keeps.updT1 ?_ (fun hs => frames_filter _ hs)) | (rw [State.mk_eq_of]; with_reducible refine Keeps.updT1 ?_ (fun hs => frames_map _ (fun _ => rfl) hs)) | (rw [State.mk_eq_of]; with_reducible refine Keeps.updT1 ?_ (fun hs => frames_map _ ?_ hs); rotate_left; intro x; try dsimp only; split <;> rfl) | dsimp only | split)

theorem State.fixFrames_keeps {s₀ : State} {s : State} {g : FnId} {num : ℕ} (hk : Keeps s₀ s) :
    Keeps s₀ (State.fixFrames s g num) := by
  unfold State.fixFrames
  repeat' (first | with_reducible assumption | with_reducible intro _ | with_reducible refine State.freeT2_keeps ?_ | with_reducible refine State.fixStaging_keeps ?_ | with_reducible refine State.modFn_keeps ?_ | (rw [State.mk_eq_of]; with_reducible refine Keeps.upd ?_) | (rw [State.mk_eq_of]; with_reducible refine Keeps.updT1 ?_ (fun hs => frames_filter _ hs)) | (rw [State.mk_eq_of]; with_reducible refine Keeps.updT1 ?_ (fun hs => frames_map _ (fun _ => rfl) hs)) | (rw [State.mk_eq_of]; with_reducible refine Keeps.updT1 ?_ (fun hs => frames_map _ ?_ hs); rotate_left; intro x; try dsimp only; split <;> rfl) | dsimp only | split)

theorem State.takeT1_keeps {s₀ : State} {s : State} {g : FnId} {num : ℕ} (hk : Keeps s₀ s) :
    OKeeps s₀ (State.takeT1 s g num) := by
  unfold State.takeT1
  repeat' (first | with_reducible assumption | with_reducible intro _ | with_reducible refine State.fixStaging_keeps ?_ | with_reducible refine State.modFn_keeps ?_ | with_reducible refine State.allocT1_keeps ?_ | with_reducible refine OKeeps.none | with_reducible refine OKeeps.some ?_ | (rw [State.mk_eq_of]; with_reducible refine Keeps.upd ?_) | with_reducible refine OKeeps.map ?_ ?_ | with_reducible refine OKeeps.mapQ ?_ ?_ | with_reducible refine OKeeps.mapOf ?_ | with_reducible refine OKeeps.use (by assumption) ?_ | dsimp only | split)

theorem State.rewrites_keeps {s₀ : State} {s : State} {fn : FnId} {slot : Fin 32} {addr : ℕ} {n : ℕ} (hk : Keeps s₀ s) :
    EKeeps s₀ (State.rewrites s fn slot addr n) := by
  unfold State.rewrites
  repeat' (first | with_reducible assumption | with_reducible intro _ | with_reducible refine State.takeT1_keeps ?_ | with_reducible refine State.modHeat_keeps ?_ | with_reducible refine EKeeps.ok ?_ | with_reducible refine EKeeps.error | with_reducible refine OKeeps.none | with_reducible refine OKeeps.some ?_ | (rw [State.mk_eq_of]; with_reducible refine Keeps.upd ?_) | with_reducible refine Keeps.foldl ?_ ?_ | with_reducible refine OKeeps.foldl ?_ ?_ | with_reducible refine OKeeps.bind ?_ ?_ | with_reducible refine OKeeps.bindOf ?_ | with_reducible refine EKeeps.bind ?_ ?_ | with_reducible refine EKeeps.use (by assumption) ?_ | with_reducible refine OKeeps.use (by assumption) ?_ | dsimp only | split)

theorem State.heatWrite_keeps {s₀ : State} {s : State} {fn : FnId} {slot : Fin 32} {addr : ℕ} {bs : List Byte} (hk : Keeps s₀ s) :
    EKeeps s₀ (State.heatWrite s fn slot addr bs) := by
  unfold State.heatWrite
  repeat' (first | with_reducible assumption | with_reducible intro _ | with_reducible refine State.t1Access_keeps ?_ | with_reducible refine State.claimGranule_keeps ?_ | with_reducible refine State.rewrites_keeps ?_ | with_reducible refine EKeeps.ok ?_ | with_reducible refine EKeeps.error | (rw [State.mk_eq_of]; with_reducible refine Keeps.upd ?_) | (rw [State.mk_eq_of]; with_reducible refine Keeps.updRam ?_ (fun hs => Memory.wf_write hs _ _)) | (rw [State.mk_eq_of]; with_reducible refine Keeps.updRam ?_ (fun hs => Memory.wf_clear hs _ _)) | (rw [State.mk_eq_of]; with_reducible refine Keeps.updRam ?_ (fun hs => Memory.wf_filter hs _)) | (rw [State.mk_eq_of]; with_reducible refine Keeps.updRam ?_ (fun hs => Memory.wf_foldl_put hs)) | with_reducible refine EKeeps.foldE ?_ ?_ | with_reducible refine EKeeps.map ?_ ?_ | with_reducible refine EKeeps.mapError ?_ | with_reducible refine EKeeps.use (by assumption) ?_ | dsimp only | split)

theorem State.unpin_keeps {s₀ : State} {s : State} {l : List (FnId × ℕ)} (hk : Keeps s₀ s) :
    Keeps s₀ (State.unpin s l) := by
  unfold State.unpin
  repeat' (first | with_reducible assumption | with_reducible intro _ | with_reducible refine State.modFn_keeps ?_ | with_reducible refine State.fixFrames_keeps ?_ | with_reducible refine State.modPage_keeps ?_ | (rw [State.mk_eq_of]; with_reducible refine Keeps.upd ?_) | with_reducible refine Keeps.foldl ?_ ?_ | dsimp only | split)

theorem State.readyModels_keeps {s₀ : State} {s : State} {fn : FnId} (hk : Keeps s₀ s) :
    Keeps s₀ (State.readyModels s fn) := by
  unfold State.readyModels
  repeat' (first | with_reducible assumption | with_reducible intro _ | (rw [State.mk_eq_of]; with_reducible refine Keeps.upd ?_) | dsimp only | split)

theorem State.spill_keeps {s₀ : State} {s : State} {fn : FnId} {slot : Fin 32} {l : CacheLine} (hk : Keeps s₀ s) :
    Keeps s₀ (State.spill s fn slot l) := by
  unfold State.spill
  repeat' (first | with_reducible assumption | with_reducible intro _ | with_reducible refine State.modHeat_keeps ?_ | with_reducible refine State.access_keeps ?_ | (rw [State.mk_eq_of]; with_reducible refine Keeps.upd ?_) | dsimp only | split)

theorem State.flushLine_keeps {s₀ : State} {s : State} {l : CacheLine} (hk : Keeps s₀ s) :
    Keeps s₀ (State.flushLine s l) := by
  unfold State.flushLine
  repeat' (first | with_reducible assumption | with_reducible intro _ | with_reducible refine State.spill_keeps ?_ | (rw [State.mk_eq_of]; with_reducible refine Keeps.upd ?_) | dsimp only | split)

theorem State.dropCache_keeps {s₀ : State} {s : State} (hk : Keeps s₀ s) :
    Keeps s₀ (State.dropCache s) := by
  unfold State.dropCache
  repeat' (first | with_reducible assumption | with_reducible intro _ | with_reducible refine State.flushLine_keeps ?_ | (rw [State.mk_eq_of]; with_reducible refine Keeps.upd ?_) | with_reducible refine Keeps.foldl ?_ ?_ | dsimp only | split)

theorem State.spillLines_keeps {s₀ : State} {s : State} {fn : FnId} {slot : Fin 32} (hk : Keeps s₀ s) :
    Keeps s₀ (State.spillLines s fn slot) := by
  unfold State.spillLines
  repeat' (first | with_reducible assumption | with_reducible intro _ | with_reducible refine State.spill_keeps ?_ | (rw [State.mk_eq_of]; with_reducible refine Keeps.upd ?_) | with_reducible refine Keeps.foldl ?_ ?_ | dsimp only | split)

theorem State.queueMoves_keeps {s₀ : State} {s : State} {g : FnId} {mover : Option FnId} (hk : Keeps s₀ s) :
    Keeps s₀ (State.queueMoves s g mover) := by
  unfold State.queueMoves
  repeat' (first | with_reducible assumption | with_reducible intro _ | with_reducible refine State.modPage_keeps ?_ | with_reducible refine State.stamp_keeps ?_ | (rw [State.mk_eq_of]; with_reducible refine Keeps.upd ?_) | with_reducible refine Keeps.foldl ?_ ?_ | with_reducible refine QKeeps.use (by assumption) ?_ | dsimp only | split)

theorem State.commitHeat_keeps {s₀ : State} {s : State} {fn : FnId} {slot : Fin 32} (hk : Keeps s₀ s) :
    Keeps s₀ (State.commitHeat s fn slot) := by
  unfold State.commitHeat
  repeat' (first | with_reducible assumption | with_reducible intro _ | with_reducible refine State.spillLines_keeps ?_ | with_reducible refine State.modFn_keeps ?_ | with_reducible refine State.record_keeps ?_ | with_reducible refine State.queueMoves_keeps ?_ | with_reducible refine State.readyModels_keeps ?_ | with_reducible refine State.fixFrames_keeps ?_ | (rw [State.mk_eq_of]; with_reducible refine Keeps.upd ?_) | with_reducible refine Keeps.foldl ?_ ?_ | dsimp only | split)

theorem State.scrapHeat_keeps {s₀ : State} {s : State} {fn : FnId} {slot : Fin 32} {st : Status} (hk : Keeps s₀ s) :
    Keeps s₀ (State.scrapHeat s fn slot st) := by
  unfold State.scrapHeat
  repeat' (first | with_reducible assumption | with_reducible intro _ | with_reducible refine State.freeT1_keeps ?_ | with_reducible refine State.modFn_keeps ?_ | with_reducible refine State.lastRecord_keeps ?_ | (rw [State.mk_eq_of]; with_reducible refine Keeps.upd ?_) | dsimp only | split)

theorem State.edit_keeps {s₀ : State} {s : State} {fn : FnId} {slot : Fin 32} {e : Edit} (hk : Keeps s₀ s) :
    Keeps s₀ (State.edit s fn slot e) := by
  unfold State.edit
  repeat' (first | with_reducible assumption | with_reducible intro _ | with_reducible refine State.modHeat_keeps ?_ | with_reducible refine State.record_keeps ?_ | (rw [State.mk_eq_of]; with_reducible refine Keeps.upd ?_) | dsimp only | split)

theorem State.fixIndex_keeps {s₀ : State} {s : State} {fn : FnId} {k : ℕ} (hk : Keeps s₀ s) :
    OKeeps s₀ (State.fixIndex s fn k) := by
  unfold State.fixIndex
  repeat' (first | with_reducible assumption | with_reducible intro _ | with_reducible refine State.modFn_keeps ?_ | with_reducible refine State.allocT1_keeps ?_ | with_reducible refine State.freeT1_keeps ?_ | with_reducible refine OKeeps.none | with_reducible refine OKeeps.some ?_ | (rw [State.mk_eq_of]; with_reducible refine Keeps.upd ?_) | (rw [State.mk_eq_of]; with_reducible refine Keeps.updRam ?_ (fun hs => Memory.wf_write hs _ _)) | (rw [State.mk_eq_of]; with_reducible refine Keeps.updRam ?_ (fun hs => Memory.wf_clear hs _ _)) | (rw [State.mk_eq_of]; with_reducible refine Keeps.updRam ?_ (fun hs => Memory.wf_filter hs _)) | (rw [State.mk_eq_of]; with_reducible refine Keeps.updRam ?_ (fun hs => Memory.wf_foldl_put hs)) | with_reducible refine OKeeps.map ?_ ?_ | with_reducible refine OKeeps.mapQ ?_ ?_ | with_reducible refine OKeeps.mapOf ?_ | with_reducible refine OKeeps.use (by assumption) ?_ | dsimp only | split)

theorem State.fixIndexes_keeps {s₀ : State} {s : State} {fn : FnId} {first : ℕ} {n : ℕ} (hk : Keeps s₀ s) :
    OKeeps s₀ (State.fixIndexes s fn first n) := by
  unfold State.fixIndexes
  repeat' (first | with_reducible assumption | with_reducible intro _ | with_reducible refine State.fixIndex_keeps ?_ | with_reducible refine OKeeps.none | with_reducible refine OKeeps.some ?_ | (rw [State.mk_eq_of]; with_reducible refine Keeps.upd ?_) | with_reducible refine Keeps.foldl ?_ ?_ | with_reducible refine OKeeps.foldl ?_ ?_ | with_reducible refine OKeeps.bind ?_ ?_ | with_reducible refine OKeeps.bindOf ?_ | with_reducible refine OKeeps.use (by assumption) ?_ | dsimp only | split)

theorem State.commitCmd_keeps {s₀ : State} {s : State} {op : Op} {k : Cmd} {slot : Fin 32} {d : ℕ} {pl : List Byte} (hk : Keeps s₀ s) :
    Keeps s₀ (State.commitCmd s op k slot d pl) := by
  unfold State.commitCmd
  repeat' (first | with_reducible assumption | with_reducible intro _ | with_reducible refine State.modHeat_keeps ?_ | with_reducible refine State.finish_keeps ?_ | with_reducible refine State.commitHeat_keeps ?_ | (rw [State.mk_eq_of]; with_reducible refine Keeps.upd ?_) | dsimp only | split)

theorem inHeat_keeps {s₀ : State} {op : Op} {k : Cmd} {s : State} {body : Fin 32 → State → Except (Status × Bool) (State × ℕ × List Byte)} (hk : Keeps s₀ s)
    (hb0 : ∀ x0 x1, Keeps s₀ x1 → EPKeeps s₀ (body x0 x1)) :
    Keeps s₀ (inHeat op k s body) := by
  unfold inHeat
  repeat' (first | with_reducible assumption | with_reducible intro _ | with_reducible refine hb0 _ _ ?_ | with_reducible refine State.finish_keeps ?_ | with_reducible refine State.modFn_keeps ?_ | with_reducible refine State.scrapHeat_keeps ?_ | with_reducible refine State.openHeat_keeps ?_ | with_reducible refine State.commitCmd_keeps ?_ | with_reducible refine EPKeeps.ok ?_ | with_reducible refine EPKeeps.error | with_reducible refine OQKeeps.none | with_reducible refine OQKeeps.some ?_ | (rw [State.mk_eq_of]; with_reducible refine Keeps.upd ?_) | with_reducible refine EPKeeps.use (by assumption) ?_ | with_reducible refine EPKeeps.use' (by assumption) ?_ | with_reducible refine OQKeeps.use (by assumption) ?_ | with_reducible refine OQKeeps.use' (by assumption) ?_ | dsimp only | split)

end Sys2Proof.Machine
end

