-- ==== Sys2Proof/Laws/KeepsHearth.lean ====
section
/-! SUPPORT. The operations of Machine/Hearth.lean keep what `Keeps` says. -/

set_option linter.unusedTactic false
set_option linter.unreachableTactic false

namespace Sys2Proof.Machine

theorem State.writeRow_keeps {s₀ : State} {s : State} {f : ForgeId} {fn : FnId} {id : BitVec 64} {mf : MForge} {slot : ℕ} {i : ℕ} {bs : List Byte} (hk : Keeps s₀ s) :
    Keeps s₀ (State.writeRow s f fn id mf slot i bs) := by
  unfold State.writeRow
  repeat' (first | with_reducible assumption | with_reducible intro _ | with_reducible refine State.modFn_keeps ?_ | (rw [State.mk_eq_of]; with_reducible refine Keeps.upd ?_) | (rw [State.mk_eq_of]; with_reducible refine Keeps.updHearth ?_ (fun hs => Memory.sorted_writeAll hs _ _)) | (rw [State.mk_eq_of]; with_reducible refine Keeps.updHearth ?_ (fun hs => Memory.sorted_filter hs _)) | dsimp only | split)

theorem State.writeRows_keeps {s₀ : State} {s : State} {f : ForgeId} {fn : FnId} {id : BitVec 64} {mf : MForge} {slot : ℕ} {first : ℕ} {bs : List Byte} (hk : Keeps s₀ s) :
    Keeps s₀ (State.writeRows s f fn id mf slot first bs) := by
  unfold State.writeRows
  repeat' (first | with_reducible assumption | with_reducible intro _ | with_reducible refine State.writeRow_keeps ?_ | (rw [State.mk_eq_of]; with_reducible refine Keeps.upd ?_) | with_reducible refine Keeps.foldl ?_ ?_ | dsimp only | split)

theorem State.modMForge_keeps {s₀ : State} {s : State} {fn : FnId} {id : BitVec 64} {logical : ℕ} {g : MForge → MForge} (hk : Keeps s₀ s) :
    Keeps s₀ (State.modMForge s fn id logical g) := by
  unfold State.modMForge
  repeat' (first | with_reducible assumption | with_reducible intro _ | with_reducible refine State.modFn_keeps ?_ | (rw [State.mk_eq_of]; with_reducible refine Keeps.upd ?_) | dsimp only | split)

theorem State.finishDesc_keeps {s₀ : State} {s : State} {f : ForgeId} {j : Job} {mf : MForge} {c : TongsId} {a : TActive} (hk : Keeps s₀ s) :
    Keeps s₀ (State.finishDesc s f j mf c a) := by
  unfold State.finishDesc
  repeat' (first | with_reducible assumption | with_reducible intro _ | with_reducible refine State.writeRow_keeps ?_ | with_reducible refine State.modMForge_keeps ?_ | with_reducible refine State.modForge_keeps ?_ | (rw [State.mk_eq_of]; with_reducible refine Keeps.upd ?_) | dsimp only | split)

theorem State.finishActives_keeps {s₀ : State} {s : State} {fn : FnId} {id : BitVec 64} (hk : Keeps s₀ s) :
    Keeps s₀ (State.finishActives s fn id) := by
  unfold State.finishActives
  repeat' (first | with_reducible assumption | with_reducible intro _ | with_reducible refine State.modForge_keeps ?_ | with_reducible refine State.finishDesc_keeps ?_ | (rw [State.mk_eq_of]; with_reducible refine Keeps.upd ?_) | with_reducible refine Keeps.foldl ?_ ?_ | dsimp only | split)

end Sys2Proof.Machine
end

