-- ==== Sys2Proof/Laws/KeepsStop.lean ====
section
/-! SUPPORT. The operations of Machine/Stop.lean keep what `Keeps` says. -/

set_option linter.unusedTactic false
set_option linter.unreachableTactic false

namespace Sys2Proof.Machine

theorem State.modMould_keeps {s₀ : State} {s : State} {fn : FnId} {id : BitVec 64} {g : Mould → Mould} (hk : Keeps s₀ s) :
    Keeps s₀ (State.modMould s fn id g) := by
  unfold State.modMould
  repeat' (first | with_reducible assumption | with_reducible intro _ | with_reducible refine State.modFn_keeps ?_ | (rw [State.mk_eq_of]; with_reducible refine Keeps.upd ?_) | dsimp only | split)

theorem State.modRun_keeps {s₀ : State} {s : State} {fn : FnId} {id : BitVec 64} {g : Running → Running} (hk : Keeps s₀ s) :
    Keeps s₀ (State.modRun s fn id g) := by
  unfold State.modRun
  repeat' (first | with_reducible assumption | with_reducible intro _ | with_reducible refine State.modMould_keeps ?_ | (rw [State.mk_eq_of]; with_reducible refine Keeps.upd ?_) | dsimp only | split)

theorem State.restorePersist_keeps {s₀ s : State} {cells : List Host.Cell} (h : Keeps s₀ s) :
    Keeps s₀ (State.restorePersist s cells) := by
  unfold State.restorePersist
  rw [State.mk_eq_of]
  refine h.updHearth fun hs => ?_
  clear h
  generalize s.hearth = m at hs ⊢
  induction cells generalizing m with
  | nil => exact hs
  | cons c l ih => exact ih _ (Memory.sorted_putAll hs _ _)

theorem State.sendRecord_keeps {s₀ : State} {s : State} {p : PortId} {r : Record} (hk : Keeps s₀ s) :
    Keeps s₀ (State.sendRecord s p r) := by
  unfold State.sendRecord
  repeat' (first | with_reducible assumption | with_reducible intro _ | with_reducible refine State.modPort_keeps ?_ | (rw [State.mk_eq_of]; with_reducible refine Keeps.upd ?_) | dsimp only | split)

theorem State.sendTo_keeps {s₀ : State} {s : State} {fn : FnId} {m : Mould} {pos : ℕ} {kind : ℕ} {sub : ℕ} {step : ℕ} {seq : ℕ} {flags : optParam ℕ 0} {format : optParam ℕ 0} {body : optParam (List Byte) []} (hk : Keeps s₀ s) :
    Keeps s₀ (State.sendTo s fn m pos kind sub step seq flags format body) := by
  unfold State.sendTo
  repeat' (first | with_reducible assumption | with_reducible intro _ | with_reducible refine State.sendRecord_keeps ?_ | (rw [State.mk_eq_of]; with_reducible refine Keeps.upd ?_) | dsimp only | split)

theorem State.sendHeat_keeps {s₀ : State} {s : State} {fn : FnId} {m : Mould} {pos : ℕ} {sub : ℕ} {b : ℕ} {step : ℕ} (hk : Keeps s₀ s) :
    Keeps s₀ (State.sendHeat s fn m pos sub b step) := by
  unfold State.sendHeat
  repeat' (first | with_reducible assumption | with_reducible intro _ | with_reducible refine State.sendTo_keeps ?_ | (rw [State.mk_eq_of]; with_reducible refine Keeps.upd ?_) | dsimp only | split)

theorem State.resendDecisions_keeps {s₀ : State} {s : State} (hk : Keeps s₀ s) :
    Keeps s₀ (State.resendDecisions s) := by
  unfold State.resendDecisions
  repeat' (first | with_reducible assumption | with_reducible intro _ | with_reducible refine State.sendHeat_keeps ?_ | (rw [State.mk_eq_of]; with_reducible refine Keeps.upd ?_) | with_reducible refine Keeps.foldl ?_ ?_ | dsimp only | split)

theorem State.unpinStep_keeps {s₀ : State} {s : State} {fn : FnId} {id : BitVec 64} {pins : List ℕ} {pinned : List (FnId × ℕ)} (hk : Keeps s₀ s) :
    Keeps s₀ (State.unpinStep s fn id pins pinned) := by
  unfold State.unpinStep
  repeat' (first | with_reducible assumption | with_reducible intro _ | with_reducible refine State.modFn_keeps ?_ | with_reducible refine State.unpin_keeps ?_ | (rw [State.mk_eq_of]; with_reducible refine Keeps.upd ?_) | with_reducible refine Keeps.foldl ?_ ?_ | dsimp only | split)

theorem State.releasePins_keeps {s₀ : State} {s : State} {fn : FnId} {id : BitVec 64} {r : Running} (hk : Keeps s₀ s) :
    Keeps s₀ (State.releasePins s fn id r) := by
  unfold State.releasePins
  repeat' (first | with_reducible assumption | with_reducible intro _ | with_reducible refine State.unpinStep_keeps ?_ | (rw [State.mk_eq_of]; with_reducible refine Keeps.upd ?_) | dsimp only | split)

theorem State.releaseHeld_keeps {s₀ : State} {s : State} {fn : FnId} {h : Heat} (hk : Keeps s₀ s) :
    Keeps s₀ (State.releaseHeld s fn h) := by
  unfold State.releaseHeld
  repeat' (first | with_reducible assumption | with_reducible intro _ | with_reducible refine State.unpinStep_keeps ?_ | (rw [State.mk_eq_of]; with_reducible refine Keeps.upd ?_) | dsimp only | split)

theorem State.scrapStepHeat_keeps {s₀ : State} {s : State} {fn : FnId} {slot : Fin 32} {st : Status} (hk : Keeps s₀ s) :
    Keeps s₀ (State.scrapStepHeat s fn slot st) := by
  unfold State.scrapStepHeat
  repeat' (first | with_reducible assumption | with_reducible intro _ | with_reducible refine State.releaseHeld_keeps ?_ | with_reducible refine State.scrapHeat_keeps ?_ | with_reducible refine State.modFn_keeps ?_ | with_reducible refine State.sendTo_keeps ?_ | (rw [State.mk_eq_of]; with_reducible refine Keeps.upd ?_) | with_reducible refine Keeps.foldl ?_ ?_ | dsimp only | split)

theorem State.idleForges_keeps {s₀ : State} {s : State} {fn : FnId} {id : BitVec 64} (hk : Keeps s₀ s) :
    Keeps s₀ (State.idleForges s fn id) := by
  unfold State.idleForges
  repeat' (first | with_reducible assumption | with_reducible intro _ | (rw [State.mk_eq_of]; with_reducible refine Keeps.upd ?_) | dsimp only | split)

theorem State.freeReserved_keeps {s₀ : State} {s : State} {fn : FnId} {m : Mould} (hk : Keeps s₀ s) :
    Keeps s₀ (State.freeReserved s fn m) := by
  unfold State.freeReserved
  repeat' (first | with_reducible assumption | with_reducible intro _ | (rw [State.mk_eq_of]; with_reducible refine Keeps.upd ?_) | (rw [State.mk_eq_of]; with_reducible refine Keeps.updT1 ?_ (fun hs => frames_filter _ hs)) | (rw [State.mk_eq_of]; with_reducible refine Keeps.updT1 ?_ (fun hs => frames_map _ (fun _ => rfl) hs)) | (rw [State.mk_eq_of]; with_reducible refine Keeps.updT1 ?_ (fun hs => frames_map _ ?_ hs); rotate_left; intro x; try dsimp only; split <;> rfl) | dsimp only | split)

theorem State.stopStep_keeps {s₀ : State} {s : State} {fn : FnId} {id : BitVec 64} {restore : Bool} {st : optParam Status Status.annealed} (hk : Keeps s₀ s) :
    Keeps s₀ (State.stopStep s fn id restore st) := by
  unfold State.stopStep
  repeat' (first | with_reducible assumption | with_reducible intro _ | with_reducible refine State.scrapStepHeat_keeps ?_ | with_reducible refine State.idleForges_keeps ?_ | with_reducible refine State.modHeat_keeps ?_ | with_reducible refine State.releasePins_keeps ?_ | with_reducible refine State.freeReserved_keeps ?_ | with_reducible refine State.modRun_keeps ?_ | with_reducible refine State.modMould_keeps ?_ | with_reducible refine State.restorePersist_keeps ?_ | (rw [State.mk_eq_of]; with_reducible refine Keeps.upd ?_) | with_reducible refine Keeps.foldl ?_ ?_ | dsimp only | split)

theorem State.endRunCmd_keeps {s₀ : State} {s : State} {fn : FnId} {id : BitVec 64} {st : Status} (hk : Keeps s₀ s) :
    Keeps s₀ (State.endRunCmd s fn id st) := by
  unfold State.endRunCmd
  repeat' (first | with_reducible assumption | with_reducible intro _ | with_reducible refine State.finish_keeps ?_ | with_reducible refine State.modMould_keeps ?_ | (rw [State.mk_eq_of]; with_reducible refine Keeps.upd ?_) | dsimp only | split)

theorem State.closeStep_keeps {s₀ : State} {s : State} {fn : FnId} {id : BitVec 64} {st : Status} {restore : optParam Bool false} (hk : Keeps s₀ s) :
    Keeps s₀ (State.closeStep s fn id st restore) := by
  unfold State.closeStep
  repeat' (first | with_reducible assumption | with_reducible intro _ | with_reducible refine State.stopStep_keeps ?_ | with_reducible refine State.endRunCmd_keeps ?_ | with_reducible refine State.modMould_keeps ?_ | (rw [State.mk_eq_of]; with_reducible refine Keeps.upd ?_) | dsimp only | split)

theorem State.endStep_keeps {s₀ : State} {s : State} {fn : FnId} {id : BitVec 64} {st : Status} {restore : optParam Bool false} (hk : Keeps s₀ s) :
    Keeps s₀ (State.endStep s fn id st restore) := by
  unfold State.endStep
  repeat' (first | with_reducible assumption | with_reducible intro _ | with_reducible refine State.finishActives_keeps ?_ | with_reducible refine State.modRun_keeps ?_ | with_reducible refine State.closeStep_keeps ?_ | (rw [State.mk_eq_of]; with_reducible refine Keeps.upd ?_) | dsimp only | split)

theorem State.endDue_keeps {s₀ : State} {s : State} {fn : FnId} {id : BitVec 64} (hk : Keeps s₀ s) :
    Keeps s₀ (State.endDue s fn id) := by
  unfold State.endDue
  repeat' (first | with_reducible assumption | with_reducible intro _ | with_reducible refine State.closeStep_keeps ?_ | (rw [State.mk_eq_of]; with_reducible refine Keeps.upd ?_) | dsimp only | split)

theorem State.replay_keeps {s₀ : State} {s : State} {fn : FnId} {id : BitVec 64} (hk : Keeps s₀ s) :
    Keeps s₀ (State.replay s fn id) := by
  unfold State.replay
  repeat' (first | with_reducible assumption | with_reducible intro _ | with_reducible refine State.modFn_keeps ?_ | with_reducible refine State.modRun_keeps ?_ | with_reducible refine State.stopStep_keeps ?_ | (rw [State.mk_eq_of]; with_reducible refine Keeps.upd ?_) | dsimp only | split)

theorem State.annealStep_keeps {s₀ : State} {s : State} {fn : FnId} {id : BitVec 64} {rank : ℕ} (hk : Keeps s₀ s) :
    Keeps s₀ (State.annealStep s fn id rank) := by
  unfold State.annealStep
  repeat' (first | with_reducible assumption | with_reducible intro _ | with_reducible refine State.closeStep_keeps ?_ | with_reducible refine State.stopStep_keeps ?_ | with_reducible refine State.modMould_keeps ?_ | with_reducible refine State.log_keeps ?_ | with_reducible refine State.modFn_keeps ?_ | with_reducible refine State.modRun_keeps ?_ | (rw [State.mk_eq_of]; with_reducible refine Keeps.upd ?_) | dsimp only | split)

theorem State.closeWindows_keeps {s₀ : State} {s : State} {fn : FnId} (hk : Keeps s₀ s) :
    Keeps s₀ (State.closeWindows s fn) := by
  unfold State.closeWindows
  repeat' (first | with_reducible assumption | with_reducible intro _ | (rw [State.mk_eq_of]; with_reducible refine Keeps.upd ?_) | dsimp only | split)

theorem State.scrapCmdHeats_keeps {s₀ : State} {s : State} {fn : FnId} {st : Status} (hk : Keeps s₀ s) :
    Keeps s₀ (State.scrapCmdHeats s fn st) := by
  unfold State.scrapCmdHeats
  repeat' (first | with_reducible assumption | with_reducible intro _ | with_reducible refine State.modFn_keeps ?_ | with_reducible refine State.scrapHeat_keeps ?_ | (rw [State.mk_eq_of]; with_reducible refine Keeps.upd ?_) | with_reducible refine Keeps.foldl ?_ ?_ | dsimp only | split)

theorem State.scrapOpen_keeps {s₀ : State} {s : State} {fn : FnId} (hk : Keeps s₀ s) :
    Keeps s₀ (State.scrapOpen s fn) := by
  unfold State.scrapOpen
  repeat' (first | with_reducible assumption | with_reducible intro _ | with_reducible refine State.finish_keeps ?_ | with_reducible refine State.scrapStepHeat_keeps ?_ | (rw [State.mk_eq_of]; with_reducible refine Keeps.upd ?_) | with_reducible refine Keeps.foldl ?_ ?_ | dsimp only | split)

theorem State.endFlights_keeps {s₀ : State} {s : State} {p : Flight → Bool} {st : Status} (hk : Keeps s₀ s) :
    Keeps s₀ (State.endFlights s p st) := by
  unfold State.endFlights
  repeat' (first | with_reducible assumption | with_reducible intro _ | with_reducible refine State.finish_keeps ?_ | (rw [State.mk_eq_of]; with_reducible refine Keeps.upd ?_) | with_reducible refine Keeps.foldl ?_ ?_ | dsimp only | split)

theorem State.dropScans_keeps {s₀ : State} {s : State} {fn : FnId} (hk : Keeps s₀ s) :
    Keeps s₀ (State.dropScans s fn) := by
  unfold State.dropScans
  repeat' (first | with_reducible assumption | with_reducible intro _ | with_reducible refine State.modFn_keeps ?_ | (rw [State.mk_eq_of]; with_reducible refine Keeps.upd ?_) | dsimp only | split)

theorem State.tenantReset_keeps {s₀ : State} {s : State} {fn : FnId} {rank : ℕ} (hk : Keeps s₀ s) :
    Keeps s₀ (State.tenantReset s fn rank) := by
  unfold State.tenantReset
  repeat' (first | with_reducible assumption | with_reducible intro _ | with_reducible refine State.annealStep_keeps ?_ | with_reducible refine State.scrapOpen_keeps ?_ | with_reducible refine State.scrapCmdHeats_keeps ?_ | with_reducible refine State.modFn_keeps ?_ | with_reducible refine State.closeWindows_keeps ?_ | with_reducible refine State.dropScans_keeps ?_ | with_reducible refine State.endFlights_keeps ?_ | (rw [State.mk_eq_of]; with_reducible refine Keeps.upd ?_) | with_reducible refine Keeps.foldl ?_ ?_ | dsimp only | split)

theorem State.errorSummary_keeps {s₀ : State} {s : State} (hk : Keeps s₀ s) :
    Keeps s₀ (State.errorSummary s) := by
  unfold State.errorSummary
  repeat' (first | with_reducible assumption | with_reducible intro _ | with_reducible refine State.ledgerWrite_keeps ?_ | with_reducible refine OKeeps.none | with_reducible refine OKeeps.some ?_ | (rw [State.mk_eq_of]; with_reducible refine Keeps.upd ?_) | (rw [State.mk_eq_of]; with_reducible refine Keeps.updT1 ?_ (fun hs => frames_filter _ hs)) | (rw [State.mk_eq_of]; with_reducible refine Keeps.updT1 ?_ (fun hs => frames_map _ (fun _ => rfl) hs)) | (rw [State.mk_eq_of]; with_reducible refine Keeps.updT1 ?_ (fun hs => frames_map _ ?_ hs); rotate_left; intro x; try dsimp only; split <;> rfl) | (rw [State.mk_eq_of]; with_reducible refine Keeps.updT2 ?_ (fun hs => frames_filter _ hs)) | (rw [State.mk_eq_of]; with_reducible refine Keeps.updT2 ?_ (fun hs => frames_map _ (fun _ => rfl) hs)) | (rw [State.mk_eq_of]; with_reducible refine Keeps.updT2 ?_ (fun hs => frames_map _ ?_ hs); rotate_left; intro x; try dsimp only; split <;> rfl) | with_reducible refine Keeps.foldl ?_ ?_ | with_reducible refine OKeeps.foldl ?_ ?_ | with_reducible refine OKeeps.map ?_ ?_ | with_reducible refine OKeeps.mapQ ?_ ?_ | with_reducible refine OKeeps.mapOf ?_ | with_reducible refine OKeeps.getD ?_ ?_ | with_reducible refine OKeeps.use (by assumption) ?_ | dsimp only | split)

theorem State.dark_keeps {s₀ s : State} (h : Keeps s₀ s) : Keeps s₀ (State.dark s) :=
  h.trans ⟨fun _ => rfl, fun _ => rfl, fun _ => List.Pairwise.nil, fun _ => List.Pairwise.nil, rfl, le_refl _⟩

theorem State.enterFault_keeps {s₀ : State} {s : State} {cause : ℕ} (hk : Keeps s₀ s) :
    Keeps s₀ (State.enterFault s cause) := by
  unfold State.enterFault
  repeat' (first | with_reducible assumption | with_reducible intro _ | with_reducible refine State.endFlights_keeps ?_ | with_reducible refine State.dark_keeps ?_ | with_reducible refine State.log_keeps ?_ | with_reducible refine State.errorSummary_keeps ?_ | (rw [State.mk_eq_of]; with_reducible refine Keeps.upd ?_) | dsimp only | split)

theorem State.countAnneal_keeps {s₀ : State} {s : State} {rank : Fin 7} (hk : Keeps s₀ s) :
    Keeps s₀ (State.countAnneal s rank) := by
  unfold State.countAnneal
  repeat' (first | with_reducible assumption | with_reducible intro _ | (rw [State.mk_eq_of]; with_reducible refine Keeps.upd ?_) | dsimp only | split)

theorem State.countFail_keeps {s₀ : State} {s : State} {rank : Fin 7} (hk : Keeps s₀ s) :
    Keeps s₀ (State.countFail s rank) := by
  unfold State.countFail
  repeat' (first | with_reducible assumption | with_reducible intro _ | (rw [State.mk_eq_of]; with_reducible refine Keeps.upd ?_) | dsimp only | split)

theorem State.addAnneal_keeps {s₀ : State} {s : State} {u : AnnealUnit} {cause : ℕ} (hk : Keeps s₀ s) :
    Keeps s₀ (State.addAnneal s u cause) := by
  unfold State.addAnneal
  repeat' (first | with_reducible assumption | with_reducible intro _ | (rw [State.mk_eq_of]; with_reducible refine Keeps.upd ?_) | dsimp only | split)

theorem State.rebuildHeats_keeps {s₀ : State} {s : State} (hk : Keeps s₀ s) :
    Keeps s₀ (State.rebuildHeats s) := by
  unfold State.rebuildHeats
  repeat' (first | with_reducible assumption | with_reducible intro _ | with_reducible refine State.foldHeat_keeps ?_ | with_reducible refine State.scrapStepHeat_keeps ?_ | (rw [State.mk_eq_of]; with_reducible refine Keeps.upd ?_) | with_reducible refine Keeps.foldl ?_ ?_ | dsimp only | split)

theorem State.stopLinks_keeps {s₀ : State} {s : State} (hk : Keeps s₀ s) :
    Keeps s₀ (State.stopLinks s) := by
  unfold State.stopLinks
  repeat' (first | with_reducible assumption | with_reducible intro _ | (rw [State.mk_eq_of]; with_reducible refine Keeps.upd ?_) | dsimp only | split)

theorem State.stopEngines_keeps {s₀ : State} {s : State} (hk : Keeps s₀ s) :
    Keeps s₀ (State.stopEngines s) := by
  unfold State.stopEngines
  repeat' (first | with_reducible assumption | with_reducible intro _ | (rw [State.mk_eq_of]; with_reducible refine Keeps.upd ?_) | dsimp only | split)

theorem State.restartHall_keeps {s₀ : State} {s : State} (hk : Keeps s₀ s) :
    Keeps s₀ (State.restartHall s) := by
  unfold State.restartHall
  repeat' (first | with_reducible assumption | with_reducible intro _ | with_reducible refine State.modHall_keeps ?_ | (rw [State.mk_eq_of]; with_reducible refine Keeps.upd ?_) | dsimp only | split)

theorem State.annealScrap_keeps {s₀ s : State} {u : AnnealUnit} (h : Keeps s₀ s) : Keeps s₀ (State.annealScrap s u) := by
  unfold State.annealScrap
  cases u with
  | lane p l => exact State.modPort_keeps h
  | port p => exact State.modPort_keeps h
  | channel c => exact State.modChan_keeps h
  | plinthUnit n c =>
    refine State.log_keeps (State.modPlinth_keeps (Keeps.foldl h fun x f hx => ?_))
    split
    · exact State.annealStep_keeps hx
    · exact hx
  | forge f =>
    dsimp only
    rw [State.mk_eq_of]
    refine Keeps.upd (State.modForge_keeps ?_)
    split
    · exact State.annealStep_keeps h
    · exact h
  | tenant fn => exact State.tenantReset_keeps h
  | device =>
    dsimp only
    exact State.errorSummary_keeps (State.restartHall_keeps (State.stopEngines_keeps (State.endFlights_keeps
      (State.stopLinks_keeps (State.dropCache_keeps (State.rebuildHeats_keeps (Keeps.foldl h fun _ _ hx => State.tenantReset_keeps hx)))))))

theorem State.anneal_keeps {s₀ : State} {s : State} {u : AnnealUnit} {cause : optParam ℕ 0} (hk : Keeps s₀ s) :
    Keeps s₀ (State.anneal s u cause) := by
  unfold State.anneal
  repeat' (first | with_reducible assumption | with_reducible intro _ | with_reducible refine State.enterFault_keeps ?_ | with_reducible refine State.countAnneal_keeps ?_ | with_reducible refine State.addAnneal_keeps ?_ | with_reducible refine State.annealScrap_keeps ?_ | (rw [State.mk_eq_of]; with_reducible refine Keeps.upd ?_) | dsimp only | split)

theorem State.annealAll_keeps {s₀ : State} {s : State} {us : List FnId} {cause : ℕ} (hk : Keeps s₀ s) :
    Keeps s₀ (State.annealAll s us cause) := by
  unfold State.annealAll
  repeat' (first | with_reducible assumption | with_reducible intro _ | with_reducible refine State.anneal_keeps ?_ | (rw [State.mk_eq_of]; with_reducible refine Keeps.upd ?_) | with_reducible refine Keeps.foldl ?_ ?_ | dsimp only | split)

theorem State.rekeyPort_keeps {s₀ : State} {s : State} {p : PortId} (hk : Keeps s₀ s) :
    Keeps s₀ (State.rekeyPort s p) := by
  unfold State.rekeyPort
  repeat' (first | with_reducible assumption | with_reducible intro _ | with_reducible refine State.draw_keeps ?_ | with_reducible refine State.modPort_keeps ?_ | (rw [State.mk_eq_of]; with_reducible refine Keeps.upd ?_) | with_reducible refine QKeeps.use (by assumption) ?_ | dsimp only | split)

theorem State.fence_keeps {s₀ : State} {s : State} {p : PortId} {kase : ℕ} (hk : Keeps s₀ s) :
    Keeps s₀ (State.fence s p kase) := by
  unfold State.fence
  repeat' (first | with_reducible assumption | with_reducible intro _ | with_reducible refine State.modPort_keeps ?_ | with_reducible refine State.log_keeps ?_ | (rw [State.mk_eq_of]; with_reducible refine Keeps.upd ?_) | with_reducible refine Keeps.foldl ?_ ?_ | dsimp only | split)

theorem State.escalate_keeps {s₀ : State} {s : State} {r : AnnealRun} (hk : Keeps s₀ s) :
    Keeps s₀ (State.escalate s r) := by
  unfold State.escalate
  repeat' (first | with_reducible assumption | with_reducible intro _ | with_reducible refine State.countFail_keeps ?_ | with_reducible refine State.log_keeps ?_ | with_reducible refine State.modPort_keeps ?_ | with_reducible refine State.anneal_keeps ?_ | with_reducible refine State.annealAll_keeps ?_ | with_reducible refine State.enterFault_keeps ?_ | (rw [State.mk_eq_of]; with_reducible refine Keeps.upd ?_) | dsimp only | split)

theorem State.reopenPorts_keeps {s₀ : State} {s : State} (hk : Keeps s₀ s) :
    Keeps s₀ (State.reopenPorts s) := by
  unfold State.reopenPorts
  repeat' (first | with_reducible assumption | with_reducible intro _ | with_reducible refine State.rekeyPort_keeps ?_ | with_reducible refine State.modPort_keeps ?_ | (rw [State.mk_eq_of]; with_reducible refine Keeps.upd ?_) | with_reducible refine Keeps.foldl ?_ ?_ | dsimp only | split)

theorem State.annealDone_keeps {s₀ s : State} {r : AnnealRun} (h : Keeps s₀ s) : Keeps s₀ (State.annealDone s r) := by
  unfold State.annealDone
  extract_lets +onlyGivenNames y
  have hy : Keeps s₀ y := by
    dsimp only [y]
    rw [State.mk_eq_of]
    exact Keeps.upd h
  clear_value y
  generalize r.unit = u
  cases u with
  | lane p l => exact State.modPort_keeps hy
  | port p =>
    dsimp only
    split
    · exact State.escalate_keeps hy
    · split
      · exact State.log_keeps (State.modPort_keeps (State.rekeyPort_keeps (State.modPort_keeps hy)))
      · exact State.rekeyPort_keeps (State.modPort_keeps hy)
  | channel c => exact State.trained_keeps hy
  | device =>
    dsimp only
    split
    · exact State.enterFault_keeps (State.hallErr_keeps hy)
    · exact State.log_keeps (State.resendDecisions_keeps (State.reopenPorts_keeps hy))
  | _ => exact hy

theorem State.dropModel_keeps {s₀ s : State} {m : Fin 16} (h : Keeps s₀ s) : Keeps s₀ (State.dropModel s m) := by
  unfold State.dropModel
  refine Keeps.foldl ?_ fun _ _ hx => Keeps.foldl hx fun _ _ hy => OKeeps.getD (State.fixIndex_keeps hy) hy
  exact h.trans ⟨id, id, fun hs => frames_filter _ hs, fun hs => frames_filter _ hs, rfl, le_refl _⟩

theorem State.endFunction_keeps {s₀ s : State} {fn : FnId} {st : Status} (h : Keeps s₀ s) :
    Keeps s₀ (State.endFunction s fn st) := by
  unfold State.endFunction
  extract_lets +onlyGivenNames a b
  have hb : Keeps s₀ b := State.dropScans_keeps (State.closeWindows_keeps (Keeps.foldl h fun _ _ hx => State.dropModel_keeps hx))
  clear_value b
  refine State.log_keeps (State.modHost_keeps ?_)
  exact hb.trans ⟨fun hs => Memory.wf_filter hs _, id, fun hs => frames_filter _ hs, fun hs => frames_filter _ hs, rfl, le_refl _⟩

theorem State.scrapPrepared_keeps {s₀ : State} {s : State} {fn : FnId} (hk : Keeps s₀ s) :
    Keeps s₀ (State.scrapPrepared s fn) := by
  unfold State.scrapPrepared
  repeat' (first | with_reducible assumption | with_reducible intro _ | with_reducible refine State.log_keeps ?_ | with_reducible refine State.scrapStepHeat_keeps ?_ | (rw [State.mk_eq_of]; with_reducible refine Keeps.upd ?_) | with_reducible refine Keeps.foldl ?_ ?_ | dsimp only | split)

theorem State.completeDisable_keeps {s₀ : State} {s : State} {k : Cmd} {fn : FnId} {annealed : Bool} {flr : Bool} (hk : Keeps s₀ s) :
    Keeps s₀ (State.completeDisable s k fn annealed flr) := by
  unfold State.completeDisable
  repeat' (first | with_reducible assumption | with_reducible intro _ | with_reducible refine State.endFunction_keeps ?_ | with_reducible refine State.finish_keeps ?_ | (rw [State.mk_eq_of]; with_reducible refine Keeps.upd ?_) | dsimp only | split)

theorem State.settleOne_keeps {s₀ : State} {s : State} {d : Deferred} (hk : Keeps s₀ s) :
    Keeps s₀ (State.settleOne s d) := by
  unfold State.settleOne
  repeat' (first | with_reducible assumption | with_reducible intro _ | with_reducible refine State.finish_keeps ?_ | with_reducible refine State.completeDisable_keeps ?_ | (rw [State.mk_eq_of]; with_reducible refine Keeps.upd ?_) | dsimp only | split)

theorem State.settle_keeps {s₀ : State} {s : State} (hk : Keeps s₀ s) :
    Keeps s₀ (State.settle s) := by
  unfold State.settle
  repeat' (first | with_reducible assumption | with_reducible intro _ | with_reducible refine State.settleOne_keeps ?_ | (rw [State.mk_eq_of]; with_reducible refine Keeps.upd ?_) | with_reducible refine Keeps.foldl ?_ ?_ | dsimp only | split)

end Sys2Proof.Machine
end

