-- ==== Sys2Proof/Laws/KeepsCommand.lean ====
section
/-! SUPPORT. The operations of Machine/Command.lean keep what `Keeps` says. -/

set_option linter.unusedTactic false
set_option linter.unreachableTactic false

namespace Sys2Proof.Machine

theorem hostCmd_keeps {s₀ : State} {op : Op} {k : Cmd} {body : State → State} {s : State} (hk : Keeps s₀ s)
    (hb0 : ∀ x0, Keeps s₀ x0 → Keeps s₀ (body x0)) :
    RKeeps s₀ (hostCmd op k body s) := by
  unfold hostCmd
  repeat' (first | with_reducible assumption | with_reducible intro _ | with_reducible refine hb0 _ ?_ | with_reducible refine State.settle_keeps ?_ | with_reducible refine State.refuseAccept_keeps ?_ | with_reducible refine State.modRing_keeps ?_ | with_reducible refine State.takeNow_keeps ?_ | with_reducible refine RKeeps.next ?_ | (rw [State.mk_eq_of]; with_reducible refine Keeps.upd ?_) | with_reducible refine RKeeps.use (by assumption) ?_ | dsimp only | split)

theorem gated_keeps {s₀ : State} {op : Op} {k : Cmd} {body : State → State} {s : State} (hk : Keeps s₀ s)
    (hb0 : ∀ x0, Keeps s₀ x0 → Keeps s₀ (body x0)) :
    Keeps s₀ (gated op k body s) := by
  unfold gated
  repeat' (first | with_reducible assumption | with_reducible intro _ | with_reducible refine hb0 _ ?_ | with_reducible refine State.finish_keeps ?_ | (rw [State.mk_eq_of]; with_reducible refine Keeps.upd ?_) | dsimp only | split)

theorem checked_keeps {s₀ : State} {op : Op} {k : Cmd} {ok : Bool} {outLen : ℕ} {body : State → State} {s : State} (hk : Keeps s₀ s)
    (hb0 : ∀ x0, Keeps s₀ x0 → Keeps s₀ (body x0)) :
    Keeps s₀ (checked op k ok outLen body s) := by
  unfold checked
  repeat' (first | with_reducible assumption | with_reducible intro _ | with_reducible refine hb0 _ ?_ | with_reducible refine State.finish_keeps ?_ | with_reducible refine State.unspend_keeps ?_ | with_reducible refine gated_keeps ?_ ?_ | (rw [State.mk_eq_of]; with_reducible refine Keeps.upd ?_) | dsimp only | split)

theorem State.drbg_keeps {s₀ : State} {s : State} (hk : Keeps s₀ s) :
    QKeeps s₀ (State.drbg s) := by
  unfold State.drbg
  repeat' (first | with_reducible assumption | with_reducible intro _ | with_reducible refine State.draw_keeps ?_ | with_reducible refine State.modHall_keeps ?_ | (rw [State.mk_eq_of]; with_reducible refine Keeps.upd ?_) | with_reducible refine QKeeps.use (by assumption) ?_ | dsimp only | split)

theorem execReplyWrite_keeps {s₀ : State} {fn : FnId} {ring : Option RingId} {payloadErr : Bool} {replyErr : Bool} {s : State} (hk : Keeps s₀ s) :
    RKeeps s₀ (execReplyWrite fn ring payloadErr replyErr s) := by
  unfold execReplyWrite
  repeat' (first | with_reducible assumption | with_reducible intro _ | with_reducible refine State.settle_keeps ?_ | with_reducible refine replyWrite_keeps ?_ | with_reducible refine RKeeps.next ?_ | (rw [State.mk_eq_of]; with_reducible refine Keeps.upd ?_) | with_reducible refine RKeeps.use (by assumption) ?_ | dsimp only | split)

end Sys2Proof.Machine
end

