-- ==== Sys2Proof/Laws/KeepsAdmin.lean ====
section
/-! SUPPORT. The operations of Machine/Admin.lean keep what `Keeps` says. -/

set_option linter.unusedTactic false
set_option linter.unreachableTactic false

namespace Sys2Proof.Machine

theorem nop_keeps {s₀ : State} {k : Cmd} {s : State} (hk : Keeps s₀ s) :
    Keeps s₀ (nop k s) := by
  unfold nop
  repeat' (first | with_reducible assumption | with_reducible intro _ | with_reducible refine checked_keeps ?_ ?_ | with_reducible refine State.finish_keeps ?_ | (rw [State.mk_eq_of]; with_reducible refine Keeps.upd ?_) | dsimp only | split)

theorem execNop_keeps {s₀ : State} {k : Cmd} {s : State} (hk : Keeps s₀ s) :
    RKeeps s₀ (execNop k s) := by
  unfold execNop
  repeat' (first | with_reducible assumption | with_reducible intro _ | with_reducible refine hostCmd_keeps ?_ ?_ | with_reducible refine nop_keeps ?_ | with_reducible refine RKeeps.next ?_ | (rw [State.mk_eq_of]; with_reducible refine Keeps.upd ?_) | with_reducible refine RKeeps.use (by assumption) ?_ | dsimp only | split)

theorem identify_keeps {s₀ : State} {k : Cmd} {s : State} (hk : Keeps s₀ s) :
    Keeps s₀ (identify k s) := by
  unfold identify
  repeat' (first | with_reducible assumption | with_reducible intro _ | with_reducible refine checked_keeps ?_ ?_ | with_reducible refine State.finish_keeps ?_ | (rw [State.mk_eq_of]; with_reducible refine Keeps.upd ?_) | dsimp only | split)

theorem execIdentify_keeps {s₀ : State} {k : Cmd} {s : State} (hk : Keeps s₀ s) :
    RKeeps s₀ (execIdentify k s) := by
  unfold execIdentify
  repeat' (first | with_reducible assumption | with_reducible intro _ | with_reducible refine hostCmd_keeps ?_ ?_ | with_reducible refine identify_keeps ?_ | with_reducible refine RKeeps.next ?_ | (rw [State.mk_eq_of]; with_reducible refine Keeps.upd ?_) | with_reducible refine RKeeps.use (by assumption) ?_ | dsimp only | split)

theorem State.holdGates_keeps {s₀ : State} {s : State} {fns : List FnId} {held : Bool} (hk : Keeps s₀ s) :
    Keeps s₀ (State.holdGates s fns held) := by
  unfold State.holdGates
  repeat' (first | with_reducible assumption | with_reducible intro _ | with_reducible refine State.modFn_keeps ?_ | (rw [State.mk_eq_of]; with_reducible refine Keeps.upd ?_) | with_reducible refine Keeps.foldl ?_ ?_ | dsimp only | split)

theorem quiesceHold_keeps {s₀ : State} {k : Cmd} {s : State} (hk : Keeps s₀ s) :
    Keeps s₀ (quiesceHold k s) := by
  unfold quiesceHold
  repeat' (first | with_reducible assumption | with_reducible intro _ | with_reducible refine State.holdGates_keeps ?_ | (rw [State.mk_eq_of]; with_reducible refine Keeps.upd ?_) | dsimp only | split)

theorem quiesceRelease_keeps {s₀ : State} {k : Cmd} {s : State} (hk : Keeps s₀ s) :
    Keeps s₀ (quiesceRelease k s) := by
  unfold quiesceRelease
  repeat' (first | with_reducible assumption | with_reducible intro _ | with_reducible refine State.finish_keeps ?_ | with_reducible refine State.holdGates_keeps ?_ | (rw [State.mk_eq_of]; with_reducible refine Keeps.upd ?_) | dsimp only | split)

theorem quiesce_keeps {s₀ : State} {k : Cmd} {s : State} (hk : Keeps s₀ s) :
    Keeps s₀ (quiesce k s) := by
  unfold quiesce
  repeat' (first | with_reducible assumption | with_reducible intro _ | with_reducible refine checked_keeps ?_ ?_ | with_reducible refine quiesceHold_keeps ?_ | with_reducible refine quiesceRelease_keeps ?_ | (rw [State.mk_eq_of]; with_reducible refine Keeps.upd ?_) | dsimp only | split)

theorem execQuiesceHold_keeps {s₀ : State} {k : Cmd} {s : State} (hk : Keeps s₀ s) :
    RKeeps s₀ (execQuiesceHold k s) := by
  unfold execQuiesceHold
  repeat' (first | with_reducible assumption | with_reducible intro _ | with_reducible refine hostCmd_keeps ?_ ?_ | with_reducible refine quiesce_keeps ?_ | with_reducible refine RKeeps.next ?_ | (rw [State.mk_eq_of]; with_reducible refine Keeps.upd ?_) | with_reducible refine RKeeps.use (by assumption) ?_ | dsimp only | split)

theorem execQuiesceRelease_keeps {s₀ : State} {k : Cmd} {s : State} (hk : Keeps s₀ s) :
    RKeeps s₀ (execQuiesceRelease k s) := by
  unfold execQuiesceRelease
  repeat' (first | with_reducible assumption | with_reducible intro _ | with_reducible refine hostCmd_keeps ?_ ?_ | with_reducible refine quiesce_keeps ?_ | with_reducible refine RKeeps.next ?_ | (rw [State.mk_eq_of]; with_reducible refine Keeps.upd ?_) | with_reducible refine RKeeps.use (by assumption) ?_ | dsimp only | split)

theorem State.enable_keeps {s₀ : State} {s : State} {fn : FnId} (hk : Keeps s₀ s) :
    OKeeps s₀ (State.enable s fn) := by
  unfold State.enable
  repeat' (first | with_reducible assumption | with_reducible intro _ | with_reducible refine State.drbg_keeps ?_ | with_reducible refine State.modHall_keeps ?_ | with_reducible refine State.log_keeps ?_ | with_reducible refine State.modHost_keeps ?_ | with_reducible refine State.allocT1_keeps ?_ | with_reducible refine OKeeps.none | with_reducible refine OKeeps.some ?_ | (rw [State.mk_eq_of]; with_reducible refine Keeps.upd ?_) | with_reducible refine OKeeps.map ?_ ?_ | with_reducible refine OKeeps.mapQ ?_ ?_ | with_reducible refine OKeeps.mapOf ?_ | with_reducible refine OKeeps.use (by assumption) ?_ | with_reducible refine QKeeps.use (by assumption) ?_ | dsimp only | split)

theorem enableNow_keeps {s₀ : State} {k : Cmd} {fn : FnId} {final : Status} {s : State} (hk : Keeps s₀ s) :
    Keeps s₀ (enableNow k fn final s) := by
  unfold enableNow
  repeat' (first | with_reducible assumption | with_reducible intro _ | with_reducible refine State.enable_keeps ?_ | with_reducible refine State.finish_keeps ?_ | with_reducible refine OKeeps.none | with_reducible refine OKeeps.some ?_ | (rw [State.mk_eq_of]; with_reducible refine Keeps.upd ?_) | with_reducible refine OKeeps.use (by assumption) ?_ | dsimp only | split)

theorem State.interim_keeps {s₀ : State} {s : State} {k : Cmd} (hk : Keeps s₀ s) :
    Keeps s₀ (State.interim s k) := by
  unfold State.interim
  repeat' (first | with_reducible assumption | with_reducible intro _ | with_reducible refine State.pushReply_keeps ?_ | (rw [State.mk_eq_of]; with_reducible refine Keeps.upd ?_) | dsimp only | split)

theorem State.toBackground_keeps {s₀ : State} {s : State} {op : Op} {k : Cmd} (hk : Keeps s₀ s) :
    Keeps s₀ (State.toBackground s op k) := by
  unfold State.toBackground
  repeat' (first | with_reducible assumption | with_reducible intro _ | (rw [State.mk_eq_of]; with_reducible refine Keeps.upd ?_) | dsimp only | split)

theorem enableFunction_keeps {s₀ : State} {k : Cmd} {s : State} (hk : Keeps s₀ s) :
    Keeps s₀ (enableFunction k s) := by
  unfold enableFunction
  repeat' (first | with_reducible assumption | with_reducible intro _ | with_reducible refine checked_keeps ?_ ?_ | with_reducible refine State.finish_keeps ?_ | with_reducible refine State.toBackground_keeps ?_ | with_reducible refine State.interim_keeps ?_ | with_reducible refine enableNow_keeps ?_ | (rw [State.mk_eq_of]; with_reducible refine Keeps.upd ?_) | dsimp only | split)

theorem execEnableFunction_keeps {s₀ : State} {k : Cmd} {s : State} (hk : Keeps s₀ s) :
    RKeeps s₀ (execEnableFunction k s) := by
  unfold execEnableFunction
  repeat' (first | with_reducible assumption | with_reducible intro _ | with_reducible refine hostCmd_keeps ?_ ?_ | with_reducible refine enableFunction_keeps ?_ | with_reducible refine RKeeps.next ?_ | (rw [State.mk_eq_of]; with_reducible refine Keeps.upd ?_) | with_reducible refine RKeeps.use (by assumption) ?_ | dsimp only | split)

theorem heldEnableProceed_keeps {s₀ : State} {fn : FnId} {s : State} (hk : Keeps s₀ s) :
    Keeps s₀ (heldEnableProceed fn s) := by
  unfold heldEnableProceed
  repeat' (first | with_reducible assumption | with_reducible intro _ | with_reducible refine enableNow_keeps ?_ | (rw [State.mk_eq_of]; with_reducible refine Keeps.upd ?_) | dsimp only | split)

theorem execHeldEnableProceed_keeps {s₀ : State} {fn : FnId} {s : State} (hk : Keeps s₀ s) :
    RKeeps s₀ (execHeldEnableProceed fn s) := by
  unfold execHeldEnableProceed
  repeat' (first | with_reducible assumption | with_reducible intro _ | with_reducible refine State.settle_keeps ?_ | with_reducible refine heldEnableProceed_keeps ?_ | with_reducible refine RKeeps.next ?_ | (rw [State.mk_eq_of]; with_reducible refine Keeps.upd ?_) | with_reducible refine RKeeps.use (by assumption) ?_ | dsimp only | split)

theorem State.beginDisable_keeps {s₀ : State} {s : State} {fn : FnId} (hk : Keeps s₀ s) :
    Keeps s₀ (State.beginDisable s fn) := by
  unfold State.beginDisable
  repeat' (first | with_reducible assumption | with_reducible intro _ | with_reducible refine State.holdGates_keeps ?_ | with_reducible refine State.modHost_keeps ?_ | with_reducible refine State.scrapCmdHeats_keeps ?_ | (rw [State.mk_eq_of]; with_reducible refine Keeps.upd ?_) | dsimp only | split)

theorem disableFunction_keeps {s₀ : State} {k : Cmd} {s : State} (hk : Keeps s₀ s) :
    Keeps s₀ (disableFunction k s) := by
  unfold disableFunction
  repeat' (first | with_reducible assumption | with_reducible intro _ | with_reducible refine checked_keeps ?_ ?_ | with_reducible refine State.finish_keeps ?_ | with_reducible refine State.toBackground_keeps ?_ | with_reducible refine State.beginDisable_keeps ?_ | (rw [State.mk_eq_of]; with_reducible refine Keeps.upd ?_) | dsimp only | split)

theorem execDisableFunction_keeps {s₀ : State} {k : Cmd} {s : State} (hk : Keeps s₀ s) :
    RKeeps s₀ (execDisableFunction k s) := by
  unfold execDisableFunction
  repeat' (first | with_reducible assumption | with_reducible intro _ | with_reducible refine hostCmd_keeps ?_ ?_ | with_reducible refine disableFunction_keeps ?_ | with_reducible refine RKeeps.next ?_ | (rw [State.mk_eq_of]; with_reducible refine Keeps.upd ?_) | with_reducible refine RKeeps.use (by assumption) ?_ | dsimp only | split)

theorem openSession_keeps {s₀ : State} {k : Cmd} {s : State} (hk : Keeps s₀ s) :
    Keeps s₀ (openSession k s) := by
  unfold openSession
  repeat' (first | with_reducible assumption | with_reducible intro _ | with_reducible refine checked_keeps ?_ ?_ | with_reducible refine State.finish_keeps ?_ | with_reducible refine State.modSession_keeps ?_ | (rw [State.mk_eq_of]; with_reducible refine Keeps.upd ?_) | dsimp only | split)

theorem execOpenSession_keeps {s₀ : State} {k : Cmd} {s : State} (hk : Keeps s₀ s) :
    RKeeps s₀ (execOpenSession k s) := by
  unfold execOpenSession
  repeat' (first | with_reducible assumption | with_reducible intro _ | with_reducible refine hostCmd_keeps ?_ ?_ | with_reducible refine openSession_keeps ?_ | with_reducible refine RKeeps.next ?_ | (rw [State.mk_eq_of]; with_reducible refine Keeps.upd ?_) | with_reducible refine RKeeps.use (by assumption) ?_ | dsimp only | split)

theorem closeSession_keeps {s₀ : State} {k : Cmd} {s : State} (hk : Keeps s₀ s) :
    Keeps s₀ (closeSession k s) := by
  unfold closeSession
  repeat' (first | with_reducible assumption | with_reducible intro _ | with_reducible refine checked_keeps ?_ ?_ | (rw [State.mk_eq_of]; with_reducible refine Keeps.upd ?_) | dsimp only | split)

theorem execCloseSession_keeps {s₀ : State} {k : Cmd} {s : State} (hk : Keeps s₀ s) :
    RKeeps s₀ (execCloseSession k s) := by
  unfold execCloseSession
  repeat' (first | with_reducible assumption | with_reducible intro _ | with_reducible refine hostCmd_keeps ?_ ?_ | with_reducible refine closeSession_keeps ?_ | with_reducible refine RKeeps.next ?_ | (rw [State.mk_eq_of]; with_reducible refine Keeps.upd ?_) | with_reducible refine RKeeps.use (by assumption) ?_ | dsimp only | split)

theorem setPartition_keeps {s₀ : State} {k : Cmd} {s : State} (hk : Keeps s₀ s) :
    Keeps s₀ (setPartition k s) := by
  unfold setPartition
  repeat' (first | with_reducible assumption | with_reducible intro _ | with_reducible refine checked_keeps ?_ ?_ | with_reducible refine State.finish_keeps ?_ | with_reducible refine State.modFn_keeps ?_ | with_reducible refine State.modNear_keeps ?_ | (rw [State.mk_eq_of]; with_reducible refine Keeps.upd ?_) | dsimp only | split)

theorem execSetPartition_keeps {s₀ : State} {k : Cmd} {s : State} (hk : Keeps s₀ s) :
    RKeeps s₀ (execSetPartition k s) := by
  unfold execSetPartition
  repeat' (first | with_reducible assumption | with_reducible intro _ | with_reducible refine hostCmd_keeps ?_ ?_ | with_reducible refine setPartition_keeps ?_ | with_reducible refine RKeeps.next ?_ | (rw [State.mk_eq_of]; with_reducible refine Keeps.upd ?_) | with_reducible refine RKeeps.use (by assumption) ?_ | dsimp only | split)

theorem State.dropHearth_keeps {s₀ : State} {s : State} {f : ForgeId} (hk : Keeps s₀ s) :
    Keeps s₀ (State.dropHearth s f) := by
  unfold State.dropHearth
  repeat' (first | with_reducible assumption | with_reducible intro _ | (rw [State.mk_eq_of]; with_reducible refine Keeps.upd ?_) | (rw [State.mk_eq_of]; with_reducible refine Keeps.updHearth ?_ (fun hs => Memory.sorted_writeAll hs _ _)) | (rw [State.mk_eq_of]; with_reducible refine Keeps.updHearth ?_ (fun hs => Memory.sorted_filter hs _)) | dsimp only | split)

theorem State.forgeOff_keeps {s₀ : State} {s : State} {f : ForgeId} (hk : Keeps s₀ s) :
    Keeps s₀ (State.forgeOff s f) := by
  unfold State.forgeOff
  repeat' (first | with_reducible assumption | with_reducible intro _ | with_reducible refine State.modBell_keeps ?_ | with_reducible refine State.dropHearth_keeps ?_ | with_reducible refine State.modForge_keeps ?_ | (rw [State.mk_eq_of]; with_reducible refine Keeps.upd ?_) | dsimp only | split)

theorem State.forgeUp_keeps {s₀ : State} {s : State} {f : ForgeId} (hk : Keeps s₀ s) :
    Keeps s₀ (State.forgeUp s f) := by
  unfold State.forgeUp
  repeat' (first | with_reducible assumption | with_reducible intro _ | with_reducible refine State.modBell_keeps ?_ | with_reducible refine State.modForge_keeps ?_ | (rw [State.mk_eq_of]; with_reducible refine Keeps.upd ?_) | dsimp only | split)

theorem selftestForge_keeps {s₀ : State} {k : Cmd} {failing : BitVec 32} {s : State} (hk : Keeps s₀ s) :
    Keeps s₀ (selftestForge k failing s) := by
  unfold selftestForge
  repeat' (first | with_reducible assumption | with_reducible intro _ | with_reducible refine State.finish_keeps ?_ | with_reducible refine State.forgeOff_keeps ?_ | with_reducible refine State.dropCache_keeps ?_ | with_reducible refine State.modForge_keeps ?_ | with_reducible refine State.forgeUp_keeps ?_ | with_reducible refine State.log_keeps ?_ | (rw [State.mk_eq_of]; with_reducible refine Keeps.upd ?_) | dsimp only | split)

theorem selftestHallmark_keeps {s₀ : State} {k : Cmd} {failing : BitVec 32} {s : State} (hk : Keeps s₀ s) :
    Keeps s₀ (selftestHallmark k failing s) := by
  unfold selftestHallmark
  repeat' (first | with_reducible assumption | with_reducible intro _ | with_reducible refine State.finish_keeps ?_ | with_reducible refine State.log_keeps ?_ | with_reducible refine State.hallErr_keeps ?_ | (rw [State.mk_eq_of]; with_reducible refine Keeps.upd ?_) | dsimp only | split)

theorem selftest_keeps {s₀ : State} {k : Cmd} {failing : BitVec 32} {s : State} (hk : Keeps s₀ s) :
    Keeps s₀ (selftest k failing s) := by
  unfold selftest
  repeat' (first | with_reducible assumption | with_reducible intro _ | with_reducible refine checked_keeps ?_ ?_ | with_reducible refine selftestForge_keeps ?_ | with_reducible refine selftestHallmark_keeps ?_ | (rw [State.mk_eq_of]; with_reducible refine Keeps.upd ?_) | dsimp only | split)

theorem execSelftestForge_keeps {s₀ : State} {k : Cmd} {failing : BitVec 32} {s : State} (hk : Keeps s₀ s) :
    RKeeps s₀ (execSelftestForge k failing s) := by
  unfold execSelftestForge
  repeat' (first | with_reducible assumption | with_reducible intro _ | with_reducible refine hostCmd_keeps ?_ ?_ | with_reducible refine selftest_keeps ?_ | with_reducible refine RKeeps.next ?_ | (rw [State.mk_eq_of]; with_reducible refine Keeps.upd ?_) | with_reducible refine RKeeps.use (by assumption) ?_ | dsimp only | split)

theorem execSelftestHallmark_keeps {s₀ : State} {k : Cmd} {failing : BitVec 32} {s : State} (hk : Keeps s₀ s) :
    RKeeps s₀ (execSelftestHallmark k failing s) := by
  unfold execSelftestHallmark
  repeat' (first | with_reducible assumption | with_reducible intro _ | with_reducible refine hostCmd_keeps ?_ ?_ | with_reducible refine selftest_keeps ?_ | with_reducible refine RKeeps.next ?_ | (rw [State.mk_eq_of]; with_reducible refine Keeps.upd ?_) | with_reducible refine RKeeps.use (by assumption) ?_ | dsimp only | split)

theorem State.plinthUp_keeps {s₀ : State} {s : State} {n : PlinthId} (hk : Keeps s₀ s) :
    Keeps s₀ (State.plinthUp s n) := by
  unfold State.plinthUp
  repeat' (first | with_reducible assumption | with_reducible intro _ | with_reducible refine State.modPlinth_keeps ?_ | with_reducible refine State.drbg_keeps ?_ | with_reducible refine State.modBell_keeps ?_ | with_reducible refine State.modHall_keeps ?_ | (rw [State.mk_eq_of]; with_reducible refine Keeps.upd ?_) | with_reducible refine QKeeps.use (by assumption) ?_ | dsimp only | split)

theorem State.plinthDown_keeps {s₀ : State} {s : State} {n : PlinthId} (hk : Keeps s₀ s) :
    Keeps s₀ (State.plinthDown s n) := by
  unfold State.plinthDown
  repeat' (first | with_reducible assumption | with_reducible intro _ | with_reducible refine State.modBell_keeps ?_ | with_reducible refine State.modHall_keeps ?_ | with_reducible refine State.modPlinth_keeps ?_ | (rw [State.mk_eq_of]; with_reducible refine Keeps.upd ?_) | dsimp only | split)

theorem State.switchDom_keeps {s₀ : State} {s : State} {on : Bool} {d : ℕ} (hk : Keeps s₀ s) :
    Keeps s₀ (State.switchDom s on d) := by
  unfold State.switchDom
  repeat' (first | with_reducible assumption | with_reducible intro _ | with_reducible refine State.forgeUp_keeps ?_ | with_reducible refine State.forgeOff_keeps ?_ | with_reducible refine State.plinthUp_keeps ?_ | with_reducible refine State.plinthDown_keeps ?_ | with_reducible refine State.modBell_keeps ?_ | with_reducible refine State.modPort_keeps ?_ | (rw [State.mk_eq_of]; with_reducible refine Keeps.upd ?_) | dsimp only | split)

theorem powerDomainSet_keeps {s₀ : State} {k : Cmd} {s : State} (hk : Keeps s₀ s) :
    Keeps s₀ (powerDomainSet k s) := by
  unfold powerDomainSet
  repeat' (first | with_reducible assumption | with_reducible intro _ | with_reducible refine checked_keeps ?_ ?_ | with_reducible refine State.finish_keeps ?_ | with_reducible refine State.dropCache_keeps ?_ | with_reducible refine State.switchDom_keeps ?_ | (rw [State.mk_eq_of]; with_reducible refine Keeps.upd ?_) | with_reducible refine Keeps.foldl ?_ ?_ | dsimp only | split)

theorem execPowerDomainOn_keeps {s₀ : State} {k : Cmd} {s : State} (hk : Keeps s₀ s) :
    RKeeps s₀ (execPowerDomainOn k s) := by
  unfold execPowerDomainOn
  repeat' (first | with_reducible assumption | with_reducible intro _ | with_reducible refine hostCmd_keeps ?_ ?_ | with_reducible refine powerDomainSet_keeps ?_ | with_reducible refine RKeeps.next ?_ | (rw [State.mk_eq_of]; with_reducible refine Keeps.upd ?_) | with_reducible refine RKeeps.use (by assumption) ?_ | dsimp only | split)

theorem execPowerDomainOff_keeps {s₀ : State} {k : Cmd} {s : State} (hk : Keeps s₀ s) :
    RKeeps s₀ (execPowerDomainOff k s) := by
  unfold execPowerDomainOff
  repeat' (first | with_reducible assumption | with_reducible intro _ | with_reducible refine hostCmd_keeps ?_ ?_ | with_reducible refine powerDomainSet_keeps ?_ | with_reducible refine RKeeps.next ?_ | (rw [State.mk_eq_of]; with_reducible refine Keeps.upd ?_) | with_reducible refine RKeeps.use (by assumption) ?_ | dsimp only | split)

theorem setPowerCap_keeps {s₀ : State} {k : Cmd} {s : State} (hk : Keeps s₀ s) :
    Keeps s₀ (setPowerCap k s) := by
  unfold setPowerCap
  repeat' (first | with_reducible assumption | with_reducible intro _ | with_reducible refine checked_keeps ?_ ?_ | with_reducible refine State.finish_keeps ?_ | with_reducible refine State.modBell_keeps ?_ | (rw [State.mk_eq_of]; with_reducible refine Keeps.upd ?_) | dsimp only | split)

theorem execSetPowerCap_keeps {s₀ : State} {k : Cmd} {s : State} (hk : Keeps s₀ s) :
    RKeeps s₀ (execSetPowerCap k s) := by
  unfold execSetPowerCap
  repeat' (first | with_reducible assumption | with_reducible intro _ | with_reducible refine hostCmd_keeps ?_ ?_ | with_reducible refine setPowerCap_keeps ?_ | with_reducible refine RKeeps.next ?_ | (rw [State.mk_eq_of]; with_reducible refine Keeps.upd ?_) | with_reducible refine RKeeps.use (by assumption) ?_ | dsimp only | split)

theorem thermalStatus_keeps {s₀ : State} {k : Cmd} {s : State} (hk : Keeps s₀ s) :
    Keeps s₀ (thermalStatus k s) := by
  unfold thermalStatus
  repeat' (first | with_reducible assumption | with_reducible intro _ | with_reducible refine checked_keeps ?_ ?_ | with_reducible refine State.finish_keeps ?_ | (rw [State.mk_eq_of]; with_reducible refine Keeps.upd ?_) | dsimp only | split)

theorem execThermalStatus_keeps {s₀ : State} {k : Cmd} {s : State} (hk : Keeps s₀ s) :
    RKeeps s₀ (execThermalStatus k s) := by
  unfold execThermalStatus
  repeat' (first | with_reducible assumption | with_reducible intro _ | with_reducible refine hostCmd_keeps ?_ ?_ | with_reducible refine thermalStatus_keeps ?_ | with_reducible refine RKeeps.next ?_ | (rw [State.mk_eq_of]; with_reducible refine Keeps.upd ?_) | with_reducible refine RKeeps.use (by assumption) ?_ | dsimp only | split)

theorem State.evSetup_keeps {s₀ : State} {s : State} {addr : ℕ} {log2 : ℕ} (hk : Keeps s₀ s) :
    Keeps s₀ (State.evSetup s addr log2) := by
  unfold State.evSetup
  repeat' (first | with_reducible assumption | with_reducible intro _ | with_reducible refine State.flushEvents_keeps ?_ | (rw [State.mk_eq_of]; with_reducible refine Keeps.upd ?_) | dsimp only | split)

theorem State.evTearDown_keeps {s₀ : State} {s : State} (hk : Keeps s₀ s) :
    Keeps s₀ (State.evTearDown s) := by
  unfold State.evTearDown
  repeat' (first | with_reducible assumption | with_reducible intro _ | (rw [State.mk_eq_of]; with_reducible refine Keeps.upd ?_) | dsimp only | split)

theorem eventRingSetup_keeps {s₀ : State} {k : Cmd} {s : State} (hk : Keeps s₀ s) :
    Keeps s₀ (eventRingSetup k s) := by
  unfold eventRingSetup
  repeat' (first | with_reducible assumption | with_reducible intro _ | with_reducible refine checked_keeps ?_ ?_ | with_reducible refine State.finish_keeps ?_ | with_reducible refine State.evTearDown_keeps ?_ | with_reducible refine State.evSetup_keeps ?_ | (rw [State.mk_eq_of]; with_reducible refine Keeps.upd ?_) | dsimp only | split)

theorem execEventRingSetup_keeps {s₀ : State} {k : Cmd} {s : State} (hk : Keeps s₀ s) :
    RKeeps s₀ (execEventRingSetup k s) := by
  unfold execEventRingSetup
  repeat' (first | with_reducible assumption | with_reducible intro _ | with_reducible refine hostCmd_keeps ?_ ?_ | with_reducible refine eventRingSetup_keeps ?_ | with_reducible refine RKeeps.next ?_ | (rw [State.mk_eq_of]; with_reducible refine Keeps.upd ?_) | with_reducible refine RKeeps.use (by assumption) ?_ | dsimp only | split)

theorem execEventRingTeardown_keeps {s₀ : State} {k : Cmd} {s : State} (hk : Keeps s₀ s) :
    RKeeps s₀ (execEventRingTeardown k s) := by
  unfold execEventRingTeardown
  repeat' (first | with_reducible assumption | with_reducible intro _ | with_reducible refine hostCmd_keeps ?_ ?_ | with_reducible refine eventRingSetup_keeps ?_ | with_reducible refine RKeeps.next ?_ | (rw [State.mk_eq_of]; with_reducible refine Keeps.upd ?_) | with_reducible refine RKeeps.use (by assumption) ?_ | dsimp only | split)

theorem State.ackEvents_keeps {s₀ : State} {s : State} {n : ℕ} (hk : Keeps s₀ s) :
    Keeps s₀ (State.ackEvents s n) := by
  unfold State.ackEvents
  repeat' (first | with_reducible assumption | with_reducible intro _ | with_reducible refine State.flushEvents_keeps ?_ | (rw [State.mk_eq_of]; with_reducible refine Keeps.upd ?_) | dsimp only | split)

theorem eventAck_keeps {s₀ : State} {k : Cmd} {s : State} (hk : Keeps s₀ s) :
    Keeps s₀ (eventAck k s) := by
  unfold eventAck
  repeat' (first | with_reducible assumption | with_reducible intro _ | with_reducible refine checked_keeps ?_ ?_ | with_reducible refine State.ackEvents_keeps ?_ | with_reducible refine State.finish_keeps ?_ | (rw [State.mk_eq_of]; with_reducible refine Keeps.upd ?_) | dsimp only | split)

theorem execEventAck_keeps {s₀ : State} {k : Cmd} {s : State} (hk : Keeps s₀ s) :
    RKeeps s₀ (execEventAck k s) := by
  unfold execEventAck
  repeat' (first | with_reducible assumption | with_reducible intro _ | with_reducible refine hostCmd_keeps ?_ ?_ | with_reducible refine eventAck_keeps ?_ | with_reducible refine RKeeps.next ?_ | (rw [State.mk_eq_of]; with_reducible refine Keeps.upd ?_) | with_reducible refine RKeeps.use (by assumption) ?_ | dsimp only | split)

end Sys2Proof.Machine
end

