-- ==== Sys2Proof/Laws/KeepsTrust.lean ====
section
/-! SUPPORT. The operations of Machine/Trust.lean keep what `Keeps` says. -/

set_option linter.unusedTactic false
set_option linter.unreachableTactic false

namespace Sys2Proof.Machine

theorem State.loadFw_keeps {s₀ : State} {s : State} {k : Cmd} (hk : Keeps s₀ s) :
    Keeps s₀ (State.loadFw s k) := by
  unfold State.loadFw
  repeat' (first | with_reducible assumption | with_reducible intro _ | with_reducible refine State.finish_keeps ?_ | with_reducible refine State.hallErr_keeps ?_ | with_reducible refine State.modHall_keeps ?_ | (rw [State.mk_eq_of]; with_reducible refine Keeps.upd ?_) | dsimp only | split)

theorem fwLoad_keeps {s₀ : State} {k : Cmd} {s : State} (hk : Keeps s₀ s) :
    Keeps s₀ (fwLoad k s) := by
  unfold fwLoad
  repeat' (first | with_reducible assumption | with_reducible intro _ | with_reducible refine checked_keeps ?_ ?_ | with_reducible refine State.finish_keeps ?_ | with_reducible refine State.loadFw_keeps ?_ | (rw [State.mk_eq_of]; with_reducible refine Keeps.upd ?_) | dsimp only | split)

theorem execFwLoad_keeps {s₀ : State} {k : Cmd} {s : State} (hk : Keeps s₀ s) :
    RKeeps s₀ (execFwLoad k s) := by
  unfold execFwLoad
  repeat' (first | with_reducible assumption | with_reducible intro _ | with_reducible refine hostCmd_keeps ?_ ?_ | with_reducible refine fwLoad_keeps ?_ | with_reducible refine RKeeps.next ?_ | (rw [State.mk_eq_of]; with_reducible refine Keeps.upd ?_) | with_reducible refine RKeeps.use (by assumption) ?_ | dsimp only | split)

theorem State.endEvent7_keeps {s₀ s : State} (h : Keeps s₀ s) : Keeps s₀ (State.endEvent7 s) := by
  unfold State.endEvent7
  extract_lets +onlyGivenNames a b c d
  have hc : Keeps s₀ d := by
    dsimp only [d]
    rw [State.mk_eq_of]
    exact Keeps.upd (State.modHall_keeps h)
  clear_value d
  split
  · exact hc
  · rw [State.mk_eq_of]
    refine hc.updT1 fun hs => ?_
    rw [List.map_append, List.map_map, List.pairwise_append]
    refine ⟨by decide, frames_filter _ hs, fun x hx y hy => ?_⟩
    obtain ⟨n, hn, rfl⟩ := List.mem_map.1 hx
    obtain ⟨z, hz, rfl⟩ := List.mem_map.1 hy
    have h1 := List.mem_range.1 hn
    have h2 := (List.mem_filter.1 hz).2
    simp only [decide_eq_true_eq] at h2
    exact Nat.lt_of_lt_of_le h1 h2

theorem fwLoadHeldStart_keeps {s₀ : State} {s : State} (hk : Keeps s₀ s) :
    Keeps s₀ (fwLoadHeldStart s) := by
  unfold fwLoadHeldStart
  repeat' (first | with_reducible assumption | with_reducible intro _ | with_reducible refine State.endEvent7_keeps ?_ | with_reducible refine State.loadFw_keeps ?_ | (rw [State.mk_eq_of]; with_reducible refine Keeps.upd ?_) | dsimp only | split)

theorem execFwLoadHeldStart_keeps {s₀ : State} {s : State} (hk : Keeps s₀ s) :
    RKeeps s₀ (execFwLoadHeldStart s) := by
  unfold execFwLoadHeldStart
  repeat' (first | with_reducible assumption | with_reducible intro _ | with_reducible refine fwLoadHeldStart_keeps ?_ | with_reducible refine RKeeps.next ?_ | (rw [State.mk_eq_of]; with_reducible refine Keeps.upd ?_) | with_reducible refine RKeeps.use (by assumption) ?_ | dsimp only | split)

theorem State.applyLedger_keeps {s₀ : State} {s : State} (hk : Keeps s₀ s) :
    Keeps s₀ (State.applyLedger s) := by
  unfold State.applyLedger
  repeat' (first | with_reducible assumption | with_reducible intro _ | with_reducible refine State.modNear_keeps ?_ | with_reducible refine State.modChan_keeps ?_ | (rw [State.mk_eq_of]; with_reducible refine Keeps.upd ?_) | with_reducible refine Keeps.foldl ?_ ?_ | dsimp only | split)

theorem State.redrawHash_keeps {s₀ s : State} {n : Nat} (hk : Keeps s₀ s) : Keeps s₀ (State.redrawHash s n) := by
  induction n generalizing s with
  | zero => exact hk
  | succ n ih =>
    unfold State.redrawHash
    split
    · exact ih (State.modHall_keeps (State.drbg_keeps hk))
    · exact hk

theorem State.boot_keeps {s₀ : State} {s : State} {e : BootEnv} (hk : Keeps s₀ s) :
    Keeps s₀ (State.boot s e) := by
  unfold State.boot
  repeat' (first | with_reducible assumption | with_reducible intro _ | with_reducible refine State.modBell_keeps ?_ | with_reducible refine State.modHall_keeps ?_ | with_reducible refine State.hallErr_keeps ?_ | with_reducible refine State.log_keeps ?_ | with_reducible refine State.drbg_keeps ?_ | with_reducible refine State.redrawHash_keeps ?_ | with_reducible refine State.applyLedger_keeps ?_ | with_reducible refine State.endEvent7_keeps ?_ | (rw [State.mk_eq_of]; with_reducible refine Keeps.upd ?_) | with_reducible refine Keeps.foldl ?_ ?_ | with_reducible refine QKeeps.use (by assumption) ?_ | dsimp only | split)

theorem State.startFw_keeps {s₀ : State} {s : State} (hk : Keeps s₀ s) :
    Keeps s₀ (State.startFw s) := by
  unfold State.startFw
  repeat' (first | with_reducible assumption | with_reducible intro _ | with_reducible refine State.forgeUp_keeps ?_ | with_reducible refine State.plinthUp_keeps ?_ | with_reducible refine State.modBell_keeps ?_ | with_reducible refine State.modHall_keeps ?_ | with_reducible refine State.log_keeps ?_ | (rw [State.mk_eq_of]; with_reducible refine Keeps.upd ?_) | with_reducible refine Keeps.foldl ?_ ?_ | dsimp only | split)

theorem fwStart_keeps {s₀ : State} {k : Cmd} {s : State} (hk : Keeps s₀ s) :
    Keeps s₀ (fwStart k s) := by
  unfold fwStart
  repeat' (first | with_reducible assumption | with_reducible intro _ | with_reducible refine checked_keeps ?_ ?_ | with_reducible refine State.finish_keeps ?_ | with_reducible refine State.startFw_keeps ?_ | (rw [State.mk_eq_of]; with_reducible refine Keeps.upd ?_) | dsimp only | split)

theorem execFwStart_keeps {s₀ : State} {k : Cmd} {s : State} (hk : Keeps s₀ s) :
    RKeeps s₀ (execFwStart k s) := by
  unfold execFwStart
  repeat' (first | with_reducible assumption | with_reducible intro _ | with_reducible refine hostCmd_keeps ?_ ?_ | with_reducible refine fwStart_keeps ?_ | with_reducible refine RKeeps.next ?_ | (rw [State.mk_eq_of]; with_reducible refine Keeps.upd ?_) | with_reducible refine RKeeps.use (by assumption) ?_ | dsimp only | split)

theorem attest_keeps {s₀ : State} {k : Cmd} {s : State} (hk : Keeps s₀ s) :
    Keeps s₀ (attest k s) := by
  unfold attest
  repeat' (first | with_reducible assumption | with_reducible intro _ | with_reducible refine checked_keeps ?_ ?_ | with_reducible refine State.drbg_keeps ?_ | with_reducible refine State.modHall_keeps ?_ | with_reducible refine State.finish_keeps ?_ | (rw [State.mk_eq_of]; with_reducible refine Keeps.upd ?_) | with_reducible refine QKeeps.use (by assumption) ?_ | dsimp only | split)

theorem execAttest_keeps {s₀ : State} {k : Cmd} {s : State} (hk : Keeps s₀ s) :
    RKeeps s₀ (execAttest k s) := by
  unfold execAttest
  repeat' (first | with_reducible assumption | with_reducible intro _ | with_reducible refine hostCmd_keeps ?_ ?_ | with_reducible refine attest_keeps ?_ | with_reducible refine RKeeps.next ?_ | (rw [State.mk_eq_of]; with_reducible refine Keeps.upd ?_) | with_reducible refine RKeeps.use (by assumption) ?_ | dsimp only | split)

theorem State.kexRefuse_keeps {s₀ : State} {s : State} {k : Cmd} {st : Status} {check : ℕ} (hk : Keeps s₀ s) :
    Keeps s₀ (State.kexRefuse s k st check) := by
  unfold State.kexRefuse
  repeat' (first | with_reducible assumption | with_reducible intro _ | with_reducible refine State.finish_keeps ?_ | with_reducible refine State.modHall_keeps ?_ | with_reducible refine State.hallErr_keeps ?_ | (rw [State.mk_eq_of]; with_reducible refine Keeps.upd ?_) | dsimp only | split)

theorem keyExchange_keeps {s₀ : State} {k : Cmd} {s : State} (hk : Keeps s₀ s) :
    Keeps s₀ (keyExchange k s) := by
  unfold keyExchange
  repeat' (first | with_reducible assumption | with_reducible intro _ | with_reducible refine checked_keeps ?_ ?_ | with_reducible refine State.kexRefuse_keeps ?_ | with_reducible refine State.modHall_keeps ?_ | with_reducible refine State.finish_keeps ?_ | (rw [State.mk_eq_of]; with_reducible refine Keeps.upd ?_) | dsimp only | split)

theorem execKeyExchange_keeps {s₀ : State} {k : Cmd} {s : State} (hk : Keeps s₀ s) :
    RKeeps s₀ (execKeyExchange k s) := by
  unfold execKeyExchange
  repeat' (first | with_reducible assumption | with_reducible intro _ | with_reducible refine hostCmd_keeps ?_ ?_ | with_reducible refine keyExchange_keeps ?_ | with_reducible refine RKeeps.next ?_ | (rw [State.mk_eq_of]; with_reducible refine Keeps.upd ?_) | with_reducible refine RKeeps.use (by assumption) ?_ | dsimp only | split)

theorem ledgerRead_keeps {s₀ : State} {k : Cmd} {s : State} (hk : Keeps s₀ s) :
    Keeps s₀ (ledgerRead k s) := by
  unfold ledgerRead
  repeat' (first | with_reducible assumption | with_reducible intro _ | with_reducible refine checked_keeps ?_ ?_ | with_reducible refine State.finish_keeps ?_ | (rw [State.mk_eq_of]; with_reducible refine Keeps.upd ?_) | dsimp only | split)

theorem execLedgerRead_keeps {s₀ : State} {k : Cmd} {s : State} (hk : Keeps s₀ s) :
    RKeeps s₀ (execLedgerRead k s) := by
  unfold execLedgerRead
  repeat' (first | with_reducible assumption | with_reducible intro _ | with_reducible refine hostCmd_keeps ?_ ?_ | with_reducible refine ledgerRead_keeps ?_ | with_reducible refine RKeeps.next ?_ | (rw [State.mk_eq_of]; with_reducible refine Keeps.upd ?_) | with_reducible refine RKeeps.use (by assumption) ?_ | dsimp only | split)

theorem rollbackAdvance_keeps {s₀ : State} {k : Cmd} {s : State} (hk : Keeps s₀ s) :
    Keeps s₀ (rollbackAdvance k s) := by
  unfold rollbackAdvance
  repeat' (first | with_reducible assumption | with_reducible intro _ | with_reducible refine checked_keeps ?_ ?_ | with_reducible refine State.finish_keeps ?_ | with_reducible refine State.ledgerWrite_keeps ?_ | with_reducible refine State.ledgerRefused_keeps ?_ | with_reducible refine OKeeps.none | with_reducible refine OKeeps.some ?_ | (rw [State.mk_eq_of]; with_reducible refine Keeps.upd ?_) | with_reducible refine OKeeps.use (by assumption) ?_ | dsimp only | split)

theorem execRollbackAdvance_keeps {s₀ : State} {k : Cmd} {s : State} (hk : Keeps s₀ s) :
    RKeeps s₀ (execRollbackAdvance k s) := by
  unfold execRollbackAdvance
  repeat' (first | with_reducible assumption | with_reducible intro _ | with_reducible refine hostCmd_keeps ?_ ?_ | with_reducible refine rollbackAdvance_keeps ?_ | with_reducible refine RKeeps.next ?_ | (rw [State.mk_eq_of]; with_reducible refine Keeps.upd ?_) | with_reducible refine RKeeps.use (by assumption) ?_ | dsimp only | split)

end Sys2Proof.Machine
end

