-- ==== Sys2Proof/Laws/KeepsPower.lean ====
section
/-! SUPPORT. The operations of Machine/Power.lean keep what `Keeps` says. -/

set_option linter.unusedTactic false
set_option linter.unreachableTactic false

namespace Sys2Proof.Machine

theorem State.powerLoss_keeps {s₀ s : State} (h : Keeps s₀ s) : Keeps s₀ (State.powerLoss s) :=
  h.trans ⟨fun _ => rfl, fun _ => rfl, fun _ => List.Pairwise.nil, fun _ => List.Pairwise.nil, rfl, le_refl _⟩

theorem State.perstReset_keeps {s₀ : State} {s : State} (hk : Keeps s₀ s) :
    Keeps s₀ (State.perstReset s) := by
  unfold State.perstReset
  repeat' (first | with_reducible assumption | with_reducible intro _ | with_reducible refine State.dark_keeps ?_ | (rw [State.mk_eq_of]; with_reducible refine Keeps.upd ?_) | dsimp only | split)

theorem execPowerOn_keeps {s₀ : State} {s : State} (hk : Keeps s₀ s) :
    RKeeps s₀ (execPowerOn s) := by
  unfold execPowerOn
  repeat' (first | with_reducible assumption | with_reducible intro _ | with_reducible refine State.powerLoss_keeps ?_ | with_reducible refine RKeeps.next ?_ | (rw [State.mk_eq_of]; with_reducible refine Keeps.upd ?_) | with_reducible refine RKeeps.use (by assumption) ?_ | dsimp only | split)

theorem execPerstAssert_keeps {s₀ : State} {s : State} (hk : Keeps s₀ s) :
    RKeeps s₀ (execPerstAssert s) := by
  unfold execPerstAssert
  repeat' (first | with_reducible assumption | with_reducible intro _ | with_reducible refine State.perstReset_keeps ?_ | with_reducible refine RKeeps.next ?_ | (rw [State.mk_eq_of]; with_reducible refine Keeps.upd ?_) | with_reducible refine RKeeps.use (by assumption) ?_ | dsimp only | split)

theorem execPerstDeassert_keeps {s₀ : State} {env : BootEnv} {s : State} (hk : Keeps s₀ s) :
    RKeeps s₀ (execPerstDeassert env s) := by
  unfold execPerstDeassert
  repeat' (first | with_reducible assumption | with_reducible intro _ | with_reducible refine State.boot_keeps ?_ | with_reducible refine RKeeps.next ?_ | (rw [State.mk_eq_of]; with_reducible refine Keeps.upd ?_) | with_reducible refine RKeeps.use (by assumption) ?_ | dsimp only | split)

theorem execShutdownThreshold_keeps {s₀ : State} {s : State} (hk : Keeps s₀ s) :
    RKeeps s₀ (execShutdownThreshold s) := by
  unfold execShutdownThreshold
  repeat' (first | with_reducible assumption | with_reducible intro _ | with_reducible refine State.powerLoss_keeps ?_ | with_reducible refine RKeeps.next ?_ | (rw [State.mk_eq_of]; with_reducible refine Keeps.upd ?_) | with_reducible refine RKeeps.use (by assumption) ?_ | dsimp only | split)

theorem execOvervoltage_keeps {s₀ : State} {s : State} (hk : Keeps s₀ s) :
    RKeeps s₀ (execOvervoltage s) := by
  unfold execOvervoltage
  repeat' (first | with_reducible assumption | with_reducible intro _ | with_reducible refine State.powerLoss_keeps ?_ | with_reducible refine RKeeps.next ?_ | (rw [State.mk_eq_of]; with_reducible refine Keeps.upd ?_) | with_reducible refine RKeeps.use (by assumption) ?_ | dsimp only | split)

theorem execPresentMate_keeps {s₀ : State} {s : State} (hk : Keeps s₀ s) :
    RKeeps s₀ (execPresentMate s) := by
  unfold execPresentMate
  repeat' (first | with_reducible assumption | with_reducible intro _ | with_reducible refine State.modBell_keeps ?_ | with_reducible refine RKeeps.next ?_ | (rw [State.mk_eq_of]; with_reducible refine Keeps.upd ?_) | with_reducible refine RKeeps.use (by assumption) ?_ | dsimp only | split)

theorem execPresentBreak_keeps {s₀ : State} {s : State} (hk : Keeps s₀ s) :
    RKeeps s₀ (execPresentBreak s) := by
  unfold execPresentBreak
  repeat' (first | with_reducible assumption | with_reducible intro _ | with_reducible refine State.modBell_keeps ?_ | with_reducible refine State.powerLoss_keeps ?_ | with_reducible refine RKeeps.next ?_ | (rw [State.mk_eq_of]; with_reducible refine Keeps.upd ?_) | with_reducible refine RKeeps.use (by assumption) ?_ | dsimp only | split)

theorem execSupplyLow_keeps {s₀ : State} {mv10 : BitVec 16} {s : State} (hk : Keeps s₀ s) :
    RKeeps s₀ (execSupplyLow mv10 s) := by
  unfold execSupplyLow
  repeat' (first | with_reducible assumption | with_reducible intro _ | with_reducible refine State.log_keeps ?_ | with_reducible refine State.modBell_keeps ?_ | with_reducible refine RKeeps.next ?_ | (rw [State.mk_eq_of]; with_reducible refine Keeps.upd ?_) | with_reducible refine RKeeps.use (by assumption) ?_ | dsimp only | split)

theorem execSupplyOk_keeps {s₀ : State} {mv10 : BitVec 16} {s : State} (hk : Keeps s₀ s) :
    RKeeps s₀ (execSupplyOk mv10 s) := by
  unfold execSupplyOk
  repeat' (first | with_reducible assumption | with_reducible intro _ | with_reducible refine State.log_keeps ?_ | with_reducible refine State.modBell_keeps ?_ | with_reducible refine RKeeps.next ?_ | (rw [State.mk_eq_of]; with_reducible refine Keeps.upd ?_) | with_reducible refine RKeeps.use (by assumption) ?_ | dsimp only | split)

theorem execCurrentLimitOnset_keeps {s₀ : State} {s : State} (hk : Keeps s₀ s) :
    RKeeps s₀ (execCurrentLimitOnset s) := by
  unfold execCurrentLimitOnset
  repeat' (first | with_reducible assumption | with_reducible intro _ | with_reducible refine State.modBell_keeps ?_ | with_reducible refine RKeeps.next ?_ | (rw [State.mk_eq_of]; with_reducible refine Keeps.upd ?_) | with_reducible refine RKeeps.use (by assumption) ?_ | dsimp only | split)

theorem execCurrentLimitRelease_keeps {s₀ : State} {s : State} (hk : Keeps s₀ s) :
    RKeeps s₀ (execCurrentLimitRelease s) := by
  unfold execCurrentLimitRelease
  repeat' (first | with_reducible assumption | with_reducible intro _ | with_reducible refine State.modBell_keeps ?_ | with_reducible refine RKeeps.next ?_ | (rw [State.mk_eq_of]; with_reducible refine Keeps.upd ?_) | with_reducible refine RKeeps.use (by assumption) ?_ | dsimp only | split)

theorem execInputCurrentLimit_keeps {s₀ : State} {s : State} (hk : Keeps s₀ s) :
    RKeeps s₀ (execInputCurrentLimit s) := by
  unfold execInputCurrentLimit
  repeat' (first | with_reducible assumption | with_reducible intro _ | with_reducible refine State.log_keeps ?_ | with_reducible refine State.powerLoss_keeps ?_ | with_reducible refine RKeeps.next ?_ | (rw [State.mk_eq_of]; with_reducible refine Keeps.upd ?_) | with_reducible refine RKeeps.use (by assumption) ?_ | dsimp only | split)

theorem State.tick_keeps {s₀ : State} {s : State} (hk : Keeps s₀ s) :
    Keeps s₀ (State.tick s) := by
  unfold State.tick
  repeat' (first | with_reducible assumption | with_reducible intro _ | (rw [State.mk_eq_of]; with_reducible refine Keeps.upd ?_) | dsimp only | split)

theorem execRefLock_keeps {s₀ : State} {s : State} (hk : Keeps s₀ s) :
    RKeeps s₀ (execRefLock s) := by
  unfold execRefLock
  repeat' (first | with_reducible assumption | with_reducible intro _ | with_reducible refine RKeeps.next ?_ | (rw [State.mk_eq_of]; with_reducible refine Keeps.upd ?_) | with_reducible refine RKeeps.use (by assumption) ?_ | dsimp only | split)

theorem execRefLost_keeps {s₀ : State} {s : State} (hk : Keeps s₀ s) :
    RKeeps s₀ (execRefLost s) := by
  unfold execRefLost
  repeat' (first | with_reducible assumption | with_reducible intro _ | with_reducible refine State.log_keeps ?_ | with_reducible refine RKeeps.next ?_ | (rw [State.mk_eq_of]; with_reducible refine Keeps.upd ?_) | with_reducible refine RKeeps.use (by assumption) ?_ | dsimp only | split)

theorem execUndervoltageOnset_keeps {s₀ : State} {d : DomId} {s : State} (hk : Keeps s₀ s) :
    RKeeps s₀ (execUndervoltageOnset d s) := by
  unfold execUndervoltageOnset
  repeat' (first | with_reducible assumption | with_reducible intro _ | with_reducible refine State.modBell_keeps ?_ | with_reducible refine RKeeps.next ?_ | (rw [State.mk_eq_of]; with_reducible refine Keeps.upd ?_) | with_reducible refine RKeeps.use (by assumption) ?_ | dsimp only | split)

theorem execUndervoltageRecovery_keeps {s₀ : State} {d : DomId} {s : State} (hk : Keeps s₀ s) :
    RKeeps s₀ (execUndervoltageRecovery d s) := by
  unfold execUndervoltageRecovery
  repeat' (first | with_reducible assumption | with_reducible intro _ | with_reducible refine State.modBell_keeps ?_ | with_reducible refine RKeeps.next ?_ | (rw [State.mk_eq_of]; with_reducible refine Keeps.upd ?_) | with_reducible refine RKeeps.use (by assumption) ?_ | dsimp only | split)

theorem execDomainUndervoltage_keeps {s₀ : State} {d : DomId} {s : State} (hk : Keeps s₀ s) :
    RKeeps s₀ (execDomainUndervoltage d s) := by
  unfold execDomainUndervoltage
  repeat' (first | with_reducible assumption | with_reducible intro _ | with_reducible refine State.draw_keeps ?_ | with_reducible refine State.modBell_keeps ?_ | with_reducible refine State.log_keeps ?_ | with_reducible refine State.settle_keeps ?_ | with_reducible refine State.anneal_keeps ?_ | with_reducible refine RKeeps.next ?_ | (rw [State.mk_eq_of]; with_reducible refine Keeps.upd ?_) | with_reducible refine QKeeps.use (by assumption) ?_ | with_reducible refine RKeeps.use (by assumption) ?_ | dsimp only | split)

theorem execPowerSample_keeps {s₀ : State} {watts : BitVec 16} {s : State} (hk : Keeps s₀ s) :
    RKeeps s₀ (execPowerSample watts s) := by
  unfold execPowerSample
  repeat' (first | with_reducible assumption | with_reducible intro _ | with_reducible refine State.log_keeps ?_ | with_reducible refine RKeeps.next ?_ | (rw [State.mk_eq_of]; with_reducible refine Keeps.upd ?_) | with_reducible refine RKeeps.use (by assumption) ?_ | dsimp only | split)

theorem dieReading_keeps {s₀ : State} {temps : List (Fin 164 × BitVec 16)} {s : State} (hk : Keeps s₀ s) :
    Keeps s₀ (dieReading temps s) := by
  unfold dieReading
  repeat' (first | with_reducible assumption | with_reducible intro _ | with_reducible refine State.modBell_keeps ?_ | with_reducible refine State.log_keeps ?_ | with_reducible refine State.enterFault_keeps ?_ | (rw [State.mk_eq_of]; with_reducible refine Keeps.upd ?_) | with_reducible refine Keeps.foldl ?_ ?_ | dsimp only | split)

theorem execDieThermalReading_keeps {s₀ : State} {temps : List (Fin 164 × BitVec 16)} {s : State} (hk : Keeps s₀ s) :
    RKeeps s₀ (execDieThermalReading temps s) := by
  unfold execDieThermalReading
  repeat' (first | with_reducible assumption | with_reducible intro _ | with_reducible refine dieReading_keeps ?_ | with_reducible refine RKeeps.next ?_ | (rw [State.mk_eq_of]; with_reducible refine Keeps.upd ?_) | with_reducible refine RKeeps.use (by assumption) ?_ | dsimp only | split)

theorem State.hardLimit_keeps {s₀ : State} {s : State} {sensor : Fin 164} (hk : Keeps s₀ s) :
    Keeps s₀ (State.hardLimit s sensor) := by
  unfold State.hardLimit
  repeat' (first | with_reducible assumption | with_reducible intro _ | with_reducible refine State.enterFault_keeps ?_ | with_reducible refine State.log_keeps ?_ | (rw [State.mk_eq_of]; with_reducible refine Keeps.upd ?_) | dsimp only | split)

theorem execDieHardLimit_keeps {s₀ : State} {sensor : Fin 164} {s : State} (hk : Keeps s₀ s) :
    RKeeps s₀ (execDieHardLimit sensor s) := by
  unfold execDieHardLimit
  repeat' (first | with_reducible assumption | with_reducible intro _ | with_reducible refine State.hardLimit_keeps ?_ | with_reducible refine RKeeps.next ?_ | (rw [State.mk_eq_of]; with_reducible refine Keeps.upd ?_) | with_reducible refine RKeeps.use (by assumption) ?_ | dsimp only | split)

theorem execStackHardLimit_keeps {s₀ : State} {st : StackId} {s : State} (hk : Keeps s₀ s) :
    RKeeps s₀ (execStackHardLimit st s) := by
  unfold execStackHardLimit
  repeat' (first | with_reducible assumption | with_reducible intro _ | with_reducible refine State.hardLimit_keeps ?_ | with_reducible refine RKeeps.next ?_ | (rw [State.mk_eq_of]; with_reducible refine Keeps.upd ?_) | with_reducible refine RKeeps.use (by assumption) ?_ | dsimp only | split)

theorem execGddr7HardLimit_keeps {s₀ : State} {n : PlinthId} {dev : Fin 6} {s : State} (hk : Keeps s₀ s) :
    RKeeps s₀ (execGddr7HardLimit n dev s) := by
  unfold execGddr7HardLimit
  repeat' (first | with_reducible assumption | with_reducible intro _ | with_reducible refine State.hardLimit_keeps ?_ | with_reducible refine RKeeps.next ?_ | (rw [State.mk_eq_of]; with_reducible refine Keeps.upd ?_) | with_reducible refine RKeeps.use (by assumption) ?_ | dsimp only | split)

theorem gddr7Reading_keeps {s₀ : State} {n : PlinthId} {temps : List (Fin 6 × BitVec 16)} {s : State} (hk : Keeps s₀ s) :
    Keeps s₀ (gddr7Reading n temps s) := by
  unfold gddr7Reading
  repeat' (first | with_reducible assumption | with_reducible intro _ | with_reducible refine State.modBell_keeps ?_ | with_reducible refine State.log_keeps ?_ | (rw [State.mk_eq_of]; with_reducible refine Keeps.upd ?_) | with_reducible refine Keeps.foldl ?_ ?_ | dsimp only | split)

theorem execGddr7TempReading_keeps {s₀ : State} {n : PlinthId} {temps : List (Fin 6 × BitVec 16)} {s : State} (hk : Keeps s₀ s) :
    RKeeps s₀ (execGddr7TempReading n temps s) := by
  unfold execGddr7TempReading
  repeat' (first | with_reducible assumption | with_reducible intro _ | with_reducible refine gddr7Reading_keeps ?_ | with_reducible refine RKeeps.next ?_ | (rw [State.mk_eq_of]; with_reducible refine Keeps.upd ?_) | with_reducible refine RKeeps.use (by assumption) ?_ | dsimp only | split)

theorem execErrorSummary_keeps {s₀ : State} {s : State} (hk : Keeps s₀ s) :
    RKeeps s₀ (execErrorSummary s) := by
  unfold execErrorSummary
  repeat' (first | with_reducible assumption | with_reducible intro _ | with_reducible refine State.errorSummary_keeps ?_ | with_reducible refine RKeeps.next ?_ | (rw [State.mk_eq_of]; with_reducible refine Keeps.upd ?_) | with_reducible refine RKeeps.use (by assumption) ?_ | dsimp only | split)

theorem State.flr_keeps {s₀ : State} {s : State} {fn : FnId} (hk : Keeps s₀ s) :
    Keeps s₀ (State.flr s fn) := by
  unfold State.flr
  repeat' (first | with_reducible assumption | with_reducible intro _ | with_reducible refine State.modHost_keeps ?_ | with_reducible refine State.beginDisable_keeps ?_ | (rw [State.mk_eq_of]; with_reducible refine Keeps.upd ?_) | dsimp only | split)

theorem execFlr_keeps {s₀ : State} {fn : FnId} {s : State} (hk : Keeps s₀ s) :
    RKeeps s₀ (execFlr fn s) := by
  unfold execFlr
  repeat' (first | with_reducible assumption | with_reducible intro _ | with_reducible refine State.settle_keeps ?_ | with_reducible refine State.flr_keeps ?_ | with_reducible refine RKeeps.next ?_ | (rw [State.mk_eq_of]; with_reducible refine Keeps.upd ?_) | with_reducible refine RKeeps.use (by assumption) ?_ | dsimp only | split)

theorem State.flrAll_keeps {s₀ : State} {s : State} (hk : Keeps s₀ s) :
    Keeps s₀ (State.flrAll s) := by
  unfold State.flrAll
  repeat' (first | with_reducible assumption | with_reducible intro _ | with_reducible refine State.flr_keeps ?_ | (rw [State.mk_eq_of]; with_reducible refine Keeps.upd ?_) | with_reducible refine Keeps.foldl ?_ ?_ | dsimp only | split)

theorem execFlrPf_keeps {s₀ : State} {s : State} (hk : Keeps s₀ s) :
    RKeeps s₀ (execFlrPf s) := by
  unfold execFlrPf
  repeat' (first | with_reducible assumption | with_reducible intro _ | with_reducible refine State.settle_keeps ?_ | with_reducible refine State.flrAll_keeps ?_ | with_reducible refine RKeeps.next ?_ | (rw [State.mk_eq_of]; with_reducible refine Keeps.upd ?_) | with_reducible refine RKeeps.use (by assumption) ?_ | dsimp only | split)

theorem execHotReset_keeps {s₀ : State} {env : BootEnv} {s : State} (hk : Keeps s₀ s) :
    RKeeps s₀ (execHotReset env s) := by
  unfold execHotReset
  repeat' (first | with_reducible assumption | with_reducible intro _ | with_reducible refine State.settle_keeps ?_ | with_reducible refine State.flrAll_keeps ?_ | with_reducible refine RKeeps.next ?_ | (rw [State.mk_eq_of]; with_reducible refine Keeps.upd ?_) | with_reducible refine RKeeps.use (by assumption) ?_ | dsimp only | split)

theorem execEntropyHealthFail_keeps {s₀ : State} {s : State} (hk : Keeps s₀ s) :
    RKeeps s₀ (execEntropyHealthFail s) := by
  unfold execEntropyHealthFail
  repeat' (first | with_reducible assumption | with_reducible intro _ | with_reducible refine State.hallErr_keeps ?_ | with_reducible refine State.settle_keeps ?_ | with_reducible refine State.anneal_keeps ?_ | with_reducible refine State.modHall_keeps ?_ | with_reducible refine RKeeps.next ?_ | (rw [State.mk_eq_of]; with_reducible refine Keeps.upd ?_) | with_reducible refine RKeeps.use (by assumption) ?_ | dsimp only | split)

theorem execExtestLoad_keeps {s₀ : State} {s : State} (hk : Keeps s₀ s) :
    RKeeps s₀ (execExtestLoad s) := by
  unfold execExtestLoad
  repeat' (first | with_reducible assumption | with_reducible intro _ | with_reducible refine State.perstReset_keeps ?_ | with_reducible refine RKeeps.next ?_ | (rw [State.mk_eq_of]; with_reducible refine Keeps.upd ?_) | with_reducible refine RKeeps.use (by assumption) ?_ | dsimp only | split)

theorem execExtestLeave_keeps {s₀ : State} {env : BootEnv} {s : State} (hk : Keeps s₀ s) :
    RKeeps s₀ (execExtestLeave env s) := by
  unfold execExtestLeave
  repeat' (first | with_reducible assumption | with_reducible intro _ | with_reducible refine State.boot_keeps ?_ | with_reducible refine RKeeps.next ?_ | (rw [State.mk_eq_of]; with_reducible refine Keeps.upd ?_) | with_reducible refine RKeeps.use (by assumption) ?_ | dsimp only | split)

theorem execIdcode_keeps {s₀ : State} {s : State} (hk : Keeps s₀ s) :
    RKeeps s₀ (execIdcode s) := by
  unfold execIdcode
  repeat' (first | with_reducible assumption | with_reducible intro _ | with_reducible refine RKeeps.next ?_ | (rw [State.mk_eq_of]; with_reducible refine Keeps.upd ?_) | with_reducible refine RKeeps.use (by assumption) ?_ | dsimp only | split)

theorem execSamplePreload_keeps {s₀ : State} {capture : Bool} {data : BitVec 16} {s : State} (hk : Keeps s₀ s) :
    RKeeps s₀ (execSamplePreload capture data s) := by
  unfold execSamplePreload
  repeat' (first | with_reducible assumption | with_reducible intro _ | with_reducible refine RKeeps.next ?_ | (rw [State.mk_eq_of]; with_reducible refine Keeps.upd ?_) | with_reducible refine RKeeps.use (by assumption) ?_ | dsimp only | split)

theorem execBypass_keeps {s₀ : State} {code : BitVec 4} {s : State} (hk : Keeps s₀ s) :
    RKeeps s₀ (execBypass code s) := by
  unfold execBypass
  repeat' (first | with_reducible assumption | with_reducible intro _ | with_reducible refine RKeeps.next ?_ | (rw [State.mk_eq_of]; with_reducible refine Keeps.upd ?_) | with_reducible refine RKeeps.use (by assumption) ?_ | dsimp only | split)

end Sys2Proof.Machine
end

