-- ==== Sys2Proof/Laws/KeepsRun.lean ====
section
/-! SUPPORT. The operations of Machine/Run.lean keep what `Keeps` says. -/

set_option linter.unusedTactic false
set_option linter.unreachableTactic false

namespace Sys2Proof.Machine

theorem runCommand_keeps {s₀ : State} {op : Op} {k : Cmd} {s : State} (hk : Keeps s₀ s) :
    Keeps s₀ (runCommand op k s) := by
  unfold runCommand
  repeat' (first | with_reducible assumption | with_reducible intro _ | with_reducible refine checked_keeps ?_ ?_ | with_reducible refine State.finish_keeps ?_ | with_reducible refine State.modMould_keeps ?_ | (rw [State.mk_eq_of]; with_reducible refine Keeps.upd ?_) | dsimp only | split)

theorem execRunStep_keeps {s₀ : State} {k : Cmd} {s : State} (hk : Keeps s₀ s) :
    RKeeps s₀ (execRunStep k s) := by
  unfold execRunStep
  repeat' (first | with_reducible assumption | with_reducible intro _ | with_reducible refine hostCmd_keeps ?_ ?_ | with_reducible refine runCommand_keeps ?_ | with_reducible refine RKeeps.next ?_ | (rw [State.mk_eq_of]; with_reducible refine Keeps.upd ?_) | with_reducible refine RKeeps.use (by assumption) ?_ | dsimp only | split)

theorem execRunSteps_keeps {s₀ : State} {k : Cmd} {s : State} (hk : Keeps s₀ s) :
    RKeeps s₀ (execRunSteps k s) := by
  unfold execRunSteps
  repeat' (first | with_reducible assumption | with_reducible intro _ | with_reducible refine hostCmd_keeps ?_ ?_ | with_reducible refine runCommand_keeps ?_ | with_reducible refine RKeeps.next ?_ | (rw [State.mk_eq_of]; with_reducible refine Keeps.upd ?_) | with_reducible refine RKeeps.use (by assumption) ?_ | dsimp only | split)

theorem State.haltQueue_keeps {s₀ : State} {s : State} {fn : FnId} {id : BitVec 64} {running : Bool} (hk : Keeps s₀ s) :
    Keeps s₀ (State.haltQueue s fn id running) := by
  unfold State.haltQueue
  repeat' (first | with_reducible assumption | with_reducible intro _ | with_reducible refine State.finish_keeps ?_ | with_reducible refine State.modMould_keeps ?_ | (rw [State.mk_eq_of]; with_reducible refine Keeps.upd ?_) | with_reducible refine Keeps.foldl ?_ ?_ | dsimp only | split)

theorem State.halt_keeps {s₀ : State} {s : State} {fn : FnId} {id : BitVec 64} (hk : Keeps s₀ s) :
    Keeps s₀ (State.halt s fn id) := by
  unfold State.halt
  repeat' (first | with_reducible assumption | with_reducible intro _ | with_reducible refine State.haltQueue_keeps ?_ | with_reducible refine State.modMould_keeps ?_ | with_reducible refine State.endStep_keeps ?_ | (rw [State.mk_eq_of]; with_reducible refine Keeps.upd ?_) | dsimp only | split)

theorem haltRun_keeps {s₀ : State} {k : Cmd} {s : State} (hk : Keeps s₀ s) :
    Keeps s₀ (haltRun k s) := by
  unfold haltRun
  repeat' (first | with_reducible assumption | with_reducible intro _ | with_reducible refine checked_keeps ?_ ?_ | with_reducible refine State.finish_keeps ?_ | with_reducible refine State.halt_keeps ?_ | (rw [State.mk_eq_of]; with_reducible refine Keeps.upd ?_) | dsimp only | split)

theorem execHaltRun_keeps {s₀ : State} {k : Cmd} {s : State} (hk : Keeps s₀ s) :
    RKeeps s₀ (execHaltRun k s) := by
  unfold execHaltRun
  repeat' (first | with_reducible assumption | with_reducible intro _ | with_reducible refine hostCmd_keeps ?_ ?_ | with_reducible refine haltRun_keeps ?_ | with_reducible refine RKeeps.next ?_ | (rw [State.mk_eq_of]; with_reducible refine Keeps.upd ?_) | with_reducible refine RKeeps.use (by assumption) ?_ | dsimp only | split)

theorem queryRun_keeps {s₀ : State} {k : Cmd} {s : State} (hk : Keeps s₀ s) :
    Keeps s₀ (queryRun k s) := by
  unfold queryRun
  repeat' (first | with_reducible assumption | with_reducible intro _ | with_reducible refine checked_keeps ?_ ?_ | with_reducible refine State.finish_keeps ?_ | (rw [State.mk_eq_of]; with_reducible refine Keeps.upd ?_) | dsimp only | split)

theorem execQueryRun_keeps {s₀ : State} {k : Cmd} {s : State} (hk : Keeps s₀ s) :
    RKeeps s₀ (execQueryRun k s) := by
  unfold execQueryRun
  repeat' (first | with_reducible assumption | with_reducible intro _ | with_reducible refine hostCmd_keeps ?_ ?_ | with_reducible refine queryRun_keeps ?_ | with_reducible refine RKeeps.next ?_ | (rw [State.mk_eq_of]; with_reducible refine Keeps.upd ?_) | with_reducible refine RKeeps.use (by assumption) ?_ | dsimp only | split)

theorem State.stepDone_keeps {s₀ : State} {s : State} {fn : FnId} {id : BitVec 64} {index : ℕ} (hk : Keeps s₀ s) :
    Keeps s₀ (State.stepDone s fn id index) := by
  unfold State.stepDone
  repeat' (first | with_reducible assumption | with_reducible intro _ | with_reducible refine State.modMould_keeps ?_ | with_reducible refine State.releasePins_keeps ?_ | with_reducible refine State.idleForges_keeps ?_ | with_reducible refine State.modFn_keeps ?_ | with_reducible refine State.endRunCmd_keeps ?_ | (rw [State.mk_eq_of]; with_reducible refine Keeps.upd ?_) | dsimp only | split)

theorem State.heatGone_keeps {s₀ : State} {s : State} {fn : FnId} {id : BitVec 64} {b : ℕ} (hk : Keeps s₀ s) :
    Keeps s₀ (State.heatGone s fn id b) := by
  unfold State.heatGone
  repeat' (first | with_reducible assumption | with_reducible intro _ | with_reducible refine State.modMould_keeps ?_ | with_reducible refine State.modFn_keeps ?_ | with_reducible refine State.modRun_keeps ?_ | with_reducible refine State.unpinStep_keeps ?_ | (rw [State.mk_eq_of]; with_reducible refine Keeps.upd ?_) | dsimp only | split)

theorem State.commitStepHeat_keeps {s₀ : State} {s : State} {fn : FnId} {slot : Fin 32} (hk : Keeps s₀ s) :
    Keeps s₀ (State.commitStepHeat s fn slot) := by
  unfold State.commitStepHeat
  repeat' (first | with_reducible assumption | with_reducible intro _ | with_reducible refine State.releaseHeld_keeps ?_ | with_reducible refine State.commitHeat_keeps ?_ | with_reducible refine State.record_keeps ?_ | with_reducible refine State.sendTo_keeps ?_ | with_reducible refine State.stepDone_keeps ?_ | with_reducible refine State.heatGone_keeps ?_ | with_reducible refine State.modRun_keeps ?_ | (rw [State.mk_eq_of]; with_reducible refine Keeps.upd ?_) | with_reducible refine Keeps.foldl ?_ ?_ | dsimp only | split)

theorem State.reserveHeats_keeps {s₀ : State} {s : State} {fn : FnId} {m : Mould} (hk : Keeps s₀ s) :
    OKeeps s₀ (State.reserveHeats s fn m) := by
  unfold State.reserveHeats
  repeat' (first | with_reducible assumption | with_reducible intro _ | with_reducible refine State.allocT1Many_keeps ?_ | with_reducible refine OKeeps.none | with_reducible refine OKeeps.some ?_ | (rw [State.mk_eq_of]; with_reducible refine Keeps.upd ?_) | with_reducible refine Keeps.foldl ?_ ?_ | with_reducible refine OKeeps.foldl ?_ ?_ | with_reducible refine OKeeps.bind ?_ ?_ | with_reducible refine OKeeps.bindOf ?_ | with_reducible refine OKeeps.map ?_ ?_ | with_reducible refine OKeeps.mapQ ?_ ?_ | with_reducible refine OKeeps.mapOf ?_ | with_reducible refine OKeeps.use (by assumption) ?_ | dsimp only | split)

theorem State.takeForge_keeps {s₀ : State} {s : State} {fn : FnId} {id : BitVec 64} {logical : ℕ} {f : ForgeId} (hk : Keeps s₀ s) :
    Keeps s₀ (State.takeForge s fn id logical f) := by
  unfold State.takeForge
  repeat' (first | with_reducible assumption | with_reducible intro _ | with_reducible refine State.modForge_keeps ?_ | (rw [State.mk_eq_of]; with_reducible refine Keeps.upd ?_) | (rw [State.mk_eq_of]; with_reducible refine Keeps.updHearth ?_ (fun hs => Memory.sorted_writeAll hs _ _)) | (rw [State.mk_eq_of]; with_reducible refine Keeps.updHearth ?_ (fun hs => Memory.sorted_filter hs _)) | dsimp only | split)

theorem State.issueFetch_keeps {s₀ : State} {s : State} {fn : FnId} {id : BitVec 64} {entry : ℕ} {step : ℕ} {e : Prefetch} {bindings : List ℕ} (hk : Keeps s₀ s) :
    Keeps s₀ (State.issueFetch s fn id entry step e bindings) := by
  unfold State.issueFetch
  repeat' (first | with_reducible assumption | with_reducible intro _ | with_reducible refine State.modPage_keeps ?_ | with_reducible refine State.stamp_keeps ?_ | with_reducible refine State.modRun_keeps ?_ | (rw [State.mk_eq_of]; with_reducible refine Keeps.upd ?_) | with_reducible refine Keeps.foldl ?_ ?_ | with_reducible refine QKeeps.use (by assumption) ?_ | dsimp only | split)

theorem State.openGate_keeps {s₀ : State} {s : State} {fn : FnId} {m : Mould} {c : RunCmd} {attempts : ℕ} {dropped : optParam Bool false} (hk : Keeps s₀ s) :
    Keeps s₀ (State.openGate s fn m c attempts dropped) := by
  unfold State.openGate
  repeat' (first | with_reducible assumption | with_reducible intro _ | with_reducible refine State.reserveHeats_keeps ?_ | with_reducible refine State.endRunCmd_keeps ?_ | with_reducible refine State.modMould_keeps ?_ | with_reducible refine State.stamp_keeps ?_ | with_reducible refine State.takeForge_keeps ?_ | with_reducible refine State.modFn_keeps ?_ | with_reducible refine State.issueFetch_keeps ?_ | with_reducible refine State.sendTo_keeps ?_ | with_reducible refine OKeeps.none | with_reducible refine OKeeps.some ?_ | (rw [State.mk_eq_of]; with_reducible refine Keeps.upd ?_) | with_reducible refine Keeps.foldl ?_ ?_ | with_reducible refine OKeeps.foldl ?_ ?_ | with_reducible refine OKeeps.bind ?_ ?_ | with_reducible refine OKeeps.bindOf ?_ | with_reducible refine OKeeps.map ?_ ?_ | with_reducible refine OKeeps.mapQ ?_ ?_ | with_reducible refine OKeeps.mapOf ?_ | with_reducible refine OKeeps.use (by assumption) ?_ | with_reducible refine QKeeps.use (by assumption) ?_ | dsimp only | split)

theorem stepGateOpen_keeps {s₀ : State} {fn : FnId} {id : BitVec 64} {s : State} (hk : Keeps s₀ s) :
    Keeps s₀ (stepGateOpen fn id s) := by
  unfold stepGateOpen
  repeat' (first | with_reducible assumption | with_reducible intro _ | with_reducible refine State.endRunCmd_keeps ?_ | with_reducible refine State.modMould_keeps ?_ | with_reducible refine State.openGate_keeps ?_ | (rw [State.mk_eq_of]; with_reducible refine Keeps.upd ?_) | dsimp only | split)

theorem execStepGateOpen_keeps {s₀ : State} {fn : FnId} {mould : BitVec 64} {s : State} (hk : Keeps s₀ s) :
    RKeeps s₀ (execStepGateOpen fn mould s) := by
  unfold execStepGateOpen
  repeat' (first | with_reducible assumption | with_reducible intro _ | with_reducible refine State.settle_keeps ?_ | with_reducible refine stepGateOpen_keeps ?_ | with_reducible refine RKeeps.next ?_ | (rw [State.mk_eq_of]; with_reducible refine Keeps.upd ?_) | with_reducible refine RKeeps.use (by assumption) ?_ | dsimp only | split)

theorem stepRerun_keeps {s₀ : State} {fn : FnId} {id : BitVec 64} {s : State} (hk : Keeps s₀ s) :
    Keeps s₀ (stepRerun fn id s) := by
  unfold stepRerun
  repeat' (first | with_reducible assumption | with_reducible intro _ | with_reducible refine State.modMould_keeps ?_ | with_reducible refine State.openGate_keeps ?_ | (rw [State.mk_eq_of]; with_reducible refine Keeps.upd ?_) | dsimp only | split)

theorem execStepRerun_keeps {s₀ : State} {fn : FnId} {mould : BitVec 64} {s : State} (hk : Keeps s₀ s) :
    RKeeps s₀ (execStepRerun fn mould s) := by
  unfold execStepRerun
  repeat' (first | with_reducible assumption | with_reducible intro _ | with_reducible refine State.settle_keeps ?_ | with_reducible refine stepRerun_keeps ?_ | with_reducible refine RKeeps.next ?_ | (rw [State.mk_eq_of]; with_reducible refine Keeps.upd ?_) | with_reducible refine RKeeps.use (by assumption) ?_ | dsimp only | split)

theorem State.functionFault_keeps {s₀ : State} {s : State} {fn : FnId} (hk : Keeps s₀ s) :
    Keeps s₀ (State.functionFault s fn) := by
  unfold State.functionFault
  repeat' (first | with_reducible assumption | with_reducible intro _ | with_reducible refine State.closeStep_keeps ?_ | with_reducible refine State.finish_keeps ?_ | with_reducible refine State.scrapStepHeat_keeps ?_ | with_reducible refine State.scrapCmdHeats_keeps ?_ | with_reducible refine State.log_keeps ?_ | with_reducible refine State.modFn_keeps ?_ | (rw [State.mk_eq_of]; with_reducible refine Keeps.upd ?_) | with_reducible refine Keeps.foldl ?_ ?_ | dsimp only | split)

theorem State.announce_keeps {s₀ : State} {s : State} {fn : FnId} {slot : Fin 32} {m : Mould} {b : ℕ} {step : ℕ} {commit : Bool} (hk : Keeps s₀ s) :
    Keeps s₀ (State.announce s fn slot m b step commit) := by
  unfold State.announce
  repeat' (first | with_reducible assumption | with_reducible intro _ | with_reducible refine State.modFn_keeps ?_ | with_reducible refine State.sendHeat_keeps ?_ | (rw [State.mk_eq_of]; with_reducible refine Keeps.upd ?_) | with_reducible refine Keeps.foldl ?_ ?_ | dsimp only | split)

theorem State.decide_keeps {s₀ : State} {s : State} {fn : FnId} {slot : Fin 32} {m : Mould} {b : ℕ} {step : ℕ} {commit : Bool} (hk : Keeps s₀ s) :
    Keeps s₀ (State.decide s fn slot m b step commit) := by
  unfold State.decide
  repeat' (first | with_reducible assumption | with_reducible intro _ | with_reducible refine State.announce_keeps ?_ | with_reducible refine State.commitStepHeat_keeps ?_ | with_reducible refine State.annealStep_keeps ?_ | with_reducible refine State.scrapStepHeat_keeps ?_ | (rw [State.mk_eq_of]; with_reducible refine Keeps.upd ?_) | dsimp only | split)

theorem State.tryDecide_keeps {s₀ : State} {s : State} {fn : FnId} {slot : Fin 32} (hk : Keeps s₀ s) :
    Keeps s₀ (State.tryDecide s fn slot) := by
  unfold State.tryDecide
  repeat' (first | with_reducible assumption | with_reducible intro _ | with_reducible refine State.decide_keeps ?_ | (rw [State.mk_eq_of]; with_reducible refine Keeps.upd ?_) | dsimp only | split)

theorem State.failCommit_keeps {s₀ : State} {s : State} {fn : FnId} {slot : Fin 32} {x : Op × Cmd × ℕ × List Byte} {cause : ℕ} (hk : Keeps s₀ s) :
    Keeps s₀ (State.failCommit s fn slot x cause) := by
  unfold State.failCommit
  repeat' (first | with_reducible assumption | with_reducible intro _ | with_reducible refine State.anneal_keeps ?_ | with_reducible refine State.finish_keeps ?_ | with_reducible refine State.scrapHeat_keeps ?_ | (rw [State.mk_eq_of]; with_reducible refine Keeps.upd ?_) | dsimp only | split)

theorem localCommit_keeps {s₀ : State} {fn : FnId} {slot : Fin 32} {env : Lines} {s : State} (hk : Keeps s₀ s) :
    Keeps s₀ (localCommit fn slot env s) := by
  unfold localCommit
  repeat' (first | with_reducible assumption | with_reducible intro _ | with_reducible refine State.functionFault_keeps ?_ | with_reducible refine State.anneal_keeps ?_ | with_reducible refine State.commitStepHeat_keeps ?_ | with_reducible refine State.tryDecide_keeps ?_ | with_reducible refine State.modHeat_keeps ?_ | with_reducible refine State.spillLines_keeps ?_ | with_reducible refine State.sendHeat_keeps ?_ | with_reducible refine State.record_keeps ?_ | with_reducible refine State.failCommit_keeps ?_ | with_reducible refine State.finish_keeps ?_ | with_reducible refine State.commitHeat_keeps ?_ | (rw [State.mk_eq_of]; with_reducible refine Keeps.upd ?_) | dsimp only | split)

theorem execLocalCommit_keeps {s₀ : State} {fn : FnId} {slot : Fin 32} {env : Lines} {s : State} (hk : Keeps s₀ s) :
    RKeeps s₀ (execLocalCommit fn slot env s) := by
  unfold execLocalCommit
  repeat' (first | with_reducible assumption | with_reducible intro _ | with_reducible refine State.settle_keeps ?_ | with_reducible refine localCommit_keeps ?_ | with_reducible refine RKeeps.next ?_ | (rw [State.mk_eq_of]; with_reducible refine Keeps.upd ?_) | with_reducible refine RKeeps.use (by assumption) ?_ | dsimp only | split)

theorem execFold_keeps {s₀ : State} {fn : FnId} {slot : Fin 32 × Lines} {s : State} (hk : Keeps s₀ s) :
    RKeeps s₀ (execFold fn slot s) := by
  unfold execFold
  repeat' (first | with_reducible assumption | with_reducible intro _ | with_reducible refine State.settle_keeps ?_ | with_reducible refine State.functionFault_keeps ?_ | with_reducible refine State.foldHeat_keeps ?_ | with_reducible refine RKeeps.next ?_ | (rw [State.mk_eq_of]; with_reducible refine Keeps.upd ?_) | with_reducible refine RKeeps.use (by assumption) ?_ | dsimp only | split)

theorem heatBegin_keeps {s₀ : State} {k : Cmd} {s : State} (hk : Keeps s₀ s) :
    Keeps s₀ (heatBegin k s) := by
  unfold heatBegin
  repeat' (first | with_reducible assumption | with_reducible intro _ | with_reducible refine checked_keeps ?_ ?_ | with_reducible refine State.finish_keeps ?_ | with_reducible refine State.openHeat_keeps ?_ | with_reducible refine State.allocT1_keeps ?_ | with_reducible refine State.modFn_keeps ?_ | with_reducible refine OKeeps.none | with_reducible refine OKeeps.some ?_ | with_reducible refine OQKeeps.none | with_reducible refine OQKeeps.some ?_ | (rw [State.mk_eq_of]; with_reducible refine Keeps.upd ?_) | with_reducible refine OKeeps.map ?_ ?_ | with_reducible refine OKeeps.mapQ ?_ ?_ | with_reducible refine OKeeps.mapOf ?_ | with_reducible refine OKeeps.getD ?_ ?_ | with_reducible refine OKeeps.use (by assumption) ?_ | with_reducible refine OQKeeps.use (by assumption) ?_ | with_reducible refine OQKeeps.use' (by assumption) ?_ | dsimp only | split)

theorem execHeatBegin_keeps {s₀ : State} {k : Cmd} {s : State} (hk : Keeps s₀ s) :
    RKeeps s₀ (execHeatBegin k s) := by
  unfold execHeatBegin
  repeat' (first | with_reducible assumption | with_reducible intro _ | with_reducible refine hostCmd_keeps ?_ ?_ | with_reducible refine heatBegin_keeps ?_ | with_reducible refine RKeeps.next ?_ | (rw [State.mk_eq_of]; with_reducible refine Keeps.upd ?_) | with_reducible refine RKeeps.use (by assumption) ?_ | dsimp only | split)

theorem State.dropCmdHeat_keeps {s₀ : State} {s : State} {fn : FnId} {r : Option RingId} (hk : Keeps s₀ s) :
    Keeps s₀ (State.dropCmdHeat s fn r) := by
  unfold State.dropCmdHeat
  repeat' (first | with_reducible assumption | with_reducible intro _ | with_reducible refine State.modFn_keeps ?_ | (rw [State.mk_eq_of]; with_reducible refine Keeps.upd ?_) | dsimp only | split)

theorem heatEnd_keeps {s₀ : State} {k : Cmd} {env : Lines} {s : State} (hk : Keeps s₀ s) :
    Keeps s₀ (heatEnd k env s) := by
  unfold heatEnd
  repeat' (first | with_reducible assumption | with_reducible intro _ | with_reducible refine checked_keeps ?_ ?_ | with_reducible refine State.finish_keeps ?_ | with_reducible refine State.dropCmdHeat_keeps ?_ | with_reducible refine State.functionFault_keeps ?_ | with_reducible refine State.scrapHeat_keeps ?_ | with_reducible refine State.commitCmd_keeps ?_ | (rw [State.mk_eq_of]; with_reducible refine Keeps.upd ?_) | dsimp only | split)

theorem execHeatEndCommit_keeps {s₀ : State} {k : Cmd × Lines} {s : State} (hk : Keeps s₀ s) :
    RKeeps s₀ (execHeatEndCommit k s) := by
  unfold execHeatEndCommit
  repeat' (first | with_reducible assumption | with_reducible intro _ | with_reducible refine hostCmd_keeps ?_ ?_ | with_reducible refine heatEnd_keeps ?_ | with_reducible refine RKeeps.next ?_ | (rw [State.mk_eq_of]; with_reducible refine Keeps.upd ?_) | with_reducible refine RKeeps.use (by assumption) ?_ | dsimp only | split)

theorem execHeatEndScrap_keeps {s₀ : State} {k : Cmd} {s : State} (hk : Keeps s₀ s) :
    RKeeps s₀ (execHeatEndScrap k s) := by
  unfold execHeatEndScrap
  repeat' (first | with_reducible assumption | with_reducible intro _ | with_reducible refine hostCmd_keeps ?_ ?_ | with_reducible refine heatEnd_keeps ?_ | with_reducible refine RKeeps.next ?_ | (rw [State.mk_eq_of]; with_reducible refine Keeps.upd ?_) | with_reducible refine RKeeps.use (by assumption) ?_ | dsimp only | split)

theorem execCommandHeatLifetime_keeps {s₀ : State} {fn : FnId} {ring : RingId} {s : State} (hk : Keeps s₀ s) :
    RKeeps s₀ (execCommandHeatLifetime fn ring s) := by
  unfold execCommandHeatLifetime
  repeat' (first | with_reducible assumption | with_reducible intro _ | with_reducible refine State.modFn_keeps ?_ | with_reducible refine State.scrapHeat_keeps ?_ | with_reducible refine RKeeps.next ?_ | (rw [State.mk_eq_of]; with_reducible refine Keeps.upd ?_) | with_reducible refine RKeeps.use (by assumption) ?_ | dsimp only | split)

theorem State.answerWindow_keeps {s₀ : State} {s : State} {p : PortId} {m : Msg} {sub : ℕ} {body : List Byte} (hk : Keeps s₀ s) :
    Keeps s₀ (State.answerWindow s p m sub body) := by
  unfold State.answerWindow
  repeat' (first | with_reducible assumption | with_reducible intro _ | with_reducible refine State.sendRecord_keeps ?_ | (rw [State.mk_eq_of]; with_reducible refine Keeps.upd ?_) | dsimp only | split)

theorem State.refuseRequest_keeps {s₀ : State} {s : State} {p : PortId} {m : Msg} {sub : optParam ℕ 1} (hk : Keeps s₀ s) :
    Keeps s₀ (State.refuseRequest s p m sub) := by
  unfold State.refuseRequest
  repeat' (first | with_reducible assumption | with_reducible intro _ | with_reducible refine State.answerWindow_keeps ?_ | with_reducible refine State.log_keeps ?_ | with_reducible refine State.modPort_keeps ?_ | (rw [State.mk_eq_of]; with_reducible refine Keeps.upd ?_) | dsimp only | split)

theorem State.refuseWindow_keeps {s₀ : State} {s : State} {f : ForgeId} {slot : ℕ} (hk : Keeps s₀ s) :
    Keeps s₀ (State.refuseWindow s f slot) := by
  unfold State.refuseWindow
  repeat' (first | with_reducible assumption | with_reducible intro _ | with_reducible refine State.refuseRequest_keeps ?_ | with_reducible refine State.modForge_keeps ?_ | (rw [State.mk_eq_of]; with_reducible refine Keeps.upd ?_) | with_reducible refine Keeps.foldl ?_ ?_ | dsimp only | split)

theorem State.slotAnneal_keeps {s₀ : State} {s : State} {f : ForgeId} {slot : BitVec 8} (hk : Keeps s₀ s) :
    Keeps s₀ (State.slotAnneal s f slot) := by
  unfold State.slotAnneal
  repeat' (first | with_reducible assumption | with_reducible intro _ | with_reducible refine State.modForge_keeps ?_ | with_reducible refine State.log_keeps ?_ | with_reducible refine State.anneal_keeps ?_ | (rw [State.mk_eq_of]; with_reducible refine Keeps.upd ?_) | dsimp only | split)

theorem execSlotTimeout_keeps {s₀ : State} {f : ForgeId} {slot : BitVec 8} {s : State} (hk : Keeps s₀ s) :
    RKeeps s₀ (execSlotTimeout f slot s) := by
  unfold execSlotTimeout
  repeat' (first | with_reducible assumption | with_reducible intro _ | with_reducible refine State.settle_keeps ?_ | with_reducible refine State.slotAnneal_keeps ?_ | with_reducible refine State.refuseWindow_keeps ?_ | with_reducible refine RKeeps.next ?_ | (rw [State.mk_eq_of]; with_reducible refine Keeps.upd ?_) | with_reducible refine RKeeps.use (by assumption) ?_ | dsimp only | split)

theorem execTongsDescriptorTimeout_keeps {s₀ : State} {f : ForgeId} {c : TongsId} {s : State} (hk : Keeps s₀ s) :
    RKeeps s₀ (execTongsDescriptorTimeout f c s) := by
  unfold execTongsDescriptorTimeout
  repeat' (first | with_reducible assumption | with_reducible intro _ | with_reducible refine State.modForge_keeps ?_ | with_reducible refine State.settle_keeps ?_ | with_reducible refine State.anneal_keeps ?_ | with_reducible refine RKeeps.next ?_ | (rw [State.mk_eq_of]; with_reducible refine Keeps.upd ?_) | with_reducible refine RKeeps.use (by assumption) ?_ | dsimp only | split)

theorem heatCommitPhaseTimeout_keeps {s₀ : State} {fn : FnId} {slot : Fin 32} {s : State} (hk : Keeps s₀ s) :
    Keeps s₀ (heatCommitPhaseTimeout fn slot s) := by
  unfold heatCommitPhaseTimeout
  repeat' (first | with_reducible assumption | with_reducible intro _ | with_reducible refine State.announce_keeps ?_ | with_reducible refine State.sendHeat_keeps ?_ | with_reducible refine State.anneal_keeps ?_ | with_reducible refine State.closeStep_keeps ?_ | with_reducible refine State.failCommit_keeps ?_ | (rw [State.mk_eq_of]; with_reducible refine Keeps.upd ?_) | dsimp only | split)

theorem execHeatCommitPhaseTimeout_keeps {s₀ : State} {fn : FnId} {slot : Fin 32} {s : State} (hk : Keeps s₀ s) :
    RKeeps s₀ (execHeatCommitPhaseTimeout fn slot s) := by
  unfold execHeatCommitPhaseTimeout
  repeat' (first | with_reducible assumption | with_reducible intro _ | with_reducible refine State.settle_keeps ?_ | with_reducible refine heatCommitPhaseTimeout_keeps ?_ | with_reducible refine RKeeps.next ?_ | (rw [State.mk_eq_of]; with_reducible refine Keeps.upd ?_) | with_reducible refine RKeeps.use (by assumption) ?_ | dsimp only | split)

theorem stepDeadline_keeps {s₀ : State} {fn : FnId} {id : BitVec 64} {s : State} (hk : Keeps s₀ s) :
    Keeps s₀ (stepDeadline fn id s) := by
  unfold stepDeadline
  repeat' (first | with_reducible assumption | with_reducible intro _ | with_reducible refine State.closeStep_keeps ?_ | with_reducible refine State.endRunCmd_keeps ?_ | with_reducible refine State.modMould_keeps ?_ | with_reducible refine State.anneal_keeps ?_ | (rw [State.mk_eq_of]; with_reducible refine Keeps.upd ?_) | dsimp only | split)

theorem execStepDeadline_keeps {s₀ : State} {fn : FnId} {mould : BitVec 64} {s : State} (hk : Keeps s₀ s) :
    RKeeps s₀ (execStepDeadline fn mould s) := by
  unfold execStepDeadline
  repeat' (first | with_reducible assumption | with_reducible intro _ | with_reducible refine State.settle_keeps ?_ | with_reducible refine stepDeadline_keeps ?_ | with_reducible refine RKeeps.next ?_ | (rw [State.mk_eq_of]; with_reducible refine Keeps.upd ?_) | with_reducible refine RKeeps.use (by assumption) ?_ | dsimp only | split)

theorem execAdminCommandTimeout_keeps {s₀ : State} {k : Cmd} {s : State} (hk : Keeps s₀ s) :
    RKeeps s₀ (execAdminCommandTimeout k s) := by
  unfold execAdminCommandTimeout
  repeat' (first | with_reducible assumption | with_reducible intro _ | with_reducible refine State.settle_keeps ?_ | with_reducible refine State.finish_keeps ?_ | with_reducible refine RKeeps.next ?_ | (rw [State.mk_eq_of]; with_reducible refine Keeps.upd ?_) | with_reducible refine RKeeps.use (by assumption) ?_ | dsimp only | split)

theorem State.endQueue_keeps {s₀ : State} {s : State} {fn : FnId} {id : BitVec 64} {st : Status} (hk : Keeps s₀ s) :
    Keeps s₀ (State.endQueue s fn id st) := by
  unfold State.endQueue
  repeat' (first | with_reducible assumption | with_reducible intro _ | with_reducible refine State.finish_keeps ?_ | with_reducible refine State.modMould_keeps ?_ | (rw [State.mk_eq_of]; with_reducible refine Keeps.upd ?_) | with_reducible refine Keeps.foldl ?_ ?_ | dsimp only | split)

theorem quiesceExpiry_keeps {s₀ : State} {fn : FnId} {s : State} (hk : Keeps s₀ s) :
    Keeps s₀ (quiesceExpiry fn s) := by
  unfold quiesceExpiry
  repeat' (first | with_reducible assumption | with_reducible intro _ | with_reducible refine State.anneal_keeps ?_ | with_reducible refine State.endQueue_keeps ?_ | with_reducible refine State.endStep_keeps ?_ | with_reducible refine State.endFlights_keeps ?_ | with_reducible refine State.scrapPrepared_keeps ?_ | (rw [State.mk_eq_of]; with_reducible refine Keeps.upd ?_) | with_reducible refine Keeps.foldl ?_ ?_ | dsimp only | split)

theorem execQuiesceTimeout_keeps {s₀ : State} {fn : FnId} {s : State} (hk : Keeps s₀ s) :
    RKeeps s₀ (execQuiesceTimeout fn s) := by
  unfold execQuiesceTimeout
  repeat' (first | with_reducible assumption | with_reducible intro _ | with_reducible refine State.settle_keeps ?_ | with_reducible refine quiesceExpiry_keeps ?_ | with_reducible refine RKeeps.next ?_ | (rw [State.mk_eq_of]; with_reducible refine Keeps.upd ?_) | with_reducible refine RKeeps.use (by assumption) ?_ | dsimp only | split)

theorem execSmithWatchdog_keeps {s₀ : State} {s : State} (hk : Keeps s₀ s) :
    RKeeps s₀ (execSmithWatchdog s) := by
  unfold execSmithWatchdog
  repeat' (first | with_reducible assumption | with_reducible intro _ | with_reducible refine State.settle_keeps ?_ | with_reducible refine State.anneal_keeps ?_ | with_reducible refine RKeeps.next ?_ | (rw [State.mk_eq_of]; with_reducible refine Keeps.upd ?_) | with_reducible refine RKeeps.use (by assumption) ?_ | dsimp only | split)

theorem execAnnealBoundExpiry_keeps {s₀ : State} {unit : AnnealUnit} {s : State} (hk : Keeps s₀ s) :
    RKeeps s₀ (execAnnealBoundExpiry unit s) := by
  unfold execAnnealBoundExpiry
  repeat' (first | with_reducible assumption | with_reducible intro _ | with_reducible refine State.settle_keeps ?_ | with_reducible refine State.escalate_keeps ?_ | with_reducible refine RKeeps.next ?_ | (rw [State.mk_eq_of]; with_reducible refine Keeps.upd ?_) | with_reducible refine RKeeps.use (by assumption) ?_ | dsimp only | split)

theorem execCompletionError_keeps {s₀ : State} {fn : FnId} {ring : Option RingId} {seq : BitVec 32} {event : Bool} {s : State} (hk : Keeps s₀ s) :
    RKeeps s₀ (execCompletionError fn ring seq event s) := by
  unfold execCompletionError
  repeat' (first | with_reducible assumption | with_reducible intro _ | with_reducible refine State.evTearDown_keeps ?_ | with_reducible refine State.settle_keeps ?_ | with_reducible refine State.finish_keeps ?_ | with_reducible refine State.modRing_keeps ?_ | with_reducible refine RKeeps.next ?_ | (rw [State.mk_eq_of]; with_reducible refine Keeps.upd ?_) | with_reducible refine RKeeps.use (by assumption) ?_ | dsimp only | split)

end Sys2Proof.Machine
end

