-- ==== Sys2Proof/Laws/KeepsEngine.lean ====
section
/-! SUPPORT. The operations of Machine/Engine.lean keep what `Keeps` says. -/

set_option linter.unusedTactic false
set_option linter.unreachableTactic false

namespace Sys2Proof.Machine

theorem State.advance_keeps {s₀ : State} {s : State} {f : ForgeId} {n : optParam ℕ 1} (hk : Keeps s₀ s) :
    Keeps s₀ (State.advance s f n) := by
  unfold State.advance
  repeat' (first | with_reducible assumption | with_reducible intro _ | with_reducible refine State.modForge_keeps ?_ | (rw [State.mk_eq_of]; with_reducible refine Keeps.upd ?_) | dsimp only | split)

theorem State.onStream_keeps {s₀ : State} {s : State} {f : ForgeId} {w : BitVec 128} {code : ℕ} {body : Job → Mould → MForge → Running → State → State} (hk : Keeps s₀ s)
    (hb0 : ∀ x0 x1 x2 x3 x4, Keeps s₀ x4 → Keeps s₀ (body x0 x1 x2 x3 x4)) :
    Keeps s₀ (State.onStream s f w code body) := by
  unfold State.onStream
  repeat' (first | with_reducible assumption | with_reducible intro _ | with_reducible refine hb0 _ _ _ _ _ ?_ | (rw [State.mk_eq_of]; with_reducible refine Keeps.upd ?_) | dsimp only | split)

theorem State.conflict_keeps {s₀ : State} {s : State} {f : ForgeId} {j : Job} {agent : ℕ} {c : Clash} (hk : Keeps s₀ s) :
    Keeps s₀ (State.conflict s f j agent c) := by
  unfold State.conflict
  repeat' (first | with_reducible assumption | with_reducible intro _ | with_reducible refine State.modForge_keeps ?_ | with_reducible refine State.endStep_keeps ?_ | with_reducible refine State.log_keeps ?_ | (rw [State.mk_eq_of]; with_reducible refine Keeps.upd ?_) | dsimp only | split)

theorem State.countMiss_keeps {s₀ : State} {s : State} {fn : FnId} {id : BitVec 64} {e : Prefetch} (hk : Keeps s₀ s) :
    Keeps s₀ (State.countMiss s fn id e) := by
  unfold State.countMiss
  repeat' (first | with_reducible assumption | with_reducible intro _ | with_reducible refine State.modFn_keeps ?_ | with_reducible refine State.modMould_keeps ?_ | (rw [State.mk_eq_of]; with_reducible refine Keeps.upd ?_) | dsimp only | split)

theorem State.judge_keeps {s₀ : State} {s : State} {fn : FnId} {id : BitVec 64} {phase : ℕ} {pages : List ℕ} (hk : Keeps s₀ s) :
    PKeeps s₀ (State.judge s fn id phase pages) := by
  unfold State.judge
  repeat' (first | with_reducible assumption | with_reducible intro _ | with_reducible refine State.modRun_keeps ?_ | with_reducible refine State.countMiss_keeps ?_ | (rw [State.mk_eq_of]; with_reducible refine Keeps.upd ?_) | with_reducible refine Keeps.foldl ?_ ?_ | with_reducible refine PKeeps.foldl ?_ ?_ | with_reducible refine PKeeps.use (by assumption) ?_ | dsimp only | split)

theorem State.countArrivals_keeps {s₀ : State} {s : State} {fn : FnId} (hk : Keeps s₀ s) :
    Keeps s₀ (State.countArrivals s fn) := by
  unfold State.countArrivals
  repeat' (first | with_reducible assumption | with_reducible intro _ | with_reducible refine State.modFn_keeps ?_ | with_reducible refine State.modMould_keeps ?_ | (rw [State.mk_eq_of]; with_reducible refine Keeps.upd ?_) | with_reducible refine Keeps.foldl ?_ ?_ | dsimp only | split)

theorem State.callAlternate_keeps {s₀ : State} {s : State} {f : ForgeId} {j : Job} {m : Mould} {mf : MForge} {r : Running} {alt : ℕ} (hk : Keeps s₀ s) :
    Keeps s₀ (State.callAlternate s f j m mf r alt) := by
  unfold State.callAlternate
  repeat' (first | with_reducible assumption | with_reducible intro _ | with_reducible refine State.modRun_keeps ?_ | with_reducible refine State.sendTo_keeps ?_ | with_reducible refine State.modMould_keeps ?_ | with_reducible refine State.modForge_keeps ?_ | (rw [State.mk_eq_of]; with_reducible refine Keeps.upd ?_) | dsimp only | split)

theorem State.weightRefetch_keeps {s₀ : State} {s : State} {m : Fin 16} {off : ℕ} (hk : Keeps s₀ s) :
    Keeps s₀ (State.weightRefetch s m off) := by
  unfold State.weightRefetch
  repeat' (first | with_reducible assumption | with_reducible intro _ | with_reducible refine State.log_keeps ?_ | (rw [State.mk_eq_of]; with_reducible refine Keeps.upd ?_) | with_reducible refine Keeps.foldl ?_ ?_ | dsimp only | split)

theorem State.poisonPage_keeps {s₀ : State} {s : State} {g : FnId} {a : ℕ} {line : ℕ} (hk : Keeps s₀ s) :
    Keeps s₀ (State.poisonPage s g a line) := by
  unfold State.poisonPage
  repeat' (first | with_reducible assumption | with_reducible intro _ | with_reducible refine State.modPage_keeps ?_ | with_reducible refine State.log_keeps ?_ | (rw [State.mk_eq_of]; with_reducible refine Keeps.upd ?_) | dsimp only | split)

theorem State.poisonWhole_keeps {s₀ : State} {s : State} {g : FnId} {a : ℕ} (hk : Keeps s₀ s) :
    Keeps s₀ (State.poisonWhole s g a) := by
  unfold State.poisonWhole
  repeat' (first | with_reducible assumption | with_reducible intro _ | with_reducible refine State.modPage_keeps ?_ | with_reducible refine State.poisonPage_keeps ?_ | (rw [State.mk_eq_of]; with_reducible refine Keeps.upd ?_) | dsimp only | split)

theorem State.fetchAgain_keeps {s₀ : State} {s : State} {g : FnId} {num : ℕ} {upd : Page → Page} (hk : Keeps s₀ s) :
    Keeps s₀ (State.fetchAgain s g num upd) := by
  unfold State.fetchAgain
  repeat' (first | with_reducible assumption | with_reducible intro _ | with_reducible refine State.modPage_keeps ?_ | with_reducible refine State.stamp_keeps ?_ | (rw [State.mk_eq_of]; with_reducible refine Keeps.upd ?_) | with_reducible refine QKeeps.use (by assumption) ?_ | dsimp only | split)

theorem State.countUe_keeps {s₀ : State} {s : State} {g : Option FnId} {c : ChanId} {unit : ℕ} {address : Bool} (hk : Keeps s₀ s) :
    Keeps s₀ (State.countUe s g c unit address) := by
  unfold State.countUe
  repeat' (first | with_reducible assumption | with_reducible intro _ | with_reducible refine State.log_keeps ?_ | with_reducible refine State.modChan_keeps ?_ | (rw [State.mk_eq_of]; with_reducible refine Keeps.upd ?_) | dsimp only | split)

theorem State.loseT1_keeps {s₀ : State} {s : State} {g : FnId} {a : ℕ} (hk : Keeps s₀ s) :
    PKeeps s₀ (State.loseT1 s g a) := by
  unfold State.loseT1
  repeat' (first | with_reducible assumption | with_reducible intro _ | with_reducible refine State.poisonPage_keeps ?_ | with_reducible refine State.modFn_keeps ?_ | with_reducible refine State.modPage_keeps ?_ | with_reducible refine State.fetchAgain_keeps ?_ | with_reducible refine State.weightRefetch_keeps ?_ | (rw [State.mk_eq_of]; with_reducible refine Keeps.upd ?_) | (rw [State.mk_eq_of]; with_reducible refine Keeps.updT1 ?_ (fun hs => frames_filter _ hs)) | (rw [State.mk_eq_of]; with_reducible refine Keeps.updT1 ?_ (fun hs => frames_map _ (fun _ => rfl) hs)) | (rw [State.mk_eq_of]; with_reducible refine Keeps.updT1 ?_ (fun hs => frames_map _ ?_ hs); rotate_left; intro x; try dsimp only; split <;> rfl) | with_reducible refine PKeeps.use (by assumption) ?_ | dsimp only | split)

theorem State.lostT2_keeps {s₀ : State} {s : State} {g : FnId} {a : ℕ} {p : Page} (hk : Keeps s₀ s) :
    PKeeps s₀ (State.lostT2 s g a p) := by
  unfold State.lostT2
  repeat' (first | with_reducible assumption | with_reducible intro _ | with_reducible refine State.queueMoves_keeps ?_ | with_reducible refine State.modPage_keeps ?_ | with_reducible refine State.fetchAgain_keeps ?_ | with_reducible refine State.weightRefetch_keeps ?_ | with_reducible refine State.log_keeps ?_ | with_reducible refine State.modFn_keeps ?_ | with_reducible refine State.poisonPage_keeps ?_ | (rw [State.mk_eq_of]; with_reducible refine Keeps.upd ?_) | (rw [State.mk_eq_of]; with_reducible refine Keeps.updT2 ?_ (fun hs => frames_filter _ hs)) | (rw [State.mk_eq_of]; with_reducible refine Keeps.updT2 ?_ (fun hs => frames_map _ (fun _ => rfl) hs)) | (rw [State.mk_eq_of]; with_reducible refine Keeps.updT2 ?_ (fun hs => frames_map _ ?_ hs); rotate_left; intro x; try dsimp only; split <;> rfl) | with_reducible refine PKeeps.use (by assumption) ?_ | dsimp only | split)

theorem State.countT2_keeps {s₀ : State} {s : State} {g : Option FnId} {die : ℕ} {tag : Bool} (hk : Keeps s₀ s) :
    Keeps s₀ (State.countT2 s g die tag) := by
  unfold State.countT2
  repeat' (first | with_reducible assumption | with_reducible intro _ | with_reducible refine State.log_keeps ?_ | with_reducible refine State.modPlinth_keeps ?_ | (rw [State.mk_eq_of]; with_reducible refine Keeps.upd ?_) | dsimp only | split)

theorem State.ueT2_keeps {s₀ : State} {s : State} {g : FnId} {a : ℕ} {tag : Bool} (hk : Keeps s₀ s) :
    PKeeps s₀ (State.ueT2 s g a tag) := by
  unfold State.ueT2
  repeat' (first | with_reducible assumption | with_reducible intro _ | with_reducible refine State.countT2_keeps ?_ | with_reducible refine State.lostT2_keeps ?_ | (rw [State.mk_eq_of]; with_reducible refine Keeps.upd ?_) | with_reducible refine PKeeps.use (by assumption) ?_ | dsimp only | split)

theorem State.countFixed_keeps {s₀ : State} {s : State} {c : ChanId} {unit : ℕ} {beat : ℕ} {symbols : ℕ} (hk : Keeps s₀ s) :
    Keeps s₀ (State.countFixed s c unit beat symbols) := by
  unfold State.countFixed
  repeat' (first | with_reducible assumption | with_reducible intro _ | with_reducible refine State.modChan_keeps ?_ | (rw [State.mk_eq_of]; with_reducible refine Keeps.upd ?_) | dsimp only | split)

theorem State.countBeat_keeps {s₀ : State} {s : State} {g : Option FnId} {c : ChanId} {unit : ℕ} {beat : ℕ} {e : BitVec 320} (hk : Keeps s₀ s) :
    Keeps s₀ (State.countBeat s g c unit beat e) := by
  unfold State.countBeat
  repeat' (first | with_reducible assumption | with_reducible intro _ | with_reducible refine State.countFixed_keeps ?_ | with_reducible refine State.countUe_keeps ?_ | (rw [State.mk_eq_of]; with_reducible refine Keeps.upd ?_) | dsimp only | split)

theorem State.countReads_keeps {s₀ : State} {s : State} {fn : FnId} {addr : ℕ} {n : ℕ} {env : Lines} (hk : Keeps s₀ s) :
    Keeps s₀ (State.countReads s fn addr n env) := by
  unfold State.countReads
  repeat' (first | with_reducible assumption | with_reducible intro _ | with_reducible refine State.countBeat_keeps ?_ | with_reducible refine State.modPlinth_keeps ?_ | (rw [State.mk_eq_of]; with_reducible refine Keeps.upd ?_) | with_reducible refine Keeps.foldl ?_ ?_ | dsimp only | split)

theorem State.ueAt_keeps {s₀ : State} {s : State} {fn : FnId} {x : ℕ × LineErr} (hk : Keeps s₀ s) :
    PKeeps s₀ (State.ueAt s fn x) := by
  unfold State.ueAt
  repeat' (first | with_reducible assumption | with_reducible intro _ | with_reducible refine State.loseT1_keeps ?_ | with_reducible refine State.ueT2_keeps ?_ | (rw [State.mk_eq_of]; with_reducible refine Keeps.upd ?_) | with_reducible refine PKeeps.use (by assumption) ?_ | dsimp only | split)

theorem State.queueOrd_keeps {s₀ : State} {s : State} {n : PlinthId} {c : ChainId} {q : OrdReq} (hk : Keeps s₀ s) :
    Keeps s₀ (State.queueOrd s n c q) := by
  unfold State.queueOrd
  repeat' (first | with_reducible assumption | with_reducible intro _ | with_reducible refine State.modPlinth_keeps ?_ | (rw [State.mk_eq_of]; with_reducible refine Keeps.upd ?_) | dsimp only | split)

theorem State.meet_keeps {s₀ : State} {s : State} {fn : FnId} {addr : ℕ} {n : ℕ} {env : Lines} {slot : optParam (Option (Fin 32)) none} (hk : Keeps s₀ s) :
    PKeeps s₀ (State.meet s fn addr n env slot) := by
  unfold State.meet
  repeat' (first | with_reducible assumption | with_reducible intro _ | with_reducible refine State.enqueue_keeps ?_ | with_reducible refine State.queueOrd_keeps ?_ | with_reducible refine State.functionFault_keeps ?_ | with_reducible refine State.countReads_keeps ?_ | with_reducible refine State.ueAt_keeps ?_ | (rw [State.mk_eq_of]; with_reducible refine Keeps.upd ?_) | with_reducible refine Keeps.foldl ?_ ?_ | with_reducible refine PKeeps.foldl ?_ ?_ | with_reducible refine PKeeps.use (by assumption) ?_ | dsimp only | split)

end Sys2Proof.Machine
end

