-- ==== Sys2Proof/Laws/KeepsLink.lean ====
section
/-! SUPPORT. The operations of Machine/Link.lean keep what `Keeps` says. -/

set_option linter.unusedTactic false
set_option linter.unreachableTactic false

namespace Sys2Proof.Machine

theorem State.stagingRoom_keeps {s₀ s : State} {g : FnId} {n : Nat} (h : Keeps s₀ s) : OPKeeps s₀ (State.stagingRoom s g n) := by
  induction n generalizing s with
  | zero => exact OPKeeps.none
  | succ n ih =>
    unfold State.stagingRoom
    split
    · exact OPKeeps.some h
    · split
      · next t e => exact ih (State.allocT1_keeps h t e)
      · split
        · exact OPKeeps.none
        · exact ih (State.fixStaging_keeps (State.modPage_keeps h))

theorem State.t1Room_keeps {s₀ : State} {s : State} {g : FnId} {num : ℕ} (hk : Keeps s₀ s) :
    OPKeeps s₀ (State.t1Room s g num) := by
  unfold State.t1Room
  repeat' (first | with_reducible assumption | with_reducible intro _ | with_reducible refine State.stagingRoom_keeps ?_ | with_reducible refine OPKeeps.none | with_reducible refine OPKeeps.some ?_ | with_reducible refine OPKeeps.map ?_ ?_ | (rw [State.mk_eq_of]; with_reducible refine Keeps.upd ?_) | with_reducible refine OPKeeps.use (by assumption) ?_ | with_reducible refine OPKeeps.use' (by assumption) ?_ | dsimp only | split)

theorem State.queueTransfer_keeps {s₀ : State} {s : State} {g : FnId} {num : ℕ} (hk : Keeps s₀ s) :
    Keeps s₀ (State.queueTransfer s g num) := by
  unfold State.queueTransfer
  repeat' (first | with_reducible assumption | with_reducible intro _ | with_reducible refine State.queueOrd_keeps ?_ | (rw [State.mk_eq_of]; with_reducible refine Keeps.upd ?_) | dsimp only | split)

theorem State.tickWaits_keeps {s₀ : State} {s : State} (hk : Keeps s₀ s) :
    Keeps s₀ (State.tickWaits s) := by
  unfold State.tickWaits
  repeat' (first | with_reducible assumption | with_reducible intro _ | (rw [State.mk_eq_of]; with_reducible refine Keeps.upd ?_) | dsimp only | split)

end Sys2Proof.Machine
end

