-- ==== Sys2Proof/Laws/KeepsAnvil.lean ====
section
/-! SUPPORT. The operations of Machine/Anvil.lean keep what `Keeps` says. -/

set_option linter.unusedTactic false
set_option linter.unreachableTactic false

namespace Sys2Proof.Machine

theorem State.swageLength_keeps {s₀ : State} {s : State} {f : ForgeId} {j : Job} {billet : ℕ} (hk : Keeps s₀ s) :
    Keeps s₀ (State.swageLength s f j billet) := by
  unfold State.swageLength
  repeat' (first | with_reducible assumption | with_reducible intro _ | with_reducible refine State.endStep_keeps ?_ | with_reducible refine State.anneal_keeps ?_ | with_reducible refine State.poisonWhole_keeps ?_ | with_reducible refine State.fetchAgain_keeps ?_ | with_reducible refine State.weightRefetch_keeps ?_ | (rw [State.mk_eq_of]; with_reducible refine Keeps.upd ?_) | (rw [State.mk_eq_of]; with_reducible refine Keeps.updT1 ?_ (fun hs => frames_filter _ hs)) | (rw [State.mk_eq_of]; with_reducible refine Keeps.updT1 ?_ (fun hs => frames_map _ (fun _ => rfl) hs)) | (rw [State.mk_eq_of]; with_reducible refine Keeps.updT1 ?_ (fun hs => frames_map _ ?_ hs); rotate_left; intro x; try dsimp only; split <;> rfl) | dsimp only | split)

theorem State.swageDone_keeps {s₀ : State} {s : State} {fn : FnId} {billet : ℕ} (hk : Keeps s₀ s) :
    Keeps s₀ (State.swageDone s fn billet) := by
  unfold State.swageDone
  repeat' (first | with_reducible assumption | with_reducible intro _ | with_reducible refine State.modPage_keeps ?_ | (rw [State.mk_eq_of]; with_reducible refine Keeps.upd ?_) | dsimp only | split)

theorem State.panel_keeps {s₀ : State} {s : State} {f : ForgeId} {j : Job} {mf : MForge} {a : AnvilJob} {n : ℕ} (hk : Keeps s₀ s) :
    EQKeeps s₀ (State.panel s f j mf a n) := by
  unfold State.panel
  repeat' (first | with_reducible assumption | with_reducible intro _ | with_reducible refine State.modForge_keeps ?_ | with_reducible refine State.swageLength_keeps ?_ | with_reducible refine State.endStep_keeps ?_ | with_reducible refine State.swageDone_keeps ?_ | with_reducible refine EQKeeps.ok ?_ | with_reducible refine EQKeeps.error | with_reducible refine XKeeps.ok | with_reducible refine XKeeps.error ?_ | (rw [State.mk_eq_of]; with_reducible refine Keeps.upd ?_) | with_reducible refine EQKeeps.use (by assumption) ?_ | with_reducible refine EQKeeps.use' (by assumption) ?_ | with_reducible refine XKeeps.use (by assumption) ?_ | dsimp only | split)
theorem State.panel_keeps_xkeeps {s₀ : State} {s : State} {f : ForgeId} {j : Job} {mf : MForge} {a : AnvilJob} {n : ℕ} (hk : Keeps s₀ s) :
    XKeeps s₀ (State.panel s f j mf a n) := by
  unfold State.panel
  repeat' (first | with_reducible assumption | with_reducible intro _ | with_reducible refine State.modForge_keeps ?_ | with_reducible refine State.swageLength_keeps ?_ | with_reducible refine State.endStep_keeps ?_ | with_reducible refine State.swageDone_keeps ?_ | with_reducible refine EQKeeps.ok ?_ | with_reducible refine EQKeeps.error | with_reducible refine XKeeps.ok | with_reducible refine XKeeps.error ?_ | (rw [State.mk_eq_of]; with_reducible refine Keeps.upd ?_) | with_reducible refine EQKeeps.use (by assumption) ?_ | with_reducible refine EQKeeps.use' (by assumption) ?_ | with_reducible refine XKeeps.use (by assumption) ?_ | dsimp only | split)

theorem State.tileIn_keeps {s₀ : State} {s : State} {f : ForgeId} {j : Job} {mf : MForge} {a : AnvilJob} {n : ℕ} (hk : Keeps s₀ s) :
    EQKeeps s₀ (State.tileIn s f j mf a n) := by
  unfold State.tileIn
  repeat' (first | with_reducible assumption | with_reducible intro _ | with_reducible refine State.panel_keeps ?_ | with_reducible refine State.panel_keeps_xkeeps ?_ | with_reducible refine EKeeps.ok ?_ | with_reducible refine EKeeps.error | with_reducible refine EQKeeps.ok ?_ | with_reducible refine EQKeeps.error | with_reducible refine XKeeps.ok | with_reducible refine XKeeps.error ?_ | (rw [State.mk_eq_of]; with_reducible refine Keeps.upd ?_) | with_reducible refine EKeeps.foldE ?_ ?_ | with_reducible refine EQKeeps.foldE ?_ ?_ | with_reducible refine XKeeps.foldE ?_ ?_ ?_ | with_reducible refine EKeeps.map ?_ ?_ | with_reducible refine EKeeps.mapError ?_ | with_reducible refine EKeeps.use (by assumption) ?_ | with_reducible refine EQKeeps.use (by assumption) ?_ | with_reducible refine EQKeeps.use' (by assumption) ?_ | with_reducible refine XKeeps.use (by assumption) ?_ | dsimp only | split)
theorem State.tileIn_keeps_xkeeps {s₀ : State} {s : State} {f : ForgeId} {j : Job} {mf : MForge} {a : AnvilJob} {n : ℕ} (hk : Keeps s₀ s) :
    XKeeps s₀ (State.tileIn s f j mf a n) := by
  unfold State.tileIn
  repeat' (first | with_reducible assumption | with_reducible intro _ | with_reducible refine State.panel_keeps ?_ | with_reducible refine State.panel_keeps_xkeeps ?_ | with_reducible refine EKeeps.ok ?_ | with_reducible refine EKeeps.error | with_reducible refine EQKeeps.ok ?_ | with_reducible refine EQKeeps.error | with_reducible refine XKeeps.ok | with_reducible refine XKeeps.error ?_ | (rw [State.mk_eq_of]; with_reducible refine Keeps.upd ?_) | with_reducible refine EKeeps.foldE ?_ ?_ | with_reducible refine EQKeeps.foldE ?_ ?_ | with_reducible refine XKeeps.foldE ?_ ?_ ?_ | with_reducible refine EKeeps.map ?_ ?_ | with_reducible refine EKeeps.mapError ?_ | with_reducible refine EKeeps.use (by assumption) ?_ | with_reducible refine EQKeeps.use (by assumption) ?_ | with_reducible refine EQKeeps.use' (by assumption) ?_ | with_reducible refine XKeeps.use (by assumption) ?_ | dsimp only | split)

theorem State.waitOn_keeps {s₀ : State} {s : State} {j : Job} {slot : ℕ} (hk : Keeps s₀ s) :
    Keeps s₀ (State.waitOn s j slot) := by
  unfold State.waitOn
  repeat' (first | with_reducible assumption | with_reducible intro _ | with_reducible refine State.modMForge_keeps ?_ | (rw [State.mk_eq_of]; with_reducible refine Keeps.upd ?_) | dsimp only | split)

theorem State.anvilStep_keeps {s₀ : State} {s : State} {f : ForgeId} (hk : Keeps s₀ s) :
    OKeeps s₀ (State.anvilStep s f) := by
  unfold State.anvilStep
  repeat' (first | with_reducible assumption | with_reducible intro _ | with_reducible refine State.conflict_keeps ?_ | with_reducible refine State.waitOn_keeps ?_ | with_reducible refine State.modForge_keeps ?_ | with_reducible refine State.tileIn_keeps ?_ | with_reducible refine State.tileIn_keeps_xkeeps ?_ | with_reducible refine State.modMForge_keeps ?_ | with_reducible refine EQKeeps.ok ?_ | with_reducible refine EQKeeps.error | with_reducible refine OKeeps.none | with_reducible refine OKeeps.some ?_ | with_reducible refine XKeeps.ok | with_reducible refine XKeeps.error ?_ | (rw [State.mk_eq_of]; with_reducible refine Keeps.upd ?_) | with_reducible refine Keeps.foldl ?_ ?_ | with_reducible refine OKeeps.foldl ?_ ?_ | with_reducible refine EQKeeps.use (by assumption) ?_ | with_reducible refine EQKeeps.use' (by assumption) ?_ | with_reducible refine OKeeps.use (by assumption) ?_ | with_reducible refine XKeeps.use (by assumption) ?_ | dsimp only | split)

theorem anvilCfg_keeps {s₀ : State} {f : ForgeId} {w : BitVec 128} {s : State} (hk : Keeps s₀ s) :
    Keeps s₀ (anvilCfg f w s) := by
  unfold anvilCfg
  repeat' (first | with_reducible assumption | with_reducible intro _ | with_reducible refine State.onStream_keeps ?_ ?_ | with_reducible refine State.advance_keeps ?_ | with_reducible refine State.modForge_keeps ?_ | (rw [State.mk_eq_of]; with_reducible refine Keeps.upd ?_) | dsimp only | split)

theorem anvilMm_keeps {s₀ : State} {f : ForgeId} {w : BitVec 128} {s : State} (hk : Keeps s₀ s) :
    Keeps s₀ (anvilMm f w s) := by
  unfold anvilMm
  repeat' (first | with_reducible assumption | with_reducible intro _ | with_reducible refine State.onStream_keeps ?_ ?_ | with_reducible refine State.endStep_keeps ?_ | with_reducible refine State.modForge_keeps ?_ | with_reducible refine State.advance_keeps ?_ | (rw [State.mk_eq_of]; with_reducible refine Keeps.upd ?_) | dsimp only | split)

theorem swageCfg_keeps {s₀ : State} {f : ForgeId} {w : BitVec 128} {s : State} (hk : Keeps s₀ s) :
    Keeps s₀ (swageCfg f w s) := by
  unfold swageCfg
  repeat' (first | with_reducible assumption | with_reducible intro _ | with_reducible refine State.onStream_keeps ?_ ?_ | with_reducible refine State.advance_keeps ?_ | with_reducible refine State.modForge_keeps ?_ | (rw [State.mk_eq_of]; with_reducible refine Keeps.upd ?_) | dsimp only | split)

theorem swageTable_keeps {s₀ : State} {f : ForgeId} {w : BitVec 128} {s : State} (hk : Keeps s₀ s) :
    Keeps s₀ (swageTable f w s) := by
  unfold swageTable
  repeat' (first | with_reducible assumption | with_reducible intro _ | with_reducible refine State.onStream_keeps ?_ ?_ | with_reducible refine State.endStep_keeps ?_ | with_reducible refine State.modForge_keeps ?_ | with_reducible refine State.conflict_keeps ?_ | with_reducible refine State.waitOn_keeps ?_ | with_reducible refine State.modMForge_keeps ?_ | with_reducible refine State.advance_keeps ?_ | (rw [State.mk_eq_of]; with_reducible refine Keeps.upd ?_) | dsimp only | split)

end Sys2Proof.Machine
end

