-- ==== Sys2Proof/Laws/KeepsChisel.lean ====
section
/-! SUPPORT. The operations of Machine/Chisel.lean keep what `Keeps` says. -/

set_option linter.unusedTactic false
set_option linter.unreachableTactic false

namespace Sys2Proof.Machine

theorem State.writeTensorRow_keeps {s₀ : State} {s : State} {f : ForgeId} {j : Job} {mf : MForge} {t : Treg} {r : ℕ} {ps : List ℕ} (hk : Keeps s₀ s) :
    Keeps s₀ (State.writeTensorRow s f j mf t r ps) := by
  unfold State.writeTensorRow
  repeat' (first | with_reducible assumption | with_reducible intro _ | with_reducible refine State.writeRows_keeps ?_ | (rw [State.mk_eq_of]; with_reducible refine Keeps.upd ?_) | dsimp only | split)

theorem State.chiselRun_keeps {s₀ : State} {s : State} {f : ForgeId} {j : Job} {mf : MForge} {c : ChiselJob} (hk : Keeps s₀ s) :
    Keeps s₀ (State.chiselRun s f j mf c) := by
  unfold State.chiselRun
  repeat' (first | with_reducible assumption | with_reducible intro _ | with_reducible refine State.writeTensorRow_keeps ?_ | with_reducible refine State.modMForge_keeps ?_ | with_reducible refine State.modForge_keeps ?_ | (rw [State.mk_eq_of]; with_reducible refine Keeps.upd ?_) | with_reducible refine Keeps.foldl ?_ ?_ | dsimp only | split)

theorem State.chiselStep_keeps {s₀ : State} {s : State} {f : ForgeId} (hk : Keeps s₀ s) :
    OKeeps s₀ (State.chiselStep s f) := by
  unfold State.chiselStep
  repeat' (first | with_reducible assumption | with_reducible intro _ | with_reducible refine State.modForge_keeps ?_ | with_reducible refine State.conflict_keeps ?_ | with_reducible refine State.waitOn_keeps ?_ | with_reducible refine State.endStep_keeps ?_ | with_reducible refine State.chiselRun_keeps ?_ | with_reducible refine OKeeps.none | with_reducible refine OKeeps.some ?_ | (rw [State.mk_eq_of]; with_reducible refine Keeps.upd ?_) | with_reducible refine OKeeps.map ?_ ?_ | with_reducible refine OKeeps.mapQ ?_ ?_ | with_reducible refine OKeeps.mapOf ?_ | with_reducible refine OKeeps.getD ?_ ?_ | with_reducible refine OKeeps.use (by assumption) ?_ | dsimp only | split)

theorem chiselOp_keeps {s₀ : State} {f : ForgeId} {w : BitVec 128} {stages : List (BitVec 128)} {s : State} (hk : Keeps s₀ s) :
    Keeps s₀ (chiselOp f w stages s) := by
  unfold chiselOp
  repeat' (first | with_reducible assumption | with_reducible intro _ | with_reducible refine State.onStream_keeps ?_ ?_ | with_reducible refine State.endStep_keeps ?_ | with_reducible refine State.modForge_keeps ?_ | with_reducible refine State.advance_keeps ?_ | (rw [State.mk_eq_of]; with_reducible refine Keeps.upd ?_) | dsimp only | split)

theorem chiselTreg_keeps {s₀ : State} {f : ForgeId} {w : BitVec 128} {s : State} (hk : Keeps s₀ s) :
    Keeps s₀ (chiselTreg f w s) := by
  unfold chiselTreg
  repeat' (first | with_reducible assumption | with_reducible intro _ | with_reducible refine State.onStream_keeps ?_ ?_ | with_reducible refine State.advance_keeps ?_ | with_reducible refine State.modForge_keeps ?_ | (rw [State.mk_eq_of]; with_reducible refine Keeps.upd ?_) | dsimp only | split)

theorem chiselTable_keeps {s₀ : State} {f : ForgeId} {w : BitVec 128} {s : State} (hk : Keeps s₀ s) :
    Keeps s₀ (chiselTable f w s) := by
  unfold chiselTable
  repeat' (first | with_reducible assumption | with_reducible intro _ | with_reducible refine State.onStream_keeps ?_ ?_ | with_reducible refine State.endStep_keeps ?_ | with_reducible refine State.modForge_keeps ?_ | with_reducible refine State.conflict_keeps ?_ | with_reducible refine State.waitOn_keeps ?_ | with_reducible refine State.modMForge_keeps ?_ | with_reducible refine State.advance_keeps ?_ | (rw [State.mk_eq_of]; with_reducible refine Keeps.upd ?_) | dsimp only | split)

end Sys2Proof.Machine
end

