-- ==== Sys2Proof/Laws/KeepsPress.lean ====
section
/-! SUPPORT. The operations of Machine/Press.lean keep what `Keeps` says. -/

set_option linter.unusedTactic false
set_option linter.unreachableTactic false

namespace Sys2Proof.Machine

theorem State.countsAs_keeps {s₀ : State} {s : State} {fn : FnId} {slot : Fin 32} {n : ℕ} {body : State → Except Status State} (hk : Keeps s₀ s)
    (hb0 : ∀ x0, Keeps s₀ x0 → EKeeps s₀ (body x0)) :
    EKeeps s₀ (State.countsAs s fn slot n body) := by
  unfold State.countsAs
  repeat' (first | with_reducible assumption | with_reducible intro _ | with_reducible refine hb0 _ ?_ | with_reducible refine State.modHeat_keeps ?_ | with_reducible refine EKeeps.ok ?_ | with_reducible refine EKeeps.error | (rw [State.mk_eq_of]; with_reducible refine Keeps.upd ?_) | with_reducible refine EKeeps.use (by assumption) ?_ | dsimp only | split)

theorem State.writeBillet_keeps {s₀ : State} {s : State} {fn : FnId} {slot : Fin 32} {a : ℕ} {stored : List Byte} {header : List Byte} (hk : Keeps s₀ s) :
    EKeeps s₀ (State.writeBillet s fn slot a stored header) := by
  unfold State.writeBillet
  repeat' (first | with_reducible assumption | with_reducible intro _ | with_reducible refine State.countsAs_keeps ?_ ?_ | with_reducible refine State.heatWrite_keeps ?_ | with_reducible refine EKeeps.ok ?_ | with_reducible refine EKeeps.error | (rw [State.mk_eq_of]; with_reducible refine Keeps.upd ?_) | with_reducible refine EKeeps.use (by assumption) ?_ | dsimp only | split)

theorem State.pressBillets_keeps {s₀ : State} {s : State} {f : ForgeId} {j : Job} {mf : MForge} {p : PressJob} {slot : Fin 32} {a : ℕ} {t : PressTable} (hk : Keeps s₀ s) :
    EKeeps s₀ (State.pressBillets s f j mf p slot a t) := by
  unfold State.pressBillets
  repeat' (first | with_reducible assumption | with_reducible intro _ | with_reducible refine State.writeBillet_keeps ?_ | with_reducible refine State.modForge_keeps ?_ | with_reducible refine EKeeps.ok ?_ | with_reducible refine EKeeps.error | (rw [State.mk_eq_of]; with_reducible refine Keeps.upd ?_) | with_reducible refine EKeeps.foldE ?_ ?_ | with_reducible refine EKeeps.use (by assumption) ?_ | dsimp only | split)

theorem State.pressStep_keeps {s₀ : State} {s : State} {f : ForgeId} (hk : Keeps s₀ s) :
    OKeeps s₀ (State.pressStep s f) := by
  unfold State.pressStep
  repeat' (first | with_reducible assumption | with_reducible intro _ | with_reducible refine State.modForge_keeps ?_ | with_reducible refine State.modMForge_keeps ?_ | with_reducible refine State.conflict_keeps ?_ | with_reducible refine State.waitOn_keeps ?_ | with_reducible refine State.endStep_keeps ?_ | with_reducible refine State.pressBillets_keeps ?_ | with_reducible refine State.countsAs_keeps ?_ ?_ | with_reducible refine State.heatWrite_keeps ?_ | with_reducible refine EKeeps.ok ?_ | with_reducible refine EKeeps.error | with_reducible refine OKeeps.none | with_reducible refine OKeeps.some ?_ | (rw [State.mk_eq_of]; with_reducible refine Keeps.upd ?_) | with_reducible refine EKeeps.use (by assumption) ?_ | with_reducible refine OKeeps.use (by assumption) ?_ | dsimp only | split)

theorem pressIssue_keeps {s₀ : State} {code : ℕ} {f : ForgeId} {w : BitVec 128} {s : State} (hk : Keeps s₀ s) :
    Keeps s₀ (pressIssue code f w s) := by
  unfold pressIssue
  repeat' (first | with_reducible assumption | with_reducible intro _ | with_reducible refine State.onStream_keeps ?_ ?_ | with_reducible refine State.endStep_keeps ?_ | with_reducible refine State.modForge_keeps ?_ | with_reducible refine State.advance_keeps ?_ | (rw [State.mk_eq_of]; with_reducible refine Keeps.upd ?_) | dsimp only | split)

theorem pressScan_keeps {s₀ : State} {f : ForgeId} {w : BitVec 128} {s : State} (hk : Keeps s₀ s) :
    Keeps s₀ (pressScan f w s) := by
  unfold pressScan
  repeat' (first | with_reducible assumption | with_reducible intro _ | with_reducible refine pressIssue_keeps ?_ | (rw [State.mk_eq_of]; with_reducible refine Keeps.upd ?_) | dsimp only | split)

theorem pressEncode_keeps {s₀ : State} {f : ForgeId} {w : BitVec 128} {s : State} (hk : Keeps s₀ s) :
    Keeps s₀ (pressEncode f w s) := by
  unfold pressEncode
  repeat' (first | with_reducible assumption | with_reducible intro _ | with_reducible refine pressIssue_keeps ?_ | (rw [State.mk_eq_of]; with_reducible refine Keeps.upd ?_) | dsimp only | split)

theorem pressTableOut_keeps {s₀ : State} {f : ForgeId} {w : BitVec 128} {s : State} (hk : Keeps s₀ s) :
    Keeps s₀ (pressTableOut f w s) := by
  unfold pressTableOut
  repeat' (first | with_reducible assumption | with_reducible intro _ | with_reducible refine pressIssue_keeps ?_ | (rw [State.mk_eq_of]; with_reducible refine Keeps.upd ?_) | dsimp only | split)

end Sys2Proof.Machine
end

