-- ==== Sys2Proof/Laws/KeepsKvPool.lean ====
section
/-! SUPPORT. The operations of Machine/KvPool.lean keep what `Keeps` says. -/

set_option linter.unusedTactic false
set_option linter.unreachableTactic false

namespace Sys2Proof.Machine

theorem State.allocKv_keeps {s₀ : State} {s : State} {fn : FnId} {slot : Fin 32} {q : Seq} {layer : ℕ} {group : ℕ} {lpage : ℕ} (hk : Keeps s₀ s) :
    EQKeeps s₀ (State.allocKv s fn slot q layer group lpage) := by
  unfold State.allocKv
  repeat' (first | with_reducible assumption | with_reducible intro _ | with_reducible refine State.act_keeps ?_ | with_reducible refine State.modPage_keeps ?_ | with_reducible refine State.modFn_keeps ?_ | with_reducible refine State.edit_keeps ?_ | with_reducible refine EKeeps.ok ?_ | with_reducible refine EKeeps.error | with_reducible refine EQKeeps.ok ?_ | with_reducible refine EQKeeps.error | (rw [State.mk_eq_of]; with_reducible refine Keeps.upd ?_) | (rw [State.mk_eq_of]; with_reducible refine Keeps.updRam ?_ (fun hs => Memory.wf_write hs _ _)) | (rw [State.mk_eq_of]; with_reducible refine Keeps.updRam ?_ (fun hs => Memory.wf_clear hs _ _)) | (rw [State.mk_eq_of]; with_reducible refine Keeps.updRam ?_ (fun hs => Memory.wf_filter hs _)) | (rw [State.mk_eq_of]; with_reducible refine Keeps.updRam ?_ (fun hs => Memory.wf_foldl_put hs)) | with_reducible refine EKeeps.use (by assumption) ?_ | with_reducible refine EQKeeps.use (by assumption) ?_ | with_reducible refine EQKeeps.use' (by assumption) ?_ | dsimp only | split)

theorem State.dropLab_keeps {s₀ : State} {s : State} {fn : FnId} {p : Lab → Bool} (hk : Keeps s₀ s) :
    Keeps s₀ (State.dropLab s fn p) := by
  unfold State.dropLab
  repeat' (first | with_reducible assumption | with_reducible intro _ | (rw [State.mk_eq_of]; with_reducible refine Keeps.upd ?_) | dsimp only | split)

theorem State.poolEmpty_keeps {s₀ : State} {s : State} {fn : FnId} {id : BitVec 64} (hk : Keeps s₀ s) :
    Keeps s₀ (State.poolEmpty s fn id) := by
  unfold State.poolEmpty
  repeat' (first | with_reducible assumption | with_reducible intro _ | with_reducible refine State.endStep_keeps ?_ | with_reducible refine State.modRun_keeps ?_ | with_reducible refine State.stopStep_keeps ?_ | (rw [State.mk_eq_of]; with_reducible refine Keeps.upd ?_) | with_reducible refine Keeps.foldl ?_ ?_ | dsimp only | split)

theorem State.installWalk_keeps {s₀ : State} {s : State} {f : ForgeId} {fn : FnId} {id : BitVec 64} {slot : Option (Fin 32)} {q : Seq} {layer : ℕ} {group : ℕ} {lpage : ℕ} (hk : Keeps s₀ s) :
    Keeps s₀ (State.installWalk s f fn id slot q layer group lpage) := by
  unfold State.installWalk
  repeat' (first | with_reducible assumption | with_reducible intro _ | with_reducible refine State.modForge_keeps ?_ | with_reducible refine State.modFn_keeps ?_ | with_reducible refine State.modRun_keeps ?_ | (rw [State.mk_eq_of]; with_reducible refine Keeps.upd ?_) | with_reducible refine Keeps.foldl ?_ ?_ | dsimp only | split)

theorem State.labHit_keeps {s₀ : State} {s : State} {f : ForgeId} {l : Lab} (hk : Keeps s₀ s) :
    Keeps s₀ (State.labHit s f l) := by
  unfold State.labHit
  repeat' (first | with_reducible assumption | with_reducible intro _ | with_reducible refine State.modForge_keeps ?_ | (rw [State.mk_eq_of]; with_reducible refine Keeps.upd ?_) | dsimp only | split)

theorem State.copyPage_keeps {s₀ : State} {s : State} {fn : FnId} {slot : Fin 32} {old : ℕ} {new : ℕ} {keep : ℕ} (hk : Keeps s₀ s) :
    Keeps s₀ (State.copyPage s fn slot old new keep) := by
  unfold State.copyPage
  repeat' (first | with_reducible assumption | with_reducible intro _ | (rw [State.mk_eq_of]; with_reducible refine Keeps.upd ?_) | (rw [State.mk_eq_of]; with_reducible refine Keeps.updRam ?_ (fun hs => Memory.wf_write hs _ _)) | (rw [State.mk_eq_of]; with_reducible refine Keeps.updRam ?_ (fun hs => Memory.wf_clear hs _ _)) | (rw [State.mk_eq_of]; with_reducible refine Keeps.updRam ?_ (fun hs => Memory.wf_filter hs _)) | (rw [State.mk_eq_of]; with_reducible refine Keeps.updRam ?_ (fun hs => Memory.wf_foldl_put hs)) | dsimp only | split)

end Sys2Proof.Machine
end

