-- ==== Sys2Proof/Laws/KeepsCrucible.lean ====
section
/-! SUPPORT. The operations of Machine/Crucible.lean keep what `Keeps` says. -/

set_option linter.unusedTactic false
set_option linter.unreachableTactic false

namespace Sys2Proof.Machine

theorem State.mergePage_keeps {s₀ : State} {s : State} {f : ForgeId} {c : CrucJob} {len : Option ℕ} {data : List Byte} {lp : ℕ} {diverted : Bool} (hk : Keeps s₀ s) :
    PKeeps s₀ (State.mergePage s f c len data lp diverted) := by
  unfold State.mergePage
  repeat' (first | with_reducible assumption | with_reducible intro _ | with_reducible refine State.modForge_keeps ?_ | (rw [State.mk_eq_of]; with_reducible refine Keeps.upd ?_) | with_reducible refine Keeps.foldl ?_ ?_ | with_reducible refine PKeeps.foldl ?_ ?_ | with_reducible refine PKeeps.use (by assumption) ?_ | dsimp only | split)

theorem State.crucEnds_keeps {s₀ : State} {s : State} {f : ForgeId} {j : Job} {c : CrucJob} {st : Status} (hk : Keeps s₀ s) :
    Keeps s₀ (State.crucEnds s f j c st) := by
  unfold State.crucEnds
  repeat' (first | with_reducible assumption | with_reducible intro _ | with_reducible refine State.endStep_keeps ?_ | with_reducible refine State.modForge_keeps ?_ | (rw [State.mk_eq_of]; with_reducible refine Keeps.upd ?_) | dsimp only | split)

theorem State.crucGo_keeps {s₀ : State} {s : State} {f : ForgeId} {c : CrucJob} (hk : Keeps s₀ s) :
    Keeps s₀ (State.crucGo s f c) := by
  unfold State.crucGo
  repeat' (first | with_reducible assumption | with_reducible intro _ | with_reducible refine State.modForge_keeps ?_ | (rw [State.mk_eq_of]; with_reducible refine Keeps.upd ?_) | dsimp only | split)

theorem State.crucWaitSlot_keeps {s₀ : State} {s : State} {f : ForgeId} {j : Job} {mf : MForge} {slot : ℕ} (hk : Keeps s₀ s) :
    OKeeps s₀ (State.crucWaitSlot s f j mf slot) := by
  unfold State.crucWaitSlot
  repeat' (first | with_reducible assumption | with_reducible intro _ | with_reducible refine State.waitOn_keeps ?_ | with_reducible refine State.modForge_keeps ?_ | with_reducible refine OKeeps.none | with_reducible refine OKeeps.some ?_ | (rw [State.mk_eq_of]; with_reducible refine Keeps.upd ?_) | with_reducible refine OKeeps.use (by assumption) ?_ | dsimp only | split)

theorem State.drainIf_keeps {s₀ : State} {s : State} {j : Job} {on : Bool} {slot : ℕ} (hk : Keeps s₀ s) :
    Keeps s₀ (State.drainIf s j on slot) := by
  unfold State.drainIf
  repeat' (first | with_reducible assumption | with_reducible intro _ | with_reducible refine State.modMForge_keeps ?_ | (rw [State.mk_eq_of]; with_reducible refine Keeps.upd ?_) | dsimp only | split)

theorem State.attnStart_keeps {s₀ : State} {s : State} {f : ForgeId} {j : Job} {m : Mould} {mf : MForge} {r : Running} {c : CrucJob} (hk : Keeps s₀ s) :
    OKeeps s₀ (State.attnStart s f j m mf r c) := by
  unfold State.attnStart
  repeat' (first | with_reducible assumption | with_reducible intro _ | with_reducible refine State.conflict_keeps ?_ | with_reducible refine State.crucWaitSlot_keeps ?_ | with_reducible refine State.endStep_keeps ?_ | with_reducible refine State.modForge_keeps ?_ | with_reducible refine State.crucEnds_keeps ?_ | with_reducible refine State.modFn_keeps ?_ | with_reducible refine State.crucGo_keeps ?_ | with_reducible refine State.drainIf_keeps ?_ | with_reducible refine OKeeps.none | with_reducible refine OKeeps.some ?_ | (rw [State.mk_eq_of]; with_reducible refine Keeps.upd ?_) | with_reducible refine OKeeps.map ?_ ?_ | with_reducible refine OKeeps.mapQ ?_ ?_ | with_reducible refine OKeeps.mapOf ?_ | with_reducible refine OKeeps.getD ?_ ?_ | with_reducible refine OKeeps.use (by assumption) ?_ | dsimp only | split)

theorem State.crucNext_keeps {s₀ : State} {s : State} {f : ForgeId} {c : CrucJob} {rows : List CRow} (hk : Keeps s₀ s) :
    Keeps s₀ (State.crucNext s f c rows) := by
  unfold State.crucNext
  repeat' (first | with_reducible assumption | with_reducible intro _ | with_reducible refine State.crucGo_keeps ?_ | (rw [State.mk_eq_of]; with_reducible refine Keeps.upd ?_) | dsimp only | split)

theorem State.attnDivert_keeps {s₀ : State} {s : State} {f : ForgeId} {j : Job} {m : Mould} {mf : MForge} {r : Running} {c : CrucJob} {alt : ℕ} {len : Option ℕ} (hk : Keeps s₀ s) :
    OKeeps s₀ (State.attnDivert s f j m mf r c alt len) := by
  unfold State.attnDivert
  repeat' (first | with_reducible assumption | with_reducible intro _ | with_reducible refine State.conflict_keeps ?_ | with_reducible refine State.crucGo_keeps ?_ | with_reducible refine State.callAlternate_keeps ?_ | with_reducible refine State.modForge_keeps ?_ | with_reducible refine State.waitOn_keeps ?_ | with_reducible refine State.mergePage_keeps ?_ | with_reducible refine State.drainIf_keeps ?_ | with_reducible refine State.crucNext_keeps ?_ | with_reducible refine OKeeps.none | with_reducible refine OKeeps.some ?_ | (rw [State.mk_eq_of]; with_reducible refine Keeps.upd ?_) | with_reducible refine OKeeps.use (by assumption) ?_ | with_reducible refine PKeeps.use (by assumption) ?_ | dsimp only | split)

theorem State.crucFetch_keeps {s₀ : State} {s : State} {f : ForgeId} {fn : FnId} {c : CrucJob} {slot : Option (Fin 32)} {addr : ℕ} {n : ℕ} (hk : Keeps s₀ s) :
    PKeeps s₀ (State.crucFetch s f fn c slot addr n) := by
  unfold State.crucFetch
  repeat' (first | with_reducible assumption | with_reducible intro _ | with_reducible refine State.ueAt_keeps ?_ | with_reducible refine State.countReads_keeps ?_ | with_reducible refine State.modForge_keeps ?_ | with_reducible refine State.meet_keeps ?_ | with_reducible refine State.t1Read_keeps ?_ | (rw [State.mk_eq_of]; with_reducible refine Keeps.upd ?_) | with_reducible refine Keeps.foldl ?_ ?_ | with_reducible refine PKeeps.foldl ?_ ?_ | with_reducible refine PKeeps.use (by assumption) ?_ | dsimp only | split)

theorem State.walkFetch_keeps {s₀ : State} {s : State} {f : ForgeId} {fn : FnId} {c : CrucJob} {slot : Option (Fin 32)} {l : List ℕ} (hk : Keeps s₀ s) :
    PKeeps s₀ (State.walkFetch s f fn c slot l) := by
  unfold State.walkFetch
  repeat' (first | with_reducible assumption | with_reducible intro _ | with_reducible refine State.crucFetch_keeps ?_ | (rw [State.mk_eq_of]; with_reducible refine Keeps.upd ?_) | with_reducible refine Keeps.foldl ?_ ?_ | with_reducible refine PKeeps.foldl ?_ ?_ | with_reducible refine PKeeps.use (by assumption) ?_ | dsimp only | split)

theorem State.walkAhead_keeps {s₀ : State} {s : State} {f : ForgeId} {fn : FnId} {id : BitVec 64} {slot : Option (Fin 32)} {c : CrucJob} {q : Seq} {lp : ℕ} (hk : Keeps s₀ s) :
    Keeps s₀ (State.walkAhead s f fn id slot c q lp) := by
  unfold State.walkAhead
  repeat' (first | with_reducible assumption | with_reducible intro _ | with_reducible refine State.installWalk_keeps ?_ | with_reducible refine State.t1Read_keeps ?_ | with_reducible refine State.countReads_keeps ?_ | (rw [State.mk_eq_of]; with_reducible refine Keeps.upd ?_) | with_reducible refine Keeps.foldl ?_ ?_ | dsimp only | split)

theorem State.attnPage_keeps {s₀ : State} {s : State} {f : ForgeId} {j : Job} {m : Mould} {mf : MForge} {r : Running} {c : CrucJob} (hk : Keeps s₀ s) :
    OKeeps s₀ (State.attnPage s f j m mf r c) := by
  unfold State.attnPage
  repeat' (first | with_reducible assumption | with_reducible intro _ | with_reducible refine State.crucEnds_keeps ?_ | with_reducible refine State.crucNext_keeps ?_ | with_reducible refine State.modForge_keeps ?_ | with_reducible refine State.labHit_keeps ?_ | with_reducible refine State.walkFetch_keeps ?_ | with_reducible refine State.installWalk_keeps ?_ | with_reducible refine State.judge_keeps ?_ | with_reducible refine State.attnDivert_keeps ?_ | with_reducible refine State.crucFetch_keeps ?_ | with_reducible refine State.mergePage_keeps ?_ | with_reducible refine State.walkAhead_keeps ?_ | with_reducible refine OKeeps.none | with_reducible refine OKeeps.some ?_ | (rw [State.mk_eq_of]; with_reducible refine Keeps.upd ?_) | with_reducible refine OKeeps.bind ?_ ?_ | with_reducible refine OKeeps.bindOf ?_ | with_reducible refine OKeeps.map ?_ ?_ | with_reducible refine OKeeps.mapQ ?_ ?_ | with_reducible refine OKeeps.mapOf ?_ | with_reducible refine OKeeps.getD ?_ ?_ | with_reducible refine OKeeps.use (by assumption) ?_ | with_reducible refine PKeeps.use (by assumption) ?_ | dsimp only | split)

theorem State.attnFinish_keeps {s₀ : State} {s : State} {f : ForgeId} {j : Job} {mf : MForge} {c : CrucJob} (hk : Keeps s₀ s) :
    OKeeps s₀ (State.attnFinish s f j mf c) := by
  unfold State.attnFinish
  repeat' (first | with_reducible assumption | with_reducible intro _ | with_reducible refine State.crucWaitSlot_keeps ?_ | with_reducible refine State.writeRows_keeps ?_ | with_reducible refine State.modForge_keeps ?_ | with_reducible refine State.modMForge_keeps ?_ | with_reducible refine OKeeps.none | with_reducible refine OKeeps.some ?_ | (rw [State.mk_eq_of]; with_reducible refine Keeps.upd ?_) | with_reducible refine OKeeps.use (by assumption) ?_ | dsimp only | split)

theorem State.appendOne_keeps {s₀ : State} {s : State} {fn : FnId} {slot : Fin 32} {r : Running} {handle : ℕ} {layer : ℕ} {group : ℕ} {p : ℕ} {rec : List Byte} (hk : Keeps s₀ s) :
    EKeeps s₀ (State.appendOne s fn slot r handle layer group p rec) := by
  unfold State.appendOne
  repeat' (first | with_reducible assumption | with_reducible intro _ | with_reducible refine State.countsAs_keeps ?_ ?_ | with_reducible refine State.heatWrite_keeps ?_ | with_reducible refine State.edit_keeps ?_ | with_reducible refine State.allocKv_keeps ?_ | with_reducible refine State.copyPage_keeps ?_ | with_reducible refine EKeeps.ok ?_ | with_reducible refine EKeeps.error | with_reducible refine EQKeeps.ok ?_ | with_reducible refine EQKeeps.error | (rw [State.mk_eq_of]; with_reducible refine Keeps.upd ?_) | with_reducible refine EKeeps.use (by assumption) ?_ | with_reducible refine EQKeeps.use (by assumption) ?_ | with_reducible refine EQKeeps.use' (by assumption) ?_ | dsimp only | split)

theorem State.appendStep_keeps {s₀ : State} {s : State} {f : ForgeId} {j : Job} {m : Mould} {mf : MForge} {r : Running} {c : CrucJob} (hk : Keeps s₀ s) :
    OKeeps s₀ (State.appendStep s f j m mf r c) := by
  unfold State.appendStep
  repeat' (first | with_reducible assumption | with_reducible intro _ | with_reducible refine State.conflict_keeps ?_ | with_reducible refine State.crucWaitSlot_keeps ?_ | with_reducible refine State.drainIf_keeps ?_ | with_reducible refine State.modForge_keeps ?_ | with_reducible refine State.crucEnds_keeps ?_ | with_reducible refine State.appendOne_keeps ?_ | with_reducible refine State.poolEmpty_keeps ?_ | with_reducible refine State.edit_keeps ?_ | with_reducible refine State.modHeat_keeps ?_ | with_reducible refine State.modFn_keeps ?_ | with_reducible refine State.dropLab_keeps ?_ | with_reducible refine EKeeps.ok ?_ | with_reducible refine EKeeps.error | with_reducible refine OKeeps.none | with_reducible refine OKeeps.some ?_ | (rw [State.mk_eq_of]; with_reducible refine Keeps.upd ?_) | with_reducible refine EKeeps.foldE ?_ ?_ | with_reducible refine OKeeps.map ?_ ?_ | with_reducible refine EKeeps.map ?_ ?_ | with_reducible refine OKeeps.mapQ ?_ ?_ | with_reducible refine OKeeps.mapOf ?_ | with_reducible refine EKeeps.mapError ?_ | with_reducible refine OKeeps.getD ?_ ?_ | with_reducible refine EKeeps.use (by assumption) ?_ | with_reducible refine OKeeps.use (by assumption) ?_ | dsimp only | split)

theorem State.crucStep_keeps {s₀ : State} {s : State} {f : ForgeId} (hk : Keeps s₀ s) :
    OKeeps s₀ (State.crucStep s f) := by
  unfold State.crucStep
  repeat' (first | with_reducible assumption | with_reducible intro _ | with_reducible refine State.appendStep_keeps ?_ | with_reducible refine State.attnStart_keeps ?_ | with_reducible refine State.crucWaitSlot_keeps ?_ | with_reducible refine State.mergePage_keeps ?_ | with_reducible refine State.drainIf_keeps ?_ | with_reducible refine State.crucNext_keeps ?_ | with_reducible refine State.attnPage_keeps ?_ | with_reducible refine State.attnFinish_keeps ?_ | with_reducible refine OKeeps.none | with_reducible refine OKeeps.some ?_ | (rw [State.mk_eq_of]; with_reducible refine Keeps.upd ?_) | with_reducible refine OKeeps.use (by assumption) ?_ | with_reducible refine PKeeps.use (by assumption) ?_ | dsimp only | split)

theorem crucCfg_keeps {s₀ : State} {f : ForgeId} {w : BitVec 128} {s : State} (hk : Keeps s₀ s) :
    Keeps s₀ (crucCfg f w s) := by
  unfold crucCfg
  repeat' (first | with_reducible assumption | with_reducible intro _ | with_reducible refine State.onStream_keeps ?_ ?_ | with_reducible refine State.endStep_keeps ?_ | with_reducible refine State.modForge_keeps ?_ | with_reducible refine State.advance_keeps ?_ | (rw [State.mk_eq_of]; with_reducible refine Keeps.upd ?_) | dsimp only | split)

theorem crucIssue_keeps {s₀ : State} {code : ℕ} {f : ForgeId} {w : BitVec 128} {env : Lines} {s : State} (hk : Keeps s₀ s) :
    Keeps s₀ (crucIssue code f w env s) := by
  unfold crucIssue
  repeat' (first | with_reducible assumption | with_reducible intro _ | with_reducible refine State.onStream_keeps ?_ ?_ | with_reducible refine State.endStep_keeps ?_ | with_reducible refine State.modForge_keeps ?_ | with_reducible refine State.advance_keeps ?_ | (rw [State.mk_eq_of]; with_reducible refine Keeps.upd ?_) | dsimp only | split)

theorem crucAttn_keeps {s₀ : State} {f : ForgeId} {w : BitVec 128} {env : Lines} {s : State} (hk : Keeps s₀ s) :
    Keeps s₀ (crucAttn f w env s) := by
  unfold crucAttn
  repeat' (first | with_reducible assumption | with_reducible intro _ | with_reducible refine crucIssue_keeps ?_ | (rw [State.mk_eq_of]; with_reducible refine Keeps.upd ?_) | dsimp only | split)

theorem crucAppend_keeps {s₀ : State} {f : ForgeId} {w : BitVec 128} {s : State} (hk : Keeps s₀ s) :
    Keeps s₀ (crucAppend f w s) := by
  unfold crucAppend
  repeat' (first | with_reducible assumption | with_reducible intro _ | with_reducible refine crucIssue_keeps ?_ | (rw [State.mk_eq_of]; with_reducible refine Keeps.upd ?_) | dsimp only | split)

end Sys2Proof.Machine
end

