-- ==== Sys2Proof/Laws/KeepsTongs.lean ====
section
/-! SUPPORT. The operations of Machine/Tongs.lean keep what `Keeps` says. -/

set_option linter.unusedTactic false
set_option linter.unreachableTactic false

namespace Sys2Proof.Machine

theorem State.chanErr_keeps {s₀ : State} {s : State} {f : ForgeId} {c : TongsId} {st : Status} {index : ℕ} (hk : Keeps s₀ s) :
    Keeps s₀ (State.chanErr s f c st index) := by
  unfold State.chanErr
  repeat' (first | with_reducible assumption | with_reducible intro _ | with_reducible refine State.modForge_keeps ?_ | (rw [State.mk_eq_of]; with_reducible refine Keeps.upd ?_) | dsimp only | split)

theorem State.descFails_keeps {s₀ : State} {s : State} {f : ForgeId} {j : Job} {c : TongsId} {st : Status} {index : ℕ} (hk : Keeps s₀ s) :
    Keeps s₀ (State.descFails s f j c st index) := by
  unfold State.descFails
  repeat' (first | with_reducible assumption | with_reducible intro _ | with_reducible refine State.modForge_keeps ?_ | with_reducible refine State.chanErr_keeps ?_ | with_reducible refine State.endStep_keeps ?_ | (rw [State.mk_eq_of]; with_reducible refine Keeps.upd ?_) | dsimp only | split)

theorem State.loadChan_keeps {s₀ : State} {s : State} {f : ForgeId} {c : TongsId} (hk : Keeps s₀ s) :
    Keeps s₀ (State.loadChan s f c) := by
  unfold State.loadChan
  repeat' (first | with_reducible assumption | with_reducible intro _ | with_reducible refine State.modForge_keeps ?_ | with_reducible refine State.descFails_keeps ?_ | (rw [State.mk_eq_of]; with_reducible refine Keeps.upd ?_) | dsimp only | split)

theorem tongsRun_keeps {s₀ : State} {f : ForgeId} {w : BitVec 128} {s : State} (hk : Keeps s₀ s) :
    Keeps s₀ (tongsRun f w s) := by
  unfold tongsRun
  repeat' (first | with_reducible assumption | with_reducible intro _ | with_reducible refine State.onStream_keeps ?_ ?_ | with_reducible refine State.endStep_keeps ?_ | with_reducible refine State.modForge_keeps ?_ | with_reducible refine State.loadChan_keeps ?_ | with_reducible refine State.advance_keeps ?_ | (rw [State.mk_eq_of]; with_reducible refine Keeps.upd ?_) | dsimp only | split)

theorem tongsWait_keeps {s₀ : State} {f : ForgeId} {w : BitVec 128} {s : State} (hk : Keeps s₀ s) :
    Keeps s₀ (tongsWait f w s) := by
  unfold tongsWait
  repeat' (first | with_reducible assumption | with_reducible intro _ | with_reducible refine State.onStream_keeps ?_ ?_ | with_reducible refine State.advance_keeps ?_ | (rw [State.mk_eq_of]; with_reducible refine Keeps.upd ?_) | dsimp only | split)

theorem tongsStop_keeps {s₀ : State} {f : ForgeId} {w : BitVec 128} {s : State} (hk : Keeps s₀ s) :
    Keeps s₀ (tongsStop f w s) := by
  unfold tongsStop
  repeat' (first | with_reducible assumption | with_reducible intro _ | with_reducible refine State.onStream_keeps ?_ ?_ | with_reducible refine State.modForge_keeps ?_ | with_reducible refine State.advance_keeps ?_ | (rw [State.mk_eq_of]; with_reducible refine Keeps.upd ?_) | with_reducible refine Keeps.foldl ?_ ?_ | dsimp only | split)

theorem State.activate_keeps {s₀ : State} {s : State} {f : ForgeId} {c : TongsId} {op : ℕ} {mf : MForge} (hk : Keeps s₀ s) :
    Keeps s₀ (State.activate s f c op mf) := by
  unfold State.activate
  repeat' (first | with_reducible assumption | with_reducible intro _ | with_reducible refine State.modForge_keeps ?_ | with_reducible refine State.loadChan_keeps ?_ | (rw [State.mk_eq_of]; with_reducible refine Keeps.upd ?_) | dsimp only | split)

theorem State.makeRoom_keeps {s₀ : State} {s : State} {home : ForgeId} {set : ℕ} (hk : Keeps s₀ s) :
    Keeps s₀ (State.makeRoom s home set) := by
  unfold State.makeRoom
  repeat' (first | with_reducible assumption | with_reducible intro _ | with_reducible refine State.flushLine_keeps ?_ | with_reducible refine State.draw_keeps ?_ | (rw [State.mk_eq_of]; with_reducible refine Keeps.upd ?_) | with_reducible refine QKeeps.use (by assumption) ?_ | dsimp only | split)

theorem State.cacheLine_keeps {s₀ : State} {s : State} {fn : FnId} {plinth : Option PlinthId} {line : ℕ} {slot : Option (Fin 32)} {own : Bool} {fill : List Byte} (hk : Keeps s₀ s) :
    PKeeps s₀ (State.cacheLine s fn plinth line slot own fill) := by
  unfold State.cacheLine
  repeat' (first | with_reducible assumption | with_reducible intro _ | with_reducible refine State.modForge_keeps ?_ | with_reducible refine State.makeRoom_keeps ?_ | with_reducible refine State.t1Read_keeps ?_ | (rw [State.mk_eq_of]; with_reducible refine Keeps.upd ?_) | with_reducible refine PKeeps.use (by assumption) ?_ | dsimp only | split)

theorem State.cachedRead_keeps {s₀ : State} {s : State} {fn : FnId} {slot : Option (Fin 32)} {addr : ℕ} {n : ℕ} (hk : Keeps s₀ s) :
    PKeeps s₀ (State.cachedRead s fn slot addr n) := by
  unfold State.cachedRead
  repeat' (first | with_reducible assumption | with_reducible intro _ | with_reducible refine State.cacheLine_keeps ?_ | (rw [State.mk_eq_of]; with_reducible refine Keeps.upd ?_) | with_reducible refine Keeps.foldl ?_ ?_ | with_reducible refine PKeeps.foldl ?_ ?_ | with_reducible refine PKeeps.use (by assumption) ?_ | dsimp only | split)

theorem State.actLine_keeps {s₀ : State} {s : State} {fn : FnId} {slot : Fin 32} {line : ℕ} (hk : Keeps s₀ s) :
    EKeeps s₀ (State.actLine s fn slot line) := by
  unfold State.actLine
  repeat' (first | with_reducible assumption | with_reducible intro _ | with_reducible refine State.modHeat_keeps ?_ | with_reducible refine State.act_keeps ?_ | with_reducible refine EKeeps.ok ?_ | with_reducible refine EKeeps.error | (rw [State.mk_eq_of]; with_reducible refine Keeps.upd ?_) | with_reducible refine EKeeps.map ?_ ?_ | with_reducible refine EKeeps.mapError ?_ | with_reducible refine EKeeps.use (by assumption) ?_ | dsimp only | split)

theorem State.dirtyLine_keeps {s₀ : State} {s : State} {fn : FnId} {slot : Fin 32} {a : ℕ} {bs : List Byte} (hk : Keeps s₀ s) :
    EKeeps s₀ (State.dirtyLine s fn slot a bs) := by
  unfold State.dirtyLine
  repeat' (first | with_reducible assumption | with_reducible intro _ | with_reducible refine State.foldClaimer_keeps ?_ | with_reducible refine State.claim_keeps ?_ | with_reducible refine State.cacheLine_keeps ?_ | with_reducible refine State.actLine_keeps ?_ | with_reducible refine EKeeps.ok ?_ | with_reducible refine EKeeps.error | (rw [State.mk_eq_of]; with_reducible refine Keeps.upd ?_) | with_reducible refine EKeeps.use (by assumption) ?_ | with_reducible refine PKeeps.use (by assumption) ?_ | dsimp only | split)

theorem State.cachedWrite_keeps {s₀ : State} {s : State} {fn : FnId} {slot : Fin 32} {addr : ℕ} {bs : List Byte} (hk : Keeps s₀ s) :
    EKeeps s₀ (State.cachedWrite s fn slot addr bs) := by
  unfold State.cachedWrite
  repeat' (first | with_reducible assumption | with_reducible intro _ | with_reducible refine State.dirtyLine_keeps ?_ | with_reducible refine State.rewrites_keeps ?_ | with_reducible refine EKeeps.ok ?_ | with_reducible refine EKeeps.error | (rw [State.mk_eq_of]; with_reducible refine Keeps.upd ?_) | with_reducible refine EKeeps.foldE ?_ ?_ | with_reducible refine EKeeps.bind ?_ ?_ | with_reducible refine EKeeps.use (by assumption) ?_ | dsimp only | split)

theorem State.flushLines_keeps {s₀ : State} {s : State} {fn : FnId} {plinth : Option PlinthId} {addr : ℕ} {n : ℕ} (hk : Keeps s₀ s) :
    Keeps s₀ (State.flushLines s fn plinth addr n) := by
  unfold State.flushLines
  repeat' (first | with_reducible assumption | with_reducible intro _ | with_reducible refine State.flushLine_keeps ?_ | (rw [State.mk_eq_of]; with_reducible refine Keeps.upd ?_) | with_reducible refine Keeps.foldl ?_ ?_ | dsimp only | split)

theorem State.cachedResult_keeps {s₀ s : State} {fn : FnId} {n : PlinthId} {a len : Nat} (h : Keeps s₀ s) :
    PKeeps s₀ (State.cachedResult s fn n a len) := by
  unfold State.cachedResult
  extract_lets +onlyGivenNames die x
  have hp : PKeeps s₀ (s, ([] : List Byte)) := h
  have hx : PKeeps s₀ x := PKeeps.foldl hp fun y i hy => by
    extract_lets +onlyGivenNames line fill z
    clear_value line fill
    exact PKeeps.mk (State.cacheLine_keeps hy)
  clear_value x
  exact PKeeps.mk hx

theorem State.readResult_keeps {s₀ s : State} {fn : FnId} {n : PlinthId} {cached : Bool} {len a : Nat} {env : Lines}
    (h : Keeps s₀ s) : PKeeps s₀ (State.readResult s fn n cached len a env) := by
  unfold State.readResult
  extract_lets +onlyGivenNames w
  clear_value w
  refine PKeeps.ite (fun _ => PKeeps.mk h) fun _ => ?_
  extract_lets +onlyGivenNames bs s1
  have h1 : Keeps s₀ s1 := State.modPlinth_keeps h
  clear_value bs s1
  exact PKeeps.ite (fun _ => PKeeps.mk (Keeps.foldl h1 fun _ _ hx => State.countT2_keeps hx)) fun _ =>
    PKeeps.ite (fun _ => PKeeps.mk (State.cachedResult_keeps h1)) fun _ => PKeeps.mk h1

theorem State.readSide_keeps {s₀ s : State} {j : Job} {m : Mould} {r : Running} {phase : Nat} {d : Side} {cached : Bool}
    {slot : Option (Fin 32)} {env : Lines} (h : Keeps s₀ s) :
    PKeeps s₀ (State.readSide s j m r phase d cached slot env) := by
  unfold State.readSide
  refine PKeeps.ite (fun _ => ?_) fun _ => PKeeps.ite (fun _ => ?_) fun _ => ?_
  · split <;> exact h
  · extract_lets +onlyGivenNames base pages
    clear_value pages
    split
    rename_i t1 g e1
    have h1 : Keeps s₀ t1 := PKeeps.use e1 (State.judge_keeps h)
    clear e1
    split
    · exact h1
    · exact h1
    · have hp : PKeeps s₀ (t1, Meets.fine) := h1
      split
      · next t2 st e2 => exact PKeeps.use e2 (PKeeps.foldl hp fun _ _ hx => State.meet_keeps hx)
      · next t2 e2 => exact PKeeps.use e2 (PKeeps.foldl hp fun _ _ hx => State.meet_keeps hx)
      · next t2 e2 =>
        have h2 : PKeeps s₀ (t2, ([] : List Byte)) := PKeeps.use e2 (PKeeps.foldl hp fun _ _ hx => State.meet_keeps hx)
        exact PKeeps.ite (fun _ => h2) fun _ => PKeeps.ite (fun _ => PKeeps.foldl h2 fun _ _ hx => State.cachedRead_keeps hx) fun _ =>
          PKeeps.mk (Keeps.foldl h2 fun _ _ hx => State.t1Read_keeps hx)
  · have hp : PKeeps s₀ (s, (.ok [] : Except Block (List Byte))) := h
    refine PKeeps.foldl hp fun x a hx => ?_
    split
    · exact hx
    · exact PKeeps.mk (State.readResult_keeps hx)

theorem State.writeSide_keeps {s₀ : State} {s : State} {j : Job} {m : Mould} {r : Running} {phase : ℕ} {d : Side} {cached : Bool} {slot : Option (Fin 32)} {bs : List Byte} (hk : Keeps s₀ s) :
    EKeeps s₀ (State.writeSide s j m r phase d cached slot bs) := by
  unfold State.writeSide
  repeat' (first | with_reducible assumption | with_reducible intro _ | with_reducible refine State.writeRows_keeps ?_ | with_reducible refine State.cachedWrite_keeps ?_ | with_reducible refine State.heatWrite_keeps ?_ | with_reducible refine State.modPlinth_keeps ?_ | with_reducible refine EKeeps.ok ?_ | with_reducible refine EKeeps.error | (rw [State.mk_eq_of]; with_reducible refine Keeps.upd ?_) | with_reducible refine EKeeps.foldE ?_ ?_ | with_reducible refine Keeps.foldl ?_ ?_ | with_reducible refine EKeeps.use (by assumption) ?_ | dsimp only | split)

theorem State.queueDest_keeps {s₀ : State} {s : State} {fn : FnId} {r : Running} {d : Side} (hk : Keeps s₀ s) :
    Keeps s₀ (State.queueDest s fn r d) := by
  unfold State.queueDest
  repeat' (first | with_reducible assumption | with_reducible intro _ | with_reducible refine State.enqueue_keeps ?_ | (rw [State.mk_eq_of]; with_reducible refine Keeps.upd ?_) | with_reducible refine Keeps.foldl ?_ ?_ | dsimp only | split)

theorem State.noteBlock_keeps {s₀ : State} {s : State} {f : ForgeId} {j : Job} {c : TongsId} {d : BitVec 512} {index : ℕ} {b : Block} (hk : Keeps s₀ s) :
    Keeps s₀ (State.noteBlock s f j c d index b) := by
  unfold State.noteBlock
  repeat' (first | with_reducible assumption | with_reducible intro _ | with_reducible refine State.modForge_keeps ?_ | with_reducible refine State.modMForge_keeps ?_ | with_reducible refine State.conflict_keeps ?_ | with_reducible refine State.descFails_keeps ?_ | with_reducible refine State.replay_keeps ?_ | (rw [State.mk_eq_of]; with_reducible refine Keeps.upd ?_) | dsimp only | split)

theorem State.noteMoved_keeps {s₀ : State} {s : State} {f : ForgeId} {j : Job} {c : TongsId} {d : BitVec 512} {bytes : ℕ} {g : TActive → TActive} (hk : Keeps s₀ s) :
    Keeps s₀ (State.noteMoved s f j c d bytes g) := by
  unfold State.noteMoved
  repeat' (first | with_reducible assumption | with_reducible intro _ | with_reducible refine State.modMForge_keeps ?_ | with_reducible refine State.modForge_keeps ?_ | (rw [State.mk_eq_of]; with_reducible refine Keeps.upd ?_) | dsimp only | split)

theorem State.onDesc_keeps {s₀ : State} {s : State} {f : ForgeId} {c : TongsId} {op : ℕ} {move : Job → Mould → MForge → Running → BitVec 512 → State → State × Except Block (ℕ × (TActive → TActive))} (hk : Keeps s₀ s)
    (hb0 : ∀ x0 x1 x2 x3 x4 x5, Keeps s₀ x5 → PKeeps s₀ (move x0 x1 x2 x3 x4 x5)) :
    Keeps s₀ (State.onDesc s f c op move) := by
  unfold State.onDesc
  repeat' (first | with_reducible assumption | with_reducible intro _ | with_reducible refine hb0 _ _ _ _ _ _ ?_ | with_reducible refine State.activate_keeps ?_ | with_reducible refine State.noteMoved_keeps ?_ | with_reducible refine State.callAlternate_keeps ?_ | with_reducible refine State.noteBlock_keeps ?_ | (rw [State.mk_eq_of]; with_reducible refine Keeps.upd ?_) | with_reducible refine PKeeps.use (by assumption) ?_ | dsimp only | split)

theorem copy_keeps {s₀ : State} {f : ForgeId} {c : TongsId} {env : Lines} {s : State} (hk : Keeps s₀ s) :
    Keeps s₀ (copy f c env s) := by
  unfold copy
  repeat' (first | with_reducible assumption | with_reducible intro _ | with_reducible refine State.onDesc_keeps ?_ ?_ | with_reducible refine State.queueDest_keeps ?_ | with_reducible refine State.readSide_keeps ?_ | with_reducible refine State.writeSide_keeps ?_ | with_reducible refine EKeeps.ok ?_ | with_reducible refine EKeeps.error | (rw [State.mk_eq_of]; with_reducible refine Keeps.upd ?_) | with_reducible refine EKeeps.use (by assumption) ?_ | with_reducible refine PKeeps.use (by assumption) ?_ | dsimp only | split)

theorem fill_keeps {s₀ : State} {f : ForgeId} {c : TongsId} {s : State} (hk : Keeps s₀ s) :
    Keeps s₀ (fill f c s) := by
  unfold fill
  repeat' (first | with_reducible assumption | with_reducible intro _ | with_reducible refine State.onDesc_keeps ?_ ?_ | with_reducible refine State.queueDest_keeps ?_ | with_reducible refine State.writeSide_keeps ?_ | with_reducible refine EKeeps.ok ?_ | with_reducible refine EKeeps.error | (rw [State.mk_eq_of]; with_reducible refine Keeps.upd ?_) | with_reducible refine EKeeps.map ?_ ?_ | with_reducible refine EKeeps.mapError ?_ | with_reducible refine EKeeps.use (by assumption) ?_ | with_reducible refine PKeeps.use (by assumption) ?_ | dsimp only | split)

theorem compare_keeps {s₀ : State} {f : ForgeId} {c : TongsId} {env : Lines} {s : State} (hk : Keeps s₀ s) :
    Keeps s₀ (compare f c env s) := by
  unfold compare
  repeat' (first | with_reducible assumption | with_reducible intro _ | with_reducible refine State.onDesc_keeps ?_ ?_ | with_reducible refine State.readSide_keeps ?_ | (rw [State.mk_eq_of]; with_reducible refine Keeps.upd ?_) | with_reducible refine PKeeps.use (by assumption) ?_ | dsimp only | split)

theorem flush_keeps {s₀ : State} {f : ForgeId} {c : TongsId} {s : State} (hk : Keeps s₀ s) :
    Keeps s₀ (flush f c s) := by
  unfold flush
  repeat' (first | with_reducible assumption | with_reducible intro _ | with_reducible refine State.onDesc_keeps ?_ ?_ | with_reducible refine State.flushLines_keeps ?_ | (rw [State.mk_eq_of]; with_reducible refine Keeps.upd ?_) | with_reducible refine Keeps.foldl ?_ ?_ | with_reducible refine PKeeps.foldl ?_ ?_ | with_reducible refine PKeeps.use (by assumption) ?_ | dsimp only | split)

theorem State.atomicEntry_keeps {s₀ : State} {s : State} {fn : FnId} {slot : Option (Fin 32)} {done : Bool} {env : Lines} {e : List Byte} (hk : Keeps s₀ s) :
    EPKeeps s₀ (State.atomicEntry s fn slot done env e) := by
  unfold State.atomicEntry
  repeat' (first | with_reducible assumption | with_reducible intro _ | with_reducible refine State.meet_keeps ?_ | with_reducible refine State.cachedRead_keeps ?_ | with_reducible refine State.cachedWrite_keeps ?_ | with_reducible refine EKeeps.ok ?_ | with_reducible refine EKeeps.error | with_reducible refine EPKeeps.ok ?_ | with_reducible refine EPKeeps.error | with_reducible refine XPKeeps.ok | with_reducible refine XPKeeps.error ?_ | (rw [State.mk_eq_of]; with_reducible refine Keeps.upd ?_) | with_reducible refine EKeeps.map ?_ ?_ | with_reducible refine EKeeps.mapError ?_ | with_reducible refine EPKeeps.map ?_ ?_ | with_reducible refine EPKeeps.mapE ?_ ?_ | with_reducible refine EKeeps.use (by assumption) ?_ | with_reducible refine EPKeeps.use (by assumption) ?_ | with_reducible refine EPKeeps.use' (by assumption) ?_ | with_reducible refine PKeeps.use (by assumption) ?_ | with_reducible refine XPKeeps.use (by assumption) ?_ | dsimp only | split)
theorem State.atomicEntry_keeps_xpkeeps {s₀ : State} {s : State} {fn : FnId} {slot : Option (Fin 32)} {done : Bool} {env : Lines} {e : List Byte} (hk : Keeps s₀ s) :
    XPKeeps s₀ (State.atomicEntry s fn slot done env e) := by
  unfold State.atomicEntry
  repeat' (first | with_reducible assumption | with_reducible intro _ | with_reducible refine State.meet_keeps ?_ | with_reducible refine State.cachedRead_keeps ?_ | with_reducible refine State.cachedWrite_keeps ?_ | with_reducible refine EKeeps.ok ?_ | with_reducible refine EKeeps.error | with_reducible refine EPKeeps.ok ?_ | with_reducible refine EPKeeps.error | with_reducible refine XPKeeps.ok | with_reducible refine XPKeeps.error ?_ | (rw [State.mk_eq_of]; with_reducible refine Keeps.upd ?_) | with_reducible refine EKeeps.map ?_ ?_ | with_reducible refine EKeeps.mapError ?_ | with_reducible refine EPKeeps.map ?_ ?_ | with_reducible refine EPKeeps.mapE ?_ ?_ | with_reducible refine EKeeps.use (by assumption) ?_ | with_reducible refine EPKeeps.use (by assumption) ?_ | with_reducible refine EPKeeps.use' (by assumption) ?_ | with_reducible refine PKeeps.use (by assumption) ?_ | with_reducible refine XPKeeps.use (by assumption) ?_ | dsimp only | split)

theorem State.atomicMeets_keeps {s₀ : State} {s : State} {fn : FnId} {slot : Option (Fin 32)} {env : Lines} {bs : List Byte} (hk : Keeps s₀ s) :
    Keeps s₀ (State.atomicMeets s fn slot env bs) := by
  unfold State.atomicMeets
  repeat' (first | with_reducible assumption | with_reducible intro _ | with_reducible refine State.meet_keeps ?_ | (rw [State.mk_eq_of]; with_reducible refine Keeps.upd ?_) | with_reducible refine Keeps.foldl ?_ ?_ | with_reducible refine PKeeps.foldl ?_ ?_ | with_reducible refine PKeeps.use (by assumption) ?_ | dsimp only | split)

theorem atomic_keeps {s₀ s : State} {f : ForgeId} {c : TongsId} {env : Lines} (h : Keeps s₀ s) : Keeps s₀ (atomic f c env s) := by
  refine State.onDesc_keeps h fun j m _ r d t ht => ?_
  dsimp only
  split
  · exact ht
  · split
    · next t1 b e1 => exact PKeeps.use e1 (State.readSide_keeps ht)
    · next t1 bs e1 =>
      have h1 : Keeps s₀ t1 := PKeeps.use e1 (State.readSide_keeps ht)
      have hp : PKeeps s₀ (t1, ([] : List Byte)) := h1
      split
      · next t2 st e2 =>
        exact XPKeeps.use e2 (XPKeeps.foldE hp (fun _ _ hx => EPKeeps.map (State.atomicEntry_keeps hx) fun _ _ hy => hy)
          fun _ _ hx => XPKeeps.map (State.atomicEntry_keeps_xpkeeps hx))
      · exact PKeeps.mk (State.atomicMeets_keeps h1)
      · next t2 out e2 =>
        have h2 : Keeps s₀ t2 := EPKeeps.use e2 (EPKeeps.foldE hp fun _ _ hx => EPKeeps.map (State.atomicEntry_keeps hx) fun _ _ hy => hy)
        split
        · exact h2
        · next t3 e3 => exact EKeeps.use e3 (State.writeSide_keeps h2)

theorem tongsDescComplete_keeps {s₀ : State} {f : ForgeId} {c : TongsId} {s : State} (hk : Keeps s₀ s) :
    Keeps s₀ (tongsDescComplete f c s) := by
  unfold tongsDescComplete
  repeat' (first | with_reducible assumption | with_reducible intro _ | with_reducible refine State.descFails_keeps ?_ | with_reducible refine State.conflict_keeps ?_ | with_reducible refine State.modForge_keeps ?_ | with_reducible refine State.loadChan_keeps ?_ | with_reducible refine State.finishDesc_keeps ?_ | (rw [State.mk_eq_of]; with_reducible refine Keeps.upd ?_) | dsimp only | split)

end Sys2Proof.Machine
end

