-- ==== Sys2Proof/Laws/KeepsFabric.lean ====
section
/-! SUPPORT. The operations of Machine/Fabric.lean keep what `Keeps` says. -/

set_option linter.unusedTactic false
set_option linter.unreachableTactic false

namespace Sys2Proof.Machine

theorem State.grantOne_keeps {s₀ : State} {s : State} {fn : FnId} {m : Mould} (hk : Keeps s₀ s) :
    OKeeps s₀ (State.grantOne s fn m) := by
  unfold State.grantOne
  repeat' (first | with_reducible assumption | with_reducible intro _ | with_reducible refine State.sendTo_keeps ?_ | with_reducible refine State.modMould_keeps ?_ | with_reducible refine OKeeps.none | with_reducible refine OKeeps.some ?_ | (rw [State.mk_eq_of]; with_reducible refine Keeps.upd ?_) | with_reducible refine OKeeps.findSome ?_ | with_reducible refine OKeeps.use (by assumption) ?_ | dsimp only | split)

theorem State.sendOne_keeps {s₀ : State} {s : State} {fn : FnId} {m : Mould} {r : Running} {p : PortId} (hk : Keeps s₀ s) :
    OKeeps s₀ (State.sendOne s fn m r p) := by
  unfold State.sendOne
  repeat' (first | with_reducible assumption | with_reducible intro _ | with_reducible refine State.endStep_keeps ?_ | with_reducible refine State.conflict_keeps ?_ | with_reducible refine State.modMForge_keeps ?_ | with_reducible refine State.modRun_keeps ?_ | with_reducible refine State.modMould_keeps ?_ | with_reducible refine State.sendTo_keeps ?_ | with_reducible refine State.act_keeps ?_ | with_reducible refine State.modHeat_keeps ?_ | with_reducible refine EKeeps.ok ?_ | with_reducible refine EKeeps.error | with_reducible refine OKeeps.none | with_reducible refine OKeeps.some ?_ | (rw [State.mk_eq_of]; with_reducible refine Keeps.upd ?_) | with_reducible refine OKeeps.bind ?_ ?_ | with_reducible refine OKeeps.bindOf ?_ | with_reducible refine EKeeps.bind ?_ ?_ | with_reducible refine OKeeps.map ?_ ?_ | with_reducible refine EKeeps.map ?_ ?_ | with_reducible refine OKeeps.mapQ ?_ ?_ | with_reducible refine OKeeps.mapOf ?_ | with_reducible refine EKeeps.mapError ?_ | with_reducible refine EKeeps.use (by assumption) ?_ | with_reducible refine OKeeps.use (by assumption) ?_ | dsimp only | split)

theorem State.received_keeps {s₀ : State} {s : State} {fn : FnId} {m : Mould} {i : ℕ} {e : XferEntry} {mf : MForge} {bs : List Byte} (hk : Keeps s₀ s) :
    Keeps s₀ (State.received s fn m i e mf bs) := by
  unfold State.received
  repeat' (first | with_reducible assumption | with_reducible intro _ | with_reducible refine State.modRun_keeps ?_ | with_reducible refine State.modMForge_keeps ?_ | with_reducible refine State.writeRows_keeps ?_ | (rw [State.mk_eq_of]; with_reducible refine Keeps.upd ?_) | dsimp only | split)

theorem State.deliverOne_keeps {s₀ : State} {s : State} {fn : FnId} {m : Mould} {r : Running} {i : ℕ} (hk : Keeps s₀ s) :
    OKeeps s₀ (State.deliverOne s fn m r i) := by
  unfold State.deliverOne
  repeat' (first | with_reducible assumption | with_reducible intro _ | with_reducible refine State.endStep_keeps ?_ | with_reducible refine State.conflict_keeps ?_ | with_reducible refine State.received_keeps ?_ | with_reducible refine State.modMForge_keeps ?_ | with_reducible refine OKeeps.none | with_reducible refine OKeeps.some ?_ | (rw [State.mk_eq_of]; with_reducible refine Keeps.upd ?_) | with_reducible refine OKeeps.use (by assumption) ?_ | dsimp only | split)

theorem State.windowTry_keeps {s₀ : State} {s : State} {f : ForgeId} {w : WinPend} (hk : Keeps s₀ s) :
    OKeeps s₀ (State.windowTry s f w) := by
  unfold State.windowTry
  repeat' (first | with_reducible assumption | with_reducible intro _ | with_reducible refine State.refuseRequest_keeps ?_ | with_reducible refine State.modMForge_keeps ?_ | with_reducible refine State.answerWindow_keeps ?_ | with_reducible refine State.writeRows_keeps ?_ | with_reducible refine OKeeps.none | with_reducible refine OKeeps.some ?_ | (rw [State.mk_eq_of]; with_reducible refine Keeps.upd ?_) | with_reducible refine OKeeps.use (by assumption) ?_ | dsimp only | split)

theorem State.windowStep_keeps {s₀ : State} {s : State} {f : ForgeId} (hk : Keeps s₀ s) :
    OKeeps s₀ (State.windowStep s f) := by
  unfold State.windowStep
  repeat' (first | with_reducible assumption | with_reducible intro _ | with_reducible refine State.modForge_keeps ?_ | with_reducible refine State.windowTry_keeps ?_ | with_reducible refine OKeeps.none | with_reducible refine OKeeps.some ?_ | (rw [State.mk_eq_of]; with_reducible refine Keeps.upd ?_) | with_reducible refine OKeeps.map ?_ ?_ | with_reducible refine OKeeps.mapQ ?_ ?_ | with_reducible refine OKeeps.mapOf ?_ | with_reducible refine OKeeps.findSome ?_ | with_reducible refine OKeeps.use (by assumption) ?_ | dsimp only | split)

theorem State.linkStep_keeps {s₀ : State} {s : State} {fn : FnId} {m : Mould} (hk : Keeps s₀ s) :
    OKeeps s₀ (State.linkStep s fn m) := by
  unfold State.linkStep
  repeat' (first | with_reducible assumption | with_reducible intro _ | with_reducible refine State.grantOne_keeps ?_ | with_reducible refine State.endStep_keeps ?_ | with_reducible refine State.deliverOne_keeps ?_ | with_reducible refine State.sendOne_keeps ?_ | with_reducible refine OKeeps.none | with_reducible refine OKeeps.some ?_ | (rw [State.mk_eq_of]; with_reducible refine Keeps.upd ?_) | with_reducible refine OKeeps.findSome ?_ | with_reducible refine OKeeps.use (by assumption) ?_ | dsimp only | split)

end Sys2Proof.Machine
end

