-- ==== Sys2Proof/Laws/KeepsPlinth.lean ====
section
/-! SUPPORT. The operations of Machine/Plinth.lean keep what `Keeps` says. -/

set_option linter.unusedTactic false
set_option linter.unreachableTactic false

namespace Sys2Proof.Machine

/-- What an offered instruction leaves. -/
def OfKeeps (s₀ : State) (o : Offer) : Prop :=
  (∀ t, o = .taken t → Keeps s₀ t) ∧ ∀ st t, o = .refused st t → Keeps s₀ t

theorem State.offer_keeps {s₀ s : State} {n : PlinthId} {i : UInstr} {tongs : Bool} (h : Keeps s₀ s) :
    OfKeeps s₀ (State.offer s n i tongs) := by
  unfold State.offer
  dsimp only
  split
  · refine ⟨fun _ e => ?_, fun _ _ e => ?_⟩ <;> cases e
    exact State.modPlinth_keeps h
  · split
    · refine ⟨fun _ e => ?_, fun _ _ e => ?_⟩ <;> cases e
    · refine ⟨fun _ e => ?_, fun _ _ e => ?_⟩ <;> cases e
      exact State.modPlinth_keeps h

theorem State.takeGroup_keeps {s₀ s : State} {n : PlinthId} {fn : FnId} {f : ForgeId} {group : BitVec 2048} {a : TActive}
    {fuel : Nat} (h : Keeps s₀ s) : PKeeps s₀ (State.takeGroup s n fn f group a fuel) := by
  induction fuel generalizing s a with
  | zero => exact h
  | succ fuel ih =>
    unfold State.takeGroup
    refine PKeeps.ite (fun _ => h) fun _ => ?_
    extract_lets +onlyGivenNames i
    clear_value i
    have ho := State.offer_keeps (n := n) (i := i) (tongs := true) h
    split
    · exact h
    · next t e => exact ih (ho.1 t e)
    · next st t e => exact ih (ho.2 st t e)

theorem plinthApertureWrite_keeps {s₀ : State} {f : ForgeId} {c : TongsId} {s : State} (hk : Keeps s₀ s) :
    Keeps s₀ (plinthApertureWrite f c s) := by
  unfold plinthApertureWrite
  repeat' (first | with_reducible assumption | with_reducible intro _ | with_reducible refine State.takeGroup_keeps ?_ | with_reducible refine State.modForge_keeps ?_ | (rw [State.mk_eq_of]; with_reducible refine Keeps.upd ?_) | with_reducible refine PKeeps.use (by assumption) ?_ | dsimp only | split)

theorem execPlinthApertureWrite_keeps {s₀ : State} {f : ForgeId} {c : TongsId} {s : State} (hk : Keeps s₀ s) :
    RKeeps s₀ (execPlinthApertureWrite f c s) := by
  unfold execPlinthApertureWrite
  repeat' (first | with_reducible assumption | with_reducible intro _ | with_reducible refine plinthApertureWrite_keeps ?_ | with_reducible refine RKeeps.next ?_ | (rw [State.mk_eq_of]; with_reducible refine Keeps.upd ?_) | with_reducible refine RKeeps.use (by assumption) ?_ | dsimp only | split)

theorem State.refill_keeps {s₀ s : State} {n : PlinthId} {fuel : Nat} (h : Keeps s₀ s) :
    Keeps s₀ (State.refill s n fuel) := by
  induction fuel generalizing s with
  | zero => exact h
  | succ fuel ih =>
    unfold State.refill
    split
    · exact h
    · split
      · next t e => exact ih (State.modPlinth_keeps ((State.offer_keeps h).1 t e))
      · exact h

theorem State.scrubBlock_keeps {s₀ : State} {s : State} {n : PlinthId} {frame : ℕ} {e : BlockErr} (hk : Keeps s₀ s) :
    Keeps s₀ (State.scrubBlock s n frame e) := by
  unfold State.scrubBlock
  repeat' (first | with_reducible assumption | with_reducible intro _ | with_reducible refine State.modPlinth_keeps ?_ | with_reducible refine State.ueT2_keeps ?_ | with_reducible refine State.countT2_keeps ?_ | (rw [State.mk_eq_of]; with_reducible refine Keeps.upd ?_) | with_reducible refine PKeeps.use (by assumption) ?_ | dsimp only | split)

theorem State.serveOrd_keeps {s₀ : State} {s : State} {n : PlinthId} {c : ChainId} (hk : Keeps s₀ s) :
    Keeps s₀ (State.serveOrd s n c) := by
  unfold State.serveOrd
  repeat' (first | with_reducible assumption | with_reducible intro _ | with_reducible refine State.scrubBlock_keeps ?_ | with_reducible refine State.modPlinth_keeps ?_ | (rw [State.mk_eq_of]; with_reducible refine Keeps.upd ?_) | with_reducible refine Keeps.foldl ?_ ?_ | dsimp only | split)

theorem dot_keeps {s₀ : State} {n : PlinthId} {c : ChainId} {s : State} (hk : Keeps s₀ s) :
    Keeps s₀ (dot n c s) := by
  unfold dot
  repeat' (first | with_reducible assumption | with_reducible intro _ | with_reducible refine State.refill_keeps ?_ | with_reducible refine State.serveOrd_keeps ?_ | with_reducible refine State.modPlinth_keeps ?_ | (rw [State.mk_eq_of]; with_reducible refine Keeps.upd ?_) | dsimp only | split)

theorem execDot_keeps {s₀ : State} {n : PlinthId} {c : ChainId} {s : State} (hk : Keeps s₀ s) :
    RKeeps s₀ (execDot n c s) := by
  unfold execDot
  repeat' (first | with_reducible assumption | with_reducible intro _ | with_reducible refine dot_keeps ?_ | with_reducible refine RKeeps.next ?_ | (rw [State.mk_eq_of]; with_reducible refine Keeps.upd ?_) | with_reducible refine RKeeps.use (by assumption) ?_ | dsimp only | split)

theorem ldr_keeps {s₀ : State} {n : PlinthId} {c : ChainId} {s : State} (hk : Keeps s₀ s) :
    Keeps s₀ (ldr n c s) := by
  unfold ldr
  repeat' (first | with_reducible assumption | with_reducible intro _ | with_reducible refine State.refill_keeps ?_ | with_reducible refine State.modPlinth_keeps ?_ | (rw [State.mk_eq_of]; with_reducible refine Keeps.upd ?_) | dsimp only | split)

theorem execLdr_keeps {s₀ : State} {n : PlinthId} {c : ChainId} {s : State} (hk : Keeps s₀ s) :
    RKeeps s₀ (execLdr n c s) := by
  unfold execLdr
  repeat' (first | with_reducible assumption | with_reducible intro _ | with_reducible refine ldr_keeps ?_ | with_reducible refine RKeeps.next ?_ | (rw [State.mk_eq_of]; with_reducible refine Keeps.upd ?_) | with_reducible refine RKeeps.use (by assumption) ?_ | dsimp only | split)

theorem unitNop_keeps {s₀ : State} {n : PlinthId} {c : ChainId} {s : State} (hk : Keeps s₀ s) :
    Keeps s₀ (unitNop n c s) := by
  unfold unitNop
  repeat' (first | with_reducible assumption | with_reducible intro _ | with_reducible refine State.refill_keeps ?_ | with_reducible refine State.modPlinth_keeps ?_ | (rw [State.mk_eq_of]; with_reducible refine Keeps.upd ?_) | dsimp only | split)

theorem execUnitNop_keeps {s₀ : State} {n : PlinthId} {c : ChainId} {s : State} (hk : Keeps s₀ s) :
    RKeeps s₀ (execUnitNop n c s) := by
  unfold execUnitNop
  repeat' (first | with_reducible assumption | with_reducible intro _ | with_reducible refine unitNop_keeps ?_ | with_reducible refine RKeeps.next ?_ | (rw [State.mk_eq_of]; with_reducible refine Keeps.upd ?_) | with_reducible refine RKeeps.use (by assumption) ?_ | dsimp only | split)

theorem accessPhaseEnd_keeps {s₀ : State} {n : PlinthId} {c : ChainId} {s : State} (hk : Keeps s₀ s) :
    Keeps s₀ (accessPhaseEnd n c s) := by
  unfold accessPhaseEnd
  repeat' (first | with_reducible assumption | with_reducible intro _ | with_reducible refine State.serveOrd_keeps ?_ | with_reducible refine State.modPlinth_keeps ?_ | (rw [State.mk_eq_of]; with_reducible refine Keeps.upd ?_) | dsimp only | split)

theorem execAccessPhaseEnd_keeps {s₀ : State} {n : PlinthId} {c : ChainId} {s : State} (hk : Keeps s₀ s) :
    RKeeps s₀ (execAccessPhaseEnd n c s) := by
  unfold execAccessPhaseEnd
  repeat' (first | with_reducible assumption | with_reducible intro _ | with_reducible refine accessPhaseEnd_keeps ?_ | with_reducible refine RKeeps.next ?_ | (rw [State.mk_eq_of]; with_reducible refine Keeps.upd ?_) | with_reducible refine RKeeps.use (by assumption) ?_ | dsimp only | split)

theorem State.endScan_keeps {s₀ : State} {s : State} {fn : FnId} {id : ℕ} {st : Status} {detail : optParam ℕ 0} {payload : optParam (List Byte) []} (hk : Keeps s₀ s) :
    Keeps s₀ (State.endScan s fn id st detail payload) := by
  unfold State.endScan
  repeat' (first | with_reducible assumption | with_reducible intro _ | with_reducible refine State.settle_keeps ?_ | with_reducible refine State.finish_keeps ?_ | with_reducible refine State.modFn_keeps ?_ | (rw [State.mk_eq_of]; with_reducible refine Keeps.upd ?_) | dsimp only | split)

theorem State.meetRows_keeps {s₀ : State} {s : State} {n : PlinthId} {i : UInstr} {l : List BlockErr} (hk : Keeps s₀ s) :
    Keeps s₀ (State.meetRows s n i l) := by
  unfold State.meetRows
  repeat' (first | with_reducible assumption | with_reducible intro _ | with_reducible refine State.ueT2_keeps ?_ | with_reducible refine State.modPlinth_keeps ?_ | (rw [State.mk_eq_of]; with_reducible refine Keeps.upd ?_) | with_reducible refine Keeps.foldl ?_ ?_ | with_reducible refine PKeeps.foldl ?_ ?_ | with_reducible refine PKeeps.use (by assumption) ?_ | dsimp only | split)

theorem State.replayInstr_keeps {s₀ : State} {s : State} {i : UInstr} (hk : Keeps s₀ s) :
    Keeps s₀ (State.replayInstr s i) := by
  unfold State.replayInstr
  repeat' (first | with_reducible assumption | with_reducible intro _ | with_reducible refine State.replay_keeps ?_ | (rw [State.mk_eq_of]; with_reducible refine Keeps.upd ?_) | dsimp only | split)

theorem State.badRead_keeps {s₀ : State} {s : State} {n : PlinthId} {c : ChainId} {w : UWork} (hk : Keeps s₀ s) :
    Keeps s₀ (State.badRead s n c w) := by
  unfold State.badRead
  repeat' (first | with_reducible assumption | with_reducible intro _ | with_reducible refine State.modPlinth_keeps ?_ | with_reducible refine State.endScan_keeps ?_ | with_reducible refine State.log_keeps ?_ | with_reducible refine State.replayInstr_keeps ?_ | (rw [State.mk_eq_of]; with_reducible refine Keeps.upd ?_) | dsimp only | split)

theorem State.releaseWork_keeps {s₀ : State} {s : State} {n : PlinthId} {c : ChainId} {w : UWork} (hk : Keeps s₀ s) :
    Keeps s₀ (State.releaseWork s n c w) := by
  unfold State.releaseWork
  repeat' (first | with_reducible assumption | with_reducible intro _ | with_reducible refine State.refill_keeps ?_ | with_reducible refine State.modPlinth_keeps ?_ | (rw [State.mk_eq_of]; with_reducible refine Keeps.upd ?_) | with_reducible refine Keeps.foldl ?_ ?_ | dsimp only | split)

theorem resultRelease_keeps {s₀ : State} {n : PlinthId} {c : ChainId} {rows : List BlockErr} {results : List BlockErr} {s : State} (hk : Keeps s₀ s) :
    Keeps s₀ (resultRelease n c rows results s) := by
  unfold resultRelease
  repeat' (first | with_reducible assumption | with_reducible intro _ | with_reducible refine State.meetRows_keeps ?_ | with_reducible refine State.settle_keeps ?_ | with_reducible refine State.badRead_keeps ?_ | with_reducible refine State.modPlinth_keeps ?_ | with_reducible refine State.countT2_keeps ?_ | with_reducible refine State.replayInstr_keeps ?_ | with_reducible refine State.releaseWork_keeps ?_ | (rw [State.mk_eq_of]; with_reducible refine Keeps.upd ?_) | with_reducible refine Keeps.foldl ?_ ?_ | dsimp only | split)

theorem execResultRelease_keeps {s₀ : State} {n : PlinthId} {c : ChainId} {rows results : List (Nat × BlockRead)} {badTags : List Nat} {s : State} (hk : Keeps s₀ s) :
    RKeeps s₀ (execResultRelease n c rows badTags results s) := by
  unfold execResultRelease
  repeat' (first | with_reducible assumption | with_reducible intro _ | with_reducible refine resultRelease_keeps ?_ | with_reducible refine RKeeps.next ?_ | (rw [State.mk_eq_of]; with_reducible refine Keeps.upd ?_) | with_reducible refine RKeeps.use (by assumption) ?_ | dsimp only | split)

theorem plinthRefresh_keeps {s₀ : State} {n : PlinthId} {dev : Fin 6} {bank : Fin 16} {s : State} (hk : Keeps s₀ s) :
    Keeps s₀ (plinthRefresh n dev bank s) := by
  unfold plinthRefresh
  repeat' (first | with_reducible assumption | with_reducible intro _ | with_reducible refine State.modPlinth_keeps ?_ | (rw [State.mk_eq_of]; with_reducible refine Keeps.upd ?_) | dsimp only | split)

theorem execPlinthRefresh_keeps {s₀ : State} {n : PlinthId} {dev : Fin 6} {bank : Fin 16} {s : State} (hk : Keeps s₀ s) :
    RKeeps s₀ (execPlinthRefresh n dev bank s) := by
  unfold execPlinthRefresh
  repeat' (first | with_reducible assumption | with_reducible intro _ | with_reducible refine plinthRefresh_keeps ?_ | with_reducible refine RKeeps.next ?_ | (rw [State.mk_eq_of]; with_reducible refine Keeps.upd ?_) | with_reducible refine RKeeps.use (by assumption) ?_ | dsimp only | split)

theorem plinthScrub_keeps {s₀ : State} {n : PlinthId} {frame : ℕ} {e : BlockErr} {s : State} (hk : Keeps s₀ s) :
    Keeps s₀ (plinthScrub n frame e s) := by
  unfold plinthScrub
  repeat' (first | with_reducible assumption | with_reducible intro _ | with_reducible refine State.queueOrd_keeps ?_ | with_reducible refine State.scrubBlock_keeps ?_ | (rw [State.mk_eq_of]; with_reducible refine Keeps.upd ?_) | dsimp only | split)

theorem execPlinthScrub_keeps {s₀ : State} {n : PlinthId} {frame block : ℕ} {e : BlockRead} {s : State} (hk : Keeps s₀ s) :
    RKeeps s₀ (execPlinthScrub n frame block e s) := by
  unfold execPlinthScrub
  repeat' (first | with_reducible assumption | with_reducible intro _ | with_reducible refine plinthScrub_keeps ?_ | with_reducible refine RKeeps.next ?_ | (rw [State.mk_eq_of]; with_reducible refine Keeps.upd ?_) | with_reducible refine RKeeps.use (by assumption) ?_ | dsimp only | split)

theorem plinthLinkFlit_keeps {s₀ : State} {n : PlinthId} {ok : Bool} {s : State} (hk : Keeps s₀ s) :
    Keeps s₀ (plinthLinkFlit n ok s) := by
  unfold plinthLinkFlit
  repeat' (first | with_reducible assumption | with_reducible intro _ | with_reducible refine State.modPlinth_keeps ?_ | (rw [State.mk_eq_of]; with_reducible refine Keeps.upd ?_) | dsimp only | split)

theorem execPlinthLinkFlit_keeps {s₀ : State} {n : PlinthId} {ok : Bool} {s : State} (hk : Keeps s₀ s) :
    RKeeps s₀ (execPlinthLinkFlit n ok s) := by
  unfold execPlinthLinkFlit
  repeat' (first | with_reducible assumption | with_reducible intro _ | with_reducible refine plinthLinkFlit_keeps ?_ | with_reducible refine RKeeps.next ?_ | (rw [State.mk_eq_of]; with_reducible refine Keeps.upd ?_) | with_reducible refine RKeeps.use (by assumption) ?_ | dsimp only | split)

theorem plinthLinkRetrainComplete_keeps {s₀ : State} {n : PlinthId} {s : State} (hk : Keeps s₀ s) :
    Keeps s₀ (plinthLinkRetrainComplete n s) := by
  unfold plinthLinkRetrainComplete
  repeat' (first | with_reducible assumption | with_reducible intro _ | with_reducible refine State.modPlinth_keeps ?_ | (rw [State.mk_eq_of]; with_reducible refine Keeps.upd ?_) | dsimp only | split)

theorem execPlinthLinkRetrainComplete_keeps {s₀ : State} {n : PlinthId} {s : State} (hk : Keeps s₀ s) :
    RKeeps s₀ (execPlinthLinkRetrainComplete n s) := by
  unfold execPlinthLinkRetrainComplete
  repeat' (first | with_reducible assumption | with_reducible intro _ | with_reducible refine plinthLinkRetrainComplete_keeps ?_ | with_reducible refine RKeeps.next ?_ | (rw [State.mk_eq_of]; with_reducible refine Keeps.upd ?_) | with_reducible refine RKeeps.use (by assumption) ?_ | dsimp only | split)

theorem plinthInstructionTimeout_keeps {s₀ : State} {n : PlinthId} {c : ChainId} {s : State} (hk : Keeps s₀ s) :
    Keeps s₀ (plinthInstructionTimeout n c s) := by
  unfold plinthInstructionTimeout
  repeat' (first | with_reducible assumption | with_reducible intro _ | with_reducible refine State.settle_keeps ?_ | with_reducible refine State.anneal_keeps ?_ | with_reducible refine State.modPlinth_keeps ?_ | (rw [State.mk_eq_of]; with_reducible refine Keeps.upd ?_) | dsimp only | split)

theorem execPlinthInstructionTimeout_keeps {s₀ : State} {n : PlinthId} {c : ChainId} {s : State} (hk : Keeps s₀ s) :
    RKeeps s₀ (execPlinthInstructionTimeout n c s) := by
  unfold execPlinthInstructionTimeout
  repeat' (first | with_reducible assumption | with_reducible intro _ | with_reducible refine plinthInstructionTimeout_keeps ?_ | with_reducible refine RKeeps.next ?_ | (rw [State.mk_eq_of]; with_reducible refine Keeps.upd ?_) | with_reducible refine RKeeps.use (by assumption) ?_ | dsimp only | split)

end Sys2Proof.Machine
end

