-- ==== Sys2Proof/Laws/KeepsStream.lean ====
section
/-! SUPPORT. The operations of Machine/Stream.lean keep what `Keeps` says. -/

set_option linter.unusedTactic false
set_option linter.unreachableTactic false

namespace Sys2Proof.Machine

theorem State.tileCount_keeps {s₀ : State} {s : State} {f : ForgeId} {j : Job} {kind : ℕ} (hk : Keeps s₀ s) :
    Keeps s₀ (State.tileCount s f j kind) := by
  unfold State.tileCount
  repeat' (first | with_reducible assumption | with_reducible intro _ | with_reducible refine State.endStep_keeps ?_ | with_reducible refine State.modForge_keeps ?_ | (rw [State.mk_eq_of]; with_reducible refine Keeps.upd ?_) | dsimp only | split)

theorem State.tileStarved_keeps {s₀ : State} {s : State} {f : ForgeId} (hk : Keeps s₀ s) :
    OKeeps s₀ (State.tileStarved s f) := by
  unfold State.tileStarved
  repeat' (first | with_reducible assumption | with_reducible intro _ | with_reducible refine State.tileCount_keeps ?_ | with_reducible refine OKeeps.none | with_reducible refine OKeeps.some ?_ | (rw [State.mk_eq_of]; with_reducible refine Keeps.upd ?_) | with_reducible refine OKeeps.use (by assumption) ?_ | dsimp only | split)

theorem OKeeps.orElse {s₀ : State} {o : Option State} {g : Unit → Option State} (h : OKeeps s₀ o) (k : OKeeps s₀ (g ())) :
    OKeeps s₀ (o.orElse g) := by
  cases o with
  | none => exact k
  | some x => exact h

theorem State.engineStep_keeps {s₀ s : State} {f : ForgeId} (h : Keeps s₀ s) : OKeeps s₀ (State.engineStep s f) :=
  (State.anvilStep_keeps h).orElse ((State.chiselStep_keeps h).orElse ((State.crucStep_keeps h).orElse
    ((State.pressStep_keeps h).orElse ((State.windowStep_keeps h).orElse (State.tileStarved_keeps h)))))

theorem State.mouldStep_keeps {s₀ : State} {s : State} {fn : FnId} {id : BitVec 64} (hk : Keeps s₀ s) :
    OKeeps s₀ (State.mouldStep s fn id) := by
  unfold State.mouldStep
  repeat' (first | with_reducible assumption | with_reducible intro _ | with_reducible refine State.engineStep_keeps ?_ | with_reducible refine State.linkStep_keeps ?_ | with_reducible refine OKeeps.none | with_reducible refine OKeeps.some ?_ | (rw [State.mk_eq_of]; with_reducible refine Keeps.upd ?_) | with_reducible refine OKeeps.findSome ?_ | with_reducible refine OKeeps.use (by assumption) ?_ | dsimp only | split)

theorem State.pumpN_keeps {s₀ s : State} {fn : FnId} {id : BitVec 64} {n : Nat} (h : Keeps s₀ s) :
    Keeps s₀ (State.pumpN s fn id n) := by
  induction n generalizing s with
  | zero => exact h
  | succ n ih =>
    unfold State.pumpN
    split
    · next t e => exact ih (State.mouldStep_keeps h t e)
    · exact h

theorem State.pump_keeps {s₀ : State} {s : State} {fn : FnId} {id : BitVec 64} (hk : Keeps s₀ s) :
    Keeps s₀ (State.pump s fn id) := by
  unfold State.pump
  repeat' (first | with_reducible assumption | with_reducible intro _ | with_reducible refine State.countArrivals_keeps ?_ | with_reducible refine State.endDue_keeps ?_ | with_reducible refine State.modMould_keeps ?_ | with_reducible refine State.pumpN_keeps ?_ | (rw [State.mk_eq_of]; with_reducible refine Keeps.upd ?_) | dsimp only | split)

theorem State.pumpForge_keeps {s₀ : State} {s : State} {f : ForgeId} (hk : Keeps s₀ s) :
    Keeps s₀ (State.pumpForge s f) := by
  unfold State.pumpForge
  repeat' (first | with_reducible assumption | with_reducible intro _ | with_reducible refine State.settle_keeps ?_ | with_reducible refine State.pump_keeps ?_ | (rw [State.mk_eq_of]; with_reducible refine Keeps.upd ?_) | dsimp only | split)

theorem State.pumpFn_keeps {s₀ : State} {s : State} {fn : FnId} (hk : Keeps s₀ s) :
    Keeps s₀ (State.pumpFn s fn) := by
  unfold State.pumpFn
  repeat' (first | with_reducible assumption | with_reducible intro _ | with_reducible refine State.pump_keeps ?_ | (rw [State.mk_eq_of]; with_reducible refine Keeps.upd ?_) | with_reducible refine Keeps.foldl ?_ ?_ | dsimp only | split)

theorem State.pumpAll_keeps {s₀ : State} {s : State} (hk : Keeps s₀ s) :
    Keeps s₀ (State.pumpAll s) := by
  unfold State.pumpAll
  repeat' (first | with_reducible assumption | with_reducible intro _ | with_reducible refine State.pumpFn_keeps ?_ | (rw [State.mk_eq_of]; with_reducible refine Keeps.upd ?_) | with_reducible refine Keeps.foldl ?_ ?_ | dsimp only | split)

theorem onForge_keeps {s₀ : State} {f : ForgeId} {body : State → State} {s : State} (hk : Keeps s₀ s)
    (hb0 : ∀ x0, Keeps s₀ x0 → Keeps s₀ (body x0)) :
    RKeeps s₀ (onForge f body s) := by
  unfold onForge
  repeat' (first | with_reducible assumption | with_reducible intro _ | with_reducible refine hb0 _ ?_ | with_reducible refine State.settle_keeps ?_ | with_reducible refine State.pump_keeps ?_ | with_reducible refine RKeeps.next ?_ | (rw [State.mk_eq_of]; with_reducible refine Keeps.upd ?_) | with_reducible refine RKeeps.use (by assumption) ?_ | dsimp only | split)

theorem State.issueEntries_keeps {s₀ : State} {s : State} {fn : FnId} {m : Mould} {r : Running} {n : ℕ} (hk : Keeps s₀ s) :
    Keeps s₀ (State.issueEntries s fn m r n) := by
  unfold State.issueEntries
  repeat' (first | with_reducible assumption | with_reducible intro _ | with_reducible refine State.issueFetch_keeps ?_ | (rw [State.mk_eq_of]; with_reducible refine Keeps.upd ?_) | with_reducible refine Keeps.foldl ?_ ?_ | dsimp only | split)

theorem State.openBound_keeps {s₀ : State} {s : State} {fn : FnId} {m : Mould} {r : Running} {n : ℕ} (hk : Keeps s₀ s) :
    OKeeps s₀ (State.openBound s fn m r n) := by
  unfold State.openBound
  repeat' (first | with_reducible assumption | with_reducible intro _ | with_reducible refine State.modRun_keeps ?_ | with_reducible refine State.openHeat_keeps ?_ | with_reducible refine OKeeps.none | with_reducible refine OKeeps.some ?_ | with_reducible refine OQKeeps.none | with_reducible refine OQKeeps.some ?_ | (rw [State.mk_eq_of]; with_reducible refine Keeps.upd ?_) | (rw [State.mk_eq_of]; with_reducible refine Keeps.updT1 ?_ (fun hs => frames_filter _ hs)) | (rw [State.mk_eq_of]; with_reducible refine Keeps.updT1 ?_ (fun hs => frames_map _ (fun _ => rfl) hs)) | (rw [State.mk_eq_of]; with_reducible refine Keeps.updT1 ?_ (fun hs => frames_map _ ?_ hs); rotate_left; intro x; try dsimp only; split <;> rfl) | with_reducible refine OKeeps.map ?_ ?_ | with_reducible refine OKeeps.mapQ ?_ ?_ | with_reducible refine OKeeps.mapOf ?_ | with_reducible refine OKeeps.use (by assumption) ?_ | with_reducible refine OQKeeps.use (by assumption) ?_ | with_reducible refine OQKeeps.use' (by assumption) ?_ | dsimp only | split)

theorem State.endFetches_keeps {s₀ : State} {s : State} {fn : FnId} {m : Mould} (hk : Keeps s₀ s) :
    Keeps s₀ (State.endFetches s fn m) := by
  unfold State.endFetches
  repeat' (first | with_reducible assumption | with_reducible intro _ | with_reducible refine State.unpin_keeps ?_ | with_reducible refine State.modRun_keeps ?_ | (rw [State.mk_eq_of]; with_reducible refine Keeps.upd ?_) | dsimp only | split)

theorem State.enterPhase_keeps {s₀ : State} {s : State} {f : ForgeId} {j : Job} {m : Mould} {r : Running} {n : ℕ} (hk : Keeps s₀ s) :
    Keeps s₀ (State.enterPhase s f j m r n) := by
  unfold State.enterPhase
  repeat' (first | with_reducible assumption | with_reducible intro _ | with_reducible refine State.modRun_keeps ?_ | with_reducible refine State.openBound_keeps ?_ | with_reducible refine State.issueEntries_keeps ?_ | with_reducible refine State.advance_keeps ?_ | with_reducible refine State.modForge_keeps ?_ | with_reducible refine State.endFetches_keeps ?_ | with_reducible refine OKeeps.none | with_reducible refine OKeeps.some ?_ | (rw [State.mk_eq_of]; with_reducible refine Keeps.upd ?_) | with_reducible refine OKeeps.use (by assumption) ?_ | dsimp only | split)

theorem phase_keeps {s₀ : State} {f : ForgeId} {w : BitVec 128} {s : State} (hk : Keeps s₀ s) :
    Keeps s₀ (phase f w s) := by
  unfold phase
  repeat' (first | with_reducible assumption | with_reducible intro _ | with_reducible refine State.onStream_keeps ?_ ?_ | with_reducible refine State.tileCount_keeps ?_ | with_reducible refine State.enterPhase_keeps ?_ | (rw [State.mk_eq_of]; with_reducible refine Keeps.upd ?_) | dsimp only | split)

theorem execPhase_keeps {s₀ : State} {f : ForgeId} {w : BitVec 128} {s : State} (hk : Keeps s₀ s) :
    RKeeps s₀ (execPhase f w s) := by
  unfold execPhase
  repeat' (first | with_reducible assumption | with_reducible intro _ | with_reducible refine onForge_keeps ?_ ?_ | with_reducible refine phase_keeps ?_ | with_reducible refine RKeeps.next ?_ | (rw [State.mk_eq_of]; with_reducible refine Keeps.upd ?_) | with_reducible refine RKeeps.use (by assumption) ?_ | dsimp only | split)

theorem end_keeps {s₀ : State} {f : ForgeId} {w : BitVec 128} {s : State} (hk : Keeps s₀ s) :
    Keeps s₀ (end_ f w s) := by
  unfold end_
  repeat' (first | with_reducible assumption | with_reducible intro _ | with_reducible refine State.onStream_keeps ?_ ?_ | with_reducible refine State.tileCount_keeps ?_ | with_reducible refine State.endFetches_keeps ?_ | with_reducible refine State.modRun_keeps ?_ | with_reducible refine State.modForge_keeps ?_ | (rw [State.mk_eq_of]; with_reducible refine Keeps.upd ?_) | dsimp only | split)

theorem execEnd_keeps {s₀ : State} {f : ForgeId} {w : BitVec 128} {s : State} (hk : Keeps s₀ s) :
    RKeeps s₀ (execEnd f w s) := by
  unfold execEnd
  repeat' (first | with_reducible assumption | with_reducible intro _ | with_reducible refine onForge_keeps ?_ ?_ | with_reducible refine end_keeps ?_ | with_reducible refine RKeeps.next ?_ | (rw [State.mk_eq_of]; with_reducible refine Keeps.upd ?_) | with_reducible refine RKeeps.use (by assumption) ?_ | dsimp only | split)

theorem call_keeps {s₀ : State} {f : ForgeId} {w : BitVec 128} {s : State} (hk : Keeps s₀ s) :
    Keeps s₀ (call f w s) := by
  unfold call
  repeat' (first | with_reducible assumption | with_reducible intro _ | with_reducible refine State.onStream_keeps ?_ ?_ | with_reducible refine State.modForge_keeps ?_ | (rw [State.mk_eq_of]; with_reducible refine Keeps.upd ?_) | dsimp only | split)

theorem execCall_keeps {s₀ : State} {f : ForgeId} {w : BitVec 128} {s : State} (hk : Keeps s₀ s) :
    RKeeps s₀ (execCall f w s) := by
  unfold execCall
  repeat' (first | with_reducible assumption | with_reducible intro _ | with_reducible refine onForge_keeps ?_ ?_ | with_reducible refine call_keeps ?_ | with_reducible refine RKeeps.next ?_ | (rw [State.mk_eq_of]; with_reducible refine Keeps.upd ?_) | with_reducible refine RKeeps.use (by assumption) ?_ | dsimp only | split)

theorem return_keeps {s₀ : State} {f : ForgeId} {w : BitVec 128} {s : State} (hk : Keeps s₀ s) :
    Keeps s₀ (return_ f w s) := by
  unfold return_
  repeat' (first | with_reducible assumption | with_reducible intro _ | with_reducible refine State.onStream_keeps ?_ ?_ | with_reducible refine State.modForge_keeps ?_ | (rw [State.mk_eq_of]; with_reducible refine Keeps.upd ?_) | dsimp only | split)

theorem execReturn_keeps {s₀ : State} {f : ForgeId} {w : BitVec 128} {s : State} (hk : Keeps s₀ s) :
    RKeeps s₀ (execReturn f w s) := by
  unfold execReturn
  repeat' (first | with_reducible assumption | with_reducible intro _ | with_reducible refine onForge_keeps ?_ ?_ | with_reducible refine return_keeps ?_ | with_reducible refine RKeeps.next ?_ | (rw [State.mk_eq_of]; with_reducible refine Keeps.upd ?_) | with_reducible refine RKeeps.use (by assumption) ?_ | dsimp only | split)

theorem loop_keeps {s₀ : State} {f : ForgeId} {w : BitVec 128} {s : State} (hk : Keeps s₀ s) :
    Keeps s₀ (loop f w s) := by
  unfold loop
  repeat' (first | with_reducible assumption | with_reducible intro _ | with_reducible refine State.onStream_keeps ?_ ?_ | with_reducible refine State.modForge_keeps ?_ | (rw [State.mk_eq_of]; with_reducible refine Keeps.upd ?_) | dsimp only | split)

theorem execLoop_keeps {s₀ : State} {f : ForgeId} {w : BitVec 128} {s : State} (hk : Keeps s₀ s) :
    RKeeps s₀ (execLoop f w s) := by
  unfold execLoop
  repeat' (first | with_reducible assumption | with_reducible intro _ | with_reducible refine onForge_keeps ?_ ?_ | with_reducible refine loop_keeps ?_ | with_reducible refine RKeeps.next ?_ | (rw [State.mk_eq_of]; with_reducible refine Keeps.upd ?_) | with_reducible refine RKeeps.use (by assumption) ?_ | dsimp only | split)

theorem plinthFence_keeps {s₀ : State} {f : ForgeId} {w : BitVec 128} {s : State} (hk : Keeps s₀ s) :
    Keeps s₀ (plinthFence f w s) := by
  unfold plinthFence
  repeat' (first | with_reducible assumption | with_reducible intro _ | with_reducible refine State.onStream_keeps ?_ ?_ | with_reducible refine State.advance_keeps ?_ | (rw [State.mk_eq_of]; with_reducible refine Keeps.upd ?_) | dsimp only | split)

theorem execPlinthFence_keeps {s₀ : State} {f : ForgeId} {w : BitVec 128} {s : State} (hk : Keeps s₀ s) :
    RKeeps s₀ (execPlinthFence f w s) := by
  unfold execPlinthFence
  repeat' (first | with_reducible assumption | with_reducible intro _ | with_reducible refine onForge_keeps ?_ ?_ | with_reducible refine plinthFence_keeps ?_ | with_reducible refine RKeeps.next ?_ | (rw [State.mk_eq_of]; with_reducible refine Keeps.upd ?_) | with_reducible refine RKeeps.use (by assumption) ?_ | dsimp only | split)

theorem State.offerRun_keeps {s₀ s : State} {n : PlinthId} {fn : FnId} {f : ForgeId} {l : List (BitVec 256)} (h : Keeps s₀ s) :
    PKeeps s₀ (State.offerRun s n fn f l) := by
  induction l generalizing s with
  | nil => exact h
  | cons w ws ih =>
    unfold State.offerRun
    have ho := State.offer_keeps (n := n) (i := { word := w, fn, forge := some f, step := s.stepOf f }) (tongs := true) h
    split
    · next t e => exact ih (ho.1 t e)
    · next st t e => exact ho.2 st t e
    · exact h

theorem plinthRun_keeps {s₀ : State} {f : ForgeId} {w : BitVec 128} {s : State} (hk : Keeps s₀ s) :
    Keeps s₀ (plinthRun f w s) := by
  unfold plinthRun
  repeat' (first | with_reducible assumption | with_reducible intro _ | with_reducible refine State.onStream_keeps ?_ ?_ | with_reducible refine State.endStep_keeps ?_ | with_reducible refine State.offerRun_keeps ?_ | with_reducible refine State.advance_keeps ?_ | with_reducible refine State.modForge_keeps ?_ | (rw [State.mk_eq_of]; with_reducible refine Keeps.upd ?_) | with_reducible refine PKeeps.use (by assumption) ?_ | dsimp only | split)

theorem execPlinthRun_keeps {s₀ : State} {f : ForgeId} {w : BitVec 128} {s : State} (hk : Keeps s₀ s) :
    RKeeps s₀ (execPlinthRun f w s) := by
  unfold execPlinthRun
  repeat' (first | with_reducible assumption | with_reducible intro _ | with_reducible refine onForge_keeps ?_ ?_ | with_reducible refine plinthRun_keeps ?_ | with_reducible refine RKeeps.next ?_ | (rw [State.mk_eq_of]; with_reducible refine Keeps.upd ?_) | with_reducible refine RKeeps.use (by assumption) ?_ | dsimp only | split)

theorem execAnvilCfg_keeps {s₀ : State} {f : ForgeId} {w : BitVec 128} {s : State} (hk : Keeps s₀ s) :
    RKeeps s₀ (execAnvilCfg f w s) := by
  unfold execAnvilCfg
  repeat' (first | with_reducible assumption | with_reducible intro _ | with_reducible refine onForge_keeps ?_ ?_ | with_reducible refine anvilCfg_keeps ?_ | with_reducible refine RKeeps.next ?_ | (rw [State.mk_eq_of]; with_reducible refine Keeps.upd ?_) | with_reducible refine RKeeps.use (by assumption) ?_ | dsimp only | split)

theorem execAnvilMm_keeps {s₀ : State} {f : ForgeId} {w : BitVec 128} {s : State} (hk : Keeps s₀ s) :
    RKeeps s₀ (execAnvilMm f w s) := by
  unfold execAnvilMm
  repeat' (first | with_reducible assumption | with_reducible intro _ | with_reducible refine onForge_keeps ?_ ?_ | with_reducible refine anvilMm_keeps ?_ | with_reducible refine RKeeps.next ?_ | (rw [State.mk_eq_of]; with_reducible refine Keeps.upd ?_) | with_reducible refine RKeeps.use (by assumption) ?_ | dsimp only | split)

theorem execSwageCfg_keeps {s₀ : State} {f : ForgeId} {w : BitVec 128} {s : State} (hk : Keeps s₀ s) :
    RKeeps s₀ (execSwageCfg f w s) := by
  unfold execSwageCfg
  repeat' (first | with_reducible assumption | with_reducible intro _ | with_reducible refine onForge_keeps ?_ ?_ | with_reducible refine swageCfg_keeps ?_ | with_reducible refine RKeeps.next ?_ | (rw [State.mk_eq_of]; with_reducible refine Keeps.upd ?_) | with_reducible refine RKeeps.use (by assumption) ?_ | dsimp only | split)

theorem execSwageTable_keeps {s₀ : State} {f : ForgeId} {w : BitVec 128} {s : State} (hk : Keeps s₀ s) :
    RKeeps s₀ (execSwageTable f w s) := by
  unfold execSwageTable
  repeat' (first | with_reducible assumption | with_reducible intro _ | with_reducible refine onForge_keeps ?_ ?_ | with_reducible refine swageTable_keeps ?_ | with_reducible refine RKeeps.next ?_ | (rw [State.mk_eq_of]; with_reducible refine Keeps.upd ?_) | with_reducible refine RKeeps.use (by assumption) ?_ | dsimp only | split)

theorem execChiselOp_keeps {s₀ : State} {f : ForgeId} {w : BitVec 128} {stages : List (BitVec 128)} {s : State} (hk : Keeps s₀ s) :
    RKeeps s₀ (execChiselOp f w stages s) := by
  unfold execChiselOp
  repeat' (first | with_reducible assumption | with_reducible intro _ | with_reducible refine onForge_keeps ?_ ?_ | with_reducible refine chiselOp_keeps ?_ | with_reducible refine RKeeps.next ?_ | (rw [State.mk_eq_of]; with_reducible refine Keeps.upd ?_) | with_reducible refine RKeeps.use (by assumption) ?_ | dsimp only | split)

theorem execChiselTreg_keeps {s₀ : State} {f : ForgeId} {w : BitVec 128} {s : State} (hk : Keeps s₀ s) :
    RKeeps s₀ (execChiselTreg f w s) := by
  unfold execChiselTreg
  repeat' (first | with_reducible assumption | with_reducible intro _ | with_reducible refine onForge_keeps ?_ ?_ | with_reducible refine chiselTreg_keeps ?_ | with_reducible refine RKeeps.next ?_ | (rw [State.mk_eq_of]; with_reducible refine Keeps.upd ?_) | with_reducible refine RKeeps.use (by assumption) ?_ | dsimp only | split)

theorem execChiselTable_keeps {s₀ : State} {f : ForgeId} {w : BitVec 128} {s : State} (hk : Keeps s₀ s) :
    RKeeps s₀ (execChiselTable f w s) := by
  unfold execChiselTable
  repeat' (first | with_reducible assumption | with_reducible intro _ | with_reducible refine onForge_keeps ?_ ?_ | with_reducible refine chiselTable_keeps ?_ | with_reducible refine RKeeps.next ?_ | (rw [State.mk_eq_of]; with_reducible refine Keeps.upd ?_) | with_reducible refine RKeeps.use (by assumption) ?_ | dsimp only | split)

theorem execCrucCfg_keeps {s₀ : State} {f : ForgeId} {w : BitVec 128} {s : State} (hk : Keeps s₀ s) :
    RKeeps s₀ (execCrucCfg f w s) := by
  unfold execCrucCfg
  repeat' (first | with_reducible assumption | with_reducible intro _ | with_reducible refine onForge_keeps ?_ ?_ | with_reducible refine crucCfg_keeps ?_ | with_reducible refine RKeeps.next ?_ | (rw [State.mk_eq_of]; with_reducible refine Keeps.upd ?_) | with_reducible refine RKeeps.use (by assumption) ?_ | dsimp only | split)

theorem execCrucAttn_keeps {s₀ : State} {f : ForgeId} {w : BitVec 128} {env : Lines} {s : State} (hk : Keeps s₀ s) :
    RKeeps s₀ (execCrucAttn f w env s) := by
  unfold execCrucAttn
  repeat' (first | with_reducible assumption | with_reducible intro _ | with_reducible refine onForge_keeps ?_ ?_ | with_reducible refine crucAttn_keeps ?_ | with_reducible refine RKeeps.next ?_ | (rw [State.mk_eq_of]; with_reducible refine Keeps.upd ?_) | with_reducible refine RKeeps.use (by assumption) ?_ | dsimp only | split)

theorem execCrucAppend_keeps {s₀ : State} {f : ForgeId} {w : BitVec 128} {s : State} (hk : Keeps s₀ s) :
    RKeeps s₀ (execCrucAppend f w s) := by
  unfold execCrucAppend
  repeat' (first | with_reducible assumption | with_reducible intro _ | with_reducible refine onForge_keeps ?_ ?_ | with_reducible refine crucAppend_keeps ?_ | with_reducible refine RKeeps.next ?_ | (rw [State.mk_eq_of]; with_reducible refine Keeps.upd ?_) | with_reducible refine RKeeps.use (by assumption) ?_ | dsimp only | split)

theorem execPressScan_keeps {s₀ : State} {f : ForgeId} {w : BitVec 128} {s : State} (hk : Keeps s₀ s) :
    RKeeps s₀ (execPressScan f w s) := by
  unfold execPressScan
  repeat' (first | with_reducible assumption | with_reducible intro _ | with_reducible refine onForge_keeps ?_ ?_ | with_reducible refine pressScan_keeps ?_ | with_reducible refine RKeeps.next ?_ | (rw [State.mk_eq_of]; with_reducible refine Keeps.upd ?_) | with_reducible refine RKeeps.use (by assumption) ?_ | dsimp only | split)

theorem execPressEncode_keeps {s₀ : State} {f : ForgeId} {w : BitVec 128} {s : State} (hk : Keeps s₀ s) :
    RKeeps s₀ (execPressEncode f w s) := by
  unfold execPressEncode
  repeat' (first | with_reducible assumption | with_reducible intro _ | with_reducible refine onForge_keeps ?_ ?_ | with_reducible refine pressEncode_keeps ?_ | with_reducible refine RKeeps.next ?_ | (rw [State.mk_eq_of]; with_reducible refine Keeps.upd ?_) | with_reducible refine RKeeps.use (by assumption) ?_ | dsimp only | split)

theorem execPressTableOut_keeps {s₀ : State} {f : ForgeId} {w : BitVec 128} {s : State} (hk : Keeps s₀ s) :
    RKeeps s₀ (execPressTableOut f w s) := by
  unfold execPressTableOut
  repeat' (first | with_reducible assumption | with_reducible intro _ | with_reducible refine onForge_keeps ?_ ?_ | with_reducible refine pressTableOut_keeps ?_ | with_reducible refine RKeeps.next ?_ | (rw [State.mk_eq_of]; with_reducible refine Keeps.upd ?_) | with_reducible refine RKeeps.use (by assumption) ?_ | dsimp only | split)

theorem execTongsRun_keeps {s₀ : State} {f : ForgeId} {w : BitVec 128} {s : State} (hk : Keeps s₀ s) :
    RKeeps s₀ (execTongsRun f w s) := by
  unfold execTongsRun
  repeat' (first | with_reducible assumption | with_reducible intro _ | with_reducible refine onForge_keeps ?_ ?_ | with_reducible refine tongsRun_keeps ?_ | with_reducible refine RKeeps.next ?_ | (rw [State.mk_eq_of]; with_reducible refine Keeps.upd ?_) | with_reducible refine RKeeps.use (by assumption) ?_ | dsimp only | split)

theorem execTongsWait_keeps {s₀ : State} {f : ForgeId} {w : BitVec 128} {s : State} (hk : Keeps s₀ s) :
    RKeeps s₀ (execTongsWait f w s) := by
  unfold execTongsWait
  repeat' (first | with_reducible assumption | with_reducible intro _ | with_reducible refine onForge_keeps ?_ ?_ | with_reducible refine tongsWait_keeps ?_ | with_reducible refine RKeeps.next ?_ | (rw [State.mk_eq_of]; with_reducible refine Keeps.upd ?_) | with_reducible refine RKeeps.use (by assumption) ?_ | dsimp only | split)

theorem execTongsStop_keeps {s₀ : State} {f : ForgeId} {w : BitVec 128} {s : State} (hk : Keeps s₀ s) :
    RKeeps s₀ (execTongsStop f w s) := by
  unfold execTongsStop
  repeat' (first | with_reducible assumption | with_reducible intro _ | with_reducible refine onForge_keeps ?_ ?_ | with_reducible refine tongsStop_keeps ?_ | with_reducible refine RKeeps.next ?_ | (rw [State.mk_eq_of]; with_reducible refine Keeps.upd ?_) | with_reducible refine RKeeps.use (by assumption) ?_ | dsimp only | split)

theorem execCopy_keeps {s₀ : State} {f : ForgeId} {c : TongsId} {env : Lines} {s : State} (hk : Keeps s₀ s) :
    RKeeps s₀ (execCopy f c env s) := by
  unfold execCopy
  repeat' (first | with_reducible assumption | with_reducible intro _ | with_reducible refine onForge_keeps ?_ ?_ | with_reducible refine copy_keeps ?_ | with_reducible refine RKeeps.next ?_ | (rw [State.mk_eq_of]; with_reducible refine Keeps.upd ?_) | with_reducible refine RKeeps.use (by assumption) ?_ | dsimp only | split)

theorem execFill_keeps {s₀ : State} {f : ForgeId} {c : TongsId} {s : State} (hk : Keeps s₀ s) :
    RKeeps s₀ (execFill f c s) := by
  unfold execFill
  repeat' (first | with_reducible assumption | with_reducible intro _ | with_reducible refine onForge_keeps ?_ ?_ | with_reducible refine fill_keeps ?_ | with_reducible refine RKeeps.next ?_ | (rw [State.mk_eq_of]; with_reducible refine Keeps.upd ?_) | with_reducible refine RKeeps.use (by assumption) ?_ | dsimp only | split)

theorem execCompare_keeps {s₀ : State} {f : ForgeId} {c : TongsId} {env : Lines} {s : State} (hk : Keeps s₀ s) :
    RKeeps s₀ (execCompare f c env s) := by
  unfold execCompare
  repeat' (first | with_reducible assumption | with_reducible intro _ | with_reducible refine onForge_keeps ?_ ?_ | with_reducible refine compare_keeps ?_ | with_reducible refine RKeeps.next ?_ | (rw [State.mk_eq_of]; with_reducible refine Keeps.upd ?_) | with_reducible refine RKeeps.use (by assumption) ?_ | dsimp only | split)

theorem execFlush_keeps {s₀ : State} {f : ForgeId} {c : TongsId} {s : State} (hk : Keeps s₀ s) :
    RKeeps s₀ (execFlush f c s) := by
  unfold execFlush
  repeat' (first | with_reducible assumption | with_reducible intro _ | with_reducible refine onForge_keeps ?_ ?_ | with_reducible refine flush_keeps ?_ | with_reducible refine RKeeps.next ?_ | (rw [State.mk_eq_of]; with_reducible refine Keeps.upd ?_) | with_reducible refine RKeeps.use (by assumption) ?_ | dsimp only | split)

theorem execAtomic_keeps {s₀ : State} {f : ForgeId} {c : TongsId} {env : Lines} {s : State} (hk : Keeps s₀ s) :
    RKeeps s₀ (execAtomic f c env s) := by
  unfold execAtomic
  repeat' (first | with_reducible assumption | with_reducible intro _ | with_reducible refine onForge_keeps ?_ ?_ | with_reducible refine atomic_keeps ?_ | with_reducible refine RKeeps.next ?_ | (rw [State.mk_eq_of]; with_reducible refine Keeps.upd ?_) | with_reducible refine RKeeps.use (by assumption) ?_ | dsimp only | split)

theorem execTongsDescComplete_keeps {s₀ : State} {f : ForgeId} {c : TongsId} {s : State} (hk : Keeps s₀ s) :
    RKeeps s₀ (execTongsDescComplete f c s) := by
  unfold execTongsDescComplete
  repeat' (first | with_reducible assumption | with_reducible intro _ | with_reducible refine onForge_keeps ?_ ?_ | with_reducible refine tongsDescComplete_keeps ?_ | with_reducible refine RKeeps.next ?_ | (rw [State.mk_eq_of]; with_reducible refine Keeps.upd ?_) | with_reducible refine RKeeps.use (by assumption) ?_ | dsimp only | split)

end Sys2Proof.Machine
end

