-- ==== Sys2Proof/Laws/KeepsRangeCmd.lean ====
section
/-! SUPPORT. The operations of Machine/RangeCmd.lean keep what `Keeps` says. -/

set_option linter.unusedTactic false
set_option linter.unreachableTactic false

namespace Sys2Proof.Machine

theorem State.mapSpan_keeps {s₀ : State} {s : State} {fn : FnId} {role : Role} {homeT2 : Bool} {model : Option (Fin 16)} {num : ℕ} (hk : Keeps s₀ s) :
    OKeeps s₀ (State.mapSpan s fn role homeT2 model num) := by
  unfold State.mapSpan
  repeat' (first | with_reducible assumption | with_reducible intro _ | with_reducible refine State.modFn_keeps ?_ | with_reducible refine State.allocT1_keeps ?_ | with_reducible refine State.allocT2_keeps ?_ | with_reducible refine OKeeps.none | with_reducible refine OKeeps.some ?_ | (rw [State.mk_eq_of]; with_reducible refine Keeps.upd ?_) | with_reducible refine OKeeps.bind ?_ ?_ | with_reducible refine OKeeps.bindOf ?_ | with_reducible refine OKeeps.use (by assumption) ?_ | dsimp only | split)

theorem State.mapSpans_keeps {s₀ : State} {s : State} {fn : FnId} {role : Role} {homeT2 : Bool} {model : Option (Fin 16)} {first : ℕ} {n : ℕ} (hk : Keeps s₀ s) :
    EKeeps s₀ (State.mapSpans s fn role homeT2 model first n) := by
  unfold State.mapSpans
  repeat' (first | with_reducible assumption | with_reducible intro _ | with_reducible refine State.mapSpan_keeps ?_ | with_reducible refine State.fixIndexes_keeps ?_ | with_reducible refine EKeeps.ok ?_ | with_reducible refine EKeeps.error | with_reducible refine OKeeps.none | with_reducible refine OKeeps.some ?_ | (rw [State.mk_eq_of]; with_reducible refine Keeps.upd ?_) | with_reducible refine Keeps.foldl ?_ ?_ | with_reducible refine OKeeps.foldl ?_ ?_ | with_reducible refine OKeeps.bind ?_ ?_ | with_reducible refine OKeeps.bindOf ?_ | with_reducible refine EKeeps.bind ?_ ?_ | with_reducible refine OKeeps.map ?_ ?_ | with_reducible refine EKeeps.map ?_ ?_ | with_reducible refine OKeeps.mapQ ?_ ?_ | with_reducible refine OKeeps.mapOf ?_ | with_reducible refine EKeeps.mapError ?_ | with_reducible refine EKeeps.use (by assumption) ?_ | with_reducible refine OKeeps.use (by assumption) ?_ | dsimp only | split)

theorem State.mapModel_keeps {s₀ : State} {s : State} {fn : FnId} {id : BitVec 64} {homeT2 : Bool} {first : ℕ} {n : ℕ} (hk : Keeps s₀ s) :
    EKeeps s₀ (State.mapModel s fn id homeT2 first n) := by
  unfold State.mapModel
  repeat' (first | with_reducible assumption | with_reducible intro _ | with_reducible refine State.modFn_keeps ?_ | with_reducible refine State.fixIndexes_keeps ?_ | with_reducible refine State.drbg_keeps ?_ | with_reducible refine State.mapSpans_keeps ?_ | with_reducible refine EKeeps.ok ?_ | with_reducible refine EKeeps.error | with_reducible refine OKeeps.none | with_reducible refine OKeeps.some ?_ | (rw [State.mk_eq_of]; with_reducible refine Keeps.upd ?_) | with_reducible refine OKeeps.map ?_ ?_ | with_reducible refine EKeeps.map ?_ ?_ | with_reducible refine OKeeps.mapQ ?_ ?_ | with_reducible refine OKeeps.mapOf ?_ | with_reducible refine EKeeps.mapError ?_ | with_reducible refine EKeeps.use (by assumption) ?_ | with_reducible refine OKeeps.use (by assumption) ?_ | with_reducible refine QKeeps.use (by assumption) ?_ | dsimp only | split)

theorem rangeMap_keeps {s₀ : State} {k : Cmd} {s : State} (hk : Keeps s₀ s) :
    Keeps s₀ (rangeMap k s) := by
  unfold rangeMap
  repeat' (first | with_reducible assumption | with_reducible intro _ | with_reducible refine checked_keeps ?_ ?_ | with_reducible refine inHeat_keeps ?_ ?_ | with_reducible refine State.mapModel_keeps ?_ | with_reducible refine State.mapSpans_keeps ?_ | with_reducible refine EKeeps.ok ?_ | with_reducible refine EKeeps.error | with_reducible refine EPKeeps.ok ?_ | with_reducible refine EPKeeps.error | (rw [State.mk_eq_of]; with_reducible refine Keeps.upd ?_) | with_reducible refine EKeeps.map ?_ ?_ | with_reducible refine EKeeps.mapError ?_ | with_reducible refine EPKeeps.map ?_ ?_ | with_reducible refine EPKeeps.mapE ?_ ?_ | with_reducible refine EKeeps.use (by assumption) ?_ | with_reducible refine EPKeeps.use (by assumption) ?_ | with_reducible refine EPKeeps.use' (by assumption) ?_ | dsimp only | split)

theorem execRangeMap_keeps {s₀ : State} {k : Cmd} {s : State} (hk : Keeps s₀ s) :
    RKeeps s₀ (execRangeMap k s) := by
  unfold execRangeMap
  repeat' (first | with_reducible assumption | with_reducible intro _ | with_reducible refine hostCmd_keeps ?_ ?_ | with_reducible refine rangeMap_keeps ?_ | with_reducible refine RKeeps.next ?_ | (rw [State.mk_eq_of]; with_reducible refine Keeps.upd ?_) | with_reducible refine RKeeps.use (by assumption) ?_ | dsimp only | split)

theorem State.reopenPage_keeps {s₀ : State} {s : State} {g : FnId} {num : ℕ} (hk : Keeps s₀ s) :
    OKeeps s₀ (State.reopenPage s g num) := by
  unfold State.reopenPage
  repeat' (first | with_reducible assumption | with_reducible intro _ | with_reducible refine State.fixStaging_keeps ?_ | with_reducible refine State.fixFrames_keeps ?_ | with_reducible refine State.modPage_keeps ?_ | with_reducible refine State.takeT1_keeps ?_ | with_reducible refine OKeeps.none | with_reducible refine OKeeps.some ?_ | (rw [State.mk_eq_of]; with_reducible refine Keeps.upd ?_) | with_reducible refine OKeeps.map ?_ ?_ | with_reducible refine OKeeps.mapQ ?_ ?_ | with_reducible refine OKeeps.mapOf ?_ | with_reducible refine OKeeps.use (by assumption) ?_ | dsimp only | split)

theorem State.unmapSpans_keeps {s₀ s : State} {fn : FnId} {first n : Nat} (h : Keeps s₀ s) :
    OKeeps s₀ (State.unmapSpans s fn first n) := by
  unfold State.unmapSpans
  extract_lets +onlyGivenNames inside spans kv s1 own s2 keepCache s3 s4 o
  have h1 : Keeps s₀ s1 := Keeps.foldl h fun x i hx => by
    split
    · exact Keeps.ite (fun _ => State.foldHeat_keeps hx) fun _ => hx
    · exact hx
  clear_value s1
  have h2 : Keeps s₀ s2 := Keeps.foldl h1 fun x m hx => State.dropModel_keeps hx
  clear_value s2
  have h4 : Keeps s₀ s4 := State.fixStaging_keeps (State.modFn_keeps (h2.trans
    ⟨fun hs => Memory.wf_clear (Memory.wf_clear hs _ _) _ _, id, fun hs => frames_filter _ hs, fun hs => frames_filter _ hs, rfl, le_refl _⟩))
  clear_value s4
  have ho : OKeeps s₀ o := OKeeps.ite (fun _ => State.fixIndexes_keeps h4) fun _ => OKeeps.some h4
  clear_value o
  refine OKeeps.ite (fun _ => OKeeps.bind ho fun x hx => ?_) fun _ => ho
  exact OKeeps.foldl (OKeeps.some (State.modFn_keeps hx)) fun y m hy => OKeeps.bind hy fun z hz => State.reopenPage_keeps hz

theorem rangeUnmap_keeps {s₀ : State} {k : Cmd} {s : State} (hk : Keeps s₀ s) :
    Keeps s₀ (rangeUnmap k s) := by
  unfold rangeUnmap
  repeat' (first | with_reducible assumption | with_reducible intro _ | with_reducible refine checked_keeps ?_ ?_ | with_reducible refine inHeat_keeps ?_ ?_ | with_reducible refine State.unmapSpans_keeps ?_ | with_reducible refine EPKeeps.ok ?_ | with_reducible refine EPKeeps.error | with_reducible refine OKeeps.none | with_reducible refine OKeeps.some ?_ | (rw [State.mk_eq_of]; with_reducible refine Keeps.upd ?_) | with_reducible refine EPKeeps.use (by assumption) ?_ | with_reducible refine EPKeeps.use' (by assumption) ?_ | with_reducible refine OKeeps.use (by assumption) ?_ | dsimp only | split)

theorem execRangeUnmap_keeps {s₀ : State} {k : Cmd} {s : State} (hk : Keeps s₀ s) :
    RKeeps s₀ (execRangeUnmap k s) := by
  unfold execRangeUnmap
  repeat' (first | with_reducible assumption | with_reducible intro _ | with_reducible refine hostCmd_keeps ?_ ?_ | with_reducible refine rangeUnmap_keeps ?_ | with_reducible refine RKeeps.next ?_ | (rw [State.mk_eq_of]; with_reducible refine Keeps.upd ?_) | with_reducible refine RKeeps.use (by assumption) ?_ | dsimp only | split)

theorem State.sealPage_keeps {s₀ : State} {s : State} {fn : FnId} {slot : Fin 32} {num : ℕ} (hk : Keeps s₀ s) :
    EKeeps s₀ (State.sealPage s fn slot num) := by
  unfold State.sealPage
  repeat' (first | with_reducible assumption | with_reducible intro _ | with_reducible refine State.countsAs_keeps ?_ ?_ | with_reducible refine State.heatWrite_keeps ?_ | with_reducible refine State.edit_keeps ?_ | with_reducible refine EKeeps.ok ?_ | with_reducible refine EKeeps.error | (rw [State.mk_eq_of]; with_reducible refine Keeps.upd ?_) | with_reducible refine EKeeps.map ?_ ?_ | with_reducible refine EKeeps.mapError ?_ | with_reducible refine EKeeps.use (by assumption) ?_ | dsimp only | split)

theorem State.refetchBillet_keeps {s₀ s : State} {x : Model} {off : Nat} {hdr stored : List Byte} (h : Keeps s₀ s) :
    EKeeps s₀ (State.refetchBillet s x off hdr stored) := by
  unfold State.refetchBillet
  extract_lets +onlyGivenNames hd mb i g a
  clear_value mb i a
  refine EKeeps.ite (fun _ => EKeeps.error) fun _ => ?_
  extract_lets +onlyGivenNames s1 room
  have h1 : Keeps s₀ s1 := h.trans ⟨fun hs => Memory.wf_write (Memory.wf_write hs _ _) _ _, id, id, id, rfl, le_refl _⟩
  have hr : OPKeeps s₀ room := by
    change OPKeeps s₀ (match s1.fns[g].page? (a / 65536) with | some p => _ | none => _)
    clear_value s1
    split
    · exact fun t b e => by
        split at e
        · cases e; exact h1
        · exact State.t1Room_keeps h1 t b e
    · exact OPKeeps.none
  clear_value s1 room
  split
  · exact EKeeps.error
  · next t place staged =>
    have ht : Keeps s₀ t := hr t (place, staged) rfl
    split
    next now v e =>
    exact EKeeps.ok (State.queueMoves_keeps (State.access_keeps (State.modPage_keeps (QKeeps.use e (State.stamp_keeps ht)))))

theorem State.loadBillet_load_keeps {s₀ s : State} {fn : FnId} {slot : Fin 32} {a : Nat} {hdr stored : List Byte} {sealIt : Bool}
    {g : FnId} {p : Page} (h : Keeps s₀ s) : EKeeps s₀ (State.loadBillet.load fn slot a hdr stored sealIt g p s) := by
  unfold State.loadBillet.load
  refine EKeeps.ite (fun _ => EKeeps.error) fun _ => ?_
  split
  · exact EKeeps.error
  · next t e =>
    have ht : Keeps s₀ t := OKeeps.use e (State.takeT1_keeps h)
    split
    · exact EKeeps.error
    · next v e' =>
      have hv : Keeps s₀ v := EKeeps.use e' (State.countsAs_keeps ht fun x hx =>
        EKeeps.bind (State.heatWrite_keeps hx) fun y hy => State.heatWrite_keeps hy)
      exact EKeeps.ite (fun _ => State.sealPage_keeps (State.modPage_keeps hv)) fun _ => EKeeps.ok (State.modPage_keeps hv)

theorem State.loadBillet_keeps {s₀ s : State} {fn : FnId} {slot : Fin 32} {a : Nat} {hdr stored : List Byte} {sealIt : Bool}
    (h : Keeps s₀ s) : EKeeps s₀ (State.loadBillet s fn slot a hdr stored sealIt) := by
  unfold State.loadBillet
  split
  · exact EKeeps.error
  · split
    · split
      · exact EKeeps.ite (fun _ => EKeeps.bind (State.act_keeps h) fun _ hx => State.refetchBillet_keeps hx)
          fun _ => State.loadBillet_load_keeps h
      · exact State.loadBillet_load_keeps h
    · exact State.loadBillet_load_keeps h

theorem State.loadPayload_keeps {s₀ s : State} {fn : FnId} {slot : Fin 32} {sealIt : Bool} {n a : Nat} {pl : List Byte}
    (h : Keeps s₀ s) : EKeeps s₀ (State.loadPayload s fn slot sealIt n a pl) := by
  induction n generalizing s a pl with
  | zero => exact EKeeps.ite (fun _ => EKeeps.ok h) fun _ => EKeeps.error
  | succ n ih =>
    unfold State.loadPayload
    extract_lets +onlyGivenNames hdr num
    clear_value hdr num
    refine EKeeps.ite (fun _ => EKeeps.error) fun _ => EKeeps.ite (fun _ => EKeeps.error) fun _ => ?_
    extract_lets +onlyGivenNames len body
    clear_value len body
    refine EKeeps.ite (fun _ => EKeeps.error) fun _ => ?_
    split
    · exact EKeeps.error
    · next t e => exact ih (State.loadBillet_keeps h t e)

theorem loadBillets_keeps {s₀ : State} {k : Cmd} {s : State} (hk : Keeps s₀ s) :
    Keeps s₀ (loadBillets k s) := by
  unfold loadBillets
  repeat' (first | with_reducible assumption | with_reducible intro _ | with_reducible refine checked_keeps ?_ ?_ | with_reducible refine inHeat_keeps ?_ ?_ | with_reducible refine State.loadPayload_keeps ?_ | with_reducible refine EKeeps.ok ?_ | with_reducible refine EKeeps.error | with_reducible refine EPKeeps.ok ?_ | with_reducible refine EPKeeps.error | (rw [State.mk_eq_of]; with_reducible refine Keeps.upd ?_) | with_reducible refine EKeeps.map ?_ ?_ | with_reducible refine EKeeps.mapError ?_ | with_reducible refine EPKeeps.map ?_ ?_ | with_reducible refine EPKeeps.mapE ?_ ?_ | with_reducible refine EKeeps.use (by assumption) ?_ | with_reducible refine EPKeeps.use (by assumption) ?_ | with_reducible refine EPKeeps.use' (by assumption) ?_ | dsimp only | split)

theorem execLoadBillets_keeps {s₀ : State} {k : Cmd} {s : State} (hk : Keeps s₀ s) :
    RKeeps s₀ (execLoadBillets k s) := by
  unfold execLoadBillets
  repeat' (first | with_reducible assumption | with_reducible intro _ | with_reducible refine hostCmd_keeps ?_ ?_ | with_reducible refine loadBillets_keeps ?_ | with_reducible refine State.pumpFn_keeps ?_ | with_reducible refine RKeeps.next ?_ | (rw [State.mk_eq_of]; with_reducible refine Keeps.upd ?_) | with_reducible refine RKeeps.use (by assumption) ?_ | dsimp only | split)

theorem State.sealAll_keeps {s₀ : State} {s : State} {fn : FnId} {slot : Fin 32} {nums : List ℕ} (hk : Keeps s₀ s) :
    EKeeps s₀ (State.sealAll s fn slot nums) := by
  unfold State.sealAll
  repeat' (first | with_reducible assumption | with_reducible intro _ | with_reducible refine State.sealPage_keeps ?_ | with_reducible refine EKeeps.ok ?_ | with_reducible refine EKeeps.error | (rw [State.mk_eq_of]; with_reducible refine Keeps.upd ?_) | with_reducible refine EKeeps.foldE ?_ ?_ | with_reducible refine EKeeps.use (by assumption) ?_ | dsimp only | split)

theorem sealPages_keeps {s₀ : State} {k : Cmd} {s : State} (hk : Keeps s₀ s) :
    Keeps s₀ (sealPages k s) := by
  unfold sealPages
  repeat' (first | with_reducible assumption | with_reducible intro _ | with_reducible refine checked_keeps ?_ ?_ | with_reducible refine inHeat_keeps ?_ ?_ | with_reducible refine State.sealAll_keeps ?_ | with_reducible refine EKeeps.ok ?_ | with_reducible refine EKeeps.error | with_reducible refine EPKeeps.ok ?_ | with_reducible refine EPKeeps.error | (rw [State.mk_eq_of]; with_reducible refine Keeps.upd ?_) | with_reducible refine EKeeps.map ?_ ?_ | with_reducible refine EKeeps.mapError ?_ | with_reducible refine EPKeeps.map ?_ ?_ | with_reducible refine EPKeeps.mapE ?_ ?_ | with_reducible refine EKeeps.use (by assumption) ?_ | with_reducible refine EPKeeps.use (by assumption) ?_ | with_reducible refine EPKeeps.use' (by assumption) ?_ | dsimp only | split)

theorem execSealPages_keeps {s₀ : State} {k : Cmd} {s : State} (hk : Keeps s₀ s) :
    RKeeps s₀ (execSealPages k s) := by
  unfold execSealPages
  repeat' (first | with_reducible assumption | with_reducible intro _ | with_reducible refine hostCmd_keeps ?_ ?_ | with_reducible refine sealPages_keeps ?_ | with_reducible refine RKeeps.next ?_ | (rw [State.mk_eq_of]; with_reducible refine Keeps.upd ?_) | with_reducible refine RKeeps.use (by assumption) ?_ | dsimp only | split)

theorem State.startRead_keeps {s₀ : State} {s : State} {k : Cmd} {a : ℕ} {n : ℕ} (hk : Keeps s₀ s) :
    Keeps s₀ (State.startRead s k a n) := by
  unfold State.startRead
  repeat' (first | with_reducible assumption | with_reducible intro _ | with_reducible refine State.modFn_keeps ?_ | (rw [State.mk_eq_of]; with_reducible refine Keeps.upd ?_) | dsimp only | split)

theorem State.afterRead_keeps {s₀ : State} {s : State} {fn : FnId} {a : ℕ} {n : ℕ} (hk : Keeps s₀ s) :
    Keeps s₀ (State.afterRead s fn a n) := by
  unfold State.afterRead
  repeat' (first | with_reducible assumption | with_reducible intro _ | with_reducible refine State.modFn_keeps ?_ | with_reducible refine State.fixFrames_keeps ?_ | (rw [State.mk_eq_of]; with_reducible refine Keeps.upd ?_) | with_reducible refine Keeps.foldl ?_ ?_ | dsimp only | split)

theorem readOut_keeps {s₀ : State} {k : Cmd} {s : State} (hk : Keeps s₀ s) :
    Keeps s₀ (readOut k s) := by
  unfold readOut
  repeat' (first | with_reducible assumption | with_reducible intro _ | with_reducible refine checked_keeps ?_ ?_ | with_reducible refine State.finish_keeps ?_ | with_reducible refine State.meet_keeps ?_ | with_reducible refine State.startRead_keeps ?_ | with_reducible refine State.afterRead_keeps ?_ | with_reducible refine inHeat_keeps ?_ ?_ | with_reducible refine EPKeeps.ok ?_ | with_reducible refine EPKeeps.error | (rw [State.mk_eq_of]; with_reducible refine Keeps.upd ?_) | with_reducible refine EPKeeps.map ?_ ?_ | with_reducible refine EPKeeps.mapE ?_ ?_ | with_reducible refine EPKeeps.use (by assumption) ?_ | with_reducible refine EPKeeps.use' (by assumption) ?_ | with_reducible refine PKeeps.use (by assumption) ?_ | dsimp only | split)

theorem execReadOut_keeps {s₀ : State} {k : Cmd} {s : State} (hk : Keeps s₀ s) :
    RKeeps s₀ (execReadOut k s) := by
  unfold execReadOut
  repeat' (first | with_reducible assumption | with_reducible intro _ | with_reducible refine hostCmd_keeps ?_ ?_ | with_reducible refine readOut_keeps ?_ | with_reducible refine RKeeps.next ?_ | (rw [State.mk_eq_of]; with_reducible refine Keeps.upd ?_) | with_reducible refine RKeeps.use (by assumption) ?_ | dsimp only | split)

theorem State.hintSeq_keeps {s₀ : State} {s : State} {fn : FnId} {slot : Fin 32} {action : ℕ} {h : ℕ} {first : ℕ} {count : ℕ} {l0 : ℕ} {ln : ℕ} (hk : Keeps s₀ s) :
    EPKeeps s₀ (State.hintSeq s fn slot action h first count l0 ln) := by
  unfold State.hintSeq
  repeat' (first | with_reducible assumption | with_reducible intro _ | with_reducible refine State.edit_keeps ?_ | with_reducible refine State.sealPage_keeps ?_ | with_reducible refine EKeeps.ok ?_ | with_reducible refine EKeeps.error | with_reducible refine EPKeeps.ok ?_ | with_reducible refine EPKeeps.error | (rw [State.mk_eq_of]; with_reducible refine Keeps.upd ?_) | with_reducible refine EKeeps.foldE ?_ ?_ | with_reducible refine EPKeeps.foldE ?_ ?_ | with_reducible refine EKeeps.map ?_ ?_ | with_reducible refine EKeeps.mapError ?_ | with_reducible refine EPKeeps.map ?_ ?_ | with_reducible refine EPKeeps.mapE ?_ ?_ | with_reducible refine EKeeps.use (by assumption) ?_ | with_reducible refine EPKeeps.use (by assumption) ?_ | with_reducible refine EPKeeps.use' (by assumption) ?_ | dsimp only | split)

theorem State.replaceT2_keeps {s₀ s : State} {use : FrameUse} {scans : Bool} {old : Nat} (h : Keeps s₀ s) :
    OKeeps s₀ (State.replaceT2 s use scans old) := by
  unfold State.replaceT2
  extract_lets +onlyGivenNames s1
  have h1 : Keeps s₀ s1 := State.freeT2_keeps h
  clear_value s1
  refine OKeeps.ite (fun _ => State.allocT2One_keeps h1) fun _ => ?_
  extract_lets +onlyGivenNames used
  intro t e
  obtain ⟨n, hn, rfl⟩ := Option.map_eq_some_iff.1 e
  have hu : n ∉ s1.t2.map (·.num) := by
    have := List.find?_some hn
    simp only [used, Bool.and_eq_true, Bool.not_eq_true', List.contains_eq_mem, decide_eq_false_iff_not] at this
    exact this.2
  exact h1.trans ⟨id, id, id, fun hs => frames_insert hu hs, rfl, le_refl _⟩

theorem State.needT2_keeps {s₀ : State} {s : State} {x : HintPage} (hk : Keeps s₀ s) :
    OKeeps s₀ (State.needT2 s x) := by
  unfold State.needT2
  repeat' (first | with_reducible assumption | with_reducible intro _ | with_reducible refine State.replaceT2_keeps ?_ | with_reducible refine State.allocT2_keeps ?_ | with_reducible refine OKeeps.none | with_reducible refine OKeeps.some ?_ | (rw [State.mk_eq_of]; with_reducible refine Keeps.upd ?_) | with_reducible refine OKeeps.use (by assumption) ?_ | dsimp only | split)

theorem State.hintPage_keeps {s₀ : State} {s : State} {fn : FnId} {action : ℕ} {x : HintPage} (hk : Keeps s₀ s) :
    OKeeps s₀ (State.hintPage s fn action x) := by
  unfold State.hintPage
  repeat' (first | with_reducible assumption | with_reducible intro _ | with_reducible refine State.modPage_keeps ?_ | with_reducible refine State.needT2_keeps ?_ | with_reducible refine State.takeT1_keeps ?_ | with_reducible refine OKeeps.none | with_reducible refine OKeeps.some ?_ | (rw [State.mk_eq_of]; with_reducible refine Keeps.upd ?_) | with_reducible refine OKeeps.map ?_ ?_ | with_reducible refine OKeeps.mapQ ?_ ?_ | with_reducible refine OKeeps.mapOf ?_ | with_reducible refine OKeeps.use (by assumption) ?_ | dsimp only | split)

theorem State.fixHinted_keeps {s₀ : State} {s : State} {l : List HintPage} (hk : Keeps s₀ s) :
    Keeps s₀ (State.fixHinted s l) := by
  unfold State.fixHinted
  repeat' (first | with_reducible assumption | with_reducible intro _ | with_reducible refine State.fixStaging_keeps ?_ | with_reducible refine State.fixFrames_keeps ?_ | (rw [State.mk_eq_of]; with_reducible refine Keeps.upd ?_) | with_reducible refine Keeps.foldl ?_ ?_ | dsimp only | split)

theorem State.afterHint_keeps {s₀ : State} {s : State} {fn : FnId} (hk : Keeps s₀ s) :
    Keeps s₀ (State.afterHint s fn) := by
  unfold State.afterHint
  repeat' (first | with_reducible assumption | with_reducible intro _ | with_reducible refine State.fixHinted_keeps ?_ | (rw [State.mk_eq_of]; with_reducible refine Keeps.upd ?_) | with_reducible refine Keeps.foldl ?_ ?_ | dsimp only | split)

theorem State.hintNamed_keeps {s₀ : State} {s : State} {k : Cmd} {slot : Fin 32} (hk : Keeps s₀ s) :
    EPKeeps s₀ (State.hintNamed s k slot) := by
  unfold State.hintNamed
  repeat' (first | with_reducible assumption | with_reducible intro _ | with_reducible refine State.hintSeq_keeps ?_ | with_reducible refine EPKeeps.ok ?_ | with_reducible refine EPKeeps.error | (rw [State.mk_eq_of]; with_reducible refine Keeps.upd ?_) | with_reducible refine EPKeeps.use (by assumption) ?_ | with_reducible refine EPKeeps.use' (by assumption) ?_ | dsimp only | split)

theorem State.hintPages_keeps {s₀ : State} {s : State} {fn : FnId} {action : ℕ} {l : List HintPage} (hk : Keeps s₀ s) :
    OKeeps s₀ (State.hintPages s fn action l) := by
  unfold State.hintPages
  repeat' (first | with_reducible assumption | with_reducible intro _ | with_reducible refine State.queueMoves_keeps ?_ | with_reducible refine State.hintPage_keeps ?_ | with_reducible refine OKeeps.none | with_reducible refine OKeeps.some ?_ | (rw [State.mk_eq_of]; with_reducible refine Keeps.upd ?_) | with_reducible refine Keeps.foldl ?_ ?_ | with_reducible refine OKeeps.foldl ?_ ?_ | with_reducible refine OKeeps.bind ?_ ?_ | with_reducible refine OKeeps.bindOf ?_ | with_reducible refine OKeeps.map ?_ ?_ | with_reducible refine OKeeps.mapQ ?_ ?_ | with_reducible refine OKeeps.mapOf ?_ | with_reducible refine OKeeps.use (by assumption) ?_ | dsimp only | split)

theorem migrateHint_keeps {s₀ : State} {k : Cmd} {s : State} (hk : Keeps s₀ s) :
    Keeps s₀ (migrateHint k s) := by
  unfold migrateHint
  repeat' (first | with_reducible assumption | with_reducible intro _ | with_reducible refine checked_keeps ?_ ?_ | with_reducible refine State.afterHint_keeps ?_ | with_reducible refine inHeat_keeps ?_ ?_ | with_reducible refine State.hintNamed_keeps ?_ | with_reducible refine State.hintPages_keeps ?_ | with_reducible refine EPKeeps.ok ?_ | with_reducible refine EPKeeps.error | with_reducible refine OKeeps.none | with_reducible refine OKeeps.some ?_ | (rw [State.mk_eq_of]; with_reducible refine Keeps.upd ?_) | with_reducible refine EPKeeps.use (by assumption) ?_ | with_reducible refine EPKeeps.use' (by assumption) ?_ | with_reducible refine OKeeps.use (by assumption) ?_ | dsimp only | split)

theorem execMigratePrefetch_keeps {s₀ : State} {k : Cmd} {s : State} (hk : Keeps s₀ s) :
    RKeeps s₀ (execMigratePrefetch k s) := by
  unfold execMigratePrefetch
  repeat' (first | with_reducible assumption | with_reducible intro _ | with_reducible refine hostCmd_keeps ?_ ?_ | with_reducible refine migrateHint_keeps ?_ | with_reducible refine RKeeps.next ?_ | (rw [State.mk_eq_of]; with_reducible refine Keeps.upd ?_) | with_reducible refine RKeeps.use (by assumption) ?_ | dsimp only | split)

theorem execPark_keeps {s₀ : State} {k : Cmd} {s : State} (hk : Keeps s₀ s) :
    RKeeps s₀ (execPark k s) := by
  unfold execPark
  repeat' (first | with_reducible assumption | with_reducible intro _ | with_reducible refine hostCmd_keeps ?_ ?_ | with_reducible refine migrateHint_keeps ?_ | with_reducible refine RKeeps.next ?_ | (rw [State.mk_eq_of]; with_reducible refine Keeps.upd ?_) | with_reducible refine RKeeps.use (by assumption) ?_ | dsimp only | split)

theorem execPromote_keeps {s₀ : State} {k : Cmd} {s : State} (hk : Keeps s₀ s) :
    RKeeps s₀ (execPromote k s) := by
  unfold execPromote
  repeat' (first | with_reducible assumption | with_reducible intro _ | with_reducible refine hostCmd_keeps ?_ ?_ | with_reducible refine migrateHint_keeps ?_ | with_reducible refine RKeeps.next ?_ | (rw [State.mk_eq_of]; with_reducible refine Keeps.upd ?_) | with_reducible refine RKeeps.use (by assumption) ?_ | dsimp only | split)

theorem execMigrateCopy_keeps {s₀ : State} {k : Cmd} {s : State} (hk : Keeps s₀ s) :
    RKeeps s₀ (execMigrateCopy k s) := by
  unfold execMigrateCopy
  repeat' (first | with_reducible assumption | with_reducible intro _ | with_reducible refine hostCmd_keeps ?_ ?_ | with_reducible refine migrateHint_keeps ?_ | with_reducible refine RKeeps.next ?_ | (rw [State.mk_eq_of]; with_reducible refine Keeps.upd ?_) | with_reducible refine RKeeps.use (by assumption) ?_ | dsimp only | split)

theorem State.arrive_keeps {s₀ : State} {s : State} {g : FnId} {num : ℕ} {tagOk : Bool} (hk : Keeps s₀ s) :
    Keeps s₀ (State.arrive s g num tagOk) := by
  unfold State.arrive
  repeat' (first | with_reducible assumption | with_reducible intro _ | with_reducible refine State.queueTransfer_keeps ?_ | with_reducible refine State.ueT2_keeps ?_ | with_reducible refine State.t1Room_keeps ?_ | with_reducible refine State.stamp_keeps ?_ | with_reducible refine State.modPage_keeps ?_ | with_reducible refine State.access_keeps ?_ | with_reducible refine State.queueMoves_keeps ?_ | with_reducible refine State.modFn_keeps ?_ | with_reducible refine OPKeeps.none | with_reducible refine OPKeeps.some ?_ | with_reducible refine OPKeeps.map ?_ ?_ | (rw [State.mk_eq_of]; with_reducible refine Keeps.upd ?_) | (rw [State.mk_eq_of]; with_reducible refine Keeps.updT1 ?_ (fun hs => frames_filter _ hs)) | (rw [State.mk_eq_of]; with_reducible refine Keeps.updT1 ?_ (fun hs => frames_map _ (fun _ => rfl) hs)) | (rw [State.mk_eq_of]; with_reducible refine Keeps.updT1 ?_ (fun hs => frames_map _ ?_ hs); rotate_left; intro x; try dsimp only; split <;> rfl) | with_reducible refine OPKeeps.use (by assumption) ?_ | with_reducible refine OPKeeps.use' (by assumption) ?_ | with_reducible refine PKeeps.use (by assumption) ?_ | with_reducible refine QKeeps.use (by assumption) ?_ | dsimp only | split)

theorem State.copied_keeps {s₀ : State} {s : State} {g : FnId} {num : ℕ} (hk : Keeps s₀ s) :
    Keeps s₀ (State.copied s g num) := by
  unfold State.copied
  repeat' (first | with_reducible assumption | with_reducible intro _ | with_reducible refine State.needT2_keeps ?_ | with_reducible refine State.queueTransfer_keeps ?_ | with_reducible refine State.access_keeps ?_ | with_reducible refine State.modPage_keeps ?_ | with_reducible refine State.modFn_keeps ?_ | with_reducible refine State.fixStaging_keeps ?_ | with_reducible refine State.fixFrames_keeps ?_ | with_reducible refine OKeeps.none | with_reducible refine OKeeps.some ?_ | (rw [State.mk_eq_of]; with_reducible refine Keeps.upd ?_) | (rw [State.mk_eq_of]; with_reducible refine Keeps.updT1 ?_ (fun hs => frames_filter _ hs)) | (rw [State.mk_eq_of]; with_reducible refine Keeps.updT1 ?_ (fun hs => frames_map _ (fun _ => rfl) hs)) | (rw [State.mk_eq_of]; with_reducible refine Keeps.updT1 ?_ (fun hs => frames_map _ ?_ hs); rotate_left; intro x; try dsimp only; split <;> rfl) | (rw [State.mk_eq_of]; with_reducible refine Keeps.updT2 ?_ (fun hs => frames_filter _ hs)) | (rw [State.mk_eq_of]; with_reducible refine Keeps.updT2 ?_ (fun hs => frames_map _ (fun _ => rfl) hs)) | (rw [State.mk_eq_of]; with_reducible refine Keeps.updT2 ?_ (fun hs => frames_map _ ?_ hs); rotate_left; intro x; try dsimp only; split <;> rfl) | with_reducible refine OKeeps.use (by assumption) ?_ | dsimp only | split)

theorem execBilletArrival_keeps {s₀ : State} {fn : FnId} {addr : BitVec 48} {s : State} (hk : Keeps s₀ s) :
    RKeeps s₀ (execBilletArrival fn addr s) := by
  unfold execBilletArrival
  repeat' (first | with_reducible assumption | with_reducible intro _ | with_reducible refine State.settle_keeps ?_ | with_reducible refine State.pumpAll_keeps ?_ | with_reducible refine State.arrive_keeps ?_ | with_reducible refine State.queueMoves_keeps ?_ | with_reducible refine RKeeps.next ?_ | (rw [State.mk_eq_of]; with_reducible refine Keeps.upd ?_) | with_reducible refine RKeeps.use (by assumption) ?_ | dsimp only | split)

theorem execMigrationCopyComplete_keeps {s₀ : State} {fn : FnId} {addr : BitVec 48} {tagOk : Bool} {s : State} (hk : Keeps s₀ s) :
    RKeeps s₀ (execMigrationCopyComplete fn addr tagOk s) := by
  unfold execMigrationCopyComplete
  repeat' (first | with_reducible assumption | with_reducible intro _ | with_reducible refine State.settle_keeps ?_ | with_reducible refine State.pumpAll_keeps ?_ | with_reducible refine State.arrive_keeps ?_ | with_reducible refine State.queueMoves_keeps ?_ | with_reducible refine State.copied_keeps ?_ | with_reducible refine RKeeps.next ?_ | (rw [State.mk_eq_of]; with_reducible refine Keeps.upd ?_) | with_reducible refine RKeeps.use (by assumption) ?_ | dsimp only | split)

end Sys2Proof.Machine
end

