-- ==== Sys2Proof/Laws/KeepsKv.lean ====
section
/-! SUPPORT. The operations of Machine/Kv.lean keep what `Keeps` says. -/

set_option linter.unusedTactic false
set_option linter.unreachableTactic false

namespace Sys2Proof.Machine

theorem State.refs_keeps {s₀ : State} {s : State} {fn : FnId} {slot : Fin 32} {es : List ListEntry} {d : ℤ} (hk : Keeps s₀ s) :
    Keeps s₀ (State.refs s fn slot es d) := by
  unfold State.refs
  repeat' (first | with_reducible assumption | with_reducible intro _ | with_reducible refine State.edit_keeps ?_ | (rw [State.mk_eq_of]; with_reducible refine Keeps.upd ?_) | with_reducible refine Keeps.foldl ?_ ?_ | dsimp only | split)

theorem State.newSeq_keeps {s₀ : State} {s : State} {fn : FnId} {slot : Fin 32} {q : Seq} (hk : Keeps s₀ s) :
    EPKeeps s₀ (State.newSeq s fn slot q) := by
  unfold State.newSeq
  repeat' (first | with_reducible assumption | with_reducible intro _ | with_reducible refine State.modFn_keeps ?_ | with_reducible refine State.edit_keeps ?_ | with_reducible refine EPKeeps.ok ?_ | with_reducible refine EPKeeps.error | (rw [State.mk_eq_of]; with_reducible refine Keeps.upd ?_) | with_reducible refine EPKeeps.use (by assumption) ?_ | with_reducible refine EPKeeps.use' (by assumption) ?_ | dsimp only | split)

theorem kvAllocSeq_keeps {s₀ : State} {k : Cmd} {s : State} (hk : Keeps s₀ s) :
    Keeps s₀ (kvAllocSeq k s) := by
  unfold kvAllocSeq
  repeat' (first | with_reducible assumption | with_reducible intro _ | with_reducible refine checked_keeps ?_ ?_ | with_reducible refine inHeat_keeps ?_ ?_ | with_reducible refine State.newSeq_keeps ?_ | with_reducible refine EPKeeps.ok ?_ | with_reducible refine EPKeeps.error | (rw [State.mk_eq_of]; with_reducible refine Keeps.upd ?_) | with_reducible refine EPKeeps.map ?_ ?_ | with_reducible refine EPKeeps.mapE ?_ ?_ | with_reducible refine EPKeeps.use (by assumption) ?_ | with_reducible refine EPKeeps.use' (by assumption) ?_ | dsimp only | split)

theorem execKvAllocSeq_keeps {s₀ : State} {k : Cmd} {s : State} (hk : Keeps s₀ s) :
    RKeeps s₀ (execKvAllocSeq k s) := by
  unfold execKvAllocSeq
  repeat' (first | with_reducible assumption | with_reducible intro _ | with_reducible refine hostCmd_keeps ?_ ?_ | with_reducible refine kvAllocSeq_keeps ?_ | with_reducible refine RKeeps.next ?_ | (rw [State.mk_eq_of]; with_reducible refine Keeps.upd ?_) | with_reducible refine RKeeps.use (by assumption) ?_ | dsimp only | split)

theorem State.noteLookup_keeps {s₀ : State} {s : State} {fn : FnId} {slot : Fin 32} {nodes : List ℕ} (hk : Keeps s₀ s) :
    Keeps s₀ (State.noteLookup s fn slot nodes) := by
  unfold State.noteLookup
  repeat' (first | with_reducible assumption | with_reducible intro _ | with_reducible refine State.modHeat_keeps ?_ | (rw [State.mk_eq_of]; with_reducible refine Keeps.upd ?_) | dsimp only | split)

theorem kvFork_keeps {s₀ : State} {k : Cmd} {s : State} (hk : Keeps s₀ s) :
    Keeps s₀ (kvFork k s) := by
  unfold kvFork
  repeat' (first | with_reducible assumption | with_reducible intro _ | with_reducible refine checked_keeps ?_ ?_ | with_reducible refine inHeat_keeps ?_ ?_ | with_reducible refine State.newSeq_keeps ?_ | with_reducible refine State.countsAs_keeps ?_ ?_ | with_reducible refine State.heatWrite_keeps ?_ | with_reducible refine State.noteLookup_keeps ?_ | with_reducible refine State.refs_keeps ?_ | with_reducible refine EKeeps.ok ?_ | with_reducible refine EKeeps.error | with_reducible refine EPKeeps.ok ?_ | with_reducible refine EPKeeps.error | (rw [State.mk_eq_of]; with_reducible refine Keeps.upd ?_) | with_reducible refine EKeeps.use (by assumption) ?_ | with_reducible refine EPKeeps.use (by assumption) ?_ | with_reducible refine EPKeeps.use' (by assumption) ?_ | dsimp only | split)

theorem execKvFork_keeps {s₀ : State} {k : Cmd} {s : State} (hk : Keeps s₀ s) :
    RKeeps s₀ (execKvFork k s) := by
  unfold execKvFork
  repeat' (first | with_reducible assumption | with_reducible intro _ | with_reducible refine hostCmd_keeps ?_ ?_ | with_reducible refine kvFork_keeps ?_ | with_reducible refine RKeeps.next ?_ | (rw [State.mk_eq_of]; with_reducible refine Keeps.upd ?_) | with_reducible refine RKeeps.use (by assumption) ?_ | dsimp only | split)

theorem kvFreeSeq_keeps {s₀ : State} {k : Cmd} {s : State} (hk : Keeps s₀ s) :
    Keeps s₀ (kvFreeSeq k s) := by
  unfold kvFreeSeq
  repeat' (first | with_reducible assumption | with_reducible intro _ | with_reducible refine checked_keeps ?_ ?_ | with_reducible refine inHeat_keeps ?_ ?_ | with_reducible refine State.act_keeps ?_ | with_reducible refine State.edit_keeps ?_ | with_reducible refine State.refs_keeps ?_ | with_reducible refine EKeeps.ok ?_ | with_reducible refine EKeeps.error | with_reducible refine EPKeeps.ok ?_ | with_reducible refine EPKeeps.error | (rw [State.mk_eq_of]; with_reducible refine Keeps.upd ?_) | with_reducible refine EKeeps.use (by assumption) ?_ | with_reducible refine EPKeeps.use (by assumption) ?_ | with_reducible refine EPKeeps.use' (by assumption) ?_ | dsimp only | split)

theorem execKvFreeSeq_keeps {s₀ : State} {k : Cmd} {s : State} (hk : Keeps s₀ s) :
    RKeeps s₀ (execKvFreeSeq k s) := by
  unfold execKvFreeSeq
  repeat' (first | with_reducible assumption | with_reducible intro _ | with_reducible refine hostCmd_keeps ?_ ?_ | with_reducible refine kvFreeSeq_keeps ?_ | with_reducible refine RKeeps.next ?_ | (rw [State.mk_eq_of]; with_reducible refine Keeps.upd ?_) | with_reducible refine RKeeps.use (by assumption) ?_ | dsimp only | split)

theorem State.noteClash_keeps {s₀ s : State} {fn : FnId} {q : Seq} {o : Option Nat} (h : Keeps s₀ s) :
    Keeps s₀ (State.noteClash s fn q o) := by
  cases o with
  | none => exact h
  | some j =>
    unfold State.noteClash
    exact State.log_keeps h

theorem State.takePrefix_keeps {s₀ : State} {s : State} {fn : FnId} {slot : Fin 32} {q : Seq} {hit : List Node} (hk : Keeps s₀ s) :
    Keeps s₀ (State.takePrefix s fn slot q hit) := by
  unfold State.takePrefix
  repeat' (first | with_reducible assumption | with_reducible intro _ | with_reducible refine State.modFn_keeps ?_ | with_reducible refine State.edit_keeps ?_ | with_reducible refine State.noteLookup_keeps ?_ | with_reducible refine State.refs_keeps ?_ | (rw [State.mk_eq_of]; with_reducible refine Keeps.upd ?_) | with_reducible refine Keeps.foldl ?_ ?_ | dsimp only | split)

theorem prefixLookup_keeps {s₀ : State} {k : Cmd} {s : State} (hk : Keeps s₀ s) :
    Keeps s₀ (prefixLookup k s) := by
  unfold prefixLookup
  repeat' (first | with_reducible assumption | with_reducible intro _ | with_reducible refine checked_keeps ?_ ?_ | with_reducible refine inHeat_keeps ?_ ?_ | with_reducible refine State.act_keeps ?_ | with_reducible refine State.noteClash_keeps ?_ | with_reducible refine State.takePrefix_keeps ?_ | with_reducible refine EKeeps.ok ?_ | with_reducible refine EKeeps.error | with_reducible refine EPKeeps.ok ?_ | with_reducible refine EPKeeps.error | (rw [State.mk_eq_of]; with_reducible refine Keeps.upd ?_) | with_reducible refine EKeeps.use (by assumption) ?_ | with_reducible refine EPKeeps.use (by assumption) ?_ | with_reducible refine EPKeeps.use' (by assumption) ?_ | dsimp only | split)

theorem execPrefixLookup_keeps {s₀ : State} {k : Cmd} {s : State} (hk : Keeps s₀ s) :
    RKeeps s₀ (execPrefixLookup k s) := by
  unfold execPrefixLookup
  repeat' (first | with_reducible assumption | with_reducible intro _ | with_reducible refine hostCmd_keeps ?_ ?_ | with_reducible refine prefixLookup_keeps ?_ | with_reducible refine RKeeps.next ?_ | (rw [State.mk_eq_of]; with_reducible refine Keeps.upd ?_) | with_reducible refine RKeeps.use (by assumption) ?_ | dsimp only | split)

theorem publishBlocks_keeps {s₀ : State} {fn : FnId} {slot : Fin 32} {q : Seq} {cap fuel j prev : Nat} {parent : Option Nat}
    {a r : Published} (e : publishBlocks fn slot q cap fuel j prev parent a = .ok r) (h : Keeps s₀ a.s) : Keeps s₀ r.s := by
  induction fuel generalizing j prev parent a with
  | zero =>
    cases e
    exact h
  | succ fuel ih =>
    unfold publishBlocks at e
    extract_lets +onlyGivenNames s v bs hh at e
    clear_value v bs hh
    split at e
    · exact ih e h
    · extract_lets +onlyGivenNames es whole at e
      clear_value es whole
      split at e
      · cases e
        exact h
      · extract_lets +onlyGivenNames base units fresh seals at e
        clear_value base units fresh seals
        split at e
        · cases e
        · next t1 e1 =>
          have h1 : Keeps s₀ t1 := State.act_keeps h t1 e1
          split at e
          · cases e
          · next t2 e2 =>
            have h2 : Keeps s₀ t2 := EKeeps.use e2 (EKeeps.foldE h1 fun _ _ hx =>
              EKeeps.map (State.sealPage_keeps hx) fun _ hy => State.edit_keeps hy)
            refine ih e (Keeps.foldl (State.edit_keeps (State.modFn_keeps h2)) fun _ _ hx => State.edit_keeps (State.edit_keeps hx))

theorem prefixPublish_keeps {s₀ s : State} {k : Cmd} (h : Keeps s₀ s) : Keeps s₀ (prefixPublish k s) := by
  unfold prefixPublish
  refine checked_keeps h fun x hx => inHeat_keeps hx fun slot t ht => ?_
  dsimp only
  split
  · exact EPKeeps.error
  · refine EPKeeps.ite (fun _ => EPKeeps.error) fun _ => EPKeeps.ite (fun _ => EPKeeps.error) fun _ =>
      EPKeeps.ite (fun _ => EPKeeps.error) fun _ => ?_
    split
    · exact EPKeeps.error
    · next a e => exact EPKeeps.ok (publishBlocks_keeps e ht)

theorem execPrefixPublish_keeps {s₀ : State} {k : Cmd} {s : State} (hk : Keeps s₀ s) :
    RKeeps s₀ (execPrefixPublish k s) := by
  unfold execPrefixPublish
  repeat' (first | with_reducible assumption | with_reducible intro _ | with_reducible refine hostCmd_keeps ?_ ?_ | with_reducible refine prefixPublish_keeps ?_ | with_reducible refine RKeeps.next ?_ | (rw [State.mk_eq_of]; with_reducible refine Keeps.upd ?_) | with_reducible refine RKeeps.use (by assumption) ?_ | dsimp only | split)

theorem State.dropIn_keeps {s₀ : State} {s : State} {fn : FnId} {slot : Fin 32} {q : Seq} {j : ℕ} {fresh : Bool} (hk : Keeps s₀ s) :
    EKeeps s₀ (State.dropIn s fn slot q j fresh) := by
  unfold State.dropIn
  repeat' (first | with_reducible assumption | with_reducible intro _ | with_reducible refine State.act_keeps ?_ | with_reducible refine State.dropLab_keeps ?_ | with_reducible refine State.edit_keeps ?_ | with_reducible refine EKeeps.ok ?_ | with_reducible refine EKeeps.error | (rw [State.mk_eq_of]; with_reducible refine Keeps.upd ?_) | with_reducible refine EKeeps.use (by assumption) ?_ | dsimp only | split)

theorem EKeeps.ofP {ε β : Type} {s₀ : State} {e : Except ε (State × β)} (h : EPKeeps s₀ e) : EKeeps s₀ (e.map (·.1)) := by
  cases e with
  | error x => exact EKeeps.error
  | ok x => exact EKeeps.ok (h x.1 x.2 rfl)

theorem State.dropAll_keeps {s₀ s : State} {fn : FnId} {slot : Fin 32} {q : Seq} {js : List Nat} (h : Keeps s₀ s) :
    EKeeps s₀ (State.dropAll s fn slot q js) := by
  have hp : PKeeps s₀ (s, ([] : List Nat)) := h
  exact EKeeps.ofP (EPKeeps.foldE hp fun _ _ hy => EPKeeps.mapE (State.dropIn_keeps hy) fun _ hz => hz)

theorem kvDrop_keeps {s₀ : State} {k : Cmd} {s : State} (hk : Keeps s₀ s) :
    Keeps s₀ (kvDrop k s) := by
  unfold kvDrop
  repeat' (first | with_reducible assumption | with_reducible intro _ | with_reducible refine checked_keeps ?_ ?_ | with_reducible refine inHeat_keeps ?_ ?_ | with_reducible refine State.edit_keeps ?_ | with_reducible refine State.dropAll_keeps ?_ | with_reducible refine EKeeps.ok ?_ | with_reducible refine EKeeps.error | with_reducible refine EPKeeps.ok ?_ | with_reducible refine EPKeeps.error | (rw [State.mk_eq_of]; with_reducible refine Keeps.upd ?_) | with_reducible refine EKeeps.use (by assumption) ?_ | with_reducible refine EPKeeps.use (by assumption) ?_ | with_reducible refine EPKeeps.use' (by assumption) ?_ | dsimp only | split)

theorem execKvDrop_keeps {s₀ : State} {k : Cmd} {s : State} (hk : Keeps s₀ s) :
    RKeeps s₀ (execKvDrop k s) := by
  unfold execKvDrop
  repeat' (first | with_reducible assumption | with_reducible intro _ | with_reducible refine hostCmd_keeps ?_ ?_ | with_reducible refine kvDrop_keeps ?_ | with_reducible refine RKeeps.next ?_ | (rw [State.mk_eq_of]; with_reducible refine Keeps.upd ?_) | with_reducible refine RKeeps.use (by assumption) ?_ | dsimp only | split)

theorem execKvDropSetPolicy_keeps {s₀ : State} {k : Cmd} {s : State} (hk : Keeps s₀ s) :
    RKeeps s₀ (execKvDropSetPolicy k s) := by
  unfold execKvDropSetPolicy
  repeat' (first | with_reducible assumption | with_reducible intro _ | with_reducible refine hostCmd_keeps ?_ ?_ | with_reducible refine kvDrop_keeps ?_ | with_reducible refine RKeeps.next ?_ | (rw [State.mk_eq_of]; with_reducible refine Keeps.upd ?_) | with_reducible refine RKeeps.use (by assumption) ?_ | dsimp only | split)

theorem State.reclaim_keeps {s₀ : State} {s : State} {fn : FnId} {n : ℕ} (hk : Keeps s₀ s) :
    Keeps s₀ (State.reclaim s fn n) := by
  unfold State.reclaim
  repeat' (first | with_reducible assumption | with_reducible intro _ | with_reducible refine State.reopenPage_keeps ?_ | with_reducible refine State.modFn_keeps ?_ | with_reducible refine OKeeps.none | with_reducible refine OKeeps.some ?_ | (rw [State.mk_eq_of]; with_reducible refine Keeps.upd ?_) | with_reducible refine OKeeps.getD ?_ ?_ | with_reducible refine OKeeps.use (by assumption) ?_ | dsimp only | split)

theorem epochAdvance_keeps {s₀ : State} {fn : FnId} {s : State} (hk : Keeps s₀ s) :
    Keeps s₀ (epochAdvance fn s) := by
  unfold epochAdvance
  repeat' (first | with_reducible assumption | with_reducible intro _ | with_reducible refine State.reclaim_keeps ?_ | with_reducible refine State.modFn_keeps ?_ | (rw [State.mk_eq_of]; with_reducible refine Keeps.upd ?_) | with_reducible refine Keeps.foldl ?_ ?_ | dsimp only | split)

theorem execEpochAdvance_keeps {s₀ : State} {fn : FnId} {s : State} (hk : Keeps s₀ s) :
    RKeeps s₀ (execEpochAdvance fn s) := by
  unfold execEpochAdvance
  repeat' (first | with_reducible assumption | with_reducible intro _ | with_reducible refine State.settle_keeps ?_ | with_reducible refine State.pumpFn_keeps ?_ | with_reducible refine epochAdvance_keeps ?_ | with_reducible refine RKeeps.next ?_ | (rw [State.mk_eq_of]; with_reducible refine Keeps.upd ?_) | with_reducible refine RKeeps.use (by assumption) ?_ | dsimp only | split)

theorem State.evictNodes_keeps {s₀ s : State} {fn : FnId} {slot : Fin 32} {want n : Nat} (h : Keeps s₀ s) :
    PKeeps s₀ (State.evictNodes s fn slot want n) := by
  induction n generalizing s with
  | zero => exact h
  | succ n ih =>
    unfold State.evictNodes
    refine PKeeps.ite (fun _ => h) fun _ => ?_
    split
    · exact h
    · split
      · exact h
      · next t e =>
        have ht : Keeps s₀ t := State.act_keeps h t e
        exact PKeeps.mk (ih (State.edit_keeps (Keeps.foldl ht fun _ _ hx => State.edit_keeps hx)))

theorem State.dropBlocks_keeps {s₀ s : State} {fn : FnId} {slot : Fin 32} {want : Nat} {units : List (Nat × Nat)}
    {l : List (Seq × Nat)} (h : Keeps s₀ s) : PKeeps s₀ (State.dropBlocks s fn slot want units l) := by
  induction l generalizing s units with
  | nil => exact h
  | cons x rest ih =>
    obtain ⟨q, j⟩ := x
    unfold State.dropBlocks
    refine PKeeps.ite (fun _ => h) fun _ => ?_
    dsimp only
    split
    · exact ih h
    · refine PKeeps.ite (fun _ => ih h) fun _ => ?_
      split
      · exact ih h
      · next t e => exact PKeeps.mk (ih (State.dropIn_keeps h t e))

theorem dropPolicy_keeps {s₀ : State} {fn : FnId} {id : BitVec 64} {s : State} (hk : Keeps s₀ s) :
    Keeps s₀ (dropPolicy fn id s) := by
  unfold dropPolicy
  repeat' (first | with_reducible assumption | with_reducible intro _ | with_reducible refine State.openHeat_keeps ?_ | with_reducible refine State.evictNodes_keeps ?_ | with_reducible refine State.dropBlocks_keeps ?_ | with_reducible refine State.log_keeps ?_ | with_reducible refine State.commitHeat_keeps ?_ | with_reducible refine State.endStep_keeps ?_ | with_reducible refine State.modRun_keeps ?_ | with_reducible refine OQKeeps.none | with_reducible refine OQKeeps.some ?_ | (rw [State.mk_eq_of]; with_reducible refine Keeps.upd ?_) | with_reducible refine OQKeeps.use (by assumption) ?_ | with_reducible refine OQKeeps.use' (by assumption) ?_ | with_reducible refine PKeeps.use (by assumption) ?_ | dsimp only | split)

theorem execDropPolicy_keeps {s₀ : State} {fn : FnId} {mould : BitVec 64} {s : State} (hk : Keeps s₀ s) :
    RKeeps s₀ (execDropPolicy fn mould s) := by
  unfold execDropPolicy
  repeat' (first | with_reducible assumption | with_reducible intro _ | with_reducible refine State.settle_keeps ?_ | with_reducible refine dropPolicy_keeps ?_ | with_reducible refine RKeeps.next ?_ | (rw [State.mk_eq_of]; with_reducible refine Keeps.upd ?_) | with_reducible refine RKeeps.use (by assumption) ?_ | dsimp only | split)

end Sys2Proof.Machine
end

