-- ==== Sys2Proof/Laws/KeepsRetrieval.lean ====
section
/-! SUPPORT. The operations of Machine/Retrieval.lean keep what `Keeps` says. -/

set_option linter.unusedTactic false
set_option linter.unreachableTactic false

namespace Sys2Proof.Machine

theorem State.loadIndexPage_keeps {s₀ : State} {s : State} {fn : FnId} {slot : Fin 32} {num : ℕ} {bs : List Byte} (hk : Keeps s₀ s) :
    EKeeps s₀ (State.loadIndexPage s fn slot num bs) := by
  unfold State.loadIndexPage
  repeat' (first | with_reducible assumption | with_reducible intro _ | with_reducible refine State.needT2_keeps ?_ | with_reducible refine State.countsAs_keeps ?_ ?_ | with_reducible refine State.heatWrite_keeps ?_ | with_reducible refine State.modPage_keeps ?_ | with_reducible refine State.sealPage_keeps ?_ | with_reducible refine EKeeps.ok ?_ | with_reducible refine EKeeps.error | with_reducible refine OKeeps.none | with_reducible refine OKeeps.some ?_ | (rw [State.mk_eq_of]; with_reducible refine Keeps.upd ?_) | (rw [State.mk_eq_of]; with_reducible refine Keeps.updT1 ?_ (fun hs => frames_filter _ hs)) | (rw [State.mk_eq_of]; with_reducible refine Keeps.updT1 ?_ (fun hs => frames_map _ (fun _ => rfl) hs)) | (rw [State.mk_eq_of]; with_reducible refine Keeps.updT1 ?_ (fun hs => frames_map _ ?_ hs); rotate_left; intro x; try dsimp only; split <;> rfl) | (rw [State.mk_eq_of]; with_reducible refine Keeps.updT2 ?_ (fun hs => frames_filter _ hs)) | (rw [State.mk_eq_of]; with_reducible refine Keeps.updT2 ?_ (fun hs => frames_map _ (fun _ => rfl) hs)) | (rw [State.mk_eq_of]; with_reducible refine Keeps.updT2 ?_ (fun hs => frames_map _ ?_ hs); rotate_left; intro x; try dsimp only; split <;> rfl) | with_reducible refine EKeeps.use (by assumption) ?_ | with_reducible refine OKeeps.use (by assumption) ?_ | dsimp only | split)

theorem State.loadIndex_keeps {s₀ : State} {s : State} {k : Cmd} {slot : Fin 32} (hk : Keeps s₀ s) :
    EKeeps s₀ (State.loadIndex s k slot) := by
  unfold State.loadIndex
  repeat' (first | with_reducible assumption | with_reducible intro _ | with_reducible refine State.loadIndexPage_keeps ?_ | with_reducible refine State.heatWrite_keeps ?_ | with_reducible refine State.sealPage_keeps ?_ | with_reducible refine EKeeps.ok ?_ | with_reducible refine EKeeps.error | (rw [State.mk_eq_of]; with_reducible refine Keeps.upd ?_) | with_reducible refine EKeeps.foldE ?_ ?_ | with_reducible refine EKeeps.map ?_ ?_ | with_reducible refine EKeeps.mapError ?_ | with_reducible refine EKeeps.use (by assumption) ?_ | dsimp only | split)

theorem State.fixLoaded_keeps {s₀ : State} {s : State} {k : Cmd} (hk : Keeps s₀ s) :
    Keeps s₀ (State.fixLoaded s k) := by
  unfold State.fixLoaded
  repeat' (first | with_reducible assumption | with_reducible intro _ | with_reducible refine State.fixFrames_keeps ?_ | (rw [State.mk_eq_of]; with_reducible refine Keeps.upd ?_) | with_reducible refine Keeps.foldl ?_ ?_ | dsimp only | split)

theorem retrieveIndexLoad_keeps {s₀ : State} {k : Cmd} {s : State} (hk : Keeps s₀ s) :
    Keeps s₀ (retrieveIndexLoad k s) := by
  unfold retrieveIndexLoad
  repeat' (first | with_reducible assumption | with_reducible intro _ | with_reducible refine checked_keeps ?_ ?_ | with_reducible refine State.finish_keeps ?_ | with_reducible refine State.fixLoaded_keeps ?_ | with_reducible refine inHeat_keeps ?_ ?_ | with_reducible refine State.loadIndex_keeps ?_ | with_reducible refine EKeeps.ok ?_ | with_reducible refine EKeeps.error | with_reducible refine EPKeeps.ok ?_ | with_reducible refine EPKeeps.error | (rw [State.mk_eq_of]; with_reducible refine Keeps.upd ?_) | with_reducible refine EKeeps.map ?_ ?_ | with_reducible refine EKeeps.mapError ?_ | with_reducible refine EPKeeps.map ?_ ?_ | with_reducible refine EPKeeps.mapE ?_ ?_ | with_reducible refine EKeeps.use (by assumption) ?_ | with_reducible refine EPKeeps.use (by assumption) ?_ | with_reducible refine EPKeeps.use' (by assumption) ?_ | dsimp only | split)

theorem execRetrieveIndexLoad_keeps {s₀ : State} {k : Cmd} {s : State} (hk : Keeps s₀ s) :
    RKeeps s₀ (execRetrieveIndexLoad k s) := by
  unfold execRetrieveIndexLoad
  repeat' (first | with_reducible assumption | with_reducible intro _ | with_reducible refine hostCmd_keeps ?_ ?_ | with_reducible refine retrieveIndexLoad_keeps ?_ | with_reducible refine RKeeps.next ?_ | (rw [State.mk_eq_of]; with_reducible refine Keeps.upd ?_) | with_reducible refine RKeeps.use (by assumption) ?_ | dsimp only | split)

theorem retrieveScan_keeps {s₀ : State} {k : Cmd} {s : State} (hk : Keeps s₀ s) :
    Keeps s₀ (retrieveScan k s) := by
  unfold retrieveScan
  repeat' (first | with_reducible assumption | with_reducible intro _ | with_reducible refine checked_keeps ?_ ?_ | with_reducible refine State.finish_keeps ?_ | with_reducible refine State.modFn_keeps ?_ | (rw [State.mk_eq_of]; with_reducible refine Keeps.upd ?_) | dsimp only | split)

theorem execRetrieveScan_keeps {s₀ : State} {k : Cmd} {s : State} (hk : Keeps s₀ s) :
    RKeeps s₀ (execRetrieveScan k s) := by
  unfold execRetrieveScan
  repeat' (first | with_reducible assumption | with_reducible intro _ | with_reducible refine hostCmd_keeps ?_ ?_ | with_reducible refine retrieveScan_keeps ?_ | with_reducible refine RKeeps.next ?_ | (rw [State.mk_eq_of]; with_reducible refine Keeps.upd ?_) | with_reducible refine RKeeps.use (by assumption) ?_ | dsimp only | split)

theorem State.startScanOn_keeps {s₀ : State} {fn : FnId} {x : Scan} {is : List (PlinthId × UInstr)} {s : State} {n : PlinthId} (hk : Keeps s₀ s) :
    Keeps s₀ (State.startScanOn fn x is s n) := by
  unfold State.startScanOn
  repeat' (first | with_reducible assumption | with_reducible intro _ | with_reducible refine State.refill_keeps ?_ | with_reducible refine State.modPlinth_keeps ?_ | (rw [State.mk_eq_of]; with_reducible refine Keeps.upd ?_) | dsimp only | split)

theorem scanStart_keeps {s₀ : State} {fn : FnId} {s : State} (hk : Keeps s₀ s) :
    Keeps s₀ (scanStart fn s) := by
  unfold scanStart
  repeat' (first | with_reducible assumption | with_reducible intro _ | with_reducible refine State.startScanOn_keeps ?_ | with_reducible refine State.modFn_keeps ?_ | (rw [State.mk_eq_of]; with_reducible refine Keeps.upd ?_) | with_reducible refine Keeps.foldl ?_ ?_ | dsimp only | split)

theorem execScanStart_keeps {s₀ : State} {fn : FnId} {s : State} (hk : Keeps s₀ s) :
    RKeeps s₀ (execScanStart fn s) := by
  unfold execScanStart
  repeat' (first | with_reducible assumption | with_reducible intro _ | with_reducible refine scanStart_keeps ?_ | with_reducible refine RKeeps.next ?_ | (rw [State.mk_eq_of]; with_reducible refine Keeps.upd ?_) | with_reducible refine RKeeps.use (by assumption) ?_ | dsimp only | split)

theorem scanComplete_keeps {s₀ : State} {fn : FnId} {id : ℕ} {rowTagsOk : Bool} {s : State} (hk : Keeps s₀ s) :
    Keeps s₀ (scanComplete fn id rowTagsOk s) := by
  unfold scanComplete
  repeat' (first | with_reducible assumption | with_reducible intro _ | with_reducible refine State.endScan_keeps ?_ | with_reducible refine State.log_keeps ?_ | with_reducible refine State.modPlinth_keeps ?_ | (rw [State.mk_eq_of]; with_reducible refine Keeps.upd ?_) | with_reducible refine Keeps.foldl ?_ ?_ | dsimp only | split)

theorem execScanComplete_keeps {s₀ : State} {fn : FnId} {id : ℕ} {rowTagsOk : Bool} {s : State} (hk : Keeps s₀ s) :
    RKeeps s₀ (execScanComplete fn id rowTagsOk s) := by
  unfold execScanComplete
  repeat' (first | with_reducible assumption | with_reducible intro _ | with_reducible refine scanComplete_keeps ?_ | with_reducible refine RKeeps.next ?_ | (rw [State.mk_eq_of]; with_reducible refine Keeps.upd ?_) | with_reducible refine RKeeps.use (by assumption) ?_ | dsimp only | split)

theorem execScanDeadline_keeps {s₀ : State} {fn : FnId} {id : ℕ} {s : State} (hk : Keeps s₀ s) :
    RKeeps s₀ (execScanDeadline fn id s) := by
  unfold execScanDeadline
  repeat' (first | with_reducible assumption | with_reducible intro _ | with_reducible refine State.endScan_keeps ?_ | with_reducible refine RKeeps.next ?_ | (rw [State.mk_eq_of]; with_reducible refine Keeps.upd ?_) | with_reducible refine RKeeps.use (by assumption) ?_ | dsimp only | split)

end Sys2Proof.Machine
end

