-- ==== Sys2Proof/Laws/KeepsNear.lean ====
section
/-! SUPPORT. The operations of Machine/Near.lean keep what `Keeps` says. -/

set_option linter.unusedTactic false
set_option linter.unreachableTactic false

namespace Sys2Proof.Machine

theorem State.loseCopy_keeps {s₀ : State} {s : State} {unit : ℕ} (hk : Keeps s₀ s) :
    Keeps s₀ (State.loseCopy s unit) := by
  unfold State.loseCopy
  repeat' (first | with_reducible assumption | with_reducible intro _ | with_reducible refine State.draw_keeps ?_ | with_reducible refine State.modHall_keeps ?_ | (rw [State.mk_eq_of]; with_reducible refine Keeps.upd ?_) | with_reducible refine QKeeps.use (by assumption) ?_ | dsimp only | split)

theorem nearScrub_keeps {s₀ : State} {c : ChanId} {what : ScrubAt} {place : Nat} {errs : List (Fin 8 × BitVec 320)} {s : State} (hk : Keeps s₀ s) :
    Keeps s₀ (nearScrub c what place errs s) := by
  unfold nearScrub
  repeat' (first | with_reducible assumption | with_reducible intro _ | with_reducible refine State.countBeat_keeps ?_ | with_reducible refine State.settle_keeps ?_ | with_reducible refine State.pumpAll_keeps ?_ | with_reducible refine State.loseT1_keeps ?_ | with_reducible refine State.functionFault_keeps ?_ | with_reducible refine State.loseCopy_keeps ?_ | (rw [State.mk_eq_of]; with_reducible refine Keeps.upd ?_) | with_reducible refine Keeps.foldl ?_ ?_ | with_reducible refine PKeeps.foldl ?_ ?_ | with_reducible refine PKeeps.use (by assumption) ?_ | dsimp only | split)

theorem execNearScrub_keeps {s₀ : State} {c : ChanId} {what : ScrubAt} {place : Nat} {errs : List (Fin 8 × BitVec 320)} {s : State} (hk : Keeps s₀ s) :
    RKeeps s₀ (execNearScrub c what place errs s) := by
  unfold execNearScrub
  repeat' (first | with_reducible assumption | with_reducible intro _ | with_reducible refine nearScrub_keeps ?_ | with_reducible refine RKeeps.next ?_ | (rw [State.mk_eq_of]; with_reducible refine Keeps.upd ?_) | with_reducible refine RKeeps.use (by assumption) ?_ | dsimp only | split)

theorem execRowRefresh_keeps {s₀ s : State} {c : ChanId} {a b : Nat} (h : Keeps s₀ s) : RKeeps s₀ (execRowRefresh c a b s) := RKeeps.next h

theorem execT1PhyLockLoss_keeps {s₀ : State} {c : ChanId} {s : State} (hk : Keeps s₀ s) :
    RKeeps s₀ (execT1PhyLockLoss c s) := by
  unfold execT1PhyLockLoss
  repeat' (first | with_reducible assumption | with_reducible intro _ | with_reducible refine State.retrain_keeps ?_ | with_reducible refine RKeeps.next ?_ | (rw [State.mk_eq_of]; with_reducible refine Keeps.upd ?_) | with_reducible refine RKeeps.use (by assumption) ?_ | dsimp only | split)

theorem execT1CorrectionCount_keeps {s₀ : State} {c : ChanId} {s : State} (hk : Keeps s₀ s) :
    RKeeps s₀ (execT1CorrectionCount c s) := by
  unfold execT1CorrectionCount
  repeat' (first | with_reducible assumption | with_reducible intro _ | with_reducible refine State.retrain_keeps ?_ | with_reducible refine State.modChan_keeps ?_ | with_reducible refine RKeeps.next ?_ | (rw [State.mk_eq_of]; with_reducible refine Keeps.upd ?_) | with_reducible refine RKeeps.use (by assumption) ?_ | dsimp only | split)

theorem t1RetrainComplete_keeps {s₀ : State} {c : ChanId} {ticks : ℕ} {s : State} (hk : Keeps s₀ s) :
    Keeps s₀ (t1RetrainComplete c ticks s) := by
  unfold t1RetrainComplete
  repeat' (first | with_reducible assumption | with_reducible intro _ | with_reducible refine State.modChan_keeps ?_ | with_reducible refine State.settle_keeps ?_ | with_reducible refine State.pumpAll_keeps ?_ | with_reducible refine State.log_keeps ?_ | with_reducible refine State.trained_keeps ?_ | (rw [State.mk_eq_of]; with_reducible refine Keeps.upd ?_) | dsimp only | split)

theorem execT1RetrainComplete_keeps {s₀ : State} {c : ChanId} {ticks : BitVec 32} {s : State} (hk : Keeps s₀ s) :
    RKeeps s₀ (execT1RetrainComplete c ticks s) := by
  unfold execT1RetrainComplete
  repeat' (first | with_reducible assumption | with_reducible intro _ | with_reducible refine t1RetrainComplete_keeps ?_ | with_reducible refine RKeeps.next ?_ | (rw [State.mk_eq_of]; with_reducible refine Keeps.upd ?_) | with_reducible refine RKeeps.use (by assumption) ?_ | dsimp only | split)

theorem execT1ChannelRetrainTimeout_keeps {s₀ : State} {c : ChanId} {s : State} (hk : Keeps s₀ s) :
    RKeeps s₀ (execT1ChannelRetrainTimeout c s) := by
  unfold execT1ChannelRetrainTimeout
  repeat' (first | with_reducible assumption | with_reducible intro _ | with_reducible refine State.settle_keeps ?_ | with_reducible refine State.anneal_keeps ?_ | with_reducible refine RKeeps.next ?_ | (rw [State.mk_eq_of]; with_reducible refine Keeps.upd ?_) | with_reducible refine RKeeps.use (by assumption) ?_ | dsimp only | split)

theorem execAnnealComplete_keeps {s₀ : State} {unit : AnnealUnit} {s : State} (hk : Keeps s₀ s) :
    RKeeps s₀ (execAnnealComplete unit s) := by
  unfold execAnnealComplete
  repeat' (first | with_reducible assumption | with_reducible intro _ | with_reducible refine State.settle_keeps ?_ | with_reducible refine State.pumpAll_keeps ?_ | with_reducible refine State.annealDone_keeps ?_ | with_reducible refine RKeeps.next ?_ | (rw [State.mk_eq_of]; with_reducible refine Keeps.upd ?_) | with_reducible refine RKeeps.use (by assumption) ?_ | dsimp only | split)

theorem quenchReport_keeps {s₀ : State} {k : StackId} {temp : BitVec 16} {s : State} (hk : Keeps s₀ s) :
    Keeps s₀ (quenchReport k temp s) := by
  unfold quenchReport
  repeat' (first | with_reducible assumption | with_reducible intro _ | with_reducible refine State.modStack_keeps ?_ | with_reducible refine State.modBell_keeps ?_ | with_reducible refine State.log_keeps ?_ | with_reducible refine State.modChan_keeps ?_ | with_reducible refine State.retrain_keeps ?_ | (rw [State.mk_eq_of]; with_reducible refine Keeps.upd ?_) | with_reducible refine Keeps.foldl ?_ ?_ | dsimp only | split)

theorem execQuenchReport_keeps {s₀ : State} {k : StackId} {temp : BitVec 16} {s : State} (hk : Keeps s₀ s) :
    RKeeps s₀ (execQuenchReport k temp s) := by
  unfold execQuenchReport
  repeat' (first | with_reducible assumption | with_reducible intro _ | with_reducible refine quenchReport_keeps ?_ | with_reducible refine RKeeps.next ?_ | (rw [State.mk_eq_of]; with_reducible refine Keeps.upd ?_) | with_reducible refine RKeeps.use (by assumption) ?_ | dsimp only | split)

theorem State.recordMapout_keeps {s₀ : State} {s : State} {c : ChanId} {pending : Bool} (hk : Keeps s₀ s) :
    OKeeps s₀ (State.recordMapout s c pending) := by
  unfold State.recordMapout
  repeat' (first | with_reducible assumption | with_reducible intro _ | with_reducible refine State.modNear_keeps ?_ | with_reducible refine State.ledgerWrite_keeps ?_ | with_reducible refine OKeeps.none | with_reducible refine OKeeps.some ?_ | (rw [State.mk_eq_of]; with_reducible refine Keeps.upd ?_) | with_reducible refine OKeeps.map ?_ ?_ | with_reducible refine OKeeps.mapQ ?_ ?_ | with_reducible refine OKeeps.mapOf ?_ | with_reducible refine OKeeps.use (by assumption) ?_ | dsimp only | split)

theorem frames_foldl {α β : Type} {g : List Frame × β → α → List Frame × β} {l : List α} {r : List Frame × β}
    (h : (r.1.map (·.num)).Pairwise (· < ·))
    (k : ∀ x a, (x.1.map Frame.num).Pairwise (· < ·) → ((g x a).1.map Frame.num).Pairwise (· < ·)) :
    ((l.foldl g r).1.map (·.num)).Pairwise (· < ·) := by
  induction l generalizing r with
  | nil => exact h
  | cons a l ih => exact ih (k r a h)

theorem State.moveFrames_keeps {s₀ s : State} (h : Keeps s₀ s) : Keeps s₀ (State.moveFrames s) := by
  unfold State.moveFrames
  refine h.trans ⟨id, id, fun hs => ?_, id, rfl, le_refl _⟩
  show (s.movedFrames.1.map (·.num)).Pairwise (· < ·)
  unfold State.movedFrames
  exact frames_foldl (frames_filter _ hs) fun x a hx =>
    frames_insert (x := ⟨lowestFree (x.1.map (·.num)) 0, a.use⟩) (lowestFree_not_mem hx 0) hx

theorem State.mapoutNow_keeps {s₀ : State} {s : State} {ch : ChanId} {bad : List (FnId × BitVec 48)} (hk : Keeps s₀ s) :
    OKeeps s₀ (State.mapoutNow s ch bad) := by
  unfold State.mapoutNow
  repeat' (first | with_reducible assumption | with_reducible intro _ | with_reducible refine State.loseT1_keeps ?_ | with_reducible refine State.countUe_keeps ?_ | with_reducible refine State.modChan_keeps ?_ | with_reducible refine State.recordMapout_keeps ?_ | with_reducible refine State.moveFrames_keeps ?_ | with_reducible refine OKeeps.none | with_reducible refine OKeeps.some ?_ | (rw [State.mk_eq_of]; with_reducible refine Keeps.upd ?_) | with_reducible refine Keeps.foldl ?_ ?_ | with_reducible refine OKeeps.foldl ?_ ?_ | with_reducible refine PKeeps.foldl ?_ ?_ | with_reducible refine OKeeps.map ?_ ?_ | with_reducible refine OKeeps.mapQ ?_ ?_ | with_reducible refine OKeeps.mapOf ?_ | with_reducible refine OKeeps.getD ?_ ?_ | with_reducible refine OKeeps.use (by assumption) ?_ | with_reducible refine PKeeps.use (by assumption) ?_ | dsimp only | split)

theorem channelMapout_keeps {s₀ : State} {k : Cmd} {bad : List (FnId × BitVec 48)} {s : State} (hk : Keeps s₀ s) :
    Keeps s₀ (channelMapout k bad s) := by
  unfold channelMapout
  repeat' (first | with_reducible assumption | with_reducible intro _ | with_reducible refine checked_keeps ?_ ?_ | with_reducible refine State.ledgerRefused_keeps ?_ | with_reducible refine State.finish_keeps ?_ | with_reducible refine State.recordMapout_keeps ?_ | with_reducible refine State.mapoutNow_keeps ?_ | with_reducible refine OKeeps.none | with_reducible refine OKeeps.some ?_ | (rw [State.mk_eq_of]; with_reducible refine Keeps.upd ?_) | with_reducible refine OKeeps.map ?_ ?_ | with_reducible refine OKeeps.mapQ ?_ ?_ | with_reducible refine OKeeps.mapOf ?_ | with_reducible refine OKeeps.use (by assumption) ?_ | dsimp only | split)

theorem execChannelMapout_keeps {s₀ : State} {k : Cmd} {bad : List (FnId × BitVec 48)} {s : State} (hk : Keeps s₀ s) :
    RKeeps s₀ (execChannelMapout k bad s) := by
  unfold execChannelMapout
  repeat' (first | with_reducible assumption | with_reducible intro _ | with_reducible refine hostCmd_keeps ?_ ?_ | with_reducible refine channelMapout_keeps ?_ | with_reducible refine RKeeps.next ?_ | (rw [State.mk_eq_of]; with_reducible refine Keeps.upd ?_) | with_reducible refine RKeeps.use (by assumption) ?_ | dsimp only | split)

theorem execChannelMapoutAtBoot_keeps {s₀ : State} {k : Cmd} {s : State} (hk : Keeps s₀ s) :
    RKeeps s₀ (execChannelMapoutAtBoot k s) := by
  unfold execChannelMapoutAtBoot
  repeat' (first | with_reducible assumption | with_reducible intro _ | with_reducible refine hostCmd_keeps ?_ ?_ | with_reducible refine channelMapout_keeps ?_ | with_reducible refine RKeeps.next ?_ | (rw [State.mk_eq_of]; with_reducible refine Keeps.upd ?_) | with_reducible refine RKeeps.use (by assumption) ?_ | dsimp only | split)

theorem stackRepairQuery_keeps {s₀ : State} {k : Cmd} {first : List (Nat × Nat × Nat)} {s : State} (hk : Keeps s₀ s) :
    Keeps s₀ (stackRepairQuery k first s) := by
  unfold stackRepairQuery
  repeat' (first | with_reducible assumption | with_reducible intro _ | with_reducible refine checked_keeps ?_ ?_ | with_reducible refine State.finish_keeps ?_ | (rw [State.mk_eq_of]; with_reducible refine Keeps.upd ?_) | dsimp only | split)

theorem execStackRepairQuery_keeps {s₀ : State} {k : Cmd} {first : List (Nat × Nat × Nat)} {s : State} (hk : Keeps s₀ s) :
    RKeeps s₀ (execStackRepairQuery k first s) := by
  unfold execStackRepairQuery
  repeat' (first | with_reducible assumption | with_reducible intro _ | with_reducible refine hostCmd_keeps ?_ ?_ | with_reducible refine stackRepairQuery_keeps ?_ | with_reducible refine RKeeps.next ?_ | (rw [State.mk_eq_of]; with_reducible refine Keeps.upd ?_) | with_reducible refine RKeeps.use (by assumption) ?_ | dsimp only | split)

theorem stackRepairApply_keeps {s₀ : State} {k : Cmd} {s : State} (hk : Keeps s₀ s) :
    Keeps s₀ (stackRepairApply k s) := by
  unfold stackRepairApply
  repeat' (first | with_reducible assumption | with_reducible intro _ | with_reducible refine checked_keeps ?_ ?_ | with_reducible refine State.ledgerWrite_keeps ?_ | with_reducible refine State.settle_keeps ?_ | with_reducible refine State.pumpAll_keeps ?_ | with_reducible refine State.finish_keeps ?_ | with_reducible refine State.channelFree_keeps ?_ | with_reducible refine State.ledgerRefused_keeps ?_ | with_reducible refine State.modChan_keeps ?_ | with_reducible refine OKeeps.none | with_reducible refine OKeeps.some ?_ | (rw [State.mk_eq_of]; with_reducible refine Keeps.upd ?_) | with_reducible refine Keeps.foldl ?_ ?_ | with_reducible refine OKeeps.foldl ?_ ?_ | with_reducible refine OKeeps.map ?_ ?_ | with_reducible refine OKeeps.mapQ ?_ ?_ | with_reducible refine OKeeps.mapOf ?_ | with_reducible refine OKeeps.use (by assumption) ?_ | dsimp only | split)

theorem execStackRepairApply_keeps {s₀ : State} {k : Cmd} {s : State} (hk : Keeps s₀ s) :
    RKeeps s₀ (execStackRepairApply k s) := by
  unfold execStackRepairApply
  repeat' (first | with_reducible assumption | with_reducible intro _ | with_reducible refine hostCmd_keeps ?_ ?_ | with_reducible refine stackRepairApply_keeps ?_ | with_reducible refine RKeeps.next ?_ | (rw [State.mk_eq_of]; with_reducible refine Keeps.upd ?_) | with_reducible refine RKeeps.use (by assumption) ?_ | dsimp only | split)

end Sys2Proof.Machine
end

