-- ==== Sys2Proof/Laws/KeepsGriz.lean ====
section
/-! SUPPORT. The operations of Machine/Griz.lean keep what `Keeps` says. -/

set_option linter.unusedTactic false
set_option linter.unreachableTactic false

namespace Sys2Proof.Machine

theorem linkStatus_keeps {s₀ : State} {k : Cmd} {s : State} (hk : Keeps s₀ s) :
    Keeps s₀ (linkStatus k s) := by
  unfold linkStatus
  repeat' (first | with_reducible assumption | with_reducible intro _ | with_reducible refine checked_keeps ?_ ?_ | with_reducible refine State.finish_keeps ?_ | (rw [State.mk_eq_of]; with_reducible refine Keeps.upd ?_) | dsimp only | split)

theorem execLinkStatus_keeps {s₀ : State} {k : Cmd} {s : State} (hk : Keeps s₀ s) :
    RKeeps s₀ (execLinkStatus k s) := by
  unfold execLinkStatus
  repeat' (first | with_reducible assumption | with_reducible intro _ | with_reducible refine hostCmd_keeps ?_ ?_ | with_reducible refine linkStatus_keeps ?_ | with_reducible refine RKeeps.next ?_ | (rw [State.mk_eq_of]; with_reducible refine Keeps.upd ?_) | with_reducible refine RKeeps.use (by assumption) ?_ | dsimp only | split)

theorem State.bringUp_keeps {s₀ : State} {s : State} {p : PortId} {x : Partner} (hk : Keeps s₀ s) :
    Keeps s₀ (State.bringUp s p x) := by
  unfold State.bringUp
  repeat' (first | with_reducible assumption | with_reducible intro _ | with_reducible refine State.modPort_keeps ?_ | with_reducible refine State.fence_keeps ?_ | with_reducible refine State.rekeyPort_keeps ?_ | (rw [State.mk_eq_of]; with_reducible refine Keeps.upd ?_) | dsimp only | split)

theorem State.assignPorts_keeps {s₀ : State} {s : State} {k : Cmd} {named : List PortId} (hk : Keeps s₀ s) :
    Keeps s₀ (State.assignPorts s k named) := by
  unfold State.assignPorts
  repeat' (first | with_reducible assumption | with_reducible intro _ | with_reducible refine State.modPort_keeps ?_ | with_reducible refine State.log_keeps ?_ | (rw [State.mk_eq_of]; with_reducible refine Keeps.upd ?_) | with_reducible refine Keeps.foldl ?_ ?_ | dsimp only | split)

theorem State.bringupReply_keeps {s₀ : State} {s : State} {k : Cmd} {named : List PortId} (hk : Keeps s₀ s) :
    Keeps s₀ (State.bringupReply s k named) := by
  unfold State.bringupReply
  repeat' (first | with_reducible assumption | with_reducible intro _ | with_reducible refine State.finish_keeps ?_ | (rw [State.mk_eq_of]; with_reducible refine Keeps.upd ?_) | with_reducible refine Keeps.foldl ?_ ?_ | dsimp only | split)

theorem linkBringup_keeps {s₀ : State} {k : Cmd} {partners : List (PortId × Partner)} {s : State} (hk : Keeps s₀ s) :
    Keeps s₀ (linkBringup k partners s) := by
  unfold linkBringup
  repeat' (first | with_reducible assumption | with_reducible intro _ | with_reducible refine checked_keeps ?_ ?_ | with_reducible refine State.finish_keeps ?_ | with_reducible refine State.ledgerRefused_keeps ?_ | with_reducible refine State.ledgerWrite_keeps ?_ | with_reducible refine State.bringUp_keeps ?_ | with_reducible refine State.pumpAll_keeps ?_ | with_reducible refine State.bringupReply_keeps ?_ | with_reducible refine State.assignPorts_keeps ?_ | with_reducible refine OKeeps.none | with_reducible refine OKeeps.some ?_ | (rw [State.mk_eq_of]; with_reducible refine Keeps.upd ?_) | with_reducible refine Keeps.foldl ?_ ?_ | with_reducible refine OKeeps.foldl ?_ ?_ | with_reducible refine OKeeps.map ?_ ?_ | with_reducible refine OKeeps.mapQ ?_ ?_ | with_reducible refine OKeeps.mapOf ?_ | with_reducible refine OKeeps.getD ?_ ?_ | with_reducible refine OKeeps.use (by assumption) ?_ | dsimp only | split)

theorem execLinkBringup_keeps {s₀ : State} {k : Cmd} {partners : List (PortId × Partner)} {s : State} (hk : Keeps s₀ s) :
    RKeeps s₀ (execLinkBringup k partners s) := by
  unfold execLinkBringup
  repeat' (first | with_reducible assumption | with_reducible intro _ | with_reducible refine hostCmd_keeps ?_ ?_ | with_reducible refine linkBringup_keeps ?_ | with_reducible refine RKeeps.next ?_ | (rw [State.mk_eq_of]; with_reducible refine Keeps.upd ?_) | with_reducible refine RKeeps.use (by assumption) ?_ | dsimp only | split)

theorem laneDiag_keeps {s₀ : State} {k : Cmd} {results : List (BitVec 64)} {s : State} (hk : Keeps s₀ s) :
    Keeps s₀ (laneDiag k results s) := by
  unfold laneDiag
  repeat' (first | with_reducible assumption | with_reducible intro _ | with_reducible refine checked_keeps ?_ ?_ | with_reducible refine State.finish_keeps ?_ | (rw [State.mk_eq_of]; with_reducible refine Keeps.upd ?_) | dsimp only | split)

theorem execLaneDiag_keeps {s₀ : State} {k : Cmd} {results : List (BitVec 64)} {s : State} (hk : Keeps s₀ s) :
    RKeeps s₀ (execLaneDiag k results s) := by
  unfold execLaneDiag
  repeat' (first | with_reducible assumption | with_reducible intro _ | with_reducible refine hostCmd_keeps ?_ ?_ | with_reducible refine laneDiag_keeps ?_ | with_reducible refine RKeeps.next ?_ | (rw [State.mk_eq_of]; with_reducible refine Keeps.upd ?_) | with_reducible refine RKeeps.use (by assumption) ?_ | dsimp only | split)

theorem laneRetrainTrigger_keeps {s₀ : State} {p : PortId} {l : Fin 16} {code : BitVec 4} {s : State} (hk : Keeps s₀ s) :
    Keeps s₀ (laneRetrainTrigger p l code s) := by
  unfold laneRetrainTrigger
  repeat' (first | with_reducible assumption | with_reducible intro _ | with_reducible refine State.log_keeps ?_ | with_reducible refine State.modPort_keeps ?_ | (rw [State.mk_eq_of]; with_reducible refine Keeps.upd ?_) | dsimp only | split)

theorem execLaneRetrainTrigger_keeps {s₀ : State} {p : PortId} {l : Fin 16} {code : BitVec 4} {s : State} (hk : Keeps s₀ s) :
    RKeeps s₀ (execLaneRetrainTrigger p l code s) := by
  unfold execLaneRetrainTrigger
  repeat' (first | with_reducible assumption | with_reducible intro _ | with_reducible refine laneRetrainTrigger_keeps ?_ | with_reducible refine RKeeps.next ?_ | (rw [State.mk_eq_of]; with_reducible refine Keeps.upd ?_) | with_reducible refine RKeeps.use (by assumption) ?_ | dsimp only | split)

theorem laneRetrainComplete_keeps {s₀ : State} {p : PortId} {l : Fin 16} {s : State} (hk : Keeps s₀ s) :
    Keeps s₀ (laneRetrainComplete p l s) := by
  unfold laneRetrainComplete
  repeat' (first | with_reducible assumption | with_reducible intro _ | with_reducible refine State.settle_keeps ?_ | with_reducible refine State.pumpAll_keeps ?_ | with_reducible refine State.modPort_keeps ?_ | (rw [State.mk_eq_of]; with_reducible refine Keeps.upd ?_) | dsimp only | split)

theorem execLaneRetrainComplete_keeps {s₀ : State} {p : PortId} {l : Fin 16} {s : State} (hk : Keeps s₀ s) :
    RKeeps s₀ (execLaneRetrainComplete p l s) := by
  unfold execLaneRetrainComplete
  repeat' (first | with_reducible assumption | with_reducible intro _ | with_reducible refine laneRetrainComplete_keeps ?_ | with_reducible refine RKeeps.next ?_ | (rw [State.mk_eq_of]; with_reducible refine Keeps.upd ?_) | with_reducible refine RKeeps.use (by assumption) ?_ | dsimp only | split)

theorem execLaneRetrainTimeout_keeps {s₀ : State} {p : PortId} {l : Fin 16} {s : State} (hk : Keeps s₀ s) :
    RKeeps s₀ (execLaneRetrainTimeout p l s) := by
  unfold execLaneRetrainTimeout
  repeat' (first | with_reducible assumption | with_reducible intro _ | with_reducible refine State.settle_keeps ?_ | with_reducible refine State.anneal_keeps ?_ | with_reducible refine RKeeps.next ?_ | (rw [State.mk_eq_of]; with_reducible refine Keeps.upd ?_) | with_reducible refine RKeeps.use (by assumption) ?_ | dsimp only | split)

theorem execAcknowledgementTimeout_keeps {s₀ : State} {p : PortId} {s : State} (hk : Keeps s₀ s) :
    RKeeps s₀ (execAcknowledgementTimeout p s) := by
  unfold execAcknowledgementTimeout
  repeat' (first | with_reducible assumption | with_reducible intro _ | with_reducible refine State.modPort_keeps ?_ | with_reducible refine State.settle_keeps ?_ | with_reducible refine State.anneal_keeps ?_ | with_reducible refine RKeeps.next ?_ | (rw [State.mk_eq_of]; with_reducible refine Keeps.upd ?_) | with_reducible refine RKeeps.use (by assumption) ?_ | dsimp only | split)

theorem execCreditStarvationTimeout_keeps {s₀ : State} {p : PortId} {s : State} (hk : Keeps s₀ s) :
    RKeeps s₀ (execCreditStarvationTimeout p s) := by
  unfold execCreditStarvationTimeout
  repeat' (first | with_reducible assumption | with_reducible intro _ | with_reducible refine State.settle_keeps ?_ | with_reducible refine State.anneal_keeps ?_ | with_reducible refine RKeeps.next ?_ | (rw [State.mk_eq_of]; with_reducible refine Keeps.upd ?_) | with_reducible refine RKeeps.use (by assumption) ?_ | dsimp only | split)

theorem State.linkTick_keeps {s₀ : State} {s : State} (hk : Keeps s₀ s) :
    Keeps s₀ (State.linkTick s) := by
  unfold State.linkTick
  repeat' (first | with_reducible assumption | with_reducible intro _ | (rw [State.mk_eq_of]; with_reducible refine Keeps.upd ?_) | dsimp only | split)

theorem State.frameFails_keeps {s₀ : State} {s : State} {p : PortId} (hk : Keeps s₀ s) :
    Keeps s₀ (State.frameFails s p) := by
  unfold State.frameFails
  repeat' (first | with_reducible assumption | with_reducible intro _ | with_reducible refine State.modPort_keeps ?_ | with_reducible refine State.fence_keeps ?_ | (rw [State.mk_eq_of]; with_reducible refine Keeps.upd ?_) | dsimp only | split)

theorem frame_keeps {s₀ : State} {p : PortId} {seq : ℕ} {ack : ℕ} {retry : Bool} {tagOk : Bool} {errs : List (Fin 8 × Fin 280 × BitVec 8)} {s : State} (hk : Keeps s₀ s) :
    Keeps s₀ (frame p seq ack retry tagOk errs s) := by
  unfold frame
  repeat' (first | with_reducible assumption | with_reducible intro _ | with_reducible refine State.modPort_keeps ?_ | with_reducible refine State.frameFails_keeps ?_ | (rw [State.mk_eq_of]; with_reducible refine Keeps.upd ?_) | dsimp only | split)

theorem execFrame_keeps {s₀ : State} {p : PortId} {seq : BitVec 12} {ack : BitVec 12} {retry : Bool} {tagOk : Bool} {data : List (Fin 8 × Fin 256 × BitVec 8)} {check : List (Fin 8 × Fin 24 × BitVec 8)} {s : State} (hk : Keeps s₀ s) :
    RKeeps s₀ (execFrame p seq ack retry tagOk data check s) := by
  unfold execFrame
  repeat' (first | with_reducible assumption | with_reducible intro _ | with_reducible refine State.settle_keeps ?_ | with_reducible refine frame_keeps ?_ | with_reducible refine RKeeps.next ?_ | (rw [State.mk_eq_of]; with_reducible refine Keeps.upd ?_) | with_reducible refine RKeeps.use (by assumption) ?_ | dsimp only | split)

theorem State.sendKey_keeps {s₀ : State} {s : State} {p : PortId} {message : ℕ} {body : List Byte} (hk : Keeps s₀ s) :
    Keeps s₀ (State.sendKey s p message body) := by
  unfold State.sendKey
  repeat' (first | with_reducible assumption | with_reducible intro _ | with_reducible refine State.sendRecord_keeps ?_ | with_reducible refine State.modPort_keeps ?_ | (rw [State.mk_eq_of]; with_reducible refine Keeps.upd ?_) | dsimp only | split)

theorem execLinkRekey_keeps {s₀ : State} {p : PortId} {s : State} (hk : Keeps s₀ s) :
    RKeeps s₀ (execLinkRekey p s) := by
  unfold execLinkRekey
  repeat' (first | with_reducible assumption | with_reducible intro _ | with_reducible refine State.draw_keeps ?_ | with_reducible refine State.sendKey_keeps ?_ | with_reducible refine State.modPort_keeps ?_ | with_reducible refine RKeeps.next ?_ | (rw [State.mk_eq_of]; with_reducible refine Keeps.upd ?_) | with_reducible refine QKeeps.use (by assumption) ?_ | with_reducible refine RKeeps.use (by assumption) ?_ | dsimp only | split)

theorem key_keeps {s₀ : State} {p : PortId} {message : ℕ} {body : List Byte} {s : State} (hk : Keeps s₀ s) :
    Keeps s₀ (key p message body s) := by
  unfold key
  repeat' (first | with_reducible assumption | with_reducible intro _ | with_reducible refine State.fence_keeps ?_ | with_reducible refine State.modPort_keeps ?_ | with_reducible refine State.draw_keeps ?_ | with_reducible refine State.sendKey_keeps ?_ | (rw [State.mk_eq_of]; with_reducible refine Keeps.upd ?_) | with_reducible refine QKeeps.use (by assumption) ?_ | dsimp only | split)

theorem execKey_keeps {s₀ : State} {p : PortId} {message : Fin 4} {body : List Byte} {s : State} (hk : Keeps s₀ s) :
    RKeeps s₀ (execKey p message body s) := by
  unfold execKey
  repeat' (first | with_reducible assumption | with_reducible intro _ | with_reducible refine State.settle_keeps ?_ | with_reducible refine key_keeps ?_ | with_reducible refine RKeeps.next ?_ | (rw [State.mk_eq_of]; with_reducible refine Keeps.upd ?_) | with_reducible refine RKeeps.use (by assumption) ?_ | dsimp only | split)

theorem State.policyFrames_keeps {s₀ : State} {s : State} {k : Cmd} (hk : Keeps s₀ s) :
    OKeeps s₀ (State.policyFrames s k) := by
  unfold State.policyFrames
  repeat' (first | with_reducible assumption | with_reducible intro _ | with_reducible refine State.allocT1_keeps ?_ | with_reducible refine State.freeT1_keeps ?_ | with_reducible refine OKeeps.none | with_reducible refine OKeeps.some ?_ | (rw [State.mk_eq_of]; with_reducible refine Keeps.upd ?_) | with_reducible refine OKeeps.use (by assumption) ?_ | dsimp only | split)

theorem State.formCohort_keeps {s₀ : State} {s : State} {k : Cmd} (hk : Keeps s₀ s) :
    Keeps s₀ (State.formCohort s k) := by
  unfold State.formCohort
  repeat' (first | with_reducible assumption | with_reducible intro _ | with_reducible refine State.modFn_keeps ?_ | (rw [State.mk_eq_of]; with_reducible refine Keeps.upd ?_) | dsimp only | split)

theorem cohortForm_keeps {s₀ s : State} {k : Cmd} (h : Keeps s₀ s) : Keeps s₀ (cohortForm k s) := by
  refine checked_keeps h fun x hx => ?_
  have hf : ∀ st, Keeps s₀ (x.finish .cohortForm k st) := fun _ => State.finish_keeps hx
  generalize x.policyCheck k = c
  cases c with
  | some st => exact hf st
  | none =>
    have hp := State.policyFrames_keeps (k := k) hx
    generalize x.policyFrames k = o at hp
    cases o with
    | none => exact hf _
    | some t => exact State.finish_keeps (State.formCohort_keeps (hp t rfl))

theorem execCohortForm_keeps {s₀ : State} {k : Cmd} {s : State} (hk : Keeps s₀ s) :
    RKeeps s₀ (execCohortForm k s) := by
  unfold execCohortForm
  repeat' (first | with_reducible assumption | with_reducible intro _ | with_reducible refine hostCmd_keeps ?_ ?_ | with_reducible refine cohortForm_keeps ?_ | with_reducible refine RKeeps.next ?_ | (rw [State.mk_eq_of]; with_reducible refine Keeps.upd ?_) | with_reducible refine RKeeps.use (by assumption) ?_ | dsimp only | split)

theorem cohortLeave_keeps {s₀ : State} {k : Cmd} {s : State} (hk : Keeps s₀ s) :
    Keeps s₀ (cohortLeave k s) := by
  unfold cohortLeave
  repeat' (first | with_reducible assumption | with_reducible intro _ | with_reducible refine checked_keeps ?_ ?_ | with_reducible refine State.freeT1_keeps ?_ | with_reducible refine State.closeWindows_keeps ?_ | with_reducible refine State.scrapPrepared_keeps ?_ | with_reducible refine State.finish_keeps ?_ | with_reducible refine State.modFn_keeps ?_ | (rw [State.mk_eq_of]; with_reducible refine Keeps.upd ?_) | dsimp only | split)

theorem execCohortLeave_keeps {s₀ : State} {k : Cmd} {s : State} (hk : Keeps s₀ s) :
    RKeeps s₀ (execCohortLeave k s) := by
  unfold execCohortLeave
  repeat' (first | with_reducible assumption | with_reducible intro _ | with_reducible refine hostCmd_keeps ?_ ?_ | with_reducible refine cohortLeave_keeps ?_ | with_reducible refine RKeeps.next ?_ | (rw [State.mk_eq_of]; with_reducible refine Keeps.upd ?_) | with_reducible refine RKeeps.use (by assumption) ?_ | dsimp only | split)

theorem windowOpen_keeps {s₀ : State} {k : Cmd} {s : State} (hk : Keeps s₀ s) :
    Keeps s₀ (windowOpen k s) := by
  unfold windowOpen
  repeat' (first | with_reducible assumption | with_reducible intro _ | with_reducible refine checked_keeps ?_ ?_ | with_reducible refine State.finish_keeps ?_ | with_reducible refine State.modForge_keeps ?_ | (rw [State.mk_eq_of]; with_reducible refine Keeps.upd ?_) | dsimp only | split)

theorem execWindowOpen_keeps {s₀ : State} {k : Cmd} {s : State} (hk : Keeps s₀ s) :
    RKeeps s₀ (execWindowOpen k s) := by
  unfold execWindowOpen
  repeat' (first | with_reducible assumption | with_reducible intro _ | with_reducible refine hostCmd_keeps ?_ ?_ | with_reducible refine windowOpen_keeps ?_ | with_reducible refine RKeeps.next ?_ | (rw [State.mk_eq_of]; with_reducible refine Keeps.upd ?_) | with_reducible refine RKeeps.use (by assumption) ?_ | dsimp only | split)

theorem State.closeWindow_keeps {s₀ : State} {s : State} {f : ForgeId} {w : Window} (hk : Keeps s₀ s) :
    Keeps s₀ (State.closeWindow s f w) := by
  unfold State.closeWindow
  repeat' (first | with_reducible assumption | with_reducible intro _ | with_reducible refine State.modForge_keeps ?_ | (rw [State.mk_eq_of]; with_reducible refine Keeps.upd ?_) | dsimp only | split)

theorem windowClose_keeps {s₀ : State} {k : Cmd} {s : State} (hk : Keeps s₀ s) :
    Keeps s₀ (windowClose k s) := by
  unfold windowClose
  repeat' (first | with_reducible assumption | with_reducible intro _ | with_reducible refine checked_keeps ?_ ?_ | with_reducible refine State.finish_keeps ?_ | with_reducible refine State.closeWindow_keeps ?_ | (rw [State.mk_eq_of]; with_reducible refine Keeps.upd ?_) | dsimp only | split)

theorem execWindowClose_keeps {s₀ : State} {k : Cmd} {s : State} (hk : Keeps s₀ s) :
    RKeeps s₀ (execWindowClose k s) := by
  unfold execWindowClose
  repeat' (first | with_reducible assumption | with_reducible intro _ | with_reducible refine hostCmd_keeps ?_ ?_ | with_reducible refine windowClose_keeps ?_ | with_reducible refine RKeeps.next ?_ | (rw [State.mk_eq_of]; with_reducible refine Keeps.upd ?_) | with_reducible refine RKeeps.use (by assumption) ?_ | dsimp only | split)

theorem execWindowExpiry_keeps {s₀ : State} {handle : BitVec 16} {s : State} (hk : Keeps s₀ s) :
    RKeeps s₀ (execWindowExpiry handle s) := by
  unfold execWindowExpiry
  repeat' (first | with_reducible assumption | with_reducible intro _ | with_reducible refine State.closeWindow_keeps ?_ | with_reducible refine RKeeps.next ?_ | (rw [State.mk_eq_of]; with_reducible refine Keeps.upd ?_) | with_reducible refine RKeeps.use (by assumption) ?_ | dsimp only | split)

theorem State.discardMsg_keeps {s₀ : State} {s : State} {p : PortId} {m : Msg} (hk : Keeps s₀ s) :
    Keeps s₀ (State.discardMsg s p m) := by
  unfold State.discardMsg
  repeat' (first | with_reducible assumption | with_reducible intro _ | with_reducible refine State.log_keeps ?_ | with_reducible refine State.modPort_keeps ?_ | (rw [State.mk_eq_of]; with_reducible refine Keeps.upd ?_) | dsimp only | split)

theorem onRecord_keeps {s₀ : State} {p : PortId} {m : Msg} {body : FnId → State → State} {s : State} (hk : Keeps s₀ s)
    (hb0 : ∀ x0 x1, Keeps s₀ x1 → Keeps s₀ (body x0 x1)) :
    RKeeps s₀ (onRecord p m body s) := by
  unfold onRecord
  repeat' (first | with_reducible assumption | with_reducible intro _ | with_reducible refine hb0 _ _ ?_ | with_reducible refine State.discardMsg_keeps ?_ | with_reducible refine State.settle_keeps ?_ | with_reducible refine State.pumpFn_keeps ?_ | with_reducible refine RKeeps.next ?_ | (rw [State.mk_eq_of]; with_reducible refine Keeps.upd ?_) | with_reducible refine RKeeps.use (by assumption) ?_ | dsimp only | split)

theorem State.mismatch_keeps {s₀ : State} {s : State} {fn : FnId} {p : PortId} {m : Msg} (hk : Keeps s₀ s) :
    Keeps s₀ (State.mismatch s fn p m) := by
  unfold State.mismatch
  repeat' (first | with_reducible assumption | with_reducible intro _ | with_reducible refine State.anneal_keeps ?_ | with_reducible refine State.closeStep_keeps ?_ | with_reducible refine State.log_keeps ?_ | (rw [State.mk_eq_of]; with_reducible refine Keeps.upd ?_) | with_reducible refine Keeps.foldl ?_ ?_ | dsimp only | split)

theorem State.accept_keeps {s₀ : State} {s : State} {fn : FnId} {x : Mould} {i : ℕ} {m : Msg} {held : Option ℕ} (hk : Keeps s₀ s) :
    Keeps s₀ (State.accept s fn x i m held) := by
  unfold State.accept
  repeat' (first | with_reducible assumption | with_reducible intro _ | with_reducible refine State.modFn_keeps ?_ | (rw [State.mk_eq_of]; with_reducible refine Keeps.upd ?_) | dsimp only | split)

theorem State.answered_keeps {s₀ : State} {s : State} {fn : FnId} {p : PortId} {x : Mould} {i : ℕ} {e : XferEntry} {m : Msg} (hk : Keeps s₀ s) :
    Keeps s₀ (State.answered s fn p x i e m) := by
  unfold State.answered
  repeat' (first | with_reducible assumption | with_reducible intro _ | with_reducible refine State.discardMsg_keeps ?_ | with_reducible refine State.endStep_keeps ?_ | with_reducible refine State.mismatch_keeps ?_ | with_reducible refine State.accept_keeps ?_ | (rw [State.mk_eq_of]; with_reducible refine Keeps.upd ?_) | dsimp only | split)

theorem data_keeps {s₀ : State} {p : PortId} {m : Msg} {fn : FnId} {s : State} (hk : Keeps s₀ s) :
    Keeps s₀ (data p m fn s) := by
  unfold data
  repeat' (first | with_reducible assumption | with_reducible intro _ | with_reducible refine State.mismatch_keeps ?_ | with_reducible refine State.discardMsg_keeps ?_ | with_reducible refine State.modPort_keeps ?_ | with_reducible refine State.answered_keeps ?_ | with_reducible refine State.accept_keeps ?_ | (rw [State.mk_eq_of]; with_reducible refine Keeps.upd ?_) | dsimp only | split)

theorem execData_keeps {s₀ : State} {p : PortId} {m : Msg} {s : State} (hk : Keeps s₀ s) :
    RKeeps s₀ (execData p m s) := by
  unfold execData
  repeat' (first | with_reducible assumption | with_reducible intro _ | with_reducible refine onRecord_keeps ?_ ?_ | with_reducible refine data_keeps ?_ | with_reducible refine RKeeps.next ?_ | (rw [State.mk_eq_of]; with_reducible refine Keeps.upd ?_) | with_reducible refine RKeeps.use (by assumption) ?_ | dsimp only | split)

theorem credit_keeps {s₀ s : State} {p : PortId} {m : Msg} {fn : FnId} (h : Keeps s₀ s) : Keeps s₀ (credit p m fn s) := by
  unfold credit
  split
  · exact Keeps.ite (fun _ => State.modFn_keeps h) fun _ => State.discardMsg_keeps h
  · exact State.modFn_keeps h

theorem execCredit_keeps {s₀ : State} {p : PortId} {m : Msg} {s : State} (hk : Keeps s₀ s) :
    RKeeps s₀ (execCredit p m s) := by
  unfold execCredit
  repeat' (first | with_reducible assumption | with_reducible intro _ | with_reducible refine onRecord_keeps ?_ ?_ | with_reducible refine credit_keeps ?_ | with_reducible refine RKeeps.next ?_ | (rw [State.mk_eq_of]; with_reducible refine Keeps.upd ?_) | with_reducible refine RKeeps.use (by assumption) ?_ | dsimp only | split)

theorem State.requested_keeps {s₀ : State} {s : State} {fn : FnId} {x : Mould} {e : XferEntry} {step : ℕ} (hk : Keeps s₀ s) :
    PKeeps s₀ (State.requested s fn x e step) := by
  unfold State.requested
  repeat' (first | with_reducible assumption | with_reducible intro _ | with_reducible refine State.conflict_keeps ?_ | (rw [State.mk_eq_of]; with_reducible refine Keeps.upd ?_) | with_reducible refine PKeeps.use (by assumption) ?_ | dsimp only | split)

theorem request_keeps {s₀ : State} {p : PortId} {m : Msg} {fn : FnId} {s : State} (hk : Keeps s₀ s) :
    Keeps s₀ (request p m fn s) := by
  unfold request
  repeat' (first | with_reducible assumption | with_reducible intro _ | with_reducible refine State.discardMsg_keeps ?_ | with_reducible refine State.requested_keeps ?_ | with_reducible refine State.sendTo_keeps ?_ | (rw [State.mk_eq_of]; with_reducible refine Keeps.upd ?_) | with_reducible refine PKeeps.use (by assumption) ?_ | dsimp only | split)

theorem execRequest_keeps {s₀ : State} {p : PortId} {m : Msg} {s : State} (hk : Keeps s₀ s) :
    RKeeps s₀ (execRequest p m s) := by
  unfold execRequest
  repeat' (first | with_reducible assumption | with_reducible intro _ | with_reducible refine onRecord_keeps ?_ ?_ | with_reducible refine request_keeps ?_ | with_reducible refine RKeeps.next ?_ | (rw [State.mk_eq_of]; with_reducible refine Keeps.upd ?_) | with_reducible refine RKeeps.use (by assumption) ?_ | dsimp only | split)

theorem onHeld_keeps {s₀ : State} {p : PortId} {m : Msg} {g : (LogMsg → Bool) → List LogMsg → List LogMsg} {fn : FnId} {s : State} (hk : Keeps s₀ s) :
    Keeps s₀ (onHeld p m g fn s) := by
  unfold onHeld
  repeat' (first | with_reducible assumption | with_reducible intro _ | with_reducible refine State.discardMsg_keeps ?_ | with_reducible refine State.modFn_keeps ?_ | (rw [State.mk_eq_of]; with_reducible refine Keeps.upd ?_) | dsimp only | split)

theorem release_keeps {s₀ : State} {p : PortId} {m : Msg} {fn : FnId} {s : State} (hk : Keeps s₀ s) :
    Keeps s₀ (release p m fn s) := by
  unfold release
  repeat' (first | with_reducible assumption | with_reducible intro _ | with_reducible refine onHeld_keeps ?_ | (rw [State.mk_eq_of]; with_reducible refine Keeps.upd ?_) | dsimp only | split)

theorem discard_keeps {s₀ : State} {p : PortId} {m : Msg} {fn : FnId} {s : State} (hk : Keeps s₀ s) :
    Keeps s₀ (discard p m fn s) := by
  unfold discard
  repeat' (first | with_reducible assumption | with_reducible intro _ | with_reducible refine onHeld_keeps ?_ | (rw [State.mk_eq_of]; with_reducible refine Keeps.upd ?_) | dsimp only | split)

theorem execRelease_keeps {s₀ : State} {p : PortId} {m : Msg} {s : State} (hk : Keeps s₀ s) :
    RKeeps s₀ (execRelease p m s) := by
  unfold execRelease
  repeat' (first | with_reducible assumption | with_reducible intro _ | with_reducible refine onRecord_keeps ?_ ?_ | with_reducible refine release_keeps ?_ | with_reducible refine RKeeps.next ?_ | (rw [State.mk_eq_of]; with_reducible refine Keeps.upd ?_) | with_reducible refine RKeeps.use (by assumption) ?_ | dsimp only | split)

theorem execDiscard_keeps {s₀ : State} {p : PortId} {m : Msg} {s : State} (hk : Keeps s₀ s) :
    RKeeps s₀ (execDiscard p m s) := by
  unfold execDiscard
  repeat' (first | with_reducible assumption | with_reducible intro _ | with_reducible refine onRecord_keeps ?_ ?_ | with_reducible refine discard_keeps ?_ | with_reducible refine RKeeps.next ?_ | (rw [State.mk_eq_of]; with_reducible refine Keeps.upd ?_) | with_reducible refine RKeeps.use (by assumption) ?_ | dsimp only | split)

theorem State.strayDigest_keeps {s₀ : State} {s : State} {fn : FnId} {p : PortId} {m : Msg} (hk : Keeps s₀ s) :
    Keeps s₀ (State.strayDigest s fn p m) := by
  unfold State.strayDigest
  repeat' (first | with_reducible assumption | with_reducible intro _ | with_reducible refine State.endStep_keeps ?_ | with_reducible refine State.modFn_keeps ?_ | (rw [State.mk_eq_of]; with_reducible refine Keeps.upd ?_) | dsimp only | split)

theorem digest_keeps {s₀ : State} {p : PortId} {m : Msg} {fn : FnId} {s : State} (hk : Keeps s₀ s) :
    Keeps s₀ (digest p m fn s) := by
  unfold digest
  repeat' (first | with_reducible assumption | with_reducible intro _ | with_reducible refine State.strayDigest_keeps ?_ | with_reducible refine State.discardMsg_keeps ?_ | with_reducible refine State.modFn_keeps ?_ | with_reducible refine State.modMould_keeps ?_ | with_reducible refine State.endStep_keeps ?_ | (rw [State.mk_eq_of]; with_reducible refine Keeps.upd ?_) | dsimp only | split)

theorem execDigest_keeps {s₀ : State} {p : PortId} {m : Msg} {s : State} (hk : Keeps s₀ s) :
    RKeeps s₀ (execDigest p m s) := by
  unfold execDigest
  repeat' (first | with_reducible assumption | with_reducible intro _ | with_reducible refine onRecord_keeps ?_ ?_ | with_reducible refine digest_keeps ?_ | with_reducible refine RKeeps.next ?_ | (rw [State.mk_eq_of]; with_reducible refine Keeps.upd ?_) | with_reducible refine RKeeps.use (by assumption) ?_ | dsimp only | split)

theorem windowReq_keeps {s₀ : State} {p : PortId} {m : Msg} {fn : FnId} {s : State} (hk : Keeps s₀ s) :
    Keeps s₀ (windowReq p m fn s) := by
  unfold windowReq
  repeat' (first | with_reducible assumption | with_reducible intro _ | with_reducible refine State.refuseRequest_keeps ?_ | with_reducible refine State.windowTry_keeps ?_ | with_reducible refine State.modForge_keeps ?_ | with_reducible refine OKeeps.none | with_reducible refine OKeeps.some ?_ | (rw [State.mk_eq_of]; with_reducible refine Keeps.upd ?_) | with_reducible refine OKeeps.use (by assumption) ?_ | dsimp only | split)

theorem execWindowReq_keeps {s₀ : State} {p : PortId} {m : Msg} {s : State} (hk : Keeps s₀ s) :
    RKeeps s₀ (execWindowReq p m s) := by
  unfold execWindowReq
  repeat' (first | with_reducible assumption | with_reducible intro _ | with_reducible refine onRecord_keeps ?_ ?_ | with_reducible refine windowReq_keeps ?_ | with_reducible refine RKeeps.next ?_ | (rw [State.mk_eq_of]; with_reducible refine Keeps.upd ?_) | with_reducible refine RKeeps.use (by assumption) ?_ | dsimp only | split)

theorem windowResp_keeps {s₀ : State} {p : PortId} {m : Msg} {fn : FnId} {s : State} (hk : Keeps s₀ s) :
    Keeps s₀ (windowResp p m fn s) := by
  unfold windowResp
  repeat' (first | with_reducible assumption | with_reducible intro _ | with_reducible refine State.discardMsg_keeps ?_ | with_reducible refine State.endStep_keeps ?_ | with_reducible refine State.accept_keeps ?_ | (rw [State.mk_eq_of]; with_reducible refine Keeps.upd ?_) | dsimp only | split)

theorem execWindowResp_keeps {s₀ : State} {p : PortId} {m : Msg} {s : State} (hk : Keeps s₀ s) :
    RKeeps s₀ (execWindowResp p m s) := by
  unfold execWindowResp
  repeat' (first | with_reducible assumption | with_reducible intro _ | with_reducible refine onRecord_keeps ?_ ?_ | with_reducible refine windowResp_keeps ?_ | with_reducible refine RKeeps.next ?_ | (rw [State.mk_eq_of]; with_reducible refine Keeps.upd ?_) | with_reducible refine RKeeps.use (by assumption) ?_ | dsimp only | split)

theorem State.badHeat_keeps {s₀ : State} {s : State} {fn : FnId} {p : PortId} (hk : Keeps s₀ s) :
    Keeps s₀ (State.badHeat s fn p) := by
  unfold State.badHeat
  repeat' (first | with_reducible assumption | with_reducible intro _ | with_reducible refine State.log_keeps ?_ | with_reducible refine State.modPort_keeps ?_ | (rw [State.mk_eq_of]; with_reducible refine Keeps.upd ?_) | dsimp only | split)

theorem State.badVote_keeps {s₀ : State} {s : State} {fn : FnId} {p : PortId} (hk : Keeps s₀ s) :
    Keeps s₀ (State.badVote s fn p) := by
  unfold State.badVote
  repeat' (first | with_reducible assumption | with_reducible intro _ | with_reducible refine State.badHeat_keeps ?_ | with_reducible refine State.decide_keeps ?_ | (rw [State.mk_eq_of]; with_reducible refine Keeps.upd ?_) | dsimp only | split)

theorem votePrepared_keeps {s₀ : State} {p : PortId} {m : Msg} {fn : FnId} {s : State} (hk : Keeps s₀ s) :
    Keeps s₀ (votePrepared p m fn s) := by
  unfold votePrepared
  repeat' (first | with_reducible assumption | with_reducible intro _ | with_reducible refine State.badVote_keeps ?_ | with_reducible refine State.modFn_keeps ?_ | with_reducible refine State.tryDecide_keeps ?_ | (rw [State.mk_eq_of]; with_reducible refine Keeps.upd ?_) | dsimp only | split)

theorem voteScrap_keeps {s₀ : State} {p : PortId} {m : Msg} {fn : FnId} {s : State} (hk : Keeps s₀ s) :
    Keeps s₀ (voteScrap p m fn s) := by
  unfold voteScrap
  repeat' (first | with_reducible assumption | with_reducible intro _ | with_reducible refine State.badVote_keeps ?_ | with_reducible refine State.decide_keeps ?_ | with_reducible refine State.modFn_keeps ?_ | with_reducible refine State.badHeat_keeps ?_ | (rw [State.mk_eq_of]; with_reducible refine Keeps.upd ?_) | dsimp only | split)

theorem execVotePrepared_keeps {s₀ : State} {p : PortId} {m : Msg} {s : State} (hk : Keeps s₀ s) :
    RKeeps s₀ (execVotePrepared p m s) := by
  unfold execVotePrepared
  repeat' (first | with_reducible assumption | with_reducible intro _ | with_reducible refine onRecord_keeps ?_ ?_ | with_reducible refine votePrepared_keeps ?_ | with_reducible refine RKeeps.next ?_ | (rw [State.mk_eq_of]; with_reducible refine Keeps.upd ?_) | with_reducible refine RKeeps.use (by assumption) ?_ | dsimp only | split)

theorem execVoteScrap_keeps {s₀ : State} {p : PortId} {m : Msg} {s : State} (hk : Keeps s₀ s) :
    RKeeps s₀ (execVoteScrap p m s) := by
  unfold execVoteScrap
  repeat' (first | with_reducible assumption | with_reducible intro _ | with_reducible refine onRecord_keeps ?_ ?_ | with_reducible refine voteScrap_keeps ?_ | with_reducible refine RKeeps.next ?_ | (rw [State.mk_eq_of]; with_reducible refine Keeps.upd ?_) | with_reducible refine RKeeps.use (by assumption) ?_ | dsimp only | split)

theorem onDecision_keeps {s₀ : State} {p : PortId} {m : Msg} {fits : Heat → Bool} {past : Mould → ℕ → Bool} {act : Fin 32 × Heat → Mould → ℕ → State → State} {fn : FnId} {s : State} (hk : Keeps s₀ s)
    (hb0 : ∀ x0 x1 x2 x3, Keeps s₀ x3 → Keeps s₀ (act x0 x1 x2 x3)) :
    Keeps s₀ (onDecision p m fits past act fn s) := by
  unfold onDecision
  repeat' (first | with_reducible assumption | with_reducible intro _ | with_reducible refine hb0 _ _ _ _ ?_ | with_reducible refine State.badHeat_keeps ?_ | with_reducible refine State.sendHeat_keeps ?_ | (rw [State.mk_eq_of]; with_reducible refine Keeps.upd ?_) | dsimp only | split)

theorem decisionCommit_keeps {s₀ : State} {p : PortId} {m : Msg} {fn : FnId} {s : State} (hk : Keeps s₀ s) :
    Keeps s₀ (decisionCommit p m fn s) := by
  unfold decisionCommit
  repeat' (first | with_reducible assumption | with_reducible intro _ | with_reducible refine onDecision_keeps ?_ ?_ | with_reducible refine State.commitStepHeat_keeps ?_ | (rw [State.mk_eq_of]; with_reducible refine Keeps.upd ?_) | dsimp only | split)

theorem decisionScrap_keeps {s₀ : State} {p : PortId} {m : Msg} {fn : FnId} {s : State} (hk : Keeps s₀ s) :
    Keeps s₀ (decisionScrap p m fn s) := by
  unfold decisionScrap
  repeat' (first | with_reducible assumption | with_reducible intro _ | with_reducible refine onDecision_keeps ?_ ?_ | with_reducible refine State.annealStep_keeps ?_ | with_reducible refine State.scrapStepHeat_keeps ?_ | (rw [State.mk_eq_of]; with_reducible refine Keeps.upd ?_) | dsimp only | split)

theorem execDecisionCommit_keeps {s₀ : State} {p : PortId} {m : Msg} {s : State} (hk : Keeps s₀ s) :
    RKeeps s₀ (execDecisionCommit p m s) := by
  unfold execDecisionCommit
  repeat' (first | with_reducible assumption | with_reducible intro _ | with_reducible refine onRecord_keeps ?_ ?_ | with_reducible refine decisionCommit_keeps ?_ | with_reducible refine RKeeps.next ?_ | (rw [State.mk_eq_of]; with_reducible refine Keeps.upd ?_) | with_reducible refine RKeeps.use (by assumption) ?_ | dsimp only | split)

theorem execDecisionScrap_keeps {s₀ : State} {p : PortId} {m : Msg} {s : State} (hk : Keeps s₀ s) :
    RKeeps s₀ (execDecisionScrap p m s) := by
  unfold execDecisionScrap
  repeat' (first | with_reducible assumption | with_reducible intro _ | with_reducible refine onRecord_keeps ?_ ?_ | with_reducible refine decisionScrap_keeps ?_ | with_reducible refine RKeeps.next ?_ | (rw [State.mk_eq_of]; with_reducible refine Keeps.upd ?_) | with_reducible refine RKeeps.use (by assumption) ?_ | dsimp only | split)

theorem ack_keeps {s₀ : State} {p : PortId} {m : Msg} {fn : FnId} {s : State} (hk : Keeps s₀ s) :
    Keeps s₀ (ack p m fn s) := by
  unfold ack
  repeat' (first | with_reducible assumption | with_reducible intro _ | with_reducible refine State.badHeat_keeps ?_ | with_reducible refine State.modFn_keeps ?_ | (rw [State.mk_eq_of]; with_reducible refine Keeps.upd ?_) | dsimp only | split)

theorem execAck_keeps {s₀ : State} {p : PortId} {m : Msg} {s : State} (hk : Keeps s₀ s) :
    RKeeps s₀ (execAck p m s) := by
  unfold execAck
  repeat' (first | with_reducible assumption | with_reducible intro _ | with_reducible refine onRecord_keeps ?_ ?_ | with_reducible refine ack_keeps ?_ | with_reducible refine RKeeps.next ?_ | (rw [State.mk_eq_of]; with_reducible refine Keeps.upd ?_) | with_reducible refine RKeeps.use (by assumption) ?_ | dsimp only | split)

theorem query_keeps {s₀ : State} {p : PortId} {m : Msg} {fn : FnId} {s : State} (hk : Keeps s₀ s) :
    Keeps s₀ (query p m fn s) := by
  unfold query
  repeat' (first | with_reducible assumption | with_reducible intro _ | with_reducible refine State.badHeat_keeps ?_ | with_reducible refine State.sendHeat_keeps ?_ | with_reducible refine State.modFn_keeps ?_ | (rw [State.mk_eq_of]; with_reducible refine Keeps.upd ?_) | dsimp only | split)

theorem execQuery_keeps {s₀ : State} {p : PortId} {m : Msg} {s : State} (hk : Keeps s₀ s) :
    RKeeps s₀ (execQuery p m s) := by
  unfold execQuery
  repeat' (first | with_reducible assumption | with_reducible intro _ | with_reducible refine onRecord_keeps ?_ ?_ | with_reducible refine query_keeps ?_ | with_reducible refine RKeeps.next ?_ | (rw [State.mk_eq_of]; with_reducible refine Keeps.upd ?_) | with_reducible refine RKeeps.use (by assumption) ?_ | dsimp only | split)

theorem inDoubtQuery_keeps {s₀ : State} {fn : FnId} {slot : Fin 32} {s : State} (hk : Keeps s₀ s) :
    Keeps s₀ (inDoubtQuery fn slot s) := by
  unfold inDoubtQuery
  repeat' (first | with_reducible assumption | with_reducible intro _ | with_reducible refine State.sendHeat_keeps ?_ | (rw [State.mk_eq_of]; with_reducible refine Keeps.upd ?_) | dsimp only | split)

theorem execInDoubtQueryInterval_keeps {s₀ : State} {fn : FnId} {slot : Fin 32} {s : State} (hk : Keeps s₀ s) :
    RKeeps s₀ (execInDoubtQueryInterval fn slot s) := by
  unfold execInDoubtQueryInterval
  repeat' (first | with_reducible assumption | with_reducible intro _ | with_reducible refine inDoubtQuery_keeps ?_ | with_reducible refine RKeeps.next ?_ | (rw [State.mk_eq_of]; with_reducible refine Keeps.upd ?_) | with_reducible refine RKeeps.use (by assumption) ?_ | dsimp only | split)

end Sys2Proof.Machine
end

