-- ==== Sys2Proof/Laws/KeepsRegs.lean ====
section
/-! SUPPORT. The operations of Machine/Regs.lean keep what `Keeps` says. -/

set_option linter.unusedTactic false
set_option linter.unreachableTactic false

namespace Sys2Proof.Machine

theorem State.unlatch_keeps {s₀ : State} {s : State} {a : ℕ} (hk : Keeps s₀ s) :
    Keeps s₀ (State.unlatch s a) := by
  unfold State.unlatch
  repeat' (first | with_reducible assumption | with_reducible intro _ | (rw [State.mk_eq_of]; with_reducible refine Keeps.upd ?_) | dsimp only | split)

theorem State.latch_keeps {s₀ : State} {s : State} {a : ℕ} {v : ℕ} (hk : Keeps s₀ s) :
    Keeps s₀ (State.latch s a v) := by
  unfold State.latch
  repeat' (first | with_reducible assumption | with_reducible intro _ | with_reducible refine State.unlatch_keeps ?_ | (rw [State.mk_eq_of]; with_reducible refine Keeps.upd ?_) | dsimp only | split)

theorem State.unmask_keeps {s₀ : State} {s : State} {fn : FnId} {v : Fin 66} (hk : Keeps s₀ s) :
    Keeps s₀ (State.unmask s fn v) := by
  unfold State.unmask
  repeat' (first | with_reducible assumption | with_reducible intro _ | with_reducible refine State.send_keeps ?_ | with_reducible refine State.modHost_keeps ?_ | (rw [State.mk_eq_of]; with_reducible refine Keeps.upd ?_) | dsimp only | split)

/-- A register word whose read and write keep what `Keeps` says. -/
def RegWord.Good (r : RegWord) : Prop :=
  (∀ s₀ s, Keeps s₀ s → Keeps s₀ (r.read s)) ∧ ∀ g w s₀ s, r.write = some g → Keeps s₀ s → Keeps s₀ (g w s)
def GoodReg (o : Option RegWord) : Prop := ∀ r, o = some r → r.Good

theorem GoodReg.none : GoodReg none := fun _ h => by cases h
theorem GoodReg.some {r : RegWord} (h : r.Good) : GoodReg (some r) := fun _ e => by
  cases e
  exact h
theorem GoodReg.ite {c : Prop} [Decidable c] {a b : Option RegWord} (h : GoodReg a) (k : GoodReg b) :
    GoodReg (if c then a else b) := by
  by_cases hc : c
  · rw [if_pos hc]
    exact h
  · rw [if_neg hc]
    exact k
theorem RegWord.good_mk {v : Nat} {r : State → State} {g : Nat → State → State} {c : Bool}
    (h : ∀ s₀ s, Keeps s₀ s → Keeps s₀ (r s)) (k : ∀ w s₀ s, Keeps s₀ s → Keeps s₀ (g w s)) :
    RegWord.Good ⟨v, r, some g, c⟩ :=
  ⟨h, fun _ w s₀ s e hs => by
    cases e
    exact k w s₀ s hs⟩
theorem RegWord.good_read {v : Nat} {r : State → State} {c : Bool} (h : ∀ s₀ s, Keeps s₀ s → Keeps s₀ (r s)) :
    RegWord.Good ⟨v, r, none, c⟩ := ⟨h, fun _ _ _ _ e _ => by cases e⟩
theorem ro_good {v : Nat} : (ro v).Good := RegWord.good_read fun _ _ h => h
theorem roc_good {v : Nat} {c : State → State} (h : ∀ s₀ s, Keeps s₀ s → Keeps s₀ (c s)) : (roc v c).Good := RegWord.good_read h
theorem rw_good {v : Nat} {g : Nat → State → State} (k : ∀ w s₀ s, Keeps s₀ s → Keeps s₀ (g w s)) : (rw v g).Good :=
  RegWord.good_mk (fun _ _ h => h) k
theorem w1c_good {v i : Nat} {c : State → State} (h : ∀ s₀ s, Keeps s₀ s → Keeps s₀ (c s)) : (w1c v i c).Good :=
  RegWord.good_mk (fun _ _ h => h) fun _ s₀ s hs => Keeps.ite (fun _ => h s₀ s hs) fun _ => hs
theorem errWord_good {v : Bool} {a b : Nat} {c : State → State} (h : ∀ s₀ s, Keeps s₀ s → Keeps s₀ (c s)) :
    (errWord v a b c).Good := w1c_good h
theorem lowWord_good {a v : Nat} {c : State → State} (h : ∀ s₀ s, Keeps s₀ s → Keeps s₀ (c s)) : (lowWord a v c).Good :=
  RegWord.good_read fun s₀ s hs => State.latch_keeps (h s₀ s hs)
theorem highWord_good {s : State} {a v : Nat} : (highWord s a v).Good := RegWord.good_read fun _ _ h => State.unlatch_keeps h

theorem smithReg_good {s : State} {off : Nat} : GoodReg (smithReg s off) := by
  unfold smithReg
  repeat' (first | with_reducible exact GoodReg.none | with_reducible assumption | exact hs | with_reducible exact GoodReg.some ro_good | with_reducible refine GoodReg.some (roc_good fun _ _ hs => ?_) | (rw [State.mk_eq_of]; with_reducible refine Keeps.upd ?_) | with_reducible refine GoodReg.ite ?_ ?_ | dsimp only | split)

theorem hallReg_good {s : State} {off : Nat} : GoodReg (hallReg s off) := by
  unfold hallReg
  repeat' (first | with_reducible exact GoodReg.none | with_reducible assumption | exact hs | with_reducible exact GoodReg.some ro_good | with_reducible refine GoodReg.some (roc_good fun _ _ hs => ?_) | with_reducible refine GoodReg.some (errWord_good fun _ _ hs => ?_) | with_reducible refine State.modHall_keeps ?_ | (rw [State.mk_eq_of]; with_reducible refine Keeps.upd ?_) | with_reducible refine GoodReg.ite ?_ ?_ | dsimp only | split)

theorem ledgReg_good {s : State} {off : Nat} : GoodReg (ledgReg s off) := by
  unfold ledgReg
  repeat' (first | with_reducible exact GoodReg.none | with_reducible assumption | exact hs | with_reducible exact GoodReg.some ro_good | with_reducible refine GoodReg.some (roc_good fun _ _ hs => ?_) | (rw [State.mk_eq_of]; with_reducible refine Keeps.upd ?_) | with_reducible refine GoodReg.ite ?_ ?_ | dsimp only | split)

theorem eventReg_good {s : State} {a off : Nat} : GoodReg (eventReg s a off) := by
  unfold eventReg
  repeat' (first | with_reducible exact GoodReg.none | with_reducible assumption | exact hs | with_reducible exact GoodReg.some ro_good | with_reducible refine GoodReg.some (roc_good fun _ _ hs => ?_) | with_reducible refine GoodReg.some (lowWord_good fun _ _ hs => ?_) | with_reducible exact GoodReg.some highWord_good | (rw [State.mk_eq_of]; with_reducible refine Keeps.upd ?_) | with_reducible refine GoodReg.ite ?_ ?_ | dsimp only | split)

theorem timeReg_good {s : State} {a off : Nat} : GoodReg (timeReg s a off) := by
  unfold timeReg
  repeat' (first | with_reducible exact GoodReg.none | with_reducible assumption | exact hs | with_reducible refine GoodReg.some (roc_good fun _ _ hs => ?_) | with_reducible refine GoodReg.some (w1c_good fun _ _ hs => ?_) | with_reducible refine GoodReg.some (lowWord_good fun _ _ hs => ?_) | with_reducible exact GoodReg.some highWord_good | (rw [State.mk_eq_of]; with_reducible refine Keeps.upd ?_) | with_reducible refine GoodReg.ite ?_ ?_ | dsimp only | split)

theorem bellReg_good {s : State} {a off : Nat} : GoodReg (bellReg s a off) := by
  unfold bellReg
  repeat' (first | with_reducible exact GoodReg.none | with_reducible assumption | exact hs | with_reducible exact GoodReg.some ro_good | with_reducible refine GoodReg.some (roc_good fun _ _ hs => ?_) | with_reducible refine GoodReg.some (rw_good fun _ _ _ hs => ?_) | with_reducible refine GoodReg.some (w1c_good fun _ _ hs => ?_) | with_reducible refine GoodReg.some (RegWord.good_mk (fun _ _ hs => ?_) fun _ _ _ hs => ?_) | with_reducible refine GoodReg.some (RegWord.good_read fun _ _ hs => ?_) | with_reducible exact eventReg_good | with_reducible exact timeReg_good | with_reducible refine State.modBell_keeps ?_ | with_reducible refine State.draw_keeps ?_ | (rw [State.mk_eq_of]; with_reducible refine Keeps.upd ?_) | with_reducible refine GoodReg.ite ?_ ?_ | dsimp only | split)

theorem heatReg_good {s : State} {a off : Nat} : GoodReg (heatReg s a off) := by
  unfold heatReg
  repeat' (first | with_reducible exact GoodReg.none | with_reducible assumption | exact hs | with_reducible exact GoodReg.some ro_good | with_reducible refine GoodReg.some (roc_good fun _ _ hs => ?_) | with_reducible refine GoodReg.some (rw_good fun _ _ _ hs => ?_) | with_reducible refine GoodReg.some (lowWord_good fun _ _ hs => ?_) | with_reducible exact GoodReg.some highWord_good | with_reducible refine State.modFn_keeps ?_ | (rw [State.mk_eq_of]; with_reducible refine Keeps.upd ?_) | with_reducible refine GoodReg.ite ?_ ?_ | dsimp only | split)

theorem migrReg_good {s : State} {a off : Nat} : GoodReg (migrReg s a off) := by
  unfold migrReg
  repeat' (first | with_reducible exact GoodReg.none | with_reducible assumption | exact hs | with_reducible exact GoodReg.some ro_good | with_reducible refine GoodReg.some (roc_good fun _ _ hs => ?_) | with_reducible refine GoodReg.some (rw_good fun _ _ _ hs => ?_) | with_reducible refine GoodReg.some (lowWord_good fun _ _ hs => ?_) | with_reducible exact GoodReg.some highWord_good | with_reducible refine State.modFn_keeps ?_ | (rw [State.mk_eq_of]; with_reducible refine Keeps.upd ?_) | with_reducible refine GoodReg.ite ?_ ?_ | dsimp only | split)

theorem chanReg_good {s : State} {c : ChanId} {off : Nat} : GoodReg (chanReg s c off) := by
  unfold chanReg
  repeat' (first | with_reducible exact GoodReg.none | with_reducible assumption | exact hs | with_reducible exact GoodReg.some ro_good | with_reducible refine GoodReg.some (roc_good fun _ _ hs => ?_) | with_reducible refine State.modChan_keeps ?_ | (rw [State.mk_eq_of]; with_reducible refine Keeps.upd ?_) | with_reducible refine GoodReg.ite ?_ ?_ | dsimp only | split)

theorem stackReg_good {s : State} {k : StackId} {off : Nat} : GoodReg (stackReg s k off) := by
  unfold stackReg
  repeat' (first | with_reducible exact GoodReg.none | with_reducible assumption | exact hs | with_reducible exact GoodReg.some ro_good | with_reducible refine GoodReg.some (roc_good fun _ _ hs => ?_) | with_reducible refine GoodReg.some (w1c_good fun _ _ hs => ?_) | with_reducible exact chanReg_good | with_reducible refine State.modStack_keeps ?_ | (rw [State.mk_eq_of]; with_reducible refine Keeps.upd ?_) | with_reducible refine GoodReg.ite ?_ ?_ | dsimp only | split)

theorem nearReg_good {s : State} {a off : Nat} : GoodReg (nearReg s a off) := by
  unfold nearReg
  repeat' (first | with_reducible exact GoodReg.none | with_reducible assumption | exact hs | with_reducible exact GoodReg.some ro_good | with_reducible refine GoodReg.some (rw_good fun _ _ _ hs => ?_) | with_reducible refine GoodReg.some (lowWord_good fun _ _ hs => ?_) | with_reducible exact GoodReg.some highWord_good | with_reducible refine State.modNear_keeps ?_ | (rw [State.mk_eq_of]; with_reducible refine Keeps.upd ?_) | with_reducible refine GoodReg.ite ?_ ?_ | dsimp only | split)

theorem plinthReg_good {s : State} {n : PlinthId} {a off : Nat} : GoodReg (plinthReg s n a off) := by
  unfold plinthReg
  repeat' (first | with_reducible exact GoodReg.none | with_reducible assumption | exact hs | with_reducible exact GoodReg.some ro_good | with_reducible refine GoodReg.some (roc_good fun _ _ hs => ?_) | with_reducible refine GoodReg.some (rw_good fun _ _ _ hs => ?_) | with_reducible refine GoodReg.some (errWord_good fun _ _ hs => ?_) | with_reducible refine GoodReg.some (lowWord_good fun _ _ hs => ?_) | with_reducible exact GoodReg.some highWord_good | with_reducible refine GoodReg.some (RegWord.good_mk (fun _ _ hs => ?_) fun _ _ _ hs => ?_) | with_reducible refine GoodReg.some (RegWord.good_read fun _ _ hs => ?_) | with_reducible refine State.modPlinth_keeps ?_ | (rw [State.mk_eq_of]; with_reducible refine Keeps.upd ?_) | with_reducible refine GoodReg.ite ?_ ?_ | dsimp only | split)

theorem portReg_good {s : State} {p : PortId} {a off : Nat} : GoodReg (portReg s p a off) := by
  unfold portReg
  repeat' (first | with_reducible exact GoodReg.none | with_reducible assumption | exact hs | with_reducible exact GoodReg.some ro_good | with_reducible refine GoodReg.some (roc_good fun _ _ hs => ?_) | with_reducible refine GoodReg.some (lowWord_good fun _ _ hs => ?_) | with_reducible exact GoodReg.some highWord_good | with_reducible refine GoodReg.some (RegWord.good_mk (fun _ _ hs => ?_) fun _ _ _ hs => ?_) | with_reducible refine GoodReg.some (RegWord.good_read fun _ _ hs => ?_) | with_reducible refine State.modPort_keeps ?_ | (rw [State.mk_eq_of]; with_reducible refine Keeps.upd ?_) | with_reducible refine GoodReg.ite ?_ ?_ | dsimp only | split)

theorem collReg_good {s : State} {off : Nat} : GoodReg (collReg s off) := by
  unfold collReg
  repeat' (first | with_reducible exact GoodReg.none | with_reducible assumption | exact hs | with_reducible exact GoodReg.some ro_good | with_reducible refine GoodReg.some (roc_good fun _ _ hs => ?_) | (rw [State.mk_eq_of]; with_reducible refine Keeps.upd ?_) | with_reducible refine GoodReg.ite ?_ ?_ | dsimp only | split)

theorem forgeReg_good {s : State} {f : ForgeId} {off : Nat} : GoodReg (forgeReg s f off) := by
  unfold forgeReg
  repeat' (first | with_reducible exact GoodReg.none | with_reducible assumption | exact hs | with_reducible exact GoodReg.some ro_good | with_reducible refine GoodReg.some (roc_good fun _ _ hs => ?_) | with_reducible refine State.modForge_keeps ?_ | (rw [State.mk_eq_of]; with_reducible refine Keeps.upd ?_) | with_reducible refine GoodReg.ite ?_ ?_ | dsimp only | split)

theorem anvilReg_good {s : State} {f : ForgeId} {a off : Nat} : GoodReg (anvilReg s f a off) := by
  unfold anvilReg
  repeat' (first | with_reducible exact GoodReg.none | with_reducible assumption | exact hs | with_reducible exact GoodReg.some ro_good | with_reducible refine GoodReg.some (roc_good fun _ _ hs => ?_) | with_reducible refine GoodReg.some (errWord_good fun _ _ hs => ?_) | with_reducible refine GoodReg.some (lowWord_good fun _ _ hs => ?_) | with_reducible exact GoodReg.some highWord_good | with_reducible refine State.modForge_keeps ?_ | (rw [State.mk_eq_of]; with_reducible refine Keeps.upd ?_) | with_reducible refine GoodReg.ite ?_ ?_ | dsimp only | split)

theorem swageReg_good {s : State} {f : ForgeId} {a off : Nat} : GoodReg (swageReg s f a off) := by
  unfold swageReg
  repeat' (first | with_reducible exact GoodReg.none | with_reducible assumption | exact hs | with_reducible exact GoodReg.some ro_good | with_reducible refine GoodReg.some (roc_good fun _ _ hs => ?_) | with_reducible refine GoodReg.some (errWord_good fun _ _ hs => ?_) | with_reducible refine GoodReg.some (lowWord_good fun _ _ hs => ?_) | with_reducible exact GoodReg.some highWord_good | with_reducible refine State.modForge_keeps ?_ | (rw [State.mk_eq_of]; with_reducible refine Keeps.upd ?_) | with_reducible refine GoodReg.ite ?_ ?_ | dsimp only | split)

theorem pressReg_good {s : State} {f : ForgeId} {a off : Nat} : GoodReg (pressReg s f a off) := by
  unfold pressReg
  repeat' (first | with_reducible exact GoodReg.none | with_reducible assumption | exact hs | with_reducible exact GoodReg.some ro_good | with_reducible refine GoodReg.some (roc_good fun _ _ hs => ?_) | with_reducible refine GoodReg.some (errWord_good fun _ _ hs => ?_) | with_reducible refine GoodReg.some (lowWord_good fun _ _ hs => ?_) | with_reducible exact GoodReg.some highWord_good | with_reducible refine State.modForge_keeps ?_ | (rw [State.mk_eq_of]; with_reducible refine Keeps.upd ?_) | with_reducible refine GoodReg.ite ?_ ?_ | dsimp only | split)

theorem chiselReg_good {s : State} {f : ForgeId} {a off : Nat} : GoodReg (chiselReg s f a off) := by
  unfold chiselReg
  repeat' (first | with_reducible exact GoodReg.none | with_reducible assumption | exact hs | with_reducible exact GoodReg.some ro_good | with_reducible refine GoodReg.some (roc_good fun _ _ hs => ?_) | with_reducible refine GoodReg.some (errWord_good fun _ _ hs => ?_) | with_reducible refine GoodReg.some (lowWord_good fun _ _ hs => ?_) | with_reducible exact GoodReg.some highWord_good | with_reducible refine State.modForge_keeps ?_ | (rw [State.mk_eq_of]; with_reducible refine Keeps.upd ?_) | with_reducible refine GoodReg.ite ?_ ?_ | dsimp only | split)

theorem crucReg_good {s : State} {f : ForgeId} {a off : Nat} : GoodReg (crucReg s f a off) := by
  unfold crucReg
  repeat' (first | with_reducible exact GoodReg.none | with_reducible assumption | exact hs | with_reducible exact GoodReg.some ro_good | with_reducible refine GoodReg.some (roc_good fun _ _ hs => ?_) | with_reducible refine GoodReg.some (errWord_good fun _ _ hs => ?_) | with_reducible refine GoodReg.some (lowWord_good fun _ _ hs => ?_) | with_reducible exact GoodReg.some highWord_good | with_reducible refine State.modForge_keeps ?_ | (rw [State.mk_eq_of]; with_reducible refine Keeps.upd ?_) | with_reducible refine GoodReg.ite ?_ ?_ | dsimp only | split)

theorem hearthReg_good {s : State} {f : ForgeId} {a off : Nat} : GoodReg (hearthReg s f a off) := by
  unfold hearthReg
  repeat' (first | with_reducible exact GoodReg.none | with_reducible assumption | exact hs | with_reducible exact GoodReg.some ro_good | with_reducible refine GoodReg.some (roc_good fun _ _ hs => ?_) | with_reducible refine GoodReg.some (rw_good fun _ _ _ hs => ?_) | with_reducible refine GoodReg.some (w1c_good fun _ _ hs => ?_) | with_reducible refine GoodReg.some (lowWord_good fun _ _ hs => ?_) | with_reducible exact GoodReg.some highWord_good | with_reducible refine State.modForge_keeps ?_ | (rw [State.mk_eq_of]; with_reducible refine Keeps.upd ?_) | with_reducible refine GoodReg.ite ?_ ?_ | dsimp only | split)

theorem tongsReg_good {s : State} {f : ForgeId} {a off : Nat} : GoodReg (tongsReg s f a off) := by
  unfold tongsReg
  repeat' (first | with_reducible exact GoodReg.none | with_reducible assumption | exact hs | with_reducible exact GoodReg.some ro_good | with_reducible refine GoodReg.some (errWord_good fun _ _ hs => ?_) | with_reducible refine GoodReg.some (lowWord_good fun _ _ hs => ?_) | with_reducible exact GoodReg.some highWord_good | with_reducible refine State.modForge_keeps ?_ | (rw [State.mk_eq_of]; with_reducible refine Keeps.upd ?_) | with_reducible refine GoodReg.ite ?_ ?_ | dsimp only | split)

theorem ringReg_good {s : State} {fn : FnId} {r : Option RingId} {off : Nat} : GoodReg (ringReg s fn r off) := by
  unfold ringReg
  repeat' (first | with_reducible exact GoodReg.none | with_reducible assumption | exact hs | with_reducible exact GoodReg.some ro_good | with_reducible refine GoodReg.some (rw_good fun _ _ _ hs => ?_) | with_reducible refine GoodReg.some (w1c_good fun _ _ hs => ?_) | with_reducible refine GoodReg.some (RegWord.good_mk (fun _ _ hs => ?_) fun _ _ _ hs => ?_) | with_reducible refine GoodReg.some (RegWord.good_read fun _ _ hs => ?_) | with_reducible refine State.modRing_keeps ?_ | with_reducible refine ringEnable_keeps ?_ | with_reducible refine ringDisable_keeps ?_ | (rw [State.mk_eq_of]; with_reducible refine Keeps.upd ?_) | with_reducible refine GoodReg.ite ?_ ?_ | dsimp only | split)

theorem doorbellReg_good {fn : FnId} {r : Option RingId} {off : Nat} : GoodReg (doorbellReg fn r off) := by
  unfold doorbellReg
  repeat' (first | with_reducible exact GoodReg.none | with_reducible assumption | exact hs | with_reducible refine GoodReg.some (RegWord.good_mk (fun _ _ hs => ?_) fun _ _ _ hs => ?_) | with_reducible refine GoodReg.some (RegWord.good_read fun _ _ hs => ?_) | with_reducible refine hostDbSq_keeps ?_ | with_reducible refine hostDbRq_keeps ?_ | (rw [State.mk_eq_of]; with_reducible refine Keeps.upd ?_) | with_reducible refine GoodReg.ite ?_ ?_ | dsimp only | split)

theorem msixReg_good {s : State} {fn : FnId} {n off : Nat} : GoodReg (msixReg s fn n off) := by
  unfold msixReg
  repeat' (first | with_reducible exact GoodReg.none | with_reducible assumption | exact hs | with_reducible refine GoodReg.some (rw_good fun _ _ _ hs => ?_) | with_reducible refine State.modHost_keeps ?_ | with_reducible refine State.unmask_keeps ?_ | (rw [State.mk_eq_of]; with_reducible refine Keeps.upd ?_) | with_reducible refine GoodReg.ite ?_ ?_ | dsimp only | split)

theorem pbaReg_good {s : State} {fn : FnId} {off : Nat} : GoodReg (pbaReg s fn off) := by
  unfold pbaReg
  repeat' (first | with_reducible exact GoodReg.none | with_reducible assumption | exact hs | with_reducible exact GoodReg.some ro_good | (rw [State.mk_eq_of]; with_reducible refine Keeps.upd ?_) | with_reducible refine GoodReg.ite ?_ ?_ | dsimp only | split)

theorem sliceReg_good {s : State} {fn : FnId} {off : Nat} : GoodReg (sliceReg s fn off) := by
  unfold sliceReg
  repeat' (first | with_reducible exact GoodReg.none | with_reducible assumption | exact hs | with_reducible exact GoodReg.some ro_good | with_reducible exact ringReg_good | with_reducible exact doorbellReg_good | with_reducible exact msixReg_good | with_reducible exact pbaReg_good | (rw [State.mk_eq_of]; with_reducible refine Keeps.upd ?_) | with_reducible refine GoodReg.ite ?_ ?_ | dsimp only | split)

theorem barReg_good {s : State} {fn : FnId} {off : Nat} : GoodReg (barReg s fn off) := by
  unfold barReg
  repeat' (first | with_reducible exact GoodReg.none | with_reducible assumption | exact hs | with_reducible exact GoodReg.some ro_good | with_reducible exact ringReg_good | with_reducible exact doorbellReg_good | with_reducible exact msixReg_good | with_reducible exact pbaReg_good | with_reducible exact sliceReg_good | (rw [State.mk_eq_of]; with_reducible refine Keeps.upd ?_) | with_reducible refine GoodReg.ite ?_ ?_ | dsimp only | split)

theorem gate_good {on : Bool} {r : Option RegWord} (h : GoodReg r) : GoodReg (gate on r) := by
  refine GoodReg.ite h ?_
  cases r with
  | none => exact GoodReg.none
  | some r =>
    refine GoodReg.some ⟨fun _ _ h => h, fun g w s₀ s e hs => ?_⟩
    cases hw : r.write with
    | none => simp [RegWord.off, hw] at e
    | some x =>
      simp only [RegWord.off, hw, Option.map_some, Option.some.injEq] at e
      subst e
      exact hs

theorem perForge_good {s : State} {block : Nat} {f : ForgeId} {a off : Nat} : GoodReg (perForge s block f a off) := by
  unfold perForge
  repeat' (first | with_reducible exact GoodReg.none | with_reducible assumption | exact hs | with_reducible exact forgeReg_good | with_reducible exact anvilReg_good | with_reducible exact swageReg_good | with_reducible exact pressReg_good | with_reducible exact chiselReg_good | with_reducible exact crucReg_good | with_reducible exact hearthReg_good | with_reducible exact tongsReg_good | with_reducible refine gate_good ?_ | (rw [State.mk_eq_of]; with_reducible refine Keeps.upd ?_) | with_reducible refine GoodReg.ite ?_ ?_ | dsimp only | split)

theorem dieReg_good {s : State} {a : Nat} : GoodReg (dieReg s a) := by
  unfold dieReg
  repeat' (first | with_reducible exact GoodReg.none | with_reducible assumption | exact hs | with_reducible exact smithReg_good | with_reducible exact hallReg_good | with_reducible exact ledgReg_good | with_reducible exact bellReg_good | with_reducible exact heatReg_good | with_reducible exact migrReg_good | with_reducible exact stackReg_good | with_reducible exact nearReg_good | with_reducible exact plinthReg_good | with_reducible exact portReg_good | with_reducible exact collReg_good | with_reducible exact barReg_good | with_reducible refine gate_good ?_ | with_reducible exact perForge_good | (rw [State.mk_eq_of]; with_reducible refine Keeps.upd ?_) | with_reducible refine GoodReg.ite ?_ ?_ | dsimp only | split)

theorem State.regAt_good {s : State} {a : Nat} : GoodReg (State.regAt s a) := by
  unfold State.regAt
  exact GoodReg.ite (GoodReg.ite (gate_good barReg_good) GoodReg.none) dieReg_good

theorem State.readReg_keeps {s₀ s : State} {a : Nat} (h : Keeps s₀ s) : QKeeps s₀ (State.readReg s a) := by
  unfold State.readReg
  split
  · next r e => exact (State.regAt_good r e).1 _ _ h
  · exact h

theorem State.writeReg_keeps {s₀ s : State} {a w : Nat} (h : Keeps s₀ s) : Keeps s₀ (State.writeReg s a w) := by
  unfold State.writeReg
  split
  · next r e =>
    split
    · next g e' => exact (State.regAt_good r e).2 g w _ _ e' h
    · exact h
  · exact h

theorem regRead_keeps {s₀ : State} {a : ℕ} {s : State} (hk : Keeps s₀ s) :
    Keeps s₀ (regRead a s) := by
  unfold regRead
  repeat' (first | with_reducible assumption | with_reducible intro _ | with_reducible refine State.send_keeps ?_ | with_reducible refine State.readReg_keeps ?_ | (rw [State.mk_eq_of]; with_reducible refine Keeps.upd ?_) | with_reducible refine QKeeps.use (by assumption) ?_ | dsimp only | split)

theorem regWrite_keeps {s₀ : State} {a : ℕ} {w : ℕ} {s : State} (hk : Keeps s₀ s) :
    Keeps s₀ (regWrite a w s) := by
  unfold regWrite
  repeat' (first | with_reducible assumption | with_reducible intro _ | with_reducible refine State.settle_keeps ?_ | with_reducible refine State.writeReg_keeps ?_ | (rw [State.mk_eq_of]; with_reducible refine Keeps.upd ?_) | dsimp only | split)

theorem execRocRead_keeps {s₀ : State} {addr : BitVec 48} {s : State} (hk : Keeps s₀ s) :
    RKeeps s₀ (execRocRead addr s) := by
  unfold execRocRead
  repeat' (first | with_reducible assumption | with_reducible intro _ | with_reducible refine regRead_keeps ?_ | with_reducible refine RKeeps.next ?_ | (rw [State.mk_eq_of]; with_reducible refine Keeps.upd ?_) | with_reducible refine RKeeps.use (by assumption) ?_ | dsimp only | split)

theorem execLowWordRead_keeps {s₀ : State} {addr : BitVec 48} {s : State} (hk : Keeps s₀ s) :
    RKeeps s₀ (execLowWordRead addr s) := by
  unfold execLowWordRead
  repeat' (first | with_reducible assumption | with_reducible intro _ | with_reducible refine regRead_keeps ?_ | with_reducible refine RKeeps.next ?_ | (rw [State.mk_eq_of]; with_reducible refine Keeps.upd ?_) | with_reducible refine RKeeps.use (by assumption) ?_ | dsimp only | split)

theorem execHighWordRead_keeps {s₀ : State} {addr : BitVec 48} {s : State} (hk : Keeps s₀ s) :
    RKeeps s₀ (execHighWordRead addr s) := by
  unfold execHighWordRead
  repeat' (first | with_reducible assumption | with_reducible intro _ | with_reducible refine regRead_keeps ?_ | with_reducible refine RKeeps.next ?_ | (rw [State.mk_eq_of]; with_reducible refine Keeps.upd ?_) | with_reducible refine RKeeps.use (by assumption) ?_ | dsimp only | split)

theorem execW1cWrite_keeps {s₀ : State} {addr : BitVec 48} {value : BitVec 32} {s : State} (hk : Keeps s₀ s) :
    RKeeps s₀ (execW1cWrite addr value s) := by
  unfold execW1cWrite
  repeat' (first | with_reducible assumption | with_reducible intro _ | with_reducible refine regWrite_keeps ?_ | with_reducible refine RKeeps.next ?_ | (rw [State.mk_eq_of]; with_reducible refine Keeps.upd ?_) | with_reducible refine RKeeps.use (by assumption) ?_ | dsimp only | split)

theorem execRegisterWrite_keeps {s₀ : State} {addr : BitVec 48} {value : BitVec 32} {s : State} (hk : Keeps s₀ s) :
    RKeeps s₀ (execRegisterWrite addr value s) := by
  unfold execRegisterWrite
  repeat' (first | with_reducible assumption | with_reducible intro _ | with_reducible refine regWrite_keeps ?_ | with_reducible refine RKeeps.next ?_ | (rw [State.mk_eq_of]; with_reducible refine Keeps.upd ?_) | with_reducible refine RKeeps.use (by assumption) ?_ | dsimp only | split)

end Sys2Proof.Machine
end

