-- ==== Sys2Proof/Laws/KeepsFeatures.lean ====
section
/-! SUPPORT. The operations of Machine/Features.lean keep what `Keeps` says. -/

set_option linter.unusedTactic false
set_option linter.unreachableTactic false

namespace Sys2Proof.Machine

theorem setTimeout_keeps {s₀ : State} {k : Cmd} {i : Fin 11} {v : ℕ} {s : State} (hk : Keeps s₀ s) :
    Keeps s₀ (setTimeout k i v s) := by
  unfold setTimeout
  repeat' (first | with_reducible assumption | with_reducible intro _ | with_reducible refine State.finish_keeps ?_ | (rw [State.mk_eq_of]; with_reducible refine Keeps.upd ?_) | dsimp only | split)

theorem State.switchSegments_keeps {s₀ : State} {s : State} {mask : BitVec 12} (hk : Keeps s₀ s) :
    Keeps s₀ (State.switchSegments s mask) := by
  unfold State.switchSegments
  repeat' (first | with_reducible assumption | with_reducible intro _ | with_reducible refine State.dropCache_keeps ?_ | (rw [State.mk_eq_of]; with_reducible refine Keeps.upd ?_) | (rw [State.mk_eq_of]; with_reducible refine Keeps.updHearth ?_ (fun hs => Memory.sorted_writeAll hs _ _)) | (rw [State.mk_eq_of]; with_reducible refine Keeps.updHearth ?_ (fun hs => Memory.sorted_filter hs _)) | dsimp only | split)

theorem setSegments_keeps {s₀ : State} {k : Cmd} {v : ℕ} {s : State} (hk : Keeps s₀ s) :
    Keeps s₀ (setSegments k v s) := by
  unfold setSegments
  repeat' (first | with_reducible assumption | with_reducible intro _ | with_reducible refine State.finish_keeps ?_ | with_reducible refine State.switchSegments_keeps ?_ | (rw [State.mk_eq_of]; with_reducible refine Keeps.upd ?_) | dsimp only | split)

theorem setScanGroups_keeps {s₀ : State} {k : Cmd} {v : ℕ} {s : State} (hk : Keeps s₀ s) :
    Keeps s₀ (setScanGroups k v s) := by
  unfold setScanGroups
  repeat' (first | with_reducible assumption | with_reducible intro _ | with_reducible refine State.finish_keeps ?_ | (rw [State.mk_eq_of]; with_reducible refine Keeps.upd ?_) | dsimp only | split)

theorem setRegister_keeps {s₀ s : State} {k : Cmd} {a v : Nat} (h : Keeps s₀ s) : Keeps s₀ (setRegister k a v s) := by
  unfold setRegister
  refine Keeps.ite (fun _ => State.finish_keeps h) fun _ => ?_
  split
  · exact State.finish_keeps h
  · next r e =>
    split
    · exact State.finish_keeps h
    · next g e' => exact Keeps.ite (fun _ => State.finish_keeps h) fun _ =>
        State.finish_keeps ((dieReg_good r e).2 g v _ _ e' h)

theorem setFeature_keeps {s₀ : State} {k : Cmd} {s : State} (hk : Keeps s₀ s) :
    Keeps s₀ (setFeature k s) := by
  unfold setFeature
  repeat' (first | with_reducible assumption | with_reducible intro _ | with_reducible refine checked_keeps ?_ ?_ | with_reducible refine setTimeout_keeps ?_ | with_reducible refine setSegments_keeps ?_ | with_reducible refine setScanGroups_keeps ?_ | with_reducible refine setRegister_keeps ?_ | with_reducible refine State.finish_keeps ?_ | (rw [State.mk_eq_of]; with_reducible refine Keeps.upd ?_) | dsimp only | split)

theorem execSetFeature_keeps {s₀ : State} {k : Cmd} {s : State} (hk : Keeps s₀ s) :
    RKeeps s₀ (execSetFeature k s) := by
  unfold execSetFeature
  repeat' (first | with_reducible assumption | with_reducible intro _ | with_reducible refine hostCmd_keeps ?_ ?_ | with_reducible refine setFeature_keeps ?_ | with_reducible refine RKeeps.next ?_ | (rw [State.mk_eq_of]; with_reducible refine Keeps.upd ?_) | with_reducible refine RKeeps.use (by assumption) ?_ | dsimp only | split)

theorem execHearthCacheSegments_keeps {s₀ : State} {k : Cmd} {s : State} (hk : Keeps s₀ s) :
    RKeeps s₀ (execHearthCacheSegments k s) := by
  unfold execHearthCacheSegments
  repeat' (first | with_reducible assumption | with_reducible intro _ | with_reducible refine hostCmd_keeps ?_ ?_ | with_reducible refine setFeature_keeps ?_ | with_reducible refine RKeeps.next ?_ | (rw [State.mk_eq_of]; with_reducible refine Keeps.upd ?_) | with_reducible refine RKeeps.use (by assumption) ?_ | dsimp only | split)

theorem execPlinthScanGroups_keeps {s₀ : State} {k : Cmd} {s : State} (hk : Keeps s₀ s) :
    RKeeps s₀ (execPlinthScanGroups k s) := by
  unfold execPlinthScanGroups
  repeat' (first | with_reducible assumption | with_reducible intro _ | with_reducible refine hostCmd_keeps ?_ ?_ | with_reducible refine setFeature_keeps ?_ | with_reducible refine RKeeps.next ?_ | (rw [State.mk_eq_of]; with_reducible refine Keeps.upd ?_) | with_reducible refine RKeeps.use (by assumption) ?_ | dsimp only | split)

theorem execRegWrite_keeps {s₀ : State} {k : Cmd} {s : State} (hk : Keeps s₀ s) :
    RKeeps s₀ (execRegWrite k s) := by
  unfold execRegWrite
  repeat' (first | with_reducible assumption | with_reducible intro _ | with_reducible refine hostCmd_keeps ?_ ?_ | with_reducible refine setFeature_keeps ?_ | with_reducible refine RKeeps.next ?_ | (rw [State.mk_eq_of]; with_reducible refine Keeps.upd ?_) | with_reducible refine RKeeps.use (by assumption) ?_ | dsimp only | split)

theorem getFeature_keeps {s₀ : State} {k : Cmd} {s : State} (hk : Keeps s₀ s) :
    Keeps s₀ (getFeature k s) := by
  unfold getFeature
  repeat' (first | with_reducible assumption | with_reducible intro _ | with_reducible refine checked_keeps ?_ ?_ | with_reducible refine State.finish_keeps ?_ | with_reducible refine State.readReg_keeps ?_ | (rw [State.mk_eq_of]; with_reducible refine Keeps.upd ?_) | with_reducible refine QKeeps.use (by assumption) ?_ | dsimp only | split)

theorem execGetFeature_keeps {s₀ : State} {k : Cmd} {s : State} (hk : Keeps s₀ s) :
    RKeeps s₀ (execGetFeature k s) := by
  unfold execGetFeature
  repeat' (first | with_reducible assumption | with_reducible intro _ | with_reducible refine hostCmd_keeps ?_ ?_ | with_reducible refine getFeature_keeps ?_ | with_reducible refine RKeeps.next ?_ | (rw [State.mk_eq_of]; with_reducible refine Keeps.upd ?_) | with_reducible refine RKeeps.use (by assumption) ?_ | dsimp only | split)

theorem execRegRead_keeps {s₀ : State} {k : Cmd} {s : State} (hk : Keeps s₀ s) :
    RKeeps s₀ (execRegRead k s) := by
  unfold execRegRead
  repeat' (first | with_reducible assumption | with_reducible intro _ | with_reducible refine hostCmd_keeps ?_ ?_ | with_reducible refine getFeature_keeps ?_ | with_reducible refine RKeeps.next ?_ | (rw [State.mk_eq_of]; with_reducible refine Keeps.upd ?_) | with_reducible refine RKeeps.use (by assumption) ?_ | dsimp only | split)

end Sys2Proof.Machine
end

