-- ==== Sys2Proof/Laws/KeepsMouldCheck.lean ====
section
/-! SUPPORT. The operations of Machine/MouldCheck.lean keep what `Keeps` says. -/

set_option linter.unusedTactic false
set_option linter.unreachableTactic false

namespace Sys2Proof.Machine

theorem State.giveT2_keeps {s₀ : State} {s : State} {pages : List HintPage} (hk : Keeps s₀ s) :
    OKeeps s₀ (State.giveT2 s pages) := by
  unfold State.giveT2
  repeat' (first | with_reducible assumption | with_reducible intro _ | with_reducible refine State.modPage_keeps ?_ | with_reducible refine State.needT2_keeps ?_ | with_reducible refine OKeeps.none | with_reducible refine OKeeps.some ?_ | (rw [State.mk_eq_of]; with_reducible refine Keeps.upd ?_) | (rw [State.mk_eq_of]; with_reducible refine Keeps.updT2 ?_ (fun hs => frames_filter _ hs)) | (rw [State.mk_eq_of]; with_reducible refine Keeps.updT2 ?_ (fun hs => frames_map _ (fun _ => rfl) hs)) | (rw [State.mk_eq_of]; with_reducible refine Keeps.updT2 ?_ (fun hs => frames_map _ ?_ hs); rotate_left; intro x; try dsimp only; split <;> rfl) | with_reducible refine Keeps.foldl ?_ ?_ | with_reducible refine OKeeps.foldl ?_ ?_ | with_reducible refine OKeeps.bind ?_ ?_ | with_reducible refine OKeeps.bindOf ?_ | with_reducible refine OKeeps.map ?_ ?_ | with_reducible refine OKeeps.mapQ ?_ ?_ | with_reducible refine OKeeps.mapOf ?_ | with_reducible refine OKeeps.use (by assumption) ?_ | dsimp only | split)

theorem State.allocCompute_keeps {s₀ s : State} {fn : FnId} {n : PlinthId} {dev : Nat} (h : Keeps s₀ s) :
    OKeeps s₀ (State.allocCompute s fn n dev) := by
  unfold State.allocCompute
  refine OKeeps.ite (fun _ => OKeeps.some h) fun _ => OKeeps.ite (fun _ => OKeeps.none) fun _ => ?_
  intro t e
  obtain ⟨k, hk, rfl⟩ := Option.map_eq_some_iff.1 e
  have hn := List.find?_some hk
  dsimp only at hn
  rw [Bool.and_eq_true] at hn
  refine h.trans ⟨id, id, id, fun hs => frames_insert ?_ hs, rfl, le_refl _⟩
  simpa using hn.2

theorem State.takePlinths_keeps {s₀ : State} {s : State} {fn : FnId} {pl : List Byte} (hk : Keeps s₀ s) :
    OKeeps s₀ (State.takePlinths s fn pl) := by
  unfold State.takePlinths
  repeat' (first | with_reducible assumption | with_reducible intro _ | with_reducible refine State.giveT2_keeps ?_ | with_reducible refine State.allocCompute_keeps ?_ | with_reducible refine State.modPlinth_keeps ?_ | with_reducible refine OKeeps.none | with_reducible refine OKeeps.some ?_ | (rw [State.mk_eq_of]; with_reducible refine Keeps.upd ?_) | with_reducible refine Keeps.foldl ?_ ?_ | with_reducible refine OKeeps.foldl ?_ ?_ | with_reducible refine OKeeps.bind ?_ ?_ | with_reducible refine OKeeps.bindOf ?_ | with_reducible refine OKeeps.map ?_ ?_ | with_reducible refine OKeeps.mapQ ?_ ?_ | with_reducible refine OKeeps.mapOf ?_ | with_reducible refine OKeeps.use (by assumption) ?_ | dsimp only | split)

end Sys2Proof.Machine
end

