-- ==== Sys2Proof/Laws/KeepsMould.lean ====
section
/-! SUPPORT. The operations of Machine/Mould.lean keep what `Keeps` says. -/

set_option linter.unusedTactic false
set_option linter.unreachableTactic false

namespace Sys2Proof.Machine

theorem State.dropCompute_keeps {s₀ : State} {s : State} {fn : FnId} (hk : Keeps s₀ s) :
    Keeps s₀ (State.dropCompute s fn) := by
  unfold State.dropCompute
  repeat' (first | with_reducible assumption | with_reducible intro _ | with_reducible refine State.modPlinth_keeps ?_ | (rw [State.mk_eq_of]; with_reducible refine Keeps.upd ?_) | (rw [State.mk_eq_of]; with_reducible refine Keeps.updT2 ?_ (fun hs => frames_filter _ hs)) | (rw [State.mk_eq_of]; with_reducible refine Keeps.updT2 ?_ (fun hs => frames_map _ (fun _ => rfl) hs)) | (rw [State.mk_eq_of]; with_reducible refine Keeps.updT2 ?_ (fun hs => frames_map _ ?_ hs); rotate_left; intro x; try dsimp only; split <;> rfl) | with_reducible refine Keeps.foldl ?_ ?_ | dsimp only | split)

theorem State.closeMould_keeps {s₀ : State} {s : State} {fn : FnId} {id : BitVec 64} (hk : Keeps s₀ s) :
    Keeps s₀ (State.closeMould s fn id) := by
  unfold State.closeMould
  repeat' (first | with_reducible assumption | with_reducible intro _ | (rw [State.mk_eq_of]; with_reducible refine Keeps.upd ?_) | dsimp only | split)

theorem State.removeMould_keeps {s₀ : State} {s : State} {fn : FnId} {id : BitVec 64} (hk : Keeps s₀ s) :
    Keeps s₀ (State.removeMould s fn id) := by
  unfold State.removeMould
  repeat' (first | with_reducible assumption | with_reducible intro _ | with_reducible refine State.unpin_keeps ?_ | with_reducible refine State.closeMould_keeps ?_ | with_reducible refine State.dropCompute_keeps ?_ | with_reducible refine State.freeT1_keeps ?_ | with_reducible refine State.modFn_keeps ?_ | (rw [State.mk_eq_of]; with_reducible refine Keeps.upd ?_) | dsimp only | split)

theorem State.freshPersist_keeps {s₀ : State} {s : State} {m : Mould} (hk : Keeps s₀ s) :
    Keeps s₀ (State.freshPersist s m) := by
  unfold State.freshPersist
  repeat' (first | with_reducible assumption | with_reducible intro _ | (rw [State.mk_eq_of]; with_reducible refine Keeps.upd ?_) | (rw [State.mk_eq_of]; with_reducible refine Keeps.updHearth ?_ (fun hs => Memory.sorted_writeAll hs _ _)) | (rw [State.mk_eq_of]; with_reducible refine Keeps.updHearth ?_ (fun hs => Memory.sorted_filter hs _)) | dsimp only | split)

theorem State.install_keeps {s₀ s : State} {fn : FnId} {pl : List Byte} (h : Keeps s₀ s) : Keeps s₀ (State.install s fn pl) := by
  unfold State.install
  extract_lets +onlyGivenNames id' forges s1 s2 s3 s4 m s5
  have h1 : Keeps s₀ s1 := State.removeMould_keeps
    (h.trans ⟨id, id, id, id, rfl, Nat.le_add_right _ _⟩)
  clear_value s1
  have h2 : Keeps s₀ s2 := OKeeps.getD (OKeeps.bind (State.allocT1Many_keeps h1) fun _ hx => State.allocT1Many_keeps hx) h1
  clear_value s2
  have h3 : Keeps s₀ s3 := OKeeps.getD (State.takePlinths_keeps h2) h2
  clear_value s3
  have h4 : Keeps s₀ s4 := h3.trans ⟨id, id, id, id, rfl, le_refl _⟩
  clear_value s4
  have h5 : Keeps s₀ s5 := State.modFn_keeps h4
  clear_value s5
  exact State.freshPersist_keeps (h5.trans ⟨id, id, id, id, rfl, le_refl _⟩)

theorem loadMould_keeps {s₀ : State} {k : Cmd} {s : State} (hk : Keeps s₀ s) :
    Keeps s₀ (loadMould k s) := by
  unfold loadMould
  repeat' (first | with_reducible assumption | with_reducible intro _ | with_reducible refine checked_keeps ?_ ?_ | with_reducible refine State.finish_keeps ?_ | with_reducible refine State.closeMould_keeps ?_ | with_reducible refine State.install_keeps ?_ | (rw [State.mk_eq_of]; with_reducible refine Keeps.upd ?_) | dsimp only | split)

theorem execLoadMould_keeps {s₀ : State} {k : Cmd} {s : State} (hk : Keeps s₀ s) :
    RKeeps s₀ (execLoadMould k s) := by
  unfold execLoadMould
  repeat' (first | with_reducible assumption | with_reducible intro _ | with_reducible refine hostCmd_keeps ?_ ?_ | with_reducible refine loadMould_keeps ?_ | with_reducible refine RKeeps.next ?_ | (rw [State.mk_eq_of]; with_reducible refine Keeps.upd ?_) | with_reducible refine RKeeps.use (by assumption) ?_ | dsimp only | split)

theorem State.tierTick_keeps {s₀ : State} {s : State} (hk : Keeps s₀ s) :
    Keeps s₀ (State.tierTick s) := by
  unfold State.tierTick
  repeat' (first | with_reducible assumption | with_reducible intro _ | with_reducible refine State.tickWaits_keeps ?_ | with_reducible refine State.settle_keeps ?_ | with_reducible refine State.pumpAll_keeps ?_ | (rw [State.mk_eq_of]; with_reducible refine Keeps.upd ?_) | dsimp only | split)

theorem State.idle_keeps {s₀ : State} {s : State} (hk : Keeps s₀ s) :
    Keeps s₀ (State.idle s) := by
  unfold State.idle
  repeat' (first | with_reducible assumption | with_reducible intro _ | with_reducible refine State.tierTick_keeps ?_ | with_reducible refine State.linkTick_keeps ?_ | with_reducible refine State.tick_keeps ?_ | (rw [State.mk_eq_of]; with_reducible refine Keeps.upd ?_) | dsimp only | split)

end Sys2Proof.Machine
end

