-- ==== Sys2Proof/Tests/Slice0.lean ====
section
/-! SUPPORT. Tests of single steps with results taken from the spec, ill-formed terms that the checks refuse, and for each
statement concrete states and operands that meet its hypotheses. -/

set_option Elab.async false

namespace Sys2Proof.Tests

open Sys2Proof Sys2Proof.Machine

/-! ### Small states -/

/-- A module whose firmware runs: every domain on, the physical function and function 1 enabled, the admin ring and ring 0 of
function 1 active with 64 entries each, an open session of function 1 on that ring. -/
def live : State :=
  { State.reset with
    bell := { State.reset.bell with spine := true, present := true, domOn := BitVec.allOnes 100 }
    hall := { State.reset.hall with
      fwRunning := true
      image := some { manifest := List.replicate 6 0 ++ [2, 0, 0, 0, 0, 0, 3], image := [] }
      sessions := State.reset.hall.sessions.set 1 [{ id := 1, key := 0, isOpen := true, ring := some 0 }, { id := 2, key := 0 }] }
    smith := { State.reset.smith with event7 := true, firmware := true }
    pcie := { up := true, width := 16, rate := 7, vfs := 63, perst := false }
    host := (State.reset.host.set 0 { enabled := true }).set 1
      { enabled := true, rings := (State.reset.host[1]).rings.set 0
          { sq := 0x10000, rq := 0x20000, pt := 0x30000, size := 0xC6, enable := true, active := true } }
    admin := { sq := 0x10000, rq := 0x20000, pt := 0x30000, size := 0xC6, enable := true, active := true } }

/-- A command of the admin ring, with its parameter block as a number. -/
def op (params : Nat) : Cmd := { fn := 0, ring := none, params := BitVec.ofNat 256 params, outCap := 0x10000 }

/-- A sealed command of ring 0 of function 1. -/
def ten (params : Nat) : Cmd :=
  { fn := 1, ring := some 0, queue := 0, flags := 1, session := 1, seq := 1, params := BitVec.ofNat 256 params, outCap := 0x1000000 }

/-- The same with a payload. -/
def withPayload (k : Cmd) (l : List Byte) : Cmd := { k with ptr := 0, len := BitVec.ofNat 32 l.length, payload := l, inAddr := 0x40000 }

/-- What `Ready` asks, as a check. -/
def ready (op : Op) (k : Cmd) (s : State) : Bool :=
  (s.flights.any (·.isOf op k) || (s.fetches k.fn k.ring && acceptStatus s op k == none)) && (s.entered op k).turn op k &&
    !(k.ring.isSome && ((s.entered op k).fns[k.fn]).fault) && (heatGate (s.entered op k) op k).isNone && !k.payloadErr

theorem ready_of {op : Op} {k : Cmd} {s : State} (h : ready op k s = true) : Ready op k s := by
  simp only [ready, Bool.and_eq_true, Bool.or_eq_true, beq_iff_eq, Option.isNone_iff_eq_none, Bool.not_eq_true'] at h
  exact ⟨h.1.1.1.1, h.1.1.1.2, h.1.1.2, h.1.2, h.2⟩

/-! ### Operator commands -/

theorem witness_NopIdentifyCapAndThermalComplete :
    (Ready .nop (op 0) live ∧ plain (op 0) [] = true) ∧ (Ready .identify (op 0) live ∧ 4096 ≤ (op 0).outCap.toNat) ∧
    (Ready .setPowerCap (op (800 + 100000 * 2 ^ 32)) live ∧ plain (op (800 + 100000 * 2 ^ 32)) [(0, 2), (4, 4)] = true ∧
      u (op (800 + 100000 * 2 ^ 32)).p 0 2 = 800 ∧ u (op (800 + 100000 * 2 ^ 32)).p 4 4 = 100000) ∧
    (Ready .thermalStatus (op 0) live ∧ 512 ≤ (op 0).outCap.toNat) :=
  ⟨⟨ready_of (by decide +kernel), by decide +kernel⟩, ⟨ready_of (by decide +kernel), by decide +kernel⟩,
    ⟨ready_of (by decide +kernel), by decide +kernel⟩, ready_of (by decide +kernel), by decide +kernel⟩

theorem witness_QuiesceAndSessionsComplete :
    (Ready .quiesce (op 1) live ∧ plain (op 1) [(0, 2)] = true ∧ u (op 1).p 0 1 = 1 ∧ u (op 1).p 1 1 = 0 ∧
      ∀ fns a, Deferred.quiesce (op 1) fns a ∉ live.deferred) ∧
    (Ready .quiesce (op 0x1FF) live ∧ plain (op 0x1FF) [(0, 2)] = true ∧ u (op 0x1FF).p 0 1 = 0xFF ∧ u (op 0x1FF).p 1 1 = 1) ∧
    (Ready .openSession { ten 0 with session := 2 } live ∧
      (live.session? 1 2).any (fun x => !x.isOpen) = true) ∧
    (Ready .closeSession { ten 0 with seq := 0xFFFFFFFF } live ∧ plain { ten 0 with seq := 0xFFFFFFFF } [] = true ∧
      live.deferred = []) :=
  ⟨⟨ready_of (by decide +kernel), by decide +kernel, by decide +kernel, by decide +kernel, nofun⟩,
    ⟨ready_of (by decide +kernel), by decide +kernel⟩, ⟨ready_of (by decide +kernel), by decide +kernel⟩,
    ready_of (by decide +kernel), by decide +kernel, rfl⟩

theorem witness_EnablingAndDisablingComplete :
    (Ready .enableFunction (op 63) live ∧ plain (op 63) [(0, 1)] = true ∧ u (op 63).p 0 1 = 63 ∧ 63 ≤ live.pcie.vfs ∧
      (live.host[63]).enabled = false ∧ (live.host[63]).quiescing = false ∧ live.heldFor 63 = false ∧
      live.hall.t1Degraded = false ∧ (live.enable 63).isSome = true) ∧
    (let s : State := { live with deferred := [.heldEnable (op 2) 2 true true] };
      s.deferred.find? (·.readyFor 2) = some (.heldEnable (op 2) 2 true true) ∧ (live.enable 2).isSome = true) ∧
    (Ready .disableFunction (op 1) live ∧ plain (op 1) [(0, 1)] = true ∧ u (op 1).p 0 1 = 1 ∧ (live.host[1]).enabled = true ∧
      (live.host[1]).quiescing = false ∧ live.heldFor 1 = false) :=
  ⟨⟨ready_of (by decide +kernel), by decide +kernel⟩, by decide +kernel, ready_of (by decide +kernel), by decide +kernel⟩

/-- SET_PARTITION of function 1 to partition 2: rate 1, burst 64, no limits, unlimited. -/
def partCmd : Cmd := op (2 + 1 * 2 ^ 8 + 2 * 2 ^ 16 + 1 * 2 ^ 32 + 64 * 2 ^ 64)

theorem witness_PartitionSelftestAndDomainsComplete :
    (Ready .setPartition partCmd live ∧ plain partCmd [(0, 3), (4, 16)] = true ∧ u partCmd.p 0 1 = 2 ∧ u partCmd.p 1 1 = 1 ∧
      u partCmd.p 2 1 = 2 ∧ u partCmd.p 4 4 = 1 ∧ u partCmd.p 8 4 = 64 ∧
      u partCmd.p 12 4 = 0 ∧ u partCmd.p 16 4 = 0 ∧ ∀ g : FnId, g = 1 ∨ (live.fns[g]).partition = 2 →
        (live.near.parts[(live.fns[g]).partition]).stall = true → (live.fns[g]).moulds.any (·.usesStall) = false) ∧
    (let k := op (2 + 1 * 2 ^ 8 + 3 * 2 ^ 16 + 1 * 2 ^ 32 + 64 * 2 ^ 64);
      Ready .setPartition k live ∧ plain k [(0, 3), (4, 16)] = true ∧ u k.p 0 1 = 2 ∧ u k.p 2 1 = 3 ∧ u k.p 4 4 = 1 ∧ u k.p 8 4 = 64 ∧
        bit (u k.p 2 1) 0 = true ∧ u k.p 12 4 = 0 ∧ u k.p 16 4 = 0) ∧
    (Ready .selftest (op (1 + 5 * 2 ^ 16)) live ∧ plain (op (1 + 5 * 2 ^ 16)) [(0, 1), (2, 2)] = true ∧
      u (op (1 + 5 * 2 ^ 16)).p 0 1 = 1 ∧ u (op (1 + 5 * 2 ^ 16)).p 2 2 = 5 ∧ live.forgeAssigned 5 = false ∧
      live.anyRunning = false) ∧
    (Ready .selftest (op 2) live ∧ plain (op 2) [(0, 1), (2, 2)] = true ∧ u (op 2).p 0 1 = 2 ∧ u (op 2).p 2 2 = 0) ∧
    (let k := op (1 + 2 ^ 64);
      Ready .powerDomainSet k live ∧ plain k [(0, 1), (8, 16)] = true ∧ u k.p 0 1 = 1 ∧ u k.p 16 8 < 2 ^ 36 ∧
        (live.entered .powerDomainSet k).powerRefusal true (domMask k) = none ∧ live.anyRunning = false) ∧
    (let k := op (2 ^ 64);
      Ready .powerDomainSet k live ∧ plain k [(0, 1), (8, 16)] = true ∧ u k.p 0 1 = 0 ∧
        (live.entered .powerDomainSet k).powerRefusal false (domMask k) = none) :=
  ⟨⟨ready_of (by decide +kernel), by decide +kernel⟩, ⟨ready_of (by decide +kernel), by decide +kernel⟩,
    ⟨ready_of (by decide +kernel), by decide +kernel⟩, ⟨ready_of (by decide +kernel), by decide +kernel⟩,
    ⟨ready_of (by decide +kernel), by decide +kernel⟩, ready_of (by decide +kernel), by decide +kernel⟩

theorem witness_EventRingCommandsComplete :
    (let k := op (4096 + 6 * 2 ^ 64);
      Ready .eventRingSetup k live ∧ plain k [(0, 9)] = true ∧ u k.p 0 8 = 4096 ∧ u k.p 8 1 = 6) ∧
    (Ready .eventRingSetup (op 0) live ∧ plain (op 0) [(0, 9)] = true ∧ u (op 0).p 0 8 = 0 ∧ u (op 0).p 8 1 = 0) ∧
    (let s : State := { live with events := { live.events with held := [{ ticks := 0, code := 0x0101 }], written := 1 } };
      Ready .eventAck (op 1) s ∧ plain (op 1) [(0, 4)] = true ∧ u (op 1).p 0 4 ≤ s.events.written) :=
  ⟨⟨ready_of (by decide +kernel), by decide +kernel⟩, ⟨ready_of (by decide +kernel), by decide +kernel⟩,
    ready_of (by decide +kernel), by decide +kernel⟩

/-! ### Firmware, keys and the Ledger -/

/-- The module after boot, before firmware. -/
def booted : State := { live with hall := { live.hall with fwRunning := false } }

theorem witness_FirmwareAndLedgerCommandsComplete :
    (Ready .fwLoad (op 0) booted ∧ zeroOutside (op 0).p 32 [] = true ∧ booted.hall.fwRunning = false ∧
      booted.smith.event7 = true ∧ booted.hall.identityFault = false) ∧
    (let s : State := { booted with smith := { booted.smith with event7 := false } };
      Ready .fwLoad (op 0) s ∧ s.smith.event7 = false ∧ s.hall.identityFault = false ∧ s.domOn 97 = true ∧
        s.faulted = false ∧ s.smith.heldFwLoad = none) ∧
    (Ready .fwStart (op 0) booted ∧ plain (op 0) [] = true ∧ booted.hall.image.isSome = true) ∧
    (Ready .ledgerRead (op (2 ^ 32)) live ∧ plain (op (2 ^ 32)) [(0, 2), (4, 4)] = true) ∧
    (let k := op (3 * 2 ^ 32);
      Ready .rollbackAdvance k live ∧ plain k [(0, 1), (4, 4)] = true ∧ u k.p 4 4 ≤ live.hall.svn ∧
        live.ledger.rollback 0 < u k.p 4 4 ∧ live.bell.low = false) ∧
    (let k := op 1;
      Ready .rollbackAdvance k live ∧ plain k [(0, 1), (4, 4)] = true ∧ u k.p 4 4 ≤ live.hall.keyIndex ∧
        u k.p 4 4 ≤ live.ledger.rollback 1) :=
  ⟨⟨ready_of (by decide +kernel), by decide +kernel⟩, ⟨ready_of (by decide +kernel), by decide +kernel⟩,
    ⟨ready_of (by decide +kernel), by decide +kernel⟩, ⟨ready_of (by decide +kernel), by decide +kernel⟩,
    ⟨ready_of (by decide +kernel), by decide +kernel⟩, ready_of (by decide +kernel), by decide +kernel⟩

/-- An unsealed command of ring 0 of function 1. -/
def own (params : Nat) : Cmd :=
  { fn := 1, ring := some 0, queue := 0, seq := 1, params := BitVec.ofNat 256 params, outCap := 0x10000 }

theorem witness_AttestAndKeyExchangeComplete :
    (Ready .attest (own (2 ^ 64)) live ∧ plain (own (2 ^ 64)) [(8, 24)] = true ∧ 26128 ≤ (own (2 ^ 64)).outCap.toNat) ∧
    (let s : State := { live with hall := { live.hall with pending := live.hall.pending.set 1 (some ⟨[], [], 0⟩) } };
      let k := withPayload (own 0) (List.replicate 9008 0);
      Ready .keyExchange k s ∧ zeroOutside k.p 32 [] = true ∧ k.len = 9008 ∧ 32 ≤ k.outCap.toNat ∧
        (s.entered .keyExchange k).hall.pending[k.fn] = some ⟨[], [], 0⟩ ∧ digestBytes 0 = slice k.payload 0 32 ∧
        (s.entered .keyExchange k).hall.owner[k.fn] = none ∧ ((s.entered .keyExchange k).hall.sessions[k.fn]).length < 64) :=
  ⟨⟨ready_of (by decide +kernel), by decide +kernel⟩, ready_of (by decide +kernel), by decide +kernel⟩

/-! ### Supply, reset, power and temperature -/

/-- The sensors at 105 °C. -/
def hot : State := { live with bell := { live.bell with temps := Vector.replicate 164 (105 * 16) } }

theorem witness_SupplyAndReferenceComplete :
    (live.bell.spine = true ∧ live.time.src ≠ 1) ∧
    (let s : State := { live with time := { live.time with src := 1 } };
      s.bell.spine = true ∧ s.time.src = 1) ∧
    (let s : State := { State.reset with bell := { State.reset.bell with present := true } };
      s.bell.spine = false ∧ s.bell.present = true) ∧
    (let s : State := { live with bell := { live.bell with limiting := true, low := true } };
      s.bell.spine = true ∧ s.bell.limiting = true ∧ s.events.enabled = false ∧ s.bell.low = true) ∧
    (let s : State := { live with bell := { live.bell with limiting := true }, events := { live.events with enabled := true } };
      s.bell.limiting = true ∧ s.events.enabled = true ∧ s.bell.low = false) := by decide +kernel

theorem witness_ResetsComplete :
    (live.bell.spine = true ∧ live.domOn 96 = true ∧ (live.host[(1 : FnId)]).enabled = true ∧
      (live.host[(1 : FnId)]).quiescing = false) ∧
    (let s : State := { live with pcie := { live.pcie with perst := true } };
      s.bell.spine = true ∧ s.pcie.perst = true ∧ s.tap.extest = false) := by decide +kernel

theorem witness_VoltageAndPowerSamplesComplete :
    live.domOn 99 = true ∧ live.bell.spine = true ∧
      ({ live.bell with under := 1#100 <<< 99 } : Bellows).under.getLsbD 99 = true := by decide +kernel

theorem witness_CapMovesDemandsInOrder :
    CapInRange live.bell ∧ CapInRange { live.bell with capForge := 550 } ∧ CapInRange { live.bell with capForge := 550, capMigr := 550 } ∧
    CapInRange { live.bell with capForge := 550, capMigr := 550, capCtl := 600 } ∧
    ({ live.bell with capForge := 550, capMigr := 550, capCtl := 600 } : Bellows).atFloor = true := by
  refine ⟨?_, ?_, ?_, ?_, by decide +kernel⟩ <;> (refine ⟨?_, ?_, ?_⟩ <;> decide +kernel)

theorem witness_TemperatureEntropyAndSummaryComplete :
    hot.bell.spine = true ∧ hot.plinthOn 7 = true ∧ hot.faulted = false ∧ dieSensor 63 = true ∧
    deg 105 ≤ (hot.bell.temps[(63 : Fin 164)]).toInt ∧ deg 105 ≤ (hot.bell.temps[(79 : Fin 164)]).toInt ∧
    deg 105 ≤ (hot.bell.temps[(127 : Fin 164)]).toInt ∧ hot.domOn (64 + 15) = true ∧ hot.hall.fwRunning = true ∧
    hot.domOn 98 = true ∧ booted.domOn 98 = true ∧ booted.hall.fwRunning = false := by decide +kernel

/-- Level 1 is entered at 95 °C and left once the temperature has fallen to 93 °C (R246). -/
theorem test_quench_levels :
    quenchLevel 0 (deg 95) = 1 ∧ quenchLevel 0 (deg 95 - 1) = 0 ∧ quenchLevel 1 (deg 93 + 1) = 1 ∧ quenchLevel 1 (deg 93) = 0 ∧
    quenchLevel 3 (deg 105) = 6 := by decide +kernel

theorem witness_TestAccessPortCompletes :
    (live.bell.spine = true ∧ live.tap.extest = false ∧ 2 < (3 : BitVec 4).toNat) ∧
    (let s : State := { live with tap := { live.tap with extest := true } };
      s.tap.extest = true ∧ s.bell.spine = true ∧ s.pcie.perst = false) ∧
    (let s : State := { live with tap := { live.tap with extest := true }, pcie := { live.pcie with perst := true } };
      s.tap.extest = true ∧ s.pcie.perst = true) := by decide +kernel

/-! ### The Range and the tiers -/

/-- Function 1 with one span of each role, from span 0 on in the order of Table TIER-2, its index span, their frames in T1, and
T2 frames for the RETRIEVAL span and the BILLETS span. Page 33 is a sealed billet with both copies, page 192 a sealed
RETRIEVAL page in T2 only. -/
def ranged : State :=
  { live with
    fns := live.fns.set 1 { live.fns[(1 : FnId)] with
      spans := [⟨0, .data, none⟩, ⟨1, .billets, none⟩, ⟨2, .kvPages, none⟩, ⟨3, .kvHeaders, none⟩, ⟨4, .kvLists, none⟩,
        ⟨5, .kvPrefix, none⟩, ⟨6, .retrieval, none⟩, ⟨indexBase / 2097152, .index, none⟩]
      pages := (((List.range 6).map fun i => blankPages i false).flatten ++ blankPages 6 true ++
        blankPages (indexBase / 2097152) false).map fun p =>
          if p.num = 33 then { p with sealed_ := true, t2 := true }
          else if p.num = 192 then { p with sealed_ := true, t1 := false, t2 := true } else p }
    t1 := ((List.range 7).map fun i => (⟨8 + i, .span 1 i⟩ : Frame)) ++ [⟨15, .span 1 (indexBase / 2097152)⟩]
    t2 := [⟨0, .span 1 1⟩, ⟨1, .span 1 6⟩]
    plinths := live.plinths.map fun p => { p with linkUp := true } }

/-- RANGE_MAP of one DATA span at span 8, home T1. -/
def mapCmd : Cmd := ten (8 * 2097152 + 1 * 2 ^ 64 + 1 * 2 ^ 96 + 1 * 2 ^ 104)

/-- RANGE_MAP of one span of the shared model 9, at span 9, home T1. -/
def mapModelCmd : Cmd := ten (9 * 2097152 + 1 * 2 ^ 64 + 2 * 2 ^ 96 + 1 * 2 ^ 104 + 1 * 2 ^ 112 + 9 * 2 ^ 128)

/-- RANGE_UNMAP of span 0. -/
def unmapCmd : Cmd := ten (1 * 2 ^ 64)

theorem witness_RangeCommandsComplete :
    (Ready .rangeMap mapCmd ranged ∧ rangeMapOk mapCmd = true ∧ Role.ofCode (u mapCmd.p 12 1) = some .data ∧
      bit (u mapCmd.p 14 1) 0 = false ∧
      (heatFor .rangeMap mapCmd (ranged.entered .rangeMap mapCmd)).any (fun x =>
        !(x.2.fns[(1 : FnId)]).spans.any (fun y => 8 ≤ y.num && y.num < 9) && (x.2.mapSpans 1 .data false none 8 1).isOk) = true) ∧
    (Ready .rangeMap mapModelCmd ranged ∧ rangeMapOk mapModelCmd = true ∧ bit (u mapModelCmd.p 14 1) 0 = true ∧
      (heatFor .rangeMap mapModelCmd (ranged.entered .rangeMap mapModelCmd)).any (fun x => (x.2.mapModel 1 9 false 9 1).isOk) = true) ∧
    (Ready .rangeUnmap unmapCmd ranged ∧ plain unmapCmd [(0, 12)] = true ∧ u unmapCmd.p 0 8 = 0 ∧ u unmapCmd.p 8 4 = 1 ∧
      (heatFor .rangeUnmap unmapCmd (ranged.entered .rangeUnmap unmapCmd)).any (fun x =>
        x.2.unmapOk 1 0 1 && !x.2.unmapBusy 1 0 1 && (x.2.unmapSpans 1 0 1).isSome) = true) :=
  ⟨⟨ready_of (by decide +kernel), by decide +kernel⟩, ⟨ready_of (by decide +kernel), by decide +kernel⟩,
    ready_of (by decide +kernel), by decide +kernel⟩

/-- The header of a billet of sixteen coded blocks of one unit each. -/
def header (billet : Nat) : List Byte := headerBytes 0 0 ((List.range 16).map fun i => { off := i, len := 1, raw := false }) billet

/-- LOAD_BILLETS of one billet to page 32. -/
def loadCmd : Cmd := withPayload (ten (2097152 + 1 * 2 ^ 64)) (header 32 ++ List.replicate 512 0)

/-- SEAL_PAGES of page 0. -/
def sealCmd : Cmd := ten (1 * 2 ^ 64)

/-- READ_OUT of the first 256 bytes of span 0. -/
def readCmd : Cmd := ten (256 * 2 ^ 64)

theorem witness_BilletCommandsComplete :
    (Ready .loadBillets loadCmd ranged ∧ zeroOutside loadCmd.p 32 [(0, 13)] = true ∧ u loadCmd.p 12 1 = 0 ∧
      u loadCmd.p 0 8 = 2097152 ∧ u loadCmd.p 8 4 = 1 ∧
      (heatFor .loadBillets loadCmd (ranged.entered .loadBillets loadCmd)).any (fun x =>
        (x.2.fns[(1 : FnId)]).roleOf 2097152 == some .billets &&
        (x.2.pageAt 1 2097152).any (fun y => !(x.2.fns[(1 : FnId)]).sealedFor x.1 y.2) &&
        (x.2.loadPayload 1 x.1 false 1 2097152 loadCmd.payload).isOk) = true) ∧
    (Ready .sealPages sealCmd ranged ∧ plain sealCmd [(0, 12)] = true ∧ u sealCmd.p 8 4 = 1 ∧
      (heatFor .sealPages sealCmd (ranged.entered .sealPages sealCmd)).any (fun x =>
        (x.2.fns[(1 : FnId)]).roleOf 0 == some .data && (x.2.pageAt 1 0).any (fun y => !y.2.poisoned) &&
        x.2.toSeal 1 x.1 [0] == [0] && (match foldE (fun (s : State) i => s.sealPage 1 x.1 i) [0] x.2 with
          | .ok v => v.sealsModels 1 x.1 [0]
          | .error _ => false)) = true) ∧
    (Ready .readOut readCmd ranged ∧ plain readCmd [(0, 12)] = true ∧ u readCmd.p 8 4 = 256 ∧ 256 ≤ readCmd.outCap.toNat ∧
      ((ranged.entered .readOut readCmd).fns[(1 : FnId)]).mappedRange 0 256 = true ∧
      (((ranged.entered .readOut readCmd).startRead readCmd 0 256).meet 1 0 256 {}).2 = .fine ∧
      (heatFor .readOut readCmd (((ranged.entered .readOut readCmd).startRead readCmd 0 256).meet 1 0 256 {}).1).any (fun x =>
        !(x.2.fns[(1 : FnId)]).lostIn 0 256) = true) :=
  ⟨⟨ready_of (by decide +kernel), by decide +kernel⟩, ⟨ready_of (by decide +kernel), by decide +kernel⟩,
    ready_of (by decide +kernel), by decide +kernel⟩

theorem witness_EnableTakesHeatAreaAndStorageKey : (live.enable 63).isSome = true := by decide +kernel

theorem witness_WhatSurvivesResets : live.bell.spine = true := by decide +kernel

/-- MIGRATE_HINT of `action` on one page of function 1. -/
def hintCmd (action page : Nat) : Cmd := ten (action + 1 * 2 ^ 8 + 65536 * page * 2 ^ 64 + 1 * 2 ^ 128)

/-- What the statement asks of a hint of the action. -/
def hinted (action : Nat) (k : Cmd) : Bool :=
  ready .migrateHint k ranged && hintOk k && u k.p 0 1 == action &&
    (heatFor .migrateHint k (ranged.entered .migrateHint k)).any fun x => match x.2.hintNamed k x.1 with
      | .ok (t, l) => (t.hintPages 1 action l).isSome && l.length == 1
      | .error _ => false

/-- Page 192 on its way up, page 33 on its way down. -/
def moving : State := ranged.modFn 1 fun f => { f with
  pages := f.pages.map fun p => if p.num = 192 then { p with up := true } else if p.num = 33 then { p with t2 := false, down := true } else p }

/-- The same with a T1 frame for the span of page 192. -/
def movingUp : State := { moving with t1 := moving.t1 ++ [⟨16, .span 1 6⟩] }

/-- Page 33 alone on its way. -/
def movedUp : State := moving.modPage 1 192 fun p => { p with up := false }

theorem witness_MigrationComplete :
    (hinted 1 (hintCmd 1 192) = true ∧ hinted 2 (hintCmd 2 33) = true ∧ hinted 3 (hintCmd 3 33) = true ∧
      hinted 4 (hintCmd 4 33) = true) ∧
    (∀ s ∈ [movingUp, moving], let s' := s.queueMoves 1 none;
      (s.pageAt 1 (192 * 65536)).any (fun x => x.1 == 1 && x.2.up && ((s'.fns[(1 : FnId)]).page? x.2.num).any fun q =>
        q.up && !q.t1 && q.t2 && s'.t2Linked 1 x.2.num && s'.myTurn 1 x.2.num && (s'.t1Room 1 x.2.num).isSome) = true) ∧
    (let s := movedUp;
      let s' := s.queueMoves 1 none;
      (s.pageAt 1 (33 * 65536)).any (fun x => x.1 == 1 && !x.2.up && ((s'.fns[(1 : FnId)]).page? x.2.num).any fun q =>
        q.down && q.t1 && q.sealed_ && q.bad.isEmpty && (s'.needT2 (1, x.2.num)).any fun t => t.t2Linked 1 x.2.num && t.myTurn 1 x.2.num) =
        true) := by decide +kernel

/-! ### The KV store and retrieval -/

/-- `ranged` with two sequences of one layer and one group: 5 holds two full pages, 6 is empty. -/
def stored : State := ranged.modFn 1 fun f => { f with
  nextHandle := 7
  hdrs := [0, 1].map fun i => { num := i, state := .open_, filled := 64, ref := 1, seq := 5, lpage := i }
  seqs := [{ handle := 5, namespace_ := 0, tokenBase := 0, maxPages := 64, layerFirst := 0, layers := 1, groups := 1, priority := 1, order := 0,
             length := 128, listBase := 4 * 2097152, entries := [⟨0, 0, 0, 0, false⟩, ⟨0, 0, 1, 1, false⟩] },
           { handle := 6, namespace_ := 0, tokenBase := 65536, maxPages := 64, layerFirst := 0, layers := 1, groups := 1, priority := 1, order := 0,
             listBase := 4 * 2097152 + 256 }] }

def allocSeqCmd : Cmd := ten (3 * 65536 * 2 ^ 64 + 64 * 2 ^ 128 + 1 * 2 ^ 176 + 1 * 2 ^ 192 + 1 * 2 ^ 200)
def forkCmd : Cmd := ten (5 + 0xFFFFFFFF * 2 ^ 32 + 2 * 65536 * 2 ^ 128)

theorem witness_SequenceCommandsComplete :
    (ready .kvAllocSeq allocSeqCmd stored = true ∧ allocSeqOk allocSeqCmd = true ∧
      (heatFor .kvAllocSeq allocSeqCmd (stored.entered .kvAllocSeq allocSeqCmd)).any (fun x =>
        (x.2.fns[(1 : FnId)]).poolMapped && (x.2.fns[(1 : FnId)]).tokenArea (u allocSeqCmd.p 8 8) (u allocSeqCmd.p 0x10 4) &&
        (x.2.newSeq 1 x.1 (allocSeq allocSeqCmd)).isOk) = true) ∧
    (ready .kvFork forkCmd stored = true ∧ plain forkCmd [(0, 10), (16, 8)] = true ∧ u forkCmd.p 9 1 < 2 ∧
      u forkCmd.p 0x10 8 % 256 = 0 ∧
      (heatFor .kvFork forkCmd (stored.entered .kvFork forkCmd)).any (fun x =>
        ((x.2.fnView 1 (some x.1)).seq? (u forkCmd.p 0 4)).any fun q =>
          q.length == 128 && (x.2.fnView 1 (some x.1)).tokenArea (u forkCmd.p 0x10 8) q.maxPages &&
          !(x.2.fnView 1 (some x.1)).seqLost q && !x.2.poisonedIn 1 q.tokenBase (4 * 128) (some x.1) &&
          !(x.2.fnView 1 (some x.1)).bound q.handle &&
          match x.2.newSeq 1 x.1 { q with tokenBase := u forkCmd.p 0x10 8, priority := u forkCmd.p 8 1, order := u forkCmd.p 9 1, length := 128,
                                          entries := q.entries.filter fun e => e.lpage < ceilDiv 128 64, lastStep := 0, lost := [] } with
          | .ok (t, _) => (t.countsAs 1 x.1 (q.layers * q.groups * ceilDiv (ceilDiv 128 64) 64 + ceilDiv (4 * 128) 2097152)
              (fun s => s.heatWrite 1 x.1 (u forkCmd.p 0x10 8) (s.readRange 1 (some x.1) q.tokenBase (4 * 128)))).isOk
          | .error _ => false) = true) ∧
    (ready .kvFreeSeq (ten 5) stored = true ∧ plain (ten 5) [(0, 4)] = true ∧
      (heatFor .kvFreeSeq (ten 5) (stored.entered .kvFreeSeq (ten 5))).any (fun x =>
        ((x.2.fnView 1 (some x.1)).seq? (u (ten 5).p 0 4)).any fun q => !(x.2.fnView 1 (some x.1)).bound q.handle &&
          (x.2.act 1 x.1 (listUnits (q.freed (x.2.fnView 1 (some x.1))))).isOk) = true) := by decide +kernel

theorem witness_PrefixAndDropCommandsComplete :
    (let k := ten (6 + 64 * 2 ^ 32);
      ready .prefixLookup k stored = true ∧ plain k [(0, 8)] = true ∧
      (heatFor .prefixLookup k (stored.entered .prefixLookup k)).any (fun x =>
        ((x.2.fnView 1 (some x.1)).seq? (u k.p 0 4)).any fun q => q.length == 0 && u k.p 4 4 ≤ 64 * q.maxPages &&
          !(x.2.fnView 1 (some x.1)).seqLost q && !x.2.prefixLost 1 && !x.2.poisonedIn 1 q.tokenBase (4 * u k.p 4 4) (some x.1) &&
          !(x.2.fnView 1 (some x.1)).bound q.handle &&
          ((x.2.noteClash 1 q (x.2.prefixHits 1 x.1 q (u k.p 4 4)).2).act 1 x.1
            (q.layers * q.groups * ceilDiv (x.2.prefixHits 1 x.1 q (u k.p 4 4)).1.length 64)).isOk) = true) ∧
    (ready .prefixPublish (ten 5) stored = true ∧ plain (ten 5) [(0, 8)] = true ∧
      (heatFor .prefixPublish (ten 5) (stored.entered .prefixPublish (ten 5))).any (fun x =>
        ((x.2.fnView 1 (some x.1)).seq? (u (ten 5).p 0 4)).any fun q => u (ten 5).p 4 4 ≤ q.length / 64 &&
          !(x.2.fnView 1 (some x.1)).seqLost q && !x.2.prefixLost 1 &&
          !x.2.poisonedIn 1 q.tokenBase (256 * u (ten 5).p 4 4) (some x.1) && !(x.2.fnView 1 (some x.1)).bound q.handle &&
          (publishBlocks 1 x.1 q (Config.prefixNodes ((x.2.fnView 1 (some x.1)).roleBytes .kvPrefix)) (u (ten 5).p 4 4) 0
            q.namespace_ none { s := x.2 }).isOk) = true) ∧
    (let k := ten (5 + 2 * 2 ^ 96);
      ready .kvDrop k stored = true ∧ kvDropOk k = true ∧ u k.p 4 1 = 0 ∧
      (heatFor .kvDrop k (stored.entered .kvDrop k)).any (fun x =>
        ((x.2.fnView 1 (some x.1)).seq? (u k.p 0 4)).any fun q => !(x.2.fnView 1 (some x.1)).seqLost q &&
          (x.2.fnView 1 (some x.1)).candidates q (u k.p 8 4) (u k.p 12 4) == [0, 1] &&
          (x.2.dropAll 1 x.1 q [0, 1]).isOk) = true) ∧
    (let k := ten (5 + 1 * 2 ^ 32 + 7 * 2 ^ 40);
      ready .kvDrop k stored = true ∧ kvDropOk k = true ∧ u k.p 4 1 = 1 ∧
      (heatFor .kvDrop k (stored.entered .kvDrop k)).any (fun x =>
        ((x.2.fnView 1 (some x.1)).seq? (u k.p 0 4)).any fun q => !(x.2.fnView 1 (some x.1)).seqLost q) = true) := by
  decide +kernel

/-- A mould of one forge with a stream, its step 0 running there in no phase yet. -/
def mouldOf (stream : List (BitVec 128)) : Mould :=
  { id := 7, digest := 0, flags := 0, phaseCount := 2, deadline := 1000000, paramBytes := 0, sessionSlots := 0, heats := []
    forges := [{ phys := 0, stream }]
    queue := [{ cmd := ten 0, op := .runStep, next := 0, left := 1 }]
    run := some { index := 0, params := [], bindings := [], phases := [none], ended := [false] } }

/-- `s` with a mould of function 1 whose step runs on forge 0. -/
def runs (m : Mould) (s : State) : State :=
  (s.modFn 1 fun f => { f with moulds := [m] }).modForge 0 fun x => { x with job := some ⟨1, 7, 0⟩ }

theorem witness_EpochAndDropPolicyComplete :
    ((stored.fns[(1 : FnId)]).registeredBefore (stored.fns[(1 : FnId)]).epoch = false) ∧
    (let s := runs { mouldOf [] with run := (mouldOf []).run.map fun r => { r with dropWanted := some 1 } } stored;
      (((s.fns[(1 : FnId)]).mould? 7).bind (·.run)).any (fun r => r.dropWanted == some 1) = true ∧ (s.fns[(1 : FnId)]).counted < 32 ∧
      (s.openHeat 1 .single 4096).isSome = true) := by decide +kernel

/-- RETRIEVE_INDEX_LOAD of `n` rows of 1 KiB, the last, to page 193, with their tags at page 0. -/
def indexCmd (n : Nat) : Cmd :=
  { withPayload (ten (193 * 65536 + n * 2 ^ 160 + 1 * 2 ^ 192 + 1 * 2 ^ 200)) (List.replicate (1024 * n) 0) with
    inAddr := if n = 0 then 0 else 0x40000 }

/-- RETRIEVE_SCAN of the 64 rows of page 192 with their tags on page 1: one query, k = 2. -/
def scanCmd : Cmd :=
  withPayload (ten (192 * 65536 + 65536 * 2 ^ 64 + 64 * 2 ^ 128 + 2 * 2 ^ 160 + 1 * 2 ^ 176 + 1 * 2 ^ 184 + 1 * 2 ^ 224)) (List.replicate 1024 0)

/-- `ranged` with page 1 sealed. -/
def tagged : State := ranged.modFn 1 fun f => { f with pages := f.pages.map fun p => if p.num = 1 then { p with sealed_ := true } else p }

/-- The same with that scan accepted. -/
def scanning : State :=
  { tagged with flights := [{ op := .retrieveScan, cmd := scanCmd }]
                fns := vmod tagged.fns 1 fun f => { f with scans := [{ id := 1, cmd := scanCmd, queries := 1, k := 2 }], nextScan := 2 } }

/-- What the statement asks of an index load before its effect. -/
def indexable (k : Cmd) : Bool :=
  let t := ranged.entered .retrieveIndexLoad k
  ready .retrieveIndexLoad k ranged && indexLoadOk k && t.pagesOf 1 (loadAt k) (loadBytes k) .retrieval true &&
    t.pagesOf 1 (loadTags k) (8 * u k.p 0x14 4) .data false && t.loadLinked k

theorem witness_RetrievalCommandsComplete :
    (indexable (indexCmd 1) = true ∧ indexable (indexCmd 0) = true ∧
      (heatFor .retrieveIndexLoad (indexCmd 0) (ranged.entered .retrieveIndexLoad (indexCmd 0))).any (fun x =>
        (x.2.loadIndex (indexCmd 0) x.1).isOk) = true) ∧
    ready .retrieveScan scanCmd tagged = true ∧ scanOk scanCmd = true ∧ 8 * u scanCmd.p 0x16 1 * u scanCmd.p 0x14 2 ≤ scanCmd.outCap.toNat ∧
    (tagged.fns[(1 : FnId)]).scans.any (·.cmd == scanCmd) = false ∧
    (tagged.entered .retrieveScan scanCmd).scanReady 1 (u scanCmd.p 0 8) (u scanCmd.p 8 8) (u scanCmd.p 0x10 4) (1024 * u scanCmd.p 0x17 1) =
      true := by decide +kernel

theorem witness_ScansStartAndEnd :
    ((scanning.fns[(1 : FnId)]).scans.find? (!·.started)).any (fun x => scanning.scanMayStart 1 x) = true ∧
    (let s : State := { scanning with
        fns := vmod scanning.fns 1 fun f => { f with scans := f.scans.map fun x => { x with started := true } }
        plinths := vmod scanning.plinths 1 fun p => { p with scan := some (1, 1) } };
      ((s.fns[(1 : FnId)]).scans.find? (·.id == 1)).any (fun x => x.started &&
        ((s.scanning 1 1).all fun n => !(s.plinths[n]).scoring && s.storedTags 1 x n == (s.plinths[n]).agg) &&
        !s.poisonedIn 1 (u x.cmd.p 8 8) (8 * u x.cmd.p 0x10 4) && !s.chanBlocks 1 (u x.cmd.p 8 8) (8 * u x.cmd.p 0x10 4)) = true ∧
      s.deferred = [] ∧ (s.fns[(1 : FnId)]).scans.any (·.id == 1) = true ∧ s.scanning 1 1 = [1]) := by decide +kernel

/-! ### Features and registers -/

/-- SET_FEATURE of `code` to `v`, with `arg`. -/
def setCmd (code v : Nat) (arg : Nat := 0) : Cmd := op (code + v * 2 ^ 64 + arg * 2 ^ 128)

theorem witness_FeatureCommandsComplete :
    (let k := setCmd 0x10B 100000;
      ready .setFeature k live = true ∧ plain k [(0, 2), (8, 16)] = true ∧ u k.p 16 8 = 0 ∧ u k.p 0 2 = 0x101 + 10 ∧
      (timeoutRange.getD 10 (0, 0)).1 ≤ u k.p 8 8 ∧ u k.p 8 8 ≤ (timeoutRange.getD 10 (0, 0)).2 ∧
      timeoutsOk (live.feat.timeouts.set 10 (u k.p 8 8)) = true) ∧
    (let k := setCmd 0x201 0xFFF;
      ready .setFeature k live = true ∧ plain k [(0, 2), (8, 16)] = true ∧ u k.p 16 8 = 0 ∧ u k.p 0 2 = 0x0201 ∧ u k.p 8 8 ≠ 0 ∧
      u k.p 8 8 < 2 ^ 12 ∧ live.mouldsUnder (u k.p 8 8) = 0 ∧ live.anyRunning = false) ∧
    (let k := setCmd 0x301 (2 ^ 48 - 1);
      ready .setFeature k live = true ∧ plain k [(0, 2), (8, 16)] = true ∧ u k.p 16 8 = 0 ∧ u k.p 0 2 = 0x0301 ∧ u k.p 8 8 < 2 ^ 48 ∧
      live.t2 = []) ∧
    (let k := setCmd 0xF001 63 0xFF00040000;
      ready .setFeature k live = true ∧ plain k [(0, 2), (8, 16)] = true ∧ u k.p 0 2 = 0xF001 ∧ regArgOk (u k.p 16 8) = true ∧
      u k.p 8 8 < 2 ^ 32 ∧ (dieReg (live.entered .setFeature k) (u k.p 16 8)).any (fun r => r.write.isSome && !r.closed) = true) ∧
    (∀ code ∈ [0x101, 0x10B, 0x201, 0x301], let k := op code;
      ready .getFeature k live = true ∧ plain k [(0, 2), (16, 8)] = true ∧ u k.p 16 8 = 0 ∧ 8 ≤ k.outCap.toNat ∧ u k.p 0 2 = code) ∧
    (let k := setCmd 0xF000 0 0xFF00000000;
      ready .getFeature k live = true ∧ k.ring = none ∧ plain k [(0, 2), (16, 8)] = true ∧ u k.p 0 2 = 0xF000 ∧
      regArgOk (u k.p 16 8) = true ∧ 8 ≤ k.outCap.toNat) := by decide +kernel

theorem witness_RegisterAccessesComplete :
    live.domOn 97 = true ∧ (∃ r g, live.regAt 0xFF00040000 = some r ∧ r.write = some g) ∧
    (∃ x clear, live.regAt 0xFF00010014 = some (w1c x 31 clear)) ∧ (∃ x clear, live.regAt 0xFF00000008 = some (roc x clear)) ∧
    (∃ x clear, live.regAt 0xFF00040010 = some (lowWord 0xFF00040010 x clear)) ∧
    (∃ x, live.regAt 0xFF00040014 = some (highWord live 0xFF00040010 x)) ∧ (State.reset.forgeOn 63 = false ∧
      (perForge State.reset 7 63 0xFF02FF0000 0).isSome = true) :=
  ⟨by decide +kernel, ⟨_, _, rfl, rfl⟩, ⟨_, _, rfl⟩, ⟨_, _, rfl⟩, ⟨_, _, rfl⟩, ⟨_, rfl⟩, by decide +kernel⟩

/-! ### The near tier -/

theorem witness_StackMaintenanceCompletes :
    (let k := op 511;
      ready .channelMapout k live = true ∧ plain k [(0, 3)] = true ∧ u k.p 0 2 = 511 ∧ u k.p 2 1 = 0 ∧
      (live.entered .channelMapout k).mapoutRefusal 511 false = none ∧ (live.entered .channelMapout k).anyRunning = false ∧
      ((live.entered .channelMapout k).mapoutNow 511 []).isSome = true) ∧
    (let k := op (511 + 1 * 2 ^ 16);
      ready .channelMapout k live = true ∧ plain k [(0, 3)] = true ∧ u k.p 0 2 = 511 ∧ u k.p 2 1 = 1 ∧
      (live.entered .channelMapout k).mapoutRefusal 511 true = none ∧ ((live.entered .channelMapout k).recordMapout 511 true).isSome = true) ∧
    (let k := op 511; ready .stackRepairQuery k live = true ∧ plain k [(0, 2)] = true ∧ u k.p 0 2 = 511) ∧
    (let k := op (511 + 1 * 2 ^ 16 + 15 * 2 ^ 24);
      ready .stackRepairApply k live = true ∧ plain k [(0, 8)] = true ∧ u k.p 0 2 = 511 ∧ u k.p 2 1 = 1 ∧ u k.p 3 1 = 15 ∧
      (live.near.chans[(511 : ChanId)]).holder ≠ some k ∧ (live.near.chans[(511 : ChanId)]).state ≠ .mappedOut ∧ live.bell.low = false ∧
      (live.near.chans[(511 : ChanId)]).spareRows[(15 : Fin 16)] ≠ 0 ∧
      ∀ d, chanStack d = chanStack 511 → (live.near.chans[d]).state.busy = false) ∧
    (let k := op (511 + 2 * 2 ^ 16 + 15 * 2 ^ 24);
      let s := (live.modChan 511 fun x => { x with state := .repair, holder := some k });
      ready .stackRepairApply k live = true ∧ plain k [(0, 8)] = true ∧ u k.p 2 1 = 2 ∧ (live.near.chans[(511 : ChanId)]).spareCols ≠ 0 ∧
      ready .stackRepairApply k s = true ∧ (s.near.chans[(511 : ChanId)]).holder = some k) := by
  decide +kernel

/-- `live` with channel 511 in its retrain. -/
def retraining : State := live.modChan 511 fun x => { x with state := .retraining }

theorem witness_ScrubRefreshAndRetrainsComplete :
    (ranged.stackOn 511 = true ∧ (ranged.near.chans[(511 : ChanId)]).state = .active ∧ ranged.resolve 1 65535 = (1, 65535) ∧
      (ranged.t1Addr 1 65535).isSome = true) ∧
    (beatLost (1 <<< 32) = false ∧ beatLost (0x80 <<< 312) = false) ∧ beatLost 1 = true ∧
    ((retraining.near.chans[(511 : ChanId)]).state = .retraining ∧ retraining.annealing (.channel 511) = false) ∧
    ((live.near.chans[(511 : ChanId)]).state = .active ∧ (live.near.stks[chanStack 511]).waiting.contains 511 = false ∧
      ∀ d, chanStack d = chanStack 511 → (live.near.chans[d]).state.busy = false) ∧
    ((retraining.near.chans[(480 : ChanId)]).state = .active ∧ (retraining.near.stks[chanStack 480]).waiting.contains 480 = false ∧
      chanStack 511 = chanStack 480 ∧ (retraining.near.chans[(511 : ChanId)]).state.busy = true) ∧
    (let s := live.modChan 511 fun x => { x with state := .mappedOut };
      (s.near.chans[(511 : ChanId)]).state ≠ .active ∧ (s.near.chans[(511 : ChanId)]).state.busy = false) := by decide +kernel

theorem witness_AnnealsEndOrEscalate :
    let s : State := { live with anneals := [{ unit := .channel 511, cause := 4 }] };
    s.anneals.find? (·.unit == .channel 511) = some { unit := .channel 511, cause := 4 } := by decide +kernel

/-! ### Grizlink -/

/-- A list entry of 256 bytes from or to position 1. -/
def xfer (slot : Nat) (seq : Nat) : XferEntry :=
  { phase := 0, peer := 1, forge := 0, slot, format := 0, onRequest := false, length := 256, sequence := seq, collective := 0 }

theorem witness_LinkCommandsComplete :
    (let k := op (0xFF + 1 * 2 ^ 8 + 5 * 2 ^ 16);
      ready .linkBringup k live = true ∧ plain k [(0, 4), (16, 16)] = true ∧ u k.p 1 1 = 1 ∧
      (live.entered .linkBringup k).bringupRefusal k = none) ∧
    (ready .linkStatus (op 7) live = true ∧ plain (op 7) [(0, 1)] = true ∧ u (op 7).p 0 1 < 8 ∧ 64 ≤ (op 7).outCap.toNat ∧
      ((live.entered .linkStatus (op 7)).physPort (u (op 7).p 0 1)).isSome = true) ∧
    (ready .laneDiag (op 7) live = true ∧ plain (op 7) [(0, 1)] = true ∧ 128 ≤ (op 7).outCap.toNat ∧
      ((live.entered .laneDiag (op 7)).physPort (u (op 7).p 0 1)).isSome = true) := by decide +kernel

/-- Module 1 of a cohort with module 2 on port 0, under a policy of function 1. -/
def paired : State :=
  ({ live with ports := vmod live.ports 0 fun q => { q with state := .up, partnerChip := 2, lanes := 0xFFFF, unacked := 1 } } : State).modFn 1 fun f =>
    { f with cohort := some { id := 1, entries := [(1, 0), (2, 0)] } }

/-- A mould of that cohort, at position 0 of chip `self`, with one slot, sends, receives and a distributed heat. -/
def mate (self : Nat) : Mould :=
  { mouldOf [] with
    flags := 4
    cohort := [⟨self, true, 0⟩, ⟨2, false, 0⟩]
    forges := [{ phys := 0, stream := [], owners := [0x77]
                 slots := [{ slot := 0, bankFirst := 0, bankCount := 1, persist := false, initialFull := false, rowFirst := 0, rowCount := 4 }] }]
    sends := [{ xfer 0 5 with onRequest := true }, xfer 0 6]
    recvs := [xfer 0 6, xfer 0 9]
    credited := [0]
    heats := [{ openPhase := 0, commitPhase := 0, maxActions := 16, distributed := true, sendsInHeat := false, participants := [0, 1] }]
    run := some { index := 0, params := [], bindings := [], phases := [some 1], ended := [false], sent := [1], requested := [1], opened := 1 } }

/-- A record of position 1 of that cohort. -/
def msg (seq : Nat := 0) (body : List Byte := []) : Msg := { src := 1, cohort := 1, seq := BitVec.ofNat 32 seq, body }

/-- What `FromPeer` asks, for port 0, function 1 and `mate 1`, as a check. -/
def fromMate (m : Msg) (s : State) : Bool :=
  s.carries 0 && s.msgFn 0 m == some 1 && (s.fns[(1 : FnId)]).msgMould m == some (mate 1) && s.fromPeer 0 m (mate 1)

theorem fromMate_peer {m : Msg} {s : State} (h : fromMate m s = true) : FromPeer 0 m 1 (mate 1) s := by
  simp only [fromMate, Bool.and_eq_true, beq_iff_eq] at h
  exact ⟨h.1.1.1, h.1.1.2, h.1.2, h.2⟩

theorem witness_DataRecordsComplete :
    let s := runs (mate 1) paired;
    let data := msg 6 (List.replicate 256 0);
    (fromMate data s = true ∧ (mate 1).recvFor data = some (xfer 0 6, 0) ∧ data.flags.getLsbD 0 = false ∧ data.flags.getLsbD 2 = false ∧
      s.dataFits 1 (mate 1) 0 (xfer 0 6) data = true) ∧
    (let answer : Msg := { msg 9 with flags := 4 };
      fromMate answer s = true ∧ (mate 1).recvFor answer = some (xfer 0 9, 1) ∧ answer.flags.getLsbD 0 = false ∧ answer.flags.getLsbD 2 = true ∧
      (mate 1).run.any (fun r => r.index == answer.step.toNat && r.requested.contains 1) = true ∧
      (s.fns[(1 : FnId)]).logged (mate 1).id 1 answer.step.toNat = false) ∧
    (fromMate (msg 5) s = true ∧ (msg 5).dst.toNat = (mate 1).selfPos ∧ ((mate 1).sendFor (msg 5)).isSome = true) ∧
    (fromMate (msg 0 (List.replicate 64 0)) s = true ∧ (msg 0 (List.replicate 64 0)).body.length = 64 ∧
      (List.replicate 64 (0 : Byte)).drop 32 = digestBytes (mate 1).cohortDigest) := by decide +kernel

/-- Window 0 of forge 0, open for chip 2. -/
def window : Window :=
  { index := 0, fn := 1, mould := 7, logical := 0, slot := 0, rights := 1, peer := 2, rowFirst := 0, rowCount := 4, digest := 0, expiry := 1000 }

/-- `paired` with `mate 1` and that window. -/
def windowed : State := (runs (mate 1) paired).modForge 0 fun x => { x with windows := [window] }

theorem witness_WindowRecordsComplete :
    (let m := msg 0 (List.replicate 8 0 ++ [0, 0, 1, 0, 0, 0, 4, 0]);
      windowed.carries 0 = true ∧ windowed.msgFn 0 m = some 1 ∧ windowed.windowOf (u m.body 8 2) = some (0, window) ∧
      windowAdmits windowed.ports[(0 : PortId)] 1 window m = true) ∧
    (let m := msg 0 (List.replicate 8 0 ++ [0, 0, 1, 0, 0, 0, 5, 0]);
      windowed.msgFn 0 m = some 1 ∧ windowed.windowOf (u m.body 8 2) = some (0, window) ∧
      windowAdmits windowed.ports[(0 : PortId)] 1 window m = false) ∧
    (let m := msg 0 (List.replicate 8 0 ++ [1, 0]); windowed.msgFn 0 m = some 1 ∧ windowed.windowOf (u m.body 8 2) = none) ∧
    (fromMate (msg 6 [0]) windowed = true ∧ (mate 1).run.any (fun r => r.index == 0 && r.sent.contains 1) = true ∧
      (mate 1).sends.findIdx? (fun e => e.peer == 1 && e.sequence == 6) = some 1 ∧
      (mate 1).recvs.findIdx? (fun e => e.peer == 1 && e.sequence == 6) = some 0 ∧
      (windowed.fns[(1 : FnId)]).logged (mate 1).id 0 0 = false) := by decide +kernel

theorem witness_CohortAndWindowCommandsComplete :
    (let k := withPayload (ten 0) (List.replicate 64 0);
      ready .cohortForm k live = true ∧ zeroOutside k.p 32 [] = true ∧ ((live.entered .cohortForm k).policyFrames k).isSome = true) ∧
    (ready .cohortLeave (ten 0) paired = true ∧ plain (ten 0) [] = true ∧ (paired.fns[(1 : FnId)]).active = false) ∧
    (ready .cohortLeave (op 1) paired = true ∧ (op 1).ring = none ∧ plain (op 1) [(0, 1)] = true ∧ u (op 1).p 0 1 = 1) ∧
    (let s := runs (mate 1) paired;
      let k := ten (7 + 1 * 2 ^ 80 + 2 * 2 ^ 96 + 4 * 2 ^ 128 + 1000 * 2 ^ 160);
      ready .windowOpen k s = true ∧ plain k [(0, 11), (12, 6), (20, 12)] = true ∧ u k.p 10 1 = 1 ∧ u k.p 0x10 2 = 4 ∧ u k.p 0x14 4 = 1000 ∧
      ((s.entered .windowOpen k).windowPlace k).isOk = true ∧ ((s.entered .windowOpen k).forges[(0 : ForgeId)]).freeWindow = some 0) ∧
    (ready .windowClose (ten 0) windowed = true ∧ plain (ten 0) [(0, 2)] = true ∧
      (windowed.entered .windowClose (ten 0)).deferred.any (·.closesFor (ten 0)) = false ∧
      (windowed.entered .windowClose (ten 0)).windowOf 0 = some (0, window) ∧ window.fn = (ten 0).fn) ∧
    windowed.windowOf 0 = some (0, window) := by decide +kernel

/-- The flits of a frame that its position in the sequence leaves done. -/
def doneOf (seq : BitVec 12) : Nat := ((paired.ports[(0 : PortId)]).rxSeq + 4097 - seq.toNat) % 4096

theorem witness_FrameCompletes :
    paired.carries 0 = true ∧ (8 ≤ doneOf 7 ∧ seqGap 7 (((paired.ports[(0 : PortId)]).rxSeq + 1) % 4096) = true) ∧
    doneOf 0 = 0 ∧ doneOf 4089 = 7 ∧
    (let s := paired.modPort 0 fun q => { q with failedFrame := some 0 };
      (s.ports[(0 : PortId)]).failedFrame = some (s.ports[(0 : PortId)]).frameRx) := by decide +kernel

theorem witness_LinkTimersAndKeysComplete :
    ((paired.ports[(0 : PortId)]).state = .up ∧ (paired.ports[(0 : PortId)]).lanes.getLsbD 15 = true ∧
      (paired.ports[(0 : PortId)]).retraining.getLsbD 15 = false ∧ paired.annealing (.lane 0 15) = false) ∧
    ((paired.modPort 0 fun q => { q with retraining := 0x8000 }).ports[(0 : PortId)]).retraining.getLsbD 15 = true ∧
    (paired.carries 0 = true ∧ (paired.ports[(0 : PortId)]).unacked ≠ 0 ∧ (paired.ports[(0 : PortId)]).rekey = 0) ∧
    (∀ m : Fin 4, let s := paired.modPort 0 fun q => { q with rekey := m.val };
      (s.ports[(0 : PortId)]).rekey = m.val ∧ s.carries 0 = true) ∧
    (∀ m : Fin 4, m.val < 2 → ((paired.modPort 0 fun q => { q with rekey := m.val }).ports[(0 : PortId)]).keyFault m.val [] = some 2) ∧
    (let m := mate 1;
      runs { m with forges := m.forges.map fun y => { y with full := [0] }, run := m.run.map fun r => { r with sent := [] } } paired).starves 0 =
      true := by decide +kernel

/-! ### Moulds, runs and heats -/

/-- `mate self` with its heat in slot 0, with other edits of the function. -/
def heated (self : Nat) (st : HeatState) (g : Fn → Fn := id) : State :=
  (runs (mate self) paired).modFn 1 fun f =>
    g { f with slots := f.slots.set 0 (some { number := 1, origin := .step 7 0, state := st, maxActions := 16 }) }

/-- What `HeatRecord` asks, for port 0, function 1 and the heat of `mate self`, as a check. -/
def heatRecord (self : Nat) (m : Msg) (s : State) : Bool := s.carries 0 && s.msgFn 0 m == some 1 && s.heatMsg 1 0 m == some (mate self, 0)

theorem heatRecord_of {self : Nat} {m : Msg} {s : State} (h : heatRecord self m s = true) : HeatRecord 0 m 1 (mate self) 0 s := by
  simp only [heatRecord, Bool.and_eq_true, beq_iff_eq] at h
  exact ⟨h.1.1, h.1.2, h.2⟩

theorem witness_CommitRecordsComplete :
    let m := msg 0 (List.replicate 16 0);
    (heatRecord 1 m (heated 1 .open_) = true ∧ (mate 1).coordinator = (mate 1).selfPos ∧ m.step.toNat = (mate 1).nextStep ∧
      (((heated 1 .open_).fns[(1 : FnId)]).decisions.any fun d => d.mould == 7 && d.bound == 0 && d.step == 0 && d.commit) = false ∧
      (((heated 1 .open_).fns[(1 : FnId)]).stepHeat 7 0 m.step.toNat).isSome = true) ∧
    (let s := heated 1 .open_ fun f => { f with decisions := [{ mould := 7, bound := 0, step := 0, commit := true, waiting := [1] }] };
      heatRecord 1 m s = true ∧
      ((s.fns[(1 : FnId)]).decisions.find? fun d => d.mould == 7 && d.bound == 0 && d.step == m.step.toNat).isSome = true ∧
      ((s.fns[(1 : FnId)]).decisions.find? fun d => (d.mould == 7 && d.bound == 0 && d.step == m.step.toNat) && d.waiting.contains m.src.toNat).isSome =
        true) ∧
    (((heated 1 .open_).fns[(1 : FnId)]).decisions.find? fun d =>
      (d.mould == 7 && d.bound == 0 && d.step == m.step.toNat) && d.waiting.contains m.src.toNat) = none ∧
    (∀ st ∈ [HeatState.open_, .prepared], heatRecord 3 m (heated 3 st) = true ∧
      (((heated 3 st).fns[(1 : FnId)]).stepHeat 7 0 m.step.toNat).any (fun h => h.2.state == st) = true) ∧
    (heatRecord 3 m (heated 3 .prepared) = true ∧ m.src.toNat = (mate 3).coordinator ∧
      (((heated 3 .prepared).fns[(1 : FnId)]).stepHeat 7 0 m.step.toNat).isSome = true) ∧
    (let s := heated 3 .prepared;
      ((s.fns[(1 : FnId)]).heat 0).any (fun h => h.origin == .step 7 0 && h.state == .prepared) = true ∧
      (s.fns[(1 : FnId)]).mould? 7 = some (mate 3) ∧ s.portOf (mate 3) (mate 3).coordinator = some 0 ∧ (s.ports[(0 : PortId)]).state = .up) := by
  decide +kernel

/-- `live` with a mould that waits for its first command. -/
def idleMould (m : Mould) (s : State := live) : State := s.modFn 1 fun f => { f with moulds := [{ m with queue := [], run := none }] }

theorem witness_RunCommandsComplete :
    (ready .loadMould (withPayload (ten 0) [0]) live = true ∧ zeroOutside (withPayload (ten 0) [0]).p 32 [] = true) ∧
    (let s := idleMould (mouldOf []);
      ready .runStep (ten 7) s = true ∧ runParamsOk .runStep (ten 7) = true ∧ runSteps .runStep (ten 7) * u (ten 7).p 0x18 4 ≤ (ten 7).outCap.toNat ∧
      ((s.fns[(1 : FnId)]).moulds.any fun m => m.queue.any fun c => c.cmd == ten 7) = false ∧
      ((s.fns[(1 : FnId)]).mould? (runMould (ten 7))).any (fun m => runFits (s.entered .runStep (ten 7)) .runStep (ten 7) m && m.queue.length < 16) =
        true ∧
      (s.entered .runStep (ten 7)).loading .runStep (ten 7) = false) ∧
    (let s := idleMould (mouldOf []);
      let k := ten (7 + 65536 * 2 ^ 96);
      ready .runSteps k s = true ∧ runParamsOk .runSteps k = true ∧ runSteps .runSteps k * u k.p 0x18 4 ≤ k.outCap.toNat ∧
      ((s.fns[(1 : FnId)]).mould? (runMould k)).any (fun m => runFits (s.entered .runSteps k) .runSteps k m && m.queue.length < 16) = true) ∧
    (let s := runs (mouldOf []) live;
      ready .haltRun (ten 7) s = true ∧ plain (ten 7) [(0, 8)] = true ∧ ((s.fns[(1 : FnId)]).mould? (runMould (ten 7))).isSome = true ∧
      s.deferred.contains (.halt (ten 7) 1 (runMould (ten 7))) = false) ∧
    (let s := runs (mouldOf []) live;
      let k := op (7 + 1 * 2 ^ 64);
      ready .haltRun k s = true ∧ k.ring = none ∧ plain k [(0, 9)] = true ∧ u k.p 8 1 = 1 ∧
      ((s.fns[(1 : FnId)]).mould? (runMould k)).isSome = true) ∧
    (let s := runs (mouldOf []) live;
      ready .queryRun (ten 7) s = true ∧ plain (ten 7) [(0, 8)] = true ∧ 512 ≤ (ten 7).outCap.toNat ∧
      ((s.fns[(1 : FnId)]).mould? (runMould (ten 7))).isSome = true ∧ (s.entered .queryRun (ten 7)).loading .queryRun (ten 7) = false) := by
  decide +kernel

theorem witness_RunCommandNeedsInstalledMould :
    ready .runStep (ten 7) live = true ∧ runParamsOk .runStep (ten 7) = true ∧ (live.fns[(1 : FnId)]).mould? (runMould (ten 7)) = none ∧
    (let s : State := { idleMould (mouldOf []) with
        flights := [{ op := .loadMould, cmd := { ten 0 with payload := List.replicate 16 0 ++ [7] } }] };
      (s.entered .runSteps (ten (7 + 2 ^ 96))).loading .runSteps (ten (7 + 2 ^ 96)) = true) := by decide +kernel

/-- A mould whose step waits at its gate. -/
def gated (m : Mould) (next : Nat := 0) : State :=
  live.modFn 1 fun f => { f with moulds := [{ m with run := none, queue := [{ cmd := ten 0, op := .runStep, next, left := 1 }] }] }

theorem witness_StepGateCompletes :
    (((gated (mouldOf []) 1).fns[(1 : FnId)]).mould? 7).any (fun m => m.queue.any (·.next != m.nextStep) && m.run.isNone) = true ∧
    (let s := gated (mouldOf []);
      ((s.fns[(1 : FnId)]).mould? 7).any (fun m => m.queue.any (·.next == m.nextStep) && m.run.isNone && !s.gateWaits 1 m &&
        s.cohortCheck 1 m == none && !s.portsDown m) = true ∧ s.hall.fwRunning = true) ∧
    (let s := gated (mate 1);
      ((s.fns[(1 : FnId)]).mould? 7).any (fun m => m.queue.any (·.next == m.nextStep) && m.run.isNone && !s.gateWaits 1 m &&
        s.cohortCheck 1 m == some .notPermitted) = true) ∧
    (let s := (runs { mouldOf [] with run := (mouldOf []).run.map fun r => { r with rerun := true } } live).modForge 0 fun x => { x with job := none };
      ((s.fns[(1 : FnId)]).mould? 7).any (fun m => !m.queue.isEmpty && m.run.any (fun r => r.rerun && r.dropWanted.isNone &&
          r.dropGoal ≤ (s.fns[(1 : FnId)]).freeKv) &&
        !(s.modMould 1 7 fun m => { m with run := none }).gateWaits 1 m && !s.portsDown m) = true ∧ s.hall.fwRunning = true) := by
  decide +kernel

/-- `live` with a command heat of function 1 on ring 0, open in slot 0 or scrapped. -/
def inHeat0 (open_ : Bool) : State := live.modFn 1 fun f => { f with
  slots := if open_ then f.slots.set 0 (some { number := 1, origin := .ring 0, maxActions := 4 }) else f.slots
  cmdHeats := [{ ring := 0, slot := if open_ then some 0 else none, scrapped := if open_ then none else some .timeout }] }

theorem witness_CommandHeatsComplete :
    (let k := ten (5 + 4096 * 2 ^ 32);
      ready .heatBegin k live = true ∧ plain k [(0, 6)] = true ∧ u k.p 0 4 = 5 ∧ u k.p 4 2 = 4096 ∧ (live.fns[(1 : FnId)]).counted < 32 ∧
      ((live.entered .heatBegin k).openHeat 1 (.ring 0) 4096).any (fun x =>
        (x.2.allocT1 1 (.shadow 1 x.1.val) (ceilDiv 4096 512)).isSome) = true) ∧
    (((inHeat0 true).entered .heatEnd (ten 0)).dropCmdHeat 1 (some 0)).anyChanBusy = false ∧
    (let s := (inHeat0 true).modChan 511 fun x => { x with state := .retraining };
      ready .heatEnd (ten 0) s = true ∧ ((s.entered .heatEnd (ten 0)).dropCmdHeat 1 (some 0)).anyChanBusy = true) ∧
    (∀ e : Fin 2, ready .heatEnd (ten e.val) (inHeat0 true) = true ∧ plain (ten e.val) [(0, 1)] = true ∧ u (ten e.val).p 0 1 = e.val ∧
      ((inHeat0 true).fns[(1 : FnId)]).commits? .heatEnd (ten e.val) = false ∧
      (((inHeat0 true).fns[(1 : FnId)]).cmdHeats.find? (fun c => some c.ring == (ten e.val).ring)).any (·.slot == some 0) = true) ∧
    (ready .heatEnd (ten 0) (inHeat0 false) = true ∧
      (((inHeat0 false).fns[(1 : FnId)]).cmdHeats.find? (fun c => some c.ring == (ten 0).ring)).any (·.slot == none) = true) := by decide +kernel

theorem witness_StepHeatsComplete :
    (∀ x ∈ [(1, true), (3, true), (1, false)], let s := heated x.1 .open_;
      let s := if x.2 then s else s.modMould 1 7 fun m => { m with heats := m.heats.map fun h => { h with distributed := false } };
      ((s.fns[(1 : FnId)]).heat 0).any (fun h => h.origin == .step 7 0 && h.state == .open_ && !h.committing) = true ∧
      ((s.fns[(1 : FnId)]).mould? 7).any (fun m => m.run.any (fun r => !r.rerun && r.status.isNone && !m.unsent r && (m.heats[0]?).any fun b =>
        r.committed b.commitPhase && b.distributed == x.2) && (m.coordinator == m.selfPos) == (x.1 == 1)) = true) ∧
    (let s := live.modFn 1 fun f => { f with
        slots := f.slots.set 31 (some { number := 1, origin := .single, maxActions := 1, committing := true, reply := some (.sealPages, ten 0, 0, []) }) };
      ((s.fns[(1 : FnId)]).heat 31).any (fun h => h.origin == .single && h.reply.isSome && h.state == .open_) = true) ∧
    ({} : Lines).fails = false ∧ ({ blocks := [{ block := 0, tagOk := false }] } : Lines).fails = true := by decide +kernel

theorem witness_FoldWritesTheShadow :
    let s := live.modFn 1 fun f => { f with
      slots := f.slots.set 31 (some { number := 1, origin := .single, state := .committed, maxActions := 1, shadow := [(0, 5), (256, 0)] }) };
    ((s.fns[(1 : FnId)]).heat 31).any (fun h => h.state == .committed && Memory.sorted h.shadow) = true ∧ Memory.wf s.ram = true := by
  decide +kernel

theorem witness_TimeoutsComplete :
    (let s : State := { live with flights := [{ op := .setPowerCap, cmd := op 1 }] };
      (s.flights.find? fun f => f.cmd == op 1 && f.op.adminBound).isSome = true ∧ s.deferred = [] ∧ s.smith.heldFwLoad = none) ∧
    (let s : State := { runs (mouldOf []) live with deferred := [.quiesce (op 1) [1] false] };
      ([1] : List FnId).contains 1 = true ∧ (s.fns[(1 : FnId)]).active = true) ∧
    (live.hall.fwRunning = true ∧ live.faulted = false) ∧
    (let m := mate 1;
      let s := runs { m with forges := m.forges.map fun y => { y with wait := [0] } } paired;
      s.anyChanBusy = false ∧ ((s.refuseWindow 0 0).jobForge 0).any (fun x =>
        x.2.2.wait.contains 0 && !(s.refuseWindow 0 0).slotHeld x.2.1 x.1.logical 0) = true) ∧
    (let s := live.modForge 63 fun x => { x with tchans := vmod x.tchans 7 fun t => { t with active := some { index := 0 } } };
      ((s.forges[(63 : ForgeId)]).tchans[(7 : TongsId)]).active.isSome = true) ∧
    (let s : State := { live with flights := [{ op := .readOut, cmd := ten 1 }] };
      (s.flights.find? fun f => f.cmd.fn == 1 && f.cmd.ring == some 0 && f.cmd.seq == 1 && !f.background).isSome = true ∧
      ((s.fns[(1 : FnId)]).moulds.any fun m => m.queue.any (·.cmd == ten 1)) = false ∧ s.deferred = []) := by decide +kernel

/-! ### The instruction stream -/

/-- An instruction word from its bytes. -/
def ins (bytes : List Nat) : BitVec 128 := BitVec.ofNat 128 (leNat (bytes.map (BitVec.ofNat 8 ·)))

/-- A descriptor from its OP, its constant and its two side blocks (bytes per line, lines, space, slot). -/
def desc (op k : Nat) (src dst : Nat × Nat × Nat) (slots : Nat × Nat) : BitVec 512 :=
  let side := fun (x : Nat × Nat × Nat) (slot : Nat) => toLe 8 slot ++ toLe 4 x.1 ++ toLe 4 0 ++ toLe 4 x.2.1 ++ toLe 1 x.2.2 ++ [0, 0xFF, 0xFF]
  BitVec.ofNat 512 (leNat (toLe 1 op ++ [0, 0, 0] ++ toLe 4 k ++ side src slots.1 ++ side dst slots.2 ++ List.replicate 4 0 ++ [0xFF, 0xFF, 0xFF, 0xFF]))

/-- A mould with three slots of 1,024 rows, the first FULL, every bank written by Tongs and read by all. -/
def worker (stream : List (BitVec 128)) (tongs : List (BitVec 512) := []) : Mould :=
  { mouldOf stream with
    sessionSlots := 1, plinthMask := 1
    forges := [{ phys := 0, stream, tongs, subs := [0], full := [0], owners := [BitVec.ofNat 256 (leNat (List.replicate 32 0x49))]
                 slots := (List.range 3).map fun i =>
                  { slot := i, bankFirst := 4 * i, bankCount := 4, persist := false, initialFull := i == 0, rowFirst := 0, rowCount := 256 } }] }

/-- The worker's step runs on forge 0, the forge otherwise as `g` has it. -/
def works (w : BitVec 128) (g : Forge → Forge := id) (s : State := live) : State := (runs (worker [w]) s).modForge 0 g

/-- What `AtHead` asks of forge 0, with a further check of the mould and its part on the forge. -/
def atHead (w : BitVec 128) (code : Nat) (s : State) (p : Mould → MForge → Running → Bool := fun _ _ _ => true) : Bool :=
  (s.jobForge 0).any fun x => x.2.1.run.any fun r =>
    !r.rerun && r.status.isNone && !(s.forges[(0 : ForgeId)]).ended && x.2.2.stream[(s.forges[(0 : ForgeId)]).pc]? == some w && wB w 0 1 == code && p x.2.1 x.2.2 r

theorem atHead_of {w : BitVec 128} {code : Nat} {s : State} {p : Mould → MForge → Running → Bool} (h : atHead w code s p = true) :
    ∃ j m mf r, AtHead 0 w code j m mf r s ∧ p m mf r = true := by
  simp only [atHead, Option.any_eq_true, Bool.and_eq_true, Bool.not_eq_true', Option.isNone_iff_eq_none, beq_iff_eq] at h
  obtain ⟨⟨j, m, mf⟩, hj, r, hr, ⟨⟨⟨⟨h1, h0⟩, h2⟩, h3⟩, h4⟩, h5⟩ := h
  exact ⟨j, m, mf, r, ⟨hj, hr, h1, h0, h2, h3, h4⟩, h5⟩

theorem witness_StreamControlCompletes :
    (∀ code ∈ [0x01, 0x02], atHead (ins [code]) code (works (ins [code])) (fun _ mf _ => match ((works (ins [code])).forges[(0 : ForgeId)]).phaseEnd mf with
      | .done => true
      | _ => false) = true) ∧
    (let tile : Tile := { tile := 0, tokenFirst := 0, saturated := false, special := false, format := 0, tokens := 1, features := 128, data := [] };
      ∀ code ∈ [0x01, 0x02], let s := works (ins [code]) fun x => { x with anvil := { x.anvil with queue := [tile] } };
        atHead (ins [code]) code s (fun _ mf _ => match (s.forges[(0 : ForgeId)]).phaseEnd mf with
          | .wrong 2 => true
          | _ => false) = true) ∧
    atHead (ins [3]) 0x03 (works (ins [3])) (fun _ mf _ => mf.subs[wB (ins [3]) 2 2]? == some 0) = true ∧
    (let s := works (ins [4]) fun x => { x with nest := [.call 0] };
      atHead (ins [4]) 0x04 s = true ∧ (s.forges[(0 : ForgeId)]).nest = [.call 0]) ∧
    atHead (ins [5, 0, 0, 0, 9, 0, 0, 0, 1]) 0x05 (works (ins [5, 0, 0, 0, 9, 0, 0, 0, 1])) = true := by decide +kernel

/-- `live` with a code table of 256 codes of 8 bits in row 0 of bank 0 of forge 0. -/
def tableRow : State :=
  { live with hearth := (recordBytes 5 (List.replicate 256 8)).zipIdx.map fun x => (hearthKey 0 0 0 x.2, x.1) }

theorem witness_EngineConfigurationCompletes :
    (∀ code ∈ [0x11, 0x18, 0x22, 0x30], atHead (ins [code]) code (works (ins [code])) = true) ∧ CrucJob.cfgReserved (ins [0x30]) = false ∧
    (let w := ins [0x19, 7];
      let s := works w id tableRow;
      atHead w 0x19 s (fun _ mf _ => mf.fits 0 0 1 && (mf.clash s.feat.cacheMask 0 1 { slot := 0, first := 0, n := 1 }).isNone &&
        mf.blocked [{ slot := 0, first := 0, n := 1 }] == none && recordOk (s.readRows 0 mf 0 0 1)) = true ∧
      (s.forges[(0 : ForgeId)]).anvil.issued = [] ∧ (s.forges[(0 : ForgeId)]).phase = 0) ∧
    (let w := ins [0x23, 3];
      let s := works w;
      atHead w 0x23 s (fun _ mf _ => mf.fits 0 0 4 && (mf.clash s.feat.cacheMask 0 2 { slot := 0, first := 0, n := 4 }).isNone &&
        mf.blocked [{ slot := 0, first := 0, n := 4 }] == none) = true ∧
      (s.forges[(0 : ForgeId)]).chisel.issued = []) := by decide +kernel

/-- CHISEL_TREG of register `i`: one row of 128 INT8 elements in a slot. -/
def row (i slot : Nat) : BitVec 128 := ins [0x22, i, slot, 0, 0, 0, 0, 0, 1, 0, 128, 0, 1]

/-- Forge 0 configured for a product of INT8, for tensors of 1 by 128 INT8 elements, for a latent of one segment; the Press with
table 0 built. -/
def configured (x : Forge) : Forge :=
  { x with
    anvil := { x.anvil with cfg := { aSide := 2, bSide := 2 } }
    chisel := { x.chisel with tregs := (x.chisel.tregs.set 0 (some (row 0 0))).set 1 (some (row 1 1)) }
    cruc := { x.cruc with cfg := ins [0x30, 0, 0, 1, 0, 0xFF, 0xFF, 0xFF, 0, 0, 0, 0, 0xFF] }
    press := { x.press with tables := x.press.tables.set 0 { built := true, id := 5 } } }

theorem witness_EngineIssueCompletes :
    (let w := ins [0x10, 0, 0, 1, 0xFF, 0xFF, 0, 0, 0, 0, 2, 0, 1];
      let s := works w configured;
      atHead w 0x10 s (fun _ mf _ => AnvilJob.ok { word := w, cfg := (s.forges[(0 : ForgeId)]).anvil.cfg, swage := (s.forges[(0 : ForgeId)]).swage.cfg,
                                                   pc := 0 } mf) = true ∧ (s.forges[(0 : ForgeId)]).anvil.issued.length < 5) ∧
    (let w := ins [0x20, 1, 0, 0x10, 0, 4];
      let stages := [ins [0x21, 1]];
      let s := (runs (worker [w, ins [0x21, 1]]) live).modForge 0 configured;
      atHead w 0x20 s (fun _ mf _ => (((mf.stream.drop 1).take (bits (wB w 1 1) 0 4)).takeWhile fun w => wB w 0 1 == 0x21) == stages &&
        ChiselJob.check { word := w, stages, tregs := (s.forges[(0 : ForgeId)]).chisel.tregs.toList, pc := 0 } mf s.feat.cacheMask
          (fun i => ((s.forges[(0 : ForgeId)]).chisel.tables.toList.getD i none).isSome) true == none) = true ∧
      stages.length = bits (wB w 1 1) 0 4 ∧ (s.forges[(0 : ForgeId)]).nest = []) ∧
    (∀ x ∈ [(0x31, ins [0x31, 0, 0, 1, 0xFF, 0, 0, 0, 0, 0, 0, 0, 0, 1]), (0x32, ins [0x32, 0, 0, 64])], let s := works x.2 configured;
      atHead x.2 x.1 s (fun m mf _ => CrucJob.check { word := x.2, cfg := (s.forges[(0 : ForgeId)]).cruc.cfg, pc := 0, env := {} } m mf == none) = true ∧
      (s.forges[(0 : ForgeId)]).crucAhead.1.length < 3) ∧
    (∀ x ∈ [(0x60, ins [0x60, 4, 0, 0, 0, 0, 1, 0, 5]), (0x61, ins [0x61, 0, 0, 0, 0, 0, 1, 0, 34, 0, 0, 0, 0xFF, 0xFF]),
        (0x62, ins [0x62, 0, 0, 0, 0, 0, 0, 0, 0, 0, 0, 0, 0, 0, 0xFF, 0xFF])],
      let s := works x.2 configured ranged;
      atHead x.2 x.1 s (fun m mf r => PressJob.ok { word := x.2, pc := 0 } (s.forges[(0 : ForgeId)]).press mf &&
        PressJob.placed { word := x.2, pc := 0 } m r s.fns[(1 : FnId)]) = true ∧ (s.forges[(0 : ForgeId)]).press.issued.length < 3) := by
  decide +kernel

theorem witness_TongsAndPlinthStreamComplete :
    (let w := ins [0x40, 7, 0, 0, 1];
      let s := runs (worker [w] [desc 2 0 (0, 0, 0) (512, 1, 1) (0, 1)]) live;
      atHead w 0x40 s (fun _ mf _ => wB w 4 2 == 1 && wB w 2 2 + wB w 4 2 ≤ mf.tongs.length) = true ∧
      ((s.forges[(0 : ForgeId)]).tchans[(7 : TongsId)]).queue.length < 4) ∧
    (let w := ins [0x41, 0xFF];
      atHead w 0x41 (works w) = true ∧ ((chansOf w).all fun c => (((works w).forges[(0 : ForgeId)]).tchans[c]).empty) = true) ∧
    atHead (ins [0x42, 0xFF]) 0x42 (works (ins [0x42, 0xFF])) = true ∧
    (let w := ins [0x06, 0xFF];
      atHead w 0x06 (works w) = true ∧ ∀ n : PlinthId, (((works w).plinths[n]).chains.toList.all fun c => c.instrs.all fun i => i.forge != some 0) = true) ∧
    (let w := ins [0x50, 0, 3];
      let p : UProg := { fn := 1, mould := 7, program := 3, instrs := [0] };
      let s := works w id ({ ranged with plinths := vmod ranged.plinths 0 fun x => { x with progs := [p], compute := 0x3F },
                                                    t2 := ranged.t2 ++ [⟨8, .compute 1⟩] } : State);
      atHead w 0x50 s (fun m _ _ => m.plinthMask.getLsbD 0) = true ∧
      ((s.plinths[(0 : PlinthId)]).progs.find? fun p => p.fn == 1 && p.mould == 7 && p.program == wB w 2 2) = some p ∧
      (s.plinths[(0 : PlinthId)]).linkUp = true ∧ (s.forges[(0 : ForgeId)]).prun = none ∧
      (match (s.offerRun 0 1 0 [0]).2 with
        | .ok l => l == []
        | .error _ => false) = true) := by decide +kernel

/-- Channel 7 of forge 0 with descriptor 0 of the worker active. -/
def active (d : BitVec 512) (a : TActive := { index := 0 }) (s : State := live) : State :=
  (runs (worker [] [d]) s).modForge 0 fun x => { x with tchans := vmod x.tchans 7 fun t => { t with active := some a } }

/-- What `AtDesc` asks of such a state, whose descriptor is active already, with a further check. -/
def atDesc (op : Nat) (s : State) (p : Job → Mould → MForge → Running → Bool) : Bool :=
  (s.jobForge 0).any fun x => (s.forges[(0 : ForgeId)]).job == some x.1 && x.2.1.run.any fun r =>
    (((s.forges[(0 : ForgeId)]).tchans[(7 : TongsId)]).active.any fun a => !a.moved && dOp (x.2.2.tongs.getD a.index 0) == op) && !r.rerun && p x.1 x.2.1 x.2.2 r

theorem atDesc_of {op : Nat} {s : State} {p : Job → Mould → MForge → Running → Bool} (h : atDesc op s p = true) :
    ∃ j m mf r a, AtDesc 0 7 op j m mf r a s s ∧ p j m mf r = true := by
  simp only [atDesc, Option.any_eq_true, Bool.and_eq_true, Bool.not_eq_true', beq_iff_eq] at h
  obtain ⟨⟨j, m, mf⟩, hj, hh, r, hr, ⟨⟨a, ha, h1, h2⟩, h3⟩, h4⟩ := h
  refine ⟨j, m, mf, r, a, ⟨⟨j, m, mf, hj, ?_⟩, hh, hj, ha, hr, h2, h1, h3⟩, h4⟩
  unfold State.activate
  simp only [ha]

/-- The same in `ranged`, whose page 192 is in T2 only, with a DIVERT entry of the step for that page. -/
def diverting (d : BitVec 512) : State :=
  let m := worker [] [d]
  let e : Prefetch := { kind := 0, divert := true, prevStep := false, releaseAfter := false, group := 0, issuePhase := 0, needPhase := 0, alt := 0,
                        count := 1, source := 0, groupMask := 0 }
  (runs { m with prefetch := [e], run := m.run.map fun r => { r with fetches := [{ entry := 0, step := 0, pages := [192] }] } } ranged).modForge 0
    fun x => { x with tchans := vmod x.tchans 7 fun t => { t with active := some { index := 0 } } }

/-- One line of the given bytes in the Hearth. -/
def line (n : Nat) : Nat × Nat × Nat := (n, 1, 1)

theorem witness_TongsDescriptorsComplete :
    (let d := desc 1 0 (line 512) (line 512) (0, 1);
      atDesc 1 (active d) (fun j m _ r => ((dDst d).hearthBlock live.feat.cacheMask m 0 true 0).isNone && !(active d).destBlocked j.fn r (dDst d) && !(active d).destWaits j.fn r (dDst d) &&
        (match (active d).readSide j m r 0 (dSrc d) false ((active d).heatAt j.fn m 0) {} with
          | (t, .ok bs) => (t.writeSide j m r 0 (dDst d) false ((active d).heatAt j.fn m 0) bs).isOk
          | _ => false)) = true) ∧
    (let d := desc 1 0 (512, 1, 3) (line 512) (192 * 65536, 1);
      atDesc 1 (diverting d) (fun j m _ r => ((dDst d).hearthBlock live.feat.cacheMask m 0 true 0).isNone &&
        !(diverting d).destBlocked j.fn r (dDst d) && !(diverting d).destWaits j.fn r (dDst d) &&
        (match (diverting d).readSide j m r 0 (dSrc d) false ((diverting d).heatAt j.fn m 0) {} with
          | (_, .error (.divert 0)) => true
          | _ => false)) = true) ∧
    (let d := desc 2 7 (0, 0, 0) (line 512) (0, 1);
      atDesc 2 (active d) (fun j m _ r => ((dDst d).hearthBlock live.feat.cacheMask m 0 true 0).isNone && !(active d).destBlocked j.fn r (dDst d) && !(active d).destWaits j.fn r (dDst d) &&
        ((active d).writeSide j m r 0 (dDst d) false ((active d).heatAt j.fn m 0) (List.replicate 512 7)).isOk) = true) ∧
    (let d := desc 3 0 (line 512) (line 512) (0, 0);
      atDesc 3 (active d) (fun j m _ r => match (active d).readSide j m r 0 (dSrc d) false ((active d).heatAt j.fn m 0) {} with
        | (t, .ok _) => (match t.readSide j m r 0 (dDst d) false ((active d).heatAt j.fn m 0) {} with
          | (_, .ok _) => true
          | _ => false)
        | _ => false) = true) ∧
    (let d := desc 4 0 (0, 0, 0) (512, 1, 3) (0, 0); atDesc 4 (active d) (fun _ _ _ _ => true) = true) ∧
    (let d := desc 5 0 (line 512) (line 512) (0, 1);
      let s := active d { index := 0 } { live with hearth := (List.range 512).map fun i => (hearthKey 0 0 0 i, 0) };
      atDesc 5 s (fun j m _ r => ((dDst d).hearthBlock live.feat.cacheMask m 0 true 0).isNone && (match s.readSide j m r 0 (dSrc d) false (s.heatAt j.fn m 0) {} with
        | (t, .ok bs) => (match foldE (fun (acc : State × List Byte) (i : Nat) =>
            (acc.1.atomicEntry j.fn (s.heatAt j.fn m 0) (m.doneAt 0) {} (slice bs (32 * i) 32)).map fun (p : State × List Byte) => (p.1, acc.2 ++ p.2))
              (List.range (bs.length / 32)) (t, []) with
          | .ok x => (x.1.writeSide j m r 0 (dDst d) false (s.heatAt j.fn m 0) x.2).isOk
          | .error _ => false)
        | _ => false)) = true) ∧
    (∀ st ∈ [none, some Status.badParam], let s := active (desc 1 0 (line 512) (line 512) (0, 1)) { index := 0, moved := true, failed := st };
      (s.jobForge 0).any (fun x => ((s.forges[(0 : ForgeId)]).tchans[(7 : TongsId)]).active.any fun a =>
        a.moved && a.aperture.isEmpty && a.failed == st && dResult (x.2.2.tongs.getD a.index 0) == 0xFFFFFFFF) = true) := by decide +kernel

/-! ### The far tier -/

/-- A DOT of one INT8 row of 1 KiB at page 33 in T2 frame 0, and a chain that holds such words. -/
def dotWord : BitVec 256 := BitVec.ofNat 256 (leNat ([1, 0, 0, 0] ++ toLe 4 ((t2Die 0 65536) / 1024) ++ toLe 2 1 ++ [1, 0] ++ List.replicate 20 0))

/-- `ranged` with chain 0 of Plinth 0 as `g` has it. -/
def chained (g : Chain → Chain) : State := ranged.modPlinth 0 fun p => { p with chains := vmod p.chains 0 g }

/-- A DOT of that word in its compute phase on chain 0 of Plinth 0, with one result in its block 63. -/
def computing (lost : Bool := false) : State :=
  (chained fun x => { x with compute := some { instr := { word := dotWord, fn := 1 }, lost, values := [(63 * 512, 1)] } }).modPlinth 0 fun p =>
    { p with valid := [(1 * 12 + 0) * 64 + 63] }

/-- What is beyond correction in block 63: two words of it. -/
def badBlock : BlockErr := { block := 63, errs := [(2048, 1), (2049, 1)] }

theorem witness_PlinthCommandsComplete :
    (((chained fun x => { x with queue := [{ word := dotWord, fn := 1 }] }).refill 0 64).unitHead 0 0 1).isSome = true ∧
    (((chained fun x => { x with queue := [{ word := 2, fn := 1 }] }).refill 0 64).unitHead 0 0 2).isSome = true ∧
    ((chained fun x => { x with queue := [{ word := 0, fn := 1 }] }).unitHead 0 0 0).isSome = true ∧
    (let s := chained fun x => { x with access := some { instr := { word := dotWord, fn := 1 } } };
      (((s.plinths[(0 : PlinthId)]).chains[(0 : ChainId)]).access.isSome ∧ ((s.plinths[(0 : PlinthId)]).chains[(0 : ChainId)]).compute = none) ∧
      (s.plinths[(0 : PlinthId)]).refreshHits 0 0 = true ∧ (s.plinths[(0 : PlinthId)]).refreshHits 5 15 = false ∧ s.refreshMeets 0 5 15 = false ∧
      (s.t2.any fun x => x.num == 0) = true ∧ s.accessHits (t2Die 0 65536) 4096 = true) ∧
    ((movedUp.queueMoves 1 none).refreshMeets 0 0 2 = true ∧ ((movedUp.queueMoves 1 none).plinths[(0 : PlinthId)]).refreshHits 0 2 = false) ∧
    (∀ b ∈ [[], [badBlock]], ((computing.plinths[(0 : PlinthId)]).chains[(0 : ChainId)]).compute.any (fun w =>
      !w.lost && !((computing.meetRows 0 w.instr []).rowPagesOf w.instr.word).any (computing.meetRows 0 w.instr []).lostHome &&
        ((computing.meetRows 0 w.instr []).partBlocks 0 0 w b).any (·.ue) == (b != [])) = true) ∧
    (((computing true).plinths[(0 : PlinthId)]).chains[(0 : ChainId)]).compute.any (fun w => w.lost) = true ∧
    (let s := active (desc 1 0 (line 512) (256, 1, 4) (0, 0)) { index := 0, moved := true, aperture := [(0, 0)] } ranged;
      (s.jobForge 0).isSome = true ∧ ((s.forges[(0 : ForgeId)]).tchans[(7 : TongsId)]).active.any (fun a => a.aperture == [(0, 0)]) = true ∧
      (s.plinths[(0 : PlinthId)]).linkUp = true) ∧
    ((ranged.t2.any fun x => x.num == 1) = true ∧ 1 % 8 = (1 : PlinthId).val ∧ ranged.accessHits (t2Die 1 (4096 * 15)) 4096 = false ∧
      ranged.blockValid 1 15 = true ∧ ranged.blockValid 1 511 = false ∧ badBlock.ue = true ∧ ({ block := 15, errs := [(2049, 1)] } : BlockErr).ue = false ∧
      (ranged.t2Range (t2Die 1 (4096 * 15))).isSome = true) ∧
    (ranged.plinthOn 0 = true ∧ (ranged.plinths[(0 : PlinthId)]).linkUp = true ∧ (ranged.plinths[(0 : PlinthId)]).linkFails < 7 ∧
      7 ≤ ((ranged.modPlinth 0 fun p => { p with linkFails := 7 }).plinths[(0 : PlinthId)]).linkFails) := by decide +kernel

/-! ### The host interface -/

/-- `live` with the admin ring as `g` has it. -/
def ringed (g : Ring → Ring) : State := { live with admin := g live.admin }

theorem witness_RingsAndInterruptTimersComplete :
    (let s := ringed fun q => { q with enable := false, active := false };
      s.domOn 96 = true ∧ (s.ring 0 none).enable = false ∧ (s.ring 0 none).active = false ∧ (s.ring 0 none).valid = true) ∧
    (let s := ringed fun q => { q with enable := false, active := false, sq := 0 };
      (s.ring 0 none).enable = false ∧ (s.ring 0 none).active = false ∧ (s.ring 0 none).valid = false) ∧
    ((live.ring 63 (some 63)).enable = false ∧ (live.ring 63 (some 63)).active = false ∧ (live.host[(63 : FnId)]).enabled = false) ∧
    ((ringed fun q => { q with unsignalled := 1 }).ring 0 none).unsignalled ≠ 0 ∧
    ({ live with events := { live.events with recent := true } } : State).events.recent = true := by decide +kernel

theorem witness_DoorbellsComplete :
    (live.domOn 96 = true ∧ (live.ring 0 (some 0)).active = false) ∧
    (let q := live.ring 0 none;
      q.active = true ∧ 63 ≠ q.sqTail ∧ 63 < q.sqSize ∧ (q.sqTail + q.sqSize - q.sqHead) % q.sqSize ≤ (63 + q.sqSize - q.sqHead) % q.sqSize ∧
      q.sqSize ≤ 64 ∧ 64 ≠ q.sqTail ∧ 0 = q.sqTail) ∧
    (let q := (ringed fun q => { q with rqHeld := 1 }).ring 0 none;
      q.active = true ∧ 1 < q.rqSize ∧ (1 + q.rqSize - q.rqHead) % q.rqSize ≤ q.rqHeld) := by decide +kernel

/-- `live` with one entry announced on the admin ring, and on ring 0 of function 1. -/
def announced : State :=
  { ringed (fun q => { q with sqTail := 1 }) with
    host := vmod live.host 1 fun h => { h with rings := vmod h.rings 0 fun q => { q with sqTail := 1 } } }

theorem announced_fetch : MayFetch 0 none announced ∧ MayFetch 1 (some 0) announced := by
  constructor <;> constructor <;> decide +kernel

/-- A packet: opcode, FLAGS, QUEUE, SEQ, no payload. -/
def packet (op flags queue seq : Nat) : BitVec 512 :=
  BitVec.ofNat 512 (op + flags * 2 ^ 16 + queue * 2 ^ 24 + seq * 2 ^ 32 + 0xFFFF * 2 ^ 80)

theorem witness_CommandFetchCompletes :
    (Op.ofCode ((packet 3 0 0xFF 1).extractLsb' 0 16).toNat = none ∧ announced.faulted = false ∧ announced.hall.fwRunning = true) ∧
    (let k := parseCmd 0 none (packet 7 0 0 1) 0 [];
      Op.ofCode ((packet 7 0 0 1).extractLsb' 0 16).toNat = some .enableFunction ∧ k.isSealed = false ∧
      acceptStatus (announced.fetched 0 none) .enableFunction k = some .badParam) ∧
    (let k := parseCmd 0 none (packet 1 0 0xFF 1) 0 [];
      Op.ofCode ((packet 1 0 0xFF 1).extractLsb' 0 16).toNat = some .nop ∧ k.isSealed = false ∧
      acceptStatus (announced.fetched 0 none) .nop k = none) ∧
    (let k := parseCmd 1 (some 0) (packet 0x206 1 0 1) 0 [];
      Op.ofCode ((packet 0x206 1 0 1).extractLsb' 0 16).toNat = some .readOut ∧ k.isSealed = true) := by decide +kernel

theorem witness_AcceptanceInTableOrder :
    live.faulted = false ∧ live.hall.fwRunning = true ∧ packetOk live { ten 0 with queue := 1 } = false ∧
    (packetOk live (op 0) = true ∧ callerOk live .readOut (op 0) = false) ∧
    (let s : State := { live with host := vmod live.host 1 fun h => { h with quiescing := true } };
      packetOk s (ten 0) = true ∧ callerOk s .readOut (ten 0) = true ∧ (ten 0).ring.isSome = true ∧ (s.host[(ten 0).fn]).quiescing = true) ∧
    (packetOk live (ten 0) = true ∧ callerOk live .readOut (ten 0) = true ∧ (live.host[(ten 0).fn]).quiescing = false ∧ asTenant .readOut (ten 0) = true ∧
      sessionOk live .readOut { ten 0 with session := 2 } = false ∧ sessionOk live .readOut { ten 0 with tagOk := false } = true) ∧
    (packetOk live (own 0) = true ∧ callerOk live .identify (own 0) = true ∧ asTenant .identify (own 0) = false) := by decide +kernel

theorem witness_SequenceStrictlyRises :
    (asTenant .readOut (ten 0) = true ∧ (live.session? 1 1).any (·.isOpen) = true ∧ acceptStatus live .readOut (ten 0) = none) ∧
    (packetOk live (ten 0) = true ∧ callerOk live .readOut (ten 0) = true ∧ (live.host[(ten 0).fn]).quiescing = false ∧
      sessionOk live .readOut (ten 0) = true ∧ (ten 0).tagOk = true) ∧
    (live.fetches 1 (some 0) = true ∧ live.flights = [] ∧ acceptStatus live .readOut { ten 0 with seq := 0 } = some .sequence ∧
      acceptStatus live .readOut { ten 0 with seq := 0xFFFFFFFF } = some .sequence ∧
      acceptStatus live .closeSession { ten 0 with seq := 0xFFFFFFFF } = none) ∧
    ((ten 0).isSealed = true ∧ (live.session? (ten 0).fn (ten 0).session).isSome = true) ∧
    asTenant .sealPages (ten 1) = true ∧ (ten 1).fn = (ten 0).fn ∧ (ten 1).session = (ten 0).session ∧ (ten 1).seq.toNat ≤ (ten 0).seq.toNat := by
  decide +kernel

theorem witness_ReplyWrittenInOrder :
    ∀ held ∈ [0, 4095, 4096],
      let s := ringed fun q => { q with rqHeld := held, rqTail := 4095, done := [{ op := .identify, seq := 1, status := .ok, payload := [1] }] };
      (s.ring 0 none).done.length = 1 ∧ s.domOn 96 = true ∧ s.pcie.up = true ∧ (s.ring 0 none).active = true ∧ s.deferred = [] ∧
      (s.ring 0 none).rqSize = 4096 ∧ (s.ring 0 none).rqTail + 1 = (s.ring 0 none).rqSize := by decide +kernel

/-! ### The whole machine -/

theorem witness_QueueAndDrawsOnlyAdvance : (∃ t, exec .idcode live = .next t) ∧ ∃ t, step { live with pending := [.idcode] } = .next t :=
  ⟨⟨_, rfl⟩, ⟨_, rfl⟩⟩

theorem witness_StepsKeepMemoriesAndFramesSound :
    ({ ranged with ram := [(0, 1), (256, 2)], pending := [.idcode] } : State).Sound ∧
    ∃ t, step { ranged with ram := [(0, 1), (256, 2)], pending := [.idcode] } = .next t :=
  ⟨⟨by decide +kernel, by decide +kernel, by decide +kernel, by decide +kernel⟩, ⟨_, rfl⟩⟩

/-! ### Ill-formed terms -/

theorem test_illformed_host :
    Instr.wf (.readOut { ten 0 with len := 1 }) = false ∧ Instr.wf (.linkBringup (op 0) [(0, .absent), (0, .absent)]) = false ∧
    Instr.wf (.linkBringup (op 0) [(0, .ok 0 0 0 4 0 0 0)]) = false ∧
    Instr.wf (.channelMapout (op 0) [(0, 0), (0, 0)]) = false ∧
    Instr.wf (.laneDiag (op 0) (List.replicate 17 0)) = false ∧ Instr.wf (.commandFetch 0 none (packet 1 0 0xFF 1) 0 [0] false false) = false := by
  decide +kernel

theorem test_illformed_stream :
    Instr.wf (.phase 0 (ins [2])) = false ∧ Instr.wf (.anvilMm 0 (ins [0x11])) = false ∧ Instr.wf (.chiselOp 0 (ins [0x20]) [ins [0x20]]) = false ∧
    Instr.wf (.chiselOp 0 (ins [0x20]) (List.replicate 9 (ins [0x21]))) = false ∧ Instr.wf (.copy 0 0 { beats := [(3, 1), (3, 2)] }) = false ∧
    Instr.wf (.crucAttn 0 (ins [0x31]) { blocks := [{ block := 3 }, { block := 3 }] }) = false ∧ Instr.wf (.pressScan 0 (ins [0x61])) = false := by decide +kernel

theorem test_illformed_events :
    Instr.wf (.perstDeassert { width := 3 }) = false ∧ Instr.wf (.perstDeassert { rate := 8 }) = false ∧ Instr.wf (.hotReset { vfs := 64 }) = false ∧
    Instr.wf (.perstDeassert { deadChans := [1, 1] }) = false ∧ Instr.wf (.dieThermalReading [(0, 0), (0, 0)]) = false ∧
    Instr.wf (.nearScrub 0 .other 0 [(1, 1), (1, 2)]) = false ∧ Instr.wf (.rowRefresh 0 16 0) = false ∧
    Instr.wf (.plinthScrub 0 1 0 {}) = false ∧ Instr.wf (.plinthScrub 0 0 512 {}) = false ∧
    Instr.wf (.plinthScrub 0 0 0 { errs := [(2050, 1)] }) = false ∧ Instr.wf (.plinthScrub 0 0 0 { errs := [(5, 0)] }) = false ∧
    Instr.wf (.plinthScrub 0 0 0 { errs := [(5, 1), (5, 2)] }) = false ∧ Instr.wf (.resultRelease 0 0 [] [] [(64, {})]) = false ∧
    Instr.wf (.resultRelease 0 0 [(7, {}), (7, {})] [] []) = false ∧ Instr.wf (.localCommit 0 0 { beats := [(3, 1), (3, 2)] }) = false ∧
    Instr.wf (.frame 0 0 0 false true [(0, 0, 1), (0, 0, 2)] []) = false ∧ Instr.wf (.bypass 2) = false ∧ Instr.wf (.registerWrite 2 0) = false ∧
    Instr.wf (.lowWordRead 4) = false ∧ Instr.wf (.highWordRead 8) = false := by decide +kernel

theorem test_illformed_records :
    Instr.wf (.data 0 { flags := 8 }) = false ∧ Instr.wf (.credit 0 (msg 0 [0])) = false ∧ Instr.wf (.digest 0 (msg 0 [0])) = false ∧
    Instr.wf (.ack 0 (msg 0 [0])) = false ∧ Instr.wf (.data 0 (msg 6 [0])) = true := by decide +kernel

/-! ### Values that the spec states -/

/-- SHA-256 of "abc" (FIPS 180-4). -/
theorem test_sha256 : sha256 (ascii "abc") = 0xba7816bf8f01cfea414140de5dae2223b00361a396177a9cb410ff61f20015ad := by decide +kernel

/-- The 8-byte vector of SipHash-2-4 under the key 00 to 0f. -/
theorem test_sipHash : sipHash 0x0f0e0d0c0b0a09080706050403020100 0x0706050403020100 = 0x93f5f5799a932462 := by decide +kernel

/-- The AES-256 vector of FIPS 197. -/
theorem test_aes256 : aesBlock (roundKeys ((List.range 32).map (BitVec.ofNat 8))) ((List.range 16).map fun i => BitVec.ofNat 8 (17 * i)) =
    [0x8e, 0xa2, 0xb7, 0xca, 0x51, 0x67, 0x45, 0xbf, 0xea, 0xfc, 0x49, 0x90, 0x4b, 0x49, 0x60, 0x89] := by decide +kernel

/-- (x - 1)(x - 2)(x - 4)(x - 8) over GF(256) (R238), multiplied out by hand, and a one-word error of a T2 block (R259). -/
theorem test_symbol_codes : gf8.gen 4 = [15, 54, 120, 64] ∧ blockClass [(2049, 5)] = .fixed 2049 5 := by decide +kernel

/-- ADD wraps, MIN and MAX follow the sign, XOR, CAS (Table HRTH-3). -/
theorem test_atomics :
    atomicOp 1 false false 0xFFFFFFFF 2 0 = (1, false) ∧ atomicOp 2 false true 0x80000000 1 0 = (0x80000000, false) ∧
    atomicOp 2 false false 0x80000000 1 0 = (1, false) ∧ atomicOp 3 true true (2 ^ 63) 1 0 = (1, false) ∧ atomicOp 4 false false 6 3 0 = (5, false) ∧
    atomicOp 5 false false 7 9 7 = (9, true) ∧ atomicOp 5 false false 7 9 8 = (7, false) := by decide +kernel

theorem witness_AtomicOperations :
    (0xFFFFFFFF : Nat) < 2 ^ 32 ∧ (0 : Nat) < 2 ^ 32 ∧ (2 ^ 64 - 1 : Nat) < 2 ^ 64 ∧ (7 : Nat) = 7 ∧ (7 : Nat) ≠ 8 := by decide +kernel

/-- The test access port answers IDCODE with 0x1D44154B (R434). -/
theorem test_idcode : execIdcode live = .next { live with tap := { live.tap with ir := 1, dr := 0x1D44154B } } := rfl

/-- A command's table spells no bits: no word names a command. -/
theorem test_no_table_word : decodeTableWord 8 0 = none ∧ live.withFetchWord 8 0 = live := ⟨rfl, rfl⟩

end Sys2Proof.Tests
end

section
/-! Run commands of moulds that are not installed (R14). -/

namespace Sys2Proof.Machine

/-- RUN_STEP and RUN_STEPS are host commands whose effect is `runCommand` (R338). -/
theorem exec_runCommand {op : Op} {k : Cmd} {c : Instr} (s : State)
    (hc : op = .runStep ∧ c = .runStep k ∨ op = .runSteps ∧ c = .runSteps k) :
    exec c s = hostCmd op k (runCommand op k) s := by
  obtain ⟨rfl, rfl⟩ | ⟨rfl, rfl⟩ := hc <;> rfl

/-- Past the gates of a host command, a run command that does not wait in a queue already ends with NOT_PERMITTED where its
mould is not installed or a LOAD_MOULD of it is still in flight (R14). -/
theorem runCommand_of_not_installed {op : Op} {k : Cmd} {s : State}
    (hs : (k.ring.isSome && (s.fns[k.fn]).fault) = false) (hg : heatGate s op k = none) (hp : k.payloadErr = false)
    (hq : ((s.fns[k.fn]).moulds.any fun m => m.queue.any fun c => c.cmd == k) = false)
    (hm : (s.fns[k.fn]).mould? (runMould k) = none ∨ s.loading op k = true)
    (ho : runParamsOk op k = true) (hn : runSteps op k * u k.p 0x18 4 ≤ k.outCap.toNat) :
    runCommand op k s = s.finish op k .notPermitted := by
  unfold runCommand
  rw [if_neg (by rw [hq]; exact Bool.false_ne_true), checked_of_ok _ ho hn hp hs hg]
  dsimp only
  split
  · rfl
  · next m hi => exact if_pos (hm.resolve_left (by rw [hi]; exact Option.some_ne_none m))

/-- Settles O38: a run command that may run reaches `runCommand`, and since the entry of a command changes no function, its
mould is not installed there either. -/
theorem runCommandNeedsInstalledMould : Obligations.RunCommandNeedsInstalledMould := by
  intro op k c s hc hr ho hn hq hm
  rw [← s.entered_fns op k] at hq hm
  rw [exec_runCommand s hc, hostCmd_of_ready _ hr,
    runCommand_of_not_installed hr.sound hr.gate hr.payload hq hm ho hn]

end Sys2Proof.Machine
end

section
/-! The sealed commands of a session are accepted in rising order of SEQUENCE (R327, R329). -/

namespace Sys2Proof.Machine

/-! ### Sessions -/

/-- An update that leaves the test as it is: what the search finds afterwards is the element it found before, updated. -/
theorem find?_updateFirst {α : Type} {p : α → Bool} {g : α → α} (hg : ∀ x, p (g x) = p x) (l : List α) :
    (updateFirst p g l).find? p = (l.find? p).map g := by
  induction l with
  | nil => rfl
  | cons x xs ih =>
    by_cases h : p x = true
    · simp [updateFirst, h, hg]
    · simp [updateFirst, h, ih]

theorem State.modSession_session? (s : State) (fn : FnId) (id : BitVec 16) {g : Session → Session} (hg : ∀ x, (g x).id = x.id) :
    (s.modSession fn id g).session? fn id = (s.session? fn id).map g := by
  have hp : ∀ x, ((g x).id == id) = (x.id == id) := fun x => by rw [hg]
  unfold State.session? State.modSession
  rw [modHall_hall, vmod_same, find?_updateFirst hp]

/-- A sealed command that is taken in is its session's last accepted (R327); the values before stay noted, for the command that
check 10 may still refuse (log 9). -/
theorem State.takeIn_session? {s : State} {op : Op} {k : Cmd} (hk : k.isSealed = true) :
    (s.takeIn op k).session? k.fn k.session =
      (s.session? k.fn k.session).map fun x => { x with lastSeq := k.seq.toNat, before := (x.lastSeq :: x.before).take 33 } := by
  unfold State.takeIn
  rw [if_pos hk, State.modSession_session?]
  · rfl
  · exact fun _ => rfl

/-! ### Acceptance -/

/-- A sealed command whose session is open comes from the ring to which OPEN_SESSION bound it (R327). -/
theorem ring_of_sessionOk {s : State} {op : Op} {k : Cmd} {x : Session} (hx : s.session? k.fn k.session = some x)
    (h : sessionOk s op k = true) (ho : x.isOpen = true) : x.ring = k.ring := by
  simpa [sessionOk, hx, ho] using (Bool.and_eq_true_iff.mp h).2

theorem isSealed_of_sessionOk {s : State} {op : Op} {k : Cmd} (h : sessionOk s op k = true) : k.isSealed = true :=
  (Bool.and_eq_true_iff.mp h).1

/-- A check that answers a status where it fails lets a command pass only where it does not fail and the checks after it do
not either. -/
theorem check_passes_iff {c : Prop} [Decidable c] {st : Status} {rest : Option Status} :
    (if c then some st else rest) = none ↔ ¬c ∧ rest = none := by
  by_cases h : c <;> simp [h]

/-- Check 9 refuses exactly where SEQUENCE is not above the session's last accepted, or is 0xFFFFFFFF on another command than
CLOSE_SESSION (R327). -/
theorem sequence_refused_iff {op : Op} {k : Cmd} {x : Session} :
    (decide (k.seq.toNat ≤ x.lastSeq) || (k.seq == 0xFFFFFFFF && op != .closeSession)) = true ↔
      ¬(x.lastSeq < k.seq.toNat ∧ (k.seq ≠ 0xFFFFFFFF ∨ op = .closeSession)) := by
  simp only [Bool.or_eq_true, Bool.and_eq_true, decide_eq_true_eq, beq_iff_eq, bne_iff_ne, not_and_or, not_or, not_not, Nat.not_lt]

/-- A tenant's command that passes checks 1 to 9 passes checks 6 and 9 in particular: its session takes it, and its SEQUENCE is
above the session's last accepted (R327, R329). -/
theorem session_of_accepted {s : State} {op : Op} {k : Cmd} {x : Session} (ht : asTenant op k = true)
    (hx : s.session? k.fn k.session = some x) (h : acceptStatus s op k = none) :
    sessionOk s op k = true ∧ x.lastSeq < k.seq.toNat ∧ (k.seq = 0xFFFFFFFF → op = .closeSession) := by
  unfold acceptStatus at h
  simp only [ht, hx, if_true, check_passes_iff, sequence_refused_iff, not_not] at h
  obtain ⟨-, -, -, -, -, hs, -, ⟨hlt, hlast⟩, -⟩ := h
  exact ⟨by simpa using hs, hlt, fun hm => hlast.resolve_left (not_not_intro hm)⟩

/-- Once the checks before it pass, check 9 decides (R327, R329). -/
theorem acceptStatus_of_tagOk {s : State} {op : Op} {k : Cmd} {x : Session} (hf : s.faulted = false) (hw : s.hall.fwRunning = true)
    (hp : packetOk s k = true) (hc : callerOk s op k = true) (hq : k.ring = none ∨ (s.host[k.fn]).quiescing = false)
    (ht : asTenant op k = true) (hs : sessionOk s op k = true) (hg : k.tagOk = true) (hx : s.session? k.fn k.session = some x) :
    acceptStatus s op k =
      if x.lastSeq < k.seq.toNat ∧ (k.seq ≠ 0xFFFFFFFF ∨ op = .closeSession) then none else some .sequence := by
  have hq' : (k.ring.isSome && (s.host[k.fn]).quiescing) = false := by
    obtain h | h := hq <;> rw [h]
    · rfl
    · exact Bool.and_false _
  unfold acceptStatus
  simp only [hf, hw, hp, hc, hq', ht, hs, hg, hx, Bool.not_true, Bool.and_false, Bool.false_and, Bool.false_eq_true, if_false, if_true,
    sequence_refused_iff, ite_not]

/-- What a session has accepted it does not accept again, nor anything below it (R327). -/
theorem not_accepted_again {s : State} {op op' : Op} {k k' : Cmd} {x : Session} (ht : asTenant op k = true)
    (ht' : asTenant op' k' = true) (hx : s.session? k.fn k.session = some x) (hfn : k'.fn = k.fn) (hid : k'.session = k.session)
    (ha : acceptStatus s op k = none) (hle : k'.seq.toNat ≤ k.seq.toNat) : acceptStatus (s.takeIn op k) op' k' ≠ none := by
  intro ha'
  obtain ⟨hs, -, -⟩ := session_of_accepted ht hx ha
  have hx' := s.takeIn_session? (op := op) (isSealed_of_sessionOk hs)
  rw [hx, ← hfn, ← hid] at hx'
  obtain ⟨-, hlt, -⟩ := session_of_accepted ht' hx' ha'
  exact absurd hlt (Nat.not_lt.mpr hle)

/-- A command that check 9 refuses is passed over in its ring and answered with SEQUENCE, and nothing else changes (R327, R329). -/
theorem hostCmd_of_sequence {s : State} {op : Op} {k : Cmd} (body : State → State) (hd : s.fetches k.fn k.ring = true)
    (hn : s.flights.any (·.isOf op k) = false) (ha : acceptStatus s op k = some .sequence) :
    hostCmd op k body s = .next ((s.modRing k.fn k.ring Ring.passEntry).refuse op k .sequence) := by
  simp [hostCmd, hn, hd, ha, State.refuseAccept]

/-- Settles O55: checks 6 and 9 give the binding to the ring and the rise, and what is accepted is the session's last, which
check 9 then asks a repeated command to exceed. -/
theorem sequenceStrictlyRises : Obligations.SequenceStrictlyRises := by
  refine ⟨fun op k x s ht hx ha => ?_, fun op k x s hf hw hp hc hq ht hs hg hx => ?_, fun op k body s hd hn ha => ?_,
    fun op k x s hk hx => ?_, fun op op' k k' x s ht ht' hx hfn hid ha hle => ?_⟩
  · obtain ⟨hs, hseq⟩ := session_of_accepted ht hx ha
    exact ⟨ring_of_sessionOk hx hs, hseq⟩
  · exact acceptStatus_of_tagOk hf hw hp hc hq ht hs hg hx
  · exact hostCmd_of_sequence body hd hn ha
  · rw [State.takeIn_session? hk, hx]
    rfl
  · exact not_accepted_again ht ht' hx hfn hid ha hle

end Sys2Proof.Machine
end

section
/-! A reply is queued behind those before it and written in order: its payload, its entry, its vector (R323, R324, R343). -/

namespace Sys2Proof.Machine

/-! ### What the parts of a reply's write leave of a ring and of what was sent -/

theorem State.ring_congr {s t : State} (hh : t.host = s.host) (ha : t.admin = s.admin) (fn : FnId) (r : Option RingId) :
    t.ring fn r = s.ring fn r := by
  cases r with
  | none => exact ha
  | some r => simp only [State.ring, hh]

theorem State.modHost_ring (s : State) (f : FnId) {g : FnHost → FnHost} (hg : ∀ h, (g h).rings = h.rings) (fn : FnId)
    (r : Option RingId) : (s.modHost f g).ring fn r = s.ring fn r := by
  have hr : ((vmod s.host f g)[fn]).rings = (s.host[fn]).rings := by
    by_cases h : f = fn
    · subst h; rw [vmod_same, hg]
    · rw [vmod_other _ _ h]
  cases r with
  | none => rfl
  | some r => exact congrArg (·[r]) hr

@[simp] theorem State.send_ring (s : State) (e : HostEvent) (fn : FnId) (r : Option RingId) : (s.send e).ring fn r = s.ring fn r :=
  State.ring_congr rfl rfl fn r
@[simp] theorem State.eraseSession_ring (s : State) (f : FnId) (id : BitVec 16) (fn : FnId) (r : Option RingId) :
    (s.eraseSession f id).ring fn r = s.ring fn r := State.ring_congr rfl rfl fn r
@[simp] theorem State.eraseSession_out (s : State) (f : FnId) (id : BitVec 16) : (s.eraseSession f id).out = s.out := rfl
@[simp] theorem State.eraseSession_deferred (s : State) (f : FnId) (id : BitVec 16) : (s.eraseSession f id).deferred = s.deferred := rfl
@[simp] theorem State.unread_ring (s : State) (op : Op) (k : Cmd) (fn : FnId) (r : Option RingId) :
    (s.unread op k).ring fn r = s.ring fn r := by
  unfold State.unread
  split
  · exact State.ring_congr rfl rfl fn r
  · rfl

@[simp] theorem State.modRing_out (s : State) (fn : FnId) (r : Option RingId) (g : Ring → Ring) : (s.modRing fn r g).out = s.out := by
  cases r <;> rfl
@[simp] theorem State.modRing_deferred (s : State) (fn : FnId) (r : Option RingId) (g : Ring → Ring) :
    (s.modRing fn r g).deferred = s.deferred := by
  cases r <;> rfl

/-! ### The vector -/

/-- A vector that is raised sends nothing, or its message (R325). -/
theorem State.raise_out (s : State) (fn : FnId) (v : Nat) :
    (s.raise fn v).out = s.out ∨ (s.raise fn v).out = s.out ++ [.msix fn v] := by
  unfold State.raise
  split
  · split
    · exact .inl rfl
    · split
      · exact .inl rfl
      · exact .inr rfl
  · exact .inl rfl

@[simp] theorem State.raise_deferred (s : State) (fn : FnId) (v : Nat) : (s.raise fn v).deferred = s.deferred := by
  unfold State.raise
  repeat' split
  all_goals rfl

/-- A pending bit is the only thing that a raised vector sets in a function's host side: the rings stay (R325). -/
@[simp] theorem State.raise_ring (s : State) (f : FnId) (v : Nat) (fn : FnId) (r : Option RingId) :
    (s.raise f v).ring fn r = s.ring fn r := by
  unfold State.raise
  split
  · split
    · rfl
    · split
      · refine State.modHost_ring s f ?_ fn r
        exact fun _ => rfl
      · exact State.send_ring ..
  · rfl

/-- Counting a reply towards its vector sends nothing or one message, and of the ring changes its count alone (R325). -/
theorem State.signal_out (s : State) (fn : FnId) (r : Option RingId) :
    (s.signal fn r).out = s.out ∨ ∃ v, (s.signal fn r).out = s.out ++ [.msix fn v] := by
  unfold State.signal
  dsimp only
  split
  · obtain h | h := State.raise_out (s.modRing fn r fun q => { q with unsignalled := 0 }) fn _
    · exact .inl (h.trans (modRing_out ..))
    · exact .inr ⟨_, h.trans (by rw [modRing_out])⟩
  · exact .inl (modRing_out ..)

theorem State.signal_ring (s : State) (fn : FnId) (r : Option RingId) :
    ∃ n, (s.signal fn r).ring fn r = { s.ring fn r with unsignalled := n } := by
  unfold State.signal
  dsimp only
  split
  · exact ⟨0, by rw [raise_ring, modRing_ring]⟩
  · exact ⟨_, by rw [modRing_ring]⟩

@[simp] theorem State.signal_deferred (s : State) (fn : FnId) (r : Option RingId) : (s.signal fn r).deferred = s.deferred := by
  unfold State.signal
  dsimp only
  split
  · rw [raise_deferred, modRing_deferred]
  · exact modRing_deferred ..

/-! ### A ring that may have written its last reply (R318) -/

@[simp] theorem State.ringIdle_out (s : State) (fn : FnId) (r : Option RingId) : (s.ringIdle fn r).out = s.out := by
  unfold State.ringIdle
  dsimp only
  split
  · exact modRing_out ..
  · rfl

@[simp] theorem State.ringIdle_deferred (s : State) (fn : FnId) (r : Option RingId) : (s.ringIdle fn r).deferred = s.deferred := by
  unfold State.ringIdle
  dsimp only
  split
  · exact modRing_deferred ..
  · rfl

theorem State.ringIdle_ring (s : State) (fn : FnId) (r : Option RingId) :
    ∃ a n, (s.ringIdle fn r).ring fn r = { s.ring fn r with active := a, unsignalled := n } := by
  unfold State.ringIdle
  dsimp only
  split
  · exact ⟨false, 0, modRing_ring ..⟩
  · exact ⟨_, _, rfl⟩

/-- The count of a reply towards its vector sends at most the one message (R325, R343). -/
theorem State.signal_ringIdle_out (s : State) (fn : FnId) (r : Option RingId) :
    ∃ tail, ((s.signal fn r).ringIdle fn r).out = s.out ++ tail ∧ (∀ e ∈ tail, ∃ v, e = .msix fn v) ∧ tail.length ≤ 1 := by
  rw [ringIdle_out]
  obtain h | ⟨v, h⟩ := s.signal_out fn r
  · exact ⟨[], by rw [h, List.append_nil], List.forall_mem_nil _, Nat.zero_le 1⟩
  · exact ⟨[.msix fn v], h, List.forall_mem_singleton.mpr ⟨v, rfl⟩, Nat.le_refl 1⟩

theorem State.signal_ringIdle_ring (s : State) (fn : FnId) (r : Option RingId) :
    ∃ a n, ((s.signal fn r).ringIdle fn r).ring fn r = { s.ring fn r with active := a, unsignalled := n } := by
  obtain ⟨a, n, h⟩ := (s.signal fn r).ringIdle_ring fn r
  obtain ⟨m, hm⟩ := s.signal_ring fn r
  exact ⟨a, n, by rw [h, hm]⟩

/-! ### The write -/

/-- The ring after a reply is written: its place is taken and the next is the one behind it, where the phase turns at the wrap
(R323, R324). -/
def Ring.replied (wrap : Bool) (rest : List Reply) (q : Ring) : Ring :=
  { q with done := rest, rqTail := if wrap then 0 else q.rqTail + 1, phase := q.phase != wrap, rqHeld := q.rqHeld + 1 }

/-- The state in which a reply's payload and entry are written and its vector is not yet raised: `replyWrite_of_room` ties it to
`replyWrite`. -/
def State.replied (s : State) (fn : FnId) (r : Option RingId) (x : Reply) (rest : List Reply) : State :=
  let q := s.ring fn r
  let b := replyBytes s fn x q.phase q.sqHead
  let s := if b.2.isEmpty then s else s.send (.write x.outAddr.toNat b.2)
  let s := (s.send (.write (q.rq.toNat + 32 * q.rqTail) b.1)).modRing fn r (Ring.replied (q.rqTail + 1 == q.rqSize) rest)
  if x.op == .closeSession && x.status == .ok then s.eraseSession fn x.session else s

theorem State.replied_out {s : State} {fn : FnId} {r : Option RingId} {x : Reply} {b : List Byte × List Byte}
    (hb : replyBytes s fn x (s.ring fn r).phase (s.ring fn r).sqHead = b) (rest : List Reply) :
    (s.replied fn r x rest).out = s.out ++ (if b.2.isEmpty then [] else [.write x.outAddr.toNat b.2]) ++
      [.write ((s.ring fn r).rq.toNat + 32 * (s.ring fn r).rqTail) b.1] := by
  subst hb
  unfold State.replied
  dsimp only
  rw [apply_ite State.out, eraseSession_out, ite_self, modRing_out, send_out]
  split
  · rw [List.append_nil]
  · rw [send_out]

theorem State.replied_ring (s : State) (fn : FnId) (r : Option RingId) (x : Reply) (rest : List Reply) :
    (s.replied fn r x rest).ring fn r =
      (s.ring fn r).replied ((s.ring fn r).rqTail + 1 == (s.ring fn r).rqSize) rest := by
  unfold State.replied
  dsimp only
  rw [apply_ite (State.ring · fn r), eraseSession_ring, ite_self, modRing_ring, send_ring]
  split
  · rfl
  · rw [send_ring]

@[simp] theorem State.replied_deferred (s : State) (fn : FnId) (r : Option RingId) (x : Reply) (rest : List Reply) :
    (s.replied fn r x rest).deferred = s.deferred := by
  unfold State.replied
  dsimp only
  rw [apply_ite State.deferred, eraseSession_deferred, ite_self, modRing_deferred, send_deferred]
  split <;> rfl

section
variable {fn : FnId} {r : Option RingId} {x : Reply} {rest : List Reply} {s : State}

theorem exec_replyWrite (pe re : Bool) : exec (.replyWrite fn r pe re) s = .next (replyWrite fn r pe re s).settle := rfl

/-- A reply that meets a full ring waits (R324). -/
theorem replyWrite_of_full (h : (s.ring fn r).rqSize ≤ (s.ring fn r).rqHeld) (pe re : Bool) : replyWrite fn r pe re s = s := by
  unfold replyWrite
  dsimp only
  split
  · rfl
  · exact if_pos (by simp [h])

/-- A reply that finds a place is written, then counted towards its vector, and the ring may be its last (R318, R325, R343). -/
theorem replyWrite_of_room (hd : (s.ring fn r).done = x :: rest) (hh : s.domOn 96 = true) (hu : s.pcie.up = true)
    (ha : (s.ring fn r).active = true) (hr : (s.ring fn r).rqHeld < (s.ring fn r).rqSize) :
    replyWrite fn r false false s = ((s.replied fn r x rest).signal fn r).ringIdle fn r := by
  have hc : (!s.domOn 96 || !s.pcie.up || !(s.ring fn r).active || decide ((s.ring fn r).rqSize ≤ (s.ring fn r).rqHeld)) = false := by
    simp [hh, hu, ha, hr]
  unfold replyWrite
  simp only [hd, hc, Bool.false_and, Bool.false_eq_true, if_false]
  rfl

end

/-- A finished command's reply goes behind those that wait, its payload only with OK or PENDING or from a run command (R343). -/
theorem State.answer_done (s : State) (op : Op) (k : Cmd) (st : Status) (d : Nat) (pl : List Byte) :
    ((s.answer op k st d pl).ring k.fn k.ring).done = (s.ring k.fn k.ring).done ++
      [{ op, seq := k.seq, status := st, sealed_ := k.isSealed, detail := d, queue := k.queue, session := k.session,
         payload := if st = .ok ∨ st = .pending ∨ op = .runSteps ∨ op = .runStep then pl else [], outAddr := k.outAddr
         background := s.flights.any fun f => f.isOf op k && f.background }] := by
  have hp : ((st == .ok || st == .pending || op == .runSteps || op == .runStep) = true) ↔
      (st = .ok ∨ st = .pending ∨ op = .runSteps ∨ op = .runStep) := by
    simp only [Bool.or_eq_true, beq_iff_eq, or_assoc]
  unfold State.answer State.pushReply
  simp only [modRing_ring, unread_ring, hp]
  rfl

/-- Settles O56: the write is the state with payload and entry sent, then the count towards the vector, which sends at most
one message and leaves the ring's places as they are. -/
theorem replyWrittenInOrder : Obligations.ReplyWrittenInOrder := by
  refine ⟨fun op k st d pl s => s.answer_done op k st d pl,
    fun fn r x rest s hdone hdom hup hact => ⟨fun hfull hdef => ?_, fun hroom hdef => ?_⟩⟩
  · rw [exec_replyWrite, replyWrite_of_full hfull false false, State.settle_of_nil hdef]
  · obtain ⟨tail, hout, hmsix, hlen⟩ := (s.replied fn r x rest).signal_ringIdle_out fn r
    obtain ⟨a, n, hring⟩ := (s.replied fn r x rest).signal_ringIdle_ring fn r
    rw [State.replied_out rfl] at hout
    rw [State.replied_ring] at hring
    refine ⟨_, tail, ?_, hout, hmsix, hlen, ?_⟩
    · rw [exec_replyWrite, replyWrite_of_room hdone hdom hup hact hroom, State.settle_of_nil (by simpa using hdef)]
    · rw [hring]
      exact ⟨rfl, rfl, if_congr beq_iff_eq rfl rfl, rfl⟩

end Sys2Proof.Machine
end

section
/-! What every step of the machine keeps, and that every step ends in a next state. -/

namespace Sys2Proof.Machine

/-- Every command answers a next state and keeps the forms of the memories and of the frame lists, the queue and the order of
the draws: each row of the table by its own law. -/
theorem exec_keeps {s₀ s : State} (c : Instr) (h : Keeps s₀ s) : RKeeps s₀ (exec c s) := by
  cases c with
  | nop _ => exact execNop_keeps h
  | identify _ => exact execIdentify_keeps h
  | setFeature _ => exact execSetFeature_keeps h
  | hearthCacheSegments _ => exact execHearthCacheSegments_keeps h
  | plinthScanGroups _ => exact execPlinthScanGroups_keeps h
  | regWrite _ => exact execRegWrite_keeps h
  | getFeature _ => exact execGetFeature_keeps h
  | regRead _ => exact execRegRead_keeps h
  | quiesceHold _ => exact execQuiesceHold_keeps h
  | quiesceRelease _ => exact execQuiesceRelease_keeps h
  | enableFunction _ => exact execEnableFunction_keeps h
  | heldEnableProceed _ => exact execHeldEnableProceed_keeps h
  | disableFunction _ => exact execDisableFunction_keeps h
  | openSession _ => exact execOpenSession_keeps h
  | closeSession _ => exact execCloseSession_keeps h
  | setPartition _ => exact execSetPartition_keeps h
  | rangeMap _ => exact execRangeMap_keeps h
  | rangeUnmap _ => exact execRangeUnmap_keeps h
  | loadBillets _ => exact execLoadBillets_keeps h
  | sealPages _ => exact execSealPages_keeps h
  | readOut _ => exact execReadOut_keeps h
  | migratePrefetch _ => exact execMigratePrefetch_keeps h
  | park _ => exact execPark_keeps h
  | promote _ => exact execPromote_keeps h
  | migrateCopy _ => exact execMigrateCopy_keeps h
  | loadMould _ => exact execLoadMould_keeps h
  | runStep _ => exact execRunStep_keeps h
  | runSteps _ => exact execRunSteps_keeps h
  | haltRun _ => exact execHaltRun_keeps h
  | queryRun _ => exact execQueryRun_keeps h
  | heatBegin _ => exact execHeatBegin_keeps h
  | heatEndCommit _ => exact execHeatEndCommit_keeps h
  | heatEndScrap _ => exact execHeatEndScrap_keeps h
  | kvAllocSeq _ => exact execKvAllocSeq_keeps h
  | kvFork _ => exact execKvFork_keeps h
  | kvFreeSeq _ => exact execKvFreeSeq_keeps h
  | prefixLookup _ => exact execPrefixLookup_keeps h
  | prefixPublish _ => exact execPrefixPublish_keeps h
  | kvDrop _ => exact execKvDrop_keeps h
  | kvDropSetPolicy _ => exact execKvDropSetPolicy_keeps h
  | retrieveIndexLoad _ => exact execRetrieveIndexLoad_keeps h
  | retrieveScan _ => exact execRetrieveScan_keeps h
  | scanStart _ => exact execScanStart_keeps h
  | linkBringup _ _ => exact execLinkBringup_keeps h
  | linkStatus _ => exact execLinkStatus_keeps h
  | cohortForm _ => exact execCohortForm_keeps h
  | cohortLeave _ => exact execCohortLeave_keeps h
  | windowOpen _ => exact execWindowOpen_keeps h
  | windowClose _ => exact execWindowClose_keeps h
  | fwLoad _ => exact execFwLoad_keeps h
  | fwStart _ => exact execFwStart_keeps h
  | attest _ => exact execAttest_keeps h
  | keyExchange _ => exact execKeyExchange_keeps h
  | ledgerRead _ => exact execLedgerRead_keeps h
  | rollbackAdvance _ => exact execRollbackAdvance_keeps h
  | selftestForge _ _ => exact execSelftestForge_keeps h
  | selftestHallmark _ _ => exact execSelftestHallmark_keeps h
  | stackRepairQuery _ _ => exact execStackRepairQuery_keeps h
  | stackRepairApply _ => exact execStackRepairApply_keeps h
  | channelMapout _ _ => exact execChannelMapout_keeps h
  | channelMapoutAtBoot _ => exact execChannelMapoutAtBoot_keeps h
  | laneDiag _ _ => exact execLaneDiag_keeps h
  | powerDomainOn _ => exact execPowerDomainOn_keeps h
  | powerDomainOff _ => exact execPowerDomainOff_keeps h
  | setPowerCap _ => exact execSetPowerCap_keeps h
  | thermalStatus _ => exact execThermalStatus_keeps h
  | eventRingSetup _ => exact execEventRingSetup_keeps h
  | eventRingTeardown _ => exact execEventRingTeardown_keeps h
  | eventAck _ => exact execEventAck_keeps h
  | phase _ _ => exact execPhase_keeps h
  | end_ _ _ => exact execEnd_keeps h
  | call _ _ => exact execCall_keeps h
  | return_ _ _ => exact execReturn_keeps h
  | loop _ _ => exact execLoop_keeps h
  | plinthFence _ _ => exact execPlinthFence_keeps h
  | tongsRun _ _ => exact execTongsRun_keeps h
  | tongsWait _ _ => exact execTongsWait_keeps h
  | tongsStop _ _ => exact execTongsStop_keeps h
  | copy _ _ _ => exact execCopy_keeps h
  | fill _ _ => exact execFill_keeps h
  | compare _ _ _ => exact execCompare_keeps h
  | flush _ _ => exact execFlush_keeps h
  | atomic _ _ _ => exact execAtomic_keeps h
  | tongsDescComplete _ _ => exact execTongsDescComplete_keeps h
  | anvilCfg _ _ => exact execAnvilCfg_keeps h
  | anvilMm _ _ => exact execAnvilMm_keeps h
  | swageCfg _ _ => exact execSwageCfg_keeps h
  | swageTable _ _ => exact execSwageTable_keeps h
  | chiselOp _ _ _ => exact execChiselOp_keeps h
  | chiselTreg _ _ => exact execChiselTreg_keeps h
  | chiselTable _ _ => exact execChiselTable_keeps h
  | crucCfg _ _ => exact execCrucCfg_keeps h
  | crucAttn _ _ _ => exact execCrucAttn_keeps h
  | crucAppend _ _ => exact execCrucAppend_keeps h
  | pressScan _ _ => exact execPressScan_keeps h
  | pressEncode _ _ => exact execPressEncode_keeps h
  | pressTableOut _ _ => exact execPressTableOut_keeps h
  | plinthRun _ _ => exact execPlinthRun_keeps h
  | plinthApertureWrite _ _ => exact execPlinthApertureWrite_keeps h
  | dot _ _ => exact execDot_keeps h
  | ldr _ _ => exact execLdr_keeps h
  | unitNop _ _ => exact execUnitNop_keeps h
  | accessPhaseEnd _ _ => exact execAccessPhaseEnd_keeps h
  | resultRelease _ _ _ _ _ => exact execResultRelease_keeps h
  | plinthRefresh _ _ _ => exact execPlinthRefresh_keeps h
  | plinthScrub _ _ _ _ => exact execPlinthScrub_keeps h
  | plinthLinkFlit _ _ => exact execPlinthLinkFlit_keeps h
  | nearScrub _ _ _ _ => exact execNearScrub_keeps h
  | rowRefresh _ _ _ => exact RKeeps.next h
  | t1PhyLockLoss _ => exact execT1PhyLockLoss_keeps h
  | t1CorrectionCount _ => exact execT1CorrectionCount_keeps h
  | t1RetrainComplete _ _ => exact execT1RetrainComplete_keeps h
  | slotTimeout _ _ => exact execSlotTimeout_keeps h
  | tongsDescriptorTimeout _ _ => exact execTongsDescriptorTimeout_keeps h
  | plinthInstructionTimeout _ _ => exact execPlinthInstructionTimeout_keeps h
  | t1ChannelRetrainTimeout _ => exact execT1ChannelRetrainTimeout_keeps h
  | laneRetrainTimeout _ _ => exact execLaneRetrainTimeout_keeps h
  | acknowledgementTimeout _ => exact execAcknowledgementTimeout_keeps h
  | creditStarvationTimeout _ => exact execCreditStarvationTimeout_keeps h
  | heatCommitPhaseTimeout _ _ => exact execHeatCommitPhaseTimeout_keeps h
  | stepDeadline _ _ => exact execStepDeadline_keeps h
  | adminCommandTimeout _ => exact execAdminCommandTimeout_keeps h
  | quiesceTimeout _ => exact execQuiesceTimeout_keeps h
  | smithWatchdog => exact execSmithWatchdog_keeps h
  | annealBoundExpiry _ => exact execAnnealBoundExpiry_keeps h
  | annealComplete _ => exact execAnnealComplete_keeps h
  | stepRerun _ _ => exact execStepRerun_keeps h
  | commandHeatLifetime _ _ => exact execCommandHeatLifetime_keeps h
  | scanDeadline _ _ => exact execScanDeadline_keeps h
  | windowExpiry _ => exact execWindowExpiry_keeps h
  | domainUndervoltage _ => exact execDomainUndervoltage_keeps h
  | currentLimitOnset => exact execCurrentLimitOnset_keeps h
  | inputCurrentLimit => exact execInputCurrentLimit_keeps h
  | stackHardLimit _ => exact execStackHardLimit_keeps h
  | dieHardLimit _ => exact execDieHardLimit_keeps h
  | gddr7HardLimit _ _ => exact execGddr7HardLimit_keeps h
  | inDoubtQueryInterval _ _ => exact execInDoubtQueryInterval_keeps h
  | linkRekey _ => exact execLinkRekey_keeps h
  | refLock => exact execRefLock_keeps h
  | refLost => exact execRefLost_keeps h
  | powerOn => exact execPowerOn_keeps h
  | perstAssert => exact execPerstAssert_keeps h
  | perstDeassert _ => exact execPerstDeassert_keeps h
  | fwLoadHeldStart => exact execFwLoadHeldStart_keeps h
  | supplyLow _ => exact execSupplyLow_keeps h
  | supplyOk _ => exact execSupplyOk_keeps h
  | shutdownThreshold => exact execShutdownThreshold_keeps h
  | overvoltage => exact execOvervoltage_keeps h
  | presentMate => exact execPresentMate_keeps h
  | presentBreak => exact execPresentBreak_keeps h
  | powerSample _ => exact execPowerSample_keeps h
  | dieThermalReading _ => exact execDieThermalReading_keeps h
  | quenchReport _ _ => exact execQuenchReport_keeps h
  | gddr7TempReading _ _ => exact execGddr7TempReading_keeps h
  | errorSummary => exact execErrorSummary_keeps h
  | flr _ => exact execFlr_keeps h
  | flrPf => exact execFlrPf_keeps h
  | d3hotEntry _ => exact execD3hotEntry_keeps h
  | d0Return _ => exact execD0Return_keeps h
  | hostDbSq _ _ _ => exact execHostDbSq_keeps h
  | hostDbRq _ _ _ => exact execHostDbRq_keeps h
  | ringEnable _ _ => exact execRingEnable_keeps h
  | ringDisable _ _ => exact execRingDisable_keeps h
  | commandFetch _ _ _ _ _ _ _ => exact execCommandFetch_keeps h
  | replyWrite _ _ _ _ => exact execReplyWrite_keeps h
  | interruptCoalesceTimer _ _ => exact execInterruptCoalesceTimer_keeps h
  | eventVectorTimer => exact execEventVectorTimer_keeps h
  | w1cWrite _ _ => exact execW1cWrite_keeps h
  | rocRead _ => exact execRocRead_keeps h
  | lowWordRead _ => exact execLowWordRead_keeps h
  | highWordRead _ => exact execHighWordRead_keeps h
  | registerWrite _ _ => exact execRegisterWrite_keeps h
  | extestLoad => exact execExtestLoad_keeps h
  | extestLeave _ => exact execExtestLeave_keeps h
  | idcode => exact execIdcode_keeps h
  | samplePreload _ _ => exact execSamplePreload_keeps h
  | bypass _ => exact execBypass_keeps h
  | frame _ _ _ _ _ _ _ => exact execFrame_keeps h
  | laneRetrainTrigger _ _ _ => exact execLaneRetrainTrigger_keeps h
  | laneRetrainComplete _ _ => exact execLaneRetrainComplete_keeps h
  | data _ _ => exact execData_keeps h
  | credit _ _ => exact execCredit_keeps h
  | request _ _ => exact execRequest_keeps h
  | release _ _ => exact execRelease_keeps h
  | discard _ _ => exact execDiscard_keeps h
  | digest _ _ => exact execDigest_keeps h
  | windowReq _ _ => exact execWindowReq_keeps h
  | windowResp _ _ => exact execWindowResp_keeps h
  | key _ _ _ => exact execKey_keeps h
  | votePrepared _ _ => exact execVotePrepared_keeps h
  | voteScrap _ _ => exact execVoteScrap_keeps h
  | decisionCommit _ _ => exact execDecisionCommit_keeps h
  | decisionScrap _ _ => exact execDecisionScrap_keeps h
  | ack _ _ => exact execAck_keeps h
  | query _ _ => exact execQuery_keeps h
  | stepGateOpen _ _ => exact execStepGateOpen_keeps h
  | localCommit _ _ _ => exact execLocalCommit_keeps h
  | fold _ _ => exact execFold_keeps h
  | epochAdvance _ => exact execEpochAdvance_keeps h
  | dropPolicy _ _ => exact execDropPolicy_keeps h
  | billetArrival _ _ => exact execBilletArrival_keeps h
  | migrationCopyComplete _ _ _ => exact execMigrationCopyComplete_keeps h
  | scanComplete _ _ _ => exact execScanComplete_keeps h
  | plinthLinkRetrainComplete _ => exact execPlinthLinkRetrainComplete_keeps h
  | currentLimitRelease => exact execCurrentLimitRelease_keeps h
  | undervoltageOnset _ => exact execUndervoltageOnset_keeps h
  | undervoltageRecovery _ => exact execUndervoltageRecovery_keeps h
  | completionError _ _ _ _ => exact execCompletionError_keeps h
  | hotReset _ => exact execHotReset_keeps h
  | entropyHealthFail => exact execEntropyHealthFail_keeps h

/-- A step takes the first command off the queue, or passes one tick on an empty queue, and keeps what a command keeps from
there on. -/
theorem step_keeps (s : State) : RKeeps { s with pending := s.pending.tail } (step s) := by
  unfold step
  split
  · next hp =>
    have he : ({ s with pending := s.pending.tail } : State) = s := by rw [hp, List.tail_nil, ← hp]
    exact RKeeps.next (State.idle_keeps (by rw [he]; exact Keeps.refl s))
  · next c rest hp => exact exec_keeps c (by rw [hp]; exact Keeps.refl _)

/-- What is sound stays sound where the forms are kept. -/
theorem Keeps.sound {s t : State} (h : Keeps s t) (hs : s.Sound) : t.Sound :=
  ⟨h.ram hs.ram, h.hearth hs.hearth, h.t1 hs.t1, h.t2 hs.t2⟩

/-- The queue is no part of what is sound. -/
theorem State.Sound.of_pending {s : State} (hs : s.Sound) (p : List Instr) : ({ s with pending := p } : State).Sound :=
  ⟨hs.ram, hs.hearth, hs.t1, hs.t2⟩

/-- Settles O60: taking a command off the queue leaves the memories and frames, and what runs keeps their forms. -/
theorem stepsKeepMemoriesAndFramesSound : Obligations.StepsKeepMemoriesAndFramesSound := by
  intro s t hs ht
  exact ((step_keeps s).use ht).sound (hs.of_pending _)

/-- Settles O57: no row of the table and no tick refuses or faults. -/
theorem everyStepAnswers : Obligations.EveryStepAnswers := by
  refine ⟨fun c s => ?_, fun s => ?_⟩
  · obtain ⟨t, ht, -⟩ := exec_keeps c (Keeps.refl s)
    exact ⟨t, ht⟩
  · obtain ⟨t, ht, -⟩ := step_keeps s
    exact ⟨t, ht⟩

/-- Settles O58: a command leaves the queue and never takes draws back; a step does so after it has taken the first command. -/
theorem queueAndDrawsOnlyAdvance : Obligations.QueueAndDrawsOnlyAdvance := by
  refine ⟨fun c s t ht => ?_, fun s t ht => ?_⟩
  · have h := (exec_keeps c (Keeps.refl s)).use ht
    exact ⟨h.pending, h.draws⟩
  · have h := (step_keeps s).use ht
    exact ⟨h.pending, h.draws⟩

/-- Settles O59: every part of the module before power is empty, and its demands stand at the top of their ranges. -/
theorem resetIsSound : Obligations.ResetIsSound :=
  ⟨⟨rfl, rfl, List.Pairwise.nil, List.Pairwise.nil⟩, rfl, by decide, by decide, by decide⟩

end Sys2Proof.Machine
end

section
/-! The commands of the operator: what runs at the front of the queue, and what a command that may run leaves (R331 to R335,
R404 to R424). -/

namespace Sys2Proof.Machine

/-- Settles O1: the definition of a step, on a queue that holds a command and on an empty one. -/
theorem stepRunsTheFrontCommand : Obligations.StepRunsTheFrontCommand :=
  ⟨fun _ _ _ => rfl, fun _ => rfl⟩

/-- A host command that may run, with its parameters in order, leaves what its body gives on the state it entered. -/
theorem hostCmd_next {op : Op} {k : Cmd} {ok : Bool} {n : Nat} {s t : State} {f body : State → State} (h : Ready op k s)
    (hf : f (s.entered op k) = checked op k ok n body (s.entered op k)) (ho : ok = true) (hn : n ≤ k.outCap.toNat)
    (hb : body (s.entered op k) = t) : hostCmd op k f s = .next t.settle := by
  rw [hostCmd_of_ready f h, hf, checked_of_ok body ho hn h.payload h.sound h.gate, hb]

/-- Settles O2: each of the four commands finishes at once with its reply. -/
theorem nopIdentifyCapAndThermalComplete : Obligations.NopIdentifyCapAndThermalComplete := by
  refine ⟨fun k s hr hp => hostCmd_next hr rfl hp (Nat.zero_le _) rfl, fun k s hr hp hc => hostCmd_next hr rfl hp hc rfl,
    fun k s hr hp hlo hhi hwlo hwhi => hostCmd_next hr rfl ?_ (Nat.zero_le _) rfl, fun k s hr hp hc => hostCmd_next hr rfl hp hc rfl⟩
  simp [hp, hlo, hhi, hwlo, hwhi]

theorem State.holdGates_deferred (s : State) (fns : List FnId) (b : Bool) : (s.holdGates fns b).deferred = s.deferred := by
  unfold State.holdGates
  induction fns generalizing s with
  | nil => rfl
  | cons fn fns ih => rw [List.foldl_cons, ih, modFn_deferred]

/-- QUIESCE HOLD that is given for the first time holds the gates and waits (R332). -/
theorem quiesceHold_of_new {k : Cmd} {s : State} (h : ∀ fns a, Deferred.quiesce k fns a ∉ s.deferred) :
    quiesceHold k s = { s.holdGates (namedFns (u k.p 0 1)) true with
      deferred := s.deferred ++ [Deferred.quiesce k (namedFns (u k.p 0 1)) false] } := by
  unfold quiesceHold
  dsimp only
  rw [State.holdGates_deferred, if_neg]
  rw [Bool.not_eq_true, List.any_eq_false]
  intro d hd
  cases d with
  | quiesce k' fns a =>
    intro he
    obtain rfl : k' = k := by simpa using he
    exact h fns a hd
  | _ => simp

/-- Settles O3: a hold waits, a release and OPEN_SESSION finish at once, CLOSE_SESSION waits. -/
theorem quiesceAndSessionsComplete : Obligations.QuiesceAndSessionsComplete := by
  refine ⟨⟨fun k s hr hp hf h0 hd => hostCmd_next hr rfl ?_ (Nat.zero_le _) ?_, fun k s hr hp hf h1 => hostCmd_next hr rfl ?_ (Nat.zero_le _) ?_⟩,
    fun k x s hr hl hx ho => hostCmd_next hr rfl (beq_iff_eq.mpr hl) (Nat.zero_le _) ?_,
    fun k s hr hp hc => hostCmd_next hr rfl hp (Nat.zero_le _) ?_⟩
  · simp [hp, hf, h0]
  · rw [if_pos h0, quiesceHold_of_new (by rwa [State.entered_deferred]), State.entered_deferred]
  · simp [hp, hf, h1]
  · rw [if_neg (by omega)]
    rfl
  · simp only [hx, ho, Bool.false_eq_true, if_false]
  · simp only [State.entered_deferred, hc, Bool.false_eq_true, if_false]

end Sys2Proof.Machine
end

section
/-! Enabling and disabling of functions (R296, R312, R313). -/

namespace Sys2Proof.Machine

/-! ### What the event log leaves -/

/-- What raising vectors and logging may change: the event log, what is sent, and pending bits of vectors (R325, R420 to R422). -/
structure Logs (s t : State) : Prop where
  eq : ∃ e h o, t = { s with events := e, host := h, out := o }
  host : ∀ fn : FnId, ∃ b, t.host[fn] = { s.host[fn] with msixPend := b }

theorem Logs.refl (s : State) : Logs s s := ⟨⟨_, _, _, rfl⟩, fun _ => ⟨_, rfl⟩⟩

theorem Logs.trans {s t v : State} (h : Logs s t) (k : Logs t v) : Logs s v := by
  obtain ⟨⟨_, _, _, ht⟩, hh⟩ := h
  obtain ⟨⟨_, _, _, hv⟩, hk⟩ := k
  refine ⟨⟨_, _, _, by rw [hv, ht]⟩, fun fn => ?_⟩
  obtain ⟨_, hb⟩ := hh fn
  obtain ⟨_, hc⟩ := hk fn
  exact ⟨_, by rw [hc, hb]⟩

theorem State.send_logs (s : State) (e : HostEvent) : Logs s (s.send e) := ⟨⟨_, _, _, rfl⟩, fun _ => ⟨_, rfl⟩⟩

theorem State.events_logs (s : State) (e : EventLog) : Logs s { s with events := e } := ⟨⟨_, _, _, rfl⟩, fun _ => ⟨_, rfl⟩⟩

theorem State.msixPend_logs (s : State) (fn : FnId) (g : BitVec 66 → BitVec 66) :
    Logs s (s.modHost fn fun h => { h with msixPend := g h.msixPend }) := by
  refine ⟨⟨_, _, _, rfl⟩, fun i => ?_⟩
  rw [modHost_host]
  by_cases h : fn = i
  · subst h
    exact ⟨_, by rw [vmod_same]⟩
  · exact ⟨_, by rw [vmod_other _ _ h]⟩

theorem State.raise_logs (s : State) (fn : FnId) (v : Nat) : Logs s (s.raise fn v) := by
  unfold State.raise
  split
  · split
    · exact Logs.refl s
    · split
      · exact s.msixPend_logs fn (· ||| (1#66 <<< v))
      · exact s.send_logs _
  · exact Logs.refl s

theorem State.flushEvents_logs (s : State) (n : Nat) : Logs s (s.flushEvents n) := by
  induction n generalizing s with
  | zero => exact Logs.refl s
  | succ n ih =>
    unfold State.flushEvents
    dsimp only
    split
    · split
      · exact Logs.refl s
      · refine Logs.trans ?_ (ih _)
        split
        · exact ((s.send_logs _).trans (State.events_logs _ _)).trans (State.raise_logs _ _ _)
        · exact (s.send_logs _).trans (State.events_logs _ _)
    · exact Logs.refl s

theorem State.log_logs (s : State) (code : Nat) (fn : Option FnId) (source : Nat) (data : List Byte) :
    Logs s (s.log code fn source data) :=
  (s.events_logs _).trans (State.flushEvents_logs _ _)

/-! ### Frames that are taken -/

theorem insertFrame_perm (x : Frame) (l : List Frame) : (insertFrame x l).Perm (x :: l) := by
  induction l with
  | nil => exact List.Perm.refl _
  | cons y l ih =>
    unfold insertFrame
    split
    · exact List.Perm.refl _
    · exact (ih.cons y).trans (List.Perm.swap x y l)

/-- Frames that are taken are added to those held, each with the use it is taken for; nothing else changes (R224, R226). -/
theorem State.allocT1Many_eq {s t : State} {use : FrameUse} {n : Nat} (h : s.allocT1Many use n = some t) :
    ∃ l new, t = { s with t1 := l } ∧ l.Perm (new ++ s.t1) ∧ new.length = n ∧ ∀ x ∈ new, x.use = use := by
  induction n generalizing s with
  | zero =>
    obtain rfl : s = t := Option.some.inj h
    exact ⟨_, [], rfl, List.Perm.refl _, rfl, List.forall_mem_nil _⟩
  | succ n ih =>
    obtain ⟨v, hv, ht⟩ := Option.bind_eq_some_iff.mp h
    unfold State.allocT1One at hv
    dsimp only at hv
    split at hv
    · cases hv
      obtain ⟨l, new, rfl, hp, hn, hu⟩ := ih ht
      refine ⟨l, new ++ [⟨lowestFree (s.t1.map (·.num)) 0, use⟩], rfl, ?_, by simp [hn], ?_⟩
      · rw [List.append_assoc]
        exact hp.trans ((insertFrame_perm _ _).append_left new)
      · simpa [or_imp, forall_and] using hu
    · cases hv

theorem State.allocT1_eq {s t : State} {fn : FnId} {use : FrameUse} {n : Nat} (h : s.allocT1 fn use n = some t) :
    ∃ l new, t = { s with t1 := l } ∧ l.Perm (new ++ s.t1) ∧ new.length = n ∧ ∀ x ∈ new, x.use = use := by
  unfold State.allocT1 at h
  split at h
  · exact State.allocT1Many_eq h
  · cases h

/-- One more of these frames for each that is taken. -/
theorem filter_use_length {l new held : List Frame} {use : FrameUse} {n : Nat} (hp : l.Perm (new ++ held)) (hn : new.length = n)
    (hu : ∀ x ∈ new, x.use = use) : (l.filter (·.use == use)).length = (held.filter (·.use == use)).length + n := by
  have hf : new.filter (·.use == use) = new := List.filter_eq_self.mpr fun x hx => beq_iff_eq.mpr (hu x hx)
  rw [(hp.filter _).length_eq, List.filter_append, hf, List.length_append, hn, Nat.add_comm]

/-! ### Enabling a function -/

/-- A value is drawn: the counters of draws and of the generator move on. -/
theorem State.drbg_eq (s : State) :
    ∃ h, s.drbg = (s.draws, { s with draws := s.draws + 1, hall := h }) ∧ h.storage = s.hall.storage := by
  unfold State.drbg State.draw State.modHall
  dsimp only
  split <;> exact ⟨_, rfl, rfl⟩

/-- Settles O5: the frames are taken, the key is drawn and written, ENABLED is set; the log that follows leaves all of them. -/
theorem enableTakesHeatAreaAndStorageKey : Obligations.EnableTakesHeatAreaAndStorageKey := by
  intro fn s t h
  obtain ⟨v, hv, rfl⟩ := Option.map_eq_some_iff.mp h
  obtain ⟨l, new, rfl, hp, hn, hu⟩ := State.allocT1_eq hv
  obtain ⟨h₁, e₁, hs₁⟩ := State.drbg_eq { s with t1 := l }
  obtain ⟨h₂, e₂, hs₂⟩ := State.drbg_eq { s with t1 := l, draws := s.draws + 1, hall := h₁ }
  obtain ⟨h₃, e₃, hs₃⟩ := State.drbg_eq { s with t1 := l, draws := s.draws + 2, hall := h₂ }
  dsimp only
  rw [e₁]
  dsimp only
  rw [e₂]
  dsimp only
  rw [e₃]
  dsimp only
  obtain ⟨⟨_, _, _, ht⟩, hh⟩ := State.log_logs
    ((({ s with t1 := l, draws := s.draws + 3, hall := h₃ } : State).modHall fun h =>
      { h.keep with storage := h.storage.set fn (some (StoreKey.drawn s.draws)) }).modHost fn fun h => { h with enabled := true })
    0x0101 (some fn) 0 []
  obtain ⟨_, hb⟩ := hh fn
  refine ⟨?_, ?_, ?_, ?_, ?_⟩
  · exact (congrArg FnHost.enabled hb).trans (by rw [modHost_host, vmod_same])
  · rw [ht]
    simp
  · rw [ht]
    exact filter_use_length hp hn hu
  · rw [ht]
    exact hp.length_eq.trans (by rw [List.length_append, hn, Nat.add_comm])
  · rw [ht]
    exact ⟨rfl, rfl, rfl, rfl⟩

/-! ### The commands -/

theorem fnOf_val (fn : FnId) : fnOf fn.val = some fn := dif_pos fn.isLt

theorem enableNow_of_some {k : Cmd} {fn : FnId} {st : Status} {s t : State} (h : s.enable fn = some t) :
    enableNow k fn st s = t.finish .enableFunction k st := by
  unfold enableNow
  rw [h]

/-- A held enable whose disable has completed proceeds (R313). -/
theorem heldEnableProceed_of_ready {k : Cmd} {fn g : FnId} {r a : Bool} {s t : State}
    (hd : s.deferred.find? (·.readyFor fn) = some (.heldEnable k g r a))
    (he : ({ s with deferred := s.deferred.filter (· != .heldEnable k g r a) } : State).enable fn = some t) :
    heldEnableProceed fn s = t.finish .enableFunction k (if a then .annealed else .ok) := by
  unfold heldEnableProceed
  rw [hd]
  exact enableNow_of_some he

/-- Settles O4: an enable and a held enable end with what `State.enable` gives, a disable begins and waits. -/
theorem enablingAndDisablingComplete : Obligations.EnablingAndDisablingComplete := by
  refine ⟨⟨fun k fn s t hr hp hf hv ht hq he hh hen => hostCmd_next hr rfl ?_ (Nat.zero_le _) ?_, fun fn k a s t hd he => ?_⟩,
    fun k fn s hr hp hf he hq hh => hostCmd_next hr rfl ?_ (Nat.zero_le _) ?_⟩
  · simp [hp, hf, hv]
  · have hh' : (s.entered .enableFunction k).heldFor fn = false := by
      unfold State.heldFor
      rwa [State.entered_deferred]
    simp only [Fin.getElem_fin] at hq he
    simp [hf, fnOf_val, ht, hq, he, hh', enableNow_of_some hen]
  · exact congrArg (fun t => Host.Outcome.next (State.settle t)) (heldEnableProceed_of_ready hd he)
  · simp [hp, hf]
  · have hh' : (s.entered .disableFunction k).heldFor fn = false := by
      unfold State.heldFor
      rwa [State.entered_deferred]
    simp only [Fin.getElem_fin] at hq he
    simp [hf, fnOf_val, hq, he, hh']

end Sys2Proof.Machine
end

section
/-! Partitions, self-tests, power domains and the event ring (R250, R339, R408, R409, R421 to R424). -/

namespace Sys2Proof.Machine

/-! ### SET_PARTITION -/

/-- No grant is lost where STALL is granted, or no function concerned has both a grant and a mould that uses it (R250). -/
theorem grant_kept {s : State} {part : Fin 64} {fn : FnId} {grant : Bool}
    (h : grant = true ∨ ∀ g : FnId, g = fn ∨ (s.fns[g]).partition = part →
      (s.near.parts[(s.fns[g]).partition]).stall = true → (s.fns[g]).moulds.any (·.usesStall) = false) :
    (!grant && s.losesGrant part fn) = false := by
  obtain h | h := h
  · rw [h]
    rfl
  · rw [Bool.and_eq_false_iff]
    right
    unfold State.losesGrant
    rw [List.any_eq_false]
    intro g _ hl
    simp only [Bool.and_eq_true, Bool.or_eq_true, beq_iff_eq] at hl
    obtain ⟨⟨hg, hstall⟩, huse⟩ := hl
    exact Bool.false_ne_true ((h g hg hstall).symm.trans huse)

theorem losesGrant_congr {s t : State} (hf : t.fns = s.fns) (hn : t.near = s.near) (part : Fin 64) (fn : FnId) :
    t.losesGrant part fn = s.losesGrant part fn := by
  unfold State.losesGrant
  simp only [hf, hn]

/-- A limit of 0 limits nothing; another admits what does not pass it. -/
theorem within_limit {lim held : Nat} (h : lim = 0 ∨ held ≤ lim) : ¬(lim ≠ 0 ∧ lim < held) := by
  omega

/-! ### SELFTEST -/

theorem forgeOf_val (f : ForgeId) : forgeOf f.val = some f := dif_pos f.isLt

/-- The test of an unassigned forge while no step runs (R339). -/
theorem selftestForge_of_idle {k : Cmd} {failing : BitVec 32} {f : ForgeId} {s : State} (hf : u k.p 2 2 = f.val)
    (ha : s.forgeAssigned f = false) (hr : s.anyRunning = false) :
    selftestForge k failing s =
      if failing = 0 then
        (((s.dropCache.forgeOff f).forgeUp f).modForge f fun x => { x with failed := false }).finish .selftest k .ok
      else (((s.dropCache.forgeOff f).modForge f fun x => { x with failed := true }).log 0x0801 none
        f.val (bvBytes 4 failing)).finish .selftest k .ok failing.toNat := by
  unfold selftestForge
  rw [hf, forgeOf_val]
  dsimp only
  rw [ha, hr, if_neg Bool.false_ne_true, if_neg Bool.false_ne_true]

/-! ### The commands -/

/-- Settles O6: each command passes its checks, and its refusals and waits are excluded by the conditions. -/
theorem partitionSelftestAndDomainsComplete : Obligations.PartitionSelftestAndDomainsComplete := by
  refine ⟨fun k part fn s hr hp hpart hfn hflags hlo hhi hblo hbhi hgrant => ?_,
    ⟨fun k f failing s hr hp hk hf ha hi => hostCmd_next hr rfl ?_ (Nat.zero_le _) ?_,
      fun k failing s hr hp hk h0 => hostCmd_next hr rfl ?_ (Nat.zero_le _) ?_⟩,
    fun k s hr hp hon hm hn hi => hostCmd_next hr rfl ?_ (Nat.zero_le _) ?_,
    fun k s hr hp hoff hm hn hi => hostCmd_next hr rfl ?_ (Nat.zero_le _) ?_⟩
  · intro t h1 h2
    refine hostCmd_next hr rfl ?_ (Nat.zero_le _) ?_
    · simp [hp, hpart, hfn, hflags, hlo, hhi, hblo, hbhi]
    · have hg : ((!bit (u k.p 2 1) 0) && (s.entered .setPartition k).losesGrant part fn) = false := by
        rw [losesGrant_congr (State.entered_fns ..) (State.entered_near ..)]
        exact grant_kept hgrant
      rw [hpart, hfn, fnOf_val, fnOf_val]
      dsimp only
      rw [hg, if_neg Bool.false_ne_true, if_neg]
      rintro (h | h)
      · exact within_limit h1 h
      · exact within_limit h2 h
  · simp [hp, hk, hf]
  · rw [if_pos hk, selftestForge_of_idle hf ha hi]
  · simp [hp, hk, h0]
  · rw [if_neg (by omega)]
    rfl
  · simp [hp, hon]
    exact hm
  · simp only [hon, decide_true, hn, hi, Bool.and_false, Bool.false_eq_true, if_false, if_true, State.entered_bell]
  · simp [hp, hoff]
    exact hm
  · simp [hoff, hn, hi]

/-- Settles O7: a setup, a teardown and an acknowledgement finish at once on the ring that they leave. -/
theorem eventRingCommandsComplete : Obligations.EventRingCommandsComplete := by
  refine ⟨fun k s hr hp ha h4 hlo hhi => hostCmd_next hr rfl ?_ (Nat.zero_le _) ?_,
    fun k s hr hp ha hl => hostCmd_next hr rfl ?_ (Nat.zero_le _) ?_,
    fun k s hr hp hn => hostCmd_next hr rfl ?_ (Nat.zero_le _) rfl⟩
  · simp [hp, ha, h4, hlo, hhi]
  · rw [if_neg ha]
  · simp [hp, ha, hl]
  · rw [if_pos ha]
    unfold State.evTearDown
    rw [State.entered_events]
    rfl
  · simp [hp, hn]

end Sys2Proof.Machine
end

section
/-! Firmware, attestation, key exchange and the Ledger (R374, R381 to R393). -/

namespace Sys2Proof.Machine

/-! ### FW_LOAD, FW_START, LEDGER_READ and ROLLBACK_ADVANCE -/

/-- An image that passes every check is taken, one that does not goes the way of its first failing check (R385). -/
theorem loadFw_eq {k : Cmd} {s : State} (h : s.hall.identityFault = false) :
    s.loadFw k = if (fwCheck s k.payload).isNone then
        (s.modHall fun h => { h with
          image := some { manifest := k.payload.take 8192, image := k.payload.drop 8192 }
          stage := if h.t1Degraded then h.stage else 10 }).finish .fwLoad k .ok
      else s.loadFw k := by
  unfold State.loadFw
  rw [h, if_neg Bool.false_ne_true]
  cases fwCheck s k.payload <;> rfl

/-- The end of boot event 7, in the order of Table TRST-1. -/
theorem fwLoadHeldStart_of_booting {s : State} (h7 : s.smith.event7 = false) (hi : s.hall.identityFault = false)
    (hd : s.domOn 97 = true) (hf : s.faulted = false) :
    fwLoadHeldStart s = match s.endEvent7.smith.heldFwLoad with
      | some k => ({ s.endEvent7 with smith := { s.endEvent7.smith with heldFwLoad := none } } : State).loadFw k
      | none => s.endEvent7 := by
  unfold fwLoadHeldStart
  rw [h7, hi, hd, hf, if_neg (by decide)]
    <;> rfl

@[simp] theorem State.endEvent7_heldFwLoad (s : State) : s.endEvent7.smith.heldFwLoad = s.smith.heldFwLoad := by
  unfold State.endEvent7
  dsimp only
  split <;> rfl

/-- Settles O8: each command passes its checks and takes the branch that its conditions name. -/
theorem firmwareAndLedgerCommandsComplete : Obligations.FirmwareAndLedgerCommandsComplete := by
  refine ⟨⟨fun k s hr hp hw h7 hi => hostCmd_next hr rfl hp (Nat.zero_le _) ?_,
      fun k s hr hp hw h7 hi => hostCmd_next hr rfl hp (Nat.zero_le _) ?_,
      fun k s h7 hi hd hf hh => congrArg Host.Outcome.next ?_, fun s h7 hi hd hf hh => congrArg Host.Outcome.next ?_⟩,
    fun k s hr hp hw him => hostCmd_next hr rfl hp (Nat.zero_le _) ?_,
    fun k s hr hp => hostCmd_next hr rfl hp (Nat.zero_le _) ?_,
    fun k s hr hp hc hv hle => hostCmd_next hr rfl ?_ (Nat.zero_le _) ?_,
    fun k s hr hp hc hv hlt hlow => hostCmd_next hr rfl ?_ (Nat.zero_le _) ?_⟩
  · rw [← loadFw_eq (by rwa [State.entered_identityFault])]
    simp [hw, h7]
  · simp [hw, h7, hi]
  · rw [fwLoadHeldStart_of_booting h7 hi hd hf, State.endEvent7_heldFwLoad, hh]
  · rw [fwLoadHeldStart_of_booting h7 hi hd hf, State.endEvent7_heldFwLoad, hh]
  · simp [hw, Option.isSome_iff_ne_none.mp him]
  · rw [State.entered_ledger]
  · simp [hp, hc, hv]
  · simp only [State.entered_ledger, if_pos hle]
  · simp [hp, hc, hv]
  · simp only [State.entered_ledger, if_neg (Nat.not_le.mpr hlt), State.ledgerWrite, State.entered_bell, hlow,
      Bool.false_eq_true, if_false]

/-! ### ATTEST and KEY_EXCHANGE -/

/-- Settles O9: ATTEST has no branch, and KEY_EXCHANGE past its first two checks turns on the owner's signature. -/
theorem attestAndKeyExchangeComplete : Obligations.AttestAndKeyExchangeComplete := by
  refine ⟨fun k s hr hp hc => hostCmd_next hr rfl hp hc rfl,
    fun k p s hr hp hl hc hpend hd hown hn => hostCmd_next hr rfl ?_ hc ?_⟩
  · simp [hp, hl]
  · have hs : ¬64 ≤ ((s.entered .keyExchange k).hall.sessions[k.fn]).length := Nat.not_le.mpr hn
    simp only [hpend, hd, bne_self_eq_false, Bool.false_eq_true, if_false]
    rw [if_neg]
    · split
      · next hv => rw [if_neg (by simpa using hv)]
      · next hv => exact (if_neg hs).trans (if_pos (by simpa using hv)).symm
    · split
      · next d h => simp [hown d h]
      · exact Bool.false_ne_true

end Sys2Proof.Machine
end

section
/-! Supply, reset, the time base, voltages, the power cap and the test access port (R24 to R33, R344, R374, R401 to R413, R427 to
R434). -/

namespace Sys2Proof.Machine

/-! ### Supply and reference -/

/-- Settles O10: each event of the supply and the reference meets the branch that its conditions name. -/
theorem supplyAndReferenceComplete : Obligations.SupplyAndReferenceComplete := by
  refine ⟨⟨fun s hs ht => ?_, fun s hs ht => ?_⟩,
    ⟨fun s hs hp => ?_, fun s hs => ?_, fun s hs => ?_, fun s => rfl, fun s hs => ?_, fun s hs => ?_, fun s => rfl,
      fun s hs hl he => ?_, fun s hs hl he => ?_⟩, fun v s hs hl => ?_, fun v s hs hl => ?_⟩
  · exact congrArg Host.Outcome.next (if_neg (by simpa [hs] using ht))
  · simp [exec, execRefLost, hs, ht]
  · simp [exec, execPowerOn, hs, hp]
  · simp [exec, execShutdownThreshold, hs]
  · simp [exec, execOvervoltage, hs]
  · simp [exec, execPresentBreak, hs, State.modBell]
  · simp [exec, execCurrentLimitOnset, hs, State.modBell]
  · simp [exec, execInputCurrentLimit, hs, hl, he]
  · simp [exec, execInputCurrentLimit, hs, hl, he]
  · simp [exec, execSupplyLow, hs, hl, State.modBell]
  · simp [exec, execSupplyOk, hs, hl, State.modBell]

/-! ### Resets -/

/-- Settles O11: a loss of power starts from a cleared module, PERST# from a dark one. -/
theorem whatSurvivesResets : Obligations.WhatSurvivesResets := by
  refine ⟨fun s t hs ht => ?_, fun s t hs ht => ?_⟩
  · simp only [exec, execShutdownThreshold, hs, if_true, Host.Outcome.next.injEq] at ht
    subst ht
    exact ⟨rfl, rfl, rfl, rfl, rfl, rfl, rfl, rfl, rfl, rfl, rfl, rfl, rfl, rfl, rfl, rfl, rfl, rfl, rfl, rfl, rfl, rfl⟩
  · simp only [exec, execPerstAssert, hs, if_true, Host.Outcome.next.injEq] at ht
    subst ht
    exact ⟨rfl, hs, rfl, rfl, rfl, rfl, rfl, rfl, rfl, rfl, rfl, rfl, rfl, rfl, rfl, rfl, rfl, rfl, rfl, rfl⟩

/-- An FLR of an enabled function clears its rings and begins its disable, without replies (R344). -/
theorem State.flr_of_enabled {s : State} {fn : FnId} (he : (s.host[fn]).enabled = true) (hq : (s.host[fn]).quiescing = false) :
    let t := (s.modHost fn fun h => { h with rings := Vector.replicate 64 {}, d3hot := false }).beginDisable fn
    s.flr fn = { t with deferred := t.deferred ++ [Deferred.disable { fn, ring := none } fn false true] } := by
  unfold State.flr
  dsimp only
  rw [if_neg, if_neg]
  · rw [modHost_host, vmod_same, he]
    exact Bool.false_ne_true
  · rw [modHost_host, vmod_same, hq]
    exact Bool.false_ne_true

/-- Settles O12: resets run where the host interface is on, and an FLR of an enabled function begins its disable. -/
theorem resetsComplete : Obligations.ResetsComplete := by
  refine ⟨⟨fun s hs => ?_, fun env s hs hp ht => ?_, fun env s hd => ?_⟩, fun fn s hd => ?_, fun fn s he hq => ?_, fun s hd => ?_,
    fun fn s => rfl, fun fn s => rfl⟩
  · simp [exec, execPerstAssert, hs]
  · simp [exec, execPerstDeassert, hs, hp, ht]
  · simp [exec, execHotReset, hd]
  · simp [exec, execFlr, hd]
  · exact State.flr_of_enabled he hq
  · simp [exec, execFlrPf, hd]

/-! ### Voltages and the power cap -/

/-- Settles O13: the mark of a domain follows its voltage, and a sample enters Bellows. -/
theorem voltageAndPowerSamplesComplete : Obligations.VoltageAndPowerSamplesComplete := by
  refine ⟨⟨fun d s hd => ?_, fun d s => rfl, fun d s hu => ?_⟩, fun w s hs => ?_⟩
  · simp [exec, execUndervoltageOnset, hd, State.modBell]
  · simp [exec, execDomainUndervoltage, hu, State.modBell, State.draw]
  · simp [exec, execPowerSample, hs]

/-- One group falls by 10 mV, or none can (R411). -/
theorem CapInRange.lower {b : Bellows} (h : CapInRange b) : CapInRange b.lower := by
  unfold CapInRange at h
  unfold Bellows.lower
  repeat' split
  all_goals simp only [CapInRange]; omega

theorem CapInRange.raise {b : Bellows} (h : CapInRange b) : CapInRange b.raise := by
  unfold CapInRange at h
  unfold Bellows.raise
  repeat' split
  all_goals simp only [CapInRange]; omega

theorem CapInRange.surge {b : Bellows} (h : CapInRange b) (w : Nat) : CapInRange (b.surge w) := by
  unfold CapInRange at h
  unfold Bellows.surge
  split
  · unfold CapInRange
    dsimp only
    omega
  · exact h

/-- The ranges concern the three demands alone. -/
theorem CapInRange.congr {b c : Bellows} (h : CapInRange b) (hf : c.capForge = b.capForge) (hm : c.capMigr = b.capMigr)
    (hc : c.capCtl = b.capCtl) : CapInRange c := by
  unfold CapInRange
  rw [hf, hm, hc]
  exact h

/-- A sample surges, then lowers, raises or leaves the demands (R411, R412). -/
theorem CapInRange.sampled {b : Bellows} (h : CapInRange b) (w : Nat) : CapInRange (b.sampled w) := by
  unfold Bellows.sampled
  extract_lets samples c d
  have hc : CapInRange c := CapInRange.surge (b := { b with sample := w, samples, average := avgOf samples }) (h.congr rfl rfl rfl) w
  split
  · split
    · exact hc.congr rfl rfl rfl
    · exact hc.lower.congr rfl rfl rfl
  · split
    · exact CapInRange.raise (hc.congr rfl rfl rfl)
    · exact hc.congr rfl rfl rfl

/-- Settles O14: the order of the groups is the order of the branches, and every branch keeps the ranges. -/
theorem capMovesDemandsInOrder : Obligations.CapMovesDemandsInOrder := by
  refine ⟨fun b hb => ⟨fun h => ?_, fun hf h => ?_, fun hf hm h => ?_, fun h => ?_, fun h => ?_, fun hc h => ?_, fun hc hm h => ?_,
    fun w h => ?_, fun w h => ?_⟩, fun b w hb => hb.sampled w⟩
  · simp [Bellows.lower, h]
  · simp [Bellows.lower, hf, h]
  · simp [Bellows.lower, hf, hm, h]
  · simp only [Bellows.atFloor, Bool.and_eq_true, decide_eq_true_eq] at h
    obtain ⟨⟨hf, hm⟩, hc⟩ := h
    simp [Bellows.lower, Nat.not_lt.mpr hf, Nat.not_lt.mpr hm, Nat.not_lt.mpr hc]
  · simp [Bellows.raise, h]
  · simp [Bellows.raise, hc, h]
  · simp [Bellows.raise, hc, hm, h]
  · simp [Bellows.surge, h]
  · simp [Bellows.surge, Nat.not_lt.mpr h]

/-! ### The test access port -/

/-- Settles O16: the four instructions are loaded while the spine is up, all but EXTEST once it has been left. -/
theorem testAccessPortCompletes : Obligations.TestAccessPortCompletes := by
  refine ⟨fun s hs he => ?_, fun c d s hs he => ?_, fun c s hs he hc => ?_, fun s hs => ?_, fun env s he hs hp => ?_,
    fun env s he hp => ?_⟩
  · simp [exec, execIdcode, hs, he]
  · simp [exec, execSamplePreload, hs, he]
  · simp [exec, execBypass, hs, he, hc]
  · simp [exec, execExtestLoad, hs]
  · simp [exec, execExtestLeave, hs, he, hp]
  · simp [exec, execExtestLeave, he, hp]

end Sys2Proof.Machine
end

section
/-! Rings, doorbells, fetches and acceptance (R318 to R329, R422). -/

namespace Sys2Proof.Machine

/-! ### Rings -/

section
variable {fn : FnId} {r : Option RingId} {s : State}

/-- The admin ring belongs to the physical function (R316). -/
theorem not_foreign_admin (h : r = none → fn = 0) : (r.isNone && fn != 0) = false := by
  cases r with
  | none => simp [h rfl]
  | some r => rfl

theorem ringEnable_of_valid (hd : s.domOn 96 = true) (ha : r = none → fn = 0) (he : (s.ring fn r).enable = false)
    (hv : (s.ring fn r).valid = true) (hf : r = none ∨ (s.host[fn]).enabled = true) :
    ringEnable fn r s = s.modRing fn r fun q => { q with
      enable := true, active := true, stopped := false, sqHead := 0, sqTail := 0, rqTail := 0, rqHeld := 0, rqHead := 0
      phase := true, unsignalled := 0 } := by
  unfold ringEnable
  dsimp only
  rw [if_neg (by simp [hd, he, not_foreign_admin ha]), if_pos]
  rw [hv]
  obtain rfl | hf := hf
  · rfl
  · rw [hf, Bool.or_true]
    rfl

theorem ringEnable_of_invalid (hd : s.domOn 96 = true) (ha : r = none → fn = 0) (he : (s.ring fn r).enable = false)
    (hv : (s.ring fn r).valid = false ∨ (r ≠ none ∧ (s.host[fn]).enabled = false)) :
    ringEnable fn r s = s.modRing fn r fun q => { q.stop .badParam with enable := true } := by
  unfold ringEnable
  dsimp only
  rw [if_neg (by simp [hd, he, not_foreign_admin ha]), if_neg]
  obtain hv | ⟨hr, hf⟩ := hv
  · rw [hv, Bool.false_and]
    exact Bool.false_ne_true
  · rw [hf, Bool.or_false, Option.isNone_eq_false_iff.mpr (Option.isSome_iff_ne_none.mpr hr), Bool.and_false]
    exact Bool.false_ne_true

/-- A ring that is disabled stays active until its last reply is written (R318). -/
theorem ringDisable_eq (hd : s.domOn 96 = true) (ha : r = none → fn = 0) :
    ringDisable fn r s = let t := s.modRing fn r fun q => { q with enable := false }
      if (s.ring fn r).active && s.flightsOf fn r = 0 && (s.ring fn r).done.isEmpty then
        t.modRing fn r fun q => { q with active := false, unsignalled := 0 } else t := by
  have hl : ∀ g, (s.modRing fn r g).flightsOf fn r = s.flightsOf fn r := by
    intro g
    cases r <;> rfl
  unfold ringDisable State.ringIdle
  dsimp only
  rw [if_neg (by simp [hd, not_foreign_admin ha]), modRing_ring, hl]
  rfl

/-- The coalescing timer raises the ring's vector for its unsignalled replies (R325). -/
theorem exec_interruptCoalesceTimer : (s.ring fn r).unsignalled ≠ 0 →
    exec (.interruptCoalesceTimer fn r) s = .next ((s.modRing fn r fun q => { q with unsignalled := 0 }).raise fn (match r with
      | none => 0
      | some r => if fn = 0 then 2 + r.val else r.val)) := by
  refine fun h => (if_neg h).trans ?_
  cases r with
  | none => rfl
  | some r => by_cases hf : fn = 0 <;> simp [hf]

end

/-- Settles O51: a ring starts or stops by its registers, and the timers go by what is unsignalled. -/
theorem ringsAndInterruptTimersComplete : Obligations.RingsAndInterruptTimersComplete := by
  refine ⟨fun fn r s hd ha => ⟨fun he hv hf => congrArg Host.Outcome.next (ringEnable_of_valid hd ha he hv hf),
      fun he hv => congrArg Host.Outcome.next (ringEnable_of_invalid hd ha he hv),
      congrArg Host.Outcome.next (ringDisable_eq hd ha)⟩,
    fun fn r s h => exec_interruptCoalesceTimer h, fun s h => ?_⟩
  simp only [exec, execEventVectorTimer, h, Bool.not_true, Bool.false_eq_true, if_false, apply_ite Host.Outcome.next]

/-! ### Doorbells -/

section
variable {fn : FnId} {r : Option RingId} {n : Nat} {s : State}

theorem hostDbSq_of_idle (h : (s.ring fn r).active = false ∨ n = (s.ring fn r).sqTail) : hostDbSq fn r n s = s :=
  if_pos (by simpa using h)

/-- A TAIL inside the ring that passes no entry not yet fetched is taken (R319). -/
theorem hostDbSq_of_ahead (ha : (s.ring fn r).active = true) (hn : n ≠ (s.ring fn r).sqTail) (hs : n < (s.ring fn r).sqSize)
    (hp : ((s.ring fn r).sqTail + (s.ring fn r).sqSize - (s.ring fn r).sqHead) % (s.ring fn r).sqSize ≤
      (n + (s.ring fn r).sqSize - (s.ring fn r).sqHead) % (s.ring fn r).sqSize) :
    hostDbSq fn r n s = s.modRing fn r fun q => { q with sqTail := n } :=
  (if_neg (by simpa [ha] using hn)).trans (if_neg (by
    simp only [Bool.or_eq_true, decide_eq_true_eq, not_or, Nat.not_le, Nat.not_lt]
    exact ⟨hs, hp⟩))

theorem hostDbSq_of_outside (ha : (s.ring fn r).active = true) (hn : n ≠ (s.ring fn r).sqTail) (hs : (s.ring fn r).sqSize ≤ n) :
    hostDbSq fn r n s = s.modRing fn r fun q => q.stop .badParam :=
  (if_neg (by simpa [ha] using hn)).trans (if_pos (by simp [hs]))

theorem hostDbRq_of_idle (h : (s.ring fn r).active = false) : hostDbRq fn r n s = s := if_pos (by simp [h])

/-- A reply doorbell frees the entries before HEAD (R319, R324). -/
theorem hostDbRq_of_written (ha : (s.ring fn r).active = true) (hn : n < (s.ring fn r).rqSize)
    (hf : (n + (s.ring fn r).rqSize - (s.ring fn r).rqHead) % (s.ring fn r).rqSize ≤ (s.ring fn r).rqHeld) :
    hostDbRq fn r n s = s.modRing fn r fun q => { q with
      rqHead := n
      rqHeld := q.rqHeld - (n + (s.ring fn r).rqSize - (s.ring fn r).rqHead) % (s.ring fn r).rqSize } :=
  if_neg (by
    simp only [ha, Bool.not_true, Bool.false_or, Bool.or_eq_true, decide_eq_true_eq, not_or, Nat.not_le, Nat.not_lt]
    exact ⟨hn, hf⟩)

theorem State.modRing_congr {g h : Ring → Ring} (e : g (s.ring fn r) = h (s.ring fn r)) : s.modRing fn r g = s.modRing fn r h := by
  cases r with
  | none =>
    unfold State.modRing
    dsimp only
    exact congrArg (fun q => { s with admin := q }) e
  | some r =>
    unfold State.modRing State.modHost vmod
    simp only [Fin.getElem_fin]
    exact congrArg (fun q => { s with host := s.host.set fn { s.host[fn.val] with rings := (s.host[fn.val]).rings.set r q } }) e

end

/-- Settles O52: each doorbell by where its index stands in the ring. -/
theorem doorbellsComplete : Obligations.DoorbellsComplete := by
  intro fn r x s hd q
  have hsq : ∀ {t}, hostDbSq fn r x.toNat s = t → exec (.hostDbSq fn r x) s = .next t := fun h =>
    congrArg Host.Outcome.next ((if_pos hd).trans h)
  have hrq : ∀ {t}, hostDbRq fn r x.toNat s = t → exec (.hostDbRq fn r x) s = .next t := fun h =>
    congrArg Host.Outcome.next ((if_pos hd).trans h)
  refine ⟨fun ha => ⟨hsq (hostDbSq_of_idle (.inl ha)), hrq (hostDbRq_of_idle ha)⟩,
    fun ha hn hs hp => hsq (hostDbSq_of_ahead ha hn hs hp), fun ha hn hs => hsq (hostDbSq_of_outside ha hn hs),
    fun ha hn => hsq (hostDbSq_of_idle (.inr hn)), fun ha hn hf => hrq ((hostDbRq_of_written ha hn hf).trans ?_)⟩
  exact State.modRing_congr rfl

/-! ### Acceptance -/

/-- Checks 5 to 9 follow on check 4 (Table CMND-7). -/
theorem acceptStatus_of_caller {op : Op} {k : Cmd} {s : State} (hf : s.faulted = false) (hw : s.hall.fwRunning = true)
    (hp : packetOk s k = true) (hc : callerOk s op k = true) (hq : k.ring = none ∨ (s.host[k.fn]).quiescing = false) :
    acceptStatus s op k =
      if asTenant op k then
        if !sessionOk s op k then some .notPermitted
        else if !k.tagOk then some .badTag
        else match s.session? k.fn k.session with
          | none => some .notPermitted
          | some x => if k.seq.toNat ≤ x.lastSeq || (k.seq == 0xFFFFFFFF && op != .closeSession) then some .sequence else none
      else if k.isSealed || k.session != 0 || k.tag != 0 then some .badParam
      else none := by
  have hq' : (k.ring.isSome && (s.host[k.fn]).quiescing) = false := by
    obtain h | h := hq <;> rw [h]
    · rfl
    · exact Bool.and_false _
  unfold acceptStatus
  simp only [hf, hw, hp, hc, hq', Bool.not_true, Bool.and_false, Bool.false_and, Bool.false_eq_true, if_false]
    <;> rfl

/-- Settles O54: each check is met once those before it are passed. -/
theorem acceptanceInTableOrder : Obligations.AcceptanceInTableOrder := by
  refine fun op k s hf hw => ⟨fun hp => ?_, fun hp hc => ?_, fun hp hc hr hq => ?_, fun hp hc hq ht => ⟨fun hs => ?_, fun hs hg => ?_⟩,
    fun hp hc hq ht => ?_⟩
  · simp [acceptStatus, hf, hw, hp]
  · simp [acceptStatus, hf, hw, hp, hc]
  · simp only [acceptStatus, hf, hw, hp, hc, hr, hq]
    rfl
  · rw [acceptStatus_of_caller hf hw hp hc hq, if_pos ht, hs]
    rfl
  · rw [acceptStatus_of_caller hf hw hp hc hq, if_pos ht, hs, hg]
    rfl
  · rw [acceptStatus_of_caller hf hw hp hc hq, if_neg (by rw [ht]; exact Bool.false_ne_true)]

/-! ### The fetch -/

section
variable {fn : FnId} {r : Option RingId} {packet : BitVec 512} {entry : BitVec 256} {payload : List Byte} {s : State}

theorem MayFetch.not_idle (h : MayFetch fn r s) :
    (!(s.ring fn r).active || (s.ring fn r).sqHead = (s.ring fn r).sqTail || !s.fetches fn r) = false := by
  obtain ⟨hf, ha, hm⟩ := h
  simp [hf, ha, hm]

/-- What becomes of a fetched command: `commandFetch_of_mayFetch` ties it to the fetch. Acceptance refuses it, or it is in flight,
where a sealed one's payload finds its staging frames (R326, R329). -/
def State.judged (s : State) (fn : FnId) (op : Op) (k : Cmd) : State :=
  match acceptStatus s op k with
  | some st => s.refuseAccept op k st
  | none => match (s.takeIn op k).allocT1 fn (.payload fn) (stagingFrames k) with
    | none => (s.takeIn op k).answer op k .noSpace 0 []
    | some t => t

/-- A fetch that ends without error passes the entry, and acceptance judges the command, opened first where it is sealed (R320,
R326, R329). -/
theorem commandFetch_of_mayFetch (h : MayFetch fn r s) :
    commandFetch fn r packet entry payload false false s =
      let k := parseCmd fn r packet entry payload
      let t := s.fetched fn r
      match Op.ofCode (packet.extractLsb' 0 16).toNat with
      | none => t.refuse .nop k (if t.faulted then .notPermitted else if t.hall.fwRunning then .badOpcode else .notReady)
      | some op => t.judged fn op (if k.isSealed then openSealed t packet k else k) := by
  unfold commandFetch
  dsimp only
  rw [h.not_idle, if_neg Bool.false_ne_true, if_neg Bool.false_ne_true]
  cases Op.ofCode (packet.extractLsb' 0 16).toNat with
  | none => rfl
  | some op =>
    simp only [Bool.not_false, Bool.and_true, Bool.and_false, Bool.false_eq_true, if_false]
    rfl

/-- An unsealed command takes no staging frames. -/
theorem State.allocT1_none (t : State) (u : FrameUse) : t.allocT1 fn u 0 = some t := by
  unfold State.allocT1 State.t1LimitOk
  simp [State.allocT1Many]

theorem State.judged_of_refused {op : Op} {k : Cmd} {st : Status} (h : acceptStatus s op k = some st) :
    s.judged fn op k = s.refuseAccept op k st := by
  unfold State.judged
  rw [h]

theorem State.judged_of_accepted {op : Op} {k : Cmd} (hk : k.isSealed = false) (h : acceptStatus s op k = none) :
    s.judged fn op k = s.takeIn op k := by
  unfold State.judged
  rw [h]
  dsimp only
  rw [show stagingFrames k = 0 by simp [stagingFrames, hk], State.allocT1_none]

theorem State.judged_eq (s : State) (op : Op) (k : Cmd) :
    s.judged fn op k = match acceptStatus s op k with
      | some st => s.refuseAccept op k st
      | none => ((s.takeIn op k).allocT1 fn (.payload fn) (stagingFrames k)).getD ((s.takeIn op k).answer op k .noSpace 0 []) := by
  unfold State.judged
  cases acceptStatus s op k with
  | some st => rfl
  | none => cases (s.takeIn op k).allocT1 fn (.payload fn) (stagingFrames k) <;> rfl

theorem State.fetched_hall (s : State) : (s.fetched fn r).hall = s.hall := by
  cases r <;> rfl

theorem State.fetched_faulted (s : State) : (s.fetched fn r).faulted = s.faulted := by
  cases r <;> rfl

end

/-- Settles O53: the fetch judges the command by acceptance, and answers what no table lists. -/
theorem commandFetchCompletes : Obligations.CommandFetchCompletes := by
  intro fn r packet entry payload s h k t
  have hx : ∀ {v}, commandFetch fn r packet entry payload false false s = v →
      exec (.commandFetch fn r packet entry payload false false) s = .next v := congrArg Host.Outcome.next
  refine ⟨fun e => congrArg Host.Outcome.next ?_, fun ho hf hw => hx ?_, fun op st ho hk ha => hx ?_, fun op ho hk ha => hx ?_,
    fun op ho hk => hx ?_⟩
  · exact (if_neg (by rw [h.not_idle]; exact Bool.false_ne_true)).trans (if_pos rfl)
  · rw [commandFetch_of_mayFetch h, ho]
    dsimp only
    rw [State.fetched_hall, State.fetched_faulted, hf, hw]
    rfl
  · rw [commandFetch_of_mayFetch h, ho]
    exact (congrArg (t.judged fn op) (if_neg (by rw [hk]; exact Bool.false_ne_true))).trans (State.judged_of_refused ha)
  · rw [commandFetch_of_mayFetch h, ho]
    exact (congrArg (t.judged fn op) (if_neg (by rw [hk]; exact Bool.false_ne_true))).trans (State.judged_of_accepted hk ha)
  · rw [commandFetch_of_mayFetch h, ho]
    exact (congrArg (t.judged fn op) (if_pos hk)).trans (State.judged_eq ..)

end Sys2Proof.Machine
end

section
/-! The near tier: scrubs, retrains, map-outs and repairs, and the end of an anneal (R45, R237 to R253, R305). -/

namespace Sys2Proof.Machine

/-! ### Map-outs and repairs -/

theorem finOfNat_val {n : Nat} [NeZero n] (i : Fin n) : Fin.ofNat n i.val = i := Fin.ext (Nat.mod_eq_of_lt i.isLt)

section
variable {k : Cmd} {c : ChanId} {b : Fin 16} {s t : State}

theorem State.stackBusy_eq_false_iff {i : StackId} :
    s.stackBusy i = false ↔ ∀ d : ChanId, chanStack d = i → (s.near.chans[d]).state.busy = false := by
  unfold State.stackBusy
  simp only [List.any_eq_false, List.mem_finRange, true_implies, Bool.and_eq_true, beq_iff_eq, not_and, Bool.not_eq_true]

theorem State.stackBusy_entered (op : Op) (i : StackId) : (s.entered op k).stackBusy i = s.stackBusy i := by
  unfold State.stackBusy
  rw [State.entered_near]

/-- The bank has a spare row, or the channel a spare column group, as the repair asks for. -/
theorem repair_spare_left {x : Chan} {kind : Nat} (hk : kind = 1 ∨ kind = 2) (hr : kind = 1 → x.spareRows[b] ≠ 0)
    (hc : kind = 2 → x.spareCols ≠ 0) :
    ((if kind = 1 then x.spareRows[b] else x.spareCols) == 0) = false := by
  rw [beq_eq_false_iff_ne]
  obtain rfl | rfl := hk
  · exact hr rfl
  · exact hc rfl

/-- Settles O27: the branch of each command is the one that its conditions leave open. -/
theorem stackMaintenanceCompletes : Obligations.StackMaintenanceCompletes := by
  refine ⟨⟨fun k bad c s t hr hp hc h0 hm hi ht => hostCmd_next hr rfl ?_ (Nat.zero_le _) ?_,
      fun k c s t hr hp hc h1 hm ht => hostCmd_next hr rfl ?_ (Nat.zero_le _) ?_⟩,
    fun k first c s hr hp hc => hostCmd_next hr rfl ?_ (Nat.zero_le _) ?_,
    fun k c b s hr hp hc hk hb hl => ⟨fun hh hs hrow hcol hd => hostCmd_next hr rfl ?_ (Nat.zero_le _) ?_,
      fun hh => hostCmd_next hr rfl ?_ (Nat.zero_le _) ?_⟩⟩
  · simp [hp, hc, h0]
  · have hb : bit (u k.p 2 1) 0 = false := by rw [h0]; rfl
    simp only [hc, hb, hm, finOfNat_val, hi, ht, Bool.false_eq_true, if_false]
  · simp [hp, hc, h1]
  · have hb : bit (u k.p 2 1) 0 = true := by rw [h1]; rfl
    simp only [hc, hb, hm, finOfNat_val, ht, if_true]
  · simp [hp, hc]
  · simp only [hc, finOfNat_val, State.entered_near]
  · obtain hk | hk := hk <;> simp [hp, hc, hk, hb]
  · simp only [hc, hb, finOfNat_val, State.entered_near, State.entered_bell, State.stackBusy_entered]
    rw [if_neg (by simpa using hh), if_neg (by simpa using hs), hl, if_neg Bool.false_ne_true, if_neg, if_neg]
    · rw [State.stackBusy_eq_false_iff.mpr hd]
      exact Bool.false_ne_true
    · rw [repair_spare_left hk hrow hcol]
      exact Bool.false_ne_true
  · obtain hk | hk := hk <;> simp [hp, hc, hk, hb]
  · simp only [hc, hb, finOfNat_val, State.entered_near, State.entered_ledger, State.ledgerWrite, State.entered_bell, hl]
    rw [if_pos (by simpa using hh)]
    rfl

end

/-! ### Scrubs -/

section
variable {c : ChanId} {errs : List (Fin 8 × BitVec 320)} {s : State}

theorem nearScrub_of_active (hs : s.stackOn c = true) (ha : (s.near.chans[c]).state = .active) (what : ScrubAt) (place : Nat) :
    nearScrub c what place errs s =
      let count := fun (s : State) (g : Option FnId) (unit : Nat) => errs.foldl (fun s b => s.countBeat g c unit b.1.val b.2) s
      let lost := errs.any fun b => beatLost b.2
      match what with
      | .page fn =>
        let (g, a) := s.resolve fn place
        match s.t1Addr g a with
        | none => s
        | some d => if lost then (((count s (some g) (d / 256)).loseT1 g a).1.pumpAll).settle else count s (some g) (d / 256)
      | .heat fn => if lost then ((((count s (some fn) place).functionFault fn)).pumpAll).settle else count s (some fn) place
      | .other => if lost then (count s none place).loseCopy place else count s none place := by
  unfold nearScrub
  rw [if_neg (by simpa [hs] using ha)]
    <;> rfl

/-- A scrub that meets no disturbance leaves everything as it is (R240). -/
theorem nearScrub_nil (hs : s.stackOn c = true) (ha : (s.near.chans[c]).state = .active) (what : ScrubAt) (place : Nat) :
    nearScrub c what place [] s = s := by
  rw [nearScrub_of_active hs ha]
  cases what with
  | page fn =>
    dsimp only
    split <;> rfl
  | heat fn => rfl
  | other => rfl

theorem beats_kept (h : ∀ e ∈ errs, beatLost e.2 = false) : (errs.any fun b => beatLost b.2) = false := by
  simpa [List.any_eq_false] using h

theorem beats_lost (h : ∃ e ∈ errs, beatLost e.2 = true) : (errs.any fun b => beatLost b.2) = true :=
  List.any_eq_true.mpr h

end

/-! ### Retrains -/

section
variable {c : ChanId} {s : State}

/-- A trigger on an active channel that does not wait yet: it retrains at once or waits for the one of its stack (R242). -/
theorem State.retrain_of_active (ha : (s.near.chans[c]).state = .active)
    (hw : (s.near.stks[chanStack c]).waiting.contains c = false) :
    s.retrain c = if s.stackBusy (chanStack c) then s.modStack (chanStack c) fun x => { x with waiting := x.waiting ++ [c] }
      else s.modChan c fun x => { x with state := .retraining, repaired := false } := by
  unfold State.retrain
  dsimp only
  rw [ha, hw, if_neg (by decide), if_neg (by decide)]

theorem State.stackBusy_of_busy {d : ChanId} (hd : chanStack d = chanStack c) (hb : (s.near.chans[d]).state.busy = true) :
    s.stackBusy (chanStack c) = true :=
  List.any_eq_true.mpr ⟨d, List.mem_finRange d, by simp only [hd, hb, beq_self_eq_true, Bool.and_self]⟩

theorem State.retrain_of_away (ha : (s.near.chans[c]).state ≠ .active) (hb : (s.near.chans[c]).state.busy = false) :
    s.retrain c = s := by
  unfold State.retrain
  dsimp only
  rw [hb, if_neg Bool.false_ne_true, if_pos (by rw [bne_iff_ne.mpr ha, Bool.true_or])]

end

/-- Settles O28: what a scrub meets decides what it does, and a trigger goes by the state of the channel and its stack. -/
theorem scrubRefreshAndRetrainsComplete : Obligations.ScrubRefreshAndRetrainsComplete := by
  refine ⟨⟨fun c fn a errs s hs ha => ?_, fun _ _ _ _ => rfl⟩, ⟨fun c s hs => ?_, fun c s hs => ?_, fun c n s hr ha => ?_, fun c s hr => ?_⟩,
    fun c s => ⟨fun ha hw hd => ?_, fun ha hw ⟨d, hd, hb⟩ => ?_, fun hb => if_pos hb, State.retrain_of_away⟩⟩
  · have hx : ∀ {what place l t}, nearScrub c what place l s = t → exec (.nearScrub c what place l) s = .next t :=
      congrArg Host.Outcome.next
    refine ⟨fun what place => hx (nearScrub_nil hs ha what place), fun g b d hg hd => ⟨fun h => hx ?_, fun h => hx ?_⟩,
      fun unit => ⟨fun h => hx ?_, fun h => hx ?_⟩, fun unit => ⟨fun h => hx ?_, fun h => hx ?_⟩⟩
    · simp only [nearScrub_of_active hs ha, hg, hd, beats_kept h, Bool.false_eq_true, if_false]
    · simp only [nearScrub_of_active hs ha, hg, hd, beats_lost h, if_true]
    · simp only [nearScrub_of_active hs ha, beats_kept h, Bool.false_eq_true, if_false]
    · simp only [nearScrub_of_active hs ha, beats_lost h, if_true]
    · simp only [nearScrub_of_active hs ha, beats_kept h, Bool.false_eq_true, if_false]
    · simp only [nearScrub_of_active hs ha, beats_lost h, if_true]
  · exact congrArg Host.Outcome.next (if_pos hs)
  · exact congrArg Host.Outcome.next (if_pos hs)
  · exact congrArg Host.Outcome.next (if_neg (by simpa [ha] using hr))
  · exact congrArg Host.Outcome.next (if_pos (by simpa using hr))
  · rw [State.retrain_of_active ha hw, State.stackBusy_eq_false_iff.mpr hd]
    rfl
  · rw [State.retrain_of_active ha hw, State.stackBusy_of_busy hd hb]
    rfl

/-- Settles O29: the run of the unit's anneal is the one that its completion ends and its bound escalates. -/
theorem annealsEndOrEscalate : Obligations.AnnealsEndOrEscalate := by
  refine ⟨fun x r s h => ?_, fun x r s h => ?_⟩
  · simp only [exec, execAnnealComplete, h]
  · simp only [exec, execAnnealBoundExpiry, h]

end Sys2Proof.Machine
end

section
/-! Links, cohorts and Hearth windows (R94 to R96, R348 to R373). -/

namespace Sys2Proof.Machine

/-! ### LINK_BRINGUP, LINK_STATUS and LANE_DIAG -/

/-- Settles O30: each command passes its checks, and its port is one of the module's. -/
theorem linkCommandsComplete : Obligations.LinkCommandsComplete := by
  refine ⟨fun k partners s hr hp h1 hn => hostCmd_next hr rfl ?_ (Nat.zero_le _) ?_,
    fun k p s hr hp h8 hc hq => hostCmd_next hr rfl ?_ hc ?_, fun k results p s hr hp h8 hc hq => hostCmd_next hr rfl ?_ hc ?_⟩
  · simp [hp, h1]
  · simp only [hn]
  · simp [hp, h8]
  · simp only [hq]
  · simp [hp, h8]
  · simp only [hq]

/-! ### Cohort policies and windows -/

/-- The number that one byte spells. -/
theorem u_one (l : List Byte) (off : Nat) : u l off 1 = (l.getD off 0).toNat := by
  have hd : l.getD off 0 = (l.drop off).getD 0 0 := by simp [List.getD_eq_getElem?_getD]
  rw [hd]
  unfold u slice
  cases l.drop off with
  | nil => rfl
  | cons b bs => simp [fit, leNat]

/-- The first byte of a parameter block that holds nothing is zero. -/
theorem u_of_plain_nil {k : Cmd} (h : plain k [] = true) : u k.p 0 1 = 0 := by
  have hz : zeroOutside k.p 32 [] = true := (Bool.and_eq_true_iff.mp h).1
  have h0 : k.p.getD 0 0 = 0 := by simpa using List.all_eq_true.mp hz 0 (List.mem_range.mpr (by omega))
  rw [u_one, h0]
  rfl

/-- Settles O31: a policy goes by its first failing check, a leave and the windows by what they name. -/
theorem cohortAndWindowCommandsComplete : Obligations.CohortAndWindowCommandsComplete := by
  refine ⟨⟨fun k t s hr hp ht => hostCmd_next hr rfl hp (Nat.zero_le _) ?_,
      fun k r s hr hk hp ha => hostCmd_next hr rfl ?_ (Nat.zero_le _) ?_,
      fun k fn s hr hk hp hf ha => hostCmd_next hr rfl ?_ (Nat.zero_le _) ?_⟩,
    fun k m mf i s hr hp hlo hhi hn he hw hi => hostCmd_next hr rfl ?_ (Nat.zero_le _) ?_,
    fun k f w s hr hp hd hw hf => hostCmd_next hr (if_neg (by rw [hd]; exact Bool.false_ne_true)) hp (Nat.zero_le _) ?_,
    fun h f w s hw => congrArg Host.Outcome.next ?_⟩
  · rw [ht]
      <;> rfl
  · simp [hk, hp, u_of_plain_nil hp]
  · simp only [hk, Option.isNone_some, Bool.false_eq_true, if_false, State.entered_fns, ha]
  · simp [hk, hp, hf]
  · simp only [hk, Option.isNone_none, if_true, hf, fnOf_val, Option.getD_some, State.entered_fns, ha, Bool.false_eq_true, if_false]
  · simp [hp, hlo, hhi, hn, he]
  · simp only [hw, hi]
  · simp only [hw, hf, bne_self_eq_false, Bool.false_eq_true, if_false]
  · rw [hw]

end Sys2Proof.Machine
end

section
/-! Frames, link timers and keys (R348 to R357). -/

namespace Sys2Proof.Machine

/-! ### Parts of a port -/

theorem vmod_vmod {α : Type} {n : Nat} (v : Vector α n) (i : Fin n) (g h : α → α) : vmod (vmod v i g) i h = vmod v i fun x => h (g x) := by
  ext j hj
  have hf : ∀ w : Vector α n, w[j] = w[(⟨j, hj⟩ : Fin n)] := fun _ => rfl
  rw [hf, hf, vmod_get, vmod_get, vmod_get]
  split
  · next hij => subst hij; rfl
  · rfl

theorem State.modPort_modPort (s : State) (p : PortId) (g h : Port → Port) : (s.modPort p g).modPort p h = s.modPort p fun q => h (g q) := by
  unfold State.modPort
  dsimp only
  rw [vmod_vmod]

/-- Which side a module is on goes by the partner's key alone (R355). -/
theorem State.sideA_modPort (s : State) (p : PortId) {g : Port → Port} (hg : ∀ q, (g q).partnerKey = q.partnerKey) :
    (s.modPort p g).sideA p = s.sideA p := by
  unfold State.sideA
  rw [modPort_ports, vmod_same, hg]

theorem State.sideA_sendKey (s : State) (p : PortId) (n : Nat) (body : List Byte) : (s.sendKey p n body).sideA p = s.sideA p := by
  unfold State.sendKey State.sendRecord
  rw [State.modPort_modPort, State.sideA_modPort]
  exact fun _ => rfl

/-! ### Frames -/

theorem Logs.ports {s t : State} (h : Logs s t) : t.ports = s.ports := by
  obtain ⟨⟨_, _, _, rfl⟩, -⟩ := h
  rfl

theorem State.foldl_log_ports {α : Type} (l : List α) (code : α → Nat) (fn : α → Option FnId) (source : α → Nat) (data : α → List Byte)
    (s : State) : (l.foldl (fun s a => s.log (code a) (fn a) (source a) (data a)) s).ports = s.ports := by
  induction l generalizing s with
  | nil => rfl
  | cons a l ih => rw [List.foldl_cons, ih, (State.log_logs ..).ports]

/-- A port that is fenced stays so through what is logged of it (R357). -/
theorem State.fence_state (s : State) (p : PortId) (kase : Nat) : ((s.fence p kase).ports[p]).state = .fenced := by
  unfold State.fence
  dsimp only
  rw [State.foldl_log_ports, (State.log_logs ..).ports, modPort_ports, vmod_same]

section
variable {p : PortId} {seq ack : Nat} {retry tagOk : Bool} {errs : List (Fin 8 × Fin 280 × BitVec 8)} {s : State}

theorem frame_of_carries (h : s.carries p = true) :
    frame p seq ack retry tagOk errs s =
      let t := s.modPort p (·.fecCounts errs)
      let done := ((s.ports[p]).rxSeq + 4097 - seq) % 4096
      if 8 ≤ done then (if seqGap seq (((s.ports[p]).rxSeq + 1) % 4096) then t.modPort p fun q => { q with again := true } else t)
      else match (fecDiscards errs).find? (done ≤ ·) with
        | some i => t.modPort p fun q => { q with rxSeq := (seq + i + 4095) % 4096, again := true }
        | none =>
          if tagOk && !fecWrong errs done then t.modPort p (·.takeFrame seq ack retry)
          else (t.modPort p fun q => { q with rxSeq := (seq + 4095) % 4096 }).frameFails p := by
  unfold frame
  dsimp only
  rw [h, if_neg (by decide)]
    <;> rfl

/-- The second failure of the same frame fences the port, under case 3 (R357). -/
theorem State.frameFails_of_failed (h : (s.ports[p]).failedFrame = some (s.ports[p]).frameRx) : ((s.frameFails p).ports[p]).state = .fenced := by
  unfold State.frameFails
  dsimp only
  rw [if_pos (by rw [h, beq_self_eq_true])]
  exact State.fence_state ..

end

/-- Settles O32: a frame is dropped, cut, taken or refused by where it starts and what its decoders and its tag say. -/
theorem frameCompletes : Obligations.FrameCompletes := by
  intro p seq ack retry tagOk data check s hc errs t done t'
  have hx : ∀ {v}, frame p seq.toNat ack.toNat retry tagOk errs s = v →
      exec (.frame p seq ack retry tagOk data check) s = .next v.settle := fun h => congrArg (fun v => Host.Outcome.next (State.settle v)) h
  refine ⟨fun h => hx ?_, fun h => hx ?_, fun h => State.frameFails_of_failed ?_⟩
  · rw [frame_of_carries hc]
    exact if_pos h
  · rw [frame_of_carries hc]
    exact (if_neg (Nat.not_le.mpr h)).trans rfl
  · have ht : t'.ports[p] = { (s.ports[p]) with
        fecCorr := satAdd 32 (s.ports[p]).fecCorr (fecCorrected errs)
        fecUncorr := satAdd 32 (s.ports[p]).fecUncorr (fecDiscards errs).length
        rxSeq := (seq.toNat + 4095) % 4096 } := by
      simp only [t', t, modPort_ports, vmod_same]
    rw [ht]
    exact h

/-! ### Lane retrains and link timers -/

theorem lane_bit_ne_zero (x : BitVec 16) (l : Fin 16) : x ||| (1#16 <<< l.val) ≠ 0 := by
  intro h
  have := congrArg (BitVec.getLsbD · l.val) h
  simp at this

/-- A port one of whose lanes retrains carries nothing (R354). -/
theorem State.carries_retraining (s : State) (p : PortId) (l : Fin 16) :
    (s.modPort p fun q => { q with retraining := q.retraining ||| (1#16 <<< l.val) }).carries p = false := by
  unfold State.carries
  rw [modPort_ports, vmod_same]
  simp only [beq_eq_false_iff_ne.mpr (lane_bit_ne_zero _ l), Bool.and_false]

/-! ### Keys in traffic -/

section
variable {p : PortId} {m : Nat} {body : List Byte} {s : State}

/-- A KEY record in turn, from the other side and in order, takes its effect (R356). -/
theorem key_of_fits (hc : s.carries p = true) (hm : (s.ports[p]).rekey = m) (hf : (s.ports[p]).keyFault m body = none) :
    key p m body s = if s.sideA p == (m % 2 == 0) then s else
      let t := s.modPort p fun q => { q with kexLog := (if m = 0 then [] else q.kexLog) ++ body }
      if m = 0 then (t.draw.2.modPort p fun q => { q with kexSecret := (Config.kemEncap t.draw.1 body).2 }).sendKey p 1 (Config.kemEncap t.draw.1 body).1
      else if m = 1 then
        let v := t.modPort p fun q => { q with kexSecret := Config.kemDecap q.kexDk body }
        v.sendKey p 2 (v.ports[p]).proof
      else
        let v := if m = 2 then t.sendKey p 3 (t.ports[p]).proof else t
        v.modPort p fun q => q.rekeyed (s.sideA p) q.kexSecret q.kexLog := by
  subst hm
  unfold key
  dsimp only
  rw [hc, bne_self_eq_false, Bool.not_true, Bool.false_or, Bool.false_or, hf]
  split
  · rfl
  · dsimp only
    split
    · rfl
    · split
      · rfl
      · split
        · rw [State.sideA_sendKey, State.sideA_modPort]
          exact fun _ => rfl
        · rw [State.sideA_modPort]
          exact fun _ => rfl

theorem key_of_fault {kase : Nat} (hc : s.carries p = true) (hm : (s.ports[p]).rekey = m) (hf : (s.ports[p]).keyFault m body = some kase) :
    key p m body s = if s.sideA p = (m % 2 == 0) then s else s.fence p kase := by
  subst hm
  unfold key
  dsimp only
  rw [hc, bne_self_eq_false, Bool.not_true, Bool.false_or, Bool.false_or, hf]
  exact if_congr beq_iff_eq rfl rfl

theorem keyFault_none_of_0 {q : Port} (h : body.length = 1184) : q.keyFault 0 body = none := by
  simp [Port.keyFault, h]

theorem keyFault_none_of_1 {q : Port} (h : body.length = 1088) : q.keyFault 1 body = none := by
  simp [Port.keyFault, h]

theorem keyFault_none_of_proof {q : Port} (hm : m = 2 ∨ m = 3) (h : body = q.proof) : q.keyFault m body = none := by
  obtain rfl | rfl := hm <;> simp [Port.keyFault, h]

end

/-- Settles O33: a lane, a timer and a key message each act where their conditions hold. -/
theorem linkTimersAndKeysComplete : Obligations.LinkTimersAndKeysComplete := by
  refine ⟨fun p l code s hu hl hr => ⟨congrArg Host.Outcome.next (if_neg ?_), s.carries_retraining p l⟩,
    fun p l s hu ha => congrArg Host.Outcome.next (if_neg ?_), fun p l s hu hr => congrArg Host.Outcome.next (if_pos ?_),
    fun p s hc hn => congrArg Host.Outcome.next (if_neg ?_), fun p s h => congrArg Host.Outcome.next (if_pos h),
    fun p s hu hk => congrArg Host.Outcome.next ?_, fun p m body s hc hm => ?_⟩
  · rw [hu, hl, hr]
    decide
  · rw [hu, ha]
    decide
  · rw [hu, hr]
    decide
  · simpa [hc] using hn
  · simp only [hu, hk, beq_self_eq_true, decide_true, Bool.true_and]
  · have hx : ∀ {v}, key p m.val body s = v → exec (.key p m body) s = .next v.settle :=
      fun h => congrArg (fun v => Host.Outcome.next (State.settle v)) h
    refine ⟨fun h0 hb => hx ?_, fun h1 hb => hx ?_, fun h2 hb => hx ?_, fun h3 hb => hx ?_, fun kase hk => ?_⟩
    · rw [key_of_fits hc hm (by rw [h0]; exact keyFault_none_of_0 hb), h0]
      simp
    · rw [key_of_fits hc hm (by rw [h1]; exact keyFault_none_of_1 hb), h1]
      cases hs : s.sideA p
      · rfl
      · simp [State.modPort_modPort]
    · rw [key_of_fits hc hm (keyFault_none_of_proof (.inl h2) hb), h2]
      cases hs : s.sideA p
      · rfl
      · rfl
    · rw [key_of_fits hc hm (keyFault_none_of_proof (.inr h3) hb), h3]
      cases hs : s.sideA p
      · rfl
      · rfl
    · exact congrArg (fun v => Host.Outcome.next (State.settle v)) (key_of_fault hc hm hk)

end Sys2Proof.Machine
end

section
/-! Records of a cohort's links: data, windows and distributed commits (R300 to R303, R362 to R367). -/

namespace Sys2Proof.Machine

/-- A record that an admitted partner sends to a function takes its effect, and the function's moulds go on (R362). -/
theorem onRecord_of_carries {p : PortId} {m : Msg} {fn : FnId} {body : FnId → State → State} {s t : State} (hc : s.carries p = true)
    (hf : s.msgFn p m = some fn) (hb : body fn s = t) : onRecord p m body s = .next (t.goOn fn) := by
  subst hb
  unfold onRecord
  rw [hc, hf]
  rfl

/-- Equal states are equal once they have settled. -/
theorem next_settle {a b : State} (h : a = b) : (Host.Outcome.next a.settle : Res) = .next b.settle := h ▸ rfl

/-! ### Data, credits, requests and digests -/

section
variable {p : PortId} {m : Msg} {fn : FnId} {x : Mould} {s : State}

/-- A first DATA record is an answer or an entry's data, by bit 2 of its flags (R364, R366). -/
theorem data_of_first (hx : FromPeer p m fn x s) {e : XferEntry} {i : Nat} (hr : x.recvFor m = some (e, i)) (h0 : m.flags.getLsbD 0 = false) :
    data p m fn s = if m.flags.getLsbD 2 then s.answered fn p x i e m
      else if s.dataFits fn x i e m then s.accept fn x i m (if m.flags.getLsbD 1 then some m.sub.toNat else none)
      else s.mismatch fn p m := by
  unfold data
  rw [hx.mould]
  dsimp only
  rw [hx.peer, hr]
  dsimp only
  rw [h0]
  rfl

theorem State.answered_of_requested {i : Nat} {e : XferEntry} {r : Running} (hr : x.run = some r) (hi : r.index = m.step.toNat)
    (hq : r.requested.contains i = true) (hl : (s.fns[fn]).logged x.id i m.step.toNat = false) :
    s.answered fn p x i e m = if m.body.isEmpty then s.endStep fn x.id .timeout
      else if m.body.length = e.length then s.accept fn x i m none else s.mismatch fn p m := by
  unfold State.answered
  rw [hr]
  dsimp only
  rw [hi, hq, hl, bne_self_eq_false]
  refine (if_neg Bool.false_ne_true).trans (if_congr Iff.rfl rfl ?_)
  by_cases h : m.body.length = e.length
  · rw [if_pos h, if_neg (by simp [h])]
  · rw [if_neg h, if_pos (by simp [h])]

theorem credit_of_fromPeer (hx : FromPeer p m fn x s) (hd : m.dst.toNat = x.selfPos) : credit p m fn s = credit.add m fn s := by
  unfold credit
  rw [hx.mould]
  dsimp only
  rw [hx.peer, hd, beq_self_eq_true]
  rfl

theorem request_of_sendFor (hx : FromPeer p m fn x s) {e : XferEntry} (he : x.sendFor m = some e) :
    request p m fn s = (s.requested fn x e m.step.toNat).1.sendTo fn x m.src.toNat 1 0 m.step.toNat m.seq.toNat 4 e.format
      (s.requested fn x e m.step.toNat).2 := by
  unfold request
  rw [hx.mould]
  dsimp only
  rw [hx.peer, he]
  rfl

theorem onHeld_of_fromPeer (hx : FromPeer p m fn x s) (g : (LogMsg → Bool) → List LogMsg → List LogMsg) :
    onHeld p m g fn s = s.modFn fn fun f => { f with recvLog := g (x.holds m) f.recvLog } := by
  unfold onHeld
  rw [hx.mould]
  dsimp only
  rw [hx.peer]
  rfl

theorem digest_of_cohort (hx : FromPeer p m fn x s) (hl : m.body.length = 64) (hd : m.body.drop 32 = digestBytes x.cohortDigest) :
    digest p m fn s =
      let y := x.checkPeer m.src.toNat (toDigest (m.body.take 32))
      let t := (s.modMould fn x.id fun _ => y).modFn fn fun f =>
        { f with earlyDigests := f.earlyDigests.filter (·.1 != (s.ports[p]).partnerChip.toNat) }
      if y.wrongSet then t.endStep fn x.id .integrity else t := by
  unfold digest
  rw [hx.mould]
  dsimp only
  rw [hx.peer, hl, hd, beq_self_eq_true, beq_self_eq_true]
  rfl

end

/-- Settles O34: each kind of record takes its effect on the mould that its peer sends it to. -/
theorem dataRecordsComplete : Obligations.DataRecordsComplete := by
  refine ⟨fun p m fn x e i s hx hr => ⟨fun h0 h2 hfit => ?_, fun r h0 h2 hrun hi hq hl => ?_⟩,
    fun p m fn x s hx => ⟨fun hd => ?_, fun e he => ?_, ?_, ?_, fun hl hd => ?_⟩⟩
  · refine onRecord_of_carries hx.carries hx.func ?_
    rw [data_of_first hx hr h0, h2, hfit]
    rfl
  · refine onRecord_of_carries hx.carries hx.func ?_
    rw [data_of_first hx hr h0, h2]
    exact State.answered_of_requested hrun hi hq hl
  · exact onRecord_of_carries hx.carries hx.func (credit_of_fromPeer hx hd)
  · exact onRecord_of_carries hx.carries hx.func (request_of_sendFor hx he)
  · exact onRecord_of_carries hx.carries hx.func (onHeld_of_fromPeer hx _)
  · exact onRecord_of_carries hx.carries hx.func (onHeld_of_fromPeer hx _)
  · exact onRecord_of_carries hx.carries hx.func (digest_of_cohort hx hl hd)

/-! ### Windows -/

section
variable {p : PortId} {m : Msg} {fn : FnId} {s : State}

theorem windowReq_of_window {f : ForgeId} {w : Window} (h : s.windowOf (u m.body 8 2) = some (f, w)) :
    windowReq p m fn s = if windowAdmits (s.ports[p]) fn w m = false then s.refuseRequest p m
      else (s.windowTry f { port := p, win := w, msg := m }).getD
        (s.modForge f fun y => { y with winWait := y.winWait ++ [{ port := p, win := w, msg := m }] }) := by
  unfold windowReq
  dsimp only
  rw [h]
  dsimp only
  cases windowAdmits (s.ports[p]) fn w m
  · rfl
  · rw [if_neg (by decide), if_neg (by decide)]
    cases s.windowTry f { port := p, win := w, msg := m } <;> rfl

theorem windowReq_of_none (h : s.windowOf (u m.body 8 2) = none) : windowReq p m fn s = s.refuseRequest p m := by
  unfold windowReq
  dsimp only
  rw [h]

/-- The answer to a request of the running step goes by its SUB (R367). -/
theorem windowResp_of_sent {x : Mould} (hx : FromPeer p m fn x s) {r : Running} {i : Nat} (hr : x.run = some r)
    (hi : r.index = m.step.toNat) (hs : x.sends.findIdx? (fun e => e.peer == m.src.toNat && e.sequence == m.seq.toNat) = some i)
    (hq : r.sent.contains i = true) :
    windowResp p m fn s = if m.sub == 1 then s.endStep fn x.id .notPermitted
      else if m.sub == 2 then s.endStep fn x.id .slotTimeout
      else match x.recvs.findIdx? (fun e => e.peer == m.src.toNat && e.sequence == m.seq.toNat) with
        | some j => if m.body.isEmpty || (s.fns[fn]).logged x.id j m.step.toNat then s else s.accept fn x j m none
        | none => s := by
  unfold windowResp
  rw [hx.mould]
  dsimp only
  rw [hr, hs]
  dsimp only
  rw [hx.peer, hi, hq, bne_self_eq_false]
  rfl

end

/-- Settles O35: a request goes by what its window admits, an answer by its SUB. -/
theorem windowRecordsComplete : Obligations.WindowRecordsComplete := by
  refine ⟨fun p m fn s hc hf => ⟨fun f w hw ha => ?_, fun f w hw ha => ?_, fun hw => ?_⟩,
    fun p m fn x r i s hx hr hi hs hq => ⟨fun h1 => ?_, fun h2 => ?_, fun j h0 hj hb hl => ?_⟩⟩
  · exact onRecord_of_carries hc hf ((windowReq_of_window hw).trans (if_neg (by rw [ha]; decide)))
  · exact onRecord_of_carries hc hf ((windowReq_of_window hw).trans (if_pos ha))
  · exact onRecord_of_carries hc hf (windowReq_of_none hw)
  · refine onRecord_of_carries hx.carries hx.func ((windowResp_of_sent hx hr hi hs hq).trans ?_)
    rw [h1]
    rfl
  · refine onRecord_of_carries hx.carries hx.func ((windowResp_of_sent hx hr hi hs hq).trans ?_)
    rw [h2]
    rfl
  · refine onRecord_of_carries hx.carries hx.func ((windowResp_of_sent hx hr hi hs hq).trans ?_)
    have hn : ¬(m.body.isEmpty || (s.fns[fn]).logged x.id j m.step.toNat) = true := by
      rw [hl, List.isEmpty_eq_false_iff.mpr hb]
      decide
    rw [h0, hj]
    exact if_neg hn

/-! ### Distributed commits -/

section
variable {p : PortId} {m : Msg} {fn : FnId} {x : Mould} {b : Nat} {s : State}

theorem votePrepared_of_turn (hx : HeatRecord p m fn x b s) (hc : x.coordinator = x.selfPos) (hs : m.step.toNat = x.nextStep)
    (hd : ((s.fns[fn]).decisions.any fun d => d.mould == x.id && d.bound == b && d.step == m.step.toNat && d.commit) = false) :
    votePrepared p m fn s =
      let v : Vote := { mould := x.id, bound := b, step := m.step.toNat, pos := m.src.toNat }
      let t := s.modFn fn fun f => { f with votes := if f.votes.contains v then f.votes else f.votes ++ [v] }
      match (t.fns[fn]).stepHeat x.id b m.step.toNat with
      | some h => t.tryDecide fn h.1
      | none => t := by
  unfold votePrepared
  rw [hx.heat]
  dsimp only
  rw [hd, hc, hs, bne_self_eq_false, bne_self_eq_false]
  rfl

theorem voteScrap_of_heat (hx : HeatRecord p m fn x b s) (hc : x.coordinator = x.selfPos) {h : Fin 32 × Heat}
    (hh : (s.fns[fn]).stepHeat x.id b m.step.toNat = some h) : voteScrap p m fn s = s.decide fn h.1 x b m.step.toNat false := by
  unfold voteScrap
  rw [hx.heat]
  dsimp only
  rw [hc, bne_self_eq_false, hh]
  rfl

theorem query_of_decision (hx : HeatRecord p m fn x b s) (hc : x.coordinator = x.selfPos) {d : Decision}
    (hd : ((s.fns[fn]).decisions.find? fun d => d.mould == x.id && d.bound == b && d.step == m.step.toNat) = some d) :
    query p m fn s = s.sendHeat fn x m.src.toNat (if d.commit then 3 else 4) b m.step.toNat := by
  unfold query
  rw [hx.heat]
  dsimp only
  rw [hc, bne_self_eq_false, hd]
  rfl

theorem onDecision_of_heat (hx : HeatRecord p m fn x b s) (hc : m.src.toNat = x.coordinator) {h : Fin 32 × Heat}
    (hh : (s.fns[fn]).stepHeat x.id b m.step.toNat = some h) (fits : Heat → Bool) (past : Mould → Nat → Bool)
    (act : Fin 32 × Heat → Mould → Nat → State → State) :
    onDecision p m fits past act fn s = if fits h.2 then (act h x b s).sendHeat fn x x.coordinator 5 b m.step.toNat else s.badHeat fn p := by
  unfold onDecision
  rw [hx.heat]
  dsimp only
  rw [hc, bne_self_eq_false, hh]
  rfl

theorem ack_eq (hx : HeatRecord p m fn x b s) :
    ack p m fn s =
      let is := fun (d : Decision) => d.mould == x.id && d.bound == b && d.step == m.step.toNat
      match (s.fns[fn]).decisions.find? fun d => is d && d.waiting.contains m.src.toNat with
      | none => s.badHeat fn p
      | some d => s.modFn fn fun f => { f with
        journal := f.journal ++ [{ kind := 0x0C, slot := d.slot, index := (f.records d.slot d.heat).length, heat := d.heat
                                   payload := fit 12 (toLe 2 (s.ports[p]).partnerChip.toNat) }]
        decisions := (f.decisions.map fun d => if is d then { d with waiting := d.waiting.filter (· != m.src.toNat) }
          else d).filter fun d => !d.waiting.isEmpty } := by
  unfold ack
  rw [hx.heat]
  rfl

/-- A prepared participant asks its coordinator where the coordinator's port is UP (R302). -/
theorem inDoubtQuery_of_prepared {slot : Fin 32} {h : Heat} {id : BitVec 64} {mo : Mould} {q : PortId} (hh : (s.fns[fn]).heat slot = some h)
    (ho : h.origin = .step id b) (hm : (s.fns[fn]).mould? id = some mo) (hs : h.state = .prepared) (hp : s.portOf mo mo.coordinator = some q)
    (hu : (s.ports[q]).state = .up) : inDoubtQuery fn slot s = s.sendHeat fn mo mo.coordinator 6 b h.stepIndex := by
  unfold inDoubtQuery
  rw [hh]
  dsimp only
  rw [ho]
  dsimp only
  rw [hm]
  dsimp only
  rw [hp, hs]
  exact if_pos (by simpa using hu)

end

/-- Settles O36: each record of a distributed commit acts on the heat that its identifiers match. -/
theorem commitRecordsComplete : Obligations.CommitRecordsComplete := by
  refine ⟨fun p m fn x b s hx hc => ⟨fun hs hd => ?_, fun h hh => ?_, fun d hd => ?_⟩,
    fun p m fn x b h s hx hc hh => ⟨fun hs => ?_, fun hs => ?_, ?_⟩, fun p m fn x b s hx => ⟨fun d hd => ?_, fun hd => ?_⟩,
    fun fn slot h id b m p s hh ho hm hs hp hu => congrArg Host.Outcome.next (inDoubtQuery_of_prepared hh ho hm hs hp hu)⟩
  · exact onRecord_of_carries hx.carries hx.func (votePrepared_of_turn hx hc hs hd)
  · exact onRecord_of_carries hx.carries hx.func (voteScrap_of_heat hx hc hh)
  · exact onRecord_of_carries hx.carries hx.func (query_of_decision hx hc hd)
  · exact onRecord_of_carries hx.carries hx.func ((onDecision_of_heat hx hc hh _ _ _).trans (if_pos (by rw [hs, beq_self_eq_true])))
  · exact onRecord_of_carries hx.carries hx.func ((onDecision_of_heat hx hc hh _ _ _).trans (if_neg (by simpa using hs)))
  · exact onRecord_of_carries hx.carries hx.func ((onDecision_of_heat hx hc hh _ _ _).trans (if_pos rfl))
  · refine onRecord_of_carries hx.carries hx.func ((ack_eq hx).trans ?_)
    dsimp only
    rw [hd]
  · refine onRecord_of_carries hx.carries hx.func ((ack_eq hx).trans ?_)
    dsimp only
    rw [hd]

end Sys2Proof.Machine
end

section
/-! One atomic on an old value (Table HRTH-3). -/

namespace Sys2Proof.Machine

/-- An atomic minimum or maximum stores one of its two values. -/
theorem atomicOp_minMax (op : Nat) (h : op = 2 ∨ op = 3) (wide signed : Bool) (old x cmp : Nat) :
    (atomicOp op wide signed old x cmp).1 = old ∨ (atomicOp op wide signed old x cmp).1 = x := by
  obtain rfl | rfl := h <;> exact (ite_eq_or_eq _ _ _).symm

/-- The signed minimum is the minimum of the values that the words stand for. -/
theorem sext_atomicOp_min (wide : Bool) (old x cmp : Nat) :
    let w := if wide then 64 else 32
    sext w (atomicOp 2 wide true old x cmp).1 = min (sext w old) (sext w x) := by
  intro w
  have h : (atomicOp 2 wide true old x cmp).1 = if sext w x < sext w old then x else old := rfl
  rw [h]
  split
  · next hlt => exact (min_eq_right hlt.le).symm
  · next hge => exact (min_eq_left (not_lt.mp hge)).symm

/-- The signed maximum is the maximum of the values that the words stand for. -/
theorem sext_atomicOp_max (wide : Bool) (old x cmp : Nat) :
    let w := if wide then 64 else 32
    sext w (atomicOp 3 wide true old x cmp).1 = max (sext w old) (sext w x) := by
  intro w
  have h : (atomicOp 3 wide true old x cmp).1 = if sext w old < sext w x then x else old := rfl
  rw [h]
  split
  · next hlt => exact (max_eq_right hlt.le).symm
  · next hge => exact (max_eq_left (not_lt.mp hge)).symm

theorem atomicOp_min_unsigned (wide : Bool) (old x cmp : Nat) : atomicOp 2 wide false old x cmp = (min old x, false) := by
  have h : atomicOp 2 wide false old x cmp = (if x < old then x else old, false) := rfl
  rw [h]
  split
  · next hlt => rw [min_eq_right hlt.le]
  · next hge => rw [min_eq_left (not_lt.mp hge)]

theorem atomicOp_max_unsigned (wide : Bool) (old x cmp : Nat) : atomicOp 3 wide false old x cmp = (max old x, false) := by
  have h : atomicOp 3 wide false old x cmp = (if old < x then x else old, false) := rfl
  rw [h]
  split
  · next hlt => rw [max_eq_right hlt.le]
  · next hge => rw [max_eq_left (not_lt.mp hge)]

/-- Settles O49: each operation by its line of Table HRTH-3. -/
theorem atomicOperations : Obligations.AtomicOperations := by
  intro wide signed old x cmp w ho hx _
  refine ⟨rfl, fun op hop => ?_, atomicOp_min_unsigned .., atomicOp_max_unsigned .., sext_atomicOp_min .., sext_atomicOp_max ..,
    Nat.xor_lt_two_pow ho hx, fun i => Nat.testBit_xor .., fun h => if_pos h, fun h => if_neg h⟩
  obtain h | h := atomicOp_minMax op hop wide signed old x cmp
  · rw [h]
    exact ho
  · rw [h]
    exact hx

end Sys2Proof.Machine
end

section
/-! Moulds, runs and step gates (R40, R51, R308, R336 to R338). -/

namespace Sys2Proof.Machine

/-- A byte outside the fields of a parameter block that is zero outside them is zero. -/
theorem u_of_plain {k : Cmd} {fields : List (Nat × Nat)} {i : Nat} (h : plain k fields = true) (hi : i < 32)
    (ho : (fields.any fun f => f.1 ≤ i && i < f.1 + f.2) = false) : u k.p i 1 = 0 := by
  have hz : zeroOutside k.p 32 fields = true := (Bool.and_eq_true_iff.mp h).1
  have h0 := List.all_eq_true.mp hz i (List.mem_range.mpr hi)
  rw [ho, Bool.false_or, beq_iff_eq] at h0
  rw [u_one, h0]
  rfl

/-! ### Commands of moulds -/

/-- Settles O37: each command passes its checks, and its mould is installed. -/
theorem runCommandsComplete : Obligations.RunCommandsComplete := by
  refine ⟨fun k s hr hp => hostCmd_next hr rfl hp (Nat.zero_le _) rfl,
    fun op k c m s hc hr hp hn hq hm hl hf hlen => ?_,
    fun k r s hr hk hp hm hd => hostCmd_next hr rfl ?_ (Nat.zero_le _) ?_,
    fun k fn s hr hk hp hf hm hd => hostCmd_next hr rfl ?_ (Nat.zero_le _) ?_,
    fun k m s hr hp hc hm hl => hostCmd_next hr rfl hp hc ?_⟩
  · rw [exec_runCommand s hc]
    refine hostCmd_next hr (if_neg (by rw [State.entered_fns, hq]; exact Bool.false_ne_true)) hp hn ?_
    dsimp only
    rw [State.entered_fns, hm]
    dsimp only
    rw [hl, hf, if_neg (by decide), if_neg (by decide), if_neg (by omega)]
  · rw [hk, u_of_plain hp (by decide) rfl]
    exact hp.symm ▸ rfl
  · unfold runMould at hm hd
    simp only [hk, Option.isNone_some, Bool.false_eq_true, if_false, State.entered_fns, State.entered_deferred]
    exact (if_neg (by simpa [Option.isSome_iff_ne_none] using hm)).trans (if_neg (by simpa using hd))
  · simp [hk, hp, hf]
  · unfold runMould at hm hd
    simp only [hk, Option.isNone_none, if_true, hf, fnOf_val, Option.getD_some, State.entered_fns, State.entered_deferred]
    exact (if_neg (by simpa [Option.isSome_iff_ne_none] using hm)).trans (if_neg (by simpa using hd))
  · dsimp only
    rw [State.entered_fns, hm]
    dsimp only
    rw [hl]
    rfl

/-! ### Step gates -/

section
variable {fn : FnId} {id : BitVec 64} {m : Mould} {c : RunCmd} {q : List RunCmd} {s : State}

/-- The gate of a queued step that does not run yet. -/
theorem stepGateOpen_of_queued (hm : (s.fns[fn]).mould? id = some m) (hq : m.queue = c :: q) (hr : m.run = none)
    (hf : s.hall.fwRunning = true) :
    stepGateOpen fn id s = if c.next ≠ m.nextStep then s.endRunCmd fn id .badParam
      else if s.gateWaits fn m then s
      else match s.cohortCheck fn m with
        | some st => (s.modMould fn id fun m => { m with lastStatus := st.code }).endRunCmd fn id st
        | none => if s.portsDown m then s else s.openGate fn m c 0 := by
  unfold stepGateOpen
  rw [hm]
  dsimp only
  rw [hq]
  dsimp only
  rw [hr, hf, if_neg (by decide)]
  exact if_congr bne_iff_ne rfl rfl

/-- A step that waits to run again opens its gate once nothing holds it (R308). -/
theorem stepRerun_of_free {r : Running} (hm : (s.fns[fn]).mould? id = some m) (hr : m.run = some r) (hq : m.queue = c :: q)
    (hre : r.rerun = true) (hf : s.hall.fwRunning = true) (hw : (s.modMould fn id fun m => { m with run := none }).gateWaits fn m = false)
    (hp : s.portsDown m = false) (hd : r.dropWanted = none) (hg : r.dropGoal ≤ (s.fns[fn]).freeKv) :
    stepRerun fn id s = (s.modMould fn id fun m => { m with run := none }).openGate fn m c r.attempts r.dropped := by
  unfold stepRerun
  rw [hm]
  dsimp only
  rw [hr, hq]
  dsimp only
  rw [hre, hf, if_neg (by decide), hw, hp, hd, if_neg]
  simpa using hg

theorem stepDeadline_of_queued (hm : (s.fns[fn]).mould? id = some m) (hq : m.queue ≠ []) :
    stepDeadline fn id s = (if m.run.isSome then s.closeStep fn id .timeout true
      else (s.modMould fn id fun m => { m with lastStatus := Status.timeout.code }).endRunCmd fn id .timeout).anneal (.tenant fn) := by
  unfold stepDeadline
  rw [hm]
  exact if_neg (by simpa using hq)

end

/-- Settles O39: a gate goes by its step number, what it waits for and its cohort. -/
theorem stepGateCompletes : Obligations.StepGateCompletes := by
  refine ⟨fun fn id m c q s hm hq hr hf => ⟨fun hn => ?_, fun hn hw hc hp => ?_, fun st hn hw hc => ?_⟩,
    fun fn id m r c q s hm hr hq hre hf hw hp hd hg => next_settle (stepRerun_of_free hm hr hq hre hf hw hp hd hg),
    fun fn id m s hm hq => next_settle (stepDeadline_of_queued hm hq)⟩
  · exact next_settle ((stepGateOpen_of_queued hm hq hr hf).trans (if_pos hn))
  · refine next_settle ((stepGateOpen_of_queued hm hq hr hf).trans ?_)
    rw [if_neg (not_not_intro hn), hw, hc, hp]
    rfl
  · refine next_settle ((stepGateOpen_of_queued hm hq hr hf).trans ?_)
    rw [if_neg (not_not_intro hn), hw, hc]
    rfl

end Sys2Proof.Machine
end

section
/-! Heats: command heats, commits, timeouts and the fold (R286 to R308). -/

namespace Sys2Proof.Machine

/-! ### Command heats -/

section
variable {k : Cmd} {c : CmdHeat} {env : Lines} {s : State}

/-- HEAT_END of a command heat that is open (R290). -/
theorem heatEnd_of_open {slot : Fin 32} (hr : Ready .heatEnd k s) (hp : plain k [(0, 1)] = true) (h2 : u k.p 0 1 < 2)
    (hn : (s.fns[k.fn]).commits? .heatEnd k = false)
    (hc : (s.fns[k.fn]).cmdHeats.find? (fun c => some c.ring == k.ring) = some c) (hs : c.slot = some slot) :
    let t := (s.entered .heatEnd k).dropCmdHeat k.fn k.ring
    hostCmd .heatEnd k (heatEnd k env) s = .next ((if u k.p 0 1 = 0 then
        if env.heatArea then ((t.scrapHeat k.fn slot .integrity).functionFault k.fn).finish .heatEnd k .integrity
        else t.commitCmd .heatEnd k slot 0 []
      else (t.scrapHeat k.fn slot .ok).finish .heatEnd k .ok).settle) := by
  refine hostCmd_next hr rfl (by simp [hp, h2]) (Nat.zero_le _) ?_
  dsimp only
  rw [State.entered_fns, hn, if_neg Bool.false_ne_true, hc]
  dsimp only
  rw [hs]

/-- HEAT_END of a command heat that was scrapped before (R290). -/
theorem heatEnd_of_scrapped (hr : Ready .heatEnd k s) (hp : plain k [(0, 1)] = true) (h2 : u k.p 0 1 < 2)
    (hn : (s.fns[k.fn]).commits? .heatEnd k = false)
    (hc : (s.fns[k.fn]).cmdHeats.find? (fun c => some c.ring == k.ring) = some c) (hs : c.slot = none) :
    hostCmd .heatEnd k (heatEnd k env) s =
      .next ((((s.entered .heatEnd k).dropCmdHeat k.fn k.ring).finish .heatEnd k (c.scrapped.getD .annealed)).settle) := by
  refine hostCmd_next hr rfl (by simp [hp, h2]) (Nat.zero_le _) ?_
  dsimp only
  rw [State.entered_fns, hn, if_neg Bool.false_ne_true, hc]
  dsimp only
  rw [hs]

end

/-- Settles O40: each command passes its checks and finds its slot, its frames and its command heat. -/
theorem commandHeatsComplete : Obligations.CommandHeatsComplete := by
  refine ⟨fun k r slot t v s hr hk hp hb ha hm hc ho hv => hostCmd_next hr rfl ?_ (Nat.zero_le _) ?_,
    fun k c env s hr hp hn hc => ⟨fun slot hs h0 he hb => ?_, fun slot hs h0 he hb => ?_, fun slot hs h0 he => ?_,
      fun slot hs h1 => ?_, fun hs h0 => heatEnd_of_scrapped hr hp (by rw [h0]; decide) hn hc hs⟩,
    fun fn ring c slot s hc hs => congrArg Host.Outcome.next ?_⟩
  · simp [hp, hb, ha, hm]
  · rw [hk]
    dsimp only
    rw [State.entered_fns, if_neg (by omega), ho]
    dsimp only
    rw [hv]
  · refine (heatEnd_of_open hr hp (by omega) hn hc hs).trans (next_settle ?_)
    rw [if_pos h0, he, if_neg Bool.false_ne_true]
    unfold State.commitCmd
    rw [hb]
    rfl
  · refine (heatEnd_of_open hr hp (by omega) hn hc hs).trans (next_settle ?_)
    rw [if_pos h0, he, if_neg Bool.false_ne_true]
    exact if_pos hb
  · refine (heatEnd_of_open hr hp (by omega) hn hc hs).trans (next_settle ?_)
    rw [if_pos h0, he]
    rfl
  · exact (heatEnd_of_open hr hp (by omega) hn hc hs).trans (next_settle (if_neg (by omega)))
  · rw [hc]
    dsimp only
    rw [hs]

/-! ### Commits -/

section
variable {fn : FnId} {slot : Fin 32} {h : Heat} {s : State}

/-- A step runs whose open heat every forge has brought to its commit phase (R298). -/
structure CommitDue (fn : FnId) (slot : Fin 32) (h : Heat) (id : BitVec 64) (b : Nat) (m : Mould) (r : Running) (hb : HeatBound)
    (s : State) : Prop where
  heat : (s.fns[fn]).heat slot = some h
  origin : h.origin = .step id b
  mould : (s.fns[fn]).mould? id = some m
  run : m.run = some r
  bound : m.heats[b]? = some hb
  isOpen : h.state = .open_
  first : r.rerun = false
  live : r.status = none
  done : r.committed hb.commitPhase = true

variable {id : BitVec 64} {b : Nat} {m : Mould} {r : Running} {hb : HeatBound}

theorem CommitDue.localCommit (c : CommitDue fn slot h id b m r hb s) (hu : m.lastBound b = false ∨ m.unsent r = false) (env : Lines) :
    localCommit fn slot env s = if env.heatArea then s.functionFault fn
      else if env.fails then s.anneal (.tenant fn)
      else if !hb.distributed then s.commitStepHeat fn slot
      else if m.coordinator == m.selfPos then
        ((s.spillLines fn slot).modHeat fn slot fun h => { h with committing := true, coordinator := true, distributed := true }).tryDecide fn slot
      else if h.committing then s
      else (((s.spillLines fn slot).record fn slot 0x09 (preparedRecord m hb h.stepIndex)).modHeat fn slot fun h =>
        { h with state := .prepared, committing := true, distributed := true, participants := hb.participants }).sendHeat fn m
          m.coordinator 1 b h.stepIndex := by
  have hw : (h.state != HeatState.open_ || r.rerun || r.status.isSome || !r.committed hb.commitPhase || (m.lastBound b && m.unsent r)) =
      false := by
    rw [c.isOpen, c.first, c.live, c.done, bne_self_eq_false]
    obtain hu | hu := hu <;> simp [hu]
  unfold Machine.localCommit
  rw [c.heat]
  dsimp only
  rw [c.origin]
  dsimp only
  rw [c.mould]
  dsimp only
  rw [c.run, c.bound]
  exact if_neg (by rw [hw]; exact Bool.false_ne_true)

theorem CommitDue.timeout (c : CommitDue fn slot h id b m r hb s) :
    heatCommitPhaseTimeout fn slot s = ((if !hb.distributed then s
      else if m.coordinator == m.selfPos then s.announce fn slot m b h.stepIndex false
      else s.sendHeat fn m m.coordinator 2 b h.stepIndex).closeStep fn id .timeout true).anneal (.tenant fn) 0x0108 := by
  have hw : (h.state != HeatState.open_ || r.rerun || r.status.isSome || !r.committed hb.commitPhase) = false := by
    rw [c.isOpen, c.first, c.live, c.done, bne_self_eq_false]
    rfl
  unfold heatCommitPhaseTimeout
  rw [c.heat]
  dsimp only
  rw [c.origin]
  dsimp only
  rw [c.mould]
  dsimp only
  rw [c.run, c.bound]
  exact if_neg (by rw [hw]; exact Bool.false_ne_true)

variable {x : Op × Cmd × Nat × List Byte}

/-- The open heat of a command whose reply waits for it (R290). -/
theorem localCommit_of_reply (hh : (s.fns[fn]).heat slot = some h) (ho : ∀ id b, h.origin ≠ .step id b) (hr : h.reply = some x)
    (hs : h.state = .open_) (env : Lines) :
    localCommit fn slot env s = if env.heatArea then s.functionFault fn
      else if env.fails then s.failCommit fn slot x 0
      else (s.commitHeat fn slot).finish x.1 x.2.1 .ok x.2.2.1 x.2.2.2 := by
  unfold localCommit
  rw [hh]
  dsimp only
  split
  · next id b h => exact absurd h (ho id b)
  · rw [hr]
    exact if_neg (by rw [hs]; decide)

theorem heatCommitPhaseTimeout_of_reply (hh : (s.fns[fn]).heat slot = some h) (ho : ∀ id b, h.origin ≠ .step id b) (hr : h.reply = some x)
    (hs : h.state = .open_) : heatCommitPhaseTimeout fn slot s = s.failCommit fn slot x 0x0108 := by
  unfold heatCommitPhaseTimeout
  rw [hh]
  dsimp only
  split
  · next id b h => exact absurd h (ho id b)
  · rw [hr]
    exact if_pos (by rw [hs]; decide)

end

/-- Settles O41: a heat in its commit phase goes by its heat area, its writes and its part in a distributed commit. -/
theorem stepHeatsComplete : Obligations.StepHeatsComplete := by
  refine ⟨fun fn slot env h id b m r hb s hh ho hm hr hbd hst hre hli hdo => ?_, fun fn slot env h x s hh ho hr hs =>
    ⟨fun ha => ?_, fun ha hf => ?_, fun ha hf => ?_, next_settle (heatCommitPhaseTimeout_of_reply hh ho hr hs)⟩⟩
  · have c : CommitDue fn slot h id b m r hb s := ⟨hh, ho, hm, hr, hbd, hst, hre, hli, hdo⟩
    refine ⟨fun hu => ⟨fun ha => ?_, fun ha hf => ?_, fun ha hf hd => ?_, fun ha hf hd hc => ?_, fun ha hf hd hc hco => ?_⟩,
      fun hd => ?_, fun hd hc => ?_, fun hd hc => ?_⟩
    · exact next_settle ((c.localCommit hu env).trans (if_pos ha))
    · refine next_settle ((c.localCommit hu env).trans ?_)
      rw [ha, hf]
      rfl
    · refine next_settle ((c.localCommit hu env).trans ?_)
      rw [ha, hf, hd]
      rfl
    · refine next_settle ((c.localCommit hu env).trans ?_)
      rw [ha, hf, hd, hc, beq_self_eq_true]
      rfl
    · refine next_settle ((c.localCommit hu env).trans ?_)
      rw [ha, hf, hd, hco, beq_eq_false_iff_ne.mpr hc]
      rfl
    · refine next_settle (c.timeout.trans ?_)
      rw [hd]
      rfl
    · refine next_settle (c.timeout.trans ?_)
      rw [hd, beq_eq_false_iff_ne.mpr hc]
      rfl
    · refine next_settle (c.timeout.trans ?_)
      rw [hd, hc, beq_self_eq_true]
      rfl
  · exact next_settle ((localCommit_of_reply hh ho hr hs env).trans (if_pos ha))
  · refine next_settle ((localCommit_of_reply hh ho hr hs env).trans ?_)
    rw [ha, hf]
    rfl
  · refine next_settle ((localCommit_of_reply hh ho hr hs env).trans ?_)
    rw [ha, hf]
    rfl

/-! ### The fold -/

section

/-- Bytes written at other addresses leave a byte as it is. -/
theorem Memory.get_foldl_put_other {l : List Host.Cell} {key : Nat → Nat} {m : Memory} {x : Nat} (hx : x ∉ l.map fun c => key c.1) :
    (l.foldl (fun m c => Memory.put m (key c.1) c.2) m).get x = m.get x := by
  induction l generalizing m with
  | nil => rfl
  | cons c l ih =>
    rw [List.map_cons, List.mem_cons, not_or] at hx
    exact (ih hx.2).trans (Memory.get_put_other m c.2 hx.1)

/-- Bytes written at addresses that all differ stand where they were written. -/
theorem Memory.get_foldl_put {l : List Host.Cell} {key : Nat → Nat} (hk : Function.Injective key) {m : Memory} (hm : Memory.wf m = true)
    (hl : (l.map (·.1)).Pairwise (· < ·)) {c : Host.Cell} (hc : c ∈ l) :
    (l.foldl (fun m c => Memory.put m (key c.1) c.2) m).get (key c.1) = c.2 := by
  induction l generalizing m with
  | nil => exact absurd hc List.not_mem_nil
  | cons d l ih =>
    rw [List.map_cons, List.pairwise_cons] at hl
    rw [List.foldl_cons]
    obtain rfl | hcl := List.mem_cons.mp hc
    · rw [Memory.get_foldl_put_other, Memory.get_put_same hm]
      intro hin
      obtain ⟨e, he, hke⟩ := List.mem_map.mp hin
      exact absurd (hk hke) (hl.1 e.1 (List.mem_map_of_mem he)).ne'
    · exact ih (Memory.wf_put hm _ _) hl.2 hcl

theorem ramKey_injective (fn : FnId) : Function.Injective (ramKey fn) := fun _ _ h => Nat.add_left_cancel h

/-- Nothing but the near tier differs. -/
def SameButNear (s t : State) : Prop := ∃ n, t = { s with near := n }

theorem SameButNear.refl (s : State) : SameButNear s s := ⟨s.near, rfl⟩

theorem SameButNear.trans {s t v : State} (h : SameButNear s t) (h' : SameButNear t v) : SameButNear s v := by
  obtain ⟨n, rfl⟩ := h
  obtain ⟨n', rfl⟩ := h'
  exact ⟨n', rfl⟩

theorem SameButNear.foldl {α : Type} {g : State → α → State} (hg : ∀ s a, SameButNear s (g s a)) (l : List α) (s : State) :
    SameButNear s (l.foldl g s) := by
  induction l generalizing s with
  | nil => exact .refl s
  | cons a l ih => exact (hg s a).trans (ih _)

theorem State.retrain_sameButNear (s : State) (c : ChanId) : SameButNear s (s.retrain c) := by
  unfold State.retrain
  dsimp only
  split
  · exact ⟨_, rfl⟩
  · split
    · exact .refl s
    · split
      · exact ⟨_, rfl⟩
      · exact ⟨_, rfl⟩

/-- Requests to T1 change nothing but the near tier: the buckets and the retrain that a repaired channel waits for. -/
theorem State.access_sameButNear (s : State) (fn : FnId) (units : List Nat) : SameButNear s (s.access fn units) := by
  have charge : SameButNear s (s.charge fn units) := by
    unfold State.charge
    split
    · exact .refl s
    · exact .foldl (fun _ _ => ⟨_, rfl⟩) units s
  have first : ∀ t : State, SameButNear t (t.firstAccess units) := by
    intro t
    unfold State.firstAccess
    split
    · refine .foldl (fun t u => ?_) units t
      split
      · exact t.retrain_sameButNear _
      · exact .refl t
    · exact .refl t
  exact charge.trans (first _)

theorem Fn.addRefs_slots (f : Fn) (ds : List (Nat × Int)) : (f.addRefs ds).slots = f.slots := by
  unfold Fn.addRefs
  split <;> rfl

variable {fn : FnId} {slot : Fin 32} {h : Heat} {s : State}

theorem State.lastRecord_frame (kind : Nat) (payload : List Byte) :
    ∃ n v, s.lastRecord fn slot kind payload = { s with near := n, fns := vmod s.fns fn v } := by
  unfold State.lastRecord
  obtain ⟨n, hn⟩ := s.access_sameButNear fn (s.journalUnits fn (s.fns[fn]).journal.length)
  rw [hn]
  exact ⟨n, _, rfl⟩

/-- What the fold of a committed heat leaves (R295). -/
theorem State.foldHeat_frame (hh : (s.fns[fn]).heat slot = some h) (hs : h.state = .committed) :
    ∃ (n : Near) (v : Fn → Fn), s.foldHeat fn slot = { s with
      near := n, t1 := s.t1.filter (·.use != .shadow fn slot.val)
      fns := vmod s.fns fn fun f => ({ v f with slots := (v f).slots.set slot none } : Fn).addRefs h.deltas
      ram := h.shadow.foldl (fun (m : Memory) (c : Host.Cell) => Memory.put m (ramKey fn c.1) c.2) s.ram } := by
  have acc : SameButNear s (if s.regulated fn then s.access fn (s.foldUnits fn slot h) else s) := by
    split
    · exact s.access_sameButNear ..
    · exact .refl s
  obtain ⟨n, hn⟩ := acc
  unfold State.foldHeat
  rw [hh]
  dsimp only
  rw [if_pos (by rw [hs]; rfl), hn]
  obtain ⟨n', v, hv⟩ := State.lastRecord_frame (fn := fn) (slot := slot) (s := { s with
    near := n, ram := h.shadow.foldl (fun (m : Memory) (c : Host.Cell) => Memory.put m (ramKey fn c.1) c.2) s.ram }) 0x0D []
  rw [hv]
  refine ⟨n', v, ?_⟩
  unfold State.freeT1 State.modFn
  dsimp only
  rw [vmod_vmod]

end

/-- Settles O42: the shadow goes home byte by byte at addresses that all differ, and the slot is free. -/
theorem foldWritesTheShadow : Obligations.FoldWritesTheShadow := by
  intro fn slot h s hh hs
  obtain ⟨n, v, hf⟩ := State.foldHeat_frame hh hs
  refine ⟨fun env he => congrArg Host.Outcome.next (if_neg (by rw [he]; exact Bool.false_ne_true)),
    fun env he => congrArg Host.Outcome.next ((if_pos he).trans ?_), ?_, fun hm hsh c hc => ?_, fun x hx => ?_, fun g hg => ?_, ?_, ?_, ?_⟩
  · rw [hh]
    exact if_pos (by rw [hs]; rfl)
  · rw [hf]
    unfold Fn.heat
    dsimp only
    rw [vmod_same, Fn.addRefs_slots]
    exact Vector.getElem_set_self slot.isLt
  · rw [hf]
    exact Memory.get_foldl_put (ramKey_injective fn) hm ((Memory.sorted_iff _).mp hsh) hc
  · rw [hf]
    exact Memory.get_foldl_put_other hx
  · rw [hf]
    exact vmod_other _ _ hg.symm
  all_goals rw [hf]

end Sys2Proof.Machine
end

section
/-! What the timeouts of Table TIME-6 do. -/

namespace Sys2Proof.Machine

/-- The timeout of a command that nothing but quiesces wait beside: it ends with TIMEOUT (R331). -/
theorem adminCommandTimeout_of_found {k : Cmd} {f : Flight} {s : State}
    (hf : s.flights.find? (fun f => f.cmd == k && f.op.adminBound) = some f)
    (hd : ∀ d ∈ s.deferred, ∃ k' fns a, d = Deferred.quiesce k' fns a) (hl : s.smith.heldFwLoad = none) :
    execAdminCommandTimeout k s = .next (s.finish f.op k .timeout).settle := by
  unfold execAdminCommandTimeout
  rw [hf]
  dsimp only
  rw [hl, List.filter_eq_self.mpr]
  · rfl
  · intro d hm
    obtain ⟨k', fns, a, rfl⟩ := hd d hm
    rfl

/-- The quiesce of one function alone expires (R332). -/
theorem quiesceExpiry_of_single {fn : FnId} {k : Cmd} {fns : List FnId} {a : Bool} {s : State} (hd : s.deferred = [.quiesce k fns a])
    (hc : fns.contains fn = true) (ha : (s.fns[fn]).active = true) :
    quiesceExpiry fn s = ({ s with deferred := [.quiesce k fns true] } : State).anneal (.tenant fn) 0x010A := by
  unfold quiesceExpiry
  rw [hd, List.foldl_cons, List.foldl_nil]
  dsimp only
  rw [hc, ha, hd]
  simp

/-- A slot wait of a forge's own agent that no producer holds anneals the forge (R79). -/
theorem State.slotAnneal_of_own {f : ForgeId} {slot : BitVec 8} {j : Job} {m : Mould} {mf : MForge} {s : State}
    (hj : s.jobForge f = some (j, m, mf)) (hw : mf.wait.contains slot.toNat = true) (hh : s.slotHeld m j.logical slot.toNat = false) :
    s.slotAnneal f slot = ((s.modForge f fun x => { x with slotTimeouts := satAdd 16 x.slotTimeouts 1 }).log 0x0303 (some j.fn) f.val
      (bvBytes 1 slot ++ [0, 0, 0] ++ toLe 4 ((m.run.map (·.index)).getD 0))).anneal (.forge f) 0x0101 := by
  unfold State.slotAnneal
  rw [hj]
  dsimp only
  rw [hw, hh]
  rfl

theorem completionError_of_found {fn : FnId} {ring : Option RingId} {seq : BitVec 32} {f : Flight} {s : State}
    (hf : s.flights.find? (fun f => f.cmd.fn == fn && f.cmd.ring == ring && f.cmd.seq == seq && !f.background) = some f)
    (hq : ((s.fns[fn]).moulds.any fun m => m.queue.any (·.cmd == f.cmd)) = false) (hd : s.deferred = []) :
    execCompletionError fn ring seq false s = .next (s.finish f.op f.cmd .hostFault).settle := by
  unfold execCompletionError
  rw [hf]
  dsimp only
  rw [hq, hd, List.filter_nil, ← hd]
  rfl

/-- Settles O43: each timeout acts on the command, function, forge or device that it names. -/
theorem timeoutsComplete : Obligations.TimeoutsComplete := by
  refine ⟨fun k f s hf hd hl => adminCommandTimeout_of_found hf hd hl,
    fun fn k fns a s hd hc ha => next_settle (quiesceExpiry_of_single hd hc ha),
    fun s hf hb => congrArg Host.Outcome.next (if_neg (by rw [hf, hb]; decide)),
    fun f slot j m mf s hb => ?_,
    fun f c a s ha => congrArg Host.Outcome.next ?_,
    fun fn ring seq s => ⟨rfl, fun f hf hq hd => completionError_of_found hf hq hd⟩⟩
  · intro t hj hw hh
    refine (congrArg Host.Outcome.next (if_neg (by rw [hb]; exact Bool.false_ne_true))).trans (next_settle ?_)
    exact State.slotAnneal_of_own hj hw hh
  · dsimp only
    rw [ha]

end Sys2Proof.Machine
end

section
/-! The Range commands and the migration of sealed pages (R150, R221 to R234, R396 to R399). -/

namespace Sys2Proof.Machine

/-- A host command whose effect succeeds in its heat. -/
theorem hostCmd_inHeat {op : Op} {k : Cmd} {ok : Bool} {n d : Nat} {pl : List Byte} {s t v : State} {f : State → State} {slot : Fin 32}
    {body : Fin 32 → State → Except (Status × Bool) (State × Nat × List Byte)} (hr : Ready op k s)
    (hf : f (s.entered op k) = checked op k ok n (fun s => inHeat op k s body) (s.entered op k)) (ho : ok = true) (hn : n ≤ k.outCap.toNat)
    (hh : heatFor op k (s.entered op k) = some (slot, t)) (hb : body slot t = .ok (v, d, pl)) :
    hostCmd op k f s = .next (heatEnds op k (s.entered op k) slot v d pl).settle :=
  hostCmd_next hr hf ho hn (inHeat_of_ok body hh hb)

/-! ### Mapping and unmapping -/

/-- A map of a shared model has the role BILLETS (R396). -/
theorem role_of_shared {k : Cmd} (h : rangeMapOk k = true) (hs : bit (u k.p 14 1) 0 = true) : Role.ofCode (u k.p 12 1) = some .billets := by
  unfold rangeMapOk at h
  rw [hs] at h
  cases hr : Role.ofCode (u k.p 12 1) with
  | none => simp [hr] at h
  | some r =>
    have hb : r = .billets := by simp_all
    rw [hb]

/-- Settles O17: each command passes its checks, and its spans may be mapped or unmapped. -/
theorem rangeCommandsComplete : Obligations.RangeCommandsComplete := by
  refine ⟨fun k role slot s t v hr hp hc hb hh hs hx hv => hostCmd_inHeat hr rfl hp (Nat.zero_le _) hh ?_,
    fun k slot s t v hr hp hb hh hs hv => hostCmd_inHeat hr rfl hp (Nat.zero_le _) hh ?_,
    fun k slot s t v hr hp ha hn he hh ho hu hv => hostCmd_inHeat hr rfl ?_ (Nat.zero_le _) hh ?_⟩
  · have hkv : (role.isKv && !(t.fns[k.fn]).extendsRun role (u k.p 0 8 / 2097152)) = false := by
      obtain hx | hx := hx <;> rw [hx]
      · rfl
      · exact Bool.and_false _
    rw [hc]
    dsimp only
    rw [hs, hkv, hb, if_neg (by decide), if_neg (by decide), hv]
  · rw [role_of_shared hp hb]
    dsimp only
    rw [hs, hb]
    refine (if_neg Bool.false_ne_true).trans ?_
    rw [if_pos rfl, hv]
  · simp [hp, ha, hn, he]
  · dsimp only
    rw [ho, hu, if_neg (by decide), if_neg (by decide), hv]

/-! ### Billets -/

section
variable {fn : FnId} {slot : Fin 32} {s v : State} {nums : List Nat}

/-- Pages that may all be sealed are sealed in turn (R150). -/
theorem State.sealAll_of_ok
    (hrole : ∀ i ∈ nums, (s.fns[fn]).roleOf (65536 * i) = some .data ∨ (s.fns[fn]).roleOf (65536 * i) = some .billets)
    (hgood : ∀ i ∈ nums, ∀ g p, s.pageAt fn (65536 * i) = some (g, p) → p.poisoned = false)
    (hbillet : ∀ i ∈ s.toSeal fn slot nums, (s.fns[fn]).roleOf (65536 * i) = some .billets → s.holdsBillet fn slot i = true)
    (hfold : foldE (fun (s : State) i => s.sealPage fn slot i) (s.toSeal fn slot nums) s = .ok v)
    (hmodel : v.sealsModels fn slot (s.toSeal fn slot nums) = true) : s.sealAll fn slot nums = .ok v := by
  unfold State.sealAll
  dsimp only
  rw [if_neg, if_neg, if_neg, hfold]
  · exact if_pos hmodel
  · rw [Bool.not_eq_true, List.any_eq_false]
    intro i hi
    by_cases hr : (s.fns[fn]).roleOf (65536 * i) = some .billets
    · rw [hbillet i hi hr, Bool.not_true, Bool.and_false]
      exact Bool.false_ne_true
    · rw [beq_eq_false_iff_ne.mpr hr]
      exact Bool.false_ne_true
  · rw [Bool.not_eq_true, List.any_eq_false]
    intro i hi
    split
    · next g p hp => simp [hgood i hi g p hp]
    · exact Bool.false_ne_true
  · rw [Bool.not_eq_true, Bool.not_eq_false', List.all_eq_true]
    intro i hi
    rw [Bool.or_eq_true, beq_iff_eq, beq_iff_eq]
    exact hrole i hi

end

theorem loadBillets_next {k : Cmd} {s t : State} (h : hostCmd .loadBillets k (loadBillets k) s = .next t) :
    exec (.loadBillets k) s = .next (t.pumpFn k.fn) := by
  change execLoadBillets k s = _
  unfold execLoadBillets
  rw [h]

/-- Settles O18: each command passes its checks, and its pages are of the roles and in the states that it wants. -/
theorem billetCommandsComplete : Obligations.BilletCommandsComplete := by
  refine ⟨fun k slot s t v hr hp hf ha h1 hn hi hh hpages hv hm => loadBillets_next (hostCmd_inHeat hr rfl ?_ (Nat.zero_le _) hh ?_),
    fun k slot s t v hr hp ha h1 hn hi hh => ?_,
    fun k slot s s' t hr hp ha hn h16 h48 hc hmap hmeet hh hl => hostCmd_next hr rfl ?_ hc ?_⟩
  · simp [hp, hf, ha, h1, hn, hi]
  · dsimp only
    rw [if_neg, if_neg, hv]
    · refine if_neg ?_
      obtain hm | hm := hm <;> simp [hm]
    · rw [Bool.not_eq_true, List.any_eq_false]
      intro i hi
      obtain ⟨-, g, p, hat, hs⟩ := hpages i (List.mem_range.mp hi)
      rw [hat]
      dsimp only
      obtain hs | hs := hs <;> rw [hs]
      · exact Bool.false_ne_true
      · rw [Bool.not_true, Bool.and_false]
        exact Bool.false_ne_true
    · rw [Bool.not_eq_true, Bool.not_eq_false', List.all_eq_true]
      intro i hi
      rw [(hpages i (List.mem_range.mp hi)).1]
      rfl
  · intro nums todo hrole hgood hbillet hfold hmodel
    refine hostCmd_inHeat hr rfl (by simp [hp, ha, h1, hn, hi]) (Nat.zero_le _) hh ?_
    rw [State.sealAll_of_ok hrole hgood hbillet hfold hmodel]
    rfl
  · simpa [hp, ha, hn, h16] using h48
  · dsimp only
    rw [hmap, if_neg (by decide), hmeet]
    dsimp only
    rw [inHeat_of_ok _ hh (if_neg (by rw [hl]; exact Bool.false_ne_true))]

/-! ### Migration -/

section
variable {g : FnId} {num : Nat} {q : Page} {s t : State}

/-- A page that is being fetched, at its turn, arrives where there is room (R229, R231). -/
theorem State.arrive_of_room {place : Nat} {staged : Bool} (hq : (s.fns[g]).page? num = some q) (hu : q.up = true) (h1 : q.t1 = false)
    (h2 : q.t2 = true) (hl : s.t2Linked g num = true) (ht : s.myTurn g num = true) (hr : s.t1Room g num = some (t, place, staged)) :
    s.arrive g num true =
      let t' := (t.stamp.2.modPage g num fun p =>
        { p with t1 := true, up := false, staged, place, arrived := t.stamp.1, lastRead := t.stamp.1, urgent := false
                 ticket := 0, refetch := false, mover := none }).access (q.payer g) (placeUnits place)
      (({ t' with migr := { t'.migr with up := t'.migr.up + t'.travels g num } } : State).modFn g Fn.limbo).queueMoves g none := by
  unfold State.arrive
  rw [hq]
  dsimp only
  rw [hu, h1, h2, hl, ht, if_neg (by decide), if_neg (by decide), if_neg (by decide), hr]

/-- A sealed page, at its turn, has its T2 copy (R231). -/
theorem State.copied_of_turn (hq : (s.fns[g]).page? num = some q) (hd : q.down = true) (h1 : q.t1 = true) (hs : q.sealed_ = true)
    (hb : q.bad = []) (hn : s.needT2 (g, num) = some t) (hl : t.t2Linked g num = true) (ht : t.myTurn g num = true) :
    s.copied g num =
      let t' := t.access (q.payer g) (t.t1Units g (num * 65536) 65536)
      let t'' := ({ t' with migr := { t'.migr with down := t'.migr.down + t'.travels g num } } : State).modPage g num fun p =>
        let p := { p with t2 := true, down := false, urgent := false, ticket := 0, mover := none }
        if p.dropT1 && p.pins == 0 then { p with t1 := false, staged := false, dropT1 := false } else p
      ((t''.fixFrames g (num / 32)).fixStaging g).modFn g Fn.limbo := by
  unfold State.copied
  rw [hq]
  dsimp only
  rw [hd, h1, hs, hb, if_neg (by decide), hn]
  dsimp only
  rw [hl, ht, if_neg (by decide), if_neg (by decide)]

end

/-- Settles O19: a hint starts its moves, and a page at its turn on the link arrives or is copied. -/
theorem migrationComplete : Obligations.MigrationComplete := by
  refine ⟨fun k slot s t t' v l hr hp hh hl hv => ?_,
    fun fn g addr place staged p q s t hp hq hu huq h1 h2 hl ht hroom => ?_,
    fun fn g addr p q s t hp hq hu hd h1 hs hb hn hl ht => ?_⟩
  · have h : ∀ f : State → State, f = migrateHint k → hostCmd .migrateHint k f s =
        .next ((heatEnds .migrateHint k (s.entered .migrateHint k) slot v).afterHint k.fn).settle := by
      rintro f rfl
      refine hostCmd_next hr rfl hp (Nat.zero_le _) (congrArg (State.afterHint · k.fn) (inHeat_of_ok _ hh ?_))
      rw [hl]
      dsimp only
      rw [hv]
    exact ⟨fun _ => h _ rfl, fun _ => h _ rfl, fun _ => h _ rfl, fun _ => h _ rfl⟩
  · have h := State.arrive_of_room hq huq h1 h2 hl ht hroom
    refine ⟨congrArg Host.Outcome.next ?_, congrArg Host.Outcome.next ?_⟩
    · rw [hp]
      dsimp only
      rw [h]
    · rw [hp]
      dsimp only
      rw [hu, if_pos rfl, h]
  · intro t₁ t₂ ok
    refine congrArg Host.Outcome.next ?_
    rw [hp]
    dsimp only
    rw [hu, if_neg Bool.false_ne_true, State.copied_of_turn hq hd h1 hs hb hn hl ht]

end Sys2Proof.Machine
end

section
/-! The KV commands, shared prefixes, epochs and the drop policy (R201 to R217). -/

namespace Sys2Proof.Machine

/-! ### Sequences -/

/-- Settles O20: each command passes its checks, and its sequence is there and bound to no step. -/
theorem sequenceCommandsComplete : Obligations.SequenceCommandsComplete := by
  refine ⟨fun k slot h s t v hr hp hh hm ha hv => hostCmd_inHeat hr rfl hp (Nat.zero_le _) hh ?_,
    fun k slot q h s t t' v hr hp h2 hh hq => ?_,
    fun k slot q s t v hr hp hh hq hb hv => hostCmd_inHeat hr rfl hp (Nat.zero_le _) hh ?_⟩
  · have ha' : (t.fns[k.fn]).tokenArea (allocSeq k).tokenBase (allocSeq k).maxPages = true := ha
    rw [hm, ha', if_neg (by decide), hv]
    rfl
  · intro n es hn ha hl hpo hb hnew hcount
    refine hostCmd_inHeat hr rfl (by simp [hp, h2]) (Nat.zero_le _) hh ?_
    dsimp only
    rw [hq]
    dsimp only
    rw [ha, hl, hb, if_neg, if_neg, if_neg Bool.false_ne_true, hnew]
    · dsimp only
      rw [hcount]
    · rw [hpo]
      exact Bool.false_ne_true
    · simpa using hn
  · dsimp only
    rw [hq]
    dsimp only
    rw [hb, if_neg Bool.false_ne_true, hv]

/-! ### Prefixes and drops -/

/-- Settles O21: each command passes its checks, and its sequence is there, whole, and where it must be bound to no step. -/
theorem prefixAndDropCommandsComplete : Obligations.PrefixAndDropCommandsComplete := by
  refine ⟨⟨fun k slot q s t v hr hp hh hq h0 hn hl hx hpo hb => ?_,
      fun k slot q a s t hr hp hh hq hn hl hx hpo hb ha => hostCmd_inHeat hr rfl hp (Nat.zero_le _) hh ?_⟩,
    fun k slot q s t v hr hp h0 hh hq hl => ?_,
    fun k slot q s t hr hp h1 hh hq hl => hostCmd_inHeat hr rfl hp (Nat.zero_le _) hh ?_⟩
  · intro r hv
    refine hostCmd_inHeat hr rfl hp (Nat.zero_le _) hh ?_
    dsimp only
    rw [hq]
    dsimp only
    rw [hl, hx, hpo, hb, if_neg, if_neg (by decide), if_neg Bool.false_ne_true, hv]
    simpa [h0] using hn
  · dsimp only
    rw [hq]
    dsimp only
    rw [hl, hx, hpo, hb, if_neg (Nat.not_lt.mpr hn), if_neg (by decide), if_neg Bool.false_ne_true, ha]
  · intro js hv
    refine hostCmd_inHeat hr rfl hp (Nat.zero_le _) hh ?_
    dsimp only
    rw [hq]
    dsimp only
    rw [hl, if_neg Bool.false_ne_true, if_neg (by omega), hv]
  · dsimp only
    rw [hq]
    dsimp only
    rw [hl, if_neg Bool.false_ne_true, if_pos h1]

/-! ### Epochs and the drop policy -/

/-- The drop policy of a step that wants pages, in a heat of its own (R216). -/
theorem dropPolicy_of_wanted {fn : FnId} {id : BitVec 64} {r : Running} {n : Nat} {slot : Fin 32} {s t : State}
    (hr : ((s.fns[fn]).mould? id).bind (·.run) = some r) (hw : r.dropWanted = some n) (hc : (s.fns[fn]).counted < 32)
    (ho : s.openHeat fn .single 4096 = some (slot, t)) :
    dropPolicy fn id s =
      let a := t.evictNodes fn slot (2 * n) (t.fns[fn]).nodes.length
      let b := a.1.dropBlocks fn slot (2 * n) [] (a.1.fns[fn]).dropOrder
      let t' := (b.1.commitHeat fn slot).log 0x0402 (some fn) 0 (toLe 4 b.2 ++ toLe 4 a.2)
      if b.2 = 0 && a.2 = 0 then t'.endStep fn id .noSpace
      else t'.modRun fn id fun r => { r with dropWanted := none, dropped := true, dropGoal := min (2 * n) (b.1.roomWith fn slot) } := by
  unfold dropPolicy
  rw [hr]
  dsimp only
  rw [hw]
  dsimp only
  rw [if_neg (Nat.not_le.mpr hc), ho]

/-- Settles O22: nothing registered before holds the epoch, and the policy has its heat. -/
theorem epochAndDropPolicyComplete : Obligations.EpochAndDropPolicyComplete := by
  refine ⟨fun fn s h => congrArg (fun v => Host.Outcome.next ((State.pumpFn v fn).settle)) (if_neg (by rw [h]; exact Bool.false_ne_true)),
    fun fn id r n slot s t hr hw hc ho => ?_⟩
  intro a b t'
  exact next_settle ((dropPolicy_of_wanted hr hw hc ho).trans (if_congr (by rw [Bool.and_eq_true, decide_eq_true_iff, decide_eq_true_iff]) rfl rfl))

end Sys2Proof.Machine
end

section
/-! Retrieval: index loads and scans (R281 to R285). -/

namespace Sys2Proof.Machine

/-- Settles O23: each command passes its checks, and the pages that it names are of their roles. -/
theorem retrievalCommandsComplete : Obligations.RetrievalCommandsComplete := by
  refine ⟨fun k slot s t v hr hp h1 h2 hl hh hv => hostCmd_next hr rfl hp (Nat.zero_le _) ?_,
    fun k s hr hp hc hn hs => hostCmd_next hr (if_neg (by rw [State.entered_fns, hn]; exact Bool.false_ne_true)) hp hc ?_⟩
  · rw [h1, h2, hl, if_neg (by decide), if_neg (by decide), inHeat_of_ok _ hh (by rw [hv]; rfl)]
  · exact if_neg (by rw [hs]; decide)

/-! ### Scans -/

section
variable {fn : FnId} {id : Nat} {x : Scan} {s : State}

theorem scanStart_of_queued (hx : (s.fns[fn]).scans.find? (!·.started) = some x) (hm : s.scanMayStart fn x = true) :
    scanStart fn s = (s.scanPlinths fn x).foldl (State.startScanOn fn x (s.scanInstrs fn x))
      (s.modFn fn fun f => { f with
        scans := updateFirst (fun (y : Scan) => y.id == x.id) (fun y => { y with started := true }) f.scans }) := by
  unfold scanStart
  rw [hx]
  exact if_neg (by rw [hm]; decide)

/-- A scan whose rows are scored on all its Plinths, with the aggregates that the stored tags give (R285). -/
theorem scanComplete_of_scored (hx : (s.fns[fn]).scans.find? (·.id == id) = some x) (hs : x.started = true)
    (hp : ∀ n ∈ s.scanning fn id, (s.plinths[n]).scoring = false ∧ s.storedTags fn x n = (s.plinths[n]).agg)
    (hb : s.poisonedIn fn (u x.cmd.p 8 8) (8 * u x.cmd.p 0x10 4) = false)
    (hc : s.chanBlocks fn (u x.cmd.p 8 8) (8 * u x.cmd.p 0x10 4) = false) :
    scanComplete fn id true s = s.endScan fn id .ok (min (s.scored fn id) 0xFFFFFFFF) (s.scanLists fn x) := by
  have hscoring : ((s.scanning fn id).any fun n => (s.plinths[n]).scoring) = false :=
    List.any_eq_false.mpr fun n hn => by rw [(hp n hn).1]; exact Bool.false_ne_true
  have hwrong : ((s.scanning fn id).filter fun n => !true || s.storedTags fn x n != (s.plinths[n]).agg) = [] :=
    List.filter_eq_nil_iff.mpr fun n hn => by
      rw [(hp n hn).2, bne_self_eq_false]
      decide
  unfold scanComplete
  rw [hx]
  dsimp only
  rw [hscoring, hwrong, hs, hb, hc]
  rfl

/-- What the final reply of a command changes, where it registers no reader: the frames of its payload, the flights and its ring. -/
theorem State.finish_frame {op : Op} (h : op ≠ .readOut) (k : Cmd) (st : Status) (detail : Nat) (payload : List Byte) :
    ∃ t1 fl host admin, s.finish op k st detail payload = { s with t1 := t1, flights := fl, host := host, admin := admin } := by
  have free : ∀ (n : Nat) (t : State), ∃ t1, iter (fun s : State => s.freeT1One (.payload k.fn)) n t = { t with t1 := t1 } := by
    intro n
    induction n with
    | zero => exact fun t => ⟨t.t1, rfl⟩
    | succ n ih =>
      intro t
      obtain ⟨t1, ht1⟩ := ih (t.freeT1One (.payload k.fn))
      refine ⟨t1, Eq.trans (Eq.trans ?_ ht1) ?_⟩
      · rfl
      · unfold State.freeT1One
        split <;> rfl
  unfold State.finish
  obtain ⟨t1, ht1⟩ := free (if k.isSealed then min 1 k.payload.length * ceilDiv k.payload.length 2097152 else 0) s
  dsimp only
  rw [ht1]
  unfold State.answer State.unread State.pushReply State.modRing
  rw [if_neg h]
  dsimp only
  split
  · exact ⟨t1, _, _, _, rfl⟩
  · exact ⟨t1, _, _, _, rfl⟩

/-- Rows and lists of a Plinth's scan stay as they are when its compute frames are counted anew. -/
theorem Plinth.fixCompute_scan (p : Plinth) : p.fixCompute.scan = p.scan ∧ p.fixCompute.topk = p.topk ∧
    p.fixCompute.scanTodo = p.scanTodo ∧ p.fixCompute.scanAll = p.scanAll := by
  unfold Plinth.fixCompute
  dsimp only
  split
  · exact ⟨rfl, rfl, rfl, rfl⟩
  · exact ⟨rfl, rfl, rfl, rfl⟩

/-- A Plinth without its scan (R283). -/
def Plinth.endScan (fn : FnId) (id : Nat) (p : Plinth) : Plinth :=
  if p.scan == some (fn, id) then
    ({ p with scan := none, topk := [], rowsScored := 0, scanTodo := [], scanAll := [], scanSlices := 0, scanQ := [], scanBits := [],
              chains := p.chains.map Chain.dropScan } : Plinth).fixCompute
  else p

/-- What the end of a scan leaves: its Plinths free, the scan gone, its reply queued. -/
theorem State.endScan_frame (hd : s.deferred = []) (hx : (s.fns[fn]).scans.any (·.id == id) = true) (st : Status) (detail : Nat)
    (pl : List Byte) : ∃ t1 fl host admin, s.endScan fn id st detail pl = { s with
      plinths := s.plinths.map (Plinth.endScan fn id)
      fns := vmod s.fns fn fun f => { f with scans := f.scans.filter (·.id != id) }
      t1 := t1, flights := fl, host := host, admin := admin } := by
  unfold State.endScan
  cases hf : (s.fns[fn]).scans.find? (·.id == id) with
  | none =>
    rw [List.find?_eq_none] at hf
    rw [List.any_eq_false.mpr hf] at hx
    cases hx
  | some x =>
    dsimp only
    obtain ⟨t1, fl, host, admin, ht⟩ := State.finish_frame (s := ({ s with plinths := s.plinths.map (Plinth.endScan fn id) } : State).modFn fn
      fun f => { f with scans := f.scans.filter (·.id != id) }) (op := .retrieveScan) (by decide) x.cmd st detail pl
    refine ⟨t1, fl, host, admin, ?_⟩
    change (State.finish (({ s with plinths := s.plinths.map (Plinth.endScan fn id) } : State).modFn fn
      fun f => { f with scans := f.scans.filter (·.id != id) }) .retrieveScan x.cmd st detail pl).settle = _
    rw [ht, State.settle_of_nil]
    · rfl
    · exact hd

end

/-- Settles O24: a scan starts where its Plinths are free, and its end frees them. -/
theorem scansStartAndEnd : Obligations.ScansStartAndEnd := by
  refine ⟨⟨fun fn x s hx hm => congrArg Host.Outcome.next (scanStart_of_queued hx hm),
      fun fn id x s hx hs hp hb hc => congrArg Host.Outcome.next (scanComplete_of_scored hx hs hp hb hc), fun _ _ _ _ _ => rfl⟩,
    fun fn id st detail pl s hd hx => ?_⟩
  obtain ⟨t1, fl, host, admin, ht⟩ := State.endScan_frame hd hx st detail pl
  intro t
  have ht : t = _ := ht
  rw [ht]
  refine ⟨by rw [vmod_same], rfl, rfl, fun n hn => ?_⟩
  have hp : (s.plinths.map (Plinth.endScan fn id))[n] = (({ s.plinths[n] with
      scan := none, topk := [], rowsScored := 0, scanTodo := [], scanAll := [], scanSlices := 0, scanQ := [], scanBits := []
      chains := (s.plinths[n]).chains.map Chain.dropScan } : Plinth)).fixCompute := by
    rw [Fin.getElem_fin, Vector.getElem_map]
    exact if_pos (beq_iff_eq.mpr hn)
  dsimp only
  rw [hp]
  exact Plinth.fixCompute_scan _

end Sys2Proof.Machine
end

section
/-! Features and register accesses (R7 to R9, R41, R89, R257, R334, R439, R440). -/

namespace Sys2Proof.Machine

/-! ### SET_FEATURE and GET_FEATURE -/

section
variable {k : Cmd} {s : State}

theorem State.anyRunning_entered (op : Op) : (s.entered op k).anyRunning = s.anyRunning := by
  unfold State.anyRunning
  rw [State.entered_fns]

theorem State.mouldsUnder_entered (op : Op) (mask : Nat) : (s.entered op k).mouldsUnder mask = s.mouldsUnder mask := by
  unfold State.mouldsUnder
  rw [State.entered_fns]

theorem setTimeout_of_ok {i : Fin 11} {v : Nat} (hlo : (timeoutRange.getD i.val (0, 0)).1 ≤ v)
    (hhi : v ≤ (timeoutRange.getD i.val (0, 0)).2) (ho : timeoutsOk (s.feat.timeouts.set i v) = true) :
    setTimeout k i v s =
      ({ s with feat := { s.feat with timeouts := s.feat.timeouts.set i v } } : State).finish .setFeature k .ok := by
  refine if_neg ?_
  simp only [Bool.or_eq_true, decide_eq_true_eq, ho, Bool.not_true, Bool.false_eq_true, or_false]
  omega

theorem setSegments_of_free {v : Nat} (h0 : v ≠ 0) (h12 : v < 2 ^ 12) (hm : s.mouldsUnder v = 0) (hr : s.anyRunning = false) :
    setSegments k v s = (s.switchSegments (BitVec.ofNat 12 v)).finish .setFeature k .ok := by
  unfold setSegments
  dsimp only
  rw [hm, hr, if_neg]
  · rfl
  · simp only [Bool.or_eq_true, decide_eq_true_eq]
    omega

theorem setScanGroups_of_same_class {v : Nat} (hv : v < 2 ^ 48)
    (h : ∀ x ∈ s.t2, groupClass s.feat.scanGroups (t2Group x.num) = groupClass (BitVec.ofNat 48 v) (t2Group x.num)) :
    setScanGroups k v s =
      ({ s with feat := { s.feat with scanGroups := BitVec.ofNat 48 v } } : State).finish .setFeature k .ok := by
  refine (if_neg (Nat.not_le.mpr hv)).trans (if_neg ?_)
  rw [Bool.not_eq_true, List.any_eq_false]
  intro x hx
  rw [h x hx, bne_self_eq_false]
  exact Bool.false_ne_true

theorem setRegister_of_writable {a v : Nat} {r : RegWord} {g : Nat → State → State} (ha : regArgOk a = true) (hv : v < 2 ^ 32)
    (hr : dieReg s a = some r) (hw : r.write = some g) (hc : r.closed = false) :
    setRegister k a v s = (g v s).finish .setFeature k .ok := by
  unfold setRegister
  rw [if_neg (by rw [ha]; simpa using hv), hr]
  dsimp only
  rw [hw]
  exact if_neg (by rw [hc]; exact Bool.false_ne_true)

end

/-- Settles O25: each feature code reaches its own setting, which passes its checks. -/
theorem featureCommandsComplete : Obligations.FeatureCommandsComplete := by
  refine ⟨fun k i s hr hp h16 hi hlo hhi ho => hostCmd_next hr rfl ?_ (Nat.zero_le _) ?_,
    fun k s hr hp h16 hi h0 h12 hm hrun => hostCmd_next hr rfl ?_ (Nat.zero_le _) ?_,
    fun k s hr hp h16 hi h48 hc => hostCmd_next hr rfl ?_ (Nat.zero_le _) ?_,
    fun k r g s hr hp hi ha hv hreg hw hc => hostCmd_next hr rfl ?_ (Nat.zero_le _) ?_,
    fun k s hr hp h16 hc => ⟨fun i hi => hostCmd_next hr rfl ?_ hc ?_, fun hi => hostCmd_next hr rfl ?_ hc ?_,
      fun hi => hostCmd_next hr rfl ?_ hc ?_⟩,
    fun k s hr hk hp hi ha hc => hostCmd_next hr rfl ?_ hc ?_⟩
  · simp [hp, h16]
  · have hn : (⟨u k.p 0 2 - 0x101, by omega⟩ : Fin 11) = i := Fin.ext (by simp only; omega)
    dsimp only
    have h := setTimeout_of_ok (k := k) (s := s.entered .setFeature k) hlo hhi (by rw [State.entered_feat]; exact ho)
    rw [dif_pos (by omega), hn, h, State.entered_feat]
  · simp [hp, h16]
  · have h := setSegments_of_free (k := k) (s := s.entered .setFeature k) h0 h12 (by rw [State.mouldsUnder_entered, hm])
      (by rw [State.anyRunning_entered, hrun])
    rw [dif_neg (by omega), if_pos hi, h]
  · simp [hp, h16]
  · dsimp only
    rw [dif_neg (by omega), if_neg (by omega), if_pos hi]
    have h := setScanGroups_of_same_class (k := k) (s := s.entered .setFeature k) h48 (by rw [State.entered_t2, State.entered_feat]; exact hc)
    rw [h, State.entered_feat]
  · simp [hp, hi]
  · rw [dif_neg (by omega), if_neg (by omega), if_neg (by omega), if_pos hi]
    exact setRegister_of_writable ha hv hreg hw hc
  · simp [hp, h16]
  · have hn : (⟨u k.p 0 2 - 0x101, by omega⟩ : Fin 11) = i := Fin.ext (by simp only; omega)
    dsimp only
    rw [dif_pos (by omega), hn]
    unfold State.timeout
    rw [State.entered_feat]
  · simp [hp, h16]
  · dsimp only
    rw [dif_neg (by omega), if_pos hi, State.entered_feat]
  · simp [hp, h16]
  · dsimp only
    rw [dif_neg (by omega), if_neg (by omega), if_pos hi, State.entered_feat]
  · simp [hp, hi]
  · dsimp only
    rw [dif_neg (by omega), if_neg (by omega), if_neg (by omega), if_pos hi, ha]
    rfl

/-! ### Register accesses -/

section
variable {a : Nat} {r : RegWord} {s : State}

theorem regRead_of_word (hd : s.domOn 97 = true) (hr : s.regAt a = some r) : regRead a s = (r.read s).send (.read a r.value) := by
  unfold regRead State.readReg
  rw [hd, hr]
  rfl

theorem regWrite_of_word {v : Nat} {g : Nat → State → State} (hd : s.domOn 97 = true) (hr : s.regAt a = some r) (hw : r.write = some g) :
    regWrite a v s = (g v s).settle := by
  unfold regWrite State.writeReg
  rw [hd, hr]
  dsimp only
  rw [hw]
  rfl

theorem State.latched_unlatch_same : (s.unlatch a).latched a = none := by
  unfold State.latched State.unlatch
  rw [Option.map_eq_none_iff, List.find?_eq_none]
  intro x hx
  simpa using (List.mem_filter.mp hx).2

theorem State.latched_unlatch_other {b : Nat} (h : a ≠ b) : (s.unlatch a).latched b = s.latched b := by
  unfold State.latched State.unlatch
  rw [List.find?_filter]
  congr 2
  funext x
  by_cases hx : x.1 = b
  · simp [hx, h.symm]
  · simp [hx]

theorem State.latched_latch_same (v : Nat) : (s.latch a v).latched a = some v := by
  simp [State.latched, State.latch]

theorem State.latched_latch_other {b : Nat} (v : Nat) (h : a ≠ b) : (s.latch a v).latched b = s.latched b := by
  refine Eq.trans ?_ (State.latched_unlatch_other h)
  simp [State.latched, State.latch, h]

/-- A word that is off reads as zero, and neither a read nor a write of it does anything (R440). -/
theorem RegWord.off_inert (r : RegWord) : r.off.value = 0 ∧ r.off.read s = s ∧ ∀ g, r.off.write = some g → ∀ w t, g w t = t := by
  refine ⟨rfl, rfl, fun g hg w t => ?_⟩
  obtain ⟨_, -, rfl⟩ := Option.map_eq_some_iff.mp hg
  rfl

end

/-- Settles O26: an access does what its word says, and a word of an unpowered forge does nothing. -/
theorem registerAccessesComplete : Obligations.RegisterAccessesComplete := by
  refine ⟨⟨fun a v r g s hd hr hw => congrArg Host.Outcome.next (regWrite_of_word hd hr hw),
      fun a v x i clear s hd hr => congrArg Host.Outcome.next ((regWrite_of_word hd hr rfl).trans (apply_ite State.settle _ _ _)),
      fun a x clear s hd hr => congrArg Host.Outcome.next (regRead_of_word hd hr),
      fun a x clear s hd hr => congrArg Host.Outcome.next (regRead_of_word hd hr),
      fun a low x s hd hr => congrArg Host.Outcome.next (regRead_of_word hd hr)⟩,
    fun a b v s => ⟨State.latched_latch_same v, State.latched_unlatch_same,
      fun h => ⟨State.latched_latch_other v h, State.latched_unlatch_other h⟩⟩,
    fun s block f a off r hf hr => ?_⟩
  unfold perForge gate at hr
  rw [hf] at hr
  obtain ⟨w, -, rfl⟩ := Option.map_eq_some_iff.mp hr
  exact w.off_inert

end Sys2Proof.Machine
end

section
/-! The instruction stream: control, configuration, issue, and the Tongs' and the Plinth's instructions (R46 to R49). -/

namespace Sys2Proof.Machine

section
variable {f : ForgeId} {w : BitVec 128} {code : Nat} {j : Job} {m : Mould} {mf : MForge} {r : Running} {s t : State}

theorem State.job_of_jobForge (h : s.jobForge f = some (j, m, mf)) : (s.forges[f]).job = some j := by
  unfold State.jobForge at h
  cases hj : (s.forges[f]).job with
  | none => rw [hj] at h; cases h
  | some j' =>
    rw [hj] at h
    dsimp only at h
    split at h
    · cases h
    · obtain ⟨_, -, he⟩ := Option.map_eq_some_iff.mp h
      cases he
      rfl

theorem onForge_of_job {g : State → State} (hj : (s.forges[f]).job = some j) : onForge f g s = .next ((g s).wentOn j) := by
  unfold onForge
  rw [hj]
  rfl

/-- The instruction at the head of a forge's stream runs, and its mould goes on (R49). -/
theorem onForge_of_head {g : State → State} {body : Job → Mould → MForge → Running → State → State} (h : AtHead f w code j m mf r s)
    (hg : g s = s.onStream f w code body) (hb : body j m mf r s = t) : onForge f g s = .next (t.wentOn j) := by
  rw [onForge_of_job (State.job_of_jobForge h.job), hg, ← hb]
  unfold State.onStream
  rw [h.job]
  dsimp only
  rw [h.run]
  dsimp only
  rw [h.live, h.running, h.going, h.word, h.code, bne_self_eq_false, bne_self_eq_false]
  rfl

/-- A change of a forge goes by what the forge is. -/
theorem State.modForge_congr {g g' : Forge → Forge} (h : g s.forges[f] = g' s.forges[f]) : s.modForge f g = s.modForge f g' :=
  congrArg (fun x => ({ s with forges := s.forges.set f x } : State)) h

/-! ### Phases and control flow -/

/-- Settles O44: an instruction at the head of the stream does what its code says. -/
theorem streamControlCompletes : Obligations.StreamControlCompletes := by
  refine ⟨fun f w j m mf r s => ⟨fun h hd => onForge_of_head h rfl ?_, fun h hd => onForge_of_head h rfl ?_,
      fun k h hw => onForge_of_head h rfl ?_, fun k h hw => onForge_of_head h rfl ?_⟩,
    fun f w j m mf r s => ⟨fun a h ha => onForge_of_head h rfl ?_, fun ret rest h hn => onForge_of_head h rfl ?_,
      fun h => onForge_of_head h rfl ?_⟩⟩
  · dsimp only
    rw [hd]
  · rw [hd]
  · dsimp only
    rw [hw]
  · rw [hw]
  · rw [ha]
    rfl
  · refine State.modForge_congr ?_
    rw [hn]
  · exact State.modForge_congr (if_congr (Iff.of_eq (by rw [Bool.or_eq_true, decide_eq_true_iff, decide_eq_true_iff])) rfl rfl)

/-! ### Configuration -/

/-- Settles O45: each instruction sets its engine's configuration, a table load once its engine is idle and its rows are there. -/
theorem engineConfigurationCompletes : Obligations.EngineConfigurationCompletes := by
  refine fun f w j m mf r s => ⟨fun h => onForge_of_head h rfl rfl, fun h => onForge_of_head h rfl rfl,
    fun h => onForge_of_head h rfl rfl, fun h hc => onForge_of_head h rfl (if_neg (by rw [hc]; exact Bool.false_ne_true)),
    fun h hi hf hc hb ho => onForge_of_head h rfl ?_, fun h hi hf hc hb => onForge_of_head h rfl ?_⟩
  · dsimp only
    rw [hi, hf, hc, if_neg (by decide), if_neg (by decide)]
    dsimp only
    rw [hb]
    dsimp only
    rw [ho]
    rfl
  · dsimp only
    rw [hi, hf, hc, if_neg (by decide), if_neg (by decide)]
    dsimp only
    rw [hb]

/-! ### Issue -/

/-- A Crucible instruction that passes its checks takes its place (R175). -/
theorem onForge_of_crucIssue {g : State → State} {env : Lines} {c : CrucJob} (hg : g s = crucIssue code f w env s)
    (h : AtHead f w code j m mf r s) (hl : (s.forges[f]).crucAhead.1.length < 3)
    (hc : c = { word := w, cfg := (s.forges[f]).cruc.cfg, pc := (s.forges[f]).pc, env }) (hk : c.check m mf = none) :
    onForge f g s = .next (((s.modForge f fun x => { x with cruc := { x.cruc with
      issued := x.crucAhead.1 ++ c :: x.crucAhead.2 } }).advance f).wentOn j) := by
  subst hc
  refine onForge_of_head h hg ?_
  dsimp only
  rw [if_neg (Nat.not_le.mpr hl), hk]

/-- A Press instruction that passes its checks takes its place (R153). -/
theorem onForge_of_pressIssue {g : State → State} {p : PressJob} (hg : g s = pressIssue code f w s) (h : AtHead f w code j m mf r s)
    (hl : (s.forges[f]).press.issued.length < 3) (hp : p = { word := w, pc := (s.forges[f]).pc }) (hok : p.ok (s.forges[f]).press mf = true)
    (hpl : p.placed m r s.fns[j.fn] = true) :
    onForge f g s = .next (((s.modForge f fun x => { x with press := { x.press with issued := x.press.issued ++ [p] } }).advance f).wentOn j) := by
  subst hp
  refine onForge_of_head h hg ?_
  dsimp only
  rw [if_neg (Nat.not_le.mpr hl), hok, hpl]
  rfl

/-- Settles O46: an instruction that passes its checks takes its place behind those already issued. -/
theorem engineIssueCompletes : Obligations.EngineIssueCompletes := by
  refine fun f w j m mf r s => ⟨fun a ha h hl ho => onForge_of_head h rfl ?_,
    fun stages c hc h hl hn hs hnest hk => onForge_of_head h (if_neg (by rw [h.code]; decide)) ?_,
    fun env c hc h hl hk => onForge_of_crucIssue rfl h hl hc hk, fun c hc h hl hk => onForge_of_crucIssue rfl h hl hc hk,
    fun c code p hp hcode h hl hok hpl => ?_⟩
  · subst ha
    dsimp only
    rw [if_neg (Nat.not_le.mpr hl), ho]
    rfl
  · subst hc
    dsimp only
    rw [hs, hn, hnest, if_neg]
    · rw [beq_self_eq_true, List.all_nil, Bool.and_self, hk]
    · simpa using hl
  · obtain ⟨rfl, rfl⟩ | ⟨rfl, rfl⟩ | ⟨rfl, rfl⟩ := hcode
    · exact onForge_of_pressIssue rfl h hl hp hok hpl
    · exact onForge_of_pressIssue rfl h hl hp hok hpl
    · exact onForge_of_pressIssue rfl h hl hp hok hpl

/-! ### Tongs and Plinth -/

/-- A cached line of the results of the fence's Plinths for the function (R278). -/
def resultLine (j : Job) (w : BitVec 128) (l : CacheLine) : Bool := match l.plinth with
  | some n => bit (wB w 1 1) n.val && l.fn == j.fn
  | none => false

/-- Settles O47: each instruction acts on its channels or its Plinth, and the stream goes on. -/
theorem tongsAndPlinthStreamComplete : Obligations.TongsAndPlinthStreamComplete := by
  refine fun f w j m mf r s => ⟨fun c h hc h1 h4 hlen hq => onForge_of_head h rfl ?_,
    fun h he => onForge_of_head h rfl (if_pos he), fun h => onForge_of_head h rfl rfl, fun h hi' => ?_,
    fun n p t h hn hm hp hlt hle hu hr ho => onForge_of_head h rfl ?_⟩
  · subst hc
    dsimp only
    rw [if_neg, if_neg (Nat.not_le.mpr hq)]
    simp only [Bool.or_eq_true, decide_eq_true_eq]
    omega
  · refine ⟨({ s with cache := s.cache.filter fun l => !resultLine j w l } : State).advance f, onForge_of_head h rfl (if_neg ?_), rfl,
      fun l => ?_⟩
    · simp only [Bool.and_eq_true, List.any_eq_true, beq_iff_eq]
      rintro ⟨n, -, hn, c, hc, i, hi, hf⟩
      exact hi' n hn c hc i hi hf
    · refine List.mem_filter.trans (and_congr_right fun _ => ?_)
      unfold resultLine
      cases l.plinth with
      | none => simp
      | some n => simpa using or_comm.trans imp_iff_not_or.symm
  · subst hn
    dsimp only
    rw [hm, if_pos rfl, hp]
    dsimp only
    rw [if_neg, hu, if_neg (by decide), hr]
    dsimp only
    rw [ho]
    simp only [Bool.or_eq_true, decide_eq_true_eq]
    split <;> omega

end

end Sys2Proof.Machine
end

section
/-! Tongs descriptors (R86 to R105). -/

namespace Sys2Proof.Machine

section
variable {f : ForgeId} {c : TongsId} {op : Nat} {j : Job} {m : Mould} {mf : MForge} {r : Running} {a : TActive} {s t v : State}

/-- A descriptor that is active, or may be, runs: what its operation gives is the state it leaves and what it notes (R101). -/
theorem AtDesc.onDesc (h : AtDesc f c op j m mf r a s t)
    (move : Job → Mould → MForge → Running → BitVec 512 → State → State × Except Block (Nat × (TActive → TActive))) :
    s.onDesc f c op move =
      let d := mf.tongs.getD a.index 0
      match move j m mf r d t with
      | (s, .error (.divert alt)) => (s.callAlternate f j m mf r alt).noteMoved f j c d 0 fun a =>
          { a with diverted := true, hasCrc := dFlag d 0, crc := if dFlag d 0 then crc32c (s.storedBytes j.fn (dSrc d) r) else 0 }
      | (s, .error b) => s.noteBlock f j c d a.index b
      | (s, .ok (n, g)) => s.noteMoved f j c d n g := by
  obtain ⟨j', m', mf', hj, rfl⟩ := h.taken
  obtain rfl : j' = j := Option.some.inj ((State.job_of_jobForge hj).symm.trans h.home)
  have hgo : (dOp (mf.tongs.getD a.index 0) != op || a.moved || r.rerun) = false := by
    rw [h.code, h.still, h.live, bne_self_eq_false]
    rfl
  unfold State.onDesc
  rw [hj]
  dsimp only
  rw [h.job, h.active]
  dsimp only
  rw [h.run]
  exact if_neg (by rw [hgo]; exact Bool.false_ne_true)

variable {g : State → State} {move : Job → Mould → MForge → Running → BitVec 512 → State → State × Except Block (Nat × (TActive → TActive))}

/-- A descriptor whose bytes have moved notes it, and its mould goes on. -/
theorem AtDesc.moved (h : AtDesc f c op j m mf r a s t) (hg : g s = s.onDesc f c op move) {n : Nat} {e : TActive → TActive}
    (hm : move j m mf r (mf.tongs.getD a.index 0) t = (v, .ok (n, e))) :
    onForge f g s = .next ((v.noteMoved f j c (mf.tongs.getD a.index 0) n e).wentOn j) := by
  rw [onForge_of_job h.home, hg, h.onDesc]
  dsimp only
  rw [hm]

/-- A descriptor whose source diverts calls the alternate (R62). -/
theorem AtDesc.diverted (h : AtDesc f c op j m mf r a s t) (hg : g s = s.onDesc f c op move) {alt : Nat}
    (hm : move j m mf r (mf.tongs.getD a.index 0) t = (v, .error (.divert alt))) :
    let d := mf.tongs.getD a.index 0
    onForge f g s = .next (((v.callAlternate f j m mf r alt).noteMoved f j c d 0 fun a =>
      { a with diverted := true, hasCrc := dFlag d 0, crc := if dFlag d 0 then crc32c (v.storedBytes j.fn (dSrc d) r) else 0 }).wentOn j) := by
  rw [onForge_of_job h.home, hg, h.onDesc]
  dsimp only
  rw [hm]

/-- A descriptor whose bytes have moved and that writes no result row completes once its writes have responses (R101). -/
theorem tongsDescComplete_of_moved (hj : s.jobForge f = some (j, m, mf)) (ha : ((s.forges[f]).tchans[c]).active = some a)
    (hm : a.moved = true) (hp : a.aperture = []) (hf : a.failed = none) (hr : dResult (mf.tongs.getD a.index 0) = 0xFFFFFFFF) :
    tongsDescComplete f c s = ((s.finishDesc f j mf c a).modForge f fun x => { x with tchans := vmod x.tchans c fun t =>
      { t with stopping := false } }).loadChan f c := by
  have hacc : resultAcc (mf.tongs.getD a.index 0) = [] := if_pos hr
  unfold tongsDescComplete
  rw [hj, ha]
  dsimp only
  rw [hm, hp, if_neg (by decide), hf, hacc]
  rfl

theorem tongsDescComplete_of_failed (hj : s.jobForge f = some (j, m, mf)) (ha : ((s.forges[f]).tchans[c]).active = some a)
    (hm : a.moved = true) (hp : a.aperture = []) {st : Status} (hf : a.failed = some st) :
    tongsDescComplete f c s = s.descFails f j c st a.index := by
  unfold tongsDescComplete
  rw [hj, ha]
  dsimp only
  rw [hm, hp, if_neg (by decide), hf]

end

/-- Settles O48: a descriptor that nothing blocks moves its bytes as its operation says, and completes. -/
theorem tongsDescriptorsComplete : Obligations.TongsDescriptorsComplete := by
  refine ⟨fun f c env j m mf r a t t₁ t₂ bs s h => ?_, fun f c j m mf r a t t₂ s h => ?_,
    fun f c env j m mf r a t t₁ t₂ bs cs s h => ?_, fun f c j m mf r a t s h => ?_,
    fun f c env j m mf r a t t₁ t₂ t₃ bs out s h => ?_,
    fun f c j m mf a s hj ha hm hp => ⟨fun st hf => ?_, fun hf hr => ?_⟩⟩
  · intro d slot hb hd hw
    refine ⟨fun hr hwr => h.moved rfl ?_, fun alt hr => h.diverted rfl ?_⟩
    · dsimp only
      rw [hb]
      dsimp only
      rw [hd, hw, if_neg Bool.false_ne_true, if_neg Bool.false_ne_true, hr]
      dsimp only
      rw [hwr]
    · dsimp only
      rw [hb]
      dsimp only
      rw [hd, hw, if_neg Bool.false_ne_true, if_neg Bool.false_ne_true, hr]
  · intro d bs hb hd hw hwr
    refine h.moved rfl ?_
    dsimp only
    rw [hb]
    dsimp only
    rw [hd, hw, if_neg Bool.false_ne_true, if_neg Bool.false_ne_true, hwr]
  · intro d slot hr₁ hr₂
    refine h.moved rfl ?_
    dsimp only
    rw [hr₁]
    dsimp only
    rw [hr₂]
  · intro d plinth base
    exact h.moved rfl rfl
  · intro d slot hb hr hfold hw
    refine h.moved rfl ?_
    dsimp only
    rw [hb]
    dsimp only
    rw [hr]
    dsimp only
    rw [hfold]
    dsimp only
    rw [hw]
  · exact (onForge_of_job (State.job_of_jobForge hj)).trans
      (congrArg (fun v => Host.Outcome.next (State.wentOn v j)) (tongsDescComplete_of_failed hj ha hm hp hf))
  · exact (onForge_of_job (State.job_of_jobForge hj)).trans
      (congrArg (fun v => Host.Outcome.next (State.wentOn v j)) (tongsDescComplete_of_moved hj ha hm hp hf hr))

end Sys2Proof.Machine
end

section
/-! The Plinths: their units and their upkeep (R258 to R280). -/

namespace Sys2Proof.Machine

section
variable {n : PlinthId} {c : ChainId} {s : State}

theorem State.modPlinth_congr {g g' : Plinth → Plinth} (h : g s.plinths[n] = g' s.plinths[n]) : s.modPlinth n g = s.modPlinth n g' :=
  congrArg (fun x => ({ s with plinths := s.plinths.set n x } : State)) h

theorem State.modPlinth_self {g : Plinth → Plinth} (h : g s.plinths[n] = s.plinths[n]) : s.modPlinth n g = s := by
  refine (congrArg (fun v => ({ s with plinths := v } : State)) ?_ : s.modPlinth n g = { s with plinths := s.plinths })
  unfold vmod
  rw [h]
  exact Vector.set_getElem_self n.isLt

/-! ### Units -/

/-- A DOT at the head of its chain starts its access phase (R267). -/
theorem dot_of_head {i : UInstr} (h : (s.refill n 64).unitHead n c 1 = some i) :
    dot n c s =
      let t := if (((s.refill n 64).plinths[n]).chains[c]).ordQ = [] then s.refill n 64 else (s.refill n 64).serveOrd n c
      (t.modPlinth n fun p => { p with chains := vmod p.chains c fun x =>
        { x with queue := x.queue.drop 1, access := some (t.startDot n c i) } }).refill n 64 := by
  unfold dot
  dsimp only
  rw [h]
  dsimp only
  rw [if_congr (List.isEmpty_iff) rfl rfl]

theorem ldr_of_head {i : UInstr} (h : (s.refill n 64).unitHead n c 2 = some i) :
    ldr n c s = ((s.refill n 64).modPlinth n fun p => countInstr { p with chains := vmod p.chains c fun x =>
      { x with queue := x.queue.drop 1, regs := (s.refill n 64).ldrRegs n i x.regs } }).modPlinth n Plinth.fixCompute := by
  unfold ldr
  dsimp only
  rw [h]

theorem unitNop_of_head {i : UInstr} (h : s.unitHead n c 0 = some i) :
    unitNop n c s = (s.modPlinth n fun p => (countInstr { p with chains := vmod p.chains c fun x =>
      { x with queue := x.queue.drop 1 } }).fixCompute).refill n 64 := by
  unfold unitNop
  rw [h]

theorem accessPhaseEnd_of_access {w : UWork} (ha : ((s.plinths[n]).chains[c]).access = some w) (hc : ((s.plinths[n]).chains[c]).compute = none) :
    accessPhaseEnd n c s = (s.modPlinth n fun p => { p with
      chains := vmod p.chains c fun x => { x with access := none, compute := some w } }).serveOrd n c := by
  unfold accessPhaseEnd
  dsimp only
  rw [ha, hc]

/-- The end of a computation goes by the pages of its rows and the result blocks that it reads back (R277, R279). -/
theorem resultRelease_of_compute {w : UWork} (rows results : List BlockErr) (hw : ((s.plinths[n]).chains[c]).compute = some w) :
    resultRelease n c rows results s =
      let t := s.meetRows n w.instr rows
      let part := t.partBlocks n c w results
      let u := t.modPlinth n fun p => p.countFixed part
      if w.lost || (t.rowPagesOf w.instr.word).any t.lostHome then (t.badRead n c w).settle
      else if part.any (·.ue) then
        ((((part.filter (·.ue)).foldl (fun s b =>
          s.countT2 (some w.instr.fn) (s.resultDie w.instr.fn n (c.val * 64 + b.block)) false) u).modPlinth n fun p =>
            p.failLines c w).replayInstr w.instr).settle
      else u.releaseWork n c w := by
  unfold resultRelease
  rw [hw]

theorem plinthApertureWrite_of_group {f : ForgeId} {h : TongsId} {j : Job} {m : Mould} {mf : MForge} {a : TActive} {g : BitVec 2048}
    {rest : List (PlinthId × BitVec 2048)} (hj : s.jobForge f = some (j, m, mf)) (ha : ((s.forges[f]).tchans[h]).active = some a)
    (hg : a.aperture = (n, g) :: rest) (hu : (s.plinths[n]).linkUp = true) :
    plinthApertureWrite f h s = (s.takeGroup n j.fn f g a 9).1.modForge f fun x => { x with tchans := vmod x.tchans h fun t =>
      { t with active := some (s.takeGroup n j.fn f g a 9).2 } } := by
  unfold plinthApertureWrite
  rw [hj, ha]
  dsimp only
  rw [hg]
  dsimp only
  rw [hu]
  rfl

/-! ### Refreshes and scrubs -/

/-- A refresh that meets no work changes nothing (R276). -/
theorem plinthRefresh_eq (dev : Fin 6) (bank : Fin 16) :
    plinthRefresh n dev bank s =
      if (s.plinths[n]).refreshHits dev bank || s.refreshMeets n dev bank then s.modPlinth n fun p => { p with suspends := inc32 p.suspends }
      else s := by
  unfold plinthRefresh
  dsimp only
  split
  · rfl
  · exact State.modPlinth_self rfl

/-- A Plinth's counters are no part of what makes a block valid (R259). -/
theorem State.blockValid_modPlinth {g : Plinth → Plinth} (hg : ∀ p, (g p).valid = p.valid) (frame block : Nat) :
    (s.modPlinth n g).blockValid frame block = s.blockValid frame block := by
  have hv : ∀ i : PlinthId, ((s.modPlinth n g).plinths[i]).valid = (s.plinths[i]).valid := by
    intro i
    rw [modPlinth_plinths, vmod_get]
    split
    · next hi => exact hi ▸ hg _
    · rfl
  unfold State.blockValid
  rw [hv]
  rfl

variable {frame : Nat} {e : BlockErr}

theorem plinthScrub_of_frame (hf : (s.t2.any fun x => x.num == frame) = true) (hn : frame % 8 = n.val) (hb : e.block < 512) :
    plinthScrub n frame e s = if s.accessHits (t2Die frame (4096 * e.block)) 4096 then
        s.queueOrd n (t2Chain (t2Die frame (4096 * e.block))) (.scrub frame e)
      else s.scrubBlock n frame e := by
  unfold plinthScrub
  rw [hf, hn, bne_self_eq_false]
  refine if_neg ?_
  simpa using hb

/-- What a scrub does once its block's corrections are counted (R262). -/
theorem State.scrubBlock_of_counted {t : State} (ht : (s.modPlinth n fun p => if s.blockValid frame e.block then p.countFixed [e]
      else { p with ceOdecc := satAdd 32 p.ceOdecc e.odecc }) = t) :
    s.scrubBlock n frame e = if !s.blockValid frame e.block || !e.ue then t
      else match t.t2Range (t2Die frame (4096 * e.block)) with
        | some (g, addr) => (t.ueT2 g addr false).1
        | none => t.countT2 ((t.t2.find? (·.num == frame)).bind fun x => t.frameFn x.use) (t2Die frame (4096 * e.block)) false := by
  have hv : t.blockValid frame e.block = s.blockValid frame e.block := by
    rw [← ht]
    refine State.blockValid_modPlinth (fun p => ?_) frame e.block
    split <;> rfl
  rw [← hv, ← ht]
  rfl

theorem State.scrubBlock_of_invalid (h : s.blockValid frame e.block = false) :
    s.scrubBlock n frame e = s.modPlinth n fun p => { p with ceOdecc := satAdd 32 p.ceOdecc e.odecc } := by
  have hn : ¬s.blockValid frame e.block = true := by
    rw [h]
    exact Bool.false_ne_true
  have hc : (s.modPlinth n fun p => if s.blockValid frame e.block then p.countFixed [e]
      else { p with ceOdecc := satAdd 32 p.ceOdecc e.odecc }) =
        s.modPlinth n fun p => { p with ceOdecc := satAdd 32 p.ceOdecc e.odecc } := State.modPlinth_congr (if_neg hn)
  rw [State.scrubBlock_of_counted hc, h]
  rfl

/-- The corrections of a block that holds data, counted as its decoder gives them (R259). -/
def State.scrubCount (s : State) (n : PlinthId) (e : BlockErr) : State := s.modPlinth n fun p => { p with
  ceOdecc := satAdd 32 p.ceOdecc e.odecc
  ceCheck := match blockClass e.errs with
    | .fixed _ _ => inc32 p.ceCheck
    | _ => p.ceCheck }

theorem State.scrubBlock_of_valid (h : s.blockValid frame e.block = true) :
    (e.ue = false → s.scrubBlock n frame e = s.scrubCount n e) ∧
    ∀ g a, e.ue = true → (s.scrubCount n e).t2Range (t2Die frame (4096 * e.block)) = some (g, a) →
      s.scrubBlock n frame e = ((s.scrubCount n e).ueT2 g a false).1 := by
  have hc : (s.modPlinth n fun p => if s.blockValid frame e.block then p.countFixed [e]
      else { p with ceOdecc := satAdd 32 p.ceOdecc e.odecc }) = s.scrubCount n e := State.modPlinth_congr (if_pos h)
  refine ⟨fun hu => ?_, fun g a hu hr => ?_⟩
  · rw [State.scrubBlock_of_counted hc, h, hu]
    rfl
  · rw [State.scrubBlock_of_counted hc, h, hu, if_neg (by decide), hr]

/-! ### Links and timers -/

theorem plinthLinkFlit_of_up (ok : Bool) (ho : s.plinthOn n = true) (hu : (s.plinths[n]).linkUp = true) :
    plinthLinkFlit n ok s = s.modPlinth n fun p =>
      if ok then { p with linkFails := 0 }
      else if p.linkFails + 1 < 8 then { p with linkFails := p.linkFails + 1 }
      else { p with linkFails := 0, linkUp := false, selfRefresh := 0x3F } :=
  if_neg (by rw [ho, hu]; decide)

theorem plinthInstructionTimeout_of_running
    (h : (((s.plinths[n]).chains[c]).access.isSome || ((s.plinths[n]).chains[c]).compute.isSome) = true) :
    plinthInstructionTimeout n c s = ((s.modPlinth n fun p => p.fail .timeout 5 c.val).anneal (.plinthUnit n c) 0x0103).settle := by
  refine if_neg ?_
  rw [Bool.and_eq_true, Option.isNone_iff_eq_none, Option.isNone_iff_eq_none]
  rintro ⟨ha, hc⟩
  rw [ha, hc] at h
  cases h

end

/-- Settles O50: a unit takes what stands at its head, and the upkeep goes by what it meets. -/
theorem plinthCommandsComplete : Obligations.PlinthCommandsComplete := by
  refine ⟨fun n c s => ⟨fun i h => congrArg Host.Outcome.next (dot_of_head h), fun i h => congrArg Host.Outcome.next (ldr_of_head h),
      fun i h => congrArg Host.Outcome.next (unitNop_of_head h), fun w ha hc => congrArg Host.Outcome.next (accessPhaseEnd_of_access ha hc),
      fun w rows results badTags hw => ?_,
      fun f h j m mf a g rest hj ha hg hu => congrArg Host.Outcome.next (plinthApertureWrite_of_group hj ha hg hu)⟩,
    fun n s => ⟨fun dev bank => ⟨fun h => ?_, fun h h' => ?_⟩, fun frame block r hf hn hb => ?_,
      fun ho hu => ⟨?_, fun hl => ?_, fun hl => ?_⟩, fun ho => ?_,
      fun c h => congrArg Host.Outcome.next (plinthInstructionTimeout_of_running h)⟩⟩
  · intro t part u k gone
    have hx : ∀ {v}, resultRelease n c (blockErrs rows badTags) (blockErrs results []) s = v →
        exec (.resultRelease n c rows badTags results) s = .next v := congrArg Host.Outcome.next
    refine ⟨fun hg => hx ((resultRelease_of_compute _ _ hw).trans (if_pos hg)), fun hg hp => hx ((resultRelease_of_compute _ _ hw).trans ?_),
      fun hg hp => hx ((resultRelease_of_compute _ _ hw).trans ?_)⟩
    · exact (if_neg (Bool.not_eq_true _ ▸ hg)).trans ((if_neg (Bool.not_eq_true _ ▸ hp)).trans rfl)
    · exact (if_neg (Bool.not_eq_true _ ▸ hg)).trans (if_pos hp)
  · exact congrArg Host.Outcome.next ((plinthRefresh_eq dev bank).trans (if_pos (Bool.or_eq_true_iff.mpr h)))
  · refine congrArg Host.Outcome.next ((plinthRefresh_eq dev bank).trans (if_neg ?_))
    rw [h, h']
    exact Bool.false_ne_true
  · intro e die
    have hx : ∀ {v}, plinthScrub n frame e s = v → exec (.plinthScrub n frame block r) s = .next v := congrArg Host.Outcome.next
    have hs := plinthScrub_of_frame (e := e) hf hn hb
    refine ⟨fun ha => hx (hs.trans (if_pos ha)), fun ha hv => hx (hs.trans ?_), fun ha hv => ?_⟩
    · exact (if_neg (by rw [ha]; exact Bool.false_ne_true)).trans (State.scrubBlock_of_invalid hv)
    · have hscrub := hs.trans (if_neg (by rw [ha]; exact Bool.false_ne_true))
      obtain ⟨hfine, hue⟩ := State.scrubBlock_of_valid (n := n) hv
      exact ⟨fun hu => hx (hscrub.trans (hfine hu)), fun g a hu hr => hx (hscrub.trans (hue g a hu hr))⟩
  · exact congrArg Host.Outcome.next (plinthLinkFlit_of_up true ho hu)
  · exact congrArg Host.Outcome.next ((plinthLinkFlit_of_up false ho hu).trans (State.modPlinth_congr <| (if_neg Bool.false_ne_true).trans (if_pos (Nat.succ_lt_succ hl))))
  · exact congrArg Host.Outcome.next ((plinthLinkFlit_of_up false ho hu).trans (State.modPlinth_congr <| (if_neg Bool.false_ne_true).trans (if_neg (Nat.not_lt.mpr (Nat.succ_le_succ hl)))))
  · exact congrArg Host.Outcome.next (if_neg (by rw [ho]; decide))

end Sys2Proof.Machine
end
